-- ==== Sys2Proof/Word.lean ====
section
/-! DEFINITION. The word types, the parts of an instruction word, and what an acting agent brings to a step.

The spec counts bits from the least significant one and stores every multi-byte value little-endian
(spec/00_scope.md R3). -/

namespace Sys2Proof

/-- One byte. -/
abbrev Byte := BitVec 8

/-- The 64-bit value of a queue entry, a register, a code address or a record word (R53, R58, R59). -/
abbrev Word := BitVec 64

/-- The 96 bits of one instruction slot (R71). -/
abbrev Slot96 := BitVec 96

/-- A set of the 32 lanes of a group: bit l is lane l (R22). -/
abbrev LaneMask := BitVec 32

/-- Bytes in a fetch line (R71). -/
def lineBytes : Nat := 64

/-- Slots in a fetch line (R71). -/
def lineSlots : Nat := 5

/-- Lanes of a group (R22). -/
def groupLanes : Nat := 32

/-- The common fields of every instruction word but its opcode, which is the constructor (R75). -/
structure Common where
  tt : BitVec 8
  ga : BitVec 3
  gb : BitVec 3
  gc : BitVec 3
  wait : BitVec 12
  set1 : BitVec 4
  set2 : BitVec 4
  dist : BitVec 3
  deriving DecidableEq, Repr

/-- Format T: a destination and three sources (R80). -/
structure FmtT where
  dst : BitVec 6
  sa : BitVec 6
  sb : BitVec 6
  sc : BitVec 6
  la : BitVec 1
  lb : BitVec 1
  lc : BitVec 1
  type : BitVec 5
  rnd : BitVec 2
  ftz : BitVec 1
  sat : BitVec 1
  mod : BitVec 12
  deriving DecidableEq, Repr

/-- Format I: a destination, a source and an immediate (R82). -/
structure FmtI where
  dst : BitVec 6
  sa : BitVec 6
  mod : BitVec 4
  imm : BitVec 32
  deriving DecidableEq, Repr

/-- Format P: a predicate pair (R83). -/
structure FmtP where
  pa : BitVec 3
  pb : BitVec 3
  sa : BitVec 6
  sb : BitVec 6
  mode : BitVec 2
  cond : BitVec 4
  type : BitVec 5
  ftz : BitVec 1
  rsv : BitVec 18
  deriving DecidableEq, Repr

/-- Format B: branches and `regroup` (R84). -/
structure FmtB where
  sa : BitVec 6
  mod : BitVec 4
  rsv : BitVec 6
  ofs : BitVec 32
  deriving DecidableEq, Repr

/-- Format M: memory and holdings (R85). -/
structure FmtM where
  dst : BitVec 6
  sa : BitVec 6
  sd : BitVec 6
  space : BitVec 3
  width : BitVec 3
  order : BitVec 2
  scope : BitVec 3
  hint : BitVec 2
  sgn : BitVec 1
  ofs : BitVec 16
  deriving DecidableEq, Repr

/-- Format E: engine, matrix, ring, transport and launch commands (R86). -/
structure FmtE where
  dst : BitVec 6
  ua : BitVec 6
  ub : BitVec 6
  uc : BitVec 6
  tag : BitVec 6
  acq : BitVec 1
  rel : BitVec 1
  scope : BitVec 3
  mod : BitVec 13
  deriving DecidableEq, Repr

/-- Format S: system, synchronisation and special registers (R87). -/
structure FmtS where
  dst : BitVec 6
  sa : BitVec 6
  sel : BitVec 12
  imm : BitVec 24
  deriving DecidableEq, Repr

/-- The format-specific part of an instruction word (R79). -/
inductive Fmt where
  | t (f : FmtT)
  | i (f : FmtI)
  | p (f : FmtP)
  | b (f : FmtB)
  | m (f : FmtM)
  | e (f : FmtE)
  | s (f : FmtS)
  deriving DecidableEq, Repr

/-- An instruction word by its parts: opcode, common fields, format (R75, R79). -/
structure View where
  opc : BitVec 8
  c : Common
  f : Fmt
  deriving DecidableEq, Repr

/-- What a detected error of a checked unit did on its one retry (R371): there was none, it cleared, it recurred. -/
inductive ErrClass where
  | none
  | transient
  | lasting
  deriving DecidableEq, Repr

/-- What a patrol scrub finds (R403): nothing, an error the code corrects, one it cannot. -/
inductive ScrubOutcome where
  | clean
  | corrected
  | uncorrectable
  deriving DecidableEq, Repr

/-- A queue script image as it is bound: where it lies, its bytecodes, its security version, whether Ezwell's
signature check passes (R289, R322). -/
structure ScriptImage where
  addr : Nat
  code : List (BitVec 32)
  version : Nat
  signed : Bool
  deriving DecidableEq, Repr

/-- A firmware or kernel image offered to Ezwell (R322, R426). -/
structure SignedImage where
  version : Nat
  digest : BitVec 256
  signed : Bool
  deriving DecidableEq, Repr

/-- A configuration record (R324): `signer` is the public key under which its signature verifies, and `enrol` the operator key that
it enrols. -/
structure ConfigRecord where
  seq : Nat
  signer : Nat
  enrol : Option Nat
  minFirmware : Nat
  minKernel : Nat
  minScript : Nat
  tenantLimit : Nat
  ports : BitVec 8
  debugAllowed : Bool
  digest : BitVec 256
  deriving DecidableEq, Repr

/-- A debug consent token (R328): the public key under which its signature verifies, whether it names this device, the tenant it
names, the stop modes it permits (bit m is mode m of R367) and its expiry in TIME nanoseconds. -/
structure DebugToken where
  signer : Nat
  thisDevice : Bool
  tenant : Nat
  modes : BitVec 3
  expiry : Nat
  deriving DecidableEq, Repr

/-- What a new tenant context is made with (R304), with the partitions that the kernel assigns it (R391). -/
structure TenantConfig where
  root : Nat
  host : Bool
  quota : Nat
  reserve : List Nat
  tablePool : List Nat
  frames : List Nat
  queues : List Nat
  pasids : List (Nat × Nat)
  ringBase : Nat
  ringLog2 : Nat
  ringCons : Nat
  serviceQueue : Nat
  counters : List Nat
  partitions : List (Nat × BitVec 8)
  debugKey : Nat
  table : Option Nat := none
  deriving DecidableEq, Repr

/-- A packet that the network brings back for a transport command: the code (R334), the bytes of a get or the old value of an atomic,
its place among the packets of the answer; whether it was trimmed or uses a part that R329 marks unsupported; and whether it is a NACK
that asks for a packet of the command again (R417). -/
structure NetAnswer where
  code : BitVec 8
  data : List Byte
  packet : Nat := 0
  total : Nat := 1
  trimmed : Bool := false
  unsupported : Bool := false
  again : Bool := false
  deriving DecidableEq, Repr

/-- The delivery modes of the transport (R329). -/
inductive NetMode where
  | rud
  | rudi
  | rod
  | uud
  deriving DecidableEq, Repr

/-- What every arriving packet carries (R329, R330, R417): the job key, the peer module, the number of that peer's message and of
the packet in it, by which a retransmitted copy is known, the delivery mode, whether it was trimmed, and whether it uses another part
that R329 marks unsupported. In a message that leaves, the peer is the module it goes to. -/
structure NetHead where
  jobKey : Nat
  peer : Nat
  msg : Nat
  packet : Nat
  mode : NetMode
  trimmed : Bool
  unsupported : Bool
  deriving DecidableEq, Repr

/-- The reduction step that an abort names, and the code it carries (R345, R419). -/
structure NetAbort where
  step : Nat
  code : BitVec 8
  deriving DecidableEq, Repr

/-- An arriving write packet (R333, R335): one of the `total` packets of its message. -/
structure NetPut where
  head : NetHead
  addr : Nat
  data : List Byte
  counter : Option Nat
  total : Nat
  deriving DecidableEq, Repr

/-- An arriving packet of a send or deferrable send (R340 to R342), one of the `total` packets of its message. -/
structure NetSend where
  head : NetHead
  source : BitVec 128
  mailbox : Nat
  data : List Byte
  total : Nat := 1
  deriving DecidableEq, Repr

/-- An arriving atomic (R336): the operation and width fields are those of `nx.atom` (R331). -/
structure NetAtomic where
  head : NetHead
  addr : Nat
  op : BitVec 4
  b32 : Bool
  signed : Bool
  operand : Word
  compare : Word
  deriving DecidableEq, Repr

/-- An arriving packet, one of `total`, of a partial, or of the root's result on its way down, of a reduction step (R343, R344).
A value is poisoned where its flag is set. -/
structure NetPartial where
  head : NetHead
  cid : Nat
  step : Nat
  pm1 : Nat
  type : BitVec 5
  op : BitVec 2
  first : Nat
  count : Nat
  rank : Nat
  down : Bool
  values : List (Word × Bool)
  total : Nat := 1
  deriving DecidableEq, Repr

/-- A permission change of some of the small entries of a splintered page (R191): the first entry, how many, and their RD, WR and
EX. -/
structure PermChange where
  first : Nat
  count : Nat
  rd : Bool
  wr : Bool
  ex : Bool
  deriving DecidableEq, Repr, Inhabited

/-- What asks for a splinter (R191, R406): a page of it that is to be retired, and the permission change to apply after it. -/
structure SplinterCause where
  badPage : Bool
  change : Option PermChange
  deriving DecidableEq, Repr, Inhabited

/-- A restore of a compressed frame (R310): the entry that maps it, the address that was accessed, and the die of the access. -/
structure Restore where
  pte : Nat
  va : Nat
  die : Option Nat
  deriving DecidableEq, Repr, Inhabited

/-- A host read of the lend window (R307): its address, and whether the line reads uncorrectable (R310). -/
structure HostRead where
  hpa : Nat
  uncorrectable : Bool
  deriving DecidableEq, Repr, Inhabited

/-- The PCIe AtomicOps that the device completes (R205). -/
inductive HostAtomic where
  | fetchAdd
  | swap
  | cas
  deriving DecidableEq, Repr

/-- An access of a host to BAR 2 (R316), of some bytes. -/
inductive BarAccess where
  | write (size : Nat) (value : Word)
  | read (size : Nat)
  deriving DecidableEq, Repr

/-- What a Gleden core does with a word of module memory (row GLEDEN_CORE_ACCESS): loads it, stores it, wakes some waiters of the
key that it is in a tenant's space, 0 for all (R321), or performs an
atomic with the operation codes of `nx.atom` (R331): 0 add, 1 min, 2 max, 3 and, 4 or, 5 xor, 6 swap, 7 compare and
swap. -/
inductive GledenOp where
  | load
  | store (value : Word)
  | wake (tenant count : Nat)
  | atomic (op : BitVec 3) (signed : Bool) (operand compare : Word)
  deriving DecidableEq, Repr

/-- An ATS Translation Completion (R318, R414): not present, failed, or an HPA with permissions. -/
inductive AtsAnswer where
  | notPresent
  | failure
  | done (hpa : Nat) (rd wr : Bool)
  deriving DecidableEq, Repr

end Sys2Proof
end

