-- ==== Sys2Proof/Config.lean ====
section
/-! DEFINITION. What one module fixes, and the free values: constants without a body, so that no proof can see what they
are. A free value is applied to a counter of the state (a fresh choice each time) or to the operands it depends on. -/

namespace Sys2Proof.Config

/-- A fresh choice between two members of a permitted set (R8); log entry 2. -/
opaque freeBit : Nat → Bool

/-- A fresh choice among many members of a permitted set (R8); log entry 2. -/
opaque freeNat : Nat → Nat

/-- A fresh word, where any value is permitted; log entry 2. -/
opaque freeWord : Nat → Word

/-- The count that a die's core counters stand ahead of the module's cycle number (R66: the counts of different dies are
not aligned); log entry 10. -/
opaque clockOffset : Nat → Nat

/-- Which of the results that R137 permits `rcp`, `rsqrt`, `exp2`, `log2`, `sin` and `cos` give for an input: a function
of the opcode, TYPE, FTZ and the input bits; log entry 11. -/
opaque special : BitVec 8 → BitVec 5 → BitVec 1 → Word → Nat

/-- Which of the values that R281 permits gelu (code 2) and silu (code 3) give for an input, log entry 12. -/
opaque activation : Nat → BitVec 32 → Nat

/-- SHAKE256 at 256 bits over a list of numbers (R322, R396), log entry 13. -/
opaque digest : List Nat → BitVec 256

/-- The bytes of a signature or public key of Ezwell (R323, R325): which one, its index and its length; log entry 13. -/
opaque signature : Nat → Nat → Nat → List Byte

/-- The key that Ezwell's generator puts into a slot (R326): tenant, slot, creation number; log entry 13. -/
opaque tenantKey : Nat → Nat → Nat → BitVec 512

/-- The words of a connection's congestion record that the spec describes by name only (R339): handle, word, draw;
log entry 14. -/
opaque congestion : Nat → Nat → Nat → BitVec 32

/-- A byte of what the data of a line, written under one key slot, becomes under another (R326): key, line, true key, data, byte;
log entry 13. -/
opaque wrongKey : Nat → Nat → Nat → Nat → Nat → Byte

/-- The vendor's public key, as a number (R322, R324); log entry 13. -/
opaque vendorKey : Nat

/-- The port that a connection's path, an entropy value, takes (R418): handle, path; log entry 14. -/
opaque pathPort : Nat → Nat → Fin 8

/-- The answer of the Gleden kernel's own program, which the spec does not give, to a script's request (R290): class,
arguments, draw; log entry 15. -/
opaque kernelReply : Nat → List Word → Nat → Word

/-- Where a core's aperture of the state window has the record of a group slot, and of its n-th resident team, in words
from the aperture's start (R399 states that the place is fixed and not where); log entry 23. -/
opaque groupRecordAt : Nat → Nat
opaque teamRecordAt : Nat → Nat

/-- Where hub SRAM has the queue descriptors (R283), a tenant's mailbox entries (R340) and its context (R304), in words from the
start of the trusted base's own addresses; log entry 24. -/
opaque queueTableAt : Fin 8372224
opaque mailboxTableAt : Nat → Fin 8355840
opaque contextAt : Nat → Fin 8372224

/-- Where hub SRAM has the Gleden kernel's fault queue (R364) and its containment queue (R389); log entry 24. -/
opaque faultQueueAt : Fin 8355840
opaque killQueueAt : Fin 7864320

/-- The physical addresses of the queue descriptors, of a tenant's mailbox entries and context, and of the two queues. -/
def queueTable : Nat := 0x30000000000 + 8 * queueTableAt.val
def mailboxTable (tenant : Nat) : Nat := 0x30000000000 + 8 * (mailboxTableAt tenant).val
def context (tenant : Nat) : Nat := 0x30000000000 + 8 * (contextAt tenant).val
def faultQueue : Nat := 0x30000000000 + 8 * faultQueueAt.val
def killQueue : Nat := 0x30000000000 + 8 * killQueueAt.val

/-- Where region 0x3000_0000 of the state window has the head index of the containment queue, the fault records and the ring of kill
and item records, in words; and where region 0x2000_0000 has the block of a connection (R364, R389, R339, R400); log entry 24. -/
opaque killHeadAt : Fin 33554432
opaque faultsAt : Fin 33554432
opaque killsAt : Fin 33554432
opaque connAt : Nat → Fin 33554432

/-- The words of a region of the state window whose layout no rule gives, as a function of what the region holds (R400): region,
contents, word; log entry 46. -/
opaque windowLayout : Nat → List Nat → Nat → Word

/-- The readings that platform monitoring reports (R426), log entry 16. -/
opaque monitor : Nat → List Word

end Sys2Proof.Config
end

