-- ==== Sys2Proof/Machine/Bits.lean ====
section
/-! DEFINITION. Bit fields, extensions, byte order, and code addresses. -/

namespace Sys2Proof.Machine

/-- Bits hi to lo of a number (R3). -/
def nbits (x hi lo : Nat) : Nat := (x >>> lo) % 2 ^ (hi + 1 - lo)

/-- Bits hi to lo of a word, as a number (R3). -/
def bits (x : Word) (hi lo : Nat) : Nat := nbits x.toNat hi lo

/-- Bit i of a word. -/
def bit (x : Word) (i : Nat) : Bool := x.toNat.testBit i

/-- A number as a word, modulo 2^64. -/
def word (n : Nat) : Word := BitVec.ofNat 64 n

/-- The low w bits of x read as a two's-complement integer. -/
def signedOf (w x : Nat) : Int :=
  let y := x % 2 ^ w
  if 2 * y < 2 ^ w then (y : Int) else (y : Int) - (2 ^ w : Nat)

/-- An integer modulo 2^w. -/
def wrap (w : Nat) (i : Int) : Nat := (i % ((2 ^ w : Nat) : Int)).toNat

/-- `sext(x, w)` of R95. -/
def sextW (w x : Nat) : Word := word (wrap 64 (signedOf w x))

/-- `zext(x, w)` of R95. -/
def zextW (w x : Nat) : Word := word (x % 2 ^ w)

/-- A Boolean as a number. -/
def b2n (b : Bool) : Nat := if b then 1 else 0

/-- The n bytes of a number, the least significant first (R3). -/
def leBytes : Nat → Nat → List Byte
  | 0, _ => []
  | n + 1, v => BitVec.ofNat 8 v :: leBytes n (v / 256)

/-- The number that bytes hold, the least significant first (R3). -/
def leNat : List Byte → Nat
  | [] => 0
  | b :: t => b.toNat + 256 * leNat t

/-- The bytes of a list of words. -/
def wordsBytes (ws : List Word) : List Byte := ws.flatMap fun w => leBytes 8 w.toNat

/-- Whether a lane is in a mask. -/
def has (m : LaneMask) (l : Nat) : Bool := m.getLsbD l

/-- The lanes 0 to 31 for which a test holds. -/
def maskOf (f : Nat → Bool) : LaneMask :=
  (List.range 32).foldl (fun m l => if f l then m ||| BitVec.ofNat 32 (2 ^ l) else m) 0

/-- The lanes of a mask in ascending order. -/
def lanesOf (m : LaneMask) : List Nat := (List.range 32).filter (has m)

/-- How many lanes a mask holds. -/
def popcount (m : LaneMask) : Nat := (lanesOf m).length

/-- Position of the lowest bit of a number below n that is set. -/
def lowestBit (n x : Nat) : Option Nat := (List.range n).find? fun i => x.testBit i

/-- The linear slot number L(pc) (R74). -/
def linear (pc : Word) : Nat := pc.toNat / 64 * 5 + pc.toNat % 8

/-- The code address of a linear slot number (R74). -/
def ofLinear (n : Nat) : Word := word (n / 5 * 64 + n % 5)

/-- The sequential successor of a code address (R74). -/
def succPc (pc : Word) : Word := ofLinear (linear pc + 1)

/-- A slot number of at most 4 and zero in bits 5:3 (R29, R74). -/
def wellPlaced (pc : Word) : Bool := pc.toNat % 8 ≤ 4 && pc.toNat / 8 % 8 = 0

/-- The line address of a code address. -/
def lineOf (pc : Word) : Nat := pc.toNat / 64 * 64

/-- Replaces element i of a list by a function of it. -/
def updAt {α : Type} (f : α → α) : Nat → List α → List α
  | _, [] => []
  | 0, a :: t => f a :: t
  | n + 1, a :: t => a :: updAt f n t

/-- The elements of a list with their positions. -/
def withIdx {α : Type} (l : List α) : List (Nat × α) := (List.range l.length).zip l

/-- The greatest of a list of numbers, 0 for none. -/
def maxOf (l : List Nat) : Nat := l.foldl max 0

end Sys2Proof.Machine
end

