-- ==== Sys2Proof/Machine/Flags.lean ====
section
/-! DEFINITION. The floating-point formats, rounding, and the exception flags that each operation raises
(spec/06_number_formats.md, spec/07_float_conversion_instructions.md R131 to R144). A finite value is an integer times a
power of two; every operation computes the exact value and rounds once. -/

namespace Sys2Proof.Machine

/-- NX, UF, OF, DZ and NV as FPSTAT bits 0 to 4 hold them (R69). -/
abbrev FpFlags := BitVec 5

def fNX : FpFlags := 1
def fUF : FpFlags := 2
def fOF : FpFlags := 4
def fDZ : FpFlags := 8
def fNV : FpFlags := 16

/-- A format (R118): exponent and fraction bits, bias, whether the all-ones exponent holds infinities and NaNs, whether
it has signalling NaNs (R119). -/
structure FFmt where
  ebits : Nat
  mbits : Nat
  bias : Nat
  ieee : Bool
  signals : Bool
  deriving DecidableEq, Repr

def fmtF16 : FFmt := ⟨5, 10, 15, true, true⟩
def fmtBf16 : FFmt := ⟨8, 7, 127, true, true⟩
def fmtF32 : FFmt := ⟨8, 23, 127, true, true⟩
def fmtF64 : FFmt := ⟨11, 52, 1023, true, true⟩
def fmtE4m3 : FFmt := ⟨4, 3, 7, false, false⟩
def fmtE5m2 : FFmt := ⟨5, 2, 15, true, false⟩

/-- A dyadic number: an integer times a power of two. -/
abbrev Dy := Int × Int

/-- A value of a format: a NaN, signalling or quiet; an infinity; or a finite number, its magnitude m times 2^e. -/
inductive FNum where
  | nan (signalling : Bool)
  | inf (neg : Bool)
  | fin (neg : Bool) (m : Nat) (e : Int)
  deriving DecidableEq, Repr

namespace FFmt

def width (f : FFmt) : Nat := f.ebits + f.mbits + 1
def emin (f : FFmt) : Int := 1 - f.bias
/-- The exponent of the unit of the smallest binade. -/
def qmin (f : FFmt) : Int := f.emin - f.mbits
/-- The largest exponent of a finite value. -/
def emax (f : FFmt) : Int := (2 ^ f.ebits : Nat) - 1 - f.bias - b2n f.ieee
/-- The magnitude bits of +infinity. -/
def infBits (f : FFmt) : Nat := (2 ^ f.ebits - 1) * 2 ^ f.mbits
/-- The magnitude bits of the largest finite value. -/
def maxBits (f : FFmt) : Nat := if f.ieee then f.infBits - 1 else 2 ^ (f.width - 1) - 2
/-- The canonical NaN (R118, R119). -/
def canon (f : FFmt) : Nat := if f.ieee then f.infBits + 2 ^ (f.mbits - 1) else 2 ^ (f.width - 1) - 1
def signBit (f : FFmt) (neg : Bool) : Nat := if neg then 2 ^ (f.width - 1) else 0
def neg? (f : FFmt) (x : Nat) : Bool := x.testBit (f.width - 1)
def mag (f : FFmt) (x : Nat) : Nat := x % 2 ^ (f.width - 1)
/-- Whether bits hold a subnormal. -/
def subnormal (f : FFmt) (x : Nat) : Bool := f.mag x != 0 && f.mag x < 2 ^ f.mbits

/-- Reads bits as a value (R118); with flushing, a subnormal is a zero of its sign (R121). -/
def read (f : FFmt) (ftz : Bool) (x : Nat) : FNum :=
  let neg := f.neg? x
  let m := f.mag x
  let frac := m % 2 ^ f.mbits
  let ex := m / 2 ^ f.mbits
  if f.maxBits < m then
    if f.ieee && frac = 0 then .inf neg else .nan (f.signals && frac < 2 ^ (f.mbits - 1))
  else if ex = 0 then .fin neg (if ftz then 0 else frac) f.qmin
  else .fin neg (frac + 2 ^ f.mbits) (f.qmin + (ex : Int) - 1)

end FFmt

/-- Whether a magnitude is rounded away from zero: mode (R120), sign, the kept part's low bit, the remainder r of 2^s,
and whether bits below the remainder are lost too. -/
def roundsUp (rnd : Nat) (neg odd : Bool) (r s : Nat) (sticky : Bool) : Bool :=
  if r = 0 && !sticky then false
  else match rnd with
    | 0 => 2 ^ s < 2 * r || (2 * r = 2 ^ s && (sticky || odd))
    | 1 => false
    | 2 => !neg
    | _ => neg

/-- Rounds the magnitude m times 2^e to a multiple of 2^q; whether anything was lost. -/
def roundMag (rnd : Nat) (neg : Bool) (m : Nat) (e q : Int) (sticky : Bool) : Nat × Bool :=
  if q ≤ e then (m * 2 ^ (e - q).toNat, sticky)
  else
    let s := (q - e).toNat
    let k := m / 2 ^ s
    let r := m % 2 ^ s
    (k + b2n (roundsUp rnd neg (k % 2 = 1) r s sticky), r != 0 || sticky)

/-- The exponent of a nonzero magnitude. -/
def expOf (m : Nat) (e : Int) : Int := (m.log2 : Int) + e

/-- Rounds once to a format (R120 to R122), with the flags raised. `sticky` says that the exact magnitude lies above m
times 2^e by less than 2^e; `sat` is `.sat` of a conversion (R122, R142). -/
def FFmt.round (f : FFmt) (rnd : Nat) (ftz sat neg : Bool) (m : Nat) (e : Int) (sticky : Bool) : Nat × FpFlags :=
  let sg := f.signBit neg
  if m = 0 && !sticky then (sg, 0)
  else
    let x := expOf m e
    let q := max (x - f.mbits) f.qmin
    let (k, inexact) := roundMag rnd neg m e q sticky
    let b := (q - f.qmin).toNat * 2 ^ f.mbits + k
    if f.maxBits < b then
      if sat then (sg + f.maxBits, fNX)
      else if !f.ieee then (f.canon, fNV)
      else if rnd = 0 || (rnd = 2 && !neg) || (rnd = 3 && neg) then (sg + f.infBits, fOF ||| fNX)
      else (sg + f.maxBits, fOF ||| fNX)
    else if ftz && b < 2 ^ f.mbits then (sg, fUF ||| fNX)
    else
      let k' := (roundMag rnd neg m e (x - f.mbits) sticky).1
      let tiny := x < f.emin && !(x = f.emin - 1 && k' = 2 ^ (f.mbits + 1))
      (sg + b, (if inexact then fNX else 0) ||| (if tiny && inexact then fUF else 0))

/-- Rounds a dyadic number; an exact zero takes the sign given. -/
def FFmt.roundDy (f : FFmt) (rnd : Nat) (ftz sat : Bool) (zneg : Bool) (d : Dy) : Nat × FpFlags :=
  if d.1 = 0 then (f.signBit zneg, 0) else f.round rnd ftz sat (d.1 < 0) d.1.natAbs d.2 false

/-! ### Exact arithmetic on dyadic numbers -/

/-- A signed magnitude. -/
def signed (neg : Bool) (m : Nat) : Int := if neg then -(m : Int) else m

/-- A dyadic number at a lower exponent. -/
def Dy.at (d : Dy) (e : Int) : Int := d.1 * ((2 ^ (d.2 - e).toNat : Nat) : Int)

def Dy.add (a b : Dy) : Dy :=
  let e := min a.2 b.2
  (a.at e + b.at e, e)

def Dy.neg (a : Dy) : Dy := (-a.1, a.2)
def Dy.mul (a b : Dy) : Dy := (a.1 * b.1, a.2 + b.2)
def Dy.abs (a : Dy) : Dy := (a.1.natAbs, a.2)
def Dy.le (a b : Dy) : Bool :=
  let e := min a.2 b.2
  a.at e ≤ b.at e
def Dy.lt (a b : Dy) : Bool := !b.le a

/-! ### The arithmetic instructions (R131, R132) -/

def FNum.isNan : FNum → Bool
  | .nan _ => true
  | _ => false
def FNum.isSnan : FNum → Bool
  | .nan s => s
  | _ => false
def FNum.isInf : FNum → Bool
  | .inf _ => true
  | _ => false
def FNum.isZero : FNum → Bool
  | .fin _ m _ => m = 0
  | _ => false
def FNum.neg : FNum → Bool
  | .nan _ => false
  | .inf n => n
  | .fin n _ _ => n
def FNum.flip : FNum → FNum
  | .nan s => .nan s
  | .inf n => .inf !n
  | .fin n m e => .fin (!n) m e
def FNum.dy : FNum → Dy
  | .fin n m e => (signed n m, e)
  | _ => (0, 0)

/-- The flags that NaN inputs raise. -/
def nanFlags (xs : List FNum) : FpFlags := if xs.any FNum.isSnan then fNV else 0

/-- The sum of exact terms, each a finite value or an infinity; `none` for infinities of both signs. The sign of an exact
zero is that of R131. -/
def sumTerms (f : FFmt) (rnd : Nat) (ftz : Bool) (ts : List FNum) : Option (Nat × FpFlags) :=
  let pos := ts.any fun t => t.isInf && !t.neg
  let ngv := ts.any fun t => t.isInf && t.neg
  if pos && ngv then none
  else if pos || ngv then some (f.signBit ngv + f.infBits, 0)
  else
    let zneg := if ts.all fun t => t.neg then true else if ts.all fun t => !t.neg then false else rnd = 3
    some (f.roundDy rnd ftz false zneg (ts.foldl (fun a t => Dy.add a t.dy) (0, 0)))

/-- An exact product; `none` for 0 times an infinity. -/
def mulNum (a b : FNum) : Option FNum :=
  let n := a.neg != b.neg
  match a, b with
  | .fin _ m e, .fin _ m' e' => some (.fin n (m * m') (e + e'))
  | .inf _, y => if y.isZero then none else some (.inf n)
  | x, _ => if x.isZero then none else some (.inf n)

/-- Finishes an operation: NaN inputs and invalid operations give the canonical NaN (R119). -/
def FFmt.finish (f : FFmt) (ins : List FNum) (invalid : Bool) (r : Nat × FpFlags) : Nat × FpFlags :=
  if ins.any FNum.isNan || invalid then (f.canon, nanFlags ins ||| (if invalid then fNV else 0)) else r

def FFmt.add (f : FFmt) (rnd : Nat) (ftz : Bool) (a b : FNum) : Nat × FpFlags :=
  if a.isNan || b.isNan then f.finish [a, b] false (0, 0)
  else match sumTerms f rnd ftz [a, b] with
    | none => f.finish [a, b] true (0, 0)
    | some r => r

def FFmt.mul (f : FFmt) (rnd : Nat) (ftz : Bool) (a b : FNum) : Nat × FpFlags :=
  if a.isNan || b.isNan then f.finish [a, b] false (0, 0)
  else match mulNum a b with
    | none => f.finish [a, b] true (0, 0)
    | some (.fin n m e) => f.round rnd ftz false n m e false
    | some p => (f.signBit p.neg + f.infBits, 0)

/-- a × b + c, rounded once; 0 × ∞ is invalid also when c is a quiet NaN. -/
def FFmt.fma (f : FFmt) (rnd : Nat) (ftz : Bool) (a b c : FNum) : Nat × FpFlags :=
  let nan := a.isNan || b.isNan
  let p := if nan then none else mulNum a b
  let bad := !nan && p.isNone
  if nan || c.isNan || bad then f.finish [a, b, c] bad (0, 0)
  else match sumTerms f rnd ftz [p.getD (.fin false 0 0), c] with
    | none => f.finish [a, b, c] true (0, 0)
    | some r => r

/-- `hdot2` (R136): two exact products and c, rounded once. Where the sum has infinities of both signs and another input is a
quiet NaN, the spec does not say whether the sum counts as invalid: the result is the canonical NaN and NV is not raised
(DESIGN CHOICE, log entry 49). -/
def FFmt.dot2 (f : FFmt) (rnd : Nat) (ftz : Bool) (a0 b0 a1 b1 c : FNum) : Nat × FpFlags :=
  let pair := fun (a b : FNum) => !(a.isNan || b.isNan) && (mulNum a b).isNone
  let bad := pair a0 b0 || pair a1 b1
  let ins := [a0, b0, a1, b1, c]
  if ins.any FNum.isNan || bad then f.finish ins bad (0, 0)
  else match sumTerms f rnd ftz [(mulNum a0 b0).getD (.fin false 0 0), (mulNum a1 b1).getD (.fin false 0 0), c] with
    | none => f.finish ins true (0, 0)
    | some r => r

/-- a × 2^n (R132). -/
def FFmt.scale (f : FFmt) (rnd : Nat) (ftz : Bool) (a : FNum) (n : Int) : Nat × FpFlags :=
  match a with
  | .nan s => (f.canon, if s then fNV else 0)
  | .inf g => (f.signBit g + f.infBits, 0)
  | .fin g m e => f.round rnd ftz false g m (e + n) false

/-- Whether a < b, −0 less than +0 (R133). -/
def FNum.totalLt (a b : FNum) : Bool :=
  match a, b with
  | .inf n, .inf n' => n && !n'
  | .inf n, _ => n
  | _, .inf n => !n
  | .fin n m e, .fin n' m' e' => if m = 0 ∧ m' = 0 then n && !n' else Dy.lt (signed n m, e) (signed n' m', e')
  | _, _ => false

/-- The bits of a value that the format holds exactly. -/
def FFmt.exact (f : FFmt) (a : FNum) : Nat :=
  match a with
  | .nan _ => f.canon
  | .inf g => f.signBit g + f.infBits
  | .fin g m e => (f.round 1 false false g m e false).1

/-- minimumNumber and maximumNumber (R133). -/
def FFmt.minmax (f : FFmt) (mx : Bool) (a b : FNum) : Nat × FpFlags :=
  let fl := nanFlags [a, b]
  if a.isNan then (f.exact b, fl)
  else if b.isNan then (f.exact a, fl)
  else (f.exact (if b.totalLt a != mx then b else a), fl)

/-- How two values compare, −0 equal to +0: less, equal, greater, or unordered. -/
def FNum.cmp (a b : FNum) : Option Ordering :=
  if a.isNan || b.isNan then none
  else if a.isZero && b.isZero then some .eq
  else if a.totalLt b then some .lt
  else if b.totalLt a then some .gt
  else some .eq

/-- A condition of `fcmp` and `dcmp` with the flags raised (R140). -/
def fcond (cond : Nat) (a b : FNum) : Bool × FpFlags :=
  let o := FNum.cmp a b
  let un := o.isNone
  let lt := o == some .lt
  let eq := o == some .eq
  let gt := o == some .gt
  let v := match cond with
    | 0 => eq
    | 1 => !eq
    | 2 => lt
    | 3 => lt || eq
    | 4 => gt
    | 5 => gt || eq
    | 6 => un
    | 7 => !un
    | 8 => lt || un
    | 9 => lt || eq || un
    | 10 => gt || un
    | _ => gt || eq || un
  (v, if (2 ≤ cond && cond ≤ 5 && un) || a.isSnan || b.isSnan then fNV else 0)

/-- `fclass` (R139). -/
def FFmt.classOf (f : FFmt) (x : Nat) : Nat :=
  match f.read false x with
  | .nan s => if s then 1 else 2
  | .inf n => if n then 4 else 512
  | .fin n m _ =>
    if m = 0 then (if n then 32 else 64)
    else if f.subnormal x then (if n then 16 else 128) else (if n then 8 else 256)

/-! ### Conversions (R122, R142) -/

/-- A value as another format; infinities under `.sat` give the largest finite value (R122, R142). -/
def FFmt.convert (f : FFmt) (rnd : Nat) (ftz sat : Bool) (a : FNum) : Nat × FpFlags :=
  match a with
  | .nan s => (f.canon, if s || !f.signals then fNV else 0)
  | .inf g =>
    if sat then (f.signBit g + f.maxBits, fNX)
    else if f.ieee then (f.signBit g + f.infBits, 0)
    else (f.canon, fNV)
  | .fin g m e => f.round rnd ftz sat g m e false

/-- Float to integer (R142): rounded, clamped to lo to hi, and a NaN gives 0. The range is judged on the rounded value, and a
value beyond it raises NV alone, not NX: R142 says neither (DESIGN CHOICE, log entry 49). -/
def toInt (rnd : Nat) (lo hi : Int) (a : FNum) : Int × FpFlags :=
  match a with
  | .nan _ => (0, fNV)
  | .inf g => (if g then lo else hi, fNV)
  | .fin g m e =>
    let (k, inexact) := roundMag rnd g m e 0 false
    let v := signed g k
    if v < lo then (lo, fNV) else if hi < v then (hi, fNV) else (v, if inexact then fNX else 0)

/-! ### The special functions (R137, R138) -/

/-- The integer square root of a number below 2^(2n). -/
def isqrt : Nat → Nat → Nat
  | 0, _ => 0
  | n + 1, x =>
    let r := 2 * isqrt n (x / 4)
    if (r + 1) * (r + 1) ≤ x then r + 1 else r

/-- √(m × 2^e), correctly rounded (R137). -/
def FFmt.sqrtPos (f : FFmt) (rnd : Nat) (ftz : Bool) (m : Nat) (e : Int) : Nat × FpFlags :=
  let s := 2 * (f.mbits + 4) + (if (e - 2 * (f.mbits + 4 : Nat)) % 2 = 0 then 0 else 1)
  let x := m * 2 ^ s
  let r := isqrt (x.log2 / 2 + 1) x
  f.round rnd ftz false false r ((e - (s : Int)) / 2) (r * r != x)

/-- ⌊2 π × 2^320⌋. -/
def twoPi320 : Nat :=
  13420802360424337830311681948440006481608388178854297901454212848703426437343610760199000777828079

/-- ⌊ln 2 × 2^300⌋. -/
def ln2at300 : Nat :=
  1411965743695424507508857192728570223734551239724995589061361292466257174357546532574725854

/-- The terms t, t·x/(a+1), t·x²/((a+1)(a+2)) … of a series at scale 2^250, added up. -/
def expSeries : Nat → Nat → Nat → Nat → Nat
  | 0, _, _, _ => 0
  | fuel + 1, k, t, x => t + expSeries fuel (k + 1) (t * x / (k * 2 ^ 250)) x

/-- The alternating series of sine and cosine at scale 2^220. -/
def trigSeries : Nat → Nat → Int → Nat → Int
  | 0, _, _, _ => 0
  | fuel + 1, k, t, x =>
    t + trigSeries fuel (k + 2) (-(t * (x : Int) / ((2 ^ 220 : Nat) : Int) * (x : Int) /
      (((k * (k + 1)) * 2 ^ 220 : Nat) : Int))) x

/-- The bits of log2 of y / 2^500, for y / 2^500 in [1, 2). -/
def log2Bits : Nat → Nat → Nat → Nat
  | 0, _, acc => acc
  | fuel + 1, y, acc =>
    let z := y * y / 2 ^ 500
    if 2 ^ 501 ≤ z then log2Bits fuel (z / 2) (2 * acc + 1) else log2Bits fuel z (2 * acc)

/-- The function's value at m × 2^e of the given sign: the exact value lies within 2^40 units of the last place of the
number given, which is less than any distance that decides whether a result lies within its bound (log entry 11). -/
def specialApprox (opc : Nat) (neg : Bool) (m : Nat) (e : Int) : Dy :=
  match opc with
  | 0x56 => (signed neg (2 ^ 240 / m), -240 - e)
  | 0x57 =>
    let k := 240 + (if e % 2 = 0 then 0 else 1)
    let x := 2 ^ (2 * 240) * 2 ^ (k - 240) / m
    ((isqrt 250 x : Nat), -240 - (e + (k - 240 : Nat)) / 2)
  | 0x58 =>
    let a := signed neg m
    if expOf m e ≥ 8 then (1, if neg then -300 else 300)
    else
      let fx := a * ((2 ^ (e + 250).toNat : Nat) : Int)
      let n := fx / ((2 ^ 250 : Nat) : Int)
      let t := (fx % ((2 ^ 250 : Nat) : Int)).toNat * ln2at300 / 2 ^ 300
      ((expSeries 64 1 (2 ^ 250) t : Nat), n - 250)
  | 0x59 =>
    let y := m * 2 ^ (500 - m.log2)
    (expOf m e * ((2 ^ 240 : Nat) : Int) + (log2Bits 240 y 0 : Nat), -240)
  | o =>
    let x : Nat := (m * 2 ^ (e + 320).toNat % twoPi320) / 2 ^ 100
    let v := if o = 0x5A then trigSeries 64 2 x x else trigSeries 64 1 (2 ^ 220 : Nat) x
    (if o = 0x5A && neg then -v else v, -220)

/-- The bound on the distance from the exact value y (R137). The spec does not say which binade an ulp is counted in: it
is that of the exact value, no lower than the smallest normal one and no higher than the largest (DESIGN CHOICE, log
entry 11). -/
def FFmt.bound (f : FFmt) (opc : Nat) (m : Nat) (e : Int) (y : Dy) : Dy :=
  let ulp := min (max (expOf y.1.natAbs y.2) f.emin) f.emax - f.mbits
  let abs22 : Dy := (1, -22)
  match opc with
  | 0x56 | 0x57 => (1, ulp)
  | 0x58 => (2, ulp)
  | 0x59 => if Dy.le (1, -1) ((m : Int), e) && Dy.le ((m : Int), e) (1, 1) then abs22 else (2, ulp)
  | _ => abs22

/-- Whether v lies within the bound of every value that the exact one may be, given its approximation y (R137). -/
def FFmt.near (f : FFmt) (opc : Nat) (m : Nat) (e : Int) (y v : Dy) : Bool :=
  [(y.1 - 2 ^ 40, y.2), (y.1 + 2 ^ 40, y.2)].all fun (z : Dy) => Dy.le ((v.add z.neg).abs) (f.bound opc m e z)

/-- A result that R137 permits: the value the implementation's function gives where it lies within the bound, and the
nearest value otherwise. An exact value of 2^(emax + 1) or more overflows, to an infinity or the largest finite value. An
infinity counts as 2^(emax + 1) otherwise. The exact value is never zero: R138 lists the inputs of which it is. -/
def FFmt.within (f : FFmt) (opc : Nat) (ftz : Bool) (cand : Nat) (m : Nat) (e : Int) (y : Dy) : Nat × FpFlags :=
  let top : Dy := (1, f.emax + 1)
  let v := cand % 2 ^ f.width
  let tooBig := Dy.le top y.abs
  let ok := match f.read false v with
    | .nan _ => false
    | .inf g => if tooBig then g = (y.1 < 0) else f.near opc m e y (if g then top.neg else top)
    | .fin g k x => if tooBig then f.mag v = f.maxBits && g = (y.1 < 0) else f.near opc m e y (signed g k, x)
  let b := if ok then v else (f.roundDy 0 false false (y.1 < 0) y).1
  if ftz && f.subnormal b then (f.signBit (f.neg? b), fUF ||| fNX)
  else (b, fNX ||| (if f.maxBits ≤ f.mag b then fOF else 0) ||| (if f.mag b < 2 ^ f.mbits then fUF else 0))

/-- Whether m × 2^e is a power of two, and its exponent. -/
def pow2? (m : Nat) (e : Int) : Option Int := if m = 2 ^ m.log2 then some (expOf m e) else none

/-- The integer that m × 2^e of a sign is, if it is one. -/
def integer? (neg : Bool) (m : Nat) (e : Int) : Option Int :=
  if 0 ≤ e then some (signed neg (m * 2 ^ e.toNat))
  else if m % 2 ^ (-e).toNat = 0 then some (signed neg (m / 2 ^ (-e).toNat)) else none

/-- An exact result, flushed under `.ftz` (R137, R138). -/
def FFmt.exactly (f : FFmt) (ftz neg : Bool) (e : Int) : Nat × FpFlags := f.round 0 ftz false neg 1 e false

/-- A special function (R137, R138). `cand` is what the implementation's function gives for the input. -/
def FFmt.special (f : FFmt) (opc rnd : Nat) (ftz : Bool) (cand : Nat) (a : FNum) : Nat × FpFlags :=
  let nan := (f.canon, fNV)
  match a with
  | .nan s => (f.canon, if s then fNV else 0)
  | .inf g =>
    match opc with
    | 0x56 => (f.signBit g, 0)
    | 0x57 => if g then nan else (0, 0)
    | 0x58 => if g then (0, 0) else (f.infBits, 0)
    | 0x5A | 0x5B => nan
    | _ => if g then nan else (f.infBits, 0)
  | .fin g m e =>
    if m = 0 then
      match opc with
      | 0x56 | 0x57 => (f.signBit g + f.infBits, fDZ)
      | 0x5F | 0x5A => (f.signBit g, 0)
      | 0x59 => (f.signBit true + f.infBits, fDZ)
      | _ => (f.bias * 2 ^ f.mbits, 0)
    else if g && (opc = 0x57 || opc = 0x5F || opc = 0x59) then nan
    else
      let free := f.within opc ftz cand m e (specialApprox opc g m e)
      match opc with
      | 0x5F => f.sqrtPos rnd ftz m e
      | 0x56 =>
        match pow2? m e with
        | some n => if f.qmin ≤ -n && -n ≤ f.emax then f.exactly ftz g (-n) else free
        | none => free
      | 0x57 =>
        match pow2? m e with
        | some n => if n % 2 = 0 then f.exactly ftz false (-(n / 2)) else free
        | none => free
      | 0x58 =>
        match integer? g m e with
        | some n => f.exactly ftz false (max (min n 5000) (-5000))
        | none => free
      | 0x59 =>
        match pow2? m e with
        | some n => f.roundDy 0 ftz false false (n, 0)
        | none => free
      | _ => free

end Sys2Proof.Machine
end

