-- ==== Sys2Proof/Syntax.lean ====
section
/-! DEFINITION. The syntax: one constructor for each row of the opcode table.

A Huaxus instruction keeps every field of its 96-bit word (spec/04_instruction_encoding.md R75 to R87), so that the
checks that R94 makes at decode can be stated over it. -/

namespace Sys2Proof


/-- Every step of the opcode table (spec/opcode_table.json), one constructor per row, in the table's order:
the 224 opcodes of R92 with their common fields and format, the 26 bytecodes of R290, and the steps that have no
encoding, whose arguments are what the acting agent brings. -/
inductive Instr where
  /-- R101. Pushes a + b modulo 2^w, saturating under .sat. -/
  | add (c : Common) (f : FmtT)
  /-- R103. Adds with carry-in from a predicate and optionally writes the carry-out to a predicate. -/
  | addc (c : Common) (f : FmtT)
  /-- R101. Pushes a − b modulo 2^w, saturating under .sat. -/
  | sub (c : Common) (f : FmtT)
  /-- R103. Subtracts with borrow-in from a predicate and optionally writes the borrow-out. -/
  | subb (c : Common) (f : FmtT)
  /-- R101. Pushes the low w bits of a × b. -/
  | mul (c : Common) (f : FmtT)
  /-- R101. Pushes the high w bits of the exact 2w-bit product. -/
  | mulhi (c : Common) (f : FmtT)
  /-- R104. Pushes the exact 2w-bit product, as two results at w = 64. -/
  | mulw (c : Common) (f : FmtT)
  /-- R101. Pushes a × b + c modulo 2^w. -/
  | mad (c : Common) (f : FmtT)
  /-- R101. Pushes the high half of a × b plus c, modulo 2^w. -/
  | madhi (c : Common) (f : FmtT)
  /-- R104. Pushes the exact a × b + c modulo 2^(2w). -/
  | madw (c : Common) (f : FmtT)
  /-- R101. Pushes −a, saturating under .sat. -/
  | neg (c : Common) (f : FmtT)
  /-- R101. Pushes |a|, saturating under .sat. -/
  | abs (c : Common) (f : FmtT)
  /-- R101. Pushes the lesser of a and b. -/
  | min (c : Common) (f : FmtT)
  /-- R101. Pushes the greater of a and b. -/
  | max (c : Common) (f : FmtT)
  /-- R105. Performs eight steps of restoring division and pushes the remainder and the quotient word. -/
  | divstep (c : Common) (f : FmtT)
  /-- R101. Pushes |a − b| + c modulo 2^w. -/
  | sad (c : Common) (f : FmtT)
  /-- R106. Compares two integers and writes a predicate pair in plain, and or or mode. -/
  | cmp (c : Common) (f : FmtP)
  /-- R107. Pushes a or b according to whether SC is nonzero. -/
  | sel (c : Common) (f : FmtT)
  /-- R107. Pushes a or b according to a predicate, optionally inverted. -/
  | selp (c : Common) (f : FmtT)
  /-- R107. Shifts left by a register count. -/
  | shl (c : Common) (f : FmtT)
  /-- R107. Shifts right with zero fill by a register count. -/
  | shr (c : Common) (f : FmtT)
  /-- R107. Shifts right with sign fill by a register count. -/
  | sar (c : Common) (f : FmtT)
  /-- R107. Rotates left by the count modulo w. -/
  | rotl (c : Common) (f : FmtT)
  /-- R107. Rotates right by the count modulo w. -/
  | rotr (c : Common) (f : FmtT)
  /-- R107. Funnel-shifts hi:lo left and pushes the upper word. -/
  | fshl (c : Common) (f : FmtT)
  /-- R107. Funnel-shifts hi:lo right and pushes the lower word. -/
  | fshr (c : Common) (f : FmtT)
  /-- R107. Sign-extends a from bit c − 1. -/
  | sext (c : Common) (f : FmtT)
  /-- R107. Clears the bits of a from bit c upward. -/
  | zext (c : Common) (f : FmtT)
  /-- R107. Pushes min(max(a, lo), hi). -/
  | clamp (c : Common) (f : FmtT)
  /-- R107. Shifts left by an immediate count. -/
  | shli (c : Common) (f : FmtI)
  /-- R107. Shifts right with zero fill by an immediate count. -/
  | shri (c : Common) (f : FmtI)
  /-- R107. Shifts right with sign fill by an immediate count. -/
  | sari (c : Common) (f : FmtI)
  /-- R108. Pushes the bitwise AND. -/
  | and (c : Common) (f : FmtT)
  /-- R108. Pushes the bitwise OR. -/
  | or (c : Common) (f : FmtT)
  /-- R108. Pushes the bitwise XOR. -/
  | xor (c : Common) (f : FmtT)
  /-- R108. Pushes the bitwise NOT. -/
  | not (c : Common) (f : FmtT)
  /-- R109. Pushes a three-input bitwise function given by an 8-bit table. -/
  | tbl3 (c : Common) (f : FmtT)
  /-- R108. Pushes a AND NOT b. -/
  | andn (c : Common) (f : FmtT)
  /-- R108. Pushes the count of 1 bits. -/
  | popc (c : Common) (f : FmtT)
  /-- R108. Pushes the count of leading zero bits. -/
  | clz (c : Common) (f : FmtT)
  /-- R108. Pushes the count of trailing zero bits. -/
  | ctz (c : Common) (f : FmtT)
  /-- R108. Pushes a with its bits reversed. -/
  | brev (c : Common) (f : FmtT)
  /-- R110. Extracts a bit field, sign-extending for i types. -/
  | bfe (c : Common) (f : FmtT)
  /-- R110. Inserts a bit field into a base word. -/
  | bfi (c : Common) (f : FmtT)
  /-- R111. Builds each result byte from source bytes under selector bytes. -/
  | bpick (c : Common) (f : FmtT)
  /-- R108. ANDs with an extended immediate over 64 bits. -/
  | andi (c : Common) (f : FmtI)
  /-- R108. ORs with an extended immediate over 64 bits. -/
  | ori (c : Common) (f : FmtI)
  /-- R108. XORs with an extended immediate over 64 bits. -/
  | xori (c : Common) (f : FmtI)
  /-- R113. Reads a value from an indexed lane within the segment. -/
  | lxAt (c : Common) (f : FmtT)
  /-- R113. Reads a value from the lane k places above within the segment, wrapping. -/
  | lxRot (c : Common) (f : FmtT)
  /-- R113. Reads a value from the lane k places away, or the fill at the segment edge. -/
  | lxSh (c : Common) (f : FmtT)
  /-- R113. Reads a value from the lane whose index is XORed with k. -/
  | lxFlip (c : Common) (f : FmtT)
  /-- R114. Pushes the 32-bit mask of participants contributing 1. -/
  | ballot (c : Common) (f : FmtT)
  /-- R114. Pushes 1 if every participant contributes 1. -/
  | pollAll (c : Common) (f : FmtT)
  /-- R114. Pushes 1 if some participant contributes 1. -/
  | pollAny (c : Common) (f : FmtT)
  /-- R114. Pushes 1 if every participant's contribution is equal. -/
  | pollSame (c : Common) (f : FmtT)
  /-- R115. Pushes the sum over participants modulo 2^w. -/
  | rdxAdd (c : Common) (f : FmtT)
  /-- R115. Pushes the least value over participants. -/
  | rdxMin (c : Common) (f : FmtT)
  /-- R115. Pushes the greatest value over participants. -/
  | rdxMax (c : Common) (f : FmtT)
  /-- R115. Pushes the AND, OR or XOR over participants. -/
  | rdxLop (c : Common) (f : FmtT)
  /-- R115. Pushes the inclusive or exclusive prefix sum over participants. -/
  | scanAdd (c : Common) (f : FmtT)
  /-- R115. Pushes the inclusive or exclusive prefix logical combination. -/
  | scanLop (c : Common) (f : FmtT)
  /-- R116. Pushes the mask of participants holding an equal value. -/
  | matchV (c : Common) (f : FmtT)
  /-- R117. Sums floating values over participants in the fixed pairwise tree. -/
  | rdxFadd (c : Common) (f : FmtT)
  /-- R132. Adds two f32 values, rounded once. -/
  | fadd (c : Common) (f : FmtT)
  /-- R132. Subtracts two f32 values, rounded once. -/
  | fsub (c : Common) (f : FmtT)
  /-- R132. Multiplies two f32 values, rounded once. -/
  | fmul (c : Common) (f : FmtT)
  /-- R132. Computes a × b + c in f32 with one rounding. -/
  | ffma (c : Common) (f : FmtT)
  /-- R133. Pushes minimumNumber of two f32 values. -/
  | fmin (c : Common) (f : FmtT)
  /-- R133. Pushes maximumNumber of two f32 values. -/
  | fmax (c : Common) (f : FmtT)
  /-- R134. Clears the sign of an f32 value. -/
  | fabs (c : Common) (f : FmtT)
  /-- R134. Inverts the sign of an f32 value. -/
  | fneg (c : Common) (f : FmtT)
  /-- R135. Adds packed 16-bit float pairs. -/
  | hadd2 (c : Common) (f : FmtT)
  /-- R135. Subtracts packed 16-bit float pairs. -/
  | hsub2 (c : Common) (f : FmtT)
  /-- R135. Multiplies packed 16-bit float pairs. -/
  | hmul2 (c : Common) (f : FmtT)
  /-- R135. Fused multiply-adds packed 16-bit float pairs. -/
  | hfma2 (c : Common) (f : FmtT)
  /-- R135. Takes minimumNumber of packed 16-bit float pairs. -/
  | hmin2 (c : Common) (f : FmtT)
  /-- R135. Takes maximumNumber of packed 16-bit float pairs. -/
  | hmax2 (c : Common) (f : FmtT)
  /-- R136. Computes a packed two-element dot product plus an f32 addend, rounded once. -/
  | hdot2 (c : Common) (f : FmtT)
  /-- R132. Multiplies a by 2^n. -/
  | fscale (c : Common) (f : FmtT)
  /-- R132. Adds two f64 values. -/
  | dadd (c : Common) (f : FmtT)
  /-- R132. Subtracts two f64 values. -/
  | dsub (c : Common) (f : FmtT)
  /-- R132. Multiplies two f64 values. -/
  | dmul (c : Common) (f : FmtT)
  /-- R132. Computes a × b + c in f64 with one rounding. -/
  | dfma (c : Common) (f : FmtT)
  /-- R133. Pushes minimumNumber of two f64 values. -/
  | dmin (c : Common) (f : FmtT)
  /-- R133. Pushes maximumNumber of two f64 values. -/
  | dmax (c : Common) (f : FmtT)
  /-- R137. Starts a long-latency reciprocal within 1 ulp. -/
  | rcp (c : Common) (f : FmtT)
  /-- R137. Starts a long-latency reciprocal square root within 1 ulp. -/
  | rsqrt (c : Common) (f : FmtT)
  /-- R137. Starts a long-latency base-2 exponential. -/
  | exp2 (c : Common) (f : FmtT)
  /-- R137. Starts a long-latency base-2 logarithm. -/
  | log2 (c : Common) (f : FmtT)
  /-- R137. Starts a long-latency sine. -/
  | sin (c : Common) (f : FmtT)
  /-- R137. Starts a long-latency cosine. -/
  | cos (c : Common) (f : FmtT)
  /-- R139. Pushes a one-hot class mask of a floating value. -/
  | fclass (c : Common) (f : FmtT)
  /-- R140. Compares 16- or 32-bit floats and writes a predicate pair. -/
  | fcmp (c : Common) (f : FmtP)
  /-- R140. Compares f64 values and writes a predicate pair. -/
  | dcmp (c : Common) (f : FmtP)
  /-- R137. Starts a long-latency correctly rounded square root. -/
  | sqrt (c : Common) (f : FmtT)
  /-- R142. Converts between integer and IEEE float types. -/
  | cvt (c : Common) (f : FmtT)
  /-- R143. Packs two f32 into a 16-bit pair or unpacks one element. -/
  | cvtPk (c : Common) (f : FmtT)
  /-- R144. Narrows f32 into 8-bit float bytes or widens one byte to f32. -/
  | cvtF8 (c : Common) (f : FmtT)
  /-- R145. Pushes a copy of a. -/
  | mov (c : Common) (f : FmtT)
  /-- R145. Pushes an extended immediate. -/
  | movi (c : Common) (f : FmtI)
  /-- R145. Pushes the immediate in the high word over the low word of a. -/
  | movhi (c : Common) (f : FmtI)
  /-- R145. Adds an extended immediate modulo 2^64. -/
  | addi (c : Common) (f : FmtI)
  /-- R146. Reads a special register and pushes its value. -/
  | sregRd (c : Common) (f : FmtS)
  /-- R147. Replaces FPSTAT in guard-true lanes. -/
  | sregWr (c : Common) (f : FmtS)
  /-- R149. Writes a predicate from a three-input table of predicates. -/
  | plop (c : Common) (f : FmtS)
  /-- R150. Zeroes named predicates and clears their live bits. -/
  | pdead (c : Common) (f : FmtS)
  /-- R151. Pushes the predicates and their live bits as a word. -/
  | p2n (c : Common) (f : FmtT)
  /-- R151. Writes selected predicates from bits of a register. -/
  | n2p (c : Common) (f : FmtT)
  /-- R151. Pushes a lane mask relative to LANEID or of the issue set. -/
  | lmask (c : Common) (f : FmtT)
  /-- R145. Pushes an f32 immediate, or its exact f64 conversion. -/
  | fmovi (c : Common) (f : FmtI)
  /-- R145. Multiplies by an extended immediate, low 64 bits. -/
  | muli (c : Common) (f : FmtI)
  /-- R153. Branches each guard-true lane to a relative target. -/
  | bra (c : Common) (f : FmtB)
  /-- R153. Branches each guard-true lane to its own address. -/
  | brx (c : Common) (f : FmtB)
  /-- R157. Records the return address, spilling the link stack as needed, and branches. -/
  | call (c : Common) (f : FmtB)
  /-- R157. Calls a per-lane address. -/
  | callx (c : Common) (f : FmtB)
  /-- R157. Returns each lane to its own recorded address, refilling the link stack. -/
  | ret (c : Common) (f : FmtB)
  /-- R155. Decrements a count register and branches back while nonzero. -/
  | loop (c : Common) (f : FmtB)
  /-- R155. Branches when the tested value is zero. -/
  | braZ (c : Common) (f : FmtB)
  /-- R155. Branches when the tested value is nonzero. -/
  | braNz (c : Common) (f : FmtB)
  /-- R155. Branches into a table of 2^k slots by an index. -/
  | jtab (c : Common) (f : FmtB)
  /-- R163. Makes lanes wait until every member of the group or set has arrived. -/
  | join (c : Common) (f : FmtS)
  /-- R159. Sets guard-true lanes exited, or raises heirless exit. -/
  | exit (c : Common) (f : FmtS)
  /-- R161. Makes the stream ineligible until other streams have been chosen. -/
  | yield (c : Common) (f : FmtS)
  /-- R162. Writes a continuation record to the binner and exits the lane. -/
  | regroup (c : Common) (f : FmtB)
  /-- R165. Writes a LAUNCH packet to a device queue. -/
  | launch (c : Common) (f : FmtE)
  /-- R165. Writes a POOL packet to a device queue. -/
  | launchPool (c : Common) (f : FmtE)
  /-- R160. Wakes waiters on a key and exits the lane. -/
  | exitWk (c : Common) (f : FmtS)
  /-- R168. Arrives at a barrier without waiting and pushes the phase. -/
  | barArv (c : Common) (f : FmtS)
  /-- R168. Arrives at a barrier, or under .wo only waits, until the phase completes. -/
  | barSync (c : Common) (f : FmtS)
  /-- R168. Pushes a barrier's phase word without waiting. -/
  | barRd (c : Common) (f : FmtS)
  /-- R171. Adds guard-true lanes to a membership set. -/
  | setJoin (c : Common) (f : FmtS)
  /-- R171. Removes guard-true lanes from a membership set. -/
  | setLeave (c : Common) (f : FmtS)
  /-- R172. Arrives at the barrier over a membership set. -/
  | setSync (c : Common) (f : FmtS)
  /-- R173. Waits until every team of the preceding launch is released or retired. -/
  | gate (c : Common) (f : FmtS)
  /-- R173. Releases the lane's accesses and marks its group released for dependants. -/
  | rls (c : Common) (f : FmtS)
  /-- R174. Adds n to the team's lead counter. -/
  | leadAdv (c : Common) (f : FmtS)
  /-- R174. Waits while the team leads its neighbours by more than the allowance. -/
  | leadWait (c : Common) (f : FmtS)
  /-- R175. Waits until TIME reaches an absolute or relative target. -/
  | twait (c : Common) (f : FmtS)
  /-- R176. Raises user trap in guard-true lanes. -/
  | trap (c : Common) (f : FmtS)
  /-- R177. Writes a system-call request and waits for the reply. -/
  | sysc (c : Common) (f : FmtS)
  /-- R177. Writes a system-call request unless the ring is full. -/
  | syscTry (c : Common) (f : FmtS)
  /-- R178. Stops lanes under the debug stop mode when a session holds consent. -/
  | brk (c : Common) (f : FmtS)
  /-- R178. Does nothing. -/
  | nop (c : Common) (f : FmtS)
  /-- R212. Loads one element per guard-true lane. -/
  | ld (c : Common) (f : FmtM)
  /-- R212. Stores one element per guard-true lane. -/
  | st (c : Common) (f : FmtM)
  /-- R214. Loads one uniform value per issue. -/
  | ldK (c : Common) (f : FmtM)
  /-- R214. Stores one uniform value per issue. -/
  | stK (c : Common) (f : FmtM)
  /-- R217. Compress-stores guard-true lanes' data consecutively, with a resume point on fault. -/
  | stCmp (c : Common) (f : FmtM)
  /-- R217. Expand-loads consecutive elements into guard-true lanes. -/
  | ldExp (c : Common) (f : FmtM)
  /-- R218. Prefetches one line into L2 or the remote-data cache. -/
  | pf (c : Common) (f : FmtM)
  /-- R218. Prefetches a range of lines per issue. -/
  | pfK (c : Common) (f : FmtM)
  /-- R215. Stores the bytes selected by a byte mask. -/
  | stBm (c : Common) (f : FmtM)
  /-- R213. Loads two consecutive elements. -/
  | ld_2 (c : Common) (f : FmtM)
  /-- R213. Stores two consecutive elements. -/
  | st_2 (c : Common) (f : FmtM)
  /-- R219. Removes every line from the issuing core's L1. -/
  | l1Inv (c : Common) (f : FmtM)
  /-- R216. Non-faulting store that pushes a status. -/
  | stNt (c : Common) (f : FmtM)
  /-- R216. Non-faulting load that pushes a status and the value. -/
  | ldNt (c : Common) (f : FmtM)
  /-- R215. Writes zero to an aligned 64-byte line. -/
  | stZ (c : Common) (f : FmtM)
  /-- R219. Walks a translation, fills the TLB and pushes a leaf description. -/
  | xlatPf (c : Common) (f : FmtM)
  /-- R221. Atomically adds at the home and pushes the old value. -/
  | atomAdd (c : Common) (f : FmtM)
  /-- R221. Atomically takes the minimum and pushes the old value. -/
  | atomMin (c : Common) (f : FmtM)
  /-- R221. Atomically takes the maximum and pushes the old value. -/
  | atomMax (c : Common) (f : FmtM)
  /-- R221. Atomically ANDs and pushes the old value. -/
  | atomAnd (c : Common) (f : FmtM)
  /-- R221. Atomically ORs and pushes the old value. -/
  | atomOr (c : Common) (f : FmtM)
  /-- R221. Atomically XORs and pushes the old value. -/
  | atomXor (c : Common) (f : FmtM)
  /-- R221. Atomically exchanges and pushes the old value. -/
  | atomXchg (c : Common) (f : FmtM)
  /-- R222. Atomically compares and swaps, up to 128 bits. -/
  | atomCas (c : Common) (f : FmtM)
  /-- R221. Atomically increments with wrap to 0 at the bound. -/
  | atomInc (c : Common) (f : FmtM)
  /-- R223. Atomically adds floating values with RNE. -/
  | atomFadd (c : Common) (f : FmtM)
  /-- R223. Atomically takes the floating minimumNumber. -/
  | atomFmin (c : Common) (f : FmtM)
  /-- R223. Atomically takes the floating maximumNumber. -/
  | atomFmax (c : Common) (f : FmtM)
  /-- R224. Performs an atomic operation without a result. -/
  | red (c : Common) (f : FmtM)
  /-- R225. Orders the lane's accesses at a scope. -/
  | fence (c : Common) (f : FmtM)
  /-- R227. Optionally compares a key and enters its waiter list. -/
  | wait (c : Common) (f : FmtM)
  /-- R228. Wakes up to n waiters on a key and recalls host copies. -/
  | wake (c : Common) (f : FmtM)
  /-- R238. Takes a lock or waits on its cell. -/
  | lockAcq (c : Common) (f : FmtM)
  /-- R238. Takes a lock if it is free, without waiting. -/
  | lockTry (c : Common) (f : FmtM)
  /-- R239. Releases a lock and hands it to the oldest waiter. -/
  | lockRel (c : Common) (f : FmtM)
  /-- R240. Makes a promise pending with the group as holder. -/
  | promMake (c : Common) (f : FmtM)
  /-- R240. Keeps a promise with a value and wakes its waiters. -/
  | promKeep (c : Common) (f : FmtM)
  /-- R240. Waits for a promise to settle and pushes its status and value. -/
  | promWait (c : Common) (f : FmtM)
  /-- R240. Reads a promise's settlement without waiting. -/
  | promTry (c : Common) (f : FmtM)
  /-- R238. Takes a claim with a range or waits on its cell. -/
  | claimGet (c : Common) (f : FmtM)
  /-- R238. Takes a claim if it is free, without waiting. -/
  | claimTry (c : Common) (f : FmtM)
  /-- R239. Releases a claim and hands it off. -/
  | claimPut (c : Common) (f : FmtM)
  /-- R242. Sets the current or default heir, optionally for every entry. -/
  | heirSet (c : Common) (f : FmtS)
  /-- R243. Pushes the estate summary word. -/
  | estQ (c : Common) (f : FmtS)
  /-- R243. Pushes the two words of one estate entry. -/
  | estRd (c : Common) (f : FmtS)
  /-- R240. Drops a promise as bereaved and wakes its waiters. -/
  | promDrop (c : Common) (f : FmtM)
  /-- R239. Reserves a held claim for another group of the team. -/
  | claimPass (c : Common) (f : FmtM)
  /-- R242. Sets the current heir, and optionally every entry's heir, to none. -/
  | heirClr (c : Common) (f : FmtS)
  /-- R250. Queues a conversion of a tensor region into a canonical A tile. -/
  | cpTile (c : Common) (f : FmtE)
  /-- R250. Queues a conversion of a tensor region into a canonical B slot. -/
  | cpBld (c : Common) (f : FmtE)
  /-- R255. Queues a linear copy between spaces. -/
  | cpBulk (c : Common) (f : FmtE)
  /-- R255. Queues a gather of per-lane rows into scratchpad. -/
  | cpGath (c : Common) (f : FmtE)
  /-- R255. Queues a scatter of scratchpad rows to per-lane addresses. -/
  | cpScat (c : Common) (f : FmtE)
  /-- R259. Resumes the recorded failed command of a tag from its failing chunk. -/
  | cpRes (c : Common) (f : FmtE)
  /-- R261. Issues once every tag of a mask is ready and pushes the error mask. -/
  | tagWait (c : Common) (f : FmtE)
  /-- R261. Issues once some tag of a mask is ready and pushes the ready mask. -/
  | tagAny (c : Common) (f : FmtE)
  /-- R261. Pushes the index of the lowest ready tag of a mask. -/
  | tagFfr (c : Common) (f : FmtE)
  /-- R261. Pushes a tag's status word and underflow count, optionally clearing them. -/
  | tagSt (c : Common) (f : FmtE)
  /-- R262. Submits a decompression job card to a Cullet engine. -/
  | dzSub (c : Common) (f : FmtE)
  /-- R262. Continues a Cullet job parked with code 0x01. -/
  | dzRes (c : Common) (f : FmtE)
  /-- R255. Queues a conversion of an f32 scratchpad box to a tensor. -/
  | cpOut (c : Common) (f : FmtE)
  /-- R261. Clears the error state of every tag of a mask. -/
  | tagClr (c : Common) (f : FmtE)
  /-- R255. Queues a fill of a range with a 64-bit pattern. -/
  | cpFill (c : Common) (f : FmtE)
  /-- R263. Pushes a Cullet job's status word. -/
  | dzSt (c : Common) (f : FmtE)
  /-- R272. Queues a dense px matrix multiply-accumulate into the head tile. -/
  | mma (c : Common) (f : FmtE)
  /-- R273. Queues a 2:4 sparse matrix multiply-accumulate into the head tile. -/
  | mmaSk (c : Common) (f : FmtE)
  /-- R277. Closes the head tile and opens a zeroed new head. -/
  | ringAdv (c : Common) (f : FmtE)
  /-- R277. Reads one row of a selected ring tile into the lanes. -/
  | ringRd (c : Common) (f : FmtE)
  /-- R277. Writes one row of the head tile from the lanes. -/
  | ringWr (c : Common) (f : FmtE)
  /-- R277. Zeroes the head tile or frees the tail tile. -/
  | ringClr (c : Common) (f : FmtE)
  /-- R277. Pushes the ring status word. -/
  | ringSt (c : Common) (f : FmtE)
  /-- R278. Attaches an epilogue descriptor to the oldest closed tile without one. -/
  | epiPost (c : Common) (f : FmtE)
  /-- R275. Pushes a tile's check accumulators and check word. -/
  | chkRd (c : Common) (f : FmtE)
  /-- R333. Posts a remote write of local bytes to Pontil. -/
  | nxPut (c : Common) (f : FmtE)
  /-- R333. Posts a remote read into local memory to Pontil. -/
  | nxGet (c : Common) (f : FmtE)
  /-- R333. Posts a send to a remote mailbox, deferrable under .dfr. -/
  | nxSend (c : Common) (f : FmtE)
  /-- R336. Posts a remote atomic and reserves its result entry. -/
  | nxAtom (c : Common) (f : FmtE)
  /-- R344. Posts one step of a canonical-tree reduction. -/
  | nxRed (c : Common) (f : FmtE)
  /-- R337. Reads, optionally zeroes, and binds or unbinds a completion counter. -/
  | nxCnt (c : Common) (f : FmtE)
  /-- R339. Pushes a connection's congestion record. -/
  | nxCc (c : Common) (f : FmtE)
  /-- R290. Stops the script and performs the built-in handling. -/
  | scriptEnd
  /-- R290. Stops the script with no built-in handling and STS 0. -/
  | scriptDrop
  /-- R290. Loads a packet word into a script register. -/
  | scriptLdp (d : BitVec 4) (w : BitVec 12)
  /-- R290. Loads a context word into a script register. -/
  | scriptLdc (d : BitVec 4) (w : BitVec 12)
  /-- R290. Stores a script register to a context word. -/
  | scriptStc (a : BitVec 4) (w : BitVec 12)
  /-- R290. Loads a sign-extended 16-bit immediate. -/
  | scriptLi (d : BitVec 4) (i : BitVec 16)
  /-- R290. Shifts a register left 16 and inserts an immediate. -/
  | scriptLih (d : BitVec 4) (i : BitVec 16)
  /-- R290. Extracts a bit field of a register. -/
  | scriptBfx (d : BitVec 4) (a : BitVec 4) (l : BitVec 6) (p : BitVec 6)
  /-- R290. Adds two script registers. -/
  | scriptAdd (d : BitVec 4) (a : BitVec 4) (b : BitVec 4)
  /-- R290. Subtracts two script registers. -/
  | scriptSub (d : BitVec 4) (a : BitVec 4) (b : BitVec 4)
  /-- R290. ANDs two script registers. -/
  | scriptAnd (d : BitVec 4) (a : BitVec 4) (b : BitVec 4)
  /-- R290. ORs two script registers. -/
  | scriptOr (d : BitVec 4) (a : BitVec 4) (b : BitVec 4)
  /-- R290. Adds a sign-extended 16-bit immediate. -/
  | scriptAddi (d : BitVec 4) (a : BitVec 4) (i : BitVec 16)
  /-- R290. Shifts a register left by an immediate count. -/
  | scriptShl (d : BitVec 4) (a : BitVec 4) (n : BitVec 12)
  /-- R290. Shifts a register right by an immediate count. -/
  | scriptShr (d : BitVec 4) (a : BitVec 4) (n : BitVec 12)
  /-- R290. Sets a register to 1 if two registers are equal. -/
  | scriptSeq (d : BitVec 4) (a : BitVec 4) (b : BitVec 4)
  /-- R290. Sets a register to 1 if one register is below another, unsigned. -/
  | scriptSltu (d : BitVec 4) (a : BitVec 4) (b : BitVec 4)
  /-- R290. Skips forward if a register is zero. -/
  | scriptBz (a : BitVec 4) (o : BitVec 12)
  /-- R290. Skips forward if a register is nonzero. -/
  | scriptBnz (a : BitVec 4) (o : BitVec 12)
  /-- R290. Skips forward unconditionally. -/
  | scriptBr (o : BitVec 12)
  /-- R290. Repeats the next len bytecodes n times. -/
  | scriptLoop (d : BitVec 4) (n : BitVec 8) (l : BitVec 8)
  /-- R290. Submits a launch record with a start time. -/
  | scriptLaunch (d : BitVec 4) (a : BitVec 4) (b : BitVec 4)
  /-- R290. Holds until an event counter reaches a value. -/
  | scriptEvwait (a : BitVec 4) (b : BitVec 4)
  /-- R290. Adds to an event counter as SIGNAL does. -/
  | scriptEvsig (a : BitVec 4) (b : BitVec 4)
  /-- R290. Writes an 8-byte word with a system-scope release. -/
  | scriptPost (a : BitVec 4) (b : BitVec 4)
  /-- R290. Requests a class from the Gleden kernel and holds until the reply. -/
  | scriptGreq (d : BitVec 4) (c : BitVec 12)
  /-- R57. A long-latency instruction completes, filling its reserved entries and destination and decrementing its flags. -/
  | longLatencyCompletion (op : Nat)
  /-- R71. A fetch line arrives in a stream's line buffer, with parity refetch and malformed-line handling. -/
  | lineFetch (core slot slice : Nat) (err : ErrClass)
  /-- R303. Each cycle the quarter ranks candidate streams and grants issue. -/
  | issueChoice (core quarter : Nat)
  /-- R303. A candidate goes 32 cycles without a grant and becomes aged. -/
  | streamAged (core slot slice : Nat)
  /-- R32. A stream held at a reconvergence point for 256 cycles issues anyway. -/
  | reconvergenceHoldExpiry (core slot slice : Nat)
  /-- R50. After 4,096 backward branches a slice issues once from the next higher PC. -/
  | sweepIssue (core slot slice : Nat)
  /-- R161. A yielded stream becomes eligible again after 64 cycles. -/
  | yieldExpiry (core slot slice : Nat)
  /-- R175. TIME reaches a twait target and the lane returns active. -/
  | twaitExpiry (core slot lane : Nat)
  /-- R302. A neighbour's lead counter change arrives and may release lead.wait lanes. -/
  | leadCounterUpdate (team : Nat)
  /-- R321. The server sets DONE and the waiting lanes push the reply. -/
  | syscReply (core slot : Nat)
  /-- R37. The binner reads continuation records from its share of the pool area, discarding bad PCs. -/
  | poolRecordFetch (team : Nat)
  /-- R41. A bin with no arrival for 2,048 cycles becomes a partial group. -/
  | binFlush (team bin : Nat)
  /-- R41. A full bin becomes a group once a slot and a team place are free. -/
  | groupFormation (team bin : Nat)
  /-- R298. The gaffer hands a distributor a range of team indices of a pending launch. -/
  | teamRangeGrant (launch die : Nat)
  /-- R24. A distributor places a team or gang once every requested resource is free. -/
  | teamPlacement (launch die : Nat)
  /-- R265. Marver runs a placed team's enabled bindings and completes b15 phase 0. -/
  | transformBinding (team : Nat)
  /-- R301. A team's groups are released at the later of b15 completion and the start time. -/
  | groupRelease (team : Nat)
  /-- R46. A group with no live lane waits for its flags, conveys its estate and frees its slot. -/
  | groupRetirement (core slot : Nat)
  /-- R47. A team whose groups and copies are done frees its resources. -/
  | teamRetirement (team : Nat)
  /-- R48. All teams retired; writes are performed, the completion record is written and dependants' gates open. -/
  | launchCompletion (launch : Nat)
  /-- R286. A write to a queue's kick register announces packets up to a sequence. -/
  | kick (port offset : Nat) (access : BarAccess)
  /-- R287. The queue engine consumes a LAUNCH packet and submits its launch. -/
  | launchPacket (queue : Nat)
  /-- R287. The queue engine consumes a POOL packet and submits its pool launch. -/
  | poolPacket (queue : Nat)
  /-- R285. The queue engine holds the queue until an event counter reaches a value. -/
  | waitPacket (queue : Nat)
  /-- R285. The queue engine adds to an event counter with a system-scope release. -/
  | signalPacket (queue : Nat)
  /-- R287. The queue engine runs the script on a SCRIPT packet. -/
  | scriptPacket (queue : Nat)
  /-- R288. A kicked slot stays unstamped for 2 µs; KE is set and CI is kept. -/
  | kickEarlyTimeout (queue : Nat)
  /-- R291. A packet's 513th bytecode ends it with STS 3 and sets BUD. -/
  | scriptBudgetExceeded (queue : Nat)
  /-- R291. A script image is verified and checked when the kernel binds it to a queue. -/
  | scriptBinding (queue : Nat) (image : ScriptImage)
  /-- R268. The array performs the next matrix-queue entry, with its check and recompute. -/
  | matrixQueueExecute (core : Nat) (err : ErrClass)
  /-- R256. Punty performs the next chunk of a copy command and completes it on its tag after the last. -/
  | puntyChunk (core : Nat) (err : ErrClass)
  /-- R280. Lehr computes and stores one row of the tail tile's epilogue and frees the tile after the last. -/
  | lehrRow (core : Nat)
  /-- R410. A Cullet engine starts or resumes a job, reading and checking its card. -/
  | culletJobStart (engine : Nat)
  /-- R351. A Cullet engine decodes and writes the next destination chunk, parking or ending as needed. -/
  | culletChunk (engine : Nat)
  /-- R333. A transport command is acknowledged and completes on its tag. -/
  | nxCommandCompletion (cmd : Nat) (answer : NetAnswer)
  /-- R335. An arriving write packet is placed and may increment and fire a counter. -/
  | inboundPut (msg : NetPut)
  /-- R333. An arriving read request is served from the target tenant's memory. -/
  | inboundGet (head : NetHead) (addr len : Nat)
  /-- R341. An arriving send is placed in a ring mailbox slot. -/
  | inboundSend (msg : NetSend)
  /-- R342. An arriving deferrable send is checked, placed and turned into a LAUNCH packet. -/
  | inboundDeferrableSend (msg : NetSend)
  /-- R336. An arriving atomic is performed once at its home. -/
  | inboundAtomic (msg : NetAtomic)
  /-- R344. A reduction partial or root result arrives, is held or combined and forwarded. -/
  | inboundPartial (msg : NetPartial)
  /-- R419. An abort for a reduction step arrives and ends the step with 0x11. -/
  | stepAbort (head : NetHead) (cid : Nat) (abort : NetAbort)
  /-- R417. A packet times out and is retransmitted on a fresh path. -/
  | retransmissionTimeout (handle path : Nat)
  /-- R418. A dead path is probed once per millisecond. -/
  | pathProbe (handle path : Nat)
  /-- R418. An acknowledged probe revives a path. -/
  | pathRevival (handle path : Nat)
  /-- R418. A connection with no live path for 500 ms fails its commands with 0x11. -/
  | pathGraceExpiry (handle : Nat)
  /-- R417. An Ethernet port goes down and is counted as a lasting LINK error. -/
  | linkDown (port : Nat)
  /-- R301. An IEEE 1588 message disciplines TIME, stepping it at lock. -/
  | timeSyncMessage (offset : Int) (lock : Bool)
  /-- R307. A host CXL.mem read of the lend window is served within the bound. -/
  | hostMemrd (port : Nat) (read : HostRead)
  /-- R306. A host CXL.mem write of the lend window is performed, backing absent pages. -/
  | hostMemwr (port hpa : Nat) (data : List Byte) (poison : Bool)
  /-- R205. A PCIe AtomicOp executes at the home after recalling host copies. -/
  | hostAtomicop (port hpa : Nat) (op : HostAtomic) (width : Nat) (operand compare : Nat)
  /-- R315. A host write to a wake register recalls the key line and wakes device waiters. -/
  | wakeWindowWrite (port offset : Nat) (access : BarAccess)
  /-- R429. A Translation Completion arrives; lanes translate or park with a page request. -/
  | atsTranslationCompletion (die pasid page : Nat) (answer : AtsAnswer)
  /-- R319. An ATS invalidation removes matching ATC entries at receipt. -/
  | atsInvalidationRequest (pasid page : Nat) (all : Bool)
  /-- R319. After covered accesses are performed, the Invalidation Completion is sent. -/
  | invalidationCompletion (pasid page : Nat)
  /-- R318. A PRG Response unparks or fails the lanes parked on a page request. -/
  | prgResponse (pasid page : Nat) (success : Bool)
  /-- R318. A page request unanswered for 1 s raises protection. -/
  | pageRequestTimeout (pasid page : Nat)
  /-- R310. The frame engine restores a compressed frame and waiting accesses proceed. -/
  | cmpRestore (restore : Restore)
  /-- R308. The frame engine migrates a frame, switching homes atomically. -/
  | frameMigration (tenant frame target : Nat) (pages : List Nat)
  /-- R191. The frame engine splinters a large page into small entries. -/
  | splinter (tenant va : Nat) (cause : SplinterCause)
  /-- R403. A periodic scrub corrects or poisons stored words and sectors. -/
  | patrolScrub (pa : Nat) (outcome : ScrubOutcome)
  /-- R385. A gang is stopped, settled, conveyed, freed and relaunched or failed. -/
  | gangKill (gang : Nat)
  /-- R422. After the gaffer's die is fenced, a new gaffer is chosen and ranges are settled. -/
  | gafferElection
  /-- R391. A partition's quantum expires and it is pre-empted. -/
  | quantumExpiry (partition : Nat)
  /-- R392. A partition stops, drains, parks engines and saves its context. -/
  | partitionHalt (partition : Nat)
  /-- R368. A lane entering an issue set at an enabled breakpoint stops for debug. -/
  | breakpointHit (core slot lane : Nat)
  /-- R21. A die over its power budget gets idle issue cycles, recorded in the census. -/
  | powerBudgetThrottle (die : Nat)
  /-- R425. A die at junction 105 °C gets idle issue cycles. -/
  | thermalThrottle (die : Nat)
  /-- R425. A die at 115 °C causes a compute reset or a full reset and power-off. -/
  | thermalShutdown (die : Nat) (compute : Bool)
  /-- R311. Power good starts the boot chain, memory keeper and Memory_Active. -/
  | powerGood (firmware kernel : SignedImage)
  /-- R314. A full reset is refused unless the host is quiesced, then runs the boot chain. -/
  | fullResetRequest (quiesced : BitVec 2)
  /-- R415. All compute work is ended within 50 ms while memory keeps serving. -/
  | computeReset
  /-- R426. A PLDM platform monitoring request over MCTP is answered. -/
  | pldmMonitoring
  /-- R426. A PLDM firmware update image is verified and applied. -/
  | pldmFirmwareUpdate (image : SignedImage)
  /-- R401. Command 0x01 halts a partition. -/
  | haltPartition (die : Nat) (benches : BitVec 8)
  /-- R401. Command 0x02 halts a partition and saves it to a shadow slot. -/
  | haltAndSwapOut (die : Nat) (benches : BitVec 8) (shadow : Nat)
  /-- R394. Command 0x03 restores an image from a shadow slot and resumes it. -/
  | swapInAndResume (die : Nat) (benches : BitVec 8) (shadow : Nat)
  /-- R401. Command 0x04 resumes a halted partition in place. -/
  | resumeInPlace (die : Nat) (benches : BitVec 8)
  /-- R401. Command 0x05 sets a partition's quantum. -/
  | setQuantum (die : Nat) (benches : BitVec 8) (ns : Nat)
  /-- R365. Command 0x06 answers a fault record with Retry, Protection or Kill. -/
  | answerFault (fid : Nat) (outcome : BitVec 2)
  /-- R370. Command 0x07 steps stopped lanes one instruction in lane or group scope. -/
  | debugStep (core slot lane : Nat) (groupScope : Bool)
  /-- R368. Command 0x08 releases the debug reason of every lane of a team. -/
  | debugResume (core slot : Nat)
  /-- R372. Command 0x09 returns a withdrawn core to placement. -/
  | returnWithdrawnCore (core : Nat)
  /-- R420. Command 0x0A, or a lasting die error, fences a compute die and kills its gangs. -/
  | fenceDie (die : Nat)
  /-- R388. Command 0x0B kills masked lanes of a group, killing the group if all go. -/
  | killGroupLanes (core slot : Nat) (mask : LaneMask)
  /-- R401. A command register write with an unlisted CMD is refused with status 2. -/
  | unlistedCommand (cmd : BitVec 8)
  /-- R399. A write to a state-window register with no row of its own takes effect or is ignored. -/
  | stateWindowWrite (pa : Nat) (value : Word) (session : Bool)
  /-- R314. Loss of power ends all state, including the tenant keys in Ezwell's retention domain, so every tenant's encrypted
  data becomes unreadable. -/
  | powerLoss
  /-- R313. A partition reset discards the resident contexts of one compute die's partition that are not swapped out, and leaves
  other partitions and memory intact. -/
  | partitionReset (die : Nat) (benches : BitVec 8)
  /-- R190. The frame engine compresses a cold frame, moves it to the capacity tier, encrypts it there and sets CMP in its entries. -/
  | capacityTierEviction (tenant : Nat) (pages : List Nat) (cold : Nat)
  /-- R306. The kernel supplies a frame for host writes held in the hub-SRAM overflow area, and the overflow is written into
  that frame. -/
  | hostOverflowDrain (page frame : Nat)
  /-- R192. A Gleden core, as a device-scope agent, loads, stores or performs an atomic on module memory, cells or hub SRAM. -/
  | gledenCoreAccess (pa : Nat) (size : BitVec 2) (op : GledenOp)
  /-- R330. The Gleden kernel opens a connection under a job key and names it with a handle. -/
  | connectionOpen (handle tenant peer jobKey paths : Nat)
  /-- R418. The Gleden kernel closes a connection, so that its handle is no longer open. -/
  | connectionClose (handle : Nat)
  /-- R326. A tenant is created, with its context, its key slots generated in Ezwell and its consent key registered. -/
  | tenantCreation (tenant : Nat) (cfg : TenantConfig)
  /-- R326. Destroying a tenant zeroes its key slots. -/
  | tenantDestruction (tenant : Nat)
  /-- R324. Ezwell applies a signed configuration record only if its sequence exceeds the last one applied, and MRAM then keeps
  the new sequence. -/
  | configurationRecord (record : ConfigRecord)
  /-- R325. Ezwell builds and signs an attestation report for a nonce, advancing the XMSS state counter in MRAM. -/
  | attestationReport (tenant : Nat) (nonce : Nat) (addr : Nat)
  /-- R328. Ezwell checks a debug consent token and opens a session, or refuses an expired or foreign token. -/
  | debugConsentToken (tenant : Nat) (token : DebugToken)
  /-- R393. The frame engine moves a context image between a shadow slot and ordinary memory counted against the tenant's quota. -/
  | shadowImageMove (die shadow : Nat) (toMemory : Bool)
  /-- R311. Host firmware programs the HDM decoder, which sets the decoder base that maps HPA to tenant-space addresses. -/
  | hdmDecoderProgramming (port base : Nat)
  deriving DecidableEq, Repr

end Sys2Proof
end

