-- ==== Sys2Proof/Machine/State.lean ====
section
/-! DEFINITION. The state of the module as plain data, and its value after a full reset.

Every piece of state of INVENTORY.md has its field here. Collections keyed by a number are sorted lists of pairs
(`Sparse`); the operations on them are in Machine/Store.lean. -/

namespace Sys2Proof.Machine

/-- A finite map: pairs with strictly rising keys. A key that is not listed has the map's default. -/
abbrev Sparse (α : Type) := List (Nat × α)

/-- Bytes by address in canonical form: addresses strictly rising, no byte equal to 0, which an unlisted address reads
as. -/
abbrev Mem := List Host.Cell

/-- When a value can be read (R88, R57): now, from a cycle on, or at the completion of an outstanding operation. -/
inductive Avail where
  | ready
  | from (cycle : Nat)
  | op (id : Nat)
  deriving DecidableEq, Repr, Inhabited

/-- A result-queue entry with its poison bit (R53, R57, R380). -/
structure QEntry where
  val : Word
  psn : Bool
  avail : Avail
  deriving DecidableEq, Repr, Inhabited

/-- A write of a register that is not yet available (R89, R90). -/
structure Nxt (α : Type) where
  val : α
  psn : Bool
  avail : Avail
  deriving DecidableEq, Repr, Inhabited

/-- A register or predicate: its value, poison bit, live bit (R58, R60, R380) and the write that is not yet available. -/
structure Reg (α : Type) where
  val : α
  psn : Bool
  live : Bool
  nxt : Option (Nxt α)
  deriving DecidableEq, Repr, Inhabited

/-- R28. -/
inductive LaneStatus where
  | active
  | waiting
  | parked
  | exited
  deriving DecidableEq, Repr, Inhabited

/-- WKIND of R398. -/
inductive WaitKind where
  | none
  | join
  | joinSet
  | barrier
  | barSyncWo
  | setSync
  | gate
  | wait
  | leadWait
  | twait
  | syscReply
  | launchFull
  | regroupFull
  | cell
  deriving DecidableEq, Repr, Inhabited

/-- What a waiting lane waits for and what it does on resumption: WOBJ of R398, the outstanding operation that its
instruction is part of, the destination and predicate it writes, and an argument (the phase of a barrier, the ring
index of a request, the record of a full spill area). -/
structure Wait where
  kind : WaitKind
  obj : Word
  op : Nat
  dst : BitVec 6
  prd : BitVec 3
  arg : Word
  deriving DecidableEq, Repr, Inhabited

/-- The parking reasons of a lane (R366). -/
structure Park where
  page : Bool
  sysc : Bool
  debug : Bool
  deriving DecidableEq, Repr, Inhabited

/-- A lane. `stepBp` is set while the instruction at a breakpoint may issue once without stopping (R368); `restop`
is set while a step command runs, so that the lane stops again after it (R370); `unchecked` is set while the lane stands
at a slot it entered without a TARGET check because the line could not be read (R295); `issued` is one more than the
cycle of its last issue, 0 before the first (R303). -/
structure Lane where
  pc : Word
  status : LaneStatus
  q : List QEntry
  n : List (Reg Word)
  p : List (Reg Bool)
  fpstat : BitVec 13
  link : List Word
  depth : Nat
  hnd : Bool
  trapSlot : Word
  thread : Word
  park : Park
  fid : Nat
  wait : Wait
  wcb : Sparse Byte
  stepBp : Bool
  restop : Bool
  unchecked : Bool
  issued : Nat
  deriving DecidableEq, Repr, Inhabited

/-- One estate entry (R234). `v` is V, implied by its place in the list. -/
structure EstEntry where
  brv : Bool
  kind : Nat
  heir : Nat
  scope : Nat
  key : Nat
  seq : Nat
  harg : Nat
  deriving DecidableEq, Repr, Inhabited

/-- The estate table in acquisition order, both heir settings and the acquisition count (R234). `conveyed` counts the holdings that
a departing group has conveyed so far, `heirless` those of them that went heirless (R245, R389). -/
structure Estate where
  entries : List EstEntry
  curKind : Nat
  curArg : Nat
  dfltKind : Nat
  dfltArg : Nat
  count : Nat
  conveyed : Nat := 0
  heirless : Nat := 0
  deriving DecidableEq, Repr, Inhabited

/-- The `st.cmp` resume point (R217). -/
structure Resume where
  mask : LaneMask
  base : Word
  rank : Nat
  pc : Word
  deriving DecidableEq, Repr, Inhabited

/-- A fetched line in a line buffer (R71, R303), whether it holds a poisoned granule and whether its stored parity is
wrong (R73). -/
structure LineBuf where
  addr : Nat
  bits : BitVec 512
  psn : Bool
  bad : Bool
  deriving DecidableEq, Repr, Inhabited

/-- What one slice's sequencer holds for one group: the sweep count and H (R50), the reconvergence hold (R32),
ageing (R303), the yield hold (R161) and the line buffer. -/
structure Slice where
  count : Nat
  high : Option Word
  hold : Option Nat
  unheld : Bool
  aged : Bool
  yield : Option Nat
  line : Option LineBuf
  deriving DecidableEq, Repr, Inhabited

/-- Where a group stands (R46): running, with no live lane, in a conveyance that it has begun as a normal retirement (R387), or
departing under a kill. -/
inductive Stage where
  | running
  | retiring
  | conveying
  | departing
  deriving DecidableEq, Repr, Inhabited

/-- A resident group. `kBy` keeps for a uniform register the cycle of its last write and the lowest lane of the stream that
made it (R59). `rls` is set once it has issued `rls` (R173); `killed` once command 0x0B has killed it (R388),
with `killRec` the identifier and starting time of its kill record. -/
structure Group where
  team : Nat
  gid : Nat
  k : List (Reg Word)
  kBy : Sparse (Nat × Nat) := []
  flags : List Nat
  estate : Estate
  resume : Option Resume
  slices : List Slice
  segment : Nat
  rls : Bool
  stage : Stage
  killed : Bool
  killRec : Option (Nat × Nat)
  items : List (List Word)
  lanes : List Lane
  deriving DecidableEq, Repr, Inhabited

/-- A barrier: its phase word (R167) and the expected count given by the arrival that opened the phase (R168). -/
structure Barrier where
  err : Bool
  arr : Nat
  phase : Nat
  opened : Option Nat
  deriving DecidableEq, Repr, Inhabited

/-- A membership set: its members in each group; `late` are members that joined while a `set.sync` phase or a
`join.set` is open and are not counted in it (R171); `masks` are the values that groups have supplied in the open phase
(R172). The lanes that have arrived are those that wait. -/
structure MSet where
  members : List LaneMask
  late : List LaneMask
  masks : Sparse Word
  deriving DecidableEq, Repr, Inhabited

/-- A continuation record held by a bin (R38). -/
structure ContRec where
  pc : Word
  carry : List Word
  thread : Word
  psn : List Bool
  deriving DecidableEq, Repr, Inhabited

/-- One of a binner's 16 bins with the cycle of its last arrival (R40, R41); `flushed` once it must become a group. -/
structure Bin where
  pc : Word
  recs : List ContRec
  last : Nat
  flushed : Bool
  deriving DecidableEq, Repr, Inhabited

/-- The pool side of a team: its bins, the spill area's read and write positions, the index ranges of the pool area it still has to
read, and the records that wait for their page of the spill area (R40, R298). -/
structure Pool where
  bins : List Bin
  spillRd : Nat
  spillWr : Nat
  ranges : List (Nat × Nat)
  held : List ContRec
  deriving DecidableEq, Repr, Inhabited

/-- A resident team. `binding` is the next transform binding of Marver and `bindFail` whether one ended with an error (R265);
`seen` are the lead counters its neighbours are known to have (R174); `trapBy` is one more than the cycle in which the trap
registers were last set, with the group slot and the lane that gave them (R359); `failed` marks a team of a killed group (R388);
`retired` a team whose gang has not retired and which keeps its scratchpad for it (R47). -/
structure Team where
  launch : Nat
  idx : Nat
  core : Nat
  bars : List Barrier
  sets : List MSet
  scrBytes : Nat
  scr : Mem
  scrPsn : List Nat
  lead : Nat
  seen : Sparse Nat
  trapCause : Word
  trapAddr : Word
  trapSlot : Word
  trapBy : Nat × Nat × Nat := (0, 0, 0)
  dctl : Word
  bps : List Word
  binding : Nat
  bindFail : Bool
  released : Bool
  pool : Option Pool
  failed : Bool
  retired : Bool
  deriving DecidableEq, Repr, Inhabited

/-- A resident gang: gb0 to gb3 (R167) and its attempt (R386). -/
structure Gang where
  launch : Nat
  idx : Nat
  bars : List Barrier
  attempt : Nat
  deriving DecidableEq, Repr, Inhabited

/-- A Punty command (R254, R256), also the resume record of a tag (R259) and a Marver binding (R265). `tag` is the
core's tag and `ttag` the team-relative one; `lanes` are the per-lane addresses of `cp.gath` and `cp.scat`; `desc` the
descriptor once read; `saved` the source bytes of `cp.bulk` that its own writes have replaced, with their poison;
`sums` the exact sums of converted values for each k, times 2^135, none after a NaN block; `offend` the first offending
element (R409); `fid` the fault record it waits on; `forced` is set by a Protection answer (R408). -/
structure Cmd where
  team : Nat
  gid : Nat
  opc : BitVec 8
  mod : BitVec 13
  ua : Word
  ub : Word
  uc : Word
  lanes : List Word
  tag : Nat
  ttag : Nat
  acq : Bool
  rel : Bool
  scope : Nat
  pc : Word
  chunk : Nat
  desc : List Word
  saved : Sparse (Byte × Bool)
  sums : List (Option Int)
  udf : Nat
  offend : Option Nat
  fid : Option Nat
  forced : Bool
  marver : Bool
  deriving DecidableEq, Repr, Inhabited

/-- A copy tag (R65, R258, R259); `told`: an error since the tag was last made ready has filled CODE and ELEM. -/
structure Tag where
  pend : Nat
  err : Bool
  code : BitVec 8
  elem : BitVec 32
  ready : Bool
  udf : Nat
  resume : Option Cmd
  told : Bool
  deriving DecidableEq, Repr, Inhabited

/-- A posted epilogue (R278). -/
structure Epi where
  gid : Nat
  desc : Nat
  tag : Nat
  ttag : Nat
  acq : Bool
  rel : Bool
  scope : Nat
  pc : Word
  deriving DecidableEq, Repr, Inhabited

/-- A tile of the accumulator ring: elements that are not zero, poisoned elements, and the check state (R274 to R276).
CP and CR are integers equal to the value times 2^352 (R396). -/
structure Tile where
  elems : Sparse (BitVec 32)
  psn : List Nat
  cp : Int
  cr : Int
  cnt : Nat
  unchk : Nat
  fix : Bool
  nan : Bool
  psnFlag : Bool
  epi : Option Epi
  deriving DecidableEq, Repr, Inhabited

/-- What a checked `mma` compares (R274): P, Ref and Tol as integers times 2^352, and whether it skips the comparison
for a NaN or an infinity, or for poison. -/
structure MqCheck where
  p : Int
  ref : Int
  tol : Int
  nan : Bool
  psn : Bool
  deriving DecidableEq, Repr, Inhabited

/-- An entry of the matrix queue (R268): the opcode, the row and the tile it acts on, the operation whose flags it
holds, and what it read at issue (R269): the 2,048 dot products of an `mma`, or the 32 words of `ring.wr`, with their
poison. -/
structure MqEntry where
  opc : BitVec 8
  row : Nat
  tile : Nat
  op : Nat
  data : List Word
  dataPsn : List Bool
  chk : Option MqCheck
  pc : Word
  deriving DecidableEq, Repr, Inhabited

/-- What Lehr is doing on the tail tile (R282): the next row, the words it has read of the epilogue descriptor, the
residual's and the output's tensor descriptors, the first offending element, the underflows, the fault it waits on and
whether that was answered with Protection. -/
structure Lehr where
  busy : Bool
  row : Nat
  desc : List Word
  offend : Option Nat
  udf : Nat
  fid : Option Nat
  forced : Bool
  deriving DecidableEq, Repr, Inhabited

/-- A slot of the B store (R267): bytes, poisoned 16-bit units and the tenant that last used it. -/
structure BSlot where
  bytes : Mem
  psn : List Nat
  tenant : Option Nat
  deriving DecidableEq, Repr, Inhabited

/-- A line of a core's L1, tagged by tenant and virtual line address (`space` 5 holds constant-area lines) (R183). -/
structure L1Line where
  tenant : Nat
  vline : Nat
  bytes : Mem
  psn : List Nat
  deriving DecidableEq, Repr, Inhabited

/-- A core (R52, R254, R258, R266 to R282): `pipes` is the first cycle in which the arithmetic pipe of a slice is free, by quarter
and slice (R88), `fetched` the cycle and number of a quarter's latest line fetches (R71), `arrayFree` the first cycle in which
the matrix array accepts an `mma` (R269). -/
structure Core where
  tags : List Tag
  ring : List Tile
  head : Nat
  tail : Nat
  ncl : Nat
  owner : Option Nat
  mq : List MqEntry
  lehr : Lehr
  punty : List Cmd
  bslots : List BSlot
  l1 : List L1Line
  withdrawn : Bool
  pipes : Sparse Nat
  fetched : Sparse (Nat × Nat)
  arrayFree : Nat
  deriving DecidableEq, Repr, Inhabited

/-- How a retained launch stands (R296, R299). -/
inductive LaunchSt where
  | running
  | complete
  deriving DecidableEq, Repr, Inhabited

/-- A launch slot (R299): the retained record (32 words), what its packet asked for, its progress and the counts of the
completion record (R296). `next` is the next team index the gaffer hands out, `ranges` the ranges granted to each die (R298),
`again` the gangs to be placed again (R386), `attempts` the attempt of each relaunched gang, `prev` the launch named by DEP
(R300), `child` the team and core tag that wait for it (R166), `mbox` the launch-mailbox slot it frees (R342), `serial` its
order of acceptance, `opened` what the gate of a dependent launch pushes once every team is released, retired or killed (R173).
-/
structure Launch where
  words : List Word
  addr : Nat
  queue : Nat
  seq : Nat
  tenant : Nat
  start : Nat
  evAddr : Nat
  evAdd : Word
  child : Option (Nat × Nat)
  mbox : Option (Nat × Nat × Nat)
  prev : Option Nat
  prevRej : Bool
  serial : Nat
  next : Nat
  ranges : List (Nat × Nat × Nat)
  again : List Nat
  attempts : Sparse Nat
  releasedTeams : List Nat
  opened : Option Bool := none
  retired : Nat
  tdone : Nat
  tfail : Nat
  reln : Nat
  fgang : Nat
  kil : Bool
  estn : Nat
  estlost : Nat
  prej : Nat
  tstart : Nat
  poolNext : Nat
  killed : Bool
  stood : List Nat := []
  deriving DecidableEq, Repr, Inhabited

/-- A frame of a script loop (R290). -/
structure Loop where
  start : Nat
  len : Nat
  n : Nat
  i : Nat
  d : Nat
  deriving DecidableEq, Repr, Inhabited

/-- What a packet in progress waits for (R285, R288, R290). -/
inductive Hold where
  | none
  | event (addr : Nat) (value : Word)
  | greq (d : Nat)
  | done
  deriving DecidableEq, Repr, Inhabited

/-- The run of a packet: its words, the script's registers, position, count and loops (R289 to R291). `builtin` is
set once the script has ended and the built-in handling follows. -/
structure Run where
  words : List Word
  regs : List Word
  idx : Nat
  count : Nat
  loops : List Loop
  hold : Hold
  builtin : Bool
  sts : Option Nat := none
  deriving DecidableEq, Repr, Inhabited

/-- The gang that wrote a packet (R165, R383): its key, the serial of its launch, its attempt, and the core. -/
structure Issuer where
  gang : Nat
  serial : Nat
  attempt : Nat
  core : Nat
  deriving DecidableEq, Repr, Inhabited

/-- A queue: its descriptor (R283), the kick register (R286), the early-kick timer (R288), its script
(R289), the packet in progress and the last launch it accepted, with what the gate of a dependent launch pushes if that
launch is gone (R300). `pi` is the sequence of the next packet that the device writes, `kids` the teams and core tags of
the packets written under `.t` (R166), `mails` the mailbox and slot of
those written for a launch mailbox (R342), `issuers` the gangs that wrote packets (R383). -/
structure Queue where
  en : Bool
  devq : Bool
  ke : Bool
  bud : Bool
  log2n : Nat
  base : Nat
  tenant : Nat
  script : Nat
  ci : Nat
  ctxAddr : Nat
  kick : Option Nat
  early : Option Nat
  code : List (BitVec 32)
  run : Option Run
  last : Option (Nat × Bool)
  pi : Nat
  kids : Sparse (Nat × Nat)
  mails : Sparse (Nat × Nat)
  issuers : Sparse Issuer := []
  deriving DecidableEq, Repr, Inhabited

/-- A mailbox entry (R340) as its eight words, and its token bucket: tokens, in millionths, and the time of the last refill, and
the slots of a launch mailbox that are in use (R342). -/
structure Mailbox where
  words : List Word
  tokens : Nat
  stamp : Nat
  busy : List Nat
  deriving DecidableEq, Repr, Inhabited

/-- A debug session (R328). -/
structure Session where
  modes : BitVec 3
  expiry : Nat
  deriving DecidableEq, Repr, Inhabited

/-- A tenant context (R304). R187 and R188 speak of several address spaces of a tenant, and no rule says which one a launch uses:
here a tenant has one, of which `root` is the root, and GLB makes no difference (DESIGN CHOICE, log entry 51). `table` is the root of
the host tenant table (R306), none where it is the root of the address space. `prod` and `consAddr` are the producer index and the
address of the consumer index of the system-call ring (R320). -/
structure Tenant where
  host : Bool
  root : Nat
  quota : Nat
  reserve : List Nat
  tablePool : List Nat
  frames : List Nat
  ringBase : Nat
  ringLog2 : Nat
  prod : Nat
  consAddr : Nat
  serviceQueue : Nat
  session : Option Session
  mailboxes : Sparse Mailbox
  scripts : BitVec 256
  jobKeys : List Nat
  pasids : Sparse Nat := []
  debugKey : Nat := 0
  table : Option Nat := none
  deriving DecidableEq, Repr, Inhabited

/-- The root of the host tenant table (R306). -/
def Tenant.hostTable (t : Tenant) : Nat := t.table.getD t.root

/-- The roots of the tables that map a tenant's frames. -/
def Tenant.roots (t : Tenant) : List Nat := (t.root :: t.table.toList).eraseDups

/-- An outstanding operation (R57, R63): the group, the flags it holds, the lanes still in it and the lowest lane it issued in,
the destination and the last result of each lane, the FP flags of a special function (R148, R358) and the registers that its
last-read marks took, by lane and number (R61), whether it completes by an event of its own (a wait, the matrix queue, the
network) and not by itself, and the cycle from which it can complete. -/
structure Op where
  group : Nat
  opc : BitVec 8
  pc : Word
  flags : List Nat
  lanes : LaneMask
  dst : BitVec 6
  res : List (Nat × Word × Bool)
  fp : List (Nat × BitVec 5)
  saved : List (Nat × Nat × Reg Word)
  low : Nat
  held : Bool
  due : Nat
  deriving DecidableEq, Repr, Inhabited

/-- An entry of the wake table (R226, R400) or of a holding cell's waiter list: in order of entry. `claim` is the RANGE
operand of a waiting `claim.get` and `opc` its opcode. -/
structure Waiter where
  key : Nat
  tenant : Nat
  group : Nat
  lane : Nat
  cell : Bool
  opc : BitVec 8
  scope : Nat
  range : Word
  swapped : Bool
  status : Option Nat
  deriving DecidableEq, Repr, Inhabited

/-- An ATC entry (R317). -/
structure AtcEntry where
  die : Nat
  pasid : Nat
  page : Nat
  hpa : Nat
  rd : Bool
  wr : Bool
  deriving DecidableEq, Repr, Inhabited

/-- A Translation Request (R429): outstanding while it has no answer; an answer that gives no translation stays until
the accesses that wait for it have used it. -/
structure AtsReq where
  die : Nat
  pasid : Nat
  page : Nat
  answer : Option AtsAnswer
  deriving DecidableEq, Repr

/-- An outstanding Page Request (R318, R414), its access kind and the time it was sent. -/
structure PageReq where
  pasid : Nat
  page : Nat
  write : Bool
  sent : Nat
  deriving DecidableEq, Repr, Inhabited

/-- Who waits on a fault record (R364, R365): lanes of a group, with the opcode of their instruction and the address of
each for a Protection answer; an engine; or nobody, for an access of the host or the network. -/
inductive FaultFor where
  | lanes (group : Nat) (mask : LaneMask) (opc : Nat) (addrs : List (Nat × Word))
  | punty (core : Nat) (tag : Nat)
  | marver (team : Nat)
  | lehr (core : Nat)
  | pontil (cmd : Nat)
  | cullet (engine : Nat)
  | host
  deriving DecidableEq, Repr, Inhabited

/-- A fault record (R364): its eight words, who waits, and the answer kept for a swapped-out partition (R395). -/
structure FaultRec where
  fid : Nat
  words : List Word
  who : FaultFor
  launch : Nat
  gang : Nat
  answer : Option (BitVec 2)
  deriving DecidableEq, Repr, Inhabited

/-- An entry of the error census (R402). -/
structure Census where
  last : Nat
  trans : Nat
  time : Nat
  loc : Nat
  deriving DecidableEq, Repr, Inhabited

/-- A requested gang kill (R384). -/
structure Kill where
  launch : Nat
  gang : Nat
  reason : Nat
  info : Nat
  core : Nat
  pc : Word
  addr : Word
  held : List (List Word)
  deriving DecidableEq, Repr, Inhabited

/-- A partition (R391); `swap` is the shadow slot it will be saved to once its halt is complete, `haltedAt` TIME at the end of its
halt (R396), and `told` is set while a command of the state window waits for it (R401). -/
structure Partition where
  die : Nat
  benches : BitVec 8
  tenant : Nat
  quantum : Nat
  start : Nat
  halted : Bool
  halting : Bool
  swap : Option Nat
  haltedAt : Nat := 0
  told : Bool := false
  deriving DecidableEq, Repr, Inhabited

/-- A saved context image (R396): the shadow slot that holds it (2 for each die), none while it is in ordinary memory, and then
the first of the frames that it takes there with the seed of its encrypted bytes, which are free (R393, R326); its tenant, the
number of its benches, TIME at the halt and the digest of its records. The records themselves stay in `Work`, at core numbers
that no core has (`imageCore` of Machine/Access.lean). -/
structure Image where
  slot : Option Nat
  tenant : Nat
  count : Nat
  time : Nat
  digest : BitVec 256
  away : Option (Nat × Nat) := none
  deriving DecidableEq, Repr, Inhabited

/-- A kill in progress (R385): its kill identifier, when it began, and the items of its record so far. -/
structure Killing where
  kill : Kill
  kid : Nat
  time : Nat
  ncmd : Nat
  nitem : Nat
  nlost : Nat
  deriving DecidableEq, Repr, Inhabited

/-- A `launch.t` child that ended while its parent was swapped out: the parent team, the core's tag, whether it failed
and its code (R166, R395). -/
structure ChildEnd where
  team : Nat
  tag : Nat
  err : Bool
  code : Nat
  deriving DecidableEq, Repr, Inhabited

/-- A connection (R330, R339, R418): path `i` of `paths` is live when `live` lists it; `timeouts` are its consecutive
timeouts; `dead` the time its last live path was lost; `rttMin` the least round trip seen since it was opened; `served` the bytes of
read answers that have left over it. -/
structure Conn where
  tenant : Nat
  peer : Nat
  jobKey : Nat
  paths : Nat
  live : List Nat
  timeouts : Sparse Nat
  dead : Option Nat
  failed : Bool
  retx : Nat
  rttMin : Option Nat := none
  served : Nat := 0
  deriving DecidableEq, Repr, Inhabited

/-- A completion counter (R337): its value, owner and binding (team key or gang key, barrier, threshold). -/
structure Counter where
  value : Word
  owner : Option Nat
  bind : Option (Nat × Nat × Word)
  deriving DecidableEq, Repr, Inhabited

/-- An outstanding transport command (R332, R333): `sent` once its packets have left or its step has begun; `answer` what the
network brought, held while local bytes cannot be written; `fid` the fault record it waits on; `forced` is set by a Protection
answer; `num` the collective and the posting number of a reduction step, once its descriptor is read (R345); `parts` the packets
of its answer that have come; `counts` the counter that its completion increments (R335, R344); `kept` the code it has completed
with while its partition is swapped out (R395). -/
structure NxCmd where
  opc : BitVec 8
  team : Nat
  gid : Nat
  tenant : Nat
  core : Nat
  tag : Nat
  ttag : Nat
  handle : Nat
  ua : Word
  ub : Word
  uc : Word
  mod : BitVec 13
  acq : Bool
  rel : Bool
  scope : Nat
  op : Nat
  pc : Word
  sent : Bool
  answer : Option NetAnswer
  fid : Option Nat
  forced : Bool
  num : Option (Nat × Nat) := none
  parts : List (Nat × List Byte) := []
  counts : Option Nat := none
  kept : Option (BitVec 8) := none
  deriving DecidableEq, Repr, Inhabited

/-- One value of a reduction: the bits and their poison. -/
abbrev RedVal := Word × Bool

/-- A reduction step at this module (R344): the command, none while only partials have arrived; its descriptor's fields;
the handles of its tree edges by rank; the values combined so far up to a level of the tree; the partials held; the
result, once known; the code that ended the step before it was posted here; and whether the result has been passed down. -/
structure RedStep where
  tenant : Nat
  cid : Nat
  step : Nat
  cmd : Option Nat
  pm1 : Nat
  rank : Nat
  type : BitVec 5
  op : BitVec 2
  first : Nat
  count : Nat
  dstb : Nat
  counter : Option Nat
  peers : Sparse Nat
  acc : List RedVal
  level : Nat
  held : List NetPartial
  sentUp : Bool
  result : Option (List RedVal)
  ended : Option (BitVec 8)
  forwarded : Bool := false
  deriving DecidableEq, Repr, Inhabited

/-- The part of a DEFLATE stream a Cullet job stands in (R350): before a block header, before the code-length data of
a dynamic block, inside a stored block, inside a block with the code lengths given, or past the end. -/
inductive ZState where
  | header
  | lengths
  | stored (left : Nat)
  | codes (lit : List Nat) (dist : List Nat)
  | finished
  deriving DecidableEq, Repr, Inhabited

/-- A Cullet job (R346 to R351): its card and issuer; whether word 4 of the card has been read and ST 1 written, and
whether it has started; the card's words; the decoded bytes, newest first, and how many are written; the source position
in bits; the decoder's state; for the elements not yet written, the output length and source position at their start;
the code and CONS it will end with; the code it is parked with; the seed of its state in the resume area; the fault
record it waits on, for its card or not, and whether that was answered with Protection. -/
structure Job where
  card : Nat
  tenant : Nat
  team : Nat
  gid : Nat
  core : Nat
  tag : Nat
  ttag : Nat
  acq : Bool
  rel : Bool
  scope : Nat
  pc : Word
  accepted : Bool
  started : Bool
  resuming : Bool
  words : List Word
  out : List Byte
  written : Nat
  bitPos : Nat
  final : Bool
  zst : ZState
  marks : List (Nat × Nat)
  fail : Option (BitVec 8 × Nat)
  parked : Option (BitVec 8)
  area : Option Nat
  fid : Option Nat
  cardWait : Bool
  forced : Bool
  deriving DecidableEq, Repr, Inhabited

/-- A Cullet engine: its queue in submission order and its parked jobs (R346, R351). -/
structure Cullet where
  queue : List Job
  parked : List Job
  deriving DecidableEq, Repr, Inhabited

/-- One host port (R305, R306, R311, R314). -/
structure Port where
  base : Nat
  programmed : Bool
  memActive : Bool
  quiesced : Bool
  failStage : Nat
  deriving DecidableEq, Repr, Inhabited

/-- Ezwell's retention domain (R322 to R324): the last configuration sequence, the least security version, the record
in force, and the index of the attestation key's signatures. -/
structure Ezwell where
  cfgSeq : Nat
  minFirmware : Nat
  minKernel : Nat
  minScript : Nat
  operatorKey : Option Nat
  tenantLimit : Nat
  ports : BitVec 8
  debugAllowed : Bool
  cfgDigest : BitVec 256
  xmss : Nat
  subkey : Nat
  fwDigest : BitVec 256
  kernelDigest : BitVec 256
  deriving DecidableEq, Repr, Inhabited

/-- A frame in the capacity tier: its tenant, its bytes, its poisoned words counted from its start, the entries that map it, the
frame that it lay in (R190, R405), and the key slot that encrypts it (R326). -/
structure Cold where
  tenant : Nat
  bytes : List Byte
  psn : List Nat
  entries : List Nat
  old : Nat
  key : Nat := 0
  deriving DecidableEq, Repr, Inhabited

/-- A splinter in progress (R191): the large entry as it was, the lowest address bit that indexes it, the tenant, the
address, whether the reserve's table page reads uncorrectable (R406), and the permission change that asked for it. -/
structure Splinter where
  entry : Word
  shift : Nat
  tenant : Nat
  va : Nat
  bad : Bool
  change : Option PermChange
  deriving DecidableEq, Repr, Inhabited

/-- A migration of a frame (R308): its tenant, the frame, the frame it moves to, the pages that map it, and how far it has come: none
before MIG is set; up to 64 the lines that have been copied; 65 after the switch, and one more for each entry rewritten since. -/
structure Migration where
  tenant : Nat
  frame : Nat
  target : Nat
  pages : List Nat
  copied : Option Nat
  deriving DecidableEq, Repr, Inhabited

namespace Migration

/-- Whether the switch has been made, so that the home of each frame passes on what reaches it to the other (R308 step 6). -/
def switched (m : Migration) : Bool := m.copied.any fun n => 64 < n

/-- Where a write of a physical address is made besides (R308 steps 3 and 6): in the new frame, once its line has been copied; in
the old one after the switch. -/
def twin (m : Migration) (pa : Nat) : Option Nat :=
  if m.frame = pa / 4096 && m.copied.any fun n => pa % 4096 / 64 < n then some (4096 * m.target + pa % 4096)
  else if m.target = pa / 4096 && m.switched then some (4096 * m.frame + pa % 4096)
  else none

end Migration

/-- What leaves the module: to the host links, to the network, to the Gleden kernel and to management. -/
inductive Msg where
  | memData (port hpa : Nat) (data : List Byte) (poison : Bool)
  | memDone (port hpa : Nat)
  | barData (port offset : Nat) (value : Word)
  | backInvalidate (tsaLine : Nat)
  | atomicDone (port hpa : Nat) (old : Nat)
  | completerAbort (port hpa : Nat)
  | translationRequest (die pasid page : Nat)
  | pageRequest (pasid page : Nat) (write : Bool)
  | invalidationDone (pasid page : Nat)
  | put (peer jobKey id packet total addr : Nat) (data : List Byte) (counter : Option Nat) (scope : Nat)
  | get (peer jobKey id addr len : Nat)
  | getData (jobKey id packet total addr : Nat) (data : List Byte)
  | send (peer jobKey id packet total mailbox : Nat) (data : List Byte) (deferrable : Bool) (scope : Nat)
  | atomic (peer jobKey id addr : Nat) (op : BitVec 4) (b32 sgn : Bool) (operand compare : Word)
  | ack (jobKey id packet : Nat) (code : BitVec 8) (old : Word)
  | nack (jobKey id packet : Nat) (trimmed : Bool)
  | noCredit (jobKey mailbox : Nat)
  | part (handle : Nat) (p : NetPartial)
  | abort (handle cid step : Nat) (code : BitVec 8)
  | probe (handle path : Nat)
  | retransmit (handle path : Nat)
  | kernelRequest (queue cls : Nat) (args : List Word)
  | overflowReport (page : Nat)
  | debugStop (group : Nat) (mask : LaneMask) (pc : Word) (code : Nat)
  | splinterDone (pte status : Nat)
  | pageBad (frame : Nat)
  | fenceReport (die : Nat)
  | frameRetired (frame : Nat)
  | management (words : List Word)
  | attestation (tenant : Nat)
  | refused (what : Nat)
  | gledenData (pa : Nat) (value : Word) (poison : Bool)
  deriving DecidableEq, Repr

/-- The steps that the module's own agents take unprompted, with what the acting agent brings: the same rows as the
constructors of `Instr` with these names. -/
inductive Ev where
  | longLatencyCompletion (op : Nat)
  | lineFetch (core slot slice : Nat) (err : ErrClass)
  | issueChoice (core quarter : Nat)
  | streamAged (core slot slice : Nat)
  | reconvergenceHoldExpiry (core slot slice : Nat)
  | sweepIssue (core slot slice : Nat)
  | yieldExpiry (core slot slice : Nat)
  | twaitExpiry (core slot lane : Nat)
  | leadCounterUpdate (team : Nat)
  | poolRecordFetch (team : Nat)
  | binFlush (team bin : Nat)
  | groupFormation (team bin : Nat)
  | teamRangeGrant (launch die : Nat)
  | teamPlacement (launch die : Nat)
  | transformBinding (team : Nat)
  | groupRelease (team : Nat)
  | groupRetirement (core slot : Nat)
  | teamRetirement (team : Nat)
  | launchCompletion (launch : Nat)
  | kick (port offset : Nat) (access : BarAccess)
  | launchPacket (queue : Nat)
  | poolPacket (queue : Nat)
  | waitPacket (queue : Nat)
  | signalPacket (queue : Nat)
  | scriptPacket (queue : Nat)
  | kickEarlyTimeout (queue : Nat)
  | scriptBudgetExceeded (queue : Nat)
  | matrixQueueExecute (core : Nat) (err : ErrClass)
  | puntyChunk (core : Nat) (err : ErrClass)
  | lehrRow (core : Nat)
  | culletJobStart (engine : Nat)
  | culletChunk (engine : Nat)
  | pathProbe (handle path : Nat)
  | pathGraceExpiry (handle : Nat)
  | invalidationCompletion (pasid page : Nat)
  | splinter (tenant va : Nat) (cause : SplinterCause)
  | frameMigration (tenant frame target : Nat) (pages : List Nat)
  | syscReply (core slot : Nat)
  | pageRequestTimeout (pasid page : Nat)
  | cmpRestore (restore : Restore)
  | gangKill (gang : Nat)
  | gafferElection
  | quantumExpiry (partition : Nat)
  | partitionHalt (partition : Nat)
  | breakpointHit (core slot lane : Nat)
  | computeReset
  | inboundPartial (msg : NetPartial)
  deriving DecidableEq, Repr

/-- A turn of the agenda: a step that an agent outside brings, one that the module's own agents take, a step command of a
session that waits to issue (R370), an issue of a stream (the lanes that may be in it), a bytecode of a queue's script. -/
inductive Turn where
  | ev (i : Instr)
  | int (e : Ev)
  | debug (key : Nat) (mask : LaneMask)
  | issue (core slot : Nat) (mask : LaneMask)
  | bytecode (queue : Nat)
  deriving DecidableEq, Repr

/-- The issue in progress: a Huaxus instruction of a stream, or a bytecode of a queue's script; or an access of a core's own
engines. -/
inductive Cur where
  | none
  | stream (core slot : Nat) (mask : LaneMask) (pc : Word)
  | script (queue : Nat)
  | engine (core : Nat)
  deriving DecidableEq, Repr, Inhabited

/-- Boot (R311): the stages in order, and off. -/
inductive Boot where
  | off
  | failed (stage : Nat)
  | active
  deriving DecidableEq, Repr, Inhabited

/-- A write that an agent of the module owes to a tenant's memory, where its page must be waited for (R190): bytes, or an addition to
an event counter. -/
inductive Owed where
  | put (tenant va : Nat) (bytes : List Byte)
  | add (tenant va : Nat) (value : Word)
  deriving DecidableEq, Repr, Inhabited

/-- What runs on the cores. `kills` are the kills requested in this cycle, `starting` those of an earlier one that have still to begin
(R384). `children` are ends of child launches whose parents are swapped out; `steps` are the groups and
lanes of step commands that have not issued yet (R370); `gone` are the launch slots that were in use at a compute reset, `lost` the
groups of a fenced core whose estate could not be read, `reserved` the cells, by tenant and address, that have been reserved since the
reset (R416, R421); `owed` are writes that wait for their page, each list in order (R190). -/
structure Work where
  launches : Sparse Launch
  gangs : Sparse Gang
  teams : Sparse Team
  groups : Sparse Group
  cores : Sparse Core
  ops : Sparse Op
  kills : List Kill
  starting : List Kill := []
  killing : List Killing
  children : List ChildEnd
  steps : List (Nat × LaneMask)
  queues : Sparse Queue
  fenced : List Nat
  gaffer : Option Nat
  election : Bool
  gone : List Nat
  lost : List (Nat × Nat) := []
  reserved : List (Nat × Nat) := []
  owed : List (List Owed) := []
  deriving DecidableEq, Repr, Inhabited

/-- Module memory and everything that translates or waits on it. `spl` are the
splinters in progress by the address of the entry (R191). `lent` names the tenant-space line of each physical line that the host
may hold a copy of (R305), `migs` the migrations in progress (R308). `cmp` holds the compressed frames by capacity address (R190,
R405); `corr` the times of the corrected errors of each frame (R404); `overflow` the 16 MiB overflow area by tenant-space
address, with the 32-byte sectors of it that are poisoned (R306, R405). `lentAway` are the tenant-space lines that the host may hold of
pages that had no frame when it read them (R305). `runs` are the runs of 16 entries, by address over 128, that hardware's own
changes of an entry have broken (R189). -/
structure Memory where
  bytes : Mem
  psn : List Nat
  waiters : List Waiter
  atc : List AtcEntry
  atsReqs : List AtsReq
  pageReqs : List PageReq
  spl : Sparse Splinter
  cmp : Sparse Cold
  corr : Sparse (List Nat)
  overflow : Sparse Byte
  overflowPsn : List Nat
  lent : Sparse Nat
  migs : List Migration
  view : Sparse Nat := []
  orig : Sparse (Nat × List Byte) := []
  runs : List Nat := []
  lentAway : List Nat := []
  deriving DecidableEq, Repr

/-- Faults, containment, partitions and the state window; `idle` is the end of the interval in which a die has idle issue cycles
(R21). `joined` are lanes that park on the page of an outstanding record of an ATS miss, with its FID (R429). -/
structure Admin where
  faults : List FaultRec
  joined : List FaultRec := []
  nextFid : Nat
  contain : List (List Word)
  nextKid : Nat
  killHead : Nat := 0
  census : List Census
  partitions : List Partition
  shadows : Sparse Image
  cmdStatus : Nat
  cmdReg : Word
  cmdHalf : Option Word
  idle : Sparse Nat
  deriving DecidableEq, Repr, Inhabited

/-- A packet that Pontil has dealt with: the sender's key, its module, message and packet, and the answer that a copy gets
again (R333, R336, R417). -/
structure NetDone where
  jobKey : Nat
  peer : Nat
  msg : Nat
  packet : Nat
  answer : Msg
  deriving DecidableEq, Repr

/-- A put of which packets are still to come: how many were dealt with, and whether one was refused (R334, R335). -/
structure PutIn where
  jobKey : Nat
  peer : Nat
  msg : Nat
  got : Nat
  bad : Bool
  deriving DecidableEq, Repr

/-- A packet of a message of which others are still to come (R329, R333): the sender's key, its module, message and packet, and what it
carries. -/
structure NetFrag where
  jobKey : Nat
  peer : Nat
  msg : Nat
  packet : Nat
  data : List (Word × Bool)
  deriving DecidableEq, Repr

/-- Pontil and Cullet. `frags` are the packets of sends and partials that are not complete, `redEnds` the reduction steps that
have ended with a code other than 0, by tenant, CID and number (R345, R419). `dealt` are the packets that have been dealt with,
`puts` the puts that are not complete, and `paid` the sends whose token has been taken and which wait for a slot (R342), by key,
module and message. -/
structure Engines where
  conns : Sparse Conn
  counters : Sparse Counter
  nx : Sparse NxCmd
  reds : List RedStep
  redPosts : Sparse Nat
  dealt : List NetDone := []
  puts : List PutIn := []
  paid : List (Nat × Nat × Nat) := []
  frags : List NetFrag := []
  redEnds : List (Nat × Nat × Nat × BitVec 8) := []
  cullets : List Cullet
  portsUp : BitVec 8
  deriving DecidableEq, Repr, Inhabited

/-- Tenants, the host's ports, and Ezwell with the key slots of every tenant (R326). -/
structure Security where
  tenants : Sparse Tenant
  ports : List Port
  ezwell : Ezwell
  keys : Sparse (List (BitVec 512))
  boot : Boot
  deriving DecidableEq, Repr, Inhabited

/-- A place of storage with a code of its own, or a link (R371, R403): an entry of a lane's queue, a named register, a predicate, a
uniform register, a word of a team's scratchpad, a 16-bit unit of a B slot, an element of a core's ring, a core's L1, the sector of a
clean or of a dirty line of a cache, a word of hub SRAM, Ezwell's MRAM, a network port. -/
inductive Granule where
  | queue (group lane i : Nat)
  | named (group lane i : Nat)
  | pred (group lane i : Nat)
  | uniform (group i : Nat)
  | scratch (team i : Nat)
  | bstore (core slot i : Nat)
  | ring (core tile i : Nat)
  | l1 (core i : Nat)
  | cache (pa : Nat)
  | dirty (pa : Nat)
  | hub (pa : Nat)
  | mram
  | link (port : Nat)
  deriving DecidableEq, Repr

/-- An error of the arithmetic units (R374, R375): the result of a lane has bits flipped, those of `first` at the issue and those of
`again` at its replay. Errors arise in the hardware, so this is what the environment brings, drawn anew at every tick
(log entry 17). -/
inductive Upset where
  | none
  | struck (lane : Nat) (first again : Word)
  deriving DecidableEq, Repr, Inhabited

/-- The whole module. `agenda`, `cur`, `free` and `serial` are the model's own. `time` counts 2^-16/13 ns, so that a cycle of
1.3 GHz is 655,360 of them (R15, R301); `slew` is the correction of TIME that has still to be made, in the same unit. -/
structure State where
  agenda : List Turn
  cur : Cur
  free : Nat
  serial : Nat
  cycle : Nat
  time : Nat
  locked : Bool
  slew : Int
  upset : Upset
  work : Work
  mem : Memory
  admin : Admin
  eng : Engines
  sec : Security
  outbox : List Msg
  deriving DecidableEq, Repr

/-- Why a step stops with a fault. -/
inductive Fault where
  /-- Raised by GLEDEN_CORE_ACCESS at a physical address between hub SRAM and the state window, or of 0x403_0000_0000 and above, which
  no rule of spec/ lays out (R14, R185, R399): safe, since the machine's answer there is not stated. -/
  | undescribedRegister
  deriving DecidableEq, Repr

/-- Why an instruction has no meaning. -/
inductive Refusal where
  /-- Raised by an arm of `exec` whose instruction has not got its meaning: safe. -/
  | notModelled (mnemonic : String)
  deriving DecidableEq, Repr

/-- A queue's descriptor after reset (R283). -/
def Queue.reset : Queue :=
  { en := false, devq := false, ke := false, bud := false, log2n := 0, base := 0, tenant := 0, script := 0, ci := 0,
    ctxAddr := 0, kick := none, early := none, code := [], run := none, last := none,
    pi := 0, kids := [], mails := [] }

/-- The lane of a newly placed grid group (R27); registers below the launch's count exist, all are zero. -/
def Lane.fresh (entry : Word) : Lane :=
  { pc := entry, status := .active, q := List.replicate 16 ⟨0, false, .ready⟩,
    n := List.replicate 32 ⟨0, false, false, none⟩, p := List.replicate 8 ⟨false, false, false, none⟩,
    fpstat := 0, link := List.replicate 8 0, depth := 0, hnd := false, trapSlot := 0, thread := 0,
    park := ⟨false, false, false⟩, fid := 0, wait := ⟨.none, 0, 0, 0, 0, 0⟩, wcb := [], stepBp := false,
    restop := false, unchecked := false, issued := 0 }

/-- A barrier when its team or gang is placed (R167). -/
def Barrier.fresh : Barrier := ⟨false, 0, 0, none⟩

/-- A tag when its team is placed (R64). -/
def Tag.fresh : Tag := ⟨0, false, 0, 0, true, 0, none, false⟩

/-- A zeroed tile (R266). -/
def Tile.fresh : Tile := ⟨[], [], 0, 0, 0, 0, false, false, false, none⟩

/-- Lehr idle. -/
def Lehr.idle : Lehr := ⟨false, 0, [], none, 0, none, false⟩

/-- A core with no team: ring unowned, queues and L1 empty. -/
def Core.fresh : Core :=
  { tags := List.replicate 64 Tag.fresh, ring := List.replicate 16 Tile.fresh, head := 0, tail := 0, ncl := 0,
    owner := none, mq := [], lehr := Lehr.idle, punty := [], bslots := List.replicate 64 ⟨[], [], none⟩, l1 := [],
    withdrawn := false, pipes := [], fetched := [], arrayFree := 0 }

/-- A slice's sequencer before any issue for its group. -/
def Slice.fresh : Slice := ⟨0, none, none, false, false, none, none⟩

/-- The estate of a group that starts (R234). -/
def Estate.fresh : Estate := ⟨[], 0, 0, 0, 0, 0, 0, 0⟩

/-- An empty membership set (R44). -/
def MSet.fresh : MSet := ⟨List.replicate 16 0, List.replicate 16 0, []⟩

/-- A port before Memory_Active (R311). -/
def Port.reset : Port := ⟨0, false, false, false, 0⟩

/-- Ezwell's retention domain as the model starts (log entry 7). -/
def Ezwell.reset : Ezwell :=
  { cfgSeq := 0, minFirmware := 0, minKernel := 0, minScript := 0, operatorKey := none, tenantLimit := 65536, ports := 255, debugAllowed := true, cfgDigest := 0,
    xmss := 0, subkey := 0, fwDigest := 0, kernelDigest := 0 }

/-- The module right after a full reset, before the boot chain has run. No tenant, queue, launch or core has work; the
gaffer is the distributor of the lowest-numbered healthy die, die 0 (R298). -/
def State.reset : State :=
  { agenda := [], cur := .none, free := 0, serial := 0, cycle := 0, time := 0, locked := false, slew := 0,
    upset := .none,
    work := { launches := [], gangs := [], teams := [], groups := [], cores := [], ops := [], kills := [],
              killing := [], children := [], steps := [], queues := [], fenced := [], gaffer := some 0, election := false, gone := [] },
    mem := { bytes := [], psn := [], waiters := [], atc := [], atsReqs := [], pageReqs := [], spl := [], cmp := [], corr := [], overflow := [],
             overflowPsn := [], lent := [], migs := [] },
    admin := { faults := [], nextFid := 0, contain := [], nextKid := 0,
               census := List.replicate 32 ⟨0, 0, 0, 0⟩, partitions := [], shadows := [], cmdStatus := 0,
               cmdReg := 0, cmdHalf := none, idle := [] },
    eng := { conns := [], counters := [], nx := [], reds := [], redPosts := [],
             cullets := List.replicate 8 ⟨[], []⟩, portsUp := 0 },
    sec := { tenants := [], ports := [Port.reset, Port.reset], ezwell := Ezwell.reset, keys := [], boot := .off },
    outbox := [] }

end Sys2Proof.Machine
end

