-- ==== Sys2Proof/Machine/Store.lean ====
section
/-! DEFINITION. The operations on finite maps and on byte memories in canonical form. -/

namespace Sys2Proof.Machine

/-- What a map holds at a key. -/
def Sparse.get? {α : Type} : Sparse α → Nat → Option α
  | [], _ => none
  | (k, v) :: t, n => if k = n then some v else Sparse.get? t n

/-- Sets a key. -/
def Sparse.put {α : Type} (n : Nat) (v : α) : Sparse α → Sparse α
  | [] => [(n, v)]
  | (k, w) :: t => if n < k then (n, v) :: (k, w) :: t else if n = k then (n, v) :: t else (k, w) :: Sparse.put n v t

/-- Removes a key. -/
def Sparse.del {α : Type} (n : Nat) (m : Sparse α) : Sparse α := m.filter fun e => !(e.1 == n)

/-- Changes what a map holds at a key, if it holds anything. -/
def Sparse.upd {α : Type} (n : Nat) (f : α → α) (m : Sparse α) : Sparse α :=
  match m.get? n with
  | some v => m.put n (f v)
  | none => m

/-- The lowest number not below `i` that a map does not use, tried for `fuel` numbers. -/
def Sparse.freeKey {α : Type} (m : Sparse α) : Nat → Nat → Nat
  | 0, i => i
  | fuel + 1, i => if (m.get? i).isSome then Sparse.freeKey m fuel (i + 1) else i

/-- What a byte that nothing has written reads as (log entry 1). -/
def unlistedByte : Byte := 0

/-- The byte at an address. -/
def Mem.read (m : Mem) (a : Nat) : Byte := (Sparse.get? m a).getD unlistedByte

/-- Writes one byte, keeping the canonical form: the value an unlisted address reads as is not listed. -/
def Mem.write (m : Mem) (a : Nat) (b : Byte) : Mem :=
  if b = unlistedByte then Sparse.del a m else Sparse.put a b m

/-- The n bytes from an address on. -/
def Mem.readN (m : Mem) (a : Nat) : Nat → List Byte
  | 0 => []
  | n + 1 => m.read a :: Mem.readN m (a + 1) n

/-- Writes bytes from an address on. -/
def Mem.writeN (m : Mem) (a : Nat) : List Byte → Mem
  | [] => m
  | b :: t => Mem.writeN (m.write a b) (a + 1) t

/-- The little-endian number in n bytes (R3). -/
def Mem.readNat (m : Mem) (a n : Nat) : Nat := leNat (m.readN a n)

/-- Keys strictly rising. -/
def Sparse.sorted {α : Type} : Sparse α → Bool
  | [] => true
  | [_] => true
  | (a, _) :: (b, w) :: t => a < b && Sparse.sorted ((b, w) :: t)

/-- The canonical form: addresses strictly rising, no entry equal to what an unlisted address reads as. -/
def Mem.wf (m : Mem) : Bool := Sparse.sorted m && m.all fun e => !(e.2 == unlistedByte)

/-- Module memory is in canonical form. -/
def Memory.wf (m : Memory) : Bool := m.bytes.wf

/-- Adds a number to a strictly rising list. -/
def insertNat (n : Nat) : List Nat → List Nat
  | [] => [n]
  | k :: t => if n < k then n :: k :: t else if n = k then k :: t else k :: insertNat n t

/-- Sets or clears membership of a number in a strictly rising list. -/
def setIn (n : Nat) (b : Bool) (l : List Nat) : List Nat := if b then insertNat n l else l.filter fun k => !(k == n)

/-- The 8-byte words that n bytes from an address touch (R380). -/
def granules (a n : Nat) : List Nat :=
  if n = 0 then [] else (List.range ((a + n - 1) / 8 - a / 8 + 1)).map (a / 8 + ·)

/-- Whether a byte range touches a poisoned word. -/
def poisonedRange (psn : List Nat) (a n : Nat) : Bool := (granules a n).any fun g => psn.contains g

/-- The poison of 8-byte words after a write of n bytes: poisoned data poisons every word it touches, clean data
clears the words it covers whole and leaves the others (R380, R381). -/
def poisonAfter (psn : List Nat) (a n : Nat) (p : Bool) : List Nat :=
  (granules a n).foldl (fun l g => if p then insertNat g l else if a ≤ 8 * g && 8 * g + 8 ≤ a + n then setIn g false l
    else l) psn

end Sys2Proof.Machine
end

