-- ==== Sys2Proof/Machine/Access.lean ====
section
/-! DEFINITION. Access to the parts of the state: one accessor and one update for each kind of object, the fields of a
launch record, time, and the records that the device posts. -/

namespace Sys2Proof.Machine

/-- The key of the group in a core's group slot. -/
def groupKey (core slot : Nat) : Nat := core * 64 + slot

/-- The key of a team or gang: its launch slot and its index. -/
def indexKey (launch idx : Nat) : Nat := launch * 2 ^ 32 + idx

/-- The core of a group's key. -/
def coreOf (key : Nat) : Nat := key / 64

/-- The group slot of a group's key. -/
def slotOf (key : Nat) : Nat := key % 64

/-- The quarter of a group slot: 12 to each (R14). -/
def quarterOf (key : Nat) : Nat := slotOf key / 12

/-- The compute die of a core (R14). -/
def dieOf (core : Nat) : Nat := core / 64

/-- The number under which an image keeps the core at a place in its bench and position order (R394, R396). -/
def imageCore (image rank : Nat) : Nat := 512 + 64 * image + rank

/-- Whether a core number is that of a core, and not of a place in an image. -/
def onCore (core : Nat) : Bool := core < 512

namespace State

def group? (s : State) (k : Nat) : Option Group := s.work.groups.get? k
def setGroup (s : State) (k : Nat) (g : Group) : State := { s with work := { s.work with groups := s.work.groups.put k g } }
def delGroup (s : State) (k : Nat) : State := { s with work := { s.work with groups := s.work.groups.del k } }
def modGroup (s : State) (k : Nat) (f : Group → Group) : State :=
  { s with work := { s.work with groups := s.work.groups.upd k f } }
def modLane (s : State) (k l : Nat) (f : Lane → Lane) : State :=
  s.modGroup k fun g => { g with lanes := updAt f l g.lanes }
def team? (s : State) (k : Nat) : Option Team := s.work.teams.get? k
def setTeam (s : State) (k : Nat) (t : Team) : State := { s with work := { s.work with teams := s.work.teams.put k t } }
def delTeam (s : State) (k : Nat) : State := { s with work := { s.work with teams := s.work.teams.del k } }
def modTeam (s : State) (k : Nat) (f : Team → Team) : State :=
  { s with work := { s.work with teams := s.work.teams.upd k f } }
def gang? (s : State) (k : Nat) : Option Gang := s.work.gangs.get? k
def setGang (s : State) (k : Nat) (g : Gang) : State := { s with work := { s.work with gangs := s.work.gangs.put k g } }
def delGang (s : State) (k : Nat) : State := { s with work := { s.work with gangs := s.work.gangs.del k } }
def modGang (s : State) (k : Nat) (f : Gang → Gang) : State :=
  { s with work := { s.work with gangs := s.work.gangs.upd k f } }
def core (s : State) (c : Nat) : Core := (s.work.cores.get? c).getD Core.fresh
def modCore (s : State) (c : Nat) (f : Core → Core) : State :=
  { s with work := { s.work with cores := s.work.cores.put c (f (s.core c)) } }
def launch? (s : State) (k : Nat) : Option Launch := s.work.launches.get? k
def setLaunch (s : State) (k : Nat) (l : Launch) : State :=
  { s with work := { s.work with launches := s.work.launches.put k l } }
def delLaunch (s : State) (k : Nat) : State := { s with work := { s.work with launches := s.work.launches.del k } }
def modLaunch (s : State) (k : Nat) (f : Launch → Launch) : State :=
  { s with work := { s.work with launches := s.work.launches.upd k f } }
def queue (s : State) (q : Nat) : Queue := (s.work.queues.get? q).getD Queue.reset
def modQueue (s : State) (q : Nat) (f : Queue → Queue) : State :=
  { s with work := { s.work with queues := s.work.queues.put q (f (s.queue q)) } }
def op? (s : State) (k : Nat) : Option Op := s.work.ops.get? k
def setOp (s : State) (k : Nat) (o : Op) : State := { s with work := { s.work with ops := s.work.ops.put k o } }
def delOp (s : State) (k : Nat) : State := { s with work := { s.work with ops := s.work.ops.del k } }
def tenant? (s : State) (k : Nat) : Option Tenant := s.sec.tenants.get? k
def modTenant (s : State) (k : Nat) (f : Tenant → Tenant) : State :=
  { s with sec := { s.sec with tenants := s.sec.tenants.upd k f } }
def conn? (s : State) (k : Nat) : Option Conn := s.eng.conns.get? k
def counter (s : State) (k : Nat) : Counter := (s.eng.counters.get? k).getD ⟨0, none, none⟩
def modCounter (s : State) (k : Nat) (f : Counter → Counter) : State :=
  { s with eng := { s.eng with counters := s.eng.counters.put k (f (s.counter k)) } }
def nx? (s : State) (k : Nat) : Option NxCmd := s.eng.nx.get? k
def setNx (s : State) (k : Nat) (c : NxCmd) : State := { s with eng := { s.eng with nx := s.eng.nx.put k c } }
def delNx (s : State) (k : Nat) : State := { s with eng := { s.eng with nx := s.eng.nx.del k } }
def cullet (s : State) (e : Nat) : Cullet := s.eng.cullets.getD e ⟨[], []⟩
def modCullet (s : State) (e : Nat) (f : Cullet → Cullet) : State :=
  { s with eng := { s.eng with cullets := updAt f e s.eng.cullets } }

/-- Uses up one draw of the free values. -/
def bump (s : State) : State := { s with free := s.free + 1 }

/-- A serial number for a new object of the model. -/
def fresh (s : State) : State := { s with serial := s.serial + 1 }

/-- Sends a message out of the module. -/
def say (s : State) (m : Msg) : State := { s with outbox := m :: s.outbox }

/-- Adds a turn to the agenda. -/
def plan (s : State) (t : Turn) : State := { s with agenda := s.agenda ++ [t] }

/-- TIME in whole nanoseconds (R66, R301). -/
def ns (s : State) : Nat := s.time / 851968

/-- The 16 fraction bits of TIME (R66). -/
def frac (s : State) : Nat := s.time / 13 % 65536

/-- CLOCK of a core (R66). -/
def clock (s : State) (core : Nat) : Word := word (s.cycle + Config.clockOffset (dieOf core))

end State

/-- Cycles that last at least the given nanoseconds. -/
def cyclesOfNs (n : Nat) : Nat := (n * 13 + 9) / 10

/-! ### Launch records (R292, R293) -/

namespace Launch

def w (l : Launch) (i : Nat) : Word := l.words.getD i 0
def estcap (l : Launch) : Nat := bits (l.w 0) 63 48
def entry (l : Launch) : Word := word (bits (l.w 0) 47 0)
def slotBase (l : Launch) : Nat := bits (l.w 1) 59 54
def tagBase (l : Launch) : Nat := bits (l.w 1) 53 48
def dep (l : Launch) : Bool := bit (l.w 1) 47
def isPool (l : Launch) : Bool := bit (l.w 1) 46
def sysc (l : Launch) : Bool := bit (l.w 1) 45
def ring (l : Launch) : Bool := bit (l.w 1) 44
def paired (l : Launch) : Bool := bit (l.w 1) 43
def idem (l : Launch) : Bool := bit (l.w 1) 42
def prio (l : Launch) : Nat := bits (l.w 1) 41 40
def named (l : Launch) : Nat := 8 * (bits (l.w 1) 39 38 + 1)
def gangSize (l : Launch) : Nat := 2 ^ bits (l.w 1) 37 36
def groups (l : Launch) : Nat := bits (l.w 1) 35 32 + 1
def nteam (l : Launch) : Nat := bits (l.w 1) 31 0
def nbr (l : Launch) : Nat := bits (l.w 2) 61 60
def allow (l : Launch) : Nat := bits (l.w 2) 59 44
def priv (l : Launch) : Nat := 8 * bits (l.w 2) 43 26
def slotCnt (l : Launch) : Nat := bits (l.w 2) 25 19
def tagCnt (l : Launch) : Nat := bits (l.w 2) 18 12
def scr (l : Launch) : Nat := 256 * bits (l.w 2) 11 0
def constSize (l : Launch) : Nat := 256 * bits (l.w 3) 63 48
def privArea (l : Launch) : Nat := bits (l.w 3) 47 0
def compl (l : Launch) : Nat := bits (l.w 4) 47 0
def estate (l : Launch) : Nat := bits (l.w 5) 47 0
def traph (l : Launch) : Word := word (bits (l.w 6) 47 0)
def startTime (l : Launch) : Nat := if l.start = 0 then (l.w 7).toNat else l.start
def poolBase (l : Launch) : Nat := (l.w 16).toNat
def poolCnt (l : Launch) : Nat := (l.w 17).toNat
def spillBase (l : Launch) : Nat := (l.w 18).toNat
def spillCap (l : Launch) : Nat := (l.w 19).toNat

end Launch

/-- The key of the gang of a team (R23, R26). -/
def gangKeyOf (ln : Launch) (t : Team) : Nat := indexKey t.launch (t.idx / ln.gangSize)

/-- The groups of a team: (key, group) (R22). -/
def State.groupsOf (s : State) (tk : Nat) : List (Nat × Group) := s.work.groups.filter fun e => e.2.team == tk

/-- The resident teams of a gang, in team order. -/
def State.teamsOfGang (s : State) (launch gang size : Nat) : List (Nat × Team) :=
  s.work.teams.filter fun e => e.2.launch == launch && e.2.idx / size == gang

/-- CORE bits 10:0 (R67) of a group. -/
def coreReg (key : Nat) : Nat := quarterOf key * 512 + coreOf key

/-! ### The census, kills and fault records -/

/-- Adds one to a counter that saturates at 2^32 - 1. -/
def sat32 (n : Nat) : Nat := min (n + 1) (2 ^ 32 - 1)

/-- Counts an event in an entry of the error census (R402): lasting or transient, with where it arose. -/
def State.count (s : State) (entry : Nat) (lasting : Bool) (loc : Nat) : State :=
  let f : Census → Census := fun c =>
      { last := if lasting then sat32 c.last else c.last
        trans := if lasting then c.trans else sat32 c.trans
        time := s.ns
        loc := loc }
  { s with admin := { s.admin with census := updAt f entry s.admin.census } }

/-- Whether a kill is of a gang. -/
def Kill.of (k : Kill) (launch gang : Nat) : Bool := k.launch == launch && k.gang == gang

/-- Whether a kill of a gang is in progress: its reasons arose in an earlier cycle (R384). -/
def State.underKill (s : State) (launch gang : Nat) : Bool :=
  (s.work.starting.any fun k => k.of launch gang) || s.work.killing.any fun k => k.kill.of launch gang

/-- Whether a kill of a gang is requested or in progress. -/
def State.dying (s : State) (launch gang : Nat) : Bool :=
  (s.work.kills.any fun k => k.of launch gang) || s.underKill launch gang

/-- Requests a gang kill (R384): the reasons of one gang in one cycle make one kill with the lowest code; a
reason that arises while a kill is in progress is counted and ignored. -/
def State.kill (s : State) (k : Kill) : State :=
  if s.underKill k.launch k.gang then s.count 16 false k.core
  else match s.work.kills.find? fun j => j.of k.launch k.gang with
    | none => { s with work := { s.work with kills := s.work.kills ++ [k] } }
    | some j =>
      if k.reason < j.reason then
        { s with work := { s.work with kills := (s.work.kills.filter fun i => !(i == j)) ++ [k] } }
      else s

/-- What a fault record names besides time and identifier (R364). -/
structure FaultInfo where
  tenant : Nat := 0
  va : Nat := 0
  mask : LaneMask := 0
  acc : Nat := 0
  space : Nat := 0
  lslot : Nat := 0
  core : Nat := 0
  team : Nat := 0
  grp : Nat := 0
  pc : Word := 0
  resume : Option Resume := none
  pasid : Nat := 0
  deriving DecidableEq, Repr

/-- The eight words of a fault record (R364). -/
def FaultInfo.words (f : FaultInfo) (fid ns : Nat) : List Word :=
  [ word (f.tenant % 65536 * 2 ^ 48 + f.va % 2 ^ 48 / 4096 * 4096),
    word (f.mask.toNat * 2 ^ 32 + f.acc * 2 ^ 29 + f.space * 2 ^ 26 + f.lslot % 4096 * 2 ^ 12 + f.core % 2 ^ 11),
    word (f.team * 2 ^ 32 + f.grp * 2 ^ 28), f.pc,
    (match f.resume with
      | some r => word (r.mask.toNat * 2 ^ 32 + 2 ^ 31 + r.rank)
      | none => 0),
    (match f.resume with
      | some r => r.base
      | none => 0),
    word (fid * 2 ^ 32 + f.pasid % 2 ^ 20), word ns ]

/-- The next fault identifier that no outstanding record has (R364). -/
def State.freeFid (s : State) : Nat :=
  let fid := fun (k : Nat) => (s.admin.nextFid + k) % 2 ^ 32
  fid (((List.range (s.admin.faults.length + s.admin.joined.length + 1)).find? fun k => (s.admin.faults ++ s.admin.joined).all fun r => r.fid != fid k).getD 0)

/-- Posts a fault record and answers its identifier (R364). -/
def State.post (s : State) (f : FaultInfo) (who : FaultFor) (gang : Nat) : State × Nat :=
  let fid := s.freeFid
  ({ s with admin := { s.admin with
      nextFid := fid + 1
      faults := s.admin.faults ++ [⟨fid, f.words fid s.ns, who, f.lslot, gang, none⟩] } }, fid)

/-- Withdraws fault records (R366). -/
def State.withdraw (s : State) (p : FaultRec → Bool) : State :=
  { s with admin := { s.admin with
      faults := s.admin.faults.filter fun r => !p r, joined := s.admin.joined.filter fun r => !p r } }

/-! ### Tags (R65, R258) -/

/-- A command is issued on a core's tag. -/
def State.tagIssue (s : State) (core tag : Nat) : State :=
  s.modCore core fun c => { c with tags := updAt (fun t => { t with pend := t.pend + 1, ready := false }) tag c.tags }

/-- Whether a tag's pending count can rise. -/
def State.tagRoom (s : State) (core tag : Nat) : Bool := (((s.core core).tags.getD tag Tag.fresh).pend) < 65535

/-- A command completes on a tag, with the error it ends in, its underflows and the resume record it leaves. The first error
since the tag was last made ready fills CODE and ELEM, where ERR is not set already (R65, R258, R259); a later one sets ERR
alone (log entry 50). -/
def Tag.ends (t : Tag) (err : Bool) (code : BitVec 8) (elem udf : Nat) (resume : Option Cmd) : Tag :=
  let t := { t with pend := t.pend - 1, udf := min (t.udf + udf) (2 ^ 32 - 1) }
  let t :=
    if !err || t.err then t
    else if t.told then { t with err := true }
    else { t with err := true, code := code, elem := BitVec.ofNat 32 elem, resume := resume, told := true }
  if t.pend = 0 then { t with ready := true, told := false } else t

/-- A command completes on a core's tag with a code, the first unfinished element, its underflows, and the resume record
it leaves (R65, R256). -/
def State.tagDone (s : State) (core tag : Nat) (code : BitVec 8) (elem udf : Nat) (resume : Option Cmd) : State :=
  s.modCore core fun c => { c with tags := updAt (fun t => t.ends (code != 0) code elem udf resume) tag c.tags }

/-- Whether a team is swapped out: what happens for it is kept until it is restored (R395). -/
def State.away (s : State) (tk : Nat) : Bool := (s.team? tk).any fun t => !onCore t.core

/-- A command of an engine outside the core completes on its team's tag, which is gone once its gang was killed while it
was swapped out (R387). -/
def State.farTagDone (s : State) (tk core tag : Nat) (code : BitVec 8) : State :=
  if (s.team? tk).isSome then s.tagDone core tag code 0 0 none else s

/-- Clears ERR, CODE, ELEM, the underflow count and the resume record of a tag (R261). -/
def Tag.clear (t : Tag) : Tag := { t with err := false, code := 0, elem := 0, udf := 0, resume := none }

end Sys2Proof.Machine
end

