-- ==== Sys2Proof/Machine/View.lean ====
section
/-! DEFINITION. An instruction's opcode, common fields and format (spec/04_instruction_encoding.md R92, R93), and the
instruction that an opcode names. -/

namespace Sys2Proof.Machine

/-- The parts of a Huaxus instruction's word; none for a bytecode or a step without an encoding. -/
def view : Instr → Option View
  | .add c f => some ⟨0x00, c, .t f⟩
  | .addc c f => some ⟨0x01, c, .t f⟩
  | .sub c f => some ⟨0x02, c, .t f⟩
  | .subb c f => some ⟨0x03, c, .t f⟩
  | .mul c f => some ⟨0x04, c, .t f⟩
  | .mulhi c f => some ⟨0x05, c, .t f⟩
  | .mulw c f => some ⟨0x06, c, .t f⟩
  | .mad c f => some ⟨0x07, c, .t f⟩
  | .madhi c f => some ⟨0x08, c, .t f⟩
  | .madw c f => some ⟨0x09, c, .t f⟩
  | .neg c f => some ⟨0x0A, c, .t f⟩
  | .abs c f => some ⟨0x0B, c, .t f⟩
  | .min c f => some ⟨0x0C, c, .t f⟩
  | .max c f => some ⟨0x0D, c, .t f⟩
  | .divstep c f => some ⟨0x0E, c, .t f⟩
  | .sad c f => some ⟨0x0F, c, .t f⟩
  | .cmp c f => some ⟨0x10, c, .p f⟩
  | .sel c f => some ⟨0x11, c, .t f⟩
  | .selp c f => some ⟨0x12, c, .t f⟩
  | .shl c f => some ⟨0x13, c, .t f⟩
  | .shr c f => some ⟨0x14, c, .t f⟩
  | .sar c f => some ⟨0x15, c, .t f⟩
  | .rotl c f => some ⟨0x16, c, .t f⟩
  | .rotr c f => some ⟨0x17, c, .t f⟩
  | .fshl c f => some ⟨0x18, c, .t f⟩
  | .fshr c f => some ⟨0x19, c, .t f⟩
  | .sext c f => some ⟨0x1A, c, .t f⟩
  | .zext c f => some ⟨0x1B, c, .t f⟩
  | .clamp c f => some ⟨0x1C, c, .t f⟩
  | .shli c f => some ⟨0x1D, c, .i f⟩
  | .shri c f => some ⟨0x1E, c, .i f⟩
  | .sari c f => some ⟨0x1F, c, .i f⟩
  | .and c f => some ⟨0x20, c, .t f⟩
  | .or c f => some ⟨0x21, c, .t f⟩
  | .xor c f => some ⟨0x22, c, .t f⟩
  | .not c f => some ⟨0x23, c, .t f⟩
  | .tbl3 c f => some ⟨0x24, c, .t f⟩
  | .andn c f => some ⟨0x25, c, .t f⟩
  | .popc c f => some ⟨0x26, c, .t f⟩
  | .clz c f => some ⟨0x27, c, .t f⟩
  | .ctz c f => some ⟨0x28, c, .t f⟩
  | .brev c f => some ⟨0x29, c, .t f⟩
  | .bfe c f => some ⟨0x2A, c, .t f⟩
  | .bfi c f => some ⟨0x2B, c, .t f⟩
  | .bpick c f => some ⟨0x2C, c, .t f⟩
  | .andi c f => some ⟨0x2D, c, .i f⟩
  | .ori c f => some ⟨0x2E, c, .i f⟩
  | .xori c f => some ⟨0x2F, c, .i f⟩
  | .lxAt c f => some ⟨0x30, c, .t f⟩
  | .lxRot c f => some ⟨0x31, c, .t f⟩
  | .lxSh c f => some ⟨0x32, c, .t f⟩
  | .lxFlip c f => some ⟨0x33, c, .t f⟩
  | .ballot c f => some ⟨0x34, c, .t f⟩
  | .pollAll c f => some ⟨0x35, c, .t f⟩
  | .pollAny c f => some ⟨0x36, c, .t f⟩
  | .pollSame c f => some ⟨0x37, c, .t f⟩
  | .rdxAdd c f => some ⟨0x38, c, .t f⟩
  | .rdxMin c f => some ⟨0x39, c, .t f⟩
  | .rdxMax c f => some ⟨0x3A, c, .t f⟩
  | .rdxLop c f => some ⟨0x3B, c, .t f⟩
  | .scanAdd c f => some ⟨0x3C, c, .t f⟩
  | .scanLop c f => some ⟨0x3D, c, .t f⟩
  | .matchV c f => some ⟨0x3E, c, .t f⟩
  | .rdxFadd c f => some ⟨0x3F, c, .t f⟩
  | .fadd c f => some ⟨0x40, c, .t f⟩
  | .fsub c f => some ⟨0x41, c, .t f⟩
  | .fmul c f => some ⟨0x42, c, .t f⟩
  | .ffma c f => some ⟨0x43, c, .t f⟩
  | .fmin c f => some ⟨0x44, c, .t f⟩
  | .fmax c f => some ⟨0x45, c, .t f⟩
  | .fabs c f => some ⟨0x46, c, .t f⟩
  | .fneg c f => some ⟨0x47, c, .t f⟩
  | .hadd2 c f => some ⟨0x48, c, .t f⟩
  | .hsub2 c f => some ⟨0x49, c, .t f⟩
  | .hmul2 c f => some ⟨0x4A, c, .t f⟩
  | .hfma2 c f => some ⟨0x4B, c, .t f⟩
  | .hmin2 c f => some ⟨0x4C, c, .t f⟩
  | .hmax2 c f => some ⟨0x4D, c, .t f⟩
  | .hdot2 c f => some ⟨0x4E, c, .t f⟩
  | .fscale c f => some ⟨0x4F, c, .t f⟩
  | .dadd c f => some ⟨0x50, c, .t f⟩
  | .dsub c f => some ⟨0x51, c, .t f⟩
  | .dmul c f => some ⟨0x52, c, .t f⟩
  | .dfma c f => some ⟨0x53, c, .t f⟩
  | .dmin c f => some ⟨0x54, c, .t f⟩
  | .dmax c f => some ⟨0x55, c, .t f⟩
  | .rcp c f => some ⟨0x56, c, .t f⟩
  | .rsqrt c f => some ⟨0x57, c, .t f⟩
  | .exp2 c f => some ⟨0x58, c, .t f⟩
  | .log2 c f => some ⟨0x59, c, .t f⟩
  | .sin c f => some ⟨0x5A, c, .t f⟩
  | .cos c f => some ⟨0x5B, c, .t f⟩
  | .fclass c f => some ⟨0x5C, c, .t f⟩
  | .fcmp c f => some ⟨0x5D, c, .p f⟩
  | .dcmp c f => some ⟨0x5E, c, .p f⟩
  | .sqrt c f => some ⟨0x5F, c, .t f⟩
  | .cvt c f => some ⟨0x60, c, .t f⟩
  | .cvtPk c f => some ⟨0x61, c, .t f⟩
  | .cvtF8 c f => some ⟨0x62, c, .t f⟩
  | .mov c f => some ⟨0x63, c, .t f⟩
  | .movi c f => some ⟨0x64, c, .i f⟩
  | .movhi c f => some ⟨0x65, c, .i f⟩
  | .addi c f => some ⟨0x66, c, .i f⟩
  | .sregRd c f => some ⟨0x67, c, .s f⟩
  | .sregWr c f => some ⟨0x68, c, .s f⟩
  | .plop c f => some ⟨0x69, c, .s f⟩
  | .pdead c f => some ⟨0x6A, c, .s f⟩
  | .p2n c f => some ⟨0x6B, c, .t f⟩
  | .n2p c f => some ⟨0x6C, c, .t f⟩
  | .lmask c f => some ⟨0x6D, c, .t f⟩
  | .fmovi c f => some ⟨0x6E, c, .i f⟩
  | .muli c f => some ⟨0x6F, c, .i f⟩
  | .bra c f => some ⟨0x70, c, .b f⟩
  | .brx c f => some ⟨0x71, c, .b f⟩
  | .call c f => some ⟨0x72, c, .b f⟩
  | .callx c f => some ⟨0x73, c, .b f⟩
  | .ret c f => some ⟨0x74, c, .b f⟩
  | .loop c f => some ⟨0x75, c, .b f⟩
  | .braZ c f => some ⟨0x76, c, .b f⟩
  | .braNz c f => some ⟨0x77, c, .b f⟩
  | .jtab c f => some ⟨0x78, c, .b f⟩
  | .join c f => some ⟨0x79, c, .s f⟩
  | .exit c f => some ⟨0x7A, c, .s f⟩
  | .yield c f => some ⟨0x7B, c, .s f⟩
  | .regroup c f => some ⟨0x7C, c, .b f⟩
  | .launch c f => some ⟨0x7D, c, .e f⟩
  | .launchPool c f => some ⟨0x7E, c, .e f⟩
  | .exitWk c f => some ⟨0x7F, c, .s f⟩
  | .barArv c f => some ⟨0x80, c, .s f⟩
  | .barSync c f => some ⟨0x81, c, .s f⟩
  | .barRd c f => some ⟨0x82, c, .s f⟩
  | .setJoin c f => some ⟨0x83, c, .s f⟩
  | .setLeave c f => some ⟨0x84, c, .s f⟩
  | .setSync c f => some ⟨0x85, c, .s f⟩
  | .gate c f => some ⟨0x86, c, .s f⟩
  | .rls c f => some ⟨0x87, c, .s f⟩
  | .leadAdv c f => some ⟨0x88, c, .s f⟩
  | .leadWait c f => some ⟨0x89, c, .s f⟩
  | .twait c f => some ⟨0x8A, c, .s f⟩
  | .trap c f => some ⟨0x8B, c, .s f⟩
  | .sysc c f => some ⟨0x8C, c, .s f⟩
  | .syscTry c f => some ⟨0x8D, c, .s f⟩
  | .brk c f => some ⟨0x8E, c, .s f⟩
  | .nop c f => some ⟨0x8F, c, .s f⟩
  | .ld c f => some ⟨0x90, c, .m f⟩
  | .st c f => some ⟨0x91, c, .m f⟩
  | .ldK c f => some ⟨0x92, c, .m f⟩
  | .stK c f => some ⟨0x93, c, .m f⟩
  | .stCmp c f => some ⟨0x94, c, .m f⟩
  | .ldExp c f => some ⟨0x95, c, .m f⟩
  | .pf c f => some ⟨0x96, c, .m f⟩
  | .pfK c f => some ⟨0x97, c, .m f⟩
  | .stBm c f => some ⟨0x98, c, .m f⟩
  | .ld_2 c f => some ⟨0x99, c, .m f⟩
  | .st_2 c f => some ⟨0x9A, c, .m f⟩
  | .l1Inv c f => some ⟨0x9B, c, .m f⟩
  | .stNt c f => some ⟨0x9C, c, .m f⟩
  | .ldNt c f => some ⟨0x9D, c, .m f⟩
  | .stZ c f => some ⟨0x9E, c, .m f⟩
  | .xlatPf c f => some ⟨0x9F, c, .m f⟩
  | .atomAdd c f => some ⟨0xA0, c, .m f⟩
  | .atomMin c f => some ⟨0xA1, c, .m f⟩
  | .atomMax c f => some ⟨0xA2, c, .m f⟩
  | .atomAnd c f => some ⟨0xA3, c, .m f⟩
  | .atomOr c f => some ⟨0xA4, c, .m f⟩
  | .atomXor c f => some ⟨0xA5, c, .m f⟩
  | .atomXchg c f => some ⟨0xA6, c, .m f⟩
  | .atomCas c f => some ⟨0xA7, c, .m f⟩
  | .atomInc c f => some ⟨0xA8, c, .m f⟩
  | .atomFadd c f => some ⟨0xA9, c, .m f⟩
  | .atomFmin c f => some ⟨0xAA, c, .m f⟩
  | .atomFmax c f => some ⟨0xAB, c, .m f⟩
  | .red c f => some ⟨0xAC, c, .m f⟩
  | .fence c f => some ⟨0xAD, c, .m f⟩
  | .wait c f => some ⟨0xAE, c, .m f⟩
  | .wake c f => some ⟨0xAF, c, .m f⟩
  | .lockAcq c f => some ⟨0xB0, c, .m f⟩
  | .lockTry c f => some ⟨0xB1, c, .m f⟩
  | .lockRel c f => some ⟨0xB2, c, .m f⟩
  | .promMake c f => some ⟨0xB3, c, .m f⟩
  | .promKeep c f => some ⟨0xB4, c, .m f⟩
  | .promWait c f => some ⟨0xB5, c, .m f⟩
  | .promTry c f => some ⟨0xB6, c, .m f⟩
  | .claimGet c f => some ⟨0xB7, c, .m f⟩
  | .claimTry c f => some ⟨0xB8, c, .m f⟩
  | .claimPut c f => some ⟨0xB9, c, .m f⟩
  | .heirSet c f => some ⟨0xBA, c, .s f⟩
  | .estQ c f => some ⟨0xBB, c, .s f⟩
  | .estRd c f => some ⟨0xBC, c, .s f⟩
  | .promDrop c f => some ⟨0xBD, c, .m f⟩
  | .claimPass c f => some ⟨0xBE, c, .m f⟩
  | .heirClr c f => some ⟨0xBF, c, .s f⟩
  | .cpTile c f => some ⟨0xC0, c, .e f⟩
  | .cpBld c f => some ⟨0xC1, c, .e f⟩
  | .cpBulk c f => some ⟨0xC2, c, .e f⟩
  | .cpGath c f => some ⟨0xC3, c, .e f⟩
  | .cpScat c f => some ⟨0xC4, c, .e f⟩
  | .cpRes c f => some ⟨0xC5, c, .e f⟩
  | .tagWait c f => some ⟨0xC6, c, .e f⟩
  | .tagAny c f => some ⟨0xC7, c, .e f⟩
  | .tagFfr c f => some ⟨0xC8, c, .e f⟩
  | .tagSt c f => some ⟨0xC9, c, .e f⟩
  | .dzSub c f => some ⟨0xCA, c, .e f⟩
  | .dzRes c f => some ⟨0xCB, c, .e f⟩
  | .cpOut c f => some ⟨0xCC, c, .e f⟩
  | .tagClr c f => some ⟨0xCD, c, .e f⟩
  | .cpFill c f => some ⟨0xCE, c, .e f⟩
  | .dzSt c f => some ⟨0xCF, c, .e f⟩
  | .mma c f => some ⟨0xD0, c, .e f⟩
  | .mmaSk c f => some ⟨0xD1, c, .e f⟩
  | .ringAdv c f => some ⟨0xD2, c, .e f⟩
  | .ringRd c f => some ⟨0xD3, c, .e f⟩
  | .ringWr c f => some ⟨0xD4, c, .e f⟩
  | .ringClr c f => some ⟨0xD5, c, .e f⟩
  | .ringSt c f => some ⟨0xD6, c, .e f⟩
  | .epiPost c f => some ⟨0xD7, c, .e f⟩
  | .chkRd c f => some ⟨0xD8, c, .e f⟩
  | .nxPut c f => some ⟨0xD9, c, .e f⟩
  | .nxGet c f => some ⟨0xDA, c, .e f⟩
  | .nxSend c f => some ⟨0xDB, c, .e f⟩
  | .nxAtom c f => some ⟨0xDC, c, .e f⟩
  | .nxRed c f => some ⟨0xDD, c, .e f⟩
  | .nxCnt c f => some ⟨0xDE, c, .e f⟩
  | .nxCc c f => some ⟨0xDF, c, .e f⟩
  | .scriptEnd .. => none
  | .scriptDrop .. => none
  | .scriptLdp .. => none
  | .scriptLdc .. => none
  | .scriptStc .. => none
  | .scriptLi .. => none
  | .scriptLih .. => none
  | .scriptBfx .. => none
  | .scriptAdd .. => none
  | .scriptSub .. => none
  | .scriptAnd .. => none
  | .scriptOr .. => none
  | .scriptAddi .. => none
  | .scriptShl .. => none
  | .scriptShr .. => none
  | .scriptSeq .. => none
  | .scriptSltu .. => none
  | .scriptBz .. => none
  | .scriptBnz .. => none
  | .scriptBr .. => none
  | .scriptLoop .. => none
  | .scriptLaunch .. => none
  | .scriptEvwait .. => none
  | .scriptEvsig .. => none
  | .scriptPost .. => none
  | .scriptGreq .. => none
  | .longLatencyCompletion .. => none
  | .lineFetch .. => none
  | .issueChoice .. => none
  | .streamAged .. => none
  | .reconvergenceHoldExpiry .. => none
  | .sweepIssue .. => none
  | .yieldExpiry .. => none
  | .twaitExpiry .. => none
  | .leadCounterUpdate .. => none
  | .syscReply .. => none
  | .poolRecordFetch .. => none
  | .binFlush .. => none
  | .groupFormation .. => none
  | .teamRangeGrant .. => none
  | .teamPlacement .. => none
  | .transformBinding .. => none
  | .groupRelease .. => none
  | .groupRetirement .. => none
  | .teamRetirement .. => none
  | .launchCompletion .. => none
  | .kick .. => none
  | .launchPacket .. => none
  | .poolPacket .. => none
  | .waitPacket .. => none
  | .signalPacket .. => none
  | .scriptPacket .. => none
  | .kickEarlyTimeout .. => none
  | .scriptBudgetExceeded .. => none
  | .scriptBinding .. => none
  | .matrixQueueExecute .. => none
  | .puntyChunk .. => none
  | .lehrRow .. => none
  | .culletJobStart .. => none
  | .culletChunk .. => none
  | .nxCommandCompletion .. => none
  | .inboundPut .. => none
  | .inboundGet .. => none
  | .inboundSend .. => none
  | .inboundDeferrableSend .. => none
  | .inboundAtomic .. => none
  | .inboundPartial .. => none
  | .stepAbort .. => none
  | .retransmissionTimeout .. => none
  | .pathProbe .. => none
  | .pathRevival .. => none
  | .pathGraceExpiry .. => none
  | .linkDown .. => none
  | .timeSyncMessage .. => none
  | .hostMemrd .. => none
  | .hostMemwr .. => none
  | .hostAtomicop .. => none
  | .wakeWindowWrite .. => none
  | .atsTranslationCompletion .. => none
  | .atsInvalidationRequest .. => none
  | .invalidationCompletion .. => none
  | .prgResponse .. => none
  | .pageRequestTimeout .. => none
  | .cmpRestore .. => none
  | .frameMigration .. => none
  | .splinter .. => none
  | .patrolScrub .. => none
  | .gangKill .. => none
  | .gafferElection .. => none
  | .quantumExpiry .. => none
  | .partitionHalt .. => none
  | .breakpointHit .. => none
  | .powerBudgetThrottle .. => none
  | .thermalThrottle .. => none
  | .thermalShutdown .. => none
  | .powerGood .. => none
  | .fullResetRequest .. => none
  | .computeReset .. => none
  | .pldmMonitoring .. => none
  | .pldmFirmwareUpdate .. => none
  | .haltPartition .. => none
  | .haltAndSwapOut .. => none
  | .swapInAndResume .. => none
  | .resumeInPlace .. => none
  | .setQuantum .. => none
  | .answerFault .. => none
  | .debugStep .. => none
  | .debugResume .. => none
  | .returnWithdrawnCore .. => none
  | .fenceDie .. => none
  | .killGroupLanes .. => none
  | .unlistedCommand .. => none
  | .stateWindowWrite .. => none
  | .powerLoss .. => none
  | .partitionReset .. => none
  | .capacityTierEviction .. => none
  | .hostOverflowDrain .. => none
  | .gledenCoreAccess .. => none
  | .connectionOpen .. => none
  | .connectionClose .. => none
  | .tenantCreation .. => none
  | .tenantDestruction .. => none
  | .configurationRecord .. => none
  | .attestationReport .. => none
  | .debugConsentToken .. => none
  | .shadowImageMove .. => none
  | .hdmDecoderProgramming .. => none

/-- The instruction that an opcode 0x00 to 0xDF names, by format (R92, R93). -/
def ofFmtT (o : Nat) (c : Common) (f : FmtT) : Option Instr :=
  match o with
  | 0x00 => some (.add c f)
  | 0x01 => some (.addc c f)
  | 0x02 => some (.sub c f)
  | 0x03 => some (.subb c f)
  | 0x04 => some (.mul c f)
  | 0x05 => some (.mulhi c f)
  | 0x06 => some (.mulw c f)
  | 0x07 => some (.mad c f)
  | 0x08 => some (.madhi c f)
  | 0x09 => some (.madw c f)
  | 0x0A => some (.neg c f)
  | 0x0B => some (.abs c f)
  | 0x0C => some (.min c f)
  | 0x0D => some (.max c f)
  | 0x0E => some (.divstep c f)
  | 0x0F => some (.sad c f)
  | 0x11 => some (.sel c f)
  | 0x12 => some (.selp c f)
  | 0x13 => some (.shl c f)
  | 0x14 => some (.shr c f)
  | 0x15 => some (.sar c f)
  | 0x16 => some (.rotl c f)
  | 0x17 => some (.rotr c f)
  | 0x18 => some (.fshl c f)
  | 0x19 => some (.fshr c f)
  | 0x1A => some (.sext c f)
  | 0x1B => some (.zext c f)
  | 0x1C => some (.clamp c f)
  | 0x20 => some (.and c f)
  | 0x21 => some (.or c f)
  | 0x22 => some (.xor c f)
  | 0x23 => some (.not c f)
  | 0x24 => some (.tbl3 c f)
  | 0x25 => some (.andn c f)
  | 0x26 => some (.popc c f)
  | 0x27 => some (.clz c f)
  | 0x28 => some (.ctz c f)
  | 0x29 => some (.brev c f)
  | 0x2A => some (.bfe c f)
  | 0x2B => some (.bfi c f)
  | 0x2C => some (.bpick c f)
  | 0x30 => some (.lxAt c f)
  | 0x31 => some (.lxRot c f)
  | 0x32 => some (.lxSh c f)
  | 0x33 => some (.lxFlip c f)
  | 0x34 => some (.ballot c f)
  | 0x35 => some (.pollAll c f)
  | 0x36 => some (.pollAny c f)
  | 0x37 => some (.pollSame c f)
  | 0x38 => some (.rdxAdd c f)
  | 0x39 => some (.rdxMin c f)
  | 0x3A => some (.rdxMax c f)
  | 0x3B => some (.rdxLop c f)
  | 0x3C => some (.scanAdd c f)
  | 0x3D => some (.scanLop c f)
  | 0x3E => some (.matchV c f)
  | 0x3F => some (.rdxFadd c f)
  | 0x40 => some (.fadd c f)
  | 0x41 => some (.fsub c f)
  | 0x42 => some (.fmul c f)
  | 0x43 => some (.ffma c f)
  | 0x44 => some (.fmin c f)
  | 0x45 => some (.fmax c f)
  | 0x46 => some (.fabs c f)
  | 0x47 => some (.fneg c f)
  | 0x48 => some (.hadd2 c f)
  | 0x49 => some (.hsub2 c f)
  | 0x4A => some (.hmul2 c f)
  | 0x4B => some (.hfma2 c f)
  | 0x4C => some (.hmin2 c f)
  | 0x4D => some (.hmax2 c f)
  | 0x4E => some (.hdot2 c f)
  | 0x4F => some (.fscale c f)
  | 0x50 => some (.dadd c f)
  | 0x51 => some (.dsub c f)
  | 0x52 => some (.dmul c f)
  | 0x53 => some (.dfma c f)
  | 0x54 => some (.dmin c f)
  | 0x55 => some (.dmax c f)
  | 0x56 => some (.rcp c f)
  | 0x57 => some (.rsqrt c f)
  | 0x58 => some (.exp2 c f)
  | 0x59 => some (.log2 c f)
  | 0x5A => some (.sin c f)
  | 0x5B => some (.cos c f)
  | 0x5C => some (.fclass c f)
  | 0x5F => some (.sqrt c f)
  | 0x60 => some (.cvt c f)
  | 0x61 => some (.cvtPk c f)
  | 0x62 => some (.cvtF8 c f)
  | 0x63 => some (.mov c f)
  | 0x6B => some (.p2n c f)
  | 0x6C => some (.n2p c f)
  | 0x6D => some (.lmask c f)
  | _ => none

/-- As `ofFmtT`, for format I. -/
def ofFmtI (o : Nat) (c : Common) (f : FmtI) : Option Instr :=
  match o with
  | 0x1D => some (.shli c f)
  | 0x1E => some (.shri c f)
  | 0x1F => some (.sari c f)
  | 0x2D => some (.andi c f)
  | 0x2E => some (.ori c f)
  | 0x2F => some (.xori c f)
  | 0x64 => some (.movi c f)
  | 0x65 => some (.movhi c f)
  | 0x66 => some (.addi c f)
  | 0x6E => some (.fmovi c f)
  | 0x6F => some (.muli c f)
  | _ => none

/-- As `ofFmtT`, for format P. -/
def ofFmtP (o : Nat) (c : Common) (f : FmtP) : Option Instr :=
  match o with
  | 0x10 => some (.cmp c f)
  | 0x5D => some (.fcmp c f)
  | 0x5E => some (.dcmp c f)
  | _ => none

/-- As `ofFmtT`, for format B. -/
def ofFmtB (o : Nat) (c : Common) (f : FmtB) : Option Instr :=
  match o with
  | 0x70 => some (.bra c f)
  | 0x71 => some (.brx c f)
  | 0x72 => some (.call c f)
  | 0x73 => some (.callx c f)
  | 0x74 => some (.ret c f)
  | 0x75 => some (.loop c f)
  | 0x76 => some (.braZ c f)
  | 0x77 => some (.braNz c f)
  | 0x78 => some (.jtab c f)
  | 0x7C => some (.regroup c f)
  | _ => none

/-- As `ofFmtT`, for format M. -/
def ofFmtM (o : Nat) (c : Common) (f : FmtM) : Option Instr :=
  match o with
  | 0x90 => some (.ld c f)
  | 0x91 => some (.st c f)
  | 0x92 => some (.ldK c f)
  | 0x93 => some (.stK c f)
  | 0x94 => some (.stCmp c f)
  | 0x95 => some (.ldExp c f)
  | 0x96 => some (.pf c f)
  | 0x97 => some (.pfK c f)
  | 0x98 => some (.stBm c f)
  | 0x99 => some (.ld_2 c f)
  | 0x9A => some (.st_2 c f)
  | 0x9B => some (.l1Inv c f)
  | 0x9C => some (.stNt c f)
  | 0x9D => some (.ldNt c f)
  | 0x9E => some (.stZ c f)
  | 0x9F => some (.xlatPf c f)
  | 0xA0 => some (.atomAdd c f)
  | 0xA1 => some (.atomMin c f)
  | 0xA2 => some (.atomMax c f)
  | 0xA3 => some (.atomAnd c f)
  | 0xA4 => some (.atomOr c f)
  | 0xA5 => some (.atomXor c f)
  | 0xA6 => some (.atomXchg c f)
  | 0xA7 => some (.atomCas c f)
  | 0xA8 => some (.atomInc c f)
  | 0xA9 => some (.atomFadd c f)
  | 0xAA => some (.atomFmin c f)
  | 0xAB => some (.atomFmax c f)
  | 0xAC => some (.red c f)
  | 0xAD => some (.fence c f)
  | 0xAE => some (.wait c f)
  | 0xAF => some (.wake c f)
  | 0xB0 => some (.lockAcq c f)
  | 0xB1 => some (.lockTry c f)
  | 0xB2 => some (.lockRel c f)
  | 0xB3 => some (.promMake c f)
  | 0xB4 => some (.promKeep c f)
  | 0xB5 => some (.promWait c f)
  | 0xB6 => some (.promTry c f)
  | 0xB7 => some (.claimGet c f)
  | 0xB8 => some (.claimTry c f)
  | 0xB9 => some (.claimPut c f)
  | 0xBD => some (.promDrop c f)
  | 0xBE => some (.claimPass c f)
  | _ => none

/-- As `ofFmtT`, for format E. -/
def ofFmtE (o : Nat) (c : Common) (f : FmtE) : Option Instr :=
  match o with
  | 0x7D => some (.launch c f)
  | 0x7E => some (.launchPool c f)
  | 0xC0 => some (.cpTile c f)
  | 0xC1 => some (.cpBld c f)
  | 0xC2 => some (.cpBulk c f)
  | 0xC3 => some (.cpGath c f)
  | 0xC4 => some (.cpScat c f)
  | 0xC5 => some (.cpRes c f)
  | 0xC6 => some (.tagWait c f)
  | 0xC7 => some (.tagAny c f)
  | 0xC8 => some (.tagFfr c f)
  | 0xC9 => some (.tagSt c f)
  | 0xCA => some (.dzSub c f)
  | 0xCB => some (.dzRes c f)
  | 0xCC => some (.cpOut c f)
  | 0xCD => some (.tagClr c f)
  | 0xCE => some (.cpFill c f)
  | 0xCF => some (.dzSt c f)
  | 0xD0 => some (.mma c f)
  | 0xD1 => some (.mmaSk c f)
  | 0xD2 => some (.ringAdv c f)
  | 0xD3 => some (.ringRd c f)
  | 0xD4 => some (.ringWr c f)
  | 0xD5 => some (.ringClr c f)
  | 0xD6 => some (.ringSt c f)
  | 0xD7 => some (.epiPost c f)
  | 0xD8 => some (.chkRd c f)
  | 0xD9 => some (.nxPut c f)
  | 0xDA => some (.nxGet c f)
  | 0xDB => some (.nxSend c f)
  | 0xDC => some (.nxAtom c f)
  | 0xDD => some (.nxRed c f)
  | 0xDE => some (.nxCnt c f)
  | 0xDF => some (.nxCc c f)
  | _ => none

/-- As `ofFmtT`, for format S. -/
def ofFmtS (o : Nat) (c : Common) (f : FmtS) : Option Instr :=
  match o with
  | 0x67 => some (.sregRd c f)
  | 0x68 => some (.sregWr c f)
  | 0x69 => some (.plop c f)
  | 0x6A => some (.pdead c f)
  | 0x79 => some (.join c f)
  | 0x7A => some (.exit c f)
  | 0x7B => some (.yield c f)
  | 0x7F => some (.exitWk c f)
  | 0x80 => some (.barArv c f)
  | 0x81 => some (.barSync c f)
  | 0x82 => some (.barRd c f)
  | 0x83 => some (.setJoin c f)
  | 0x84 => some (.setLeave c f)
  | 0x85 => some (.setSync c f)
  | 0x86 => some (.gate c f)
  | 0x87 => some (.rls c f)
  | 0x88 => some (.leadAdv c f)
  | 0x89 => some (.leadWait c f)
  | 0x8A => some (.twait c f)
  | 0x8B => some (.trap c f)
  | 0x8C => some (.sysc c f)
  | 0x8D => some (.syscTry c f)
  | 0x8E => some (.brk c f)
  | 0x8F => some (.nop c f)
  | 0xBA => some (.heirSet c f)
  | 0xBB => some (.estQ c f)
  | 0xBC => some (.estRd c f)
  | 0xBF => some (.heirClr c f)
  | _ => none

/-- The instruction with given parts; none if the opcode has another format or is reserved. -/
def ofView (v : View) : Option Instr :=
  match v.f with
  | .t f => ofFmtT v.opc.toNat v.c f
  | .i f => ofFmtI v.opc.toNat v.c f
  | .p f => ofFmtP v.opc.toNat v.c f
  | .b f => ofFmtB v.opc.toNat v.c f
  | .m f => ofFmtM v.opc.toNat v.c f
  | .e f => ofFmtE v.opc.toNat v.c f
  | .s f => ofFmtS v.opc.toNat v.c f

end Sys2Proof.Machine
end

