-- ==== Sys2Proof/Machine/Checks.lean ====
section
/-! DEFINITION. The checks that the word of an instruction meets at decode, whatever the guard (R79, R94), each with the
subcode of R356 that it raises. The lowest subcode decides (R357). -/

namespace Sys2Proof.Machine

/-- A subcode, if a condition holds. -/
def sub (b : Bool) (n : Nat) : List Nat := if b then [n] else []

/-- A field that must be zero (R79). -/
def zero3 {w : Nat} (x : BitVec w) : List Nat := sub (x != 0) 3

/-- A source code that names a named register (R77). -/
def isNamed (c : BitVec 6) : Bool := 0x10 ≤ c.toNat && c.toNat < 0x30

/-- A source code that names a uniform register or `zero` (R77). -/
def isUniform (c : BitVec 6) : Bool := 0x30 ≤ c.toNat

/-- A destination code that an entry admits: 0x01 to 0x0F are reserved (R78). -/
def dstOk (c : BitVec 6) : List Nat := sub (1 ≤ c.toNat && c.toNat < 0x10) 4

/-- A destination field of an entry that has none. -/
def dstNone (c : BitVec 6) : List Nat := zero3 c ++ dstOk c

/-- Bits of x outside a mask. -/
def outside {w : Nat} (x : BitVec w) (mask : Nat) : List Nat := sub (x &&& ~~~ BitVec.ofNat w mask != 0) 3

/-! ### Format B (R153, R162) -/

def checkB (o : Nat) (f : FmtB) : List Nat :=
  zero3 f.rsv ++
  (if o = 0x70 || o = 0x72 then zero3 f.sa ++ zero3 f.mod
   else if o = 0x71 || o = 0x73 then zero3 f.mod ++ zero3 f.ofs
   else if o = 0x74 then zero3 f.sa ++ zero3 f.mod ++ zero3 f.ofs
   else if o = 0x75 then sub (!isNamed f.sa) 3 ++ zero3 f.mod
   else if o = 0x76 || o = 0x77 then outside f.mod 3
   else if o = 0x7C then outside f.mod 1 ++ (if f.mod.getLsbD 0 then zero3 f.ofs else zero3 f.sa)
   else [])

/-! ### Format S (R146 to R150, R158, R167, R168, R170, R242, R243) -/

/-- The barrier that SEL names: 20 to 31 name none, and no arrival is made at b15 (R167, R170). -/
def checkBar (sel : BitVec 12) (arrives : Bool) (e : Nat) : List Nat :=
  let b := sel.toNat % 32
  outside sel 0x1F ++ sub (20 ≤ b || (b = 15 && arrives)) 8 ++ sub ((if b < 16 then 512 else 4096) < e) 3

def checkS (o : Nat) (f : FmtS) : List Nat :=
  let e := f.imm.toNat % 65536
  match o with
  | 0x67 => dstOk f.dst ++ (if f.sel = 5 then [] else zero3 f.sa) ++ sub (12 < f.sel.toNat) 8 ++ zero3 f.imm
  | 0x68 => dstNone f.dst ++ sub (f.sel != 9) 8 ++ zero3 f.imm
  | 0x69 => dstNone f.dst ++ zero3 f.sa ++ zero3 f.sel ++ outside f.imm 0xFFFFF
  | 0x6A => dstNone f.dst ++ zero3 f.sa ++ zero3 f.sel ++ outside f.imm 0xFF
  | 0x79 => dstNone f.dst ++ zero3 f.sa ++ outside f.sel 0xF ++ sub (f.sel != 0 && !f.sel.getLsbD 3) 3 ++ zero3 f.imm
  | 0x7A | 0x7B | 0x87 | 0x89 | 0x8F => dstNone f.dst ++ zero3 f.sa ++ zero3 f.sel ++ zero3 f.imm
  | 0x7F => dstNone f.dst ++ zero3 f.sel ++ outside f.imm 0xFFFF
  | 0x80 => dstOk f.dst ++ zero3 f.sa ++ checkBar f.sel true e ++ outside f.imm 0xFFFF
  | 0x81 =>
    let wo := f.imm.getLsbD 16
    dstOk f.dst ++ (if wo then sub (e != 0) 3 else zero3 f.sa) ++ checkBar f.sel (!wo) e ++ outside f.imm 0x1FFFF
  | 0x82 => dstOk f.dst ++ zero3 f.sa ++ checkBar f.sel false 0 ++ zero3 f.imm
  | 0x83 | 0x84 => dstNone f.dst ++ zero3 f.sa ++ outside f.sel 7 ++ zero3 f.imm
  | 0x85 => dstNone f.dst ++ outside f.sel 7 ++ zero3 f.imm
  | 0x86 | 0xBB => dstOk f.dst ++ zero3 f.sa ++ zero3 f.sel ++ zero3 f.imm
  | 0x88 => dstOk f.dst ++ zero3 f.sa ++ zero3 f.sel ++ outside f.imm 0xFF ++ sub (f.imm.toNat % 256 = 0) 3
  | 0x8A => dstOk f.dst ++ zero3 f.sel ++ outside f.imm 1
  | 0x8B => dstNone f.dst ++ zero3 f.imm
  | 0x8C => dstOk f.dst ++ zero3 f.imm
  | 0x8D => dstOk f.dst ++ outside f.imm 7
  | 0x8E => dstNone f.dst ++ zero3 f.sa ++ zero3 f.imm
  | 0xBA => dstNone f.dst ++ outside f.sel 7 ++ sub (f.sel.toNat % 8 = 7) 8 ++ outside f.imm 3 ++ sub (f.imm.toNat % 4 = 3) 3
  | 0xBC => dstOk f.dst ++ zero3 f.sa ++ outside f.sel 0xF ++ zero3 f.imm
  | 0xBF => dstNone f.dst ++ zero3 f.sa ++ zero3 f.sel ++ outside f.imm 1
  | _ => []

/-! ### Format M (R207, R221 to R224, R235) -/

/-- A field whose value is not among those an entry admits (R85). -/
def among {w : Nat} (x : BitVec w) (ok : List Nat) : List Nat := sub (!ok.contains x.toNat) 8

/-- SCOPE: 6 and 7 are reserved; an entry that admits only relaxed admits only 0 (R207). -/
def scopeAny (f : FmtM) : List Nat := sub (5 < f.scope.toNat) 8

/-- SGN of a load: reserved at widths of 64 bits and more (R207). -/
def sgnLoad (f : FmtM) : List Nat := sub (f.sgn != 0 && 3 ≤ f.width.toNat) 3

/-- An even-numbered named register n(2i), or n(4i) where four are taken (R85, R222). -/
def pairReg (c : BitVec 6) (k : Nat) : List Nat := sub (!isNamed c || c.toNat % k != 0) 3

/-- The values an atomic admits, by its opcode less 0xA0 (R220 to R224). -/
def checkAtomic (o : Nat) (f : FmtM) : List Nat :=
  among f.space [0, 1, 2, 3, 4, 5] ++ scopeAny f ++ sub (f.hint != 0) 8 ++
  (if o = 7 then among f.width [0, 1, 2, 3, 4] ++ zero3 f.sgn ++ pairReg f.sd (if f.width = 4 then 4 else 2)
   else if o = 8 then among f.width [2, 3] ++ zero3 f.sgn
   else if 9 ≤ o then
     sub (!((f.width = 1) || (f.width = 2 && f.sgn = 0) || (f.width = 3 && f.sgn = 0))) 8
   else among f.width [0, 1, 2, 3] ++ (if o = 1 || o = 2 then [] else zero3 f.sgn))

def checkM (o : Nat) (f : FmtM) : List Nat :=
  let ld := fun (sp w : List Nat) => among f.space sp ++ among f.width w ++ among f.order [0, 1] ++ scopeAny f ++ sgnLoad f ++
    zero3 f.sd
  let st := fun (sp w : List Nat) => among f.space sp ++ among f.width w ++ among f.order [0, 2] ++ scopeAny f ++
    among f.hint [0, 2, 3] ++ zero3 f.sgn
  let pf := fun (sp : List Nat) => among f.space sp ++ among f.width [0] ++ among f.order [0] ++ among f.scope [0] ++
    zero3 f.sgn
  let uni := fun (c : BitVec 6) => sub (!isUniform c) 9
  let row0xB := fun (w : Nat) (prd : Bool) => among f.space [0] ++ among f.width [w] ++ among f.order [0] ++
    among f.scope [1, 2, 3, 4, 5] ++ (if prd then [] else zero3 f.hint ++ zero3 f.sgn) ++ dstOk f.dst
  let all := [0, 1, 2, 3, 4, 5]
  match o with
  | 0x90 => ld all [0, 1, 2, 3, 4] ++ dstOk f.dst
  | 0x91 => st all [0, 1, 2, 3, 4] ++ dstNone f.dst ++ (if f.width = 4 then pairReg f.sd 2 else [])
  | 0x92 => ld [0, 1, 2, 5] [0, 1, 2, 3] ++ dstOk f.dst ++ uni f.sa ++ sub (f.dst != 0 && !isUniform f.dst) 3
  | 0x93 => st [0, 1, 2] [0, 1, 2, 3] ++ dstNone f.dst ++ uni f.sa ++ uni f.sd
  | 0x94 => st [0, 1, 2, 4] [0, 1, 2, 3] ++ dstOk f.dst
  | 0x95 => ld [0, 1, 2, 4, 5] [0, 1, 2, 3] ++ dstOk f.dst
  | 0x96 => pf [0, 3, 4] ++ among f.hint [0, 2, 3] ++ zero3 f.sd ++ dstNone f.dst
  | 0x97 => pf [0] ++ among f.hint [0, 2, 3] ++ uni f.sa ++ uni f.sd ++ dstNone f.dst
  | 0x98 => st [0, 1, 2, 3, 4] [3] ++ dstNone f.dst ++ pairReg f.sd 2
  | 0x99 => ld all [0, 1, 2, 3] ++ dstOk f.dst
  | 0x9A => st all [0, 1, 2, 3] ++ dstNone f.dst ++ pairReg f.sd 2
  | 0x9B => pf [0] ++ among f.hint [0] ++ zero3 f.sa ++ zero3 f.sd ++ zero3 f.ofs ++ dstNone f.dst
  | 0x9C => st all [0, 1, 2, 3] ++ dstOk f.dst
  | 0x9D => ld all [0, 1, 2, 3] ++ dstOk f.dst
  | 0x9E => st [0, 1, 2] [0] ++ dstNone f.dst ++ zero3 f.sd
  | 0x9F => pf [0, 4] ++ among f.hint [0] ++ zero3 f.sd ++ dstOk f.dst
  | 0xAC =>
    let k := f.dst.toNat
    if k ≤ 5 || (8 ≤ k && k ≤ 0xB) then checkAtomic k f else [8]
  | 0xAD => among f.space [0] ++ among f.width [0] ++ among f.order [1, 2, 3] ++ scopeAny f ++ among f.hint [0] ++
      zero3 f.sgn ++ zero3 f.sa ++ zero3 f.sd ++ zero3 f.ofs ++ dstNone f.dst
  | 0xAE => among f.space [0, 4] ++ among f.width [2, 3] ++ among f.order [0, 1] ++ scopeAny f ++ among f.hint [0] ++
      (if f.sgn = 1 then [] else zero3 f.sd) ++ dstOk f.dst
  | 0xAF => among f.space [0, 4] ++ among f.width [0] ++ among f.order [0, 2] ++ scopeAny f ++ among f.hint [0] ++
      zero3 f.sgn ++ dstOk f.dst
  | 0xB0 | 0xB1 => row0xB 3 true ++ zero3 f.sd
  | 0xB2 => row0xB 3 false ++ zero3 f.sd
  | 0xB3 | 0xB5 | 0xB6 | 0xB9 | 0xBD => row0xB 4 false ++ zero3 f.sd
  | 0xB4 | 0xBE => row0xB 4 false
  | 0xB7 | 0xB8 => row0xB 4 true
  | _ => if 0xA0 ≤ o && o ≤ 0xAB then checkAtomic (o - 0xA0) f ++ dstOk f.dst else []

/-! ### Format E (R86, R165, R253, R261, R262, R270, R331, R332) -/

/-- ACQ, REL and SCOPE where an entry admits none. -/
def noOrder (f : FmtE) : List Nat := sub (5 < f.scope.toNat) 8 ++ zero3 f.acq ++ zero3 f.rel ++ zero3 f.scope

/-- A uniform operand (R86). -/
def uOp (c : BitVec 6) : List Nat := sub (!isUniform c) 9

/-- SCOPE of a Cullet or Pontil command (R202). -/
def sysScope (f : FmtE) : List Nat := sub (f.scope != 4 && f.scope != 5) 8

/-- A space code of a copy command: 3 is reserved (R253). -/
def spaceCode (n : Nat) : List Nat := sub (n % 4 = 3) 8

def checkE (o : Nat) (f : FmtE) : List Nat :=
  let m := f.mod.toNat
  let sc := sub (5 < f.scope.toNat) 8
  let perLane := fun (c : BitVec 6) => sub (!isNamed c) 3
  let dfmt := sub (m % 4 = 3) 8
  let mma := sub (m % 32 < 0x12 || 0x14 < m % 32) 7 ++ outside f.mod 0x7F
  match o with
  | 0x7D | 0x7E => dstOk f.dst ++ uOp f.ua ++ uOp f.ub ++ uOp f.uc ++ outside f.mod 3 ++ zero3 f.acq ++ sc ++
      (if f.rel = 1 then sysScope f else []) ++ (if f.mod.getLsbD 1 then [] else zero3 f.tag)
  | 0xC0 | 0xC1 => dstNone f.dst ++ uOp f.ua ++ uOp f.ub ++ uOp f.uc ++ dfmt ++ outside f.mod 0xF ++ sc
  | 0xC2 => dstNone f.dst ++ uOp f.ua ++ uOp f.ub ++ uOp f.uc ++ spaceCode m ++ spaceCode (m / 4) ++ outside f.mod 0xF ++ sc
  | 0xC3 => dstNone f.dst ++ uOp f.ua ++ uOp f.ub ++ perLane f.uc ++ spaceCode m ++ outside f.mod 3 ++ sc
  | 0xC4 => dstNone f.dst ++ uOp f.ua ++ uOp f.ub ++ perLane f.uc ++ spaceCode (m / 4) ++ outside f.mod 0xC ++ sc
  | 0xC5 => dstNone f.dst ++ uOp f.ua ++ zero3 f.ub ++ zero3 f.uc ++ zero3 f.mod ++ sc
  | 0xC6 | 0xC7 | 0xC8 => dstOk f.dst ++ uOp f.ua ++ zero3 f.ub ++ zero3 f.uc ++ zero3 f.tag ++ zero3 f.mod ++ noOrder f
  | 0xC9 => dstOk f.dst ++ zero3 f.ua ++ zero3 f.ub ++ zero3 f.uc ++ outside f.mod 1 ++ noOrder f
  | 0xCA => dstNone f.dst ++ uOp f.ua ++ zero3 f.ub ++ zero3 f.uc ++ outside f.mod 1 ++ sc ++ sysScope f
  | 0xCB => dstNone f.dst ++ uOp f.ua ++ zero3 f.ub ++ zero3 f.uc ++ zero3 f.mod ++ sc ++ sysScope f
  | 0xCC => dstNone f.dst ++ uOp f.ua ++ uOp f.ub ++ uOp f.uc ++ outside f.mod 1 ++ sc
  | 0xCD => dstNone f.dst ++ uOp f.ua ++ zero3 f.ub ++ zero3 f.uc ++ zero3 f.tag ++ zero3 f.mod ++ noOrder f
  | 0xCE => dstNone f.dst ++ uOp f.ua ++ uOp f.ub ++ uOp f.uc ++ spaceCode (m / 4) ++ outside f.mod 0xC ++ sc
  | 0xCF => dstOk f.dst ++ uOp f.ua ++ zero3 f.ub ++ zero3 f.uc ++ zero3 f.tag ++ zero3 f.mod ++ noOrder f
  | 0xD0 => dstNone f.dst ++ uOp f.ua ++ uOp f.ub ++ zero3 f.uc ++ zero3 f.tag ++ mma ++ noOrder f
  | 0xD1 => dstNone f.dst ++ uOp f.ua ++ uOp f.ub ++ uOp f.uc ++ zero3 f.tag ++ mma ++ noOrder f
  | 0xD2 => dstNone f.dst ++ zero3 f.ua ++ zero3 f.ub ++ zero3 f.uc ++ zero3 f.tag ++ zero3 f.mod ++ noOrder f
  | 0xD3 => dstOk f.dst ++ uOp f.ua ++ uOp f.ub ++ zero3 f.uc ++ zero3 f.tag ++ zero3 f.mod ++ noOrder f
  | 0xD4 => dstNone f.dst ++ uOp f.ua ++ zero3 f.ub ++ perLane f.uc ++ zero3 f.tag ++ zero3 f.mod ++ noOrder f
  | 0xD5 => dstNone f.dst ++ zero3 f.ua ++ zero3 f.ub ++ zero3 f.uc ++ zero3 f.tag ++ outside f.mod 1 ++ noOrder f
  | 0xD6 => dstOk f.dst ++ zero3 f.ua ++ zero3 f.ub ++ zero3 f.uc ++ zero3 f.tag ++ zero3 f.mod ++ noOrder f
  | 0xD7 => dstNone f.dst ++ uOp f.ua ++ zero3 f.ub ++ zero3 f.uc ++ zero3 f.mod ++ sc
  | 0xD8 => dstOk f.dst ++ zero3 f.ua ++ uOp f.ub ++ zero3 f.uc ++ zero3 f.tag ++ zero3 f.mod ++ noOrder f
  | 0xD9 | 0xDA => dstNone f.dst ++ uOp f.ua ++ uOp f.ub ++ uOp f.uc ++ zero3 f.mod ++ sc ++ sysScope f
  | 0xDB => dstNone f.dst ++ uOp f.ua ++ uOp f.ub ++ uOp f.uc ++ outside f.mod 1 ++ sc ++ sysScope f
  | 0xDC => dstOk f.dst ++ uOp f.ua ++ uOp f.ub ++ (if m % 16 = 7 then uOp f.uc else zero3 f.uc) ++ outside f.mod 0x3F ++
      sub (8 < m % 16) 8 ++ sc ++ sysScope f
  | 0xDD => dstNone f.dst ++ uOp f.ua ++ uOp f.ub ++ zero3 f.uc ++ zero3 f.mod ++ sc ++ sysScope f
  | 0xDE => dstOk f.dst ++ uOp f.ua ++ uOp f.ub ++ zero3 f.uc ++ zero3 f.tag ++ outside f.mod 0x7F ++
      sub (m % 32 = 15 || 20 ≤ m % 32) 8 ++ noOrder f
  | 0xDF => dstOk f.dst ++ uOp f.ua ++ zero3 f.ub ++ zero3 f.uc ++ zero3 f.tag ++ zero3 f.mod ++ noOrder f
  | _ => []

/-! ### Formats T, I and P (R100 to R117, R131 to R151) -/

/-- The TYPE codes of a class (R81, R100). -/
def tyI : List Nat := [0, 1, 2, 3]
def tyN : List Nat := [4, 5, 6, 7]
def tyB : List Nat := [8, 9, 10, 11]

/-- The TYPE codes that an opcode of format T admits. -/
def typesOf (o : Nat) : List Nat :=
  if o = 0x01 || o = 0x03 then tyN
  else if o = 0x0A || o = 0x0B || o = 0x15 then tyI
  else if o = 0x0E then [6, 7]
  else if o ≤ 0x0F || o = 0x1C || (0x38 ≤ o && o ≤ 0x3A) || o = 0x3C then tyI ++ tyN
  else if o = 0x2A then tyI ++ tyN ++ tyB
  else if o = 0x2C || (0x30 ≤ o && o ≤ 0x33) then [10, 11]
  else if o ≤ 0x3E || o = 0x63 then tyB
  else if o = 0x3F || o = 0x4F || o = 0x56 || o = 0x57 || o = 0x5F then [14, 15]
  else if 0x48 ≤ o && o ≤ 0x4E || o = 0x61 then [21, 22]
  else if 0x50 ≤ o && o ≤ 0x55 then [15]
  else if o = 0x5C then [12, 13, 14, 15, 16, 17]
  else if o = 0x60 then tyI ++ tyN ++ [12, 13, 14, 15]
  else if o = 0x62 then [16, 17]
  else if o = 0x6B || o = 0x6C then [11]
  else if o = 0x6D then [10]
  else [14]

/-- How many sources an instruction of format T has. -/
def sourcesT (o : Nat) (mod : BitVec 12) : Nat :=
  if 0x34 ≤ o && o ≤ 0x37 then b2n (mod.getLsbD 11)
  else if o = 0x61 then (if mod.getLsbD 0 then 1 else 2)
  else if o = 0x62 then (if mod.getLsbD 0 then 1 else 3)
  else if o = 0x6B || o = 0x6D then 0
  else if [0x07, 0x08, 0x09, 0x0E, 0x0F, 0x11, 0x18, 0x19, 0x1C, 0x24, 0x2A, 0x2B, 0x2C, 0x32, 0x43, 0x4B, 0x4E,
      0x53].contains o then 3
  else if [0x0A, 0x0B, 0x23, 0x26, 0x27, 0x28, 0x29, 0x46, 0x47, 0x5C, 0x5F, 0x60, 0x63, 0x6C].contains o ||
      (0x38 ≤ o && o ≤ 0x3F) || (0x56 ≤ o && o ≤ 0x5B) then 1
  else 2

/-- Whether RND, FTZ and SAT are admitted. -/
def roundsT (o ty : Nat) (mod : BitVec 12) : Bool × Bool × Bool :=
  if [0x00, 0x02, 0x07, 0x0A, 0x0B].contains o then (false, false, true)
  else if o = 0x60 then
    let src := mod.toNat % 32
    (true, 12 ≤ ty || 12 ≤ src, !(12 ≤ src && ty < 12))
  else if o = 0x61 then (let p := !mod.getLsbD 0; (p, p, p))
  else if o = 0x62 then (true, true, true)
  else if [0x3F, 0x40, 0x41, 0x42, 0x43, 0x48, 0x49, 0x4A, 0x4B, 0x4E, 0x4F, 0x50, 0x51, 0x52, 0x53, 0x5F].contains o
    then (true, true, false)
  else if (0x44 ≤ o && o ≤ 0x47) || o = 0x4C || o = 0x4D || (0x54 ≤ o && o ≤ 0x5B) then (false, true, false)
  else (false, false, false)

/-- The MOD bits that an entry defines, and the subcodes of the values that it leaves out. A nonzero CI of `addc` and `subb`
with CIE 0, CO with COE 0, or PD of a poll with PW 0 is accepted: R103 and R114 define these fields and do not say that they are
unused then (R79; DESIGN CHOICE, log entry 27). -/
def modT (o : Nat) (f : FmtT) : List Nat :=
  let m := f.mod.toNat
  if o = 0x01 || o = 0x03 then outside f.mod 0xFF0
  else if o = 0x12 then outside f.mod 0xF
  else if o = 0x24 || o = 0x6C then outside f.mod 0xFF
  else if 0x30 ≤ o && o ≤ 0x33 then outside f.mod 7 ++ sub (5 < m % 8) 3
  else if 0x34 ≤ o && o ≤ 0x37 then
    outside f.mod (if o = 0x34 then 0x80F else 0x8FF) ++
      (if f.mod.getLsbD 11 then sub (m % 16 != 0) 3 else sub (f.type != 10) 7)
  else if o = 0x3B then outside f.mod 3 ++ sub (m % 4 = 3) 8
  else if o = 0x3C then outside f.mod 4
  else if o = 0x3D then outside f.mod 7 ++ sub (m % 4 = 3) 8
  else if o = 0x3E then outside f.mod 1
  else if o = 0x60 then outside f.mod 0x1F ++ sub (!(tyI ++ tyN ++ [12, 13, 14, 15]).contains (m % 32)) 7
  else if o = 0x61 then outside f.mod 3 ++ sub (m % 4 = 2) 3
  else if o = 0x62 then outside f.mod 7 ++ sub (!f.mod.getLsbD 0 && f.mod.getLsbD 2) 3
  else if o = 0x6D then outside f.mod 7 ++ sub (5 < m % 8) 3
  else zero3 f.mod

def checkT (o : Nat) (f : FmtT) : List Nat :=
  let n := sourcesT o f.mod
  let r := roundsT o f.type.toNat f.mod
  let mark := fun (l : BitVec 1) (c : BitVec 6) => sub (l = 1 && !isNamed c) 6
  (if o = 0x6C then dstNone f.dst else dstOk f.dst) ++
  (if n < 1 then zero3 f.sa ++ zero3 f.la else []) ++ (if n < 2 then zero3 f.sb ++ zero3 f.lb else []) ++
  (if n < 3 then zero3 f.sc ++ zero3 f.lc else []) ++
  mark f.la f.sa ++ mark f.lb f.sb ++ mark f.lc f.sc ++ sub (!(typesOf o).contains f.type.toNat) 7 ++
  (if r.1 then [] else zero3 f.rnd) ++ (if r.2.1 then [] else zero3 f.ftz) ++ (if r.2.2 then [] else zero3 f.sat) ++
  modT o f

def checkI (o : Nat) (f : FmtI) : List Nat :=
  dstOk f.dst ++
  (if 0x1D ≤ o && o ≤ 0x1F then outside f.mod 3 ++ outside f.imm 0x3F
   else if o = 0x65 then zero3 f.mod
   else outside f.mod 1) ++
  (if o = 0x64 || o = 0x6E then zero3 f.sa else [])

/-- The types that a condition of `cmp` admits (R106); a code that is no condition restricts none of them. -/
def cmpTypes (cond : Nat) : List Nat :=
  if cond ≤ 1 || 6 < cond then tyI ++ tyN ++ tyB else if cond ≤ 5 then tyI ++ tyN else tyB

def checkP (o : Nat) (f : FmtP) : List Nat :=
  let t := f.type.toNat
  let k := f.cond.toNat
  zero3 f.rsv ++ sub (f.mode = 3) 8 ++
  (if o = 0x10 then zero3 f.ftz ++ sub (6 < k) 8 ++ sub (!(cmpTypes k).contains t) 7
   else sub (11 < k) 8 ++ sub (!(if o = 0x5D then [12, 13, 14] else [15]).contains t) 7)

/-- Every subcode that a word raises by its own fields alone. -/
def staticCodes (v : View) : List Nat :=
  let o := v.opc.toNat
  match v.f with
  | .t f => checkT o f
  | .i f => checkI o f
  | .p f => checkP o f
  | .b f => checkB o f
  | .m f => checkM o f
  | .e f => checkE o f
  | .s f => checkS o f

/-- The named registers that a word names, by index; `red` has no destination (R58, R224). A wide operand's further
registers lie below a count that is a multiple of 8 when its first does. -/
def namedCodes (v : View) : List Nat :=
  let cs : List (BitVec 6) := match v.f with
    | .t f => [f.dst, f.sa, f.sb, f.sc]
    | .i f => [f.dst, f.sa]
    | .p f => [f.sa, f.sb]
    | .b f => [f.sa]
    | .m f => (if v.opc = 0xAC then [] else [f.dst]) ++ [f.sa, f.sd]
    | .e f => [f.dst, f.ua, f.ub, f.uc]
    | .s f => [f.dst, f.sa]
  (cs.filter isNamed).map fun c => c.toNat - 0x10

/-- The TAG field of an instruction that takes a tag (R64, R86). -/
def tagField (v : View) : Option Nat :=
  match v.f with
  | .e f =>
    let o := v.opc.toNat
    if (0xC0 ≤ o && o ≤ 0xC5) || (0xC9 ≤ o && o ≤ 0xCC) || o = 0xCE || o = 0xD7 || (0xD9 ≤ o && o ≤ 0xDD) ||
        ((o = 0x7D || o = 0x7E) && f.mod.getLsbD 1) then some f.tag.toNat else none
  | _ => none

end Sys2Proof.Machine
end

