-- ==== Sys2Proof/Machine/Shadow.lean ====
section
/-! DEFINITION. Operand types (spec/04_instruction_encoding.md R80 to R82), and what the shadow units check
(spec/21_silent_errors_containment.md R373 to R375). -/

namespace Sys2Proof

/-! ### Fields of formats T and I -/

namespace FmtT

def ty (f : FmtT) : Nat := f.type.toNat
def satB (f : FmtT) : Bool := f.sat = 1
def ftzB (f : FmtT) : Bool := f.ftz = 1
def m (f : FmtT) (hi lo : Nat) : Nat := Machine.nbits f.mod.toNat hi lo
def mb (f : FmtT) (i : Nat) : Bool := f.mod.getLsbD i
/-- The first n sources. -/
def codes (f : FmtT) (n : Nat) : List (BitVec 6) := [f.sa, f.sb, f.sc].take n
/-- The named registers with a last-read mark (R61). -/
def marks (f : FmtT) : List Nat :=
  ([(f.la, f.sa), (f.lb, f.sb), (f.lc, f.sc)].filter fun e => e.1 = 1).map fun e => e.2.toNat - 0x10

end FmtT

namespace FmtI

/-- ext(IMM) (R145): sign-extended when MOD<0> is 1. -/
def ext (f : FmtI) : Word := if f.mod.getLsbD 0 then f.imm.signExtend 64 else f.imm.zeroExtend 64

end FmtI

end Sys2Proof

namespace Sys2Proof.Machine

/-! ### Types (R81) -/

/-- The width of a type in bits. -/
def typeWidth (t : Nat) : Nat :=
  if t < 0x0C then 8 * 2 ^ (t % 4) else match t with
    | 0x0C | 0x0D => 16
    | 0x0E | 0x15 | 0x16 => 32
    | 0x0F => 64
    | _ => 8

/-- Whether a type is one of `i8` to `i64`. -/
def isI (t : Nat) : Bool := t < 4

/-- The value of a source as an integer type reads it (R100). -/
def readInt (t : Nat) (v : Word) : Int :=
  let w := typeWidth t
  if isI t then signedOf w v.toNat else ((v.toNat % 2 ^ w : Nat) : Int)

/-- A result modulo 2^w, extended to 64 bits (R53, R100). -/
def pushInt (t : Nat) (i : Int) : Word :=
  let w := typeWidth t
  if isI t then sextW w (wrap w i) else word (wrap w i)

/-- A result of w bits given as a number, extended as the type says (R53). -/
def pushNat (t n : Nat) : Word := if isI t then sextW (typeWidth t) n else zextW (typeWidth t) n

/-- The least and the greatest value of an integer type. -/
def intRange (t : Nat) : Int × Int :=
  let w := typeWidth t
  if isI t then (-((2 ^ (w - 1) : Nat) : Int), ((2 ^ (w - 1) : Nat) : Int) - 1) else (0, ((2 ^ w : Nat) : Int) - 1)

/-- Clamps to a type's range under `.sat` (R102). -/
def clampInt (t : Nat) (sat : Bool) (i : Int) : Int :=
  if sat then max (intRange t).1 (min (intRange t).2 i) else i

/-- The format of a floating type. -/
def fmtOf (t : Nat) : FFmt :=
  match t with
  | 0x0C | 0x15 => fmtF16
  | 0x0D | 0x16 => fmtBf16
  | 0x0F => fmtF64
  | 0x10 => fmtE4m3
  | 0x11 => fmtE5m2
  | _ => fmtF32

/-- A source read as a floating type. -/
def readFp (t : Nat) (ftz : Bool) (v : Word) : FNum := (fmtOf t).read ftz (v.toNat % 2 ^ (fmtOf t).width)

/-! ### The shadow units' check (R373, R374) -/

/-- Whether the shadow units check an instruction (R373): of `cvt` the forms with a floating type. -/
def shadowed (v : View) : Bool :=
  let o := v.opc.toNat
  (0x40 ≤ o && o ≤ 0x43) || (0x48 ≤ o && o ≤ 0x4B) || o = 0x4E || o = 0x4F ||
  (0x50 ≤ o && o ≤ 0x53) || o = 0x56 || o = 0x57 || o = 0x5F || o = 0x61 || o = 0x62 || o = 0x3F ||
  (o = 0x60 && match v.f with
    | .t f => 12 ≤ f.type.toNat || 12 ≤ f.mod.toNat % 32
    | _ => false)

/-- A closed interval [L, U]. -/
structure Span where
  lo : Dy
  hi : Dy
  deriving DecidableEq, Repr

namespace Span

/-- The interval of one value. -/
def point (a : Dy) : Span := ⟨a, a⟩

def add (a b : Span) : Span := ⟨a.lo.add b.lo, a.hi.add b.hi⟩
def neg (a : Span) : Span := ⟨a.hi.neg, a.lo.neg⟩
def scale (a : Span) (n : Int) : Span := ⟨(a.lo.1, a.lo.2 + n), (a.hi.1, a.hi.2 + n)⟩

/-- The interval of the products. -/
def mul (a b : Span) : Span :=
  let ps := [a.lo.mul b.lo, a.lo.mul b.hi, a.hi.mul b.lo, a.hi.mul b.hi]
  ps.foldl (fun s p => ⟨if Dy.le s.lo p then s.lo else p, if Dy.le s.hi p then p else s.hi⟩) (point (a.lo.mul b.lo))

/-- Applies a decreasing function of a magnitude, given by its value rounded down and up, to an interval that does not
hold zero. -/
def falling (down up : Dy → Dy) (a : Span) : Span :=
  if a.lo.1 < 0 then ⟨(up a.hi.abs).neg, (down a.lo.abs).neg⟩ else ⟨down a.hi, up a.lo⟩

end Span

/-- 2^480 / a, rounded down or up. -/
def recipDy (up : Bool) (a : Dy) : Dy :=
  let m := a.1.natAbs
  (((2 ^ 480 + if up then m - 1 else 0) / m : Nat), -480 - a.2)

/-- A square root with an even number of 2 · 240 added places, rounded down or up. -/
def sqrtDy (up : Bool) (a : Dy) : Dy :=
  let k : Nat := 480 + (if a.2 % 2 = 0 then 0 else 1)
  let x := a.1.natAbs * 2 ^ k
  let r := isqrt (x.log2 / 2 + 1) x
  ((if up && r * r != x then r + 1 else r : Nat), (a.2 - k) / 2)

/-- What a shadow unit knows of a finite input (R374): its sign, its exponent and the 5 bits from its leading 1 on. -/
def FNum.span : FNum → Span
  | .fin neg m e =>
    let k := m.log2 - 4
    let t := m / 2 ^ k
    let lo : Dy := ((t * 2 ^ k : Nat), e)
    let hi : Dy := (((if k = 0 then t else t + 1) * 2 ^ k : Nat), e)
    if neg then ⟨hi.neg, lo.neg⟩ else ⟨lo, hi⟩
  | _ => Span.point (0, 0)

/-- One checked result of an instruction: the type of the result and its place in what the instruction pushes, the inputs, and
the interval of the exact result that their intervals give (R374). -/
structure Shadow where
  type : Nat
  at' : Nat
  ins : List FNum
  span : List Span → Span

/-- A source of a conversion as a number. -/
def numOf (t : Nat) (ftz : Bool) (v : Word) : FNum :=
  if 12 ≤ t then readFp t ftz v else .fin (readInt t v < 0) (readInt t v).natAbs 0

/-- Bits 16 e + 15 : 16 e of a word, for the packed types. -/
def halfOf (e : Nat) (v : Word) : Word := word (v.toNat / 2 ^ (16 * e) % 2 ^ 16)

/-- The checked results of an instruction with its source values (R373). A conversion and `fscale` change one term. The
amount of `fscale` is an integer that the check takes whole (log entry 17). -/
def shadowsOf (v : View) (vs : List Word) : List Shadow :=
  match v.f with
  | .t f =>
    let src := fun k => vs.getD k 0
    let s := fun (l : List Span) k => l.getD k (Span.point (0, 0))
    let rd := fun k => readFp f.ty f.ftzB (src k)
    let pk := fun k e => readFp f.ty f.ftzB (halfOf e (src k))
    let two := fun (n : Nat) (g : List Span → Span) => (List.range 2).map fun e =>
      (⟨f.ty, 16 * e, (List.range n).map fun k => pk k e, g⟩ : Shadow)
    let add := fun (l : List Span) => (s l 0).add (s l 1)
    let sub := fun (l : List Span) => (s l 0).add (s l 1).neg
    let mul := fun (l : List Span) => (s l 0).mul (s l 1)
    let fma := fun (l : List Span) => ((s l 0).mul (s l 1)).add (s l 2)
    let one := fun (l : List Span) => s l 0
    match v.opc.toNat with
    | 0x3F | 0x40 | 0x50 => [⟨f.ty, 0, [rd 0, rd 1], add⟩]
    | 0x41 | 0x51 => [⟨f.ty, 0, [rd 0, rd 1], sub⟩]
    | 0x42 | 0x52 => [⟨f.ty, 0, [rd 0, rd 1], mul⟩]
    | 0x43 | 0x53 => [⟨f.ty, 0, [rd 0, rd 1, rd 2], fma⟩]
    | 0x48 => two 2 add
    | 0x49 => two 2 sub
    | 0x4A => two 2 mul
    | 0x4B => two 3 fma
    | 0x4E => [⟨14, 0, [pk 0 0, pk 1 0, pk 0 1, pk 1 1, readFp 14 f.ftzB (src 2)], fun l =>
        (((s l 0).mul (s l 1)).add ((s l 2).mul (s l 3))).add (s l 4)⟩]
    | 0x4F => [⟨f.ty, 0, [rd 0], fun l => (s l 0).scale (max (min (signedOf 32 (src 1).toNat) 5000) (-5000))⟩]
    | 0x56 => [⟨f.ty, 0, [rd 0], fun l => (s l 0).falling (recipDy false) (recipDy true)⟩]
    | 0x57 => [⟨f.ty, 0, [rd 0], fun l => (s l 0).falling (fun a => sqrtDy false (recipDy false a))
        (fun a => sqrtDy true (recipDy true a))⟩]
    | 0x5F => [⟨f.ty, 0, [rd 0], fun l => ⟨sqrtDy false (s l 0).lo, sqrtDy true (s l 0).hi⟩⟩]
    | 0x60 => [⟨f.ty, 0, [numOf (f.m 4 0) f.ftzB (src 0)], one⟩]
    | 0x61 =>
      if f.mb 0 then [⟨14, 0, [readFp f.ty false (halfOf (f.m 1 1) (src 0))], one⟩]
      else (List.range 2).map fun e => ⟨f.ty, 16 * e, [readFp 14 f.ftzB (src e)], one⟩
    | 0x62 =>
      if f.mb 0 then [⟨14, 0, [readFp f.ty false (word ((src 0).toNat / 2 ^ (8 * f.m 2 1) % 256))], one⟩]
      else (List.range 2).map fun e => ⟨f.ty, 16 * f.m 1 1 + 8 * e, [readFp 14 f.ftzB (src e)], one⟩
    | _ => []
  | _ => []

/-- The width of one element of a type. -/
def elemWidth (t : Nat) : Nat := if t = 0x15 || t = 0x16 then 16 else typeWidth t

/-- Whether a format's flush under `.ftz` applies to the result of an instruction: `cvt.f8` flushes its source only (R144). -/
def flushes (v : View) : Bool := match v.f with
  | .t f => f.ftzB && v.opc ≠ 0x62
  | _ => false

/-- The interval as the check uses it: infinite and overflowing bounds stand at 2^(emax + 1), and `.ftz` flushes a bound below
the normal numbers towards zero. -/
def FFmt.clip (f : FFmt) (ftz : Bool) (s : Span) : Span :=
  let top : Dy := (1, f.emax + 1)
  let cut := fun (a : Dy) => if Dy.le top a then top else if Dy.le a top.neg then top.neg else a
  let tiny := fun (a : Dy) => ftz && Dy.lt a.abs (1, f.emin)
  let lo := cut s.lo
  let hi := cut s.hi
  ⟨if tiny lo && 0 < lo.1 then (0, 0) else lo, if tiny hi && hi.1 < 0 then (0, 0) else hi⟩

/-- The ulp of a result in its format: that of its binade, of the smallest for a zero or subnormal. -/
def FFmt.ulpOf (f : FFmt) : FNum → Dy
  | .fin _ m e => (1, max (if m = 0 then f.qmin else expOf m e - f.mbits) f.qmin)
  | _ => (1, f.emax - f.mbits)

/-- Whether a number lies within u of an interval. -/
def Span.holds (s : Span) (u r : Dy) : Bool := Dy.le s.lo (r.add u) && Dy.le (r.add u.neg) s.hi

/-- The check of one result r (R374), `exact` being what the operation gives for the whole inputs: r is a NaN exactly where
that is one, and otherwise it lies in [L - u, U + u]. Where an input is infinite or zero, the exact result is known from what
the unit takes of the inputs if it is special itself. A result of integer type is clamped as R142 says, and its ulp is 1. -/
def Shadow.passes (c : Shadow) (ftz : Bool) (exact r : Word) : Bool :=
  let part := fun (w : Word) => w.toNat / 2 ^ c.at' % 2 ^ elemWidth c.type
  let special := c.ins.any fun i => i.isNan || i.isInf
  if 12 ≤ c.type then
    let f := fmtOf c.type
    let value := fun (n : FNum) => match n with
      | .inf g => if g then ((-1 : Int), f.emax + 1) else (1, f.emax + 1)
      | n => n.dy
    match f.read false (part exact), f.read false (part r) with
    | .nan _, .nan _ => true
    | .nan _, _ => false
    | _, .nan _ => false
    | x, y =>
      let s := if special || x.isInf && c.ins.any FNum.isZero then Span.point (value x) else c.span (c.ins.map FNum.span)
      (f.clip ftz s).holds (f.ulpOf y) (value y)
  else
    let whole := fun (w : Word) => readInt c.type (word (part w))
    let cut := fun (a : Dy) =>
      if Dy.le a ((intRange c.type).1, 0) then ((intRange c.type).1, 0)
      else if Dy.le ((intRange c.type).2, 0) a then ((intRange c.type).2, 0) else a
    let s := c.span (c.ins.map FNum.span)
    if special then whole r == whole exact
    else (⟨cut s.lo, cut s.hi⟩ : Span).holds (1, 0) (whole r, 0)

/-- Whether every checked result of an instruction passes. -/
def shadowPass (v : View) (vs : List Word) (exact r : Word) : Bool :=
  (shadowsOf v vs).all fun c => c.passes (flushes v) exact r

/-- The bits of what an instruction pushes that its arithmetic units make. -/
def shadowBits (v : View) : Word :=
  (shadowsOf v []).foldl (fun m c => m ||| word ((2 ^ elemWidth c.type - 1) * 2 ^ c.at')) 0

/-- What becomes of a result whose unit erred: no bit of it changed or a change that the check lets pass; a failed check whose
replay passes; or one that fails twice (R375). -/
inductive Strike where
  | retires (r : Word)
  | replayed (r : Word)
  | lasting
  deriving DecidableEq, Repr

/-- A result struck by errors that flip bits of it, at the issue and at its replay (R374, R375). -/
def strike (v : View) (vs : List Word) (first again : Word) (r : Word) : Strike :=
  let hit := fun (m : Word) => r ^^^ (m &&& shadowBits v)
  if shadowPass v vs r (hit first) then .retires (hit first)
  else if shadowPass v vs r (hit again) then .replayed (hit again)
  else .lasting

end Sys2Proof.Machine
end

