-- ==== Sys2Proof/Machine/Ops.lean ====
section
/-! DEFINITION. The frame around every Huaxus instruction (R96, R357): reading operands, guards, the order of the checks,
taking an exception and returning from it, parking, retiring lanes, and outstanding operations. -/

namespace Sys2Proof.Machine

/-! ### Reading (R53, R57 to R60, R89) -/

/-- Whether a value is available in a cycle. -/
def Avail.ok (now : Nat) : Avail → Bool
  | .ready => true
  | .from c => c ≤ now
  | .op _ => false

/-- A value as read: its poison, and whether it was read before it was available. -/
structure Rd where
  val : Word
  psn : Bool
  early : Bool
  deriving DecidableEq, Repr

/-- The choice between the two values that an early read may yield (R8, R57, R89). -/
def State.pick (s : State) (lane code : Nat) : Bool := Config.freeBit ((s.free * 32 + lane) * 256 + code)

/-- Reads a queue entry: before it is available, 0 or the final value (R57, R89). -/
def QEntry.read (now : Nat) (pick : Bool) (e : QEntry) : Rd :=
  if e.avail.ok now then ⟨e.val, e.psn, false⟩ else if pick then ⟨e.val, e.psn, true⟩ else ⟨0, false, true⟩

/-- Reads a register: before its newest write is available, the previous value or the new one (R89). -/
def Reg.read {α : Type} (now : Nat) (pick : Bool) (r : Reg α) : α × Bool × Bool :=
  match r.nxt with
  | none => (r.val, r.psn, false)
  | some n => if n.avail.ok now then (n.val, n.psn, false) else if pick then (n.val, n.psn, true)
    else (r.val, r.psn, true)

/-- Writes a register, with its live bit (R58, R60). Writes of fixed latency take effect in program order; a
long-latency write takes effect, and sets the live bit, at completion (R90). -/
def Reg.write {α : Type} (r : Reg α) (v : α) (psn : Bool) (a : Avail) : Reg α :=
  let live := match a with
    | .op _ => r.live
    | _ => true
  match a with
  | .ready => ⟨v, psn, true, none⟩
  | _ => match r.nxt with
    | some ⟨w, q, .from _⟩ => ⟨w, q, live, some ⟨v, psn, a⟩⟩
    | _ => ⟨r.val, r.psn, live, some ⟨v, psn, a⟩⟩

/-- A register zeroed with its live bit clear (R58, R60, R61). -/
def Reg.clear {α : Type} (zero : α) : Reg α := ⟨zero, false, false, none⟩

/-- The lane of a group; a group has 32. -/
def Group.lane (g : Group) (l : Nat) : Lane := g.lanes.getD l (Lane.fresh 0)

/-- Applies a function of lane number and lane to every lane. -/
def Group.mapLanes (g : Group) (f : Nat → Lane → Lane) : Group :=
  { g with lanes := (withIdx g.lanes).map fun e => f e.1 e.2 }

/-- `opnd(l, c)` of R95 (R77). -/
def State.opnd (s : State) (g : Group) (l : Nat) (code : BitVec 6) : Rd :=
  let c := code.toNat
  if c < 0x10 then
    ((g.lane l).q.getD c ⟨0, false, .ready⟩).read s.cycle (s.pick l c)
  else if c < 0x30 then
    let r := ((g.lane l).n.getD (c - 0x10) (Reg.clear 0)).read s.cycle (s.pick l c)
    ⟨r.1, r.2.1, r.2.2⟩
  else if c < 0x3F then
    let r := (g.k.getD (c - 0x30) (Reg.clear 0)).read s.cycle (s.pick 0 c)
    ⟨r.1, r.2.1, r.2.2⟩
  else ⟨0, false, false⟩

/-- A predicate of a lane: value, poison, early (R60). -/
def State.pred (s : State) (g : Group) (l p : Nat) : Bool × Bool × Bool :=
  ((g.lane l).p.getD p (Reg.clear false)).read s.cycle (s.pick l (64 + p))

/-! ### The issue (R30, R31, R62) -/

/-- One issue of one stream: the group and what it belongs to, the instruction, and the guard-true and guard-false lanes
of its issue set. -/
structure Ctx where
  key : Nat
  mask : LaneMask
  pc : Word
  g : Group
  t : Team
  ln : Launch
  v : View
  on : List Nat
  off : List Nat
  deriving DecidableEq, Repr

namespace Ctx

def core (x : Ctx) : Nat := coreOf x.key
def tk (x : Ctx) : Nat := x.g.team
def lk (x : Ctx) : Nat := x.t.launch
def opc (x : Ctx) : Nat := x.v.opc.toNat
def gang (x : Ctx) : Nat := x.t.idx / x.ln.gangSize
def onMask (x : Ctx) : LaneMask := maskOf fun l => x.on.contains l

end Ctx

/-- The guard of a lane (R62): true exactly when the table bit with the index of the three predicates is 1. -/
def State.guard (s : State) (g : Group) (c : Common) (l : Nat) : Bool :=
  let p := fun (r : BitVec 3) => (s.pred g l r.toNat).1
  c.tt.getLsbD (b2n (p c.ga) * 4 + b2n (p c.gb) * 2 + b2n (p c.gc))

/-- Whether a guard predicate of a lane is poisoned (R382). -/
def State.guardPsn (s : State) (g : Group) (c : Common) (l : Nat) : Bool :=
  [c.ga, c.gb, c.gc].any fun r => (s.pred g l r.toNat).2.1

/-- Whether a guard predicate of a lane is read early (R369). -/
def State.guardEarly (s : State) (g : Group) (c : Common) (l : Nat) : Bool :=
  [c.ga, c.gb, c.gc].any fun r => (s.pred g l r.toNat).2.2

/-- The issue in progress, for an instruction of a stream. -/
def State.ctx? (s : State) (i : Instr) : Option Ctx :=
  match s.cur with
  | .stream core slot mask pc =>
    match view i, s.group? (groupKey core slot) with
    | some v, some g =>
      match s.team? g.team with
      | some t =>
        match s.launch? t.launch with
        | some ln =>
          some ⟨groupKey core slot, mask, pc, g, t, ln, v, (lanesOf mask).filter (s.guard g v.c),
            (lanesOf mask).filter fun l => !s.guard g v.c l⟩
        | none => none
      | none => none
    | _, _ => none
  | _ => none

/-! ### Taking an exception (R354 to R361) and returning from it (R360) -/

/-- A trap that a lane raises: its cause and INFO (R355) and its TRAPADDR. -/
structure Trap where
  lane : Nat
  cause : Nat
  info : Nat
  addr : Word
  deriving DecidableEq, Repr

/-- TRAPCAUSE (R355). -/
def Trap.word (t : Trap) (opc : Nat) : Word :=
  BitVec.ofNat 64 (t.info % 2 ^ 32 * 2 ^ 32 + opc * 2 ^ 16 + t.cause)

/-- Pushes a result (R53). The queue keeps entries older than q15, which nothing reads, because a withdrawal (R358)
brings the entry that was q15 back. -/
def Lane.push (l : Lane) (v : Word) (psn : Bool) (a : Avail) : Lane :=
  { l with q := (⟨v, psn, a⟩ :: l.q).take 32 }

/-- Entry to the team trap handler, for one lane (R359): HND, three pushes, and the PC. A lane that a step command has let go stops
before the handler's first instruction (R370). -/
def Lane.enter (l : Lane) (slot addr cause traph : Word) : Lane :=
  let l := ((l.push slot false .ready).push addr false .ready).push cause false .ready
  { l with
    hnd := true, trapSlot := slot, pc := traph, status := if l.restop then .parked else .active,
    wait := ⟨.none, 0, 0, 0, 0, 0⟩, stepBp := false, park := { l.park with debug := l.park.debug || l.restop }, restop := false }

/-- Whether a lane of a group slot gives the team's trap registers: it is the first of its cycle, or the lowest of the lowest
slot so far (R359). -/
def Team.takesTrap (t : Team) (now slot lane : Nat) : Bool :=
  t.trapBy.1 != now + 1 || slot < t.trapBy.2.1 || (slot == t.trapBy.2.1 && lane ≤ t.trapBy.2.2)

/-- The lanes of a group's issue in progress. -/
def State.issuing? (s : State) (key : Nat) : LaneMask :=
  match s.cur with
  | .stream core slot m _ => if groupKey core slot = key then m else 0
  | _ => 0

/-- Whether some pair of an issue's lanes differs in the trap that it takes: a trap is a change of PC (R378). -/
def trapsDiffer (m : LaneMask) (ts : List Trap) : Bool :=
  let of' := fun (l : Nat) => (ts.find? fun t => t.lane == l).map fun t => (t.cause, t.info, t.addr)
  (List.range 16).any fun l => has m l && has m (l + 16) && of' l != of' (l + 16)

/-- Takes the traps that lanes of one group raise in one cycle at one instruction. Where TRAPH is 0 or HND of a trapping
lane is set, the gang is killed instead (R361), and so it is where the lanes of a pair differ in their traps (R378, R379); otherwise
each lane enters the handler, and the team's registers take the values of the lowest lane of the lowest group slot that enters in
the cycle (R359). -/
def State.takeTraps (s : State) (key : Nat) (pc : Word) (opc : Nat) (ts : List Trap) : State :=
  match ts, s.group? key with
  | t0 :: rest, some g =>
    match s.team? g.team with
    | some t =>
      match s.launch? t.launch with
      | some ln =>
        let low := rest.foldl (fun a r => if r.lane < a.lane then r else a) t0
        if ln.traph = 0 then
          s.kill ⟨t.launch, t.idx / ln.gangSize, 7, low.cause, coreReg key, pc, 0, []⟩
        else if ts.any (fun r => (g.lane r.lane).hnd) then
          s.kill ⟨t.launch, t.idx / ln.gangSize, 8, low.cause, coreReg key, pc, 0, []⟩
        else if ln.paired && trapsDiffer (s.issuing? key) ts then
          (s.count 10 true (coreReg key)).kill ⟨t.launch, t.idx / ln.gangSize, 6, 0, coreReg key, pc, 0, []⟩
        else
          let s := s.modGroup key fun g => { g with lanes := ts.foldl (fun ls r =>
            updAt (fun l => l.enter pc r.addr (r.word opc) ln.traph) r.lane ls) g.lanes }
          s.modTeam g.team fun t =>
            if t.takesTrap s.cycle (slotOf key) low.lane then
              { t with
                trapCause := low.word opc, trapAddr := low.addr, trapSlot := pc
                trapBy := (s.cycle + 1, slotOf key, low.lane) }
            else t
      | none => s
    | none => s
  | _, _ => s

/-- A lane that enters the handler while it is stopped for debug, or parked for the ring, stays parked before the
handler's first instruction (R366, R370). -/
def Lane.keepParked (e : Lane) : Lane :=
  if e.park.page || e.park.sysc || e.park.debug then { e with status := .parked } else e

/-- Lanes of several groups, or at several PCs, trap in one cycle, each at its own instruction and not as an issue: (group slot, PC,
trap). A lane that is stopped for debug, or parked for another reason, stays parked. -/
def State.trapLanes (s : State) (opc : Nat) (ls : List (Nat × Word × Trap)) : State :=
  { ls.foldl (fun s e => (s.takeTraps e.1 e.2.1 opc [e.2.2]).modLane e.1 e.2.2.lane Lane.keepParked) { s with cur := .none } with
    cur := s.cur }

/-- An issue fault (R357): raised in every lane of the issue set, whatever its guard. -/
def State.issueTrap (s : State) (x : Ctx) (cause info : Nat) (addr : Word) : State :=
  s.takeTraps x.key x.pc (if cause = 1 ∧ info = 2 then 0 else x.opc)
    ((lanesOf x.mask).map fun l => ⟨l, cause, info, addr⟩)

/-- A change of PC that returns from the handler (R360): while HND is set, `brx`, `callx` and `ret` may reach the
address pushed as TRAPSLOT or its successor without the TARGET check. -/
def Lane.returnsTo (l : Lane) (target : Word) : Bool :=
  l.hnd && (target == l.trapSlot || target == succPc l.trapSlot)

/-- The return itself: that change of PC clears HND. -/
def Lane.leave (l : Lane) (target : Word) : Lane := { l with pc := target, hnd := false }

/-- Poison consumed by an issue (R382): the gang is killed with reason 0x01, and no lane of the issue retires. -/
def State.consume (s : State) (x : Ctx) (addr : Word) : State :=
  s.kill ⟨x.lk, x.gang, 1, 0, coreReg x.key, x.pc, addr, []⟩

/-! ### Parking (R363) -/

/-- Lanes of a group are parked on a record. -/
def State.parkOn (s : State) (key : Nat) (mask : LaneMask) (fid : Nat) : State :=
  s.modGroup key fun g => g.mapLanes fun l e =>
    if has mask l then { e with status := .parked, park := { e.park with page := true }, fid := fid } else e

/-- Parks lanes of a group at their instruction on one faulting page, with its fault record (R363, R364). The opcode and
the lanes' addresses serve a Protection answer (R365). -/
def State.parkLanes (s : State) (key : Nat) (mask : LaneMask) (f : FaultInfo) (gang opc : Nat) (addrs : List (Nat × Word)) :
    State :=
  let (s, fid) := s.post { f with mask := mask } (.lanes key mask opc addrs) gang
  s.parkOn key mask fid

/-- Parks lanes of a group on the page of an outstanding record, which they share (R429). -/
def State.joinLanes (s : State) (r : FaultRec) (key : Nat) (mask : LaneMask) (launch gang opc : Nat) (addrs : List (Nat × Word)) :
    State :=
  let j := { r with who := .lanes key mask opc addrs, launch := launch, gang := gang, answer := none }
  State.parkOn { s with admin := { s.admin with joined := s.admin.joined ++ [j] } } key mask r.fid

/-- A lane released of its parking reasons returns to active (R366). -/
def Lane.unpark (l : Lane) : Lane :=
  if l.status = .parked ∧ !l.park.page ∧ !l.park.sysc ∧ !l.park.debug then { l with status := .active } else l

/-! ### The checks of the instruction word (R94, R356, R357 step 1) -/

/-- The group-collective instructions (R34). -/
def collective (opc : Nat) : Bool :=
  (0xC0 ≤ opc && opc ≤ 0xC5) || opc = 0xCC || opc = 0xCE || (0xD0 ≤ opc && opc ≤ 0xD7)

/-- The subcodes that depend on the launch and the core: register count (R58), TAG field (R64), ring owner (R266), and
`cp.gath` and `cp.scat` in a paired launch (R377). -/
def State.wordCodes (s : State) (x : Ctx) : List Nat :=
  (if (namedCodes x.v).any fun r => x.ln.named ≤ r then [5] else []) ++
  (if x.ln.paired && (x.opc = 0xC3 || x.opc = 0xC4) then [8] else []) ++
  (match tagField x.v with
    | some t => if x.ln.tagCnt ≤ t then [10] else []
    | none => []) ++
  (if 0xD0 ≤ x.opc && x.opc ≤ 0xD8 && (s.core x.core).owner ≠ some x.tk then [15] else [])

/-- The subcode that the instruction word raises, if any: the first row of R356 in table order. -/
def State.wordFault (s : State) (x : Ctx) : Option Nat :=
  match staticCodes x.v ++ s.wordCodes x with
  | [] => none
  | c :: t => some (t.foldl min c)

/-- Whether a uniform operand of a format E instruction is poisoned (R382). -/
def State.uniformPsn (s : State) (x : Ctx) : Bool :=
  match x.v.f with
  | .e f => [f.ua, f.ub, f.uc].any fun c => isUniform c && (s.opnd x.g 0 c).psn
  | _ => false

/-- The frame (R96, R357): a word fault is taken first, then poisoned guard predicates and uniform operands, then
illegal convergence; the instruction's own body follows. An instruction with no issue in progress changes nothing. -/
def frame (i : Instr) (s : State) (body : Ctx → State → State) : Host.Outcome State Fault Refusal :=
  .next <|
    match s.ctx? i with
    | none => s
    | some x =>
      match s.wordFault x with
      | some c => s.issueTrap x 1 c 0
      | none =>
        if (lanesOf x.mask).any (s.guardPsn x.g x.v.c) || s.uniformPsn x then s.consume x 0
        else if collective x.opc && !(x.mask == BitVec.allOnes 32 && x.off.isEmpty) then s.issueTrap x 2 0 0
        else (body x s).bump

/-- Whether an issue that would do something gets past the frame: no word fault, no poisoned guard or uniform operand, no illegal
convergence. -/
def State.reaches (s : State) (x : Ctx) : Bool :=
  !x.on.isEmpty && (s.wordFault x).isNone && !((lanesOf x.mask).any (s.guardPsn x.g x.v.c) || s.uniformPsn x) &&
    (!collective x.opc || (x.mask == BitVec.allOnes 32 && x.off.isEmpty))

/-! ### Retiring lanes (R54 to R61) -/

/-- What a guard-true lane that passed its checks does: the results it pushes in order, the predicates it writes, the FP
flags it sets, and its next PC if that is not the sequential one. -/
structure Out where
  lane : Nat
  vals : List RedVal
  preds : List (Nat × Bool × Bool)
  fp : BitVec 5
  pc : Option Word
  deriving DecidableEq, Repr

/-- Writes a named destination (R55, R78). -/
def Lane.dst (l : Lane) (dst : BitVec 6) (v : RedVal) (a : Avail) : Lane :=
  let c := dst.toNat
  if 0x10 ≤ c ∧ c < 0x30 then { l with n := updAt (fun r => r.write v.1 v.2 a) (c - 0x10) l.n } else l

/-- Writes predicates: number, value, poison (R60). -/
def Lane.setPreds (l : Lane) (ps : List (Nat × Bool × Bool)) (a : Avail) : Lane :=
  { l with p := ps.foldl (fun p e => updAt (fun r => r.write e.2.1 e.2.2 a) e.1 p) l.p }

/-- Applies last-read marks (R61). -/
def Lane.mark (l : Lane) (marks : List Nat) : Lane :=
  { l with n := marks.foldl (fun n i => updAt (fun _ => Reg.clear 0) i n) l.n }

/-- A guard-true lane retires: marks, pushes, destination, predicates, FP flags, PC. -/
def Lane.retire (l : Lane) (o : Out) (dst : BitVec 6) (marks : List Nat) (a : Avail) : Lane :=
  let l := l.mark marks
  let l := o.vals.foldl (fun l v => l.push v.1 v.2 a) l
  let l := match o.vals.getLast? with
    | some v => l.dst dst v a
    | none => l
  let l := l.setPreds o.preds a
  { l with fpstat := l.fpstat ||| o.fp.setWidth 13, pc := o.pc.getD (succPc l.pc), stepBp := false }

/-- A guard-false lane: it pushes the value of its first source once for each result (R54, R96) and goes on. -/
def Lane.skip (l : Lane) (v : RedVal) (nres : Nat) (a : Avail) : Lane :=
  let l := (List.range nres).foldl (fun l _ => l.push v.1 v.2 a) l
  { l with pc := succPc l.pc, stepBp := false }

/-- What a guard-false lane pushes. -/
def State.firstSource (s : State) (g : Group) (first : Option (BitVec 6)) (l : Nat) : RedVal :=
  match first with
  | some c => ((s.opnd g l c).val, (s.opnd g l c).psn)
  | none => (0, false)

/-- Writes a uniform register for a stream whose lowest writing lane is `lane` (R59). Where another stream has written it in the
same cycle, the stream with the lowest writing lane supplies the value; `m` are the lanes of this stream. A long-latency write
takes effect at its completion (R90). -/
def Group.writeK (g : Group) (now : Nat) (m : LaneMask) (lane : Nat) (dst : BitVec 6) (v : RedVal) (a : Avail) : Group :=
  let i := dst.toNat - 0x30
  let k := updAt (fun r => r.write v.1 v.2 a) i g.k
  if 0x30 ≤ dst.toNat ∧ dst.toNat < 0x3F then
    match a, g.kBy.get? i with
    | .op _, _ => { g with k := k }
    | _, some (c, l) =>
      if c = now ∧ l < lane ∧ !has m l then g
      else { g with k := k, kBy := g.kBy.put i (now, if c = now then min l lane else lane) }
    | _, none => { g with k := k, kBy := g.kBy.put i (now, lane) }
  else g

/-- Writes a uniform destination with the last result of the lowest lane that retires (R55, R59). -/
def Group.retireK (g : Group) (now : Nat) (m : LaneMask) (out : Option Out) (dst : BitVec 6) (a : Avail) : Group :=
  match out with
  | some o => match o.vals.getLast? with
    | some v => g.writeK now m o.lane dst v a
    | none => g
  | none => g

/-- Retires an issue: the lanes of `outs` as `Lane.retire` states, the guard-false lanes as `Lane.skip` states, and a
uniform destination with the value of the lowest lane (R59). Lanes of the issue that are in neither stay as they are. -/
def State.retire (s : State) (x : Ctx) (outs : List Out) (nres : Nat) (first : Option (BitVec 6)) (dst : BitVec 6)
    (marks : List Nat) (a offA : Avail) : State :=
  s.modGroup x.key fun g =>
    { g.retireK s.cycle x.mask outs.head? dst a with
      lanes := (withIdx g.lanes).map fun e =>
        match outs.find? (fun o => o.lane == e.1) with
        | some o => e.2.retire o dst marks a
        | none => if x.off.contains e.1 then e.2.skip (s.firstSource x.g first e.1) nres offA else e.2 }

/-! ### Flags and outstanding operations (R57, R63) -/

/-- The flags an instruction raises: one increment for a flag named in both fields, none for 12 to 15 (R63). -/
def raisedFlags (c : Common) : List Nat :=
  ([c.set1.toNat] ++ (if c.set2 = c.set1 then [] else [c.set2.toNat])).filter fun f => f < 12

/-- Changes the counts of flags. -/
def Group.flagsBy (g : Group) (f : Nat → Nat) (fs : List Nat) : Group :=
  { g with flags := fs.foldl (fun l i => updAt f i l) g.flags }

/-- Starts an outstanding operation of an issue, raising the instruction's flags. Its identifier is the serial number. -/
def State.startOp (s : State) (x : Ctx) (lanes : LaneMask) (dst : BitVec 6) (res : List (Nat × Word × Bool))
    (fp : List (Nat × BitVec 5)) (held : Bool) (due : Nat) : State :=
  let fs := (raisedFlags x.v.c)
  let s := s.modGroup x.key fun g => g.flagsBy (· + 1) fs
  (s.setOp s.serial ⟨x.key, x.v.opc, x.pc, fs, lanes, dst, res, fp, [], ((lanesOf lanes).head?).getD 0, held, due⟩).fresh

/-- Ends an operation: its flags fall. -/
def State.endOp (s : State) (id : Nat) : State :=
  match s.op? id with
  | some o => (s.modGroup o.group fun g => g.flagsBy (· - 1) o.flags).delOp id
  | none => s

/-- Lanes leave an operation; the last one ends it. -/
def State.leaveOp (s : State) (id : Nat) (m : LaneMask) : State :=
  match s.op? id with
  | some o =>
    let rest := o.lanes &&& ~~~ m
    if rest = 0 then s.endOp id else s.setOp id { o with lanes := rest }
  | none => s

/-- An instruction of fixed latency retires; a flag that it names falls when its result becomes available (R88, R99), and one
cycle after issue where no lane retires (R63 item 3). The operation that holds the flags has no lanes, and ends in the
cycle in which it is due. -/
def State.finish (s : State) (x : Ctx) (outs : List Out) (nres : Nat) (first : Option (BitVec 6)) (dst : BitVec 6)
    (marks : List Nat) (lat : Nat) : State :=
  let a := Avail.from (s.cycle + lat)
  let s := s.retire x outs nres first dst marks a a
  if (raisedFlags x.v.c).isEmpty then s
  else s.startOp x 0 0 [] [] false (s.cycle + if outs.isEmpty then 1 else max 1 lat)

/-- An instruction of long latency retires its passing lanes: their results stay pending until the operation completes
(R57), guard-false lanes complete at issue. Where all lanes are guard-false, the operation has no lanes and ends one cycle after
issue (R63 item 3). -/
def State.finishLong (s : State) (x : Ctx) (outs : List Out) (nres : Nat) (first : Option (BitVec 6)) (dst : BitVec 6)
    (marks : List Nat) (fp : List (Nat × BitVec 5)) (held : Bool) : State :=
  let id := s.serial
  let s := s.retire x outs nres first dst marks (.op id) .ready
  if outs.isEmpty && x.off.isEmpty then s
  else
    let res := outs.filterMap fun o => match o.vals.getLast? with
      | some v => some (o.lane, v.1, v.2)
      | none => none
    s.startOp x (maskOf fun l => outs.any fun o => o.lane == l) dst res fp held (s.cycle + 1)

/-- The lanes of an issue become waiting at their instruction, in one operation that ends as they resume (R28, R210);
the guard-false lanes complete, and so do the lanes of `outs`. A uniform destination takes the value of the lowest lane
of both (R59). -/
def State.startWait (s : State) (x : Ctx) (ws : List (Nat × Wait)) (outs : List Out) (nres : Nat)
    (first : Option (BitVec 6)) (dst : BitVec 6) (offA : Avail) : State :=
  let id := s.serial
  let waits := fun (l : Nat) => ws.find? fun w => w.1 == l
  let outsFirst : Bool := match outs, ws with
    | o :: _, w :: _ => o.lane < w.1
    | _, _ => false
  let k := (s.group? x.key).map fun g => (g.k, g.kBy)
  let s := s.retire x outs nres first dst [] offA offA
  let s := s.modGroup x.key fun g =>
    { (g.mapLanes fun l e => match waits l with
        | some w => { e with status := .waiting, wait := { w.2 with op := id } }
        | none => e) with
      k := if outsFirst then g.k else (k.map fun e => e.1).getD g.k
      kBy := if outsFirst then g.kBy else (k.map fun e => e.2).getD g.kBy }
  let s := s.startOp x (maskOf fun l => (waits l).isSome) dst [] [] true (s.cycle + 1)
  match s.op? id with
  | some o => if outsFirst then s.setOp id { o with low := 32 } else s
  | none => s

/-- A waiting lane resumes: it pushes its results, writes its destination and predicate, goes to the next PC and
returns to active, or stops for debug (R28, R57, R59, R370). -/
def State.resume (s : State) (key l : Nat) (vals : List RedVal) (prd : Option Bool) : State :=
  match s.group? key with
  | some g =>
    let lane := g.lane l
    if lane.status = .waiting then
      let w := lane.wait
      let op := s.op? w.op
      let low := match op with
        | some o => o.low == l
        | none => true
      let m := (op.map fun o => o.lanes).getD 0
      let s := s.modGroup key fun g =>
        { (if low then g.retireK s.cycle m (some ⟨l, vals, [], 0, none⟩) w.dst .ready else g) with
          lanes := updAt (fun e =>
            let e := e.retire ⟨l, vals, (match prd with
              | some b => [(w.prd.toNat, b, false)]
              | none => []), 0, none⟩ w.dst [] .ready
            { e with
              wait := ⟨.none, 0, 0, 0, 0, 0⟩
              park := { e.park with debug := e.park.debug || e.restop }
              restop := false
              status := if e.restop || e.park.debug || e.park.page || e.park.sysc then .parked else .active }) l g.lanes }
      s.leaveOp w.op (maskOf (· == l))
    else s
  | none => s

/-- Whether the group's launch runs paired lanes (R377). -/
def State.pairedGroup (s : State) (key : Nat) : Bool :=
  match s.group? key with
  | some g => match s.team? g.team with
    | some t => match s.launch? t.launch with
      | some ln => ln.paired
      | none => false
    | none => false
  | none => false

/-- Resumes a lane, and with it the partner that waits in the same operation on the same object (R378). -/
def State.resumePair (s : State) (key l : Nat) (vals : List RedVal) (prd : Option Bool) : State :=
  let twin : Bool := match s.group? key with
    | some g => s.pairedGroup key && l < 16 && (g.lane (l + 16)).status = .waiting &&
        (g.lane (l + 16)).wait.op = (g.lane l).wait.op
    | none => false
  let s := s.resume key l vals prd
  if twin then s.resume key (l + 16) vals prd else s

/-- A waiting lane leaves its wait without resuming (R164, R388): its operation goes on without it. One that would be active, but has
a reason to park that is not released, parks (R366). -/
def State.unwait (s : State) (key l : Nat) (st : LaneStatus) : State :=
  match s.group? key with
  | some g =>
    let w := (g.lane l).wait
    let s := s.modLane key l fun e =>
      let e := { e with status := st, wait := ⟨.none, 0, 0, 0, 0, 0⟩ }
      if st = .active then e.keepParked else e
    if w.kind = .none then s else s.leaveOp w.op (maskOf (· == l))
  | none => s

/-! ### Checks that many instructions share -/

/-- The predicates that an instruction reads besides its guard: the carry of `addc` and `subb`, the predicate of `selp` and of a
ballot or poll, the pair of an accumulating compare, those of `plop` and `p2n`. -/
def predReads (v : View) : List Nat :=
  match v.f with
  | .t f => match v.opc.toNat with
    | 0x01 | 0x03 => if f.mod.getLsbD 11 then [nbits f.mod.toNat 10 8] else []
    | 0x12 => [nbits f.mod.toNat 2 0]
    | 0x34 | 0x35 | 0x36 | 0x37 => if f.mod.getLsbD 11 then [] else [nbits f.mod.toNat 2 0]
    | 0x6B => List.range 8
    | _ => []
  | .p f => if f.mode = 0 then [] else [f.pa.toNat, f.pb.toNat]
  | .s f => if v.opc = 0x69 then (List.range 3).map fun k => f.imm.toNat / 2 ^ (8 + 3 * k) % 8 else []
  | _ => []

/-- Strict debug mode (R369): the guard-true lanes that read an operand or a predicate early raise pending read, with the code of
the first such operand; a predicate has no operand code, and INFO is then 0 (log entry 49). -/
def State.strictTraps (s : State) (x : Ctx) (codes : List (BitVec 6)) : List Trap :=
  if bit x.t.dctl 31 then
    x.on.filterMap fun l =>
      match codes.find? (fun c => (s.opnd x.g l c).early) with
      | some c => some ⟨l, 9, c.toNat, 0⟩
      | none =>
        if s.guardEarly x.g x.v.c l || (predReads x.v).any (fun p => (s.pred x.g l p).2.2) then some ⟨l, 9, 0, 0⟩ else none
  else []

/-- The frame of an instruction that reads no operand: the lanes whose guard is read early raise pending read in strict debug
mode (R369), and the body acts for the others. -/
def plainFrame (i : Instr) (s : State) (body : Ctx → State → State) : Host.Outcome State Fault Refusal :=
  frame i s fun x s =>
    match s.strictTraps x [] with
    | [] => body x s
    | ts => (body { x with on := x.on.filter fun l => !ts.any fun t => t.lane == l } s).takeTraps x.key x.pc x.opc ts

/-- The lanes that perform the accesses of an issue: in a paired launch, lanes 0 to 15 only (R378). -/
def Ctx.actors (x : Ctx) (ls : List Nat) : List Nat := if x.ln.paired then ls.filter (· < 16) else ls

/-- A compare point (R378, R379): whether some pair of the issue differs in guard or in the values given for it. -/
def Ctx.pairsDiffer (x : Ctx) (key : Nat → List RedVal) : Bool :=
  x.ln.paired && (List.range 16).any fun l =>
    has x.mask l && has x.mask (l + 16) &&
      (x.on.contains l != x.on.contains (l + 16) ||
        (x.on.contains l && !(key l == key (l + 16))))

/-- A mismatch at a compare point: the gang is killed with reason 0x06, and the census counts it (R371, R379). `addr` is the address
compared, of the lowest pair (R389). -/
def State.mismatch (s : State) (x : Ctx) (addr : Word) (held : List (List Word)) : State :=
  (s.count 10 true (coreReg x.key)).kill ⟨x.lk, x.gang, 6, 0, coreReg x.key, x.pc, addr, held⟩

/-! ### Instructions of fixed latency that work lane by lane -/

/-- What the body of such an instruction gives for one lane: results, predicates and raised FP flags. -/
structure LaneRes where
  vals : List Word
  preds : List (Nat × Bool)
  fp : BitVec 5
  deriving DecidableEq, Repr

/-- The result of one lane from its operands: any poisoned source poisons every result (R381). -/
def laneOut (l : Nat) (rs : List Rd) (extra : Bool) (r : LaneRes) : Out :=
  let p := extra || rs.any fun q => q.psn
  ⟨l, r.vals.map fun v => (v, p), r.preds.map fun e => (e.1, e.2, p), r.fp, none⟩

/-- The trap that a lane's raised FP flags cause (R69): a flag whose enable is set. -/
def fpTrap (l : Nat) (fpstat : BitVec 13) (raised : BitVec 5) : Option Trap :=
  if (raised &&& (fpstat.extractLsb' 8 5)) = 0 then none else some ⟨l, 7, raised.toNat, 0⟩

/-- The lane of an issue whose result an error strikes, with the bits flipped at the issue and at its replay: an issue that the
shadow units check, and a guard-true lane of it (R373, R374). -/
def State.struck (s : State) (x : Ctx) : Option (Nat × Word × Word) :=
  match s.upset with
  | .struck l a b => if shadowed x.v && x.on.contains l then some (l, a, b) else none
  | .none => none

/-- What follows an error of the arithmetic units (R374, R375): the struck result retires where it passes the check, is right
after a replay, which the census counts as transient, or fails twice: the gang is killed with reason 0x03 and the core
withdrawn (R371, R372). -/
def State.outcome (s : State) (x : Ctx) (k : Strike) (go : State → Nat → Word → State) : State :=
  let s := { s with upset := .none }
  match k with
  | .retires r => go s 0 r
  | .replayed r => go (s.count 8 false (coreReg x.key)) 8 r
  | .lasting =>
    ((s.count 8 true (coreReg x.key)).modCore x.core fun c => { c with withdrawn := true }).kill
      ⟨x.lk, x.gang, 3, 0, coreReg x.key, x.pc, 0, []⟩

/-- The check of the results of an issue (R373 to R375): the values of its sources and its results by lane; what goes on has the
results as they retire, and the cycles that a replay takes. -/
def State.shadowCheck (s : State) (x : Ctx) (srcs vals : Nat → List Word) (go : State → Nat → (Nat → List Word) → State) :
    State :=
  match s.struck x with
  | none => go s 0 vals
  | some (l, a, b) =>
    s.outcome x (strike x.v (srcs l) a b ((vals l).headD 0)) fun s n r => go s n fun j => if j = l then [r] else vals j

/-- The stream of a replayed issue goes on as many cycles later as the replay takes (R375). -/
def State.delayed (s : State) (x : Ctx) (n : Nat) : State :=
  if n = 0 then s
  else s.modGroup x.key fun g => g.mapLanes fun l e => if has x.mask l then { e with issued := e.issued + n } else e

/-- An instruction whose guard-true lanes compute on their own operands: `codes` are its sources in order, `extra` the
poison that a lane reads besides them. -/
def laneInstr (i : Instr) (s : State) (nres : Nat) (codes : List (BitVec 6)) (dst : BitVec 6) (marks : List Nat)
    (lat : Nat) (extra : Ctx → State → Nat → Bool) (body : Ctx → State → Nat → List Rd → LaneRes) :
    Host.Outcome State Fault Refusal :=
  frame i s fun x s0 =>
    let rds := fun l => codes.map (s0.opnd x.g l)
    let res := fun l => body x s0 l (rds l)
    s0.shadowCheck x (fun l => (rds l).map fun r => r.val) (fun l => (res l).vals) fun s n vals =>
      let strict := s.strictTraps x codes
      let traps := x.on.filterMap fun l =>
        match strict.find? (fun t => t.lane == l) with
        | some t => some t
        | none => fpTrap l (x.g.lane l).fpstat (res l).fp
      let outs := (x.on.filter fun l => !traps.any fun t => t.lane == l).map fun l =>
        laneOut l (rds l) (extra x s l) { res l with vals := vals l }
      ((s.finish x outs nres codes.head? dst marks (lat + n)).takeTraps x.key x.pc x.opc traps).delayed x n

end Sys2Proof.Machine
end

