-- ==== Sys2Proof/Machine/Memory.lean ====
section
/-! DEFINITION. Address spaces, translation and the single accesses of memory
(spec/09_memory_model.md, spec/10_memory_instructions.md R208). -/

namespace Sys2Proof.Machine

/-! ### Module physical memory -/

namespace State

/-- Bytes of physical memory. -/
def physRead (s : State) (pa n : Nat) : List Byte := s.mem.bytes.readN pa n

/-- Whether bytes of physical memory touch a poisoned word (R380). -/
def physPsn (s : State) (pa n : Nat) : Bool := poisonedRange s.mem.psn pa n

/-- Recalls the host's copies of the lines that bytes of physical memory lie in, by BISnp (R192, R204, R205, R305). -/
def recallHost (s : State) (pa n : Nat) : State :=
  if s.mem.lent.isEmpty || n = 0 then s
  else ((List.range ((pa + n - 1) / 64 - pa / 64 + 1)).map (pa / 64 + ·)).foldl (fun (s : State) k =>
    match s.mem.lent.get? k with
    | some tsa => State.say { s with mem := { s.mem with lent := s.mem.lent.del k } } (.backInvalidate (64 * tsa))
    | none => s) s

/-- The lines still shown otherwise than they were written, once n bytes are written as shown (R326). -/
def origAfter (s : State) (pa n : Nat) : Sparse (Nat × List Byte) :=
  if s.mem.orig.isEmpty || n = 0 then s.mem.orig
  else s.mem.orig.filter fun e => !(pa / 64 ≤ e.1 && e.1 ≤ (pa + n - 1) / 64)

/-- The runs that hardware has broken and that a write of n bytes leaves alone (R189). -/
def runsAfter (s : State) (pa n : Nat) : List Nat :=
  if n = 0 then s.mem.runs else s.mem.runs.filter fun k => !(pa / 128 ≤ k && k ≤ (pa + n - 1) / 128)

/-- Writes bytes of a frame and their poison at their home. Poison that reaches memory may be written back to its 32-byte sector,
which is then poisoned whole (R380); whether it is, is a free choice. -/
def homeWrite (s : State) (pa : Nat) (bs : List Byte) (psn : Bool) : State :=
  let q := poisonAfter s.mem.psn pa bs.length psn
  let q := if psn && Config.freeBit (2 ^ 40 + s.free) then
      (granules (pa / 32 * 32) 32).foldl (fun l g => insertNat g l) q else q
  { s with mem := { s.mem with
      bytes := s.mem.bytes.writeN pa bs, psn := q, orig := s.origAfter pa bs.length, runs := s.runsAfter pa bs.length } }

/-- The parts of n bytes that lie in one 64-byte line each. -/
def lineParts : Nat → Nat → Nat → List (Nat × Nat)
  | 0, _, _ => []
  | fuel + 1, a, n =>
    if n = 0 then []
    else
      let k := min n (64 - a % 64)
      (a, k) :: lineParts fuel (a + k) (n - k)

/-- The writes that the migrations under way add to one of n bytes: (offset in the data, address, bytes) (R308). -/
def twins (s : State) (pa n : Nat) : List (Nat × Nat × Nat) :=
  if s.mem.migs.isEmpty then []
  else (lineParts (n / 64 + 2) pa n).flatMap fun p => s.mem.migs.filterMap fun m => (m.twin p.1).map fun t => (p.1 - pa, t, p.2)

/-- Writes bytes of physical memory with their poison, once the host's copies are recalled (R192, R380, R381), and in the other
frame of a migration too (R308). -/
def physWrite (s : State) (pa : Nat) (bs : List Byte) (psn : Bool) : State :=
  let s := s.recallHost pa bs.length
  (s.twins pa bs.length).foldl
    (fun (s : State) t => (s.recallHost t.2.1 t.2.2).homeWrite t.2.1 ((bs.drop t.1).take t.2.2) psn) (s.homeWrite pa bs psn)

/-- Recalls the host's copies before an atomic executes at the home (R205). A copy that the host has changed comes home first: whether
it has, and what it has made of the line, is free. -/
def recallDirty (s : State) (pa n : Nat) : State :=
  if s.mem.lent.isEmpty || n = 0 then s
  else
    let mine := ((List.range ((pa + n - 1) / 64 - pa / 64 + 1)).map (pa / 64 + ·)).filter fun k =>
      (s.mem.lent.get? k).isSome && Config.freeBit (2 ^ 83 + s.free * 2 ^ 40 + k)
    let s := s.recallHost pa n
    mine.foldl (fun (s : State) k =>
      let bs := (List.range 8).flatMap fun i => leBytes 8 (Config.freeWord (2 ^ 83 + (s.free * 2 ^ 40 + k) * 8 + i)).toNat
      s.homeWrite (64 * k) bs false) s

/-- A 64-bit word of physical memory. -/
def physWord (s : State) (pa : Nat) : Word := word (s.mem.bytes.readNat pa 8)

/-- Writes a 64-bit word of physical memory, clean. -/
def setPhysWord (s : State) (pa : Nat) (w : Word) : State := s.physWrite pa (leBytes 8 w.toNat) false

/-- Shows one line of a frame under a key (R326): under the key that it was last written with as it was written, under another as
what that key makes of it, a free value. -/
def viewLine (cur key : Nat) (s : State) (line : Nat) : State :=
  let (k, bs) := (s.mem.orig.get? line).getD (cur, s.physRead (64 * line) 64)
  if k = key then
    { s with mem := { s.mem with bytes := s.mem.bytes.writeN (64 * line) bs, orig := s.mem.orig.del line } }
  else
    let wrong := (List.range 64).map fun i => Config.wrongKey key line k (leNat bs) i
    { s with mem := { s.mem with bytes := s.mem.bytes.writeN (64 * line) wrong, orig := s.mem.orig.put line (k, bs) } }

/-- Shows a frame under the key slot that KEY of a leaf selects (R326). A frame that no leaf has shown otherwise is shown under
slot 0. -/
def viewAs (s : State) (frame key : Nat) : State :=
  let cur := (s.mem.view.get? frame).getD 0
  if key = cur then s
  else
    let s := (List.range 64).foldl (fun (s : State) i => viewLine cur key s (64 * frame + i)) s
    { s with mem := { s.mem with view := if key = 0 then s.mem.view.del frame else s.mem.view.put frame key } }

/-- A frame that has just been filled whole under a key slot. -/
def newView (s : State) (frame key : Nat) : State :=
  { s with mem := { s.mem with
      view := if key = 0 then s.mem.view.del frame else s.mem.view.put frame key
      orig := s.mem.orig.filter fun e => !(e.1 / 64 == frame) } }

end State

/-- Where the trusted base's own addresses begin (R185). -/
def trustedBase : Nat := 0x30000000000

/-- Whether a frame belongs to the trusted base or to another tenant (R327). -/
def State.foreign (s : State) (tenant pa : Nat) : Bool :=
  trustedBase ≤ pa || s.sec.tenants.any fun e => e.1 != tenant && e.2.frames.contains (pa / 4096)

/-! ### Translation (R187 to R190) -/

/-- The kinds of access that a translation is checked for. -/
inductive Acc where
  | read
  | write
  | rmw
  | fetch
  deriving DecidableEq, Repr

/-- ACC of a fault record (R364). -/
def Acc.code : Acc → Nat
  | .read => 0
  | .write => 1
  | .rmw => 2
  | .fetch => 3

/-- A leaf as a walk finds it: the entry, where it lies, and the bits of an address that it leaves alone. -/
structure Leaf where
  e : Word
  loc : Nat
  shift : Nat
  deriving DecidableEq, Repr

namespace Leaf

def kind (l : Leaf) : Nat := bits l.e 4 2
def rd (l : Leaf) : Bool := bit l.e 6
def wr (l : Leaf) : Bool := bit l.e 7
def ex (l : Leaf) : Bool := bit l.e 8
def l1v (l : Leaf) : Bool := bit l.e 5
def cmp (l : Leaf) : Bool := bit l.e 52
def psn (l : Leaf) : Bool := bit l.e 54
def run64 (l : Leaf) : Bool := bit l.e 11
/-- KEY (R188): the key slot that encrypts the frame. -/
def key (l : Leaf) : Nat := bits l.e 59 56
/-- The physical address of a virtual address. -/
def pa (l : Leaf) (va : Nat) : Nat := bits l.e 51 12 * 4096 / 2 ^ l.shift * 2 ^ l.shift + va % 2 ^ l.shift

end Leaf

/-- Whether an entry with V set is malformed at its level, of which `shift` is the lowest index bit (R187). -/
def malformed (e : Word) (shift : Nat) (splintering : Bool) : Bool :=
  if bit e 1 then
    shift = 39 || bits e 51 12 * 4096 % 2 ^ shift != 0 || 5 ≤ bits e 4 2 || 3 ≤ bits e 62 60 ||
      (bit e 55 && !splintering)
  else shift = 12 || bits e 11 2 != 0 || bits e 63 52 != 0

/-- The walk of four levels (R187): none where an entry is not valid, malformed or poisoned (R405). -/
def State.walkFrom (s : State) (va : Nat) : List Nat → Nat → Option Leaf
  | [], _ => none
  | shift :: rest, table =>
    let loc := table + 8 * (va / 2 ^ shift % 512)
    let e := s.physWord loc
    if s.physPsn loc 8 || !bit e 0 || malformed e shift (s.mem.spl.get? loc).isSome then none
    else if bit e 1 then some ⟨e, loc, shift⟩
    else s.walkFrom va rest (bits e 51 12 * 4096)

/-- The walk of an address space by its root. -/
def State.walk (s : State) (root va : Nat) : Option Leaf := s.walkFrom va [39, 30, 21, 12] root

/-- Whether the 16 leaves of the run at an address over 128 meet R189. -/
def State.runAt (s : State) (run : Nat) : Bool :=
  let base := run * 128
  let e0 := s.physWord base
  bits e0 51 12 % 16 = 0 &&
    (List.range 16).all fun i =>
      let e := s.physWord (base + 8 * i)
      bit e 0 && bit e 11 && bits e 51 12 == bits e0 51 12 + i && bits e 63 52 == bits e0 63 52 &&
        bits e 8 0 == bits e0 8 0

/-- Whether the 16 leaves of a run meet R189, so that the walker caches them as one 64 KiB entry. -/
def State.runOk (s : State) (l : Leaf) : Bool := s.runAt (l.loc / 128)

/-- Hardware writes an entry. Where it breaks a run that met R189, or that it had broken before, software has not set RUN64 wrongly,
and each page goes on using its own entry. -/
def State.setEntry (s : State) (loc : Nat) (w : Word) : State :=
  let run := loc / 128
  let own := bit w 11 && (s.runAt run || s.mem.runs.contains run)
  let s := s.setPhysWord loc w
  { s with mem := { s.mem with runs := if own then insertNat run s.mem.runs else s.mem.runs } }

/-- The leaf that an access uses: where software has set RUN64 and the run does not meet R189, that of any page of the run which has a
translation, a valid entry that is neither malformed nor poisoned. -/
def State.leafFor (s : State) (root va : Nat) : Option Leaf :=
  match s.walk root va with
  | some l =>
    if l.shift = 12 && l.run64 && !s.runOk l && !s.mem.runs.contains (l.loc / 128) then
      let loc := l.loc / 128 * 128 + 8 * (Config.freeNat (2 ^ 41 + s.free) % 16)
      let e := s.physWord loc
      if s.physPsn loc 8 || !bit e 0 || malformed e 12 (s.mem.spl.get? loc).isSome then some l else some { l with e := e }
    else some l
  | none => none

/-- What a translation with its checks gives: an address and its page kind, a page fault, a trap, poison consumed, or
an access that must wait, with what it has set going. -/
inductive Tr where
  | ok (s : State) (pa kind : Nat) (l1v : Bool)
  | pageFault
  | trap (cause : Nat)
  | poison
  | later (s : State)

/-- The permission that an access needs (R190). -/
def Leaf.permits (l : Leaf) : Acc → Bool
  | .read => l.rd
  | .write => l.wr
  | .rmw => l.rd && l.wr
  | .fetch => l.ex

/-- Sets ACC, and DIRTY for a write, in a leaf (R188, R189). -/
def State.touch (s : State) (l : Leaf) (acc : Acc) : State :=
  let e := s.physWord l.loc
  let d := match acc with
    | .write | .rmw => 2 ^ 10
    | _ => 0
  s.setEntry l.loc (e ||| word (2 ^ 9 + d))

/-- The host tenant. -/
def State.hostTenant (s : State) : Option (Nat × Tenant) := s.sec.tenants.find? fun e => e.2.host

/-- The lines that the host read of a page before it had a frame are lines of its frame now (R305). -/
def State.lendFound (s : State) (tenant va pa : Nat) : State :=
  let mine := s.mem.lentAway.filter fun k => k / 64 == va / 4096
  if mine.isEmpty || !(s.hostTenant.any fun t => t.1 == tenant) then s
  else { s with mem := { s.mem with
      lent := mine.foldl (fun (m : Sparse Nat) k => m.put (pa / 4096 * 64 + k % 64) k) s.mem.lent
      lentAway := s.mem.lentAway.filter fun k => k / 64 != va / 4096 } }

/-- An access uses a leaf: ACC, and DIRTY for a write, are set, and the frame is shown under the leaf's key (R188, R326). -/
def State.uses (s : State) (tenant : Nat) (l : Leaf) (va : Nat) (acc : Acc) : State :=
  ((s.touch l acc).viewAs (l.pa va / 4096) l.key).lendFound tenant va (l.pa va)

/-- The number that stands for a unit of the device that lies on no compute die: Cullet, Pontil, a queue's script, the frame
engine. -/
def noDie : Nat := 8

/-- The compute die of the lane or of the core's engine whose access is in progress, or `noDie`. An access through a host port has
no die at all (R190). -/
def State.actorDie (s : State) : Option Nat :=
  match s.cur with
  | .stream core _ _ _ | .engine core => some (dieOf core)
  | _ => some noDie

/-- The checks of R190 on a leaf, in table order. -/
def State.checkLeaf (s : State) (tenant : Nat) (l : Leaf) (va : Nat) (acc : Acc) : Tr :=
  if bit l.e 55 then .later s
  else if !l.permits acc || s.foreign tenant (l.pa va) then .trap 6
  else if l.psn then .poison
  else if l.cmp then .later { s with agenda := .int (.cmpRestore ⟨l.loc, va, s.actorDie⟩) :: s.agenda }
  else .ok (s.uses tenant l va acc) (l.pa va) l.kind l.l1v

/-- Translates a device virtual address of a tenant (R179, R180, R187 to R190). -/
def State.xlate (s : State) (tenant va : Nat) (acc : Acc) : Tr :=
  if 2 ^ 48 ≤ va then .trap 6
  else match s.tenant? tenant with
    | none => .pageFault
    | some t => match s.leafFor t.root va with
      | none => .pageFault
      | some l => s.checkLeaf tenant l va acc

/-! ### Compressed frames (R190, R310, R405) -/

/-- Sets the FRAME and CMP fields of an entry, and clears MIG. -/
def withFrame (e : Word) (frame : Nat) (cmp : Bool) : Word :=
  word (e.toNat - bits e 51 12 * 4096 - b2n (bit e 52) * 2 ^ 52 - b2n (bit e 53) * 2 ^ 53 + frame / 4096 % 2 ^ 40 * 4096 +
    b2n cmp * 2 ^ 52)

/-- Replaces the poison of a frame. -/
def State.setFramePsn (s : State) (pa : Nat) (words : List Nat) : State :=
  let rest := s.mem.psn.filter fun g => !(g / 512 == pa / 4096)
  { s with mem := { s.mem with psn := words.foldl (fun l w => insertNat (pa / 8 + w) l) rest } }

/-- The poisoned words of a frame, counted from its start. -/
def State.framePsn (s : State) (pa : Nat) : List Nat :=
  (s.mem.psn.filter fun g => g / 512 == pa / 4096).map fun g => g % 512

/-- Whether an entry maps the compressed frame at a capacity address. -/
def mapsCold (e : Word) (cold : Nat) : Bool := bit e 0 && bit e 1 && bit e 52 && bits e 51 12 * 4096 == cold

/-- The lines of a frame that the host may hold, once the frame has moved. -/
def Sparse.moved (m : Sparse Nat) (frame target : Nat) : Sparse Nat :=
  (List.range 64).foldl (fun (n : Sparse Nat) i =>
    match m.get? (64 * frame + i) with
    | some tsa => (n.del (64 * frame + i)).put (64 * target + i) tsa
    | none => n) m

/-- The bytes of a compressed frame under a key slot (R326): as they were, or, under another slot than the one that encrypted it, what
that makes of them, free values. -/
def Cold.shown (c : Cold) (cold key : Nat) : List Byte :=
  if key = c.key then c.bytes
  else (List.range 4096).map fun i => Config.wrongKey key (cold / 64 + i / 64) c.key (leNat c.bytes) (i % 64)

/-- Restores a compressed frame into a frame of its tenant, with its poison, in every entry that maps it (R190, R310,
R405). -/
def State.restoreTo (s : State) (cold : Nat) (c : Cold) (frame : Nat) : State :=
  let key := (c.entries.head?.map fun loc => bits (s.physWord loc) 59 56).getD 0
  let s := { s with mem := { s.mem with
      bytes := s.mem.bytes.writeN (4096 * frame) (c.shown cold key)
      cmp := s.mem.cmp.del cold
      lent := s.mem.lent.moved (cold / 4096) frame } }
  let s := c.entries.foldl (fun (s : State) loc =>
      if mapsCold (s.physWord loc) cold then s.setEntry loc (withFrame (s.physWord loc) (4096 * frame) false) else s)
    (s.setFramePsn (4096 * frame) c.psn)
  (s.modTenant c.tenant fun t => { t with
      reserve := t.reserve.filter fun k => !(k == frame)
      frames := frame :: t.frames.filter fun k => !(k == cold / 4096 || k == frame) }).newView frame key

/-- The module stack of a frame of HBM, by number, and the compute die that homes it (R13, R185). -/
def frameStack (frame : Nat) : Nat := frame / 2 ^ 24 % 16
def frameDie (frame : Nat) : Nat := frame / 2 ^ 25 % 8

/-- Whether PLACE would have a frame back a page of an address (R190): on the die that homed it before it left, on the die of the
access, or on the stack that the address names; an access through a host port takes the stack in every case. For first-touch by a
unit that lies on no compute die any frame will do (log entry 34). -/
def placed (place va old : Nat) (die : Option Nat) (frame : Nat) : Bool :=
  frame < 2 ^ 28 && match place, die with
    | 0, some _ => frameDie frame == frameDie old
    | 1, some d => d == noDie || frameDie frame == d
    | _, _ => frameStack frame == va / 4096 % 16

/-- A frame of a reserve, where PLACE would have it if the reserve holds one there. Which of several is a free choice; none
while the reserve is empty. -/
def State.pickFrame (s : State) (reserve : List Nat) (place va old : Nat) (die : Option Nat) : Option Nat :=
  let near := reserve.filter (placed place va old die)
  let fs := if near.isEmpty then reserve else near
  fs[Config.freeNat (2 ^ 43 + s.free) % fs.length]?

/-- Restores the compressed frame that an entry maps, for an access of an address by a compute die, into a frame of its tenant's
reserve; none while the reserve is empty (R190). -/
def State.restoreFrame (s : State) (loc va : Nat) (die : Option Nat) : Option State :=
  let e := s.physWord loc
  let cold := bits e 51 12 * 4096
  match s.mem.cmp.get? cold with
  | some c =>
    (s.pickFrame (((s.tenant? c.tenant).map Tenant.reserve).getD []) (bits e 62 60) va c.old die).map fun f =>
      s.restoreTo cold c f
  | none => none

/-! ### Accesses of the device's own units -/

/-- What an access of a unit gives: done, a page fault, protection, a page with POISON set, or an access that must
wait. -/
inductive Dev (α : Type) where
  | ok (s : State) (a : α)
  | fault (va : Nat)
  | prot
  | poison
  | blocked (s : State)

/-- Translates for a unit; a compressed frame is restored on the way (R190). -/
def State.devXlate (s : State) (tenant va : Nat) (acc : Acc) : Tr :=
  match s.xlate tenant va acc with
  | .later _ =>
    match (s.tenant? tenant).bind fun t => s.leafFor t.root va with
    | some l =>
      match s.restoreFrame l.loc va s.actorDie with
      | some s' => s'.xlate tenant va acc
      | none => .later s
    | none => .later s
  | r => r

/-- The parts of n bytes from an address on that lie in one page each. -/
def pageParts : Nat → Nat → Nat → List (Nat × Nat)
  | 0, _, _ => []
  | fuel + 1, a, n =>
    if n = 0 then []
    else
      let k := min n (4096 - a % 4096)
      (a, k) :: pageParts fuel (a + k) (n - k)

/-- Resolves the parts of an access. -/
def State.devParts (tenant : Nat) (acc : Acc) : List (Nat × Nat) → State → List (Nat × Nat × Nat) → Dev (List (Nat × Nat × Nat))
  | [], s, ps => .ok s ps.reverse
  | (va, n) :: rest, s, ps =>
    match s.devXlate tenant va acc with
    | .ok s pa kind _ => State.devParts tenant acc rest s ((pa, n, kind) :: ps)
    | .pageFault => .fault va
    | .trap _ => .prot
    | .poison => .poison
    | .later s => .blocked s

/-- The physical parts, with length and page kind, of n bytes of a tenant's space. -/
def State.devMap (s : State) (tenant va n : Nat) (acc : Acc) : Dev (List (Nat × Nat × Nat)) :=
  State.devParts tenant acc (pageParts (n / 4096 + 2) va n) s []

/-- Reads bytes of a tenant's space, and whether one is poisoned. -/
def State.devRead (s : State) (tenant va n : Nat) : Dev (List Byte × Bool) :=
  match s.devMap tenant va n .read with
  | .ok s ps => .ok s (ps.flatMap fun p => s.physRead p.1 p.2.1, ps.any fun p => s.physPsn p.1 p.2.1)
  | .fault va => .fault va
  | .prot => .prot
  | .poison => .poison
  | .blocked s => .blocked s

/-- Writes bytes to physical parts, clean. -/
def State.putParts (s : State) : List (Nat × Nat × Nat) → List Byte → State
  | [], _ => s
  | (pa, n, _) :: rest, bs => (s.physWrite pa (bs.take n) false).putParts rest (bs.drop n)

/-- Writes bytes of a tenant's space, clean. -/
def State.devWrite (s : State) (tenant va : Nat) (bs : List Byte) : Dev Unit :=
  match s.devMap tenant va bs.length .write with
  | .ok s ps => .ok (s.putParts ps bs) ()
  | .fault va => .fault va
  | .prot => .prot
  | .poison => .poison
  | .blocked s => .blocked s

/-- Whether an access of a unit must wait (R190): a splinter works on its entry, or its frame is compressed and the reserve is
empty. -/
def State.mustWait (s : State) (tenant va n : Nat) (acc : Acc) : Bool :=
  match s.devMap tenant va n acc with
  | .blocked _ => true
  | _ => false

/-- A record for a page of a unit's access that is not present, posted once (log entries 20 and 22); `f` has what else is known of the
access (R364). -/
def State.targetFault (s : State) (tenant va acc : Nat) (f : FaultInfo := {}) : State :=
  let w0 := word (tenant % 65536 * 2 ^ 48 + va % 2 ^ 48 / 4096 * 4096)
  if s.admin.faults.any fun r => r.who == .host && r.words.head? == some w0 then s
  else (s.post { f with tenant := tenant, va := va, acc := acc } .host 0).1

/-- Writes that the module owes, in order, once their page can be reached (R190). -/
def State.owe (s : State) (os : List Owed) : State :=
  if os.isEmpty then s else { s with work := { s.work with owed := s.work.owed ++ [os] } }

/-- The state after a write whose fault no unit waits for: on a page that is not present, a fault record is posted and nothing is
written; on one that must be waited for, the write is owed. -/
def State.devPut (s : State) (tenant va : Nat) (bs : List Byte) (f : FaultInfo := {}) : State :=
  match s.devWrite tenant va bs with
  | .ok s _ => s
  | .fault va => s.targetFault tenant va 1 f
  | .blocked _ => s.owe [.put tenant va bs]
  | _ => s

/-- Adds to a 64-bit counter in a tenant's space (R285), at its home, with the host's copy recalled first (R205). An atomic on a WCB
or DEV page is protection (R198). -/
def State.devAdd (s : State) (tenant va : Nat) (v : Word) : Dev Unit :=
  match s.devMap tenant va 8 .rmw with
  | .ok s ((pa, _, kind) :: _) =>
    if kind = 3 || kind = 4 then .prot
    else
      let s := s.recallDirty pa 8
      .ok (s.setPhysWord pa (s.physWord pa + v)) ()
  | .ok s [] => .ok s ()
  | .fault va => .fault va
  | .prot => .prot
  | .poison => .poison
  | .blocked s => .blocked s

/-- Performs owed writes in order: those that must still be waited for remain. -/
def State.pay : List Owed → State → State × List Owed
  | [], s => (s, [])
  | .put t va bs :: rest, s =>
    match s.devWrite t va bs with
    | .ok s _ => State.pay rest s
    | .fault va => State.pay rest (s.targetFault t va 1)
    | .blocked _ => (s, .put t va bs :: rest)
    | _ => State.pay rest s
  | .add t va v :: rest, s =>
    match s.devAdd t va v with
    | .ok s _ => State.pay rest s
    | .fault va => State.pay rest (s.targetFault t va 2)
    | .blocked _ => (s, .add t va v :: rest)
    | _ => State.pay rest s

/-- Performs what can be of the writes that the module owes. -/
def State.payOwed (s : State) : State :=
  s.work.owed.foldl (fun (s : State) os => let r := State.pay os s; r.1.owe r.2) { s with work := { s.work with owed := [] } }

/-- Whether some accesses of a unit, made in order, meet a page that must be waited for: tenant, address, length and access. -/
def State.mustWaitAny : List (Nat × Nat × Nat × Acc) → State → Bool
  | [], _ => false
  | (t, va, n, acc) :: rest, s =>
    match s.devMap t va n acc with
    | .blocked _ => true
    | .ok s _ => State.mustWaitAny rest s
    | _ => State.mustWaitAny rest s

/-! ### Host-virtual addresses (R317, R318, R414, R429) -/

/-- The tenant-space address of an HPA inside the decoder range of a port (R306). -/
def State.tsaOf (s : State) (hpa : Nat) : Option Nat :=
  match s.hostTenant with
  | some (_, t) =>
    s.sec.ports.findSome? fun p =>
      if p.programmed && p.base ≤ hpa && hpa - p.base < t.quota then some (hpa - p.base) else none
  | none => none

/-- What the ATC of a die, or a Translation Request, knows of a page. -/
inductive Ats where
  | hit (hpa : Nat) (rd wr : Bool)
  | notPresent
  | failed
  | waiting (s : State)

/-- Obtains the ATS translation of a page: a hit at once, a miss by a Translation Request, which is sent unless one is
outstanding (R429). -/
def State.ats (s : State) (die pasid page : Nat) : Ats :=
  match s.mem.atc.find? (fun e => e.die == die && e.pasid == pasid && e.page == page) with
  | some e => .hit e.hpa e.rd e.wr
  | none =>
    match s.mem.atsReqs.find? (fun r => r.die == die && r.pasid == pasid && r.page == page) with
    | some ⟨_, _, _, some .notPresent⟩ => .notPresent
    | some ⟨_, _, _, some .failure⟩ => .failed
    | some _ => .waiting s
    | none =>
      let r : AtsReq := ⟨die, pasid, page, none⟩
      .waiting (State.say { s with mem := { s.mem with atsReqs := s.mem.atsReqs ++ [r] } } (.translationRequest die pasid page))

/-- Whether a fault record is of a failed ATS translation of a page. -/
def FaultRec.isAts (r : FaultRec) (pasid page : Nat) : Bool :=
  bits (r.words.getD 1 0) 31 29 = 4 && bits (r.words.getD 6 0) 31 0 = pasid && bits (r.words.getD 0 0) 47 12 = page

/-- The outstanding record of a failed ATS translation of a page. -/
def State.atsRecord (s : State) (pasid page : Nat) : Option FaultRec := s.admin.faults.find? fun r => r.isAts pasid page

/-- Forgets what a page's translation gave, so that the next access translates afresh; while a record of the page is outstanding, its
answer will (R318, R414, R429). -/
def State.atsForget (s : State) (die pasid page : Nat) : State :=
  if (s.atsRecord pasid page).isSome then s
  else { s with mem := { s.mem with
      atc := s.mem.atc.filter fun e => !(e.die == die && e.pasid == pasid && e.page == page)
      atsReqs := s.mem.atsReqs.filter fun r => !(r.die == die && r.pasid == pasid && r.page == page && r.answer.isSome) } }

/-- Forgets a Translation Request that failed. -/
def State.atsForgetFailure (s : State) (die pasid page : Nat) : State :=
  { s with mem := { s.mem with atsReqs := s.mem.atsReqs.filter fun r =>
      !(r.die == die && r.pasid == pasid && r.page == page && r.answer == some .failure) } }

/-- The PASID bound to a launch's queue (R317). -/
def State.pasidOf (s : State) (ln : Launch) : Option Nat := (s.tenant? ln.tenant).bind fun t => t.pasids.get? ln.queue

/-- Translates a host-virtual address (R317). `none` for the ATS part being not present or lacking the permission. -/
def State.xlateHv (s : State) (ln : Launch) (die va : Nat) (acc : Acc) : Tr × Bool :=
  match s.pasidOf ln with
  | none => (.trap 6, false)
  | some pasid =>
    match s.ats die pasid (va / 4096) with
    | .waiting s => (.later s, false)
    | .notPresent => (.pageFault, true)
    | .failed => (.trap 6, false)
    | .hit hpa rd wr =>
      let ok := match acc with
        | .read | .fetch => rd
        | .write => wr
        | .rmw => rd && wr
      if !ok then (.pageFault, true)
      else match s.tsaOf (hpa + va % 4096), s.hostTenant with
        | some tsa, some (n, t) =>
          match s.walk t.hostTable tsa with
          | none => (.pageFault, false)
          | some l => (s.checkLeaf n l tsa acc, false)
        | _, _ => (.trap 6, false)

/-- The tenant-space address of a host-virtual address that translates (R226): what a wake key is named by. -/
def State.hvKey (s : State) (ln : Launch) (die va : Nat) : Nat :=
  match s.pasidOf ln with
  | some pasid =>
    match s.ats die pasid (va / 4096) with
    | .hit hpa _ _ => (s.tsaOf (hpa + va % 4096)).getD 0
    | _ => 0
  | none => 0

/-! ### The six spaces (R179 to R182) -/

/-- A resolved piece of an access: module memory with its page kind and, where a load may use L1, its virtual line;
or a team's scratchpad. -/
inductive Loc where
  | mem (pa kind : Nat) (l1 : Option Nat) (vline : Nat)
  | scr (team off : Nat)
  deriving DecidableEq, Repr

/-- The result of checking one access of a lane. -/
inductive Check where
  | ok (s : State) (ps : List (Loc × Nat))
  | pageFault (va : Nat) (space : Nat) (ats : Bool)
  | trap (cause : Nat)
  | poison
  | later (s : State)

/-- The global address of byte a of a lane's private space (R182). -/
def Ctx.privAddr (x : Ctx) (l a : Nat) : Nat :=
  x.ln.privArea + x.g.segment * 32 * x.ln.priv + (a / 8 * 32 + l) * 8 + a % 8

/-- Resolves the pieces of an access one after the other. Constant accesses count as NRC (R193). -/
def State.pieces (tenant : Nat) (acc : Acc) (space : Nat) : List (Nat × Nat) → State → List (Loc × Nat) → Check
  | [], s, ps => .ok s ps.reverse
  | (va, n) :: rest, s, ps =>
    match s.xlate tenant va acc with
    | .ok s pa kind l1v =>
      let kind := if space = 5 then 0 else kind
      let l1 := if space = 0 && l1v && (kind = 0 || kind = 2) then some (va / 64) else if space = 5 then some (va / 64) else none
      State.pieces tenant acc space rest s ((.mem pa kind l1 (va / 64), n) :: ps)
    | .pageFault => .pageFault va space false
    | .trap c => .trap c
    | .poison => .poison
    | .later s => .later s

/-- Checks and resolves one access of n bytes of a lane, in the order of R208: alignment to `align`, the bounds of the
space (R180), translation (R190). -/
def State.access (s : State) (x : Ctx) (space l : Nat) (a : Word) (n align : Nat) (acc : Acc) : Check :=
  let a := a.toNat
  if a % align ≠ 0 then .trap 5
  else match space with
    | 0 => State.pieces x.ln.tenant acc 0 [(a, n)] s []
    | 1 => if x.t.scrBytes < a + n then .trap 6 else .ok s [(.scr x.tk a, n)]
    | 2 =>
      let i := a / 2 ^ 19 % 8
      if 2 ^ 22 ≤ a || x.ln.gangSize ≤ i then .trap 6
      else
        let tk := indexKey x.lk (x.gang * x.ln.gangSize + i)
        match s.team? tk with
        | some t => if t.scrBytes < a % 2 ^ 19 + n then .trap 6 else .ok s [(.scr tk (a % 2 ^ 19), n)]
        | none => .trap 6
    | 3 =>
      if x.ln.priv < a + n then .trap 6
      else if n ≤ 8 then State.pieces x.ln.tenant acc 3 [(x.privAddr l a, n)] s []
      else State.pieces x.ln.tenant acc 3 ((List.range (n / 8)).map fun i => (x.privAddr l (a + 8 * i), 8)) s []
    | 4 =>
      match s.xlateHv x.ln (dieOf x.core) a acc with
      | (.ok s pa kind _, _) => .ok s [(.mem pa kind none (a / 64), n)]
      | (.pageFault, ats) => .pageFault a 4 ats
      | (.trap c, _) => .trap c
      | (.poison, _) => .poison
      | (.later s, _) => .later s
    | _ =>
      if x.ln.constSize < a + n || acc ≠ .read then .trap 6
      else State.pieces x.ln.tenant acc 5 [(x.ln.addr + a, n)] s []

/-! ### Reading and writing a resolved access -/

/-- The page kind of an access; scratchpads count as NRC (R193). -/
def kindOf (ps : List (Loc × Nat)) : Nat :=
  match ps with
  | (.mem _ k _ _, _) :: _ => k
  | _ => 0

/-- Bytes of a scratchpad. -/
def State.scrRead (s : State) (tk off n : Nat) : List Byte :=
  match s.team? tk with
  | some t => t.scr.readN off n
  | none => List.replicate n 0

/-- Whether bytes of a scratchpad touch a poisoned word. -/
def State.scrPsn (s : State) (tk off n : Nat) : Bool :=
  match s.team? tk with
  | some t => poisonedRange t.scrPsn off n
  | none => false

/-- Writes bytes of a scratchpad with their poison. -/
def State.scrWrite (s : State) (tk off : Nat) (bs : List Byte) (psn : Bool) : State :=
  s.modTeam tk fun t => { t with scr := t.scr.writeN off bs, scrPsn := poisonAfter t.scrPsn off bs.length psn }

/-- Removes a line from a core's L1 (R183). -/
def State.l1Drop (s : State) (core tenant vline : Nat) : State :=
  if (s.core core).l1.isEmpty then s
  else s.modCore core fun c => { c with l1 := c.l1.filter fun e => !(e.tenant == tenant && e.vline == vline) }

/-- Lines that a core's L1 holds: 256 KiB (R14, R17). -/
def l1Lines : Nat := 4096

/-- Enters a line in an L1; which line a full one gives up is a free choice (R183). -/
def State.l1Enter (s : State) (core : Nat) (e : L1Line) : State :=
  s.modCore core fun c =>
    let kept := if c.l1.length < l1Lines then c.l1 else c.l1.eraseIdx (Config.freeNat (2 ^ 44 + s.free) % c.l1.length)
    { c with l1 := kept ++ [e] }

/-- A load that may be served by L1 (R179, R183, R184): from a line that L1 holds, or from memory, filling the line;
a line may have left L1 at any time. -/
def State.l1Read (s : State) (core tenant vline pa n : Nat) : State × List Byte × Bool :=
  match (s.core core).l1.find? (fun e => e.tenant == tenant && e.vline == vline) with
  | some e =>
    if Config.freeBit (2 ^ 42 + s.free) then (s, e.bytes.readN (pa % 64) n, poisonedRange e.psn (pa % 64) n)
    else
      let s := s.l1Drop core tenant vline
      (s, s.physRead pa n, s.physPsn pa n)
  | none =>
    let line := pa / 64 * 64
    let b := Mem.writeN [] 0 (s.physRead line 64)
    let q := (List.range 8).filter fun i => s.physPsn (line + 8 * i) 8
    (s.l1Enter core ⟨tenant, vline, b, q⟩, s.physRead pa n, s.physPsn pa n)

/-- The place that lies i bytes further on. -/
def Loc.plus (p : Loc) (i : Nat) : Loc :=
  match p with
  | .mem pa k l1 v => .mem (pa + i) k l1 v
  | .scr tk off => .scr tk (off + i)

/-- The pieces of the first n bytes of an access, and of the others. -/
def takePieces : Nat → List (Loc × Nat) → List (Loc × Nat)
  | _, [] => []
  | n, (p, k) :: rest => if n = 0 then [] else if n < k then [(p, n)] else (p, k) :: takePieces (n - k) rest

def dropPieces : Nat → List (Loc × Nat) → List (Loc × Nat)
  | _, [] => []
  | n, (p, k) :: rest => if k ≤ n then dropPieces (n - k) rest else (p.plus n, k - n) :: rest

/-- Reads the pieces of an access: bytes in address order, and whether one is poisoned. A lane's own buffered WCB bytes
are returned (R198). `fresh` bypasses L1 (R212). -/
def State.readPieces (s : State) (x : Ctx) (l : Nat) (fresh : Bool) : List (Loc × Nat) → State × List Byte × Bool
  | [] => (s, [], false)
  | (p, n) :: rest =>
    let r := match p with
      | .scr tk off => (s, s.scrRead tk off n, s.scrPsn tk off n)
      | .mem pa kind l1 _ =>
        match l1, fresh with
        | some v, false => s.l1Read x.core x.ln.tenant v pa n
        | _, _ =>
          if kind = 3 then
            let w := match s.group? x.key with
              | some g => (g.lane l).wcb
              | none => []
            (s, (List.range n).map (fun i => (Sparse.get? w (pa + i)).getD (s.mem.bytes.read (pa + i))), s.physPsn pa n)
          else (s, s.physRead pa n, s.physPsn pa n)
    let q := State.readPieces r.1 x l fresh rest
    (q.1, r.2.1 ++ q.2.1, r.2.2 || q.2.2)

/-- Buffered bytes as the writes that perform them: a word that is there whole is one write, which clears its poison (R380), and any
other byte is one of its own. -/
def wcbWrites (w : Sparse Byte) : List (Nat × List Byte) :=
  ((w.map fun e => e.1 / 8).eraseDups).flatMap fun g =>
    let mine := w.filter fun e => e.1 / 8 == g
    if mine.length = 8 then [(8 * g, mine.map (·.2))] else mine.map fun e => (e.1, [e.2])

/-- Performs a lane's buffered WCB writes (R198). -/
def State.drainWcb (s : State) (key l : Nat) : State :=
  match s.group? key with
  | some g =>
    let w := (g.lane l).wcb
    if w.isEmpty then s
    else ((wcbWrites w).foldl (fun s e => s.physWrite e.1 e.2 false) s).modLane key l fun e => { e with wcb := [] }
  | none => s

/-- Writes bytes to the pieces of an access (R198, R380). A write to a WCB page enters the lane's combining buffer,
which holds one 64-byte line; another line's bytes are performed first. -/
def State.writePieces (s : State) (x : Ctx) (l : Nat) (psn : Bool) : List (Loc × Nat) → List Byte → State
  | [], _ => s
  | (p, n) :: rest, bs =>
    let b := bs.take n
    let s := match p with
      | .scr tk off => s.scrWrite tk off b psn
      | .mem pa kind _ vline =>
        let s := s.l1Drop x.core x.ln.tenant vline
        if kind = 3 then
          let other := match s.group? x.key with
            | some g => (g.lane l).wcb.any fun e => e.1 / 64 != pa / 64
            | none => false
          let s := if other then s.drainWcb x.key l else s
          s.modLane x.key l fun e =>
            { e with wcb := (withIdx b).foldl (fun w c => Sparse.put (pa + c.1) c.2 w) e.wcb }
        else s.physWrite pa b psn
    State.writePieces s x l psn rest (bs.drop n)

/-- Reads k elements of n bytes each from the pieces of an access, each with the poison of its own granules (R212, R213, R380). -/
def State.readElems (s : State) (x : Ctx) (l : Nat) (fresh : Bool) (n : Nat) : Nat → List (Loc × Nat) → State × List (List Byte × Bool)
  | 0, _ => (s, [])
  | k + 1, ps =>
    let r := s.readPieces x l fresh (takePieces n ps)
    let q := r.1.readElems x l fresh n k (dropPieces n ps)
    (q.1, (r.2.1, r.2.2) :: q.2)

/-- Writes elements to the pieces of an access, each with its own poison (R212, R213, R381). -/
def State.writeElems (s : State) (x : Ctx) (l : Nat) : List (List Byte × Bool) → List (Loc × Nat) → State
  | [], _ => s
  | (bs, psn) :: rest, ps =>
    (s.writePieces x l psn (takePieces bs.length ps) bs).writeElems x l rest (dropPieces bs.length ps)

/-- Brings home the host's copies of what an access reaches, before an atomic executes there (R205). -/
def State.recallPieces (s : State) (ps : List (Loc × Nat)) : State :=
  ps.foldl (fun (s : State) p => match p with
    | (.mem pa _ _ _, n) => s.recallDirty pa n
    | _ => s) s

/-- A fault record's fields for lanes of an issue (R364), but for the resume point that `st.cmp` records. -/
def State.faultInfo (s : State) (x : Ctx) (va : Nat) (acc space : Nat) : FaultInfo :=
  { tenant := x.ln.tenant, va := va, mask := 0, acc := acc, space := space, lslot := x.lk, core := coreReg x.key,
    team := x.t.idx, grp := x.g.gid, pc := x.pc, resume := none,
    pasid := if space = 4 then (s.pasidOf x.ln).getD 0 else 0 }

/-! ### The checks of every lane of an issue (R209) -/

/-- What the checks of one lane found. -/
inductive LaneChk where
  | pass (lane : Nat) (ps : List (Loc × Nat))
  | fault (lane va space : Nat) (ats : Bool) (addr : Word)
  | trap (t : Trap)
  deriving DecidableEq, Repr

/-- What the checks of an issue found: the verdict of each lane, poison consumed at an address, or a wait. -/
inductive Checked where
  | done (s : State) (cs : List LaneChk)
  | poison (addr : Word)
  | later (s : State)

/-- Failed Translation Requests that the lanes have met are used up: a later access asks again (R429). -/
def State.atsUsed (s : State) (x : Ctx) (space : Nat) (cs : List LaneChk) : State :=
  if space = 4 then
    let pasid := (s.pasidOf x.ln).getD 0
    cs.foldl (fun s c => match c with
      | .trap t => s.atsForgetFailure (dieOf x.core) pasid (t.addr.toNat / 4096)
      | _ => s) s
  else s

/-- Checks the accesses of the lanes in order: lane, address, bytes, alignment. -/
def State.checkAll (x : Ctx) (space : Nat) (acc : Acc) : List (Nat × Word × Nat × Nat) → State → List LaneChk → Checked
  | [], s, cs => .done (s.atsUsed x space cs) cs.reverse
  | (l, a, n, al) :: rest, s, cs =>
    if n = 0 then State.checkAll x space acc rest s (.pass l [] :: cs)
    else match s.access x space l a n al acc with
      | .ok s ps => State.checkAll x space acc rest s (.pass l ps :: cs)
      | .pageFault va sp ats => State.checkAll x space acc rest s (.fault l va sp ats a :: cs)
      | .trap c => State.checkAll x space acc rest s (.trap ⟨l, c, 0, a⟩ :: cs)
      | .poison => .poison a
      | .later s => .later s

/-- The pages that lanes faulted on, each once, in lane order. -/
def faultPages : List LaneChk → List (Nat × Nat × Bool) → List (Nat × Nat × Bool)
  | [], ps => ps
  | .fault _ va sp ats _ :: t, ps =>
    faultPages t (if ps.any (fun p => p.1 == va / 4096) then ps else ps ++ [(va / 4096, sp, ats)])
  | _ :: t, ps => faultPages t ps

/-- Sends a PRI Page Request where one is free and none is outstanding for the page (R318, R414). -/
def State.pageRequest (s : State) (pasid page : Nat) (write : Bool) : State :=
  if s.mem.pageReqs.any (fun r => r.pasid == pasid && r.page == page) || 512 ≤ s.mem.pageReqs.length then s
  else
    let r : PageReq := ⟨pasid, page, write, s.ns⟩
    State.say { s with mem := { s.mem with pageReqs := s.mem.pageReqs ++ [r] } } (.pageRequest pasid page write)

/-- Parks the lanes that met page faults, one record for each page (R209, R363), and sends the page requests of failed
`.hv` translations (R318); lanes that meet a page whose record is outstanding share it, and what the translation gave stays until it
is answered (R429). The partner lanes of a paired launch park with them (R378). `point` is the resume point that a `st.cmp`
has recorded. -/
def State.parkFaults (s : State) (x : Ctx) (acc : Acc) (cs : List LaneChk) (point : Option Resume := none) : State :=
  (faultPages cs []).foldl (fun s p =>
    let at' := fun (l : Nat) (c : LaneChk) => match c with
      | .fault k va _ _ a =>
        if (k == l || (x.ln.paired && k + 16 == l && has x.mask l)) && va / 4096 == p.1 then some (l, a) else none
      | _ => none
    let addrs := (List.range groupLanes).filterMap fun l => cs.findSome? (at' l)
    let m := maskOf fun l => addrs.any fun e => e.1 == l
    let pasid := (s.pasidOf x.ln).getD 0
    match if p.2.2 then s.atsRecord pasid p.1 else none with
    | some r => s.joinLanes r x.key m x.lk x.gang x.opc addrs
    | none =>
      let s := if p.2.2 then s.pageRequest pasid p.1 (acc != .read) else s
      s.parkLanes x.key m { s.faultInfo x (p.1 * 4096) (if p.2.2 then 4 else acc.code) p.2.1 with resume := point } x.gang x.opc
        addrs) s

/-- The traps among the verdicts, with the partner lanes of a paired launch. -/
def trapsOf (x : Ctx) (cs : List LaneChk) : List Trap :=
  cs.flatMap fun c => match c with
    | .trap t => if x.ln.paired && has x.mask (t.lane + 16) && t.lane < 16 then [t, { t with lane := t.lane + 16 }] else [t]
    | _ => []

/-- The lanes that passed, with their pieces. -/
def passed (cs : List LaneChk) : List (Nat × List (Loc × Nat)) :=
  cs.filterMap fun c => match c with
    | .pass l ps => some (l, ps)
    | _ => none

end Sys2Proof.Machine
end

