-- ==== Sys2Proof/Machine/LoadStore.lean ====
section
/-! DEFINITION. Loads, stores, prefetches and L1 control: opcodes 0x90 to 0x9F
(spec/10_memory_instructions.md R206 to R219). -/

namespace Sys2Proof.Machine

/-- Bytes of a WIDTH code (R85). -/
def widthBytes (w : BitVec 3) : Nat := 2 ^ w.toNat

/-- `ea(l)` (R208). -/
def State.ea (s : State) (x : Ctx) (f : FmtM) (l : Nat) : Word := (s.opnd x.g l f.sa).val + f.ofs.signExtend 64

/-- A loaded element: extended as SGN says (R212). -/
def extend (sgn : BitVec 1) (bs : List Byte) : Word :=
  if sgn = 1 then sextW (8 * bs.length) (leNat bs) else zextW (8 * bs.length) (leNat bs)

/-- The results of lane l also go to its partner in a paired launch (R378). -/
def Ctx.mirror (x : Ctx) (outs : List Out) : List Out :=
  if x.ln.paired then
    outs ++ (outs.filter fun o => o.lane < 16 && x.on.contains (o.lane + 16)).map fun o => { o with lane := o.lane + 16 }
  else outs

/-- Turns accesses to pages of some kinds into protection (R198, R230). -/
def denyKinds (ks : List Nat) (addr : Nat → Word) (cs : List LaneChk) : List LaneChk :=
  cs.map fun c => match c with
    | .pass l ps => if ps.any (fun p => ks.contains (kindOf [p])) then .trap ⟨l, 6, 0, addr l⟩ else c
    | _ => c

/-- Whether a poisoned value would be stored to a WCB or DEV page (R382). -/
def storesPoison (psn : Nat → Bool) (cs : List LaneChk) : Option Nat :=
  (passed cs).findSome? fun p => if psn p.1 && p.2.any (fun q => let k := kindOf [q]; k = 3 || k = 4) then some p.1 else none

/-- Performs an issue's accesses lane by lane in ascending order, each giving the lane's results (R211). -/
def performAll (act : State → Nat → List (Loc × Nat) → State × List RedVal) :
    List (Nat × List (Loc × Nat)) → State → List Out → State × List Out
  | [], s, outs => (s, outs.reverse)
  | (l, ps) :: rest, s, outs =>
    let r := act s l ps
    performAll act rest r.1 (⟨l, r.2, [], 0, none⟩ :: outs)

/-- A release or a fence at system scope first performs the lane's buffered WCB writes (R198): a release of ORDER and
SCOPE, or a write to an NSO page. -/
def State.drainReleases (s : State) (x : Ctx) (order : BitVec 2) (scope : BitVec 3) (acc : Acc) (cs : List LaneChk) :
    State :=
  (passed cs).foldl (fun s p =>
    if (2 ≤ order.toNat && scope = 5) || (acc != .read && p.2.any fun q => kindOf [q] = 1) then s.drainWcb x.key p.1 else s) s

/-- A mismatch at a compare point of a memory instruction: the accesses held, one for each pair, with their addresses (R379, R389,
R390). -/
def State.mismatchAt (s : State) (x : Ctx) (f : FmtM) (ea : Nat → Word) : State :=
  let ls := x.on.filter fun l => l < 16 || !x.on.contains (l - 16)
  s.mismatch x ((ls.head?.map ea).getD 0) (ls.map fun l =>
    [word (2 * 2 ^ 28 + f.width.toNat * 2 ^ 25 + l * 2 ^ 20 + x.opc * 2 ^ 12), word (f.space.toNat * 2 ^ 61 + (ea l).toNat % 2 ^ 48), x.pc])

/-- The frame of a memory instruction with one access per guard-true lane (R208 to R211, R214, R363, R378): strict
reads, poisoned addresses, the compare of paired lanes, the checks of every lane, the accesses in lane order, then the
lanes that trap or park. `lanes` gives address, bytes and alignment of each lane's access; `data` the values compared at
a compare point besides the address; `dataPsn` the poison of the data stored; `consumed` whether the instruction
consumes poisoned data. -/
def memInstr (i : Instr) (s : State) (f : FmtM) (codes : List (BitVec 6)) (nres : Nat) (dst : BitVec 6) (acc : Acc)
    (size : Ctx → State → Nat → Nat × Nat) (deny : List Nat) (data : Ctx → State → Nat → List RedVal)
    (dataPsn : Ctx → State → Nat → Bool) (consumed : Bool)
    (act : Ctx → State → Nat → List (Loc × Nat) → State × List RedVal) : Host.Outcome State Fault Refusal :=
  frame i s fun x s0 =>
    let strict := s0.strictTraps x codes
    let ea := s0.ea x f
    let live := x.on.filter fun l => !strict.any fun t => t.lane == l
    if live.any fun l => (s0.opnd x.g l f.sa).psn || (consumed && dataPsn x s0 l) then
      s0.consume x (((live.find? fun l => (s0.opnd x.g l f.sa).psn).map ea).getD 0)
    else if x.pairsDiffer (fun l => (ea l, false) :: data x s0 l) then
      s0.mismatchAt x f ea
    else
      match State.checkAll x f.space.toNat acc
          ((x.actors live).map fun l => (l, ea l, (size x s0 l).1, (size x s0 l).2)) s0 [] with
      | .later s => s
      | .poison a => s0.consume x a
      | .done s cs =>
        let cs := denyKinds deny ea cs
        match storesPoison (dataPsn x s0) cs with
        | some l => s0.consume x (ea l)
        | none =>
          let r := performAll (act x) (passed cs) (s.drainReleases x f.order f.scope acc cs) []
          let s := r.1.finishLong x (x.mirror r.2) nres (some f.sa) dst [] [] false
          (s.takeTraps x.key x.pc x.opc (strict ++ trapsOf x cs)).parkFaults x acc cs

/-- The low n bytes of an operand with its poison. -/
def State.storeElem (s : State) (x : Ctx) (l n : Nat) (code : BitVec 6) : List Byte × Bool :=
  let a := s.opnd x.g l code
  (leBytes n a.val.toNat, a.psn)

/-- The elements that a store writes for a lane: the low bytes of SD, or n(2i) and n(2i + 1) at 128 bits, each with its poison (R85,
R212, R381). -/
def State.storeData (s : State) (x : Ctx) (f : FmtM) (l : Nat) : List (List Byte × Bool) :=
  if f.width = 4 then [s.storeElem x l 8 f.sd, s.storeElem x l 8 (f.sd + 1)] else [s.storeElem x l (widthBytes f.width) f.sd]

/-- Whether an element of a store is poisoned. -/
def anyPsn (d : List (List Byte × Bool)) : Bool := d.any fun e => e.2

/-- The operands that a store reads: the address and the data, which are n(2i) and n(2i + 1) at 128 bits (R85, R89). -/
def storeCodes (f : FmtM) : List (BitVec 6) := [f.sa, f.sd] ++ if f.width = 4 then [f.sd + 1] else []

/-- The elements of a store as values to compare. -/
def dataKey (d : List (List Byte × Bool)) : List RedVal := d.map fun e => (word (leNat e.1), e.2)

def noData (_ : Ctx) (_ : State) (_ : Nat) : List RedVal := []
def noPsn (_ : Ctx) (_ : State) (_ : Nat) : Bool := false

/-- R212: `ld`. -/
def execLd (c : Common) (f : FmtM) (s : State) : Host.Outcome State Fault Refusal :=
  let n := widthBytes f.width
  memInstr (.ld c f) s f [f.sa] (if f.width = 4 then 2 else 1) f.dst .read (fun _ _ _ => (n, n)) [] noData noPsn false
    fun x s l ps =>
      let r := if f.width = 4 then s.readElems x l (f.hint == 1) 8 2 ps else s.readElems x l (f.hint == 1) n 1 ps
      (r.1, r.2.map fun e => (extend f.sgn e.1, e.2))

/-- R212: `st`. -/
def execSt (c : Common) (f : FmtM) (s : State) : Host.Outcome State Fault Refusal :=
  let n := widthBytes f.width
  memInstr (.st c f) s f (storeCodes f) 0 0 .write (fun _ _ _ => (n, n)) [] (fun x s l => dataKey (s.storeData x f l))
    (fun x s l => anyPsn (s.storeData x f l)) false
    fun x s l ps => (s.writeElems x l (s.storeData x f l) ps, [])

/-- R213: `ld.2`. -/
def execLd_2 (c : Common) (f : FmtM) (s : State) : Host.Outcome State Fault Refusal :=
  let n := widthBytes f.width
  memInstr (.ld_2 c f) s f [f.sa] 2 f.dst .read (fun _ _ _ => (2 * n, 2 * n)) [] noData noPsn false
    fun x s l ps =>
      let r := s.readElems x l (f.hint == 1) n 2 ps
      (r.1, r.2.map fun e => (extend f.sgn e.1, e.2))

/-- R213: `st.2`. -/
def execSt_2 (c : Common) (f : FmtM) (s : State) : Host.Outcome State Fault Refusal :=
  let n := widthBytes f.width
  let data := fun (x : Ctx) (s : State) l => [s.storeElem x l n f.sd, s.storeElem x l n (f.sd + 1)]
  memInstr (.st_2 c f) s f [f.sa, f.sd, f.sd + 1] 0 0 .write (fun _ _ _ => (2 * n, 2 * n)) []
    (fun x s l => dataKey (data x s l)) (fun x s l => anyPsn (data x s l)) false
    fun x s l ps => (s.writeElems x l (data x s l) ps, [])

/-- Writes the bytes j of a word whose mask bit is set (R215): the pieces of the access are one word, and a whole word is one
write of its granule (R380). -/
def State.writeMasked (s : State) (x : Ctx) (l : Nat) (psn : Bool) (mask : Nat) (bs : List Byte) (ps : List (Loc × Nat)) :
    State :=
  match ps with
  | (p, _) :: _ =>
    if mask % 256 = 255 then s.writePieces x l psn ps bs
    else (withIdx bs).foldl (fun s e =>
      if mask.testBit e.1 then
        match p with
        | .scr tk off => s.writePieces x l psn [(.scr tk (off + e.1), 1)] [e.2]
        | .mem pa k l1 v => s.writePieces x l psn [(.mem (pa + e.1) k l1 v, 1)] [e.2]
      else s) s
  | [] => s

/-- R215: `st.bm`. A mask of 0 makes no access. -/
def execStBm (c : Common) (f : FmtM) (s : State) : Host.Outcome State Fault Refusal :=
  let mask := fun (x : Ctx) (s : State) l => (s.opnd x.g l (f.sd + 1)).val.toNat % 256
  let psn := fun (x : Ctx) (s : State) l => (s.opnd x.g l f.sd).psn || (s.opnd x.g l (f.sd + 1)).psn
  memInstr (.stBm c f) s f [f.sa, f.sd, f.sd + 1] 0 0 .write
    (fun x s l => if mask x s l = 0 then (0, 1) else (8, 8)) [4]
    (fun x s l => [((s.opnd x.g l f.sd).val, psn x s l), (word (mask x s l), psn x s l)]) psn false
    fun x s l ps => (s.writeMasked x l (psn x s l) (mask x s l) (leBytes 8 (s.opnd x.g l f.sd).val.toNat) ps, [])

/-- R215: `st.z`. -/
def execStZ (c : Common) (f : FmtM) (s : State) : Host.Outcome State Fault Refusal :=
  memInstr (.stZ c f) s f [f.sa] 0 0 .write (fun _ _ _ => (64, 64)) [4] noData noPsn false
    fun x s l ps => (s.writePieces x l false ps (List.replicate 64 0), [])

/-! ### Uniform forms (R214) -/

/-- The frame of `ld.k` and `st.k`: one access per issue, whose fault applies to every guard-true lane. A poisoned address is consumed
whatever the guards, as a uniform operand (R357, R382; DEDUCED, log entry 28). -/
def memUniform (i : Instr) (s : State) (f : FmtM) (codes : List (BitVec 6)) (nres : Nat) (dst : BitVec 6) (acc : Acc)
    (data : Ctx → State → List (List Byte × Bool))
    (act : Ctx → State → List (Loc × Nat) → State × List RedVal) : Host.Outcome State Fault Refusal :=
  frame i s fun x s0 =>
    match (lanesOf x.mask).head? with
    | none => s0
    | some l0 =>
      if (s0.opnd x.g l0 f.sa).psn then s0.consume x (s0.ea x f l0)
      else match x.on with
      | [] => s0.finishLong x [] nres (some f.sa) dst [] [] false
      | m :: _ =>
        let strict := s0.strictTraps x codes
        let live := x.on.filter fun l => !strict.any fun t => t.lane == l
        if live.isEmpty then (s0.finishLong x [] nres (some f.sa) dst [] [] false).takeTraps x.key x.pc x.opc strict
        else if x.pairsDiffer (fun _ => []) then s0.mismatchAt { x with on := [m] } f (s0.ea x f)
        else
          let n := widthBytes f.width
          let rest := fun (s : State) (o : List Out) => s.finishLong x o nres (some f.sa) dst [] [] false
          match s0.access x f.space.toNat m (s0.ea x f m) n n acc with
          | .later s => s
          | .poison => s0.consume x (s0.ea x f m)
          | .trap cause => (rest s0 []).takeTraps x.key x.pc x.opc (strict ++ live.map fun l => ⟨l, cause, 0, s0.ea x f m⟩)
          | .pageFault va sp ats => ((rest s0 []).takeTraps x.key x.pc x.opc strict).parkFaults x acc (live.map fun l => .fault l va sp ats (s0.ea x f m))
          | .ok s ps =>
            if anyPsn (data x s0) && ps.any (fun q => let k := kindOf [q]; k = 3 || k = 4) then s0.consume x (s0.ea x f m)
            else
              let r := act x (s.drainReleases x f.order f.scope acc (live.map fun l => .pass l ps)) ps
              (rest r.1 (live.map fun l => ⟨l, r.2, [], 0, none⟩)).takeTraps x.key x.pc x.opc strict

/-- R214: `ld.k`. -/
def execLdK (c : Common) (f : FmtM) (s : State) : Host.Outcome State Fault Refusal :=
  memUniform (.ldK c f) s f [f.sa] 1 f.dst .read (fun _ _ => [])
    fun x s ps =>
      let r := s.readPieces x (x.on.headD 0) (f.hint == 1) ps
      (r.1, [(extend f.sgn r.2.1, r.2.2)])

/-- R214: `st.k`. -/
def execStK (c : Common) (f : FmtM) (s : State) : Host.Outcome State Fault Refusal :=
  let data := fun (x : Ctx) (s : State) => s.storeData x f (x.on.headD 0)
  memUniform (.stK c f) s f (storeCodes f) 0 0 .write data
    fun x s ps => (s.writeElems x (x.on.headD 0) (data x s) ps, [])

/-! ### Non-faulting forms (R216) -/

/-- The status that a lane of `ld.nt` or `st.nt` receives (R216). -/
def ntStatus : LaneChk → Nat
  | .pass _ _ => 0
  | .fault _ _ _ _ _ => 1
  | .trap t => if t.cause = 5 then 3 else 2

/-- The lane of a verdict. -/
def LaneChk.lane : LaneChk → Nat
  | .pass l _ => l
  | .fault l _ _ _ _ => l
  | .trap t => t.lane

/-- Forgets the Translation Requests that gave no translation, once their waiting lanes have their status (R216). -/
def State.ntForget (s : State) (x : Ctx) (cs : List LaneChk) : State :=
  cs.foldl (fun s c => match c with
    | .fault _ va 4 true _ => s.atsForget (dieOf x.core) ((s.pasidOf x.ln).getD 0) (va / 4096)
    | _ => s) s

/-- The frame of the non-faulting forms: no lane parks or traps on its access. -/
def memNt (i : Instr) (s : State) (f : FmtM) (codes : List (BitVec 6)) (nres : Nat) (acc : Acc)
    (data : Ctx → State → Nat → List (List Byte × Bool))
    (act : Ctx → State → Nat → LaneChk → State × List RedVal) : Host.Outcome State Fault Refusal :=
  frame i s fun x s0 =>
    let strict := s0.strictTraps x codes
    let ea := s0.ea x f
    let n := widthBytes f.width
    let live := x.on.filter fun l => !strict.any fun t => t.lane == l
    if live.any fun l => (s0.opnd x.g l f.sa).psn then
      s0.consume x (((live.find? fun l => (s0.opnd x.g l f.sa).psn).map ea).getD 0)
    else if x.pairsDiffer (fun l => (ea l, false) :: dataKey (data x s0 l)) then s0.mismatchAt x f ea
    else
      match State.checkAll x f.space.toNat acc ((x.actors live).map fun l => (l, ea l, n, n)) s0 [] with
      | .later s => s
      | .poison a => s0.consume x a
      | .done s cs =>
        match storesPoison (fun l => anyPsn (data x s0 l)) cs with
        | some l => s0.consume x (ea l)
        | none =>
          let r := cs.foldl (fun (a : State × List Out) c =>
            let r := act x a.1 c.lane c
            (r.1, a.2 ++ [⟨c.lane, r.2, [], 0, none⟩])) (s.drainReleases x f.order f.scope acc cs, [])
          ((r.1.ntForget x cs).finishLong x (x.mirror r.2) nres (some f.sa) f.dst [] [] false).takeTraps x.key x.pc x.opc strict

/-- R216: `ld.nt`. -/
def execLdNt (c : Common) (f : FmtM) (s : State) : Host.Outcome State Fault Refusal :=
  memNt (.ldNt c f) s f [f.sa] 2 .read (fun _ _ _ => [])
    fun x s l k => match k with
      | .pass _ ps =>
        let r := s.readPieces x l (f.hint == 1) ps
        (r.1, [(0, false), (extend f.sgn r.2.1, r.2.2)])
      | k => (s, [(word (ntStatus k), false), (0, false)])

/-- R216: `st.nt`. -/
def execStNt (c : Common) (f : FmtM) (s : State) : Host.Outcome State Fault Refusal :=
  memNt (.stNt c f) s f (storeCodes f) 1 .write (fun x s l => s.storeData x f l)
    fun x s l k => match k with
      | .pass _ ps =>
        (s.writeElems x l (s.storeData x f l) ps, [(0, false)])
      | k => (s, [(word (ntStatus k), false)])

/-! ### Compress-store and expand-load (R217, R428) -/

/-- What stopped a run of elements: nothing, a page fault, a trap, poison, a wait. -/
inductive Stop where
  | none
  | pageFault (va space : Nat) (ats : Bool)
  | trap (cause : Nat)
  | poison
  | later (s : State)

/-- Stores the elements of `st.cmp` in ascending rank from `r` on: (rank, lane) pairs. A store to an NSO page is a release
(R198). Answers the state, the rank reached and what stopped it. -/
def State.cmpElems (x : Ctx) (f : FmtM) (b : Word) : List (Nat × Nat) → State → State × Nat × Stop
  | [], s => (s, 0, .none)
  | (r, l) :: rest, s =>
    let n := widthBytes f.width
    let a := b + word (r * n)
    let d := s.storeData x f l
    match s.access x f.space.toNat l a n n .write with
    | .ok s ps =>
      let ks := ps.map fun p => kindOf [p]
      let s := if ks.contains 1 then s.drainWcb x.key l else s
      if ks.contains 4 then (s, r, .trap 6)
      else if anyPsn d && ks.contains 3 then (s, r, .poison)
      else State.cmpElems x f b rest (s.writeElems x l d ps)
    | .pageFault va sp ats => (s, r, .pageFault va sp ats)
    | .trap c => (s, r, .trap c)
    | .poison => (s, r, .poison)
    | .later s => (s, r, .later s)

/-- Records a resume point of a group, and answers it; where another stream occupies the group's one, nothing is recorded, and
the issue replays from rank 0 (R217). -/
def State.recordPoint (s : State) (key : Nat) (p : Resume) : State × Option Resume :=
  if ((s.group? key).bind fun g => g.resume).isSome then (s, none)
  else (s.modGroup key fun g => { g with resume := some p }, some p)

/-- R217, R428: `st.cmp`. An issue whose element must wait for its translation keeps its place like one that parks. -/
def execStCmp (c : Common) (f : FmtM) (s : State) : Host.Outcome State Fault Refusal :=
  frame (.stCmp c f) s fun x s0 =>
    let strict := s0.strictTraps x (storeCodes f)
    let point := match x.g.resume with
      | some r => if r.pc == x.pc && (r.mask &&& x.mask) != 0 then some r else none
      | none => none
    let s1 := match point with
      | some _ => s0.modGroup x.key fun g => { g with resume := none }
      | none => s0
    match x.actors x.on with
    | [] => s1.finishLong x [] 1 (some f.sa) f.dst [] [] false
    | m :: _ =>
      let n := widthBytes f.width
      if !strict.isEmpty then (s0.finishLong x [] 1 (some f.sa) f.dst [] [] false).takeTraps x.key x.pc x.opc strict
      else if (s0.opnd x.g m f.sa).psn then s0.consume x (s0.ea x f m)
      else if x.pairsDiffer (fun l => (s0.ea x f l, false) :: dataKey (s0.storeData x f l)) then s0.mismatchAt x f (s0.ea x f)
      else
        let ranked := match point with
          | some r => x.actors (lanesOf r.mask)
          | none => x.actors x.on
        let first := match point with
          | some r => r.rank
          | none => 0
        let b := match point with
          | some r => r.base
          | none => s0.ea x f m
        if b.toNat % n ≠ 0 then
          (s1.finishLong x [] 1 (some f.sa) f.dst [] [] false).takeTraps x.key x.pc x.opc (x.on.map fun l => ⟨l, 5, 0, b⟩)
        else
          let elems := (withIdx ranked).filter fun e => first ≤ e.1 && x.on.contains e.2
          let r := State.cmpElems x f b elems
            (if 2 ≤ f.order.toNat ∧ f.scope = 5 then x.on.foldl (fun s l => s.drainWcb x.key l) s1 else s1)
          let done := fun (s : State) (o : List Out) => s.finishLong x o 1 (some f.sa) f.dst [] [] false
          match r.2.2 with
          | .none => done r.1 (x.on.map fun l => ⟨l, [(word ranked.length, false)], [], 0, none⟩)
          | .later s => (s.recordPoint x.key ⟨maskOf fun l => ranked.contains l, b, r.2.1, x.pc⟩).1
          | .poison => r.1.consume x (b + word (r.2.1 * n))
          | .trap cause => (done r.1 []).takeTraps x.key x.pc x.opc
              (x.on.map fun l => ⟨l, cause, 0, b + word (r.2.1 * n)⟩)
          | .pageFault va sp ats =>
            let q := (done r.1 []).recordPoint x.key ⟨maskOf fun l => ranked.contains l, b, r.2.1, x.pc⟩
            q.1.parkFaults x .write (x.on.map fun l => .fault l va sp ats (b + word (r.2.1 * n))) q.2

/-- R217: `ld.exp`. -/
def execLdExp (c : Common) (f : FmtM) (s : State) : Host.Outcome State Fault Refusal :=
  frame (.ldExp c f) s fun x s0 =>
    let strict := s0.strictTraps x [f.sa]
    match x.actors x.on with
    | [] => s0.finishLong x [] 1 (some f.sa) f.dst [] [] false
    | m :: _ =>
      let n := widthBytes f.width
      let b := s0.ea x f m
      let done := fun (s : State) (o : List Out) => s.finishLong x o 1 (some f.sa) f.dst [] [] false
      if !strict.isEmpty then (done s0 []).takeTraps x.key x.pc x.opc strict
      else if (s0.opnd x.g m f.sa).psn then s0.consume x b
      else if x.pairsDiffer (fun l => [(s0.ea x f l, false)]) then s0.mismatchAt x f (s0.ea x f)
      else if b.toNat % n ≠ 0 then
        (done s0 []).takeTraps x.key x.pc x.opc (x.on.map fun l => ⟨l, 5, 0, b⟩)
      else
        let elems := (withIdx (x.actors x.on)).map fun e => (e.2, b + word (e.1 * n), n, n)
        match State.checkAll x f.space.toNat .read elems s0 [] with
        | .later s => s
        | .poison a => s0.consume x a
        | .done s cs =>
          let addr := fun l => ((elems.find? fun e => e.1 == l).map fun e => e.2.1).getD b
          let cs := denyKinds [4] addr cs
          match cs.find? fun k => match k with
            | .pass _ _ => false
            | _ => true with
          | some (.fault _ va sp ats a) => (done s []).parkFaults x .read (x.on.map fun l => .fault l va sp ats a)
          | some (.trap t) => (done s []).takeTraps x.key x.pc x.opc (x.on.map fun l => { t with lane := l })
          | _ =>
            let r := performAll (fun s l ps =>
              let q := s.readPieces x l (f.hint == 1) ps
              (q.1, [(extend f.sgn q.2.1, q.2.2)])) (passed cs) s []
            done r.1 (x.mirror r.2)

/-! ### Prefetch and L1 control (R218, R219) -/

/-- Places in L1 the line that holds a global address, if it is L1-eligible (R218). -/
def State.l1Fill (s : State) (x : Ctx) (va : Nat) : State :=
  match s.tenant? x.ln.tenant with
  | some t =>
    match s.walk t.root va with
    | some l =>
      if va < 2 ^ 48 && l.rd && l.l1v && (l.kind = 0 || l.kind = 2) && !l.cmp && !l.psn && !bit l.e 55 &&
          !s.foreign x.ln.tenant (l.pa va) then
        ((s.viewAs (l.pa va / 4096) l.key).l1Read x.core x.ln.tenant (va / 64) (l.pa va) 1).1
      else s
    | none => s
  | none => s

/-- R218: `pf`. It changes no architectural state but the L1 lines that `.keep` places. -/
def execPf (c : Common) (f : FmtM) (s : State) : Host.Outcome State Fault Refusal :=
  frame (.pf c f) s fun x s =>
    let strict := s.strictTraps x [f.sa]
    let live := x.on.filter fun l => !strict.any fun t => t.lane == l
    if live.any fun l => (s.opnd x.g l f.sa).psn then
      s.consume x (((live.find? fun l => (s.opnd x.g l f.sa).psn).map (s.ea x f)).getD 0)
    else if x.pairsDiffer (fun l => [(s.ea x f l, false)]) then s.mismatchAt x f (s.ea x f)
    else
      let s1 := if f.hint = 3 && f.space = 0 then live.foldl (fun s' l => s'.l1Fill x (s.ea x f l).toNat) s else s
      ((s1.finish x (live.map fun l => ⟨l, [], [], 0, none⟩) 0 (some f.sa) 0 [] 0)).takeTraps x.key x.pc x.opc strict

/-- R218: `pf.k`: one range per issue. -/
def execPfK (c : Common) (f : FmtM) (s : State) : Host.Outcome State Fault Refusal :=
  frame (.pfK c f) s fun x s =>
    let l0 := ((lanesOf x.mask).head?).getD 0
    if (s.opnd x.g l0 f.sa).psn then s.consume x (s.ea x f l0)
    else if x.pairsDiffer (fun _ => []) then s.mismatchAt { x with on := x.on.take 1 } f (s.ea x f)
    else
      let strict := s.strictTraps x [f.sa, f.sd]
      let live := x.on.filter fun l => !strict.any fun t => t.lane == l
      let a := (s.ea x f l0).toNat
      let n := min (s.opnd x.g l0 f.sd).val.toNat (2 ^ 20)
      let s1 := if f.hint = 3 && !live.isEmpty && n ≠ 0 then
          (List.range ((a + n - 1) / 64 - a / 64 + 1)).foldl (fun s i => s.l1Fill x ((a / 64 + i) * 64)) s else s
      (s1.finish x (live.map fun l => ⟨l, [], [], 0, none⟩) 0 (some f.sa) 0 [] 0).takeTraps x.key x.pc x.opc strict

/-- R219: `l1.inv`, once per issue that has a guard-true lane. -/
def execL1Inv (c : Common) (f : FmtM) (s : State) : Host.Outcome State Fault Refusal :=
  plainFrame (.l1Inv c f) s fun x s =>
    if x.pairsDiffer (fun _ => []) then s.mismatch x 0 []
    else
      let s := if x.on.isEmpty then s else s.modCore x.core fun k => { k with l1 := [] }
      s.finishLong x (x.on.map fun l => ⟨l, [], [], 0, none⟩) 0 (some f.sa) 0 [] [] false

/-- The word of `xlat.pf` for a leaf (R219): permissions may be narrowed by ATS. -/
def xlatWord (l : Leaf) (size : Nat) (rd wr ex : Bool) : Word :=
  word (b2n l.psn * 2 ^ 13 + b2n (bit l.e 53) * 2 ^ 12 + b2n l.cmp * 2 ^ 11 + l.kind * 2 ^ 8 + b2n ex * 2 ^ 7 +
    b2n wr * 2 ^ 6 + b2n rd * 2 ^ 5 + size * 4)

/-- The size of a leaf as `xlat.pf` reports it: a 64 KiB run only where the walker caches one (R189, R219). -/
def State.leafSize (s : State) (l : Leaf) : Nat :=
  if l.shift = 30 then 3 else if l.shift = 21 then 2 else if l.run64 && s.runOk l then 1 else 0

/-- What `xlat.pf` pushes for one address; none while it waits on ATS or on a splinter. -/
def State.xlatOf (s : State) (x : Ctx) (space : Nat) (va : Nat) : State × Option Word :=
  if space = 0 then
    if 2 ^ 48 ≤ va then (s, some 1)
    else match s.tenant? x.ln.tenant with
      | none => (s, some 1)
      | some t => match s.walk t.root va with
        | none => (s, some 1)
        | some l =>
          if bit l.e 55 then (s, none)
          else (s, some (if trustedBase ≤ l.pa va then 2 else xlatWord l (s.leafSize l) l.rd l.wr l.ex))
  else
    match s.pasidOf x.ln with
    | none => (s, some 1)
    | some pasid =>
      match s.ats (dieOf x.core) pasid (va / 4096) with
      | .waiting s => (s, none)
      | .notPresent => (s, some 1)
      | .failed => (s, some 1)
      | .hit hpa rd wr =>
        match s.tsaOf (hpa + va % 4096), s.hostTenant with
        | some tsa, some (_, t) =>
          match s.walk t.hostTable tsa with
          | none => (s, some 1)
          | some l =>
            if bit l.e 55 then (s, none)
            else (s, some (if trustedBase ≤ l.pa tsa then 2 else xlatWord l (s.leafSize l) (l.rd && rd) (l.wr && wr) false))
        | _, _ => (s, some 1)

/-- Forgets the Translation Requests of some addresses that gave no translation, once every lane has its word (R429). -/
def State.atsSpent (s : State) (x : Ctx) (space : Nat) (vas : List Nat) : State :=
  match s.pasidOf x.ln with
  | some pasid =>
    if space = 0 then s
    else vas.foldl (fun (s : State) va =>
      if s.mem.atsReqs.any fun r => r.die == dieOf x.core && r.pasid == pasid && r.page == va / 4096 && r.answer.isSome then
        s.atsForget (dieOf x.core) pasid (va / 4096)
      else s) s
  | none => s

/-- R219: `xlat.pf`. -/
def execXlatPf (c : Common) (f : FmtM) (s : State) : Host.Outcome State Fault Refusal :=
  frame (.xlatPf c f) s fun x s0 =>
    let strict := s0.strictTraps x [f.sa]
    let live := x.on.filter fun l => !strict.any fun t => t.lane == l
    if live.any fun l => (s0.opnd x.g l f.sa).psn then
      s0.consume x (((live.find? fun l => (s0.opnd x.g l f.sa).psn).map (s0.ea x f)).getD 0)
    else if x.pairsDiffer (fun l => [(s0.ea x f l, false)]) then s0.mismatchAt x f (s0.ea x f)
    else
      let r := live.foldl (fun (a : State × List (Nat × Option Word)) l =>
        let q := a.1.xlatOf x f.space.toNat (s0.ea x f l).toNat
        (q.1, a.2 ++ [(l, q.2)])) (s0, [])
      if r.2.any fun e => e.2.isNone then r.1
      else
        let s1 := r.1.atsSpent x f.space.toNat (live.map fun l => (s0.ea x f l).toNat)
        (s1.finishLong x (r.2.map fun e => ⟨e.1, [(e.2.getD 0, false)], [], 0, none⟩) 1 (some f.sa) f.dst [] [] false).takeTraps
          x.key x.pc x.opc strict

end Sys2Proof.Machine
end

