-- ==== Sys2Proof/Machine/Atomic.lean ====
section
/-! DEFINITION. Atomics, `red`, `fence`, `wait` and `wake`: opcodes 0xA0 to 0xAF
(spec/10_memory_instructions.md R220 to R230). -/

namespace Sys2Proof.Machine

/-! ### The new value of an atomic (R221 to R223) -/

/-- The operations, coded as the low digit of the opcode and as DST of `red` (R221, R224). -/
inductive AtomOp where
  | add | min | max | and | or | xor | xchg | inc | fadd | fmin | fmax
  deriving DecidableEq, Repr

/-- The floating type of an atomic (R223). -/
def atomFmt (w : Nat) (sgn : Bool) : FFmt :=
  match w with
  | 16 => if sgn then fmtBf16 else fmtF16
  | 32 => fmtF32
  | _ => fmtF64

/-- The new value from the old value o and the data v, both of w bits. -/
def atomNew (op : AtomOp) (w : Nat) (sgn : Bool) (o v : Nat) : Nat :=
  let m := atomFmt w sgn
  let less := if sgn then signedOf w o < signedOf w v else o < v
  match op with
  | .add => (o + v) % 2 ^ w
  | .min => if less then o else v
  | .max => if less then v else o
  | .and => Nat.land o v
  | .or => Nat.lor o v
  | .xor => Nat.xor o v
  | .xchg => v
  | .inc => if v ≤ o then 0 else o + 1
  | .fadd => (m.add 0 false (m.read false o) (m.read false v)).1
  | .fmin => (m.minmax false (m.read false o) (m.read false v)).1
  | .fmax => (m.minmax true (m.read false o) (m.read false v)).1

/-- Whether an operation's result is a floating type. -/
def AtomOp.floating (op : AtomOp) : Bool := op = .fadd || op = .fmin || op = .fmax

/-- The lanes that passed and whose location holds a poisoned old value (R382). -/
def State.oldPoison (s : State) (x : Ctx) (cs : List LaneChk) : Option Nat :=
  (passed cs).findSome? fun p => if (s.readPieces x p.1 true p.2).2.2 then some p.1 else none

/-- The frame of the atomics (R208 to R211, R220, R382): every lane's checks, consumption of poisoned operands and old
values, then one RMW per lane in ascending order. `rmw` gives the bytes to write and the results pushed from the old
bytes. -/
def atomInstr (i : Instr) (s : State) (f : FmtM) (codes : List (BitVec 6)) (nres : Nat) (dst : BitVec 6)
    (rmw : Ctx → State → Nat → List Byte → Option (List Byte) × List Word) : Host.Outcome State Fault Refusal :=
  frame i s fun x s0 =>
    let n := widthBytes f.width
    let strict := s0.strictTraps x codes
    let ea := s0.ea x f
    let live := x.on.filter fun l => !strict.any fun t => t.lane == l
    let vals := fun l => codes.map fun c => ((s0.opnd x.g l c).val, (s0.opnd x.g l c).psn)
    if live.any fun l => (vals l).any fun v => v.2 then s0.consume x ((live.head?.map ea).getD 0)
    else if x.pairsDiffer fun l => (ea l, false) :: vals l then s0.mismatchAt x f ea
    else
      match State.checkAll x f.space.toNat .rmw ((x.actors live).map fun l => (l, ea l, n, n)) s0 [] with
      | .later s => s
      | .poison a => s0.consume x a
      | .done s cs =>
        let cs := denyKinds [3, 4] ea cs
        match s.oldPoison x cs with
        | some l => s0.consume x (ea l)
        | none =>
          let r := performAll (fun s l ps =>
            let s := s.recallPieces ps
            let old := (s.readPieces x l true ps).2.1
            let q := rmw x s0 l old
            ((match q.1 with
              | some b => s.writePieces x l false ps b
              | none => s), q.2.map fun v => (v, false))) (passed cs) (s.drainReleases x f.order f.scope .rmw cs) []
          let s := r.1.finishLong x (x.mirror r.2) nres (some f.sa) dst [] [] false
          (s.takeTraps x.key x.pc x.opc (strict ++ trapsOf x cs)).parkFaults x .rmw cs

/-- The value pushed: sign-extended for a signed integer type, otherwise zero-extended (R220). -/
def atomPush (op : AtomOp) (w : Nat) (sgn : Bool) (o : Nat) : Word :=
  if sgn && !op.floating then sextW w o else word o

/-- One RMW of an operation with its data. -/
def atomRmw (op : AtomOp) (f : FmtM) (x : Ctx) (s : State) (l : Nat) (old : List Byte) :
    Option (List Byte) × List Word :=
  let n := widthBytes f.width
  let o := leNat old
  let v := (s.opnd x.g l f.sd).val.toNat % 2 ^ (8 * n)
  (some (leBytes n (atomNew op (8 * n) (f.sgn = 1) o v)), [atomPush op (8 * n) (f.sgn = 1) o])

/-- An atomic with a result. -/
def atom (i : Instr) (s : State) (f : FmtM) (op : AtomOp) : Host.Outcome State Fault Refusal :=
  atomInstr i s f [f.sa, f.sd] 1 f.dst (atomRmw op f)

/-- R221: `atom.add`. -/
def execAtomAdd (c : Common) (f : FmtM) (s : State) : Host.Outcome State Fault Refusal := atom (.atomAdd c f) s f .add
/-- R221: `atom.min`. -/
def execAtomMin (c : Common) (f : FmtM) (s : State) : Host.Outcome State Fault Refusal := atom (.atomMin c f) s f .min
/-- R221: `atom.max`. -/
def execAtomMax (c : Common) (f : FmtM) (s : State) : Host.Outcome State Fault Refusal := atom (.atomMax c f) s f .max
/-- R221: `atom.and`. -/
def execAtomAnd (c : Common) (f : FmtM) (s : State) : Host.Outcome State Fault Refusal := atom (.atomAnd c f) s f .and
/-- R221: `atom.or`. -/
def execAtomOr (c : Common) (f : FmtM) (s : State) : Host.Outcome State Fault Refusal := atom (.atomOr c f) s f .or
/-- R221: `atom.xor`. -/
def execAtomXor (c : Common) (f : FmtM) (s : State) : Host.Outcome State Fault Refusal := atom (.atomXor c f) s f .xor
/-- R221: `atom.xchg`. -/
def execAtomXchg (c : Common) (f : FmtM) (s : State) : Host.Outcome State Fault Refusal := atom (.atomXchg c f) s f .xchg
/-- R221: `atom.inc`. -/
def execAtomInc (c : Common) (f : FmtM) (s : State) : Host.Outcome State Fault Refusal := atom (.atomInc c f) s f .inc
/-- R223: `atom.fadd`. -/
def execAtomFadd (c : Common) (f : FmtM) (s : State) : Host.Outcome State Fault Refusal := atom (.atomFadd c f) s f .fadd
/-- R223: `atom.fmin`. -/
def execAtomFmin (c : Common) (f : FmtM) (s : State) : Host.Outcome State Fault Refusal := atom (.atomFmin c f) s f .fmin
/-- R223: `atom.fmax`. -/
def execAtomFmax (c : Common) (f : FmtM) (s : State) : Host.Outcome State Fault Refusal := atom (.atomFmax c f) s f .fmax

/-- R222: `atom.cas`. A CAS that fails writes back the old value. -/
def execAtomCas (c : Common) (f : FmtM) (s : State) : Host.Outcome State Fault Refusal :=
  let n := widthBytes f.width
  let k := if f.width = 4 then 4 else 2
  let codes := (List.range k).map fun j => f.sd + BitVec.ofNat 6 j
  atomInstr (.atomCas c f) s f (f.sa :: codes) (if f.width = 4 then 2 else 1) f.dst fun x s l old =>
    let r := fun j => (s.opnd x.g l (f.sd + BitVec.ofNat 6 j)).val.toNat
    let o := leNat old
    let e := if f.width = 4 then r 0 + r 1 * 2 ^ 64 else r 0 % 2 ^ (8 * n)
    let v := if f.width = 4 then r 2 + r 3 * 2 ^ 64 else r 1 % 2 ^ (8 * n)
    (some (if o = e then leBytes n v else old),
      if f.width = 4 then [word o, word (o / 2 ^ 64)] else [word o])

/-- R224: `red`: the atomic that DST names, without a result. -/
def execRed (c : Common) (f : FmtM) (s : State) : Host.Outcome State Fault Refusal :=
  let op : AtomOp := match f.dst.toNat with
    | 0 => .add
    | 1 => .min
    | 2 => .max
    | 3 => .and
    | 4 => .or
    | 5 => .xor
    | 8 => .inc
    | 9 => .fadd
    | 10 => .fmin
    | _ => .fmax
  atomInstr (.red c f) s f [f.sa, f.sd] 0 0 fun x s l old => ((atomRmw op f x s l old).1, [])

/-! ### `fence` (R225) -/

/-- R225: `fence`. -/
def execFence (c : Common) (f : FmtM) (s : State) : Host.Outcome State Fault Refusal :=
  plainFrame (.fence c f) s fun x s =>
    if x.pairsDiffer fun _ => [] then s.mismatch x 0 []
    else
      let s := if 2 ≤ f.order.toNat ∧ f.scope = 5 then x.on.foldl (fun s l => s.drainWcb x.key l) s else s
      s.finishLong x (x.on.map fun l => ⟨l, [], [], 0, none⟩) 0 (some f.sa) 0 [] [] false

/-! ### The wake table (R226 to R229) -/

/-- Entries of a wake-table slice (R12, R226). -/
def sliceEntries : Nat := 16384

/-- The slice of a key or cell (R226). -/
def sliceOf (key : Nat) : Nat := key / 4096 % 4

/-- Whether the slice of an address is full. -/
def State.sliceFull (s : State) (key : Nat) : Bool :=
  sliceEntries ≤ (s.mem.waiters.filter fun w => sliceOf w.key == sliceOf key && w.status.isNone).length

/-- The tenant and tenant-space address that a key's address names (R226). -/
def State.keyOf (s : State) (x : Ctx) (space : Nat) (va : Nat) : Nat × Nat :=
  if space = 4 then ((s.hostTenant.map fun t => t.1).getD 0, s.hvKey x.ln (dieOf x.core) va) else (x.ln.tenant, va)

/-- Enters a waiter at the tail. -/
def State.enter (s : State) (w : Waiter) : State := { s with mem := { s.mem with waiters := s.mem.waiters ++ [w] } }

/-- Removes a lane's waiters. -/
def State.unlist (s : State) (group lane : Nat) : State :=
  { s with mem := { s.mem with waiters := s.mem.waiters.filter fun w => !(w.group == group && w.lane == lane) } }

/-- Wakes one removed entry: a swapped one keeps the status for the restore (R395). -/
def State.wakeOne (s : State) (w : Waiter) (status : Nat) : State :=
  if w.swapped then s.enter { w with status := some status }
  else s.resumePair w.group w.lane [(word status, false)] none

/-- A wake of a tenant's ring-space key releases the lanes that a full system-call ring holds (R177, R366); those
that are swapped out look again at their restore. -/
def State.signalRing (s : State) (tenant key : Nat) : State :=
  if (s.tenant? tenant).any (fun t => t.consAddr == key) then
    let mine := fun (g : Group) => ((s.team? g.team).bind fun t => s.launch? t.launch).any fun l => l.tenant == tenant
    let free := fun (g : Group) => g.mapLanes fun _ e => { e with park := { e.park with sysc := false } }.unpark
    let groups := s.work.groups.map fun e => if onCore (coreOf e.1) && mine e.2 then (e.1, free e.2) else e
    { s with work := { s.work with groups := groups } }
  else s

/-- Wakes up to n waiters of a key, in order of entry, all for n = 0; answers how many (R228). -/
def State.wake (s : State) (tenant key n status : Nat) : State × Nat :=
  let ws := s.mem.waiters.filter fun w => !w.cell && w.tenant == tenant && w.key == key && w.status.isNone
  let ws := if n = 0 then ws else ws.take n
  let s := { s with mem := { s.mem with waiters := s.mem.waiters.filter fun w => !ws.contains w } }
  ((ws.foldl (fun s w => s.wakeOne w status) s).signalRing tenant key, ws.length)

/-- Recalls the host's copies of a key's line, where the host may hold one (R228). -/
def State.recallLine (s : State) (tenant key : Nat) : State :=
  if s.hostTenant.any fun t => t.1 == tenant then s.say (.backInvalidate (key / 64 * 64)) else s

/-- What the passing lanes of a `wait` do, in ascending order: the lanes that do not wait with their status, and those
that wait. -/
def State.waitLanes (x : Ctx) (f : FmtM) (s0 : State) : List (Nat × List (Loc × Nat)) → State →
    List Out → List (Nat × Wait) → State × List Out × List (Nat × Wait)
  | [], s, outs, ws => (s, outs.reverse, ws.reverse)
  | (l, ps) :: rest, s, outs, ws =>
    let a := s0.ea x f l
    let k := s.keyOf x f.space.toNat a.toNat
    let w := 8 * widthBytes f.width
    let v := leNat (s.readPieces x l true ps).2.1
    let out := fun (st : Word) => (⟨l, [(st, false)], [], 0, none⟩ : Out)
    if f.sgn = 1 && v != (s0.opnd x.g l f.sd).val.toNat % 2 ^ w then State.waitLanes x f s0 rest s (out 1 :: outs) ws
    else if s.sliceFull k.2 then State.waitLanes x f s0 rest s (out 3 :: outs) ws
    else State.waitLanes x f s0 rest (s.enter ⟨k.2, k.1, x.key, l, false, 0xAE, f.scope.toNat, 0, false, none⟩) outs
      ((l, ⟨.wait, a, 0, f.dst, 0, 0⟩) :: ws)

/-- Lanes that wait and lanes that complete at once, in one operation. -/
def State.settle (s : State) (x : Ctx) (ws : List (Nat × Wait)) (outs : List Out) (nres : Nat)
    (first : Option (BitVec 6)) (dst : BitVec 6) : State :=
  if ws.isEmpty then s.finishLong x outs nres first dst [] [] false
  else s.startWait x ws outs nres first dst .ready

/-- R227: `wait`. -/
def execWait (c : Common) (f : FmtM) (s : State) : Host.Outcome State Fault Refusal :=
  frame (.wait c f) s fun x s0 =>
    let n := widthBytes f.width
    let strict := s0.strictTraps x (if f.sgn = 1 then [f.sa, f.sd] else [f.sa])
    let ea := s0.ea x f
    let live := x.on.filter fun l => !strict.any fun t => t.lane == l
    if live.any fun l => (s0.opnd x.g l f.sa).psn || (f.sgn = 1 && (s0.opnd x.g l f.sd).psn) then
      s0.consume x ((live.head?.map ea).getD 0)
    else if x.pairsDiffer fun l => (ea l, false) :: if f.sgn = 1 then [((s0.opnd x.g l f.sd).val, false)] else [] then s0.mismatchAt x f ea
    else
      match State.checkAll x f.space.toNat .rmw ((x.actors live).map fun l => (l, ea l, n, n)) s0 [] with
      | .later s => s
      | .poison a => s0.consume x a
      | .done s cs =>
        let cs := denyKinds [3, 4] ea cs
        match s.oldPoison x cs with
        | some l => s0.consume x (ea l)
        | none =>
          let r := State.waitLanes x f s0 (passed cs) s [] []
          let twins := fun (l : Nat) => x.ln.paired && x.on.contains (l + 16)
          let ws := r.2.2 ++ (r.2.2.filter fun w => twins w.1).map fun w => (w.1 + 16, w.2)
          let s := r.1.settle x ws (x.mirror r.2.1) 1 (some f.sa) f.dst
          (s.takeTraps x.key x.pc x.opc (strict ++ trapsOf x cs)).parkFaults x .rmw cs

/-- R228: `wake`. -/
def execWake (c : Common) (f : FmtM) (s : State) : Host.Outcome State Fault Refusal :=
  frame (.wake c f) s fun x s0 =>
    let strict := s0.strictTraps x [f.sa, f.sd]
    let ea := s0.ea x f
    let live := x.on.filter fun l => !strict.any fun t => t.lane == l
    if live.any fun l => (s0.opnd x.g l f.sa).psn || (s0.opnd x.g l f.sd).psn then
      s0.consume x ((live.head?.map ea).getD 0)
    else if x.pairsDiffer fun l => [(ea l, false), ((s0.opnd x.g l f.sd).val, false)] then s0.mismatchAt x f ea
    else
      match State.checkAll x f.space.toNat .read ((x.actors live).map fun l => (l, ea l, 1, 1)) s0 [] with
      | .later s => s
      | .poison a => s0.consume x a
      | .done s cs =>
        let cs := denyKinds [3, 4] ea cs
        let r := performAll (fun s l _ =>
          let k := s.keyOf x f.space.toNat (ea l).toNat
          let q := s.wake k.1 k.2 (s0.opnd x.g l f.sd).val.toNat 0
          (q.1.recallLine k.1 k.2, [(word q.2, false)])) (passed cs) (s.drainReleases x f.order f.scope .read cs) []
        let s := r.1.finishLong x (x.mirror r.2) 1 (some f.sa) f.dst [] [] false
        (s.takeTraps x.key x.pc x.opc (strict ++ trapsOf x cs)).parkFaults x .read cs

end Sys2Proof.Machine
end

