-- ==== Sys2Proof/Machine/Px.lean ====
section
/-! DEFINITION. The px block formats, conversion into them, and their dense and canonical layouts
(spec/06_number_formats.md R123 to R128). -/

namespace Sys2Proof.Machine

/-- Magnitude bits M of a px type code (R123). -/
def pxM (t : Nat) : Nat := if t = 0x12 then 2 else if t = 0x13 then 4 else 7

/-- Elements K of an operand row (R127). -/
def pxK (t : Nat) : Nat := if t = 0x12 then 384 else if t = 0x13 then 256 else 192

/-- Container bits (R127). -/
def pxC (t : Nat) : Nat := if t = 0x12 then 4 else if t = 0x13 then 6 else 8

/-- Bytes of a dense block (R125). -/
def pxDense (t : Nat) : Nat := 4 + 2 * pxM t

/-- The px type that DFMT names (R253). -/
def pxOf (dfmt : Nat) : Nat := if dfmt = 0 then 0x14 else if dfmt = 1 then 0x13 else 0x12

/-- A block: its scale word and 16 element fields (R123, R124). -/
structure PxBlock where
  scale : Nat
  els : List Nat
  deriving DecidableEq, Repr

namespace PxBlock

def e (b : PxBlock) : Nat := b.scale % 256
def isNan (b : PxBlock) : Bool := b.e = 255
def mu (b : PxBlock) (i : Nat) : Nat := b.scale / 2 ^ (8 + i / 2) % 2
/-- The NaN block that stands for an offending one (R126). -/
def nan : PxBlock := ⟨255, List.replicate 16 0⟩

/-- The value of element i; +0 for a zero magnitude whatever its sign (R123). -/
def value (t : Nat) (b : PxBlock) (i : Nat) : FNum :=
  let f := b.els.getD i 0 % 2 ^ (pxM t + 1)
  let m := f % 2 ^ pxM t
  if b.isNan then .nan false
  else .fin (m != 0 && f.testBit (pxM t)) m ((b.e : Int) - 127 - b.mu i - pxM t)

/-- The dense form of a block (R125). -/
def dense (t : Nat) (b : PxBlock) : List Byte :=
  leBytes (pxDense t) (b.scale % 65536 +
    (withIdx b.els).foldl (fun n e => n + e.2 % 2 ^ (pxM t + 1) * 2 ^ (16 + (1 + pxM t) * e.1)) 0)

/-- A block from its dense form. -/
def ofDense (t : Nat) (bs : List Byte) : PxBlock :=
  let n := leNat bs
  ⟨n % 65536, (List.range 16).map fun i => n / 2 ^ (16 + (1 + pxM t) * i) % 2 ^ (1 + pxM t)⟩

end PxBlock

/-- A magnitude times 2^t rounded to an integer with ties to even. -/
def rneScaled (a : FNum) (t : Int) : Nat :=
  match a with
  | .fin _ m e => (roundMag 0 false m (e + t) 0 false).1
  | _ => 0

/-- Whether the magnitude of a is below that of b. -/
def FNum.magLt (a b : FNum) : Bool := Dy.lt (Dy.abs a.dy) (Dy.abs b.dy)

/-- The element of largest magnitude, the lowest-numbered of several. -/
def largest (xs : List FNum) : Nat :=
  (withIdx xs).foldl (fun b e => if (xs.getD b (.fin false 0 0)).magLt e.2 then e.1 else b) 0

/-- Converts 16 values into a block (R126): the block, the offending element (R409) and the underflows. A block that offends by its
exponent counts no underflow, which R126 does not say (DESIGN CHOICE, log entry 49). -/
def toPx (t : Nat) (xs : List FNum) : PxBlock × Option Nat × Nat :=
  let M : Int := pxM t
  let isOff := fun (x : FNum) => x.isNan || x.isInf
  match (withIdx xs).find? fun e => isOff e.2 with
  | some (i, _) => (PxBlock.nan, some i, 0)
  | none =>
    let k := largest xs
    let a := xs.getD k (.fin false 0 0)
    let top : Nat := 2 ^ pxM t - 1
    let E0 : Int := match a with
      | .fin _ m e => if m = 0 then 0 else max (expOf m e + 128) 0
      | _ => 0
    let E := if top < rneScaled a (M + 127 - E0) then E0 + 1 else E0
    if 255 ≤ E then (PxBlock.nan, some k, 0)
    else
      let mus := (List.range 8).map fun p =>
        let tooBig := fun i => decide (top < rneScaled (xs.getD i (.fin false 0 0)) (M + 128 - E))
        if tooBig (2 * p) || tooBig (2 * p + 1) then 0 else 1
      let els := (withIdx xs).map fun e =>
        let m := rneScaled e.2 (M + 127 - E + (mus.getD (e.1 / 2) 0 : Nat))
        (m, m + b2n (m != 0 && e.2.neg) * 2 ^ pxM t, !e.2.isZero && m = 0)
      (⟨E.toNat + (withIdx mus).foldl (fun n e => n + e.2 * 2 ^ (8 + e.1)) 0, els.map fun e => e.2.1⟩, none,
        (els.filter fun e => e.2.2).length)

/-- The 192 bytes of a canonical operand row (R127). -/
def canonRow (t : Nat) (bs : List PxBlock) : List Byte :=
  leBytes 192 ((withIdx bs).foldl (fun n b => n + (withIdx b.2.els).foldl (fun n e =>
    n + e.2 % 2 ^ (pxM t + 1) * 2 ^ (pxC t * (16 * b.1 + e.1))) 0) 0)

/-- The 48 bytes of a scale row (R127). -/
def scaleRow (bs : List PxBlock) : List Byte :=
  (bs.flatMap fun b => leBytes 2 b.scale) ++ List.replicate (48 - 2 * bs.length) 0

/-- The blocks of a canonical row from its operand row and scale row. -/
def ofCanon (t : Nat) (row scales : List Byte) : List PxBlock :=
  let n := leNat row
  (List.range (pxK t / 16)).map fun b =>
    ⟨leNat ((scales.drop (2 * b)).take 2),
      (List.range 16).map fun i => n / 2 ^ (pxC t * (16 * b + i)) % 2 ^ (pxM t + 1)⟩

/-- Storage formats of a tensor (R248). -/
def storageFmts : List Nat := [0x0C, 0x0D, 0x0E, 0x10, 0x11, 0x12, 0x13, 0x14]

/-- Whether a type is a px format. -/
def isPx (t : Nat) : Bool := 0x12 ≤ t && t ≤ 0x14

/-- Bytes of a run of n elements, a multiple of 16 for a px format. -/
def fmtBytes (t n : Nat) : Nat := if isPx t then n / 16 * pxDense t else if t = 0x0E then 4 * n else if t < 0x0E then 2 * n else n

/-- The values that a run of n elements of a storage format holds. -/
def decodeRun (t n : Nat) (bs : List Byte) : List FNum :=
  if isPx t then
    (List.range (n / 16)).flatMap fun b =>
      let blk := PxBlock.ofDense t ((bs.drop (b * pxDense t)).take (pxDense t))
      (List.range 16).map (blk.value t)
  else
    let w := fmtBytes t 1
    let m : FFmt := match t with
      | 0x0C => fmtF16
      | 0x0D => fmtBf16
      | 0x0E => fmtF32
      | 0x10 => fmtE4m3
      | _ => fmtE5m2
    (List.range n).map fun i => m.read false (leNat ((bs.drop (i * w)).take w))

end Sys2Proof.Machine
end

