-- ==== Sys2Proof/Machine/Teams.lean ====
section
/-! DEFINITION. What teams and gangs do together: placing groups, joins, membership sets and barriers, exits, gates and
lead counters, and the binner of a pool team (spec/02_execution_model.md,
spec/08_control_group_sync_instructions.md R163 to R174). -/

namespace Sys2Proof.Machine

/-! ### Code addresses (R72, R74) -/

/-- The line word of the line that a code address lies in; none where the line cannot be read as code. -/
def State.lineWord? (s : State) (tenant : Nat) (t : Word) : Option (BitVec 32) :=
  match s.xlate tenant (lineOf t) .fetch with
  | .ok s' pa _ _ => some (BitVec.ofNat 32 (s'.mem.bytes.readNat (pa + 60) 4))
  | _ => none

/-- Whether slot n of a line is marked as a target. -/
def targetBit (w : BitVec 32) (n : Nat) : Bool := w.getLsbD (27 + n)

/-- The TARGET check of a code address (R74): whether it passes, and whether it is left to the first fetch, because the
line cannot be read. -/
def State.target (s : State) (tenant : Nat) (t : Word) : Bool × Bool :=
  if !wellPlaced t then (false, false)
  else match s.lineWord? tenant t with
    | some w => (targetBit w (t.toNat % 8), false)
    | none => (true, true)

/-! ### Placing groups (R14, R24, R27, R182) -/

/-- The free group slots of a quarter of a core, lowest first. -/
def State.freeSlots (s : State) (core quarter : Nat) : List Nat :=
  ((List.range 12).map fun i => quarter * 12 + i).filter fun n => (s.group? (groupKey core n)).isNone

/-- The slot that the next group of a team on a core takes: the lowest of the quarter with the most free slots. -/
def State.freeSlot (s : State) (core : Nat) : Option Nat :=
  ((List.range 4).foldl (fun (best : List Nat) q =>
    if best.length < (s.freeSlots core q).length then s.freeSlots core q else best) []).head?

/-- The lowest segment index that no resident or swapped-out group of a launch holds (R182). -/
def State.freeSegment (s : State) (lk : Nat) : Nat :=
  let used := s.work.groups.filterMap fun e => match s.team? e.2.team with
      | some t => if t.launch = lk then some e.2.segment else none
      | none => none
  ((List.range (used.length + 1)).find? fun i => !used.contains i).getD 0

/-- A group as it is placed: k0 to k7 from the launch record, everything else zero (R27, R292). -/
def Group.fresh (tk gid segment : Nat) (ln : Launch) (lanes : List Lane) : Group :=
  { team := tk, gid := gid,
    k := (List.range 15).map fun i => ⟨if i < 8 then ln.w (8 + i) else 0, false, false, none⟩,
    flags := List.replicate 12 0, estate := Estate.fresh, resume := none, slices := List.replicate 8 Slice.fresh,
    segment := segment, rls := false, stage := .running, killed := false, killRec := none, items := [], lanes := lanes }

/-- Places a group of a team on its core; none where no slot is free. -/
def State.placeGroup (s : State) (tk gid : Nat) (lanes : List Lane) : Option State :=
  match s.team? tk with
  | some t =>
    match s.launch? t.launch, s.freeSlot t.core with
    | some ln, some slot =>
      some (s.setGroup (groupKey t.core slot) (Group.fresh tk gid (s.freeSegment t.launch) ln lanes))
    | _, _ => none
  | none => none

/-! ### Threads and waits -/

/-- The lanes of a group that have not exited. -/
def Group.live (g : Group) : List Nat := (List.range groupLanes).filter fun l => (g.lane l).status != .exited

/-- The threads of a team that have not exited, as (group key, lane). -/
def State.threads (s : State) (tk : Nat) : List (Nat × Nat) :=
  (s.groupsOf tk).flatMap fun e => e.2.live.map fun l => (e.1, l)

/-- Whether a lane waits for an object. -/
def Lane.waitsFor (e : Lane) (kind : WaitKind) (obj : Word) : Bool :=
  e.status = .waiting && e.wait.kind = kind && e.wait.obj == obj

/-- A lane by group key and number. -/
def State.laneAt (s : State) (e : Nat × Nat) : Lane := ((s.group? e.1).map fun g => g.lane e.2).getD (Lane.fresh 0)

/-- The team key, or gang, and barrier list that a barrier number names (R167). -/
def State.bar (s : State) (tk b : Nat) : Barrier :=
  match s.team? tk with
  | some t =>
    if b < 16 then t.bars.getD b Barrier.fresh
    else match s.launch? t.launch with
      | some ln => match s.gang? (gangKeyOf ln t) with
        | some g => g.bars.getD (b - 16) Barrier.fresh
        | none => Barrier.fresh
      | none => Barrier.fresh
  | none => Barrier.fresh

/-- Writes a barrier. -/
def State.setBar (s : State) (tk b : Nat) (v : Barrier) : State :=
  match s.team? tk with
  | some t =>
    if b < 16 then s.modTeam tk fun t => { t with bars := updAt (fun _ => v) b t.bars }
    else match s.launch? t.launch with
      | some ln => s.modGang (gangKeyOf ln t) fun g => { g with bars := updAt (fun _ => v) (b - 16) g.bars }
      | none => s
  | none => s

/-- The teams that a barrier counts: the team, or those of its gang. -/
def State.barTeams (s : State) (tk b : Nat) : List Nat :=
  if b < 16 then [tk]
  else match s.team? tk with
    | some t => match s.launch? t.launch with
      | some ln => (s.teamsOfGang t.launch (t.idx / ln.gangSize) ln.gangSize).map fun e => e.1
      | none => [tk]
    | none => [tk]

/-- A barrier's phase word (R167). -/
def Barrier.phaseWord (b : Barrier) : Word :=
  word (b2n b.err * 2 ^ 63 + b.arr % 2 ^ 16 * 2 ^ 32 + b.phase % 2 ^ 32)

/-- Whether PHASE is past a value, as a signed 32-bit difference (R168). -/
def Barrier.passed (b : Barrier) (v : Nat) : Bool := 0 < signedOf 32 (b.phase + 2 ^ 32 - v % 2 ^ 32)

/-- Lanes that wait on a barrier whose phase has passed return with the phase word (R168, R169). -/
def State.wakeBar (s : State) (tk b : Nat) : State :=
  let v := s.bar tk b
  let ls := ((s.barTeams tk b).flatMap s.threads).filter fun e =>
    let w := (s.laneAt e)
    (w.waitsFor .barrier (word b) || w.waitsFor .barSyncWo (word b)) && v.passed w.wait.arg.toNat
  ls.foldl (fun s e => s.resume e.1 e.2 [(v.phaseWord, false)] none) s

/-- Completes the open phase of a barrier when its count is reached: the count given by the arrival that opened it, or
the threads that have not exited (R168). A phase that a counter opened waits for a lane's count (R353). -/
def State.checkBar (s : State) (tk b : Nat) : State :=
  let v := s.bar tk b
  match v.opened with
  | some e =>
    let n := if e = 0 then ((s.barTeams tk b).map fun t => (s.threads t).length).foldl (· + ·) 0 else e
    if n ≤ v.arr then (s.setBar tk b ⟨false, 0, (v.phase + 1) % 2 ^ 32, none⟩).wakeBar tk b else s
  | none => s

/-- An arrival of n lanes, or of a counter, at a barrier. -/
def State.arrive (s : State) (tk b n : Nat) (e : Option Nat) : State :=
  let v := s.bar tk b
  let o := match v.opened with
    | some k => some k
    | none => e
  (s.setBar tk b { v with arr := v.arr + n, opened := o }).checkBar tk b

/-- A trap in lanes that wait at PCs of their own (R164). -/
def State.trapWaiting (s : State) (ls : List (Nat × Nat)) (opc cause : Nat) : State :=
  (ls.foldl (fun s e => s.unwait e.1 e.2 .active) s).trapLanes opc
    (ls.map fun e => (e.1, (s.laneAt e).pc, ⟨e.2, cause, 0, 0⟩))

/-- A join that every counted member waits in completes at one PC, and raises illegal convergence at several (R35,
R164). -/
def State.checkJoin (s : State) (members : List (Nat × Nat)) (kind : WaitKind) (obj : Word) : State × Bool :=
  match members with
  | [] => (s, false)
  | m :: _ =>
    if members.all fun e => (s.laneAt e).waitsFor kind obj then
      if members.all fun e => (s.laneAt e).pc == (s.laneAt m).pc then
        (members.foldl (fun s e => s.resume e.1 e.2 [] none) s, true)
      else (s.trapWaiting members 0x79 2, true)
    else (s, false)

/-- The members of a set, or of a part of it, that have not exited. -/
def State.setLanes (s : State) (tk : Nat) (ms : List LaneMask) : List (Nat × Nat) :=
  (s.threads tk).filter fun e => match s.group? e.1 with
    | some g => has (ms.getD g.gid 0) e.2
    | none => false

/-- Set i of a team. -/
def State.mset (s : State) (tk i : Nat) : MSet := ((s.team? tk).map fun t => t.sets.getD i MSet.fresh).getD MSet.fresh

/-- Changes set i of a team. -/
def State.modSet (s : State) (tk i : Nat) (f : MSet → MSet) : State :=
  s.modTeam tk fun t => { t with sets := updAt f i t.sets }

/-- The members that an open phase or join of a set counts (R171). -/
def MSet.counted (m : MSet) : List LaneMask := (m.members.zip m.late).map fun e => e.1 &&& ~~~ e.2

/-- Whether a `set.sync` phase or a `join.set` is open on a set. -/
def State.setOpen (s : State) (tk i : Nat) : Bool :=
  (s.threads tk).any fun e => (s.laneAt e).waitsFor .setSync (word i) || (s.laneAt e).waitsFor .joinSet (word i)

/-- Completes what is open on a set (R171, R172). -/
def State.checkSet (s : State) (tk i : Nat) : State :=
  let close := fun (s : State) => s.modSet tk i fun m => { m with late := List.replicate 16 0, masks := [] }
  let ms := s.setLanes tk (s.mset tk i).counted
  let r := s.checkJoin ms .joinSet (word i)
  let s := if r.2 then close r.1 else s
  let ms := s.setLanes tk (s.mset tk i).counted
  if !ms.isEmpty && ms.all (fun e => (s.laneAt e).waitsFor .setSync (word i)) then
    close (ms.foldl (fun s e => s.resume e.1 e.2 [] none) s)
  else if ms.isEmpty then close s else s

/-- Evaluates every join, set and barrier of a team, and its gang's barriers, as threads arrive, leave or return. -/
def State.recheck (s : State) (tk : Nat) : State :=
  let s := (s.groupsOf tk).foldl (fun s e => (s.checkJoin (e.2.live.map fun l => (e.1, l)) .join 0).1) s
  let s := (List.range 8).foldl (fun s i => s.checkSet tk i) s
  let s := (List.range 15).foldl (fun s b => s.checkBar tk b) s
  (List.range 4).foldl (fun s b => s.checkBar tk (16 + b)) s

/-! ### Exits (R44 to R46, R360) -/

/-- Lanes leave every set of their team. -/
def State.leaveSets (s : State) (tk gid : Nat) (m : LaneMask) : State :=
  s.modTeam tk fun t => { t with sets := t.sets.map fun u =>
    { u with members := updAt (fun k => k &&& ~~~ m) gid u.members, late := updAt (fun k => k &&& ~~~ m) gid u.late } }

/-- Lanes exit: they leave sets, joins and counts; a group with none left retires. -/
def State.exitLanes (s : State) (key : Nat) (m : LaneMask) : State :=
  match s.group? key with
  | some g =>
    let s := s.modGroup key fun g => g.mapLanes fun l e =>
      if has m l && e.status != .exited then { e with status := .exited, hnd := false, unchecked := false } else e
    let s := s.leaveSets g.team g.gid m
    let s := s.modGroup key fun g => if g.live.isEmpty && g.stage = .running then { g with stage := .retiring } else g
    s.recheck g.team
  | none => s

/-- Whether an exit of lanes would leave a heirless holding (R159, R246). -/
def Group.heirless (g : Group) (m : LaneMask) : Bool :=
  (g.live.all fun l => has m l) && g.estate.entries.any fun e => e.heir = 0

/-! ### Gates (R173, R300, R387) -/

/-- What a launch's gate pushes, if it is open. -/
def State.gate (s : State) (ln : Launch) : Option Bool :=
  if !ln.dep then some false
  else match ln.prev with
    | none => some ln.prevRej
    | some n => match s.work.launches.find? fun e => e.2.serial == n with
      | some (_, p) => p.opened
      | none => some ln.prevRej

/-- Lanes whose gate is open return (R173); those of a swapped-out partition do at its restore (R395). -/
def State.openGates (s : State) : State :=
  (s.work.groups.filter fun e => onCore (coreOf e.1)).foldl (fun s e =>
    match s.team? e.2.team with
    | some t => match s.launch? t.launch with
      | some ln => match s.gate ln with
        | some k => (e.2.live.filter fun l => (e.2.lane l).waitsFor .gate 0).foldl
            (fun s l => s.resume e.1 l [(word (b2n k), false)] none) s
        | none => s
      | none => s
    | none => s) s

/-- A team counts for the gates of dependent launches. The gate opens when the last does, and what it pushes is sampled then:
whether a gang or group of the launch has been killed. -/
def Launch.counted (l : Launch) (idx : Nat) : Launch :=
  let l := { l with releasedTeams := insertNat idx l.releasedTeams }
  if l.opened.isNone && l.nteam ≤ l.releasedTeams.length then { l with opened := some l.killed } else l

/-- A team counts for the gates of dependent launches: released, retired or killed. -/
def State.gateCount (s : State) (lk idx : Nat) : State := (s.modLaunch lk fun l => l.counted idx).openGates

/-- A team is released when every group of it that has not retired has issued `rls` (R173). -/
def State.checkRls (s : State) (tk : Nat) : State :=
  match s.team? tk with
  | some t => if (s.groupsOf tk).any (fun e => !e.2.rls) || (s.groupsOf tk).isEmpty then s else s.gateCount t.launch t.idx
  | none => s

/-! ### Lead counters (R174, R302) -/

/-- Whether two cores are neighbours under NBR. -/
def neighbours (nbr a b : Nat) : Bool :=
  match nbr with
  | 1 => a / 8 = b / 8 && (a % 8 ≤ b % 8 + 1 && b % 8 ≤ a % 8 + 1)
  | 2 => a / 8 = b / 8
  | _ => false

/-- The resident neighbour teams of a team; one that has retired no longer counts, though its gang keeps its scratchpad
(R174). -/
def State.neighboursOf (s : State) (tk : Nat) : List (Nat × Team) :=
  match s.team? tk with
  | some t => match s.launch? t.launch with
    | some ln => s.work.teams.filter fun e =>
        e.1 != tk && !e.2.retired && e.2.launch == t.launch && neighbours ln.nbr t.core e.2.core
    | none => []
  | none => []

/-- Whether a team may pass `lead.wait`: its counter less the smallest its neighbours are known to have, as a signed
32-bit difference, does not exceed the allowance. -/
def State.leadOk (s : State) (tk : Nat) : Bool :=
  match s.team? tk with
  | some t => match s.launch? t.launch with
    | some ln =>
      (s.neighboursOf tk).all fun e =>
        signedOf 32 (t.lead + 2 ^ 32 - (t.seen.get? e.1).getD 0) ≤ (ln.allow : Int)
    | none => true
  | none => true

/-- Lanes of a team that may pass return. -/
def State.wakeLead (s : State) (tk : Nat) : State :=
  if s.leadOk tk then
    ((s.threads tk).filter fun e => (s.laneAt e).waitsFor .leadWait 0).foldl (fun s e => s.resume e.1 e.2 [] none) s
  else s

/-! ### The binner (R37 to R42) -/

/-- The words of a continuation record (R38). -/
def ContRec.words (r : ContRec) : List Word :=
  [r.pc, 0, 0, 0] ++ (List.range 8).map (fun i => r.carry.getD i 0) ++ [r.thread, 0, 0, 0]

/-- A continuation record from its words and their poison. -/
def ContRec.ofWords (ws : List Word) (psn : List Bool) : ContRec :=
  ⟨ws.getD 0 0, (ws.drop 4).take 8, ws.getD 12 0, psn⟩

/-- The lane that a record becomes (R41). CARRY is live, so that a context image holds it. -/
def ContRec.lane (r : ContRec) (unchecked : Bool) : Lane :=
  { Lane.fresh r.pc with
    q := ⟨r.thread, r.psn.getD 12 false, .ready⟩ :: List.replicate 15 ⟨0, false, .ready⟩
    n := (List.range 32).map fun i =>
      if i < 8 then ⟨r.carry.getD i 0, r.psn.getD (4 + i) false, true, none⟩ else Reg.clear 0
    thread := r.thread, unchecked := unchecked }

/-- Records that a bin holds as a group: 32, or 16 in a paired launch (R377). -/
def binSize (ln : Launch) : Nat := if ln.paired then 16 else 32

/-- Changes the pool side of a team. -/
def State.modPool (s : State) (tk : Nat) (f : Pool → Pool) : State :=
  s.modTeam tk fun t => { t with pool := t.pool.map f }

/-- An empty bin. -/
def Bin.empty : Bin := ⟨0, [], 0, false⟩

/-- The first group of a launch is released (R296). -/
def State.started (s : State) (lk : Nat) : State :=
  s.modLaunch lk fun l => { l with tstart := if l.tstart = 0 then s.ns else l.tstart }

/-- Forms a group from a bin, where a slot of the core and a place in the team are free (R41). -/
def State.formGroup (s : State) (tk bin : Nat) : Option State :=
  match s.team? tk with
  | some t =>
    match s.launch? t.launch, t.pool with
    | some ln, some p =>
      let b := p.bins.getD bin Bin.empty
      let used := (s.groupsOf tk).map fun e => e.2.gid
      match (List.range 16).find? fun i => !used.contains i with
      | some gid =>
        if b.recs.isEmpty then none
        else
          let un := (s.target ln.tenant b.pc).2
          let lanes := (List.range groupLanes).map fun l =>
            match b.recs[if ln.paired then l % 16 else l]? with
            | some r => r.lane un
            | none => { Lane.fresh b.pc with status := .exited }
          (s.placeGroup tk gid lanes).map fun s =>
            let s := s.modPool tk fun p => { p with bins := updAt (fun _ => Bin.empty) bin p.bins }
            if t.released then s.started t.launch else s
      | none => none
    | _, _ => none
  | none => none

/-- Where record n of a pool team's spill area lies (R293). -/
def spillAddr (ln : Launch) (idx n : Nat) : Nat := ln.spillBase + 128 * ln.spillCap * idx + 128 * (n % ln.spillCap)

/-- Writes words with their poison into a tenant's space. -/
def State.devPutWords (s : State) (tenant va : Nat) (ws : List Word) (psn : List Bool) : Dev Unit :=
  match s.devMap tenant va (8 * ws.length) .write with
  | .ok s ((pa, _, _) :: _) =>
    .ok ((withIdx ws).foldl (fun s e => s.physWrite (pa + 8 * e.1) (leBytes 8 e.2.toNat) (psn.getD e.1 false)) s) ()
  | .ok s [] => .ok s ()
  | .fault va => .fault va
  | .prot => .prot
  | .poison => .poison
  | .blocked s => .blocked s

/-- A record goes to the spill area of a pool team; where its page is not present a fault record is posted, and the binner holds
the record until it is. A record that may not be written there is discarded and counted (DESIGN CHOICE, log entry 52: the spec does
not say). -/
def State.spillRec (s : State) (tk : Nat) (t : Team) (ln : Launch) (p : Pool) (r : ContRec) : State :=
  let held := fun (s : State) => s.modPool tk fun p => { p with held := p.held ++ [r] }
  if !p.held.isEmpty then held s
  else match s.devPutWords ln.tenant (spillAddr ln t.idx p.spillWr) r.words r.psn with
    | .ok s _ => s.modPool tk fun p => { p with spillWr := p.spillWr + 1 }
    | .fault va => held (s.targetFault ln.tenant va 1)
    | .blocked s => held s
    | _ => s.modLaunch t.launch fun l => { l with prej := l.prej + 1 }

/-- Whether the spill area of a pool team can take the oldest record that waits for its page. -/
def State.spillReady (s : State) (tk : Nat) : Bool :=
  match s.team? tk with
  | some t => match s.launch? t.launch, t.pool with
    | some ln, some p => match s.devMap ln.tenant (spillAddr ln t.idx p.spillWr) 128 .write with
      | .fault _ | .blocked _ => false
      | _ => true
    | _, _ => false
  | none => false

/-- The oldest record that waits for its page goes to the spill area. -/
def State.spillHeld (s : State) (tk : Nat) : State :=
  match s.team? tk with
  | some t => match s.launch? t.launch, t.pool with
    | some ln, some p => match p.held with
      | r :: rest => (s.modPool tk fun p => { p with held := rest }).spillRec tk t ln { p with held := [] } r
      | [] => s
    | _, _ => s
  | none => s

/-- The bins that hold a record on a core, whatever pool team they serve: team, bin and contents. -/
def State.coreBins (s : State) (core : Nat) : List (Nat × Nat × Bin) :=
  s.work.teams.flatMap fun e => match e.2.pool with
    | some p => if e.2.core = core then
        ((withIdx p.bins).filter fun b => !b.2.recs.isEmpty).map fun b => (e.1, b.1, b.2) else []
    | none => []

/-- Whether one of the 16 bins of a core's binner is empty (R40). -/
def State.emptyBin (s : State) (core : Nat) : Bool := (s.coreBins core).length < 16

/-- The partial bin of a core's binner whose last arrival is oldest: its team and its place. -/
def State.oldestBin (s : State) (core : Nat) : Option (Nat × Nat) :=
  let partialBin := fun (e : Nat × Nat × Bin) => match (s.team? e.1).bind fun t => s.launch? t.launch with
    | some ln => e.2.2.recs.length < binSize ln
    | none => false
  (((s.coreBins core).filter partialBin).foldl (fun (b : Option (Nat × Nat × Bin)) e => match b with
    | some o => if e.2.2.last < o.2.2.last then some e else b
    | none => some e) none).map fun e => (e.1, e.2.1)

/-- A record of a pool team arrives at the binner of its core: it joins the bin of its PC, takes an empty bin, or that of the
partial bin whose last arrival is oldest, or goes to the spill area; none where it must be held (R40). A record whose PC's bin is
full and waits for a slot takes another empty bin or goes on to the steps, and a flushed bin that still waits takes further
records: the spec does not say (DESIGN CHOICE, log entry 52). Records of several pool teams of the core share its 16 bins, and no
bin holds records of two teams. -/
def State.binArrive (s : State) (tk : Nat) (r : ContRec) : Option State :=
  match s.team? tk with
  | some t =>
    match s.launch? t.launch, t.pool with
    | some ln, some p =>
      let add := fun (b : Bin) => { b with pc := r.pc, recs := b.recs ++ [r], last := s.cycle }
      let put := fun (s : State) (i : Nat) => s.modPool tk fun p => { p with bins := updAt add i p.bins }
      let bins := withIdx p.bins
      match bins.find? fun e => !e.2.recs.isEmpty && e.2.pc == r.pc && e.2.recs.length < binSize ln with
      | some (i, _) => some (put s i)
      | none =>
        let free := fun (s : State) => (((s.team? tk).bind fun t => t.pool).map fun p => withIdx p.bins).bind fun bs =>
          (bs.find? fun e => e.2.recs.isEmpty).map fun e => put s e.1
        if s.emptyBin t.core then free s
        else match (s.oldestBin t.core).bind fun o => s.formGroup o.1 o.2 with
          | some s => free s
          | none => if p.spillWr - p.spillRd + p.held.length < ln.spillCap then some (s.spillRec tk t ln p r) else none
    | _, _ => none
  | none => none

end Sys2Proof.Machine
end

