-- ==== Sys2Proof/Machine/Punty.lean ====
section
/-! DEFINITION. Punty: the accesses of copy commands, tensors and their conversion, chunks, completion and errors
(spec/12_tensor_copy_and_prologue.md R248 to R259, spec/23_memory_engine_host_failures.md R407 to R409). -/

namespace Sys2Proof.Machine

/-! ### Accesses of a copy command -/

/-- A resolved place of a copy: physical memory, with the virtual line, or a team's scratchpad. -/
inductive CpLoc where
  | mem (pa vline : Nat)
  | scr (tk off : Nat)
  deriving DecidableEq, Repr

/-- Bytes with their poison. -/
abbrev PByte := Byte × Bool

/-- The launch of a team. -/
def State.launchOf (s : State) (tk : Nat) : Option Launch := (s.team? tk).bind fun t => s.launch? t.launch

/-- The tenant of a team. -/
def State.tenantOf (s : State) (tk : Nat) : Nat := ((s.launchOf tk).map fun l => l.tenant).getD 0

/-- Resolves bytes within one 4 KiB part of a tenant's space. -/
def State.cpGlobal (s : State) (tenant a : Nat) (acc : Acc) : Dev CpLoc :=
  match s.devXlate tenant a acc with
  | .ok s pa _ _ => .ok s (.mem pa (a / 64))
  | .pageFault => .fault a
  | .trap _ => .prot
  | .poison => .poison
  | .later s => .blocked s

/-- Resolves n bytes within one 4 KiB part of a space: 0 `.g`, 1 `.s`, 2 `.x` (R253). -/
def State.cpMap (s : State) (tk space a n : Nat) (acc : Acc) : Dev CpLoc :=
  match s.team? tk, s.launchOf tk with
  | some t, some ln =>
    match space with
    | 0 => s.cpGlobal ln.tenant a acc
    | 1 => if t.scrBytes < a + n then .prot else .ok s (.scr tk a)
    | _ =>
      let k := indexKey t.launch (t.idx / ln.gangSize * ln.gangSize + a / 2 ^ 19 % 8)
      match s.team? k with
      | some u =>
        if 2 ^ 22 ≤ a || ln.gangSize ≤ a / 2 ^ 19 % 8 || u.scrBytes < a % 2 ^ 19 + n then .prot
        else .ok s (.scr k (a % 2 ^ 19))
      | none => .prot
  | _, _ => .prot

/-- Resolves parts: space, address, bytes. -/
def State.cpMaps (tk space : Nat) (acc : Acc) : List (Nat × Nat) → State → List (CpLoc × Nat) → Dev (List (CpLoc × Nat))
  | [], s, ls => .ok s ls.reverse
  | (a, n) :: rest, s, ls =>
    match s.cpMap tk space a n acc with
    | .ok s l => State.cpMaps tk space acc rest s ((l, n) :: ls)
    | .fault va => .fault va
    | .prot => .prot
    | .poison => .poison
    | .blocked s => .blocked s

/-- Resolves n bytes from an address on. -/
def State.cpRange (s : State) (tk space a n : Nat) (acc : Acc) : Dev (List (CpLoc × Nat)) :=
  State.cpMaps tk space acc (pageParts (n / 4096 + 2) a n) s []

/-- Resolves parts of a tenant's space: address, bytes. -/
def State.cpTenants (tenant : Nat) (acc : Acc) : List (Nat × Nat) → State → List (CpLoc × Nat) → Dev (List (CpLoc × Nat))
  | [], s, ls => .ok s ls.reverse
  | (a, n) :: rest, s, ls =>
    match s.cpGlobal tenant a acc with
    | .ok s l => State.cpTenants tenant acc rest s ((l, n) :: ls)
    | .fault va => .fault va
    | .prot => .prot
    | .poison => .poison
    | .blocked s => .blocked s

/-- Resolves n bytes of a tenant's space from an address on, for an engine outside the cores. -/
def State.cpTenant (s : State) (tenant a n : Nat) (acc : Acc) : Dev (List (CpLoc × Nat)) :=
  State.cpTenants tenant acc (pageParts (n / 4096 + 2) a n) s []

/-- The bytes at a place, each with the poison of its granule. -/
def State.cpGet (s : State) (l : CpLoc) (n : Nat) : List PByte :=
  (List.range n).map fun i => match l with
    | .mem pa _ => (s.mem.bytes.read (pa + i), s.physPsn (pa + i) 1)
    | .scr tk off => (((s.scrRead tk (off + i) 1).head?).getD 0, s.scrPsn tk (off + i) 1)

/-- Reads n bytes from an address on. -/
def State.cpRead (s : State) (tk space a n : Nat) : Dev (List PByte) :=
  match s.cpRange tk space a n .read with
  | .ok s ls => .ok s (ls.flatMap fun l => s.cpGet l.1 l.2)
  | .fault va => .fault va
  | .prot => .prot
  | .poison => .poison
  | .blocked s => .blocked s

/-- Bytes of a tenant's space with their poison. -/
def State.tenRead (s : State) (tenant va n : Nat) : Dev (List PByte) :=
  match s.devMap tenant va n .read with
  | .ok s ps => .ok s (ps.flatMap fun p => (List.range p.2.1).map fun i => (s.mem.bytes.read (p.1 + i), s.physPsn (p.1 + i) 1))
  | .fault va => .fault va
  | .prot => .prot
  | .poison => .poison
  | .blocked s => .blocked s

/-- The place n bytes further on, within its page. -/
def CpLoc.plus : CpLoc → Nat → CpLoc
  | .mem pa v, n => .mem (pa + n) (v + (pa % 64 + n) / 64)
  | .scr tk off, n => .scr tk (off + n)

/-- The place's byte address within its memory. -/
def CpLoc.addr : CpLoc → Nat
  | .mem pa _ => pa
  | .scr _ off => off

/-- Writes a run of bytes, all clean or all poisoned. -/
def State.cpRun (s : State) (core tenant : Nat) (l : CpLoc) (bs : List Byte) (psn : Bool) : State :=
  match l with
  | .mem pa v => (s.l1Drop core tenant v).physWrite pa bs psn
  | .scr tk off => s.scrWrite tk off bs psn

/-- Writes bytes granule by granule, each poisoned where one of its bytes is. -/
def State.cpGranules (core tenant : Nat) : Nat → CpLoc → List PByte → State → State
  | 0, _, _, s => s
  | fuel + 1, l, bs, s =>
    if bs.isEmpty then s
    else
      let k := 8 - l.addr % 8
      let g := bs.take k
      State.cpGranules core tenant fuel (l.plus k) (bs.drop k) (s.cpRun core tenant l (g.map fun b => b.1) (g.any fun b => b.2))

/-- Writes bytes with their poison at a place (R381). -/
def State.cpPut (s : State) (core tenant : Nat) (l : CpLoc) (bs : List PByte) : State :=
  if bs.any fun b => b.2 then State.cpGranules core tenant (bs.length + 1) l bs s
  else
    let lines := match l with
      | .mem pa v => (List.range (bs.length / 64 + 2)).map fun i => (CpLoc.mem pa (v + i))
      | .scr _ _ => []
    let s := lines.foldl (fun s e => match e with
      | .mem _ v => s.l1Drop core tenant v
      | .scr _ _ => s) s
    s.cpRun core tenant l (bs.map fun b => b.1) false

/-- Writes bytes to resolved places one after the other. -/
def State.cpPuts (core tenant : Nat) : List (CpLoc × Nat) → List PByte → State → State
  | [], _, s => s
  | (l, n) :: rest, bs, s => State.cpPuts core tenant rest (bs.drop n) (s.cpPut core tenant l (bs.take n))

/-- A part of a chunk that failed: each byte holds its old value or its new one (R256). -/
def State.cpMaybe (s : State) (core tenant : Nat) (l : CpLoc) (bs : List PByte) : State :=
  (withIdx bs).foldl (fun s b =>
    if Config.freeBit (2 ^ 44 + s.free * 8192 + b.1) then s.cpRun core tenant (l.plus b.1) [b.2.1] b.2.2 else s) s

/-! ### Completion (R65, R256 to R259) -/

/-- Kills the gang of a team for what an engine met: PC 0, and ADDR the tag code for reason 0x02 (R389). -/
def State.engineKill (s : State) (tk core reason : Nat) (addr : Word) : State :=
  match s.team? tk, s.launchOf tk with
  | some t, some ln => s.kill ⟨t.launch, t.idx / ln.gangSize, reason, 0, core, 0, addr, []⟩
  | _, _ => s

/-- Removes command i of a core's Punty queue. -/
def State.dropCmd (s : State) (core i : Nat) : State :=
  s.modCore core fun c => { c with punty := c.punty.take i ++ c.punty.drop (i + 1) }

/-- Replaces command i of a core's Punty queue. -/
def State.setCmd (s : State) (core i : Nat) (c : Cmd) : State :=
  s.modCore core fun k => { k with punty := updAt (fun _ => c) i k.punty }

/-- Command i completes with a code; a resumable error leaves its record, unless the tag holds an error already. -/
def State.cmdDone (s : State) (core i : Nat) (c : Cmd) (code : BitVec 8) (elem : Nat) : State :=
  let keep := if code = 1 || code = 2 then some { c with forced := false, marver := false, udf := 0 } else none
  let s := (s.dropCmd core i).tagDone core c.tag code elem c.udf keep
  let s := if c.marver then s.modTeam c.team fun t => { t with binding := t.binding + 1, bindFail := t.bindFail || code != 0 }
    else s
  if code = 4 then s.engineKill c.team core 2 4 else s

/-- Launch slots of the module (R299). -/
def launchSlots : Nat := 4096

/-- A fault record of an engine (R364): MASK 0. A command whose gang is gone names no launch slot that is in use. -/
def State.engineFault (s : State) (tk tenant gid core : Nat) (pc : Word) (va acc : Nat) (who : FaultFor) : State × Nat :=
  match s.team? tk, s.launchOf tk with
  | some t, some ln =>
    s.post ⟨ln.tenant, va, 0, acc, 0, t.launch, core, t.idx, gid, pc, none, 0⟩ who (t.idx / ln.gangSize)
  | _, _ => s.post ⟨tenant, va, 0, acc, 0, launchSlots, core, 0, gid, pc, none, 0⟩ who 0

/-- What stopped a chunk. -/
inductive CpErr where
  | fault (va : Nat) (acc : Acc)
  | prot
  | poison
  | malformed
  | blocked (s : State)

/-- Command i fails at the chunk whose first element is `elem`: code 0x01 posts a record, except that a binding waits
for the answer (R265). -/
def State.cmdFail (s : State) (core i : Nat) (c : Cmd) (elem : Nat) : CpErr → State
  | .fault va acc =>
    let who := if c.marver then FaultFor.marver c.team else .punty core c.tag
    let (s, fid) := s.engineFault c.team (s.tenantOf c.team) c.gid core c.pc va acc.code who
    if c.marver then s.setCmd core i { c with fid := some fid }
    else s.cmdDone core i { c with fid := some fid } 1 elem
  | .prot => s.cmdDone core i c 2 elem
  | .poison => s.cmdDone core i c 4 elem
  | .malformed => s.cmdDone core i c 3 elem
  | .blocked s => s

/-! ### Tensors (R248, R249) -/

/-- A tensor descriptor's fields. -/
structure Tensor where
  fmt : Nat
  base : Nat
  dim0 : Nat
  dim1 : Nat
  pitch : Nat
  deriving DecidableEq, Repr

/-- The descriptor that eight words hold, if it meets every constraint of R248. -/
def tensorOf (ws : List Word) : Option Tensor :=
  let w := fun i => ws.getD i 0
  let t : Tensor := ⟨bits (w 0) 52 48, bits (w 0) 47 0, bits (w 1) 31 0, bits (w 1) 63 32, (w 2).toNat⟩
  let align := if isPx t.fmt then 2 else fmtBytes t.fmt 1
  if bits (w 0) 63 53 = 0 && storageFmts.contains t.fmt && t.base % align = 0 && 0 < t.dim0 && 0 < t.dim1 &&
      (!isPx t.fmt || t.dim0 % 16 = 0) && t.pitch % 16 = 0 && fmtBytes t.fmt t.dim0 ≤ t.pitch &&
      (ws.drop 3).all (· == 0) then some t else none

/-- The address of element (y, x); x is a multiple of 16 for a px format. -/
def Tensor.at (t : Tensor) (y x : Nat) : Nat := t.base + y * t.pitch + fmtBytes t.fmt x

/-- An input element: its value, its poison, and its block where it comes from a px tensor. -/
structure Elem where
  val : FNum
  psn : Bool
  blk : Option PxBlock
  deriving DecidableEq, Repr

/-- The element read outside a tensor's bounds. -/
def Elem.zero : Elem := ⟨.fin false 0 0, false, none⟩

/-- Elements x0 on of row y: none is accessed outside the bounds. For a px tensor x0 and n are multiples of 16. -/
def State.tensorRow (s : State) (tk : Nat) (t : Tensor) (y x0 n : Nat) : Dev (List Elem) :=
  let k := if t.dim1 ≤ y then 0 else min n (t.dim0 - x0)
  if k = 0 then .ok s (List.replicate n Elem.zero)
  else
    match s.cpRead tk 0 (t.at y x0) (fmtBytes t.fmt k) with
    | .ok s bs =>
      let raw := bs.map fun b => b.1
      let vals := decodeRun t.fmt k raw
      let unit := if isPx t.fmt then pxDense t.fmt else fmtBytes t.fmt 1
      let es := (withIdx vals).map fun e =>
        let j := if isPx t.fmt then e.1 / 16 else e.1
        ⟨e.2, ((bs.drop (j * unit)).take unit).any fun b => b.2,
          if isPx t.fmt then some (PxBlock.ofDense t.fmt ((raw.drop (j * unit)).take unit)) else none⟩
      .ok s (es ++ List.replicate (n - k) Elem.zero)
    | .fault va => .fault va
    | .prot => .prot
    | .poison => .poison
    | .blocked s => .blocked s

/-- Rows of elements. -/
def State.tensorRows (tk : Nat) (t : Tensor) (x0 n : Nat) : List Nat → State → List (List Elem) → Dev (List (List Elem))
  | [], s, rs => .ok s rs.reverse
  | y :: rest, s, rs =>
    match s.tensorRow tk t y x0 n with
    | .ok s r => State.tensorRows tk t x0 n rest s (r :: rs)
    | .fault va => .fault va
    | .prot => .prot
    | .poison => .poison
    | .blocked s => .blocked s

/-! ### Conversion into canonical layout (R250 to R252) -/

/-- A converted block with its poison, offending element and underflows. -/
structure Conv where
  blk : PxBlock
  psn : Bool
  off : Option Nat
  udf : Nat
  deriving DecidableEq, Repr

/-- Converts 16 elements (R251, R381, R409). Where the source has the destination's format, a block outside the tensor's bounds has no
scale word to copy: it becomes R126's block of zeros (DESIGN CHOICE, log entry 38: the spec does not say). -/
def convBlock (src dst : Nat) (es : List Elem) : Conv :=
  let psn := es.any fun e => e.psn
  match es.head?.bind fun e => e.blk with
  | some b =>
    if src = dst then
      if b.isNan then ⟨PxBlock.nan, psn, some 0, 0⟩ else ⟨b, psn, none, 0⟩
    else
      let r := toPx dst (es.map fun e => e.val)
      ⟨r.1, psn, r.2.1, r.2.2⟩
  | none =>
    let r := toPx dst (es.map fun e => e.val)
    ⟨r.1, psn, r.2.1, r.2.2⟩

/-- Splits a list into runs of n. -/
def runs {α : Type} (n : Nat) : Nat → List α → List (List α)
  | 0, _ => []
  | k + 1, l => l.take n :: runs n k (l.drop n)

/-- Converts a row of K elements. -/
def convRow (src dst : Nat) (es : List Elem) : List Conv := (runs 16 (pxK dst / 16) es).map (convBlock src dst)

/-- The operand row and the scale row of converted blocks, with the poison of each byte's block. -/
def convBytes (dst : Nat) (cs : List Conv) : List PByte × List PByte :=
  let blks := cs.map fun c => c.blk
  let psn := fun b => ((cs[b]?).map fun c => c.psn).getD false
  ((withIdx (canonRow dst blks)).map fun e => (e.2, psn (e.1 / (2 * pxC dst))),
    (withIdx (scaleRow blks)).map fun e => (e.2, psn (e.1 / 2)))

/-- A px value times 2^135, the scale of the sums; none for NaN. -/
def atSum (a : FNum) : Option Int :=
  match a with
  | .fin n m e => some (signed n m * ((2 ^ (e + 135).toNat : Nat) : Int))
  | _ => none

/-- Adds the converted values of a row to the sums over k (R252). -/
def addSums (dst : Nat) (sums : List (Option Int)) (cs : List Conv) : List (Option Int) :=
  (List.range (pxK dst)).map fun k =>
    match (sums[k]?).getD (some 0), (cs[k / 16]?).bind fun c => atSum (c.blk.value dst (k % 16)) with
    | some a, some b => some (a + b)
    | _, _ => none

/-- Writes a byte run into a B slot; its granule is the 16-bit unit (R380). -/
def BSlot.write (b : BSlot) (off : Nat) (bs : List PByte) : BSlot :=
  { b with
    bytes := b.bytes.writeN off (bs.map fun e => e.1)
    psn := (List.range (bs.length / 2)).foldl (fun l i =>
      setIn (off / 2 + i) (((bs.drop (2 * i)).take 2).any fun e => e.2) l) b.psn }

/-- Where a command writes its tile: the B slot of its core, or the team's scratchpad. -/
def State.tileSlot (s : State) (c : Cmd) : Nat := ((s.launchOf c.team).map fun l => l.slotBase).getD 0 + bits c.uc 5 0

/-- Writes bytes of a command's tile. -/
def State.putTile (s : State) (core : Nat) (c : Cmd) (off : Nat) (bs : List PByte) : State :=
  if c.opc = 0xC1 then s.modCore core fun k => { k with bslots := updAt (fun b => b.write off bs) (s.tileSlot c) k.bslots }
  else s.cpPut core (s.tenantOf c.team) (.scr c.team (bits c.uc 18 0 + off)) bs

/-- Rows of a command's tile. -/
def Cmd.tileRows (c : Cmd) : Nat := if c.opc = 0xC1 then 64 else 32

/-- Writes converted row r of a tile, with the tile's padding after the last. -/
def State.putTileRow (s : State) (core : Nat) (c : Cmd) (dst r : Nat) (cs : List Conv) : State :=
  let n := c.tileRows
  let b := convBytes dst cs
  let s := (s.putTile core c (192 * r) b.1).putTile core c (192 * n + 48 * r) b.2
  if r + 1 = n then s.putTile core c (240 * n) (List.replicate (16 * n) (0, false)) else s

/-- Takes a converted row into a command's account: sums, underflows and the first offending element. -/
def Cmd.account (c : Cmd) (dst r : Nat) (cs : List Conv) : Cmd :=
  let off := (withIdx cs).findSome? fun e => e.2.off.map fun i => r * pxK dst + 16 * e.1 + i
  { c with
    sums := addSums dst c.sums cs
    udf := c.udf + (cs.map fun e => e.udf).foldl (· + ·) 0
    offend := match c.offend with
      | some o => some o
      | none => off }

/-- Writes the sums of a command (R252). -/
def State.putSums (s : State) (core : Nat) (c : Cmd) : State :=
  let word32 := fun (v : Option Int) => match v with
    | some i => (fmtF32.roundDy 0 false false false (i, -135)).1
    | none => fmtF32.canon
  s.cpPut core (s.tenantOf c.team) (.scr c.team (bits c.uc 50 32))
    ((c.sums.flatMap fun v => leBytes 4 (word32 v)).map fun b => (b, false))

/-! ### Chunks (R255, R256) -/

/-- What a chunk did: the state and the command after it, or what stopped it. -/
inductive Chunk where
  | ok (s : State) (c : Cmd)
  | fail (s : State) (e : CpErr)

/-- The coordinates of a conversion. -/
def Cmd.row0 (c : Cmd) : Nat := bits c.ub 63 32
def Cmd.col0 (c : Cmd) : Nat := bits c.ub 31 0

/-- Chunk r of `cp.tile` or `cp.bld`: a row; under `.tr` the whole tile. A chunk that fails leaves every byte of its row, or tile, old,
one of the outcomes that R256 allows for each byte (DESIGN CHOICE, log entry 38: which bytes are old, the spec does not say). -/
def State.tileChunk (s : State) (core : Nat) (c : Cmd) (t : Tensor) : Chunk :=
  let dst := pxOf (c.mod.toNat % 4)
  let n := c.tileRows
  if c.mod.getLsbD 2 then
    match State.tensorRows c.team t c.col0 n ((List.range (pxK dst)).map (c.row0 + ·)) s [] with
    | .ok s rows =>
      let conv := (List.range n).map fun i => convRow t.fmt dst (rows.map fun r => r.getD i Elem.zero)
      let s := (withIdx conv).foldl (fun s e => s.putTileRow core c dst e.1 e.2) s
      .ok s ((withIdx conv).foldl (fun c e => c.account dst e.1 e.2) c)
    | .fault va => .fail s (.fault va .read)
    | .prot => .fail s .prot
    | .poison => .fail s .poison
    | .blocked s => .fail s (.blocked s)
  else
    match s.tensorRow c.team t (c.row0 + c.chunk) c.col0 (pxK dst) with
    | .ok s es =>
      let cs := convRow t.fmt dst es
      .ok (s.putTileRow core c dst c.chunk cs) (c.account dst c.chunk cs)
    | .fault va => .fail s (.fault va .read)
    | .prot => .fail s .prot
    | .poison => .fail s .poison
    | .blocked s => .fail s (.blocked s)

/-- A part of a raw copy: source and destination offsets within the command, and bytes. -/
structure Part where
  src : Nat
  dst : Nat
  off : Nat
  n : Nat
  deriving DecidableEq, Repr

/-- Splits a copy of n bytes where the source or the destination meets a page. -/
def rawParts : Nat → Nat → Nat → Nat → Nat → List Part
  | 0, _, _, _, _ => []
  | fuel + 1, src, dst, off, n =>
    if n = 0 then []
    else
      let k := min n (min (4096 - src % 4096) (4096 - dst % 4096))
      ⟨src, dst, off, k⟩ :: rawParts fuel (src + k) (dst + k) (off + k) (n - k)

/-- What a copy reads and resolves: parts with the bytes to write and the place to write to, where known, and the
first error. -/
structure Raw where
  s : State
  done : List (CpLoc × List PByte)
  err : Option CpErr

/-- The error that a resolution met. -/
def Dev.err? {α : Type} (acc : Acc) : Dev α → Option CpErr
  | .ok _ _ => none
  | .fault va => some (.fault va acc)
  | .prot => some .prot
  | .poison => some .poison
  | .blocked s => some (.blocked s)

/-- Resolves and reads the parts of a raw copy; `old` gives source bytes that the command itself has replaced. -/
def rawRead (tk ss ds : Nat) (pattern : Option Word) (old : Sparse PByte) : List Part → Raw → Raw
  | [], r => r
  | p :: rest, r =>
    let source : Dev (List PByte) := match pattern with
      | some w => .ok r.s ((List.range p.n).map fun i => ((leBytes 8 w.toNat).getD ((p.off + i) % 8) 0, false))
      | none => r.s.cpRead tk ss p.src p.n
    match source with
    | .ok s bs =>
      let bs := (withIdx bs).map fun b => (old.get? (p.off + b.1)).getD b.2
      match s.cpMap tk ds p.dst p.n .write with
      | .ok s l => rawRead tk ss ds pattern old rest { r with s := s, done := r.done ++ [(l, bs)] }
      | d => rawRead tk ss ds pattern old rest { r with s := s, err := r.err.or (d.err? .write) }
    | d => rawRead tk ss ds pattern old rest { r with err := r.err.or (d.err? .read) }

/-- A copy's places as one address line, so that an overlap shows: global memory, or a scratchpad (R181). -/
def State.cpLine (s : State) (tk space a : Nat) : Nat × Nat :=
  match s.team? tk, s.launchOf tk with
  | some t, some ln =>
    match space with
    | 0 => (0, a)
    | 1 => (1 + tk, a)
    | _ => (1 + indexKey t.launch (t.idx / ln.gangSize * ln.gangSize + a / 2 ^ 19 % 8), a % 2 ^ 19)
  | _, _ => (0, a)

/-- A chunk of a raw copy of n bytes: the command's bytes `off` on. `.bulk` keeps the source bytes that it replaces
before they are read (R255). -/
def State.rawChunk (s : State) (core : Nat) (c : Cmd) (ss ds : Nat) (pattern : Option Word) (src dst off n total : Nat) :
    Chunk :=
  let parts := rawParts (n / 2048 + 4) (src + off) (dst + off) off n
  let r := rawRead c.team ss ds pattern c.saved parts ⟨s, [], none⟩
  let tenant := s.tenantOf c.team
  match r.err with
  | some e => .fail (r.done.foldl (fun s p => s.cpMaybe core tenant p.1 p.2) r.s) e
  | none =>
    let from' := s.cpLine c.team ss src
    let to' := s.cpLine c.team ds (dst + off)
    let later := fun (a : Nat) => from'.1 == to'.1 && from'.2 + off + n ≤ a && a < from'.2 + total
    let saved := if pattern.isSome || from'.1 != to'.1 || !(to'.2 < from'.2 + total && from'.2 < to'.2 + n) then c.saved
      else (List.range n).foldl (fun m i =>
        let a := to'.2 + i
        if later a && (Sparse.get? m (a - from'.2)).isNone then
          match r.s.cpMap c.team ds (dst + off + i) 1 .read with
          | .ok s l => match s.cpGet l 1 with
            | b :: _ => Sparse.put (a - from'.2) b m
            | [] => m
          | _ => m
        else m) c.saved
    .ok (r.done.foldl (fun s p => s.cpPut core tenant p.1 p.2) r.s) { c with saved := saved }

/-- The bytes of an element of `cp.out` or Lehr as a storage format that is not px (R255, R142). -/
def outBytes (fmt : Nat) (sat : Bool) (v : FNum) : List Byte :=
  let m : FFmt := match fmt with
    | 0x0C => fmtF16
    | 0x0D => fmtBf16
    | 0x0E => fmtF32
    | 0x10 => fmtE4m3
    | _ => fmtE5m2
  leBytes (fmtBytes fmt 1) (m.convert 0 false sat v).1

/-- The in-bounds part of a box row as bytes with poison, for elements col0 on of row y, with its first offending element and its
underflows; elements outside the bounds are skipped (R249, R255). -/
def outRow (t : Tensor) (sat : Bool) (y x0 : Nat) (es : List (FNum × Bool)) : List PByte × Option Nat × Nat :=
  let k := if t.dim1 ≤ y then 0 else min es.length (t.dim0 - x0)
  if isPx t.fmt then
    let cs := (runs 16 (k / 16) es).map fun g => convBlock 0 t.fmt (g.map fun e => ⟨e.1, e.2, none⟩)
    (cs.flatMap fun c => (c.blk.dense t.fmt).map fun b => (b, c.psn),
      (withIdx cs).findSome? fun e => e.2.off.map fun i => 16 * e.1 + i, (cs.map fun c => c.udf).foldl (· + ·) 0)
  else ((es.take k).flatMap fun e => (outBytes t.fmt sat e.1).map fun b => (b, e.2), none, 0)

/-- Writes an output row to a tensor; where part of it cannot be written, each byte of the rest is old or new. -/
def State.putRow (s : State) (core tk : Nat) (t : Tensor) (y x0 : Nat) (bs : List PByte) : State × Option CpErr :=
  let tenant := s.tenantOf tk
  if bs.isEmpty then (s, none)
  else
    let parts := pageParts (bs.length / 4096 + 2) (t.at y x0) bs.length
    let r := parts.foldl (fun (a : State × List (CpLoc × List PByte) × Option CpErr × Nat) p =>
      match a.1.cpMap tk 0 p.1 p.2 .write with
      | .ok s l => (s, a.2.1 ++ [(l, (bs.drop a.2.2.2).take p.2)], a.2.2.1, a.2.2.2 + p.2)
      | d => (a.1, a.2.1, a.2.2.1.or (d.err? .write), a.2.2.2 + p.2)) (s, [], none, 0)
    match r.2.2.1 with
    | none => (r.2.1.foldl (fun s p => s.cpPut core tenant p.1 p.2) r.1, none)
    | some e => (r.2.1.foldl (fun s p => s.cpMaybe core tenant p.1 p.2) r.1, some e)

/-- The columns of `cp.out`. -/
def Cmd.columns (c : Cmd) : Nat := bits c.uc 44 32

/-- A box row of `cp.out`. -/
def State.outChunk (s : State) (core : Nat) (c : Cmd) (t : Tensor) : Chunk :=
  let n := c.columns
  let bs := s.cpGet (.scr c.team (bits c.uc 18 0 + 4 * n * c.chunk)) (4 * n)
  let es := (runs 4 n bs).map fun g => (fmtF32.read false (leNat (g.map fun b => b.1)), g.any fun b => b.2)
  let y := c.row0 + c.chunk
  let o := outRow t (c.mod.getLsbD 0) y c.col0 es
  match s.putRow core c.team t y c.col0 o.1 with
  | (s, some e) => .fail s e
  | (s, none) => .ok s { c with
      udf := c.udf + o.2.2
      offend := match c.offend with
        | some k => some k
        | none => o.2.1.map fun i => c.chunk * n + i }

/-- The element that a chunk begins with, and the number of chunks of a command (R256). -/
def Cmd.elem (c : Cmd) (chunk : Nat) : Nat :=
  match c.opc.toNat with
  | 0xC0 | 0xC1 => if c.mod.getLsbD 2 then 0 else chunk * pxK (pxOf (c.mod.toNat % 4))
  | 0xC2 => if chunk = 0 then 0 else (c.ub.toNat / 4096 + chunk) * 4096 - c.ub.toNat
  | 0xCE => if chunk = 0 then 0 else (c.ua.toNat / 4096 + chunk) * 4096 - c.ua.toNat
  | 0xCC => chunk * c.columns
  | _ => chunk * c.ub.toNat

def Cmd.chunks (c : Cmd) : Nat :=
  match c.opc.toNat with
  | 0xC0 | 0xC1 => if c.mod.getLsbD 2 then 1 else c.tileRows
  | 0xC2 => (c.ub.toNat + c.uc.toNat - 1) / 4096 - c.ub.toNat / 4096 + 1
  | 0xCE => (c.ua.toNat + c.uc.toNat - 1) / 4096 - c.ua.toNat / 4096 + 1
  | 0xCC => bits c.uc 25 20 + 1
  | _ => 32

/-- Whether a command names a tensor. -/
def Cmd.tensor (c : Cmd) : Bool := c.opc = 0xC0 || c.opc = 0xC1 || c.opc = 0xCC

/-- Whether a well-formed tensor is not admitted by a command (R250, R255). -/
def Cmd.refuses (c : Cmd) (t : Tensor) : Bool :=
  isPx t.fmt &&
    (if c.opc = 0xCC then c.col0 % 16 != 0 || c.columns % 16 != 0 else c.mod.getLsbD 2 || c.col0 % 16 != 0)

/-- Performs the next chunk of a command. -/
def State.cmdChunk (s : State) (core : Nat) (c : Cmd) : Chunk :=
  let k := c.chunk
  let len := fun (total : Nat) => min (c.elem (k + 1)) total - c.elem k
  match c.opc.toNat with
  | 0xC2 => s.rawChunk core c (c.mod.toNat % 4) (c.mod.toNat / 4 % 4) none c.ua.toNat c.ub.toNat (c.elem k)
      (len c.uc.toNat) c.uc.toNat
  | 0xCE => s.rawChunk core c 0 (c.mod.toNat / 4 % 4) (some c.ub) 0 c.ua.toNat (c.elem k) (len c.uc.toNat) c.uc.toNat
  | 0xC3 =>
    let n := c.ub.toNat
    let a := (c.lanes.getD k 0).toNat
    if a % 16 ≠ 0 then .fail s .prot
    else s.rawChunk core { c with saved := [] } (c.mod.toNat % 4) 1 none a (c.ua.toNat + k * n) 0 n n
  | 0xC4 =>
    let n := c.ub.toNat
    let a := (c.lanes.getD k 0).toNat
    if a % 16 ≠ 0 then .fail s .prot
    else s.rawChunk core { c with saved := [] } 1 (c.mod.toNat / 4 % 4) none (c.ua.toNat + k * n) a 0 n n
  | o =>
    match tensorOf c.desc with
    | none => .fail s .malformed
    | some t =>
      if c.refuses t then .fail s .malformed
      else if o = 0xCC then s.outChunk core c t else s.tileChunk core c t

/-- Ends a command whose chunks are done: sums, then the tag. -/
def State.cmdEnd (s : State) (core i : Nat) (c : Cmd) : State :=
  let s := if (c.opc = 0xC0 || c.opc = 0xC1) && c.mod.getLsbD 3 then s.putSums core c else s
  match c.offend with
  | some e => s.cmdDone core i c 5 e
  | none => s.cmdDone core i c 0 0

/-- Whether the next chunk of a command reads a source (R257): not a fill, not a misaligned row of `cp.gath` or `cp.scat`, not a
row that lies wholly outside its tensor, and not one of a command whose descriptor is malformed. -/
def Cmd.readsChunk (c : Cmd) : Bool :=
  match c.opc.toNat with
  | 0xCE => false
  | 0xC3 | 0xC4 => (c.lanes.getD c.chunk 0).toNat % 16 = 0
  | 0xC2 => true
  | _ =>
    match tensorOf c.desc with
    | some t => !c.refuses t && c.col0 < t.dim0 &&
        (if c.opc ≠ 0xCC && c.mod.getLsbD 2 then c.row0 < t.dim1 else c.row0 + c.chunk < t.dim1)
    | none => false

/-- One chunk of the first command of a core's queue that waits for no answer. A command reads its descriptor first
(R248), also from the address of a binding's DESC that is no multiple of 64, which R264 and R295 do not reject (DESIGN CHOICE, log
entry 38: the spec does not say). `err` is what a detected error on the chunk's read did, where it has one (R257). -/
def State.puntyStep (s : State) (core : Nat) (err : ErrClass) : State :=
  match (withIdx (s.core core).punty).find? fun e => e.2.fid.isNone with
  | none => s
  | some (i, c) =>
    let elem := c.elem c.chunk
    let err := if c.forced || (c.tensor && c.desc.isEmpty) || !c.readsChunk then .none else err
    let s := if err = .transient then s.count 7 false core else s
    if c.forced then s.cmdDone core i c 2 elem
    else if err = .lasting then
      let s := (s.count 7 true core).modCore core fun k => { k with withdrawn := true }
      (s.cmdDone core i c 7 elem).engineKill c.team core 5 0
    else if c.tensor && c.desc.isEmpty then
      match s.devRead (s.tenantOf c.team) c.ua.toNat 64 with
      | .ok s (bs, psn) =>
        if psn then s.cmdDone core i c 4 elem
        else s.setCmd core i { c with desc := (List.range 8).map fun j => word (leNat ((bs.drop (8 * j)).take 8)) }
      | .fault va => s.cmdFail core i c elem (.fault va .read)
      | .prot => s.cmdFail core i c elem .prot
      | .poison => s.cmdFail core i c elem .poison
      | .blocked s => s
    else
      match s.cmdChunk core c with
      | .ok s c =>
        let c := { c with chunk := c.chunk + 1 }
        if c.chunks ≤ c.chunk then s.cmdEnd core i c else s.setCmd core i c
      | .fail s e => s.cmdFail core i c elem e

end Sys2Proof.Machine
end

