-- ==== Sys2Proof/Machine/Estates.lean ====
section
/-! DEFINITION. Locks, promises and claims, the estate table, heirs and conveyance: opcodes 0xB0 to 0xBF
(spec/11_estates_locks_promises.md R231 to R247). -/

namespace Sys2Proof.Machine

/-! ### Control words (R232) -/

/-- A holder identity: kind, launch slot, group, team or gang. -/
structure Holder where
  hk : Nat
  lslot : Nat
  grp : Nat
  team : Nat
  deriving DecidableEq, Repr

/-- The holder that a control word names. -/
def holderOf (w : Word) : Holder := ⟨bits w 60 59, bits w 58 47, bits w 46 43, bits w 42 12⟩

/-- ST of a control word. -/
def stOf (w : Word) : Nat := bits w 63 62

/-- BRV of a control word. -/
def brvOf (w : Word) : Bool := bit w 61

/-- A control word. -/
def ctlWord (st : Nat) (brv : Bool) (h : Holder) : Word :=
  word (st * 2 ^ 62 + b2n brv * 2 ^ 61 + h.hk % 4 * 2 ^ 59 + h.lslot % 4096 * 2 ^ 47 + h.grp % 16 * 2 ^ 43 +
    h.team % 2 ^ 31 * 2 ^ 12)

/-- A control word with ST and BRV changed, and nothing else (R431). -/
def withSt (w : Word) (st : Nat) (brv : Bool) : Word := word (st * 2 ^ 62 + b2n brv * 2 ^ 61 + w.toNat % 2 ^ 61)

/-- A control word with its holder fields changed (R245). -/
def withHolder (w : Word) (h : Holder) : Word :=
  (w &&& word (7 * 2 ^ 61 + (2 ^ 12 - 1))) ||| ctlWord 0 false h

/-- Whether a control word is malformed, of a promise or of a lock or claim. -/
def malformedCtl (w : Word) (promise : Bool) : Bool :=
  bits w 11 0 != 0 || (if promise then brvOf w else stOf w = 3)

/-- The identity of a group. -/
def State.identity (s : State) (key : Nat) : Holder :=
  match s.group? key with
  | some g => match s.team? g.team with
    | some t => ⟨0, t.launch, g.gid, t.idx⟩
    | none => ⟨0, 0, 0, 0⟩
  | none => ⟨0, 0, 0, 0⟩

/-- The gang index of a group. -/
def State.gangOf (s : State) (key : Nat) : Nat :=
  match s.group? key with
  | some g => match s.team? g.team with
    | some t => match s.launch? t.launch with
      | some ln => t.idx / ln.gangSize
      | none => 0
    | none => 0
  | none => 0

/-- Whether a group matches a holder identity (R232). -/
def State.matchesHolder (s : State) (key : Nat) (h : Holder) : Bool :=
  let g := s.identity key
  (h.hk = 0 && h.lslot = g.lslot && h.grp = g.grp && h.team = g.team) ||
  (h.hk = 1 && h.lslot = g.lslot && h.team = g.team) ||
  (h.hk = 2 && h.lslot = g.lslot && h.team = s.gangOf key)

/-- Whether a holder is live (R233): a team that awaits its relaunch counts as live. -/
def State.holderLive (s : State) (h : Holder) : Bool :=
  match s.launch? h.lslot with
  | none => false
  | some ln =>
    let again := fun g => ln.again.contains g
    match h.hk with
    | 0 => (s.groupsOf (indexKey h.lslot h.team)).any fun e => e.2.gid == h.grp
    | 1 => (s.team? (indexKey h.lslot h.team)).any (fun t => !t.retired) || again (h.team / ln.gangSize)
    | 2 => !(s.teamsOfGang h.lslot h.team ln.gangSize).isEmpty || again h.team
    | _ => false

/-- A cell: its tenant, address and physical address. -/
structure Cell where
  tenant : Nat
  va : Nat
  pa : Nat
  deriving DecidableEq, Repr

/-- Whether the holder that a control word names is gone: its launch slot was in use at a compute reset (R416), or it is a group of a
fenced core whose estate could not be read (R421); and the cell has not been given to a group of the same identity since: such a
group's estate has an entry for it, and a reservation made since is recorded. -/
def State.holderGone (s : State) (c : Cell) (w : Word) : Bool :=
  let h := holderOf w
  (s.work.gone.contains h.lslot || (h.hk = 0 && s.work.lost.contains (indexKey h.lslot h.team, h.grp))) &&
    !(if stOf w = 2 then s.work.reserved.contains (c.tenant, c.va)
      else s.work.groups.any fun e => s.matchesHolder e.1 h && e.2.estate.entries.any fun x => x.key == c.va)

/-- The control word that an operation acts on: a reservation whose holder has retired counts as free and bereaved
(R233), and so does a holding of a holder that is gone (R416). -/
def State.effective (s : State) (c : Cell) (w : Word) (promise : Bool) : Word :=
  let h := holderOf w
  let gone := s.holderGone c w
  if promise then (if stOf w = 1 && gone then withSt w 3 false else w)
  else if (stOf w = 2 && !s.holderLive h) || ((stOf w = 1 || stOf w = 2) && gone) then withSt w 0 true
  else w

/-! ### The estate table (R234) -/

/-- Entries of an estate table. -/
def estateSize : Nat := 16

/-- Appends an entry, which takes the current heir; SEQ is the count after its own entry (R234, R431). -/
def Estate.append (e : Estate) (kind scope key : Nat) (brv : Bool) : Estate :=
  let n := (e.count + 1) % 2 ^ 16
  { e with
    entries := e.entries ++ [⟨brv, kind, e.curKind, scope, key % 2 ^ 48, n, e.curArg⟩]
    count := n }

/-- Removes the entry of a cell. -/
def Estate.drop (e : Estate) (kind key : Nat) : Estate :=
  { e with entries := e.entries.filter fun x => !(x.kind == kind && x.key == key) }

/-- Word 0 and word 1 of an entry (R234). -/
def EstEntry.words (e : EstEntry) : List Word :=
  [word (2 ^ 63 + b2n e.brv * 2 ^ 62 + e.kind % 4 * 2 ^ 60 + e.heir % 8 * 2 ^ 57 + e.scope % 8 * 2 ^ 54 + e.key % 2 ^ 48),
   word (e.seq % 2 ^ 16 * 2 ^ 48 + e.harg % 2 ^ 48)]

/-- Whether a group's estate table is full. -/
def State.estateFull (s : State) (key : Nat) : Bool :=
  match s.group? key with
  | some g => estateSize ≤ g.estate.entries.length
  | none => true

/-- Changes a group's estate. -/
def State.modEstate (s : State) (key : Nat) (f : Estate → Estate) : State :=
  s.modGroup key fun g => { g with estate := f g.estate }

/-! ### Taking and handing off (R238, R239) -/

/-- Reserves a cell for a holder: ST 2 (R239, R245). -/
def State.reserve (s : State) (c : Cell) (w : Word) : State :=
  let s := s.setPhysWord c.pa w
  if s.work.reserved.contains (c.tenant, c.va) then s
  else { s with work := { s.work with reserved := s.work.reserved ++ [(c.tenant, c.va)] } }

/-- Gives a cell to a group: ST 1, BRV clear, the group as holder, RANGE for a claim, and a new estate entry. -/
def State.give (s : State) (c : Cell) (key : Nat) (claim : Bool) (range : Word) (scope : Nat) (brv : Bool) : State :=
  let s := s.setPhysWord c.pa (ctlWord 1 false (s.identity key))
  let s := if claim then s.setPhysWord (c.pa + 8) range else s
  s.modEstate key fun e => e.append (if claim then 2 else 0) scope c.va brv

/-- The waiters of a cell, oldest first. -/
def State.cellWaiters (s : State) (c : Cell) : List Waiter :=
  s.mem.waiters.filter fun w => w.cell && w.tenant == c.tenant && w.key == c.va

/-- Removes one waiter. -/
def State.dropWaiter (s : State) (w : Waiter) : State :=
  { s with mem := { s.mem with waiters := s.mem.waiters.filter fun v => !(v == w) } }

/-- Hands a lock or claim to the first of some waiters that can take it; a waiter whose estate table is full returns
with status 3. Answers whether one took it. -/
def State.offer (c : Cell) (brv : Bool) : List Waiter → State → State × Bool
  | [], s => (s, false)
  | w :: rest, s =>
    let s := s.dropWaiter w
    if s.estateFull w.group then State.offer c brv rest (s.resumePair w.group w.lane [(3, false)] (some false))
    else
      ((s.give c w.group (w.opc = 0xB7) w.range w.scope brv).resumePair w.group w.lane
        [(if brv then 2 else 0, false)] (some brv), true)

/-- Waiters of a cell for a lock or claim. -/
def State.takers (s : State) (c : Cell) : List Waiter := (s.cellWaiters c).filter fun w => w.opc = 0xB0 || w.opc = 0xB7

/-- Hands off a released cell; if no waiter can take it, ST becomes 0 (R239, R431). -/
def State.handOff (s : State) (c : Cell) (brv : Bool) : State :=
  let s := s.setPhysWord c.pa (withSt (s.physWord c.pa) 0 brv)
  (State.offer c brv (s.takers c) s).1

/-- Wakes every waiter of a promise with its settlement (R240). -/
def State.settleProm (s : State) (c : Cell) (status value : Word) : State :=
  ((s.cellWaiters c).filter fun w => w.opc = 0xB5).foldl
    (fun s w => (s.dropWaiter w).resumePair w.group w.lane [(status, false), (value, false)] none) s

/-- What an operation of row 0xB does for one lane: it completes with results and perhaps a predicate, or waits. -/
inductive CellRes where
  | done (vals : List Word) (prd : Option Bool)
  | wait (w : Waiter)

/-- `lock.acq`, `lock.try`, `claim.get` and `claim.try` for one lane (R238). -/
def State.take (s : State) (c : Cell) (key lane opc : Nat) (claim tries : Bool) (range : Word) (scope : Nat) :
    State × CellRes :=
  let w0 := s.physWord c.pa
  let w := s.effective c w0 false
  let out := fun (st : Nat) => CellRes.done [word st] (some (if tries then st = 0 || st = 2 else st = 2))
  if malformedCtl w0 false then (s, out 6)
  else if s.matchesHolder key (holderOf w) && stOf w = 1 then (s, out 4)
  else if stOf w = 0 || (stOf w = 2 && s.matchesHolder key (holderOf w)) then
    if s.estateFull key then (s, out 3)
    else (s.give c key claim range scope (brvOf w), out (if brvOf w then 2 else 0))
  else if tries then (s, out 1)
  else if s.sliceFull c.va then (s, out 3)
  else
    let e : Waiter := ⟨c.va, c.tenant, key, lane, true, BitVec.ofNat 8 opc, scope, range, false, none⟩
    (s.enter e, .wait e)

/-- Whether the group holds the cell with ST 1. -/
def State.holds (s : State) (key : Nat) (w : Word) : Bool := s.matchesHolder key (holderOf w) && stOf w = 1

/-- `lock.rel` and `claim.put` for one lane (R239). DESIGN CHOICE (log 54): the word alone decides that the cell is freed;
of the estate only an entry of the instruction's own kind is removed, so a cell taken as a claim and released as a lock
leaves its claim entry, and the reverse. DESIGN CHOICE (log 54): where software gave a held cell BRV 1, the cell is handed
off with BRV 1, so its next holder gets status 2 and an entry with BRV, as an acquirer of such a cell would. -/
def State.release (s : State) (c : Cell) (key : Nat) (claim : Bool) : State × CellRes :=
  let w0 := s.physWord c.pa
  if malformedCtl w0 false then (s, .done [6] none)
  else if !s.holds key (s.effective c w0 false) then (s, .done [5] none)
  else ((s.modEstate key fun e => e.drop (if claim then 2 else 0) c.va).handOff c (brvOf w0), .done [0] none)

/-- `claim.pass` for one lane (R239). -/
def State.pass (s : State) (c : Cell) (key target : Nat) : State × CellRes :=
  let w0 := s.physWord c.pa
  let id := s.identity key
  let tgt := (s.groupsOf (indexKey id.lslot id.team)).find? fun e =>
    e.2.gid == target && e.2.stage = .running && e.1 != key
  if malformedCtl w0 false then (s, .done [6] none)
  else match s.holds key (s.effective c w0 false), tgt with
    | true, some (tk, _) =>
      let s := s.modEstate key fun e => e.drop 2 c.va
      let s := s.reserve c (ctlWord 2 (brvOf w0) (s.identity tk))
      ((State.offer c (brvOf w0) ((s.takers c).filter fun w => w.group == tk) s).1, .done [0] none)
    | _, _ => (s, .done [5] none)

/-- `prom.make` for one lane (R240). -/
def State.make (s : State) (c : Cell) (key scope : Nat) : State × CellRes :=
  let w0 := s.physWord c.pa
  let w := s.effective c w0 true
  if malformedCtl w0 true then (s, .done [6] none)
  else if stOf w = 1 then (s, .done [if s.matchesHolder key (holderOf w) then 4 else 1] none)
  else if s.estateFull key then (s, .done [3] none)
  else
    let s := (s.setPhysWord c.pa (ctlWord 1 false (s.identity key))).setPhysWord (c.pa + 8) 0
    (s.modEstate key fun e => e.append 1 scope c.va false, .done [0] none)

/-- `prom.keep` and `prom.drop` for one lane (R240). DESIGN CHOICE (log 54): only a promise entry is removed, so a cell taken
as a lock and settled as a promise leaves its lock entry. -/
def State.settle2 (s : State) (c : Cell) (key : Nat) (kept : Bool) (v : Word) : State × CellRes :=
  let w0 := s.physWord c.pa
  if malformedCtl w0 true then (s, .done [6] none)
  else if !s.holds key (s.effective c w0 true) then (s, .done [5] none)
  else
    let v := if kept then v else 0
    let s := (s.setPhysWord c.pa (withSt w0 (if kept then 2 else 3) false)).setPhysWord (c.pa + 8) v
    ((s.modEstate key fun e => e.drop 1 c.va).settleProm c (if kept then 0 else 2) v, .done [0] none)

/-- `prom.wait` and `prom.try` for one lane (R240). DESIGN CHOICE (log 54): beside status 6, for a malformed cell, the
second value pushed is 0, as beside the statuses 1, 2 and 3. -/
def State.await (s : State) (c : Cell) (key lane : Nat) (tries : Bool) (scope : Nat) : State × CellRes :=
  let w0 := s.physWord c.pa
  let w := s.effective c w0 true
  let v := if stOf w = stOf w0 then s.physWord (c.pa + 8) else 0
  if malformedCtl w0 true then (s, .done [6, 0] none)
  else if stOf w = 2 then (s, .done [0, v] none)
  else if stOf w = 3 then (s, .done [2, 0] none)
  else if tries then (s, .done [1, 0] none)
  else if s.sliceFull c.va then (s, .done [3, 0] none)
  else
    let e : Waiter := ⟨c.va, c.tenant, key, lane, true, 0xB5, scope, 0, false, none⟩
    (s.enter e, .wait e)

/-! ### The instructions of format M (R235 to R241) -/

/-- PRD of format M: bits 18:16 (R235). -/
def prdOf (f : FmtM) : Nat := f.hint.toNat * 2 + f.sgn.toNat

/-- Runs the lanes that passed, in ascending order: the lanes that complete and those that wait. -/
def State.cellLanes (x : Ctx) (f : FmtM) (va : Nat → Nat) (op : State → Nat → Cell → State × CellRes) :
    List (Nat × List (Loc × Nat)) → State → List Out → List (Nat × Wait) → State × List Out × List (Nat × Wait)
  | [], s, outs, ws => (s, outs.reverse, ws.reverse)
  | (l, ps) :: rest, s, outs, ws =>
    match ps with
    | (.mem pa _ _ vline, _) :: _ =>
      let r := op (s.l1Drop x.core x.ln.tenant vline) l ⟨x.ln.tenant, va l, pa⟩
      match r.2 with
      | .done vals prd =>
        let o : Out := ⟨l, vals.map fun v => (v, false), (match prd with
          | some b => [(prdOf f, b, false)]
          | none => []), 0, none⟩
        State.cellLanes x f va op rest r.1 (o :: outs) ws
      | .wait w =>
        State.cellLanes x f va op rest r.1 outs
          ((l, ⟨.cell, word w.key, 0, f.dst, BitVec.ofNat 3 (prdOf f), 0⟩) :: ws)
    | _ => State.cellLanes x f va op rest s outs ws

/-- The frame of the row's format M instructions: the checks of every lane (R208, R231), consumption of poisoned
operands and cell words (R382), the operations in lane order, and the lanes that wait. -/
def cellInstr (i : Instr) (s : State) (f : FmtM) (codes : List (BitVec 6)) (nres : Nat) (releases : Bool)
    (op : Ctx → State → State → Nat → Cell → State × CellRes) : Host.Outcome State Fault Refusal :=
  frame i s fun x s0 =>
    let n := widthBytes f.width
    let strict := s0.strictTraps x codes
    let ea := s0.ea x f
    let live := x.on.filter fun l => !strict.any fun t => t.lane == l
    let vals := fun l => codes.map fun c => ((s0.opnd x.g l c).val, (s0.opnd x.g l c).psn)
    if live.any fun l => (vals l).any fun v => v.2 then s0.consume x ((live.head?.map ea).getD 0)
    else if x.pairsDiffer fun l => (ea l, false) :: vals l then s0.mismatchAt x f ea
    else
      match State.checkAll x 0 .rmw ((x.actors live).map fun l => (l, ea l, n, n)) s0 [] with
      | .later s => s
      | .poison a => s0.consume x a
      | .done s cs =>
        let cs := denyKinds [3, 4] ea cs
        match s.oldPoison x cs with
        | some l => s0.consume x (ea l)
        | none =>
          let s := (passed cs).foldl (fun s p =>
            let s := if (releases && f.scope = 5) || kindOf p.2 = 1 then s.drainWcb x.key p.1 else s
            s.recallPieces p.2) s
          let r := State.cellLanes x f (fun l => (ea l).toNat) (op x s0) (passed cs) s [] []
          let ws := r.2.2 ++ (r.2.2.filter fun w => x.ln.paired && x.on.contains (w.1 + 16)).map fun w => (w.1 + 16, w.2)
          let s := r.1.settle x ws (x.mirror r.2.1) nres (some f.sa) f.dst
          (s.takeTraps x.key x.pc x.opc (strict ++ trapsOf x cs)).parkFaults x .rmw cs

/-- The SD operand of a lane. -/
def sdOf (f : FmtM) (x : Ctx) (s : State) (l : Nat) : Word := (s.opnd x.g l f.sd).val

/-- R238: `lock.acq`. -/
def execLockAcq (c : Common) (f : FmtM) (s : State) : Host.Outcome State Fault Refusal :=
  cellInstr (.lockAcq c f) s f [f.sa] 1 false fun x _ s l k => s.take k x.key l 0xB0 false false 0 f.scope.toNat
/-- R238: `lock.try`. -/
def execLockTry (c : Common) (f : FmtM) (s : State) : Host.Outcome State Fault Refusal :=
  cellInstr (.lockTry c f) s f [f.sa] 1 false fun x _ s l k => s.take k x.key l 0xB1 false true 0 f.scope.toNat
/-- R239: `lock.rel`. -/
def execLockRel (c : Common) (f : FmtM) (s : State) : Host.Outcome State Fault Refusal :=
  cellInstr (.lockRel c f) s f [f.sa] 1 true fun x _ s _ k => s.release k x.key false
/-- R240: `prom.make`. -/
def execPromMake (c : Common) (f : FmtM) (s : State) : Host.Outcome State Fault Refusal :=
  cellInstr (.promMake c f) s f [f.sa] 1 false fun x _ s _ k => s.make k x.key f.scope.toNat
/-- R240: `prom.keep`. -/
def execPromKeep (c : Common) (f : FmtM) (s : State) : Host.Outcome State Fault Refusal :=
  cellInstr (.promKeep c f) s f [f.sa, f.sd] 1 true fun x s0 s l k => s.settle2 k x.key true (sdOf f x s0 l)
/-- R240: `prom.wait`. -/
def execPromWait (c : Common) (f : FmtM) (s : State) : Host.Outcome State Fault Refusal :=
  cellInstr (.promWait c f) s f [f.sa] 2 false fun x _ s l k => s.await k x.key l false f.scope.toNat
/-- R240: `prom.try`. -/
def execPromTry (c : Common) (f : FmtM) (s : State) : Host.Outcome State Fault Refusal :=
  cellInstr (.promTry c f) s f [f.sa] 2 false fun x _ s l k => s.await k x.key l true f.scope.toNat
/-- R238: `claim.get`. -/
def execClaimGet (c : Common) (f : FmtM) (s : State) : Host.Outcome State Fault Refusal :=
  cellInstr (.claimGet c f) s f [f.sa, f.sd] 1 false fun x s0 s l k =>
    s.take k x.key l 0xB7 true false (sdOf f x s0 l) f.scope.toNat
/-- R238: `claim.try`. -/
def execClaimTry (c : Common) (f : FmtM) (s : State) : Host.Outcome State Fault Refusal :=
  cellInstr (.claimTry c f) s f [f.sa, f.sd] 1 false fun x s0 s l k =>
    s.take k x.key l 0xB8 true true (sdOf f x s0 l) f.scope.toNat
/-- R239: `claim.put`. -/
def execClaimPut (c : Common) (f : FmtM) (s : State) : Host.Outcome State Fault Refusal :=
  cellInstr (.claimPut c f) s f [f.sa] 1 true fun x _ s _ k => s.release k x.key true
/-- R240: `prom.drop`. -/
def execPromDrop (c : Common) (f : FmtM) (s : State) : Host.Outcome State Fault Refusal :=
  cellInstr (.promDrop c f) s f [f.sa] 1 true fun x _ s _ k => s.settle2 k x.key false 0
/-- R239: `claim.pass`. -/
def execClaimPass (c : Common) (f : FmtM) (s : State) : Host.Outcome State Fault Refusal :=
  cellInstr (.claimPass c f) s f [f.sa, f.sd] 1 true fun x s0 s l k => s.pass k x.key ((sdOf f x s0 l).toNat % 16)

/-! ### Heir settings and queries (R242, R243) -/

/-- Writes an heir: the current one, or the default one, and under `.all` that of every entry. -/
def Estate.setHeir (e : Estate) (kind arg : Nat) (dflt all : Bool) : Estate :=
  let e := if dflt then { e with dfltKind := kind, dfltArg := arg } else { e with curKind := kind, curArg := arg }
  if all then { e with entries := e.entries.map fun x => { x with heir := kind, harg := arg } } else e

/-- R242: `heir.set`. The argument is that of the lowest guard-true lane. -/
def execHeirSet (c : Common) (f : FmtS) (s : State) : Host.Outcome State Fault Refusal :=
  frame (.heirSet c f) s fun x s0 =>
    let kind := f.sel.toNat % 8
    let strict := s0.strictTraps x [f.sa]
    let live := x.on.filter fun l => !strict.any fun t => t.lane == l
    let outs := live.map fun l => (⟨l, [], [], 0, none⟩ : Out)
    let done := fun (s : State) (o : List Out) => (s.finishLong x o 0 (some f.sa) 0 [] [] false).takeTraps x.key x.pc x.opc strict
    match live with
    | [] => done s0 []
    | m :: _ =>
      let a := (s0.opnd x.g m f.sa).val
      if live.any fun l => (s0.opnd x.g l f.sa).psn then s0.consume x (if kind = 5 then a else 0)
      else if x.pairsDiffer fun l => [((s0.opnd x.g l f.sa).val, false)] then s0.mismatch x (if kind = 5 then a else 0) []
      else
        let set := fun (s : State) (arg : Nat) =>
          done (s.modEstate x.key fun e => e.setHeir kind arg (f.imm.getLsbD 1) (f.imm.getLsbD 0)) outs
        if kind = 5 then
          match State.checkAll x 0 .rmw [(m, a, 4, 4)] s0 [] with
          | .later s => s
          | .poison p => s0.consume x p
          | .done s cs =>
            match denyKinds [3, 4] (fun _ => a) cs with
            | [.trap t] => (done s []).takeTraps x.key x.pc x.opc (live.map fun l => { t with lane := l })
            | [.fault _ va sp ats _] => (done s []).parkFaults x .rmw (live.map fun l => .fault l va sp ats a)
            | _ => set s (a.toNat % 2 ^ 48)
        else set s0 (if kind = 1 then a.toNat % 16 else 0)

/-- R242: `heir.clr`. -/
def execHeirClr (c : Common) (f : FmtS) (s : State) : Host.Outcome State Fault Refusal :=
  plainFrame (.heirClr c f) s fun x s =>
    if x.pairsDiffer fun _ => [] then s.mismatch x 0 []
    else
      let s := if x.on.isEmpty then s else s.modEstate x.key fun e => e.setHeir 0 0 false (f.imm.getLsbD 0)
      s.finishLong x (x.on.map fun l => ⟨l, [], [], 0, none⟩) 0 (some f.sa) 0 [] [] false

/-- The summary word of `est.q` (R243). -/
def Estate.summary (e : Estate) : Word :=
  word (e.dfltKind % 8 * 2 ^ 21 + e.curKind % 8 * 2 ^ 18 + e.entries.length % 32 * 2 ^ 12)

/-- A query of the estate: fixed latency, a compare point in a paired launch. -/
def queryInstr (i : Instr) (s : State) (dst : BitVec 6) (nres : Nat) (vals : Estate → List Word) :
    Host.Outcome State Fault Refusal :=
  frame i s fun x s =>
    if x.pairsDiffer fun _ => [] then s.mismatch x 0 []
    else
      let strict := s.strictTraps x []
      let live := x.on.filter fun l => !strict.any fun t => t.lane == l
      let vs := (vals x.g.estate).map fun v => (v, false)
      (s.finish x (live.map fun l => ⟨l, vs, [], 0, none⟩) nres none dst [] 4).takeTraps x.key x.pc x.opc strict

/-- R243: `est.q`. -/
def execEstQ (c : Common) (f : FmtS) (s : State) : Host.Outcome State Fault Refusal :=
  queryInstr (.estQ c f) s f.dst 1 fun e => [e.summary]

/-- R243: `est.rd`. -/
def execEstRd (c : Common) (f : FmtS) (s : State) : Host.Outcome State Fault Refusal :=
  queryInstr (.estRd c f) s f.dst 2 fun e =>
    match e.entries[f.sel.toNat % 16]? with
    | some x => x.words
    | none => [0, 0]

/-! ### Heirs and conveyance (R244 to R247) -/

/-- What an heir resolves to. -/
inductive Heir where
  | holder (h : Holder)
  | key (addr : Nat)
  | launch (heirless : Bool)
  deriving DecidableEq, Repr

/-- What a departure is: the group's key, whether it was killed, and whether its gang will be relaunched. -/
structure Departure where
  key : Nat
  killed : Bool
  again : Bool
  deriving DecidableEq, Repr

/-- Resolves an heir with at most four passes (R244): what it is, and the passes made. -/
def State.heir (s : State) (d : Departure) (dfltKind dfltArg : Nat) : Nat → Nat → Nat → Nat → Heir × Nat
  | 0, _, _, n => (.launch true, n)
  | fuel + 1, kind, arg, n =>
    let id := s.identity d.key
    let tk := indexKey id.lslot id.team
    let gang := s.gangOf d.key
    let running := (s.groupsOf tk).filter fun e => e.1 != d.key && e.2.stage = .running
    match kind with
    | 1 =>
      if running.any fun e => e.2.gid == arg then (.holder ⟨0, id.lslot, arg, id.team⟩, n)
      else State.heir s d dfltKind dfltArg fuel dfltKind dfltArg (n + 1)
    | 2 =>
      match running.map fun e => e.2.gid with
      | g :: t => (.holder ⟨0, id.lslot, t.foldl min g, id.team⟩, n)
      | [] => State.heir s d dfltKind dfltArg fuel 3 0 (n + 1)
    | 3 =>
      let survives : Bool := match s.launch? id.lslot with
        | some ln => (s.teamsOfGang id.lslot gang ln.gangSize).any fun t =>
            (s.groupsOf t.1).any fun e => e.1 != d.key && e.2.stage = .running
        | none => false
      if survives then (.holder ⟨2, id.lslot, 0, gang⟩, n) else State.heir s d dfltKind dfltArg fuel 4 0 (n + 1)
    | 4 => (.launch false, n)
    | 5 =>
      let tenant := ((s.launch? id.lslot).map fun l => l.tenant).getD 0
      let writable : Bool := match (s.tenant? tenant).bind fun t => s.walk t.root arg with
        | some l => l.wr
        | none => false
      if writable then (.key arg, n) else State.heir s d dfltKind dfltArg fuel 4 0 (n + 1)
    | 6 => if d.again then (.holder ⟨1, id.lslot, 0, id.team⟩, n) else State.heir s d dfltKind dfltArg fuel 4 0 (n + 1)
    | _ => (.launch true, n + 1)

/-- Appends an estate record, or counts it as lost (R247, R297). On a page that is not present a fault record is posted, and the
record counts as written (log entry 22); none where its page must be waited for (R190). -/
def State.estateRecord (s : State) (d : Departure) (e : EstEntry) (heirless : Bool) (passes : Nat) : Option State :=
  let id := s.identity d.key
  match s.launch? id.lslot with
  | none => some s
  | some ln =>
    let w2 := word (b2n heirless * 2 ^ 63 + b2n d.killed * 2 ^ 62 + min passes 4 * 2 ^ 59 + bits (ctlWord 0 false id) 58 12 * 2 ^ 12)
    if ln.estn < ln.estcap then
      let va := ln.estate + 32 * ln.estn
      if s.mustWait ln.tenant va 32 .write then none
      else some ((s.devPut ln.tenant va (wordsBytes (e.words ++ [w2, word s.ns]))
          { lslot := id.lslot, core := coreReg d.key, team := id.team, grp := id.grp }).modLaunch id.lslot fun l =>
        { l with estn := l.estn + 1 })
    else some (s.modLaunch id.lslot fun l => { l with estlost := l.estlost + 1 })

/-- The RMW of a cell that conveys a holding to what its heir resolves to (R245, R431): a promise is dropped and its waiters woken; a
lock or claim is reserved, or freed and handed off. -/
def State.conveyCell (s : State) (c : Cell) (promise : Bool) (h : Heir) (id : Holder) : State :=
  let w := s.physWord c.pa
  if promise then
    let w := withSt w 3 (brvOf w)
    let w := match h with
      | .holder h => withHolder w h
      | .key _ => w
      | .launch _ => withHolder w { id with hk := 3 }
    ((s.setPhysWord c.pa w).setPhysWord (c.pa + 8) 0).settleProm c 2 0
  else
    match h with
    | .holder h =>
      let s := s.reserve c (withHolder (withSt w 2 true) h)
      (State.offer c true ((s.takers c).filter fun w => s.matchesHolder w.group h) s).1
    | .key _ => s.handOff c true
    | .launch _ => (s.setPhysWord c.pa (withHolder (withSt w 0 true) { id with hk := 3 })).handOff c true

/-- Conveys one holding (R245), with its estate record or its wake, and counts it; none where the page of the cell or of the record
must be waited for (R190). -/
def State.conveyOne (s : State) (d : Departure) (e : EstEntry) : Option State :=
  let id := s.identity d.key
  let est := ((s.group? d.key).map fun g => g.estate).getD Estate.fresh
  let tenant := ((s.launch? id.lslot).map fun l => l.tenant).getD 0
  let r := s.heir d est.dfltKind est.dfltArg 5 e.heir e.harg 0
  let r := if 4 < r.2 then (Heir.launch true, 4) else r
  let counted := fun (s : State) => s.modEstate d.key fun t => { t with
    entries := t.entries.filter fun x => !(x == e)
    conveyed := t.conveyed + 1
    heirless := t.heirless + b2n (r.1 == .launch true) }
  let cell : Option State := match s.devMap tenant e.key (if e.kind = 0 then 8 else 16) .rmw with
    | .ok s ((pa, _, _) :: _) => some (s.conveyCell ⟨tenant, e.key, pa⟩ (e.kind = 1) r.1 id)
    | .blocked _ => none
    | _ => some s
  (cell.bind fun s => match r.1 with
    | .key a => some (s.wake tenant a 0 2).1
    | .launch hl => s.estateRecord d e hl r.2
    | .holder _ => some s).map counted

/-- Conveys holdings in order, as far as no page must be waited for: whether all are. -/
def State.conveyList (d : Departure) : List EstEntry → State → State × Bool
  | [], s => (s, true)
  | e :: rest, s => match s.conveyOne d e with
    | some s => State.conveyList d rest s
    | none => (s, false)

/-- Conveys a departing group's estate from the newest entry to the oldest (R245), as far as no page must be waited for: whether all of
it is conveyed. -/
def State.convey (s : State) (d : Departure) : State × Bool :=
  match s.group? d.key with
  | some g => State.conveyList d g.estate.entries.reverse s
  | none => (s, true)

end Sys2Proof.Machine
end

