-- ==== Sys2Proof/Machine/Control.lean ====
section
/-! DEFINITION. Row 0x7: branches, calls, exits, regrouping, and launches from the device
(spec/08_control_group_sync_instructions.md R152 to R166). -/

namespace Sys2Proof.Machine

/-! ### Branches (R153 to R155) -/

/-- A PC that a lane goes to, whether its TARGET check is left to the fetch, and whether it returns from the handler. -/
structure Move where
  pc : Word
  unchecked : Bool
  leave : Bool
  deriving DecidableEq, Repr

/-- What a branch does in a lane. -/
inductive Branch where
  | next
  | to (m : Move)
  | trap (info : Nat) (addr : Word)
  deriving DecidableEq, Repr

/-- `goto(l, t)` (R154): `returns` where R360 lets the change go without the TARGET check. -/
def State.go (s : State) (x : Ctx) (l : Nat) (t : Word) (returns : Bool) : Branch :=
  if returns && (x.g.lane l).returnsTo t then .to ⟨t, false, true⟩
  else
    let r := s.target x.ln.tenant t
    if r.1 then .to ⟨t, r.2, false⟩ else .trap 12 t

/-- A branch to the slot OFS and `extra` slots from the instruction (R84, R152). -/
def State.goRel (s : State) (x : Ctx) (l : Nat) (f : FmtB) (extra : Nat) : Branch :=
  let n : Int := (linear x.pc : Int) + f.ofs.toInt + extra
  if n < 0 then .trap 12 0 else s.go x l (ofLinear n.toNat) false

/-- What a pair's compare looks at in a branch: the outcome and target. -/
def Branch.key : Branch → Nat × Word
  | .next => (0, 0)
  | .to m => (1, m.pc)
  | .trap n a => (2 + n, a)

/-- The compare of a branch (R378): pairs that differ in outcome or target, or, where they move, in guard or operands. -/
def Ctx.branchesDiffer (x : Ctx) (res : List (Nat × Branch)) (data : Nat → List RedVal) : Bool :=
  x.ln.paired && (List.range 16).any fun l =>
    let b := fun (l : Nat) => match res.find? (fun e => e.1 == l) with
      | some e => e.2.key
      | none => Branch.next.key
    has x.mask l && has x.mask (l + 16) &&
      (b l != b (l + 16) || ((b l).1 != 0 && !(data l == data (l + 16))))

/-- The minimum PC of a slice's active lanes (R30). -/
def Group.minPc (g : Group) (slice : Nat) : Option Word :=
  ((List.range 4).filterMap fun i =>
    let e := g.lane (slice * 4 + i)
    if e.status = .active then some e.pc else none).foldl (fun (m : Option Word) p =>
      match m with
      | some q => if p.toNat < q.toNat then some p else m
      | none => some p) none

/-- Counts a backward-taken branch in the slices whose minimum issue set took it (R50), and ends the freedom from the
reconvergence hold (R32). A branch to itself is backward. -/
def Group.countBack (g g0 : Group) (pc : Word) (ls : List Nat) : Group :=
  { g with slices := (withIdx g.slices).map fun e =>
      if ls.any (fun l => l / 4 == e.1) && g0.minPc e.1 == some pc then
        { e.2 with
          count := e.2.count + 1
          high := some (match e.2.high with
            | some h => if h.toNat < pc.toNat then pc else h
            | none => pc)
          unheld := false }
      else e.2 }

/-- The address that a compare of a branch names (R389): the target of the lowest lane that has one. -/
def movesTo (res : List (Nat × Branch)) : Word :=
  (res.findSome? fun e => match e.2 with
    | .to m => some m.pc
    | .trap _ a => some a
    | .next => none).getD 0

/-- Retires a branch: the lanes that move or go on, then those that trap. `lat` is the latency of its result, if any (R88). -/
def State.finishBranch (s : State) (x : Ctx) (res : List (Nat × Branch)) (strict : List Trap) (lat : Nat) : State :=
  let outs := res.filterMap fun e => match e.2 with
    | .next => some (⟨e.1, [], [], 0, none⟩ : Out)
    | .to m => some ⟨e.1, [], [], 0, some m.pc⟩
    | .trap _ _ => none
  let traps := res.filterMap fun e => match e.2 with
    | .trap n a => some (⟨e.1, 1, n, a⟩ : Trap)
    | _ => none
  let back := res.filterMap fun e => match e.2 with
    | .to m => if m.pc.toNat ≤ x.pc.toNat then some e.1 else none
    | _ => none
  let s := s.finish x outs 0 none 0 [] lat
  let s := s.modGroup x.key fun g =>
    (g.mapLanes fun l e => match res.find? fun r => r.1 == l with
      | some (_, .to m) => { e with unchecked := m.unchecked, hnd := e.hnd && !m.leave }
      | _ => e).countBack x.g x.pc back
  s.takeTraps x.key x.pc x.opc (strict ++ traps)

/-- The address that a branch or call consumes: the operand of the lowest lane in which it is poisoned, where it is a target
(R389). -/
def State.target? (s : State) (x : Ctx) (codes : List (BitVec 6)) (live : List Nat) : Word :=
  match codes with
  | c :: _ => ((live.find? fun l => (s.opnd x.g l c).psn).map fun l => (s.opnd x.g l c).val).getD 0
  | [] => 0

/-- A branch whose lanes decide on an operand, if any, which is consumed where it is poisoned (R382); `tgt` says that it is a code
address. -/
def branchInstr (i : Instr) (s : State) (codes : List (BitVec 6)) (tgt : Bool) (body : Ctx → State → Nat → Branch) :
    Host.Outcome State Fault Refusal :=
  frame i s fun x s =>
    let strict := s.strictTraps x codes
    let live := x.on.filter fun l => !strict.any fun t => t.lane == l
    let data := fun l => codes.map fun c => ((s.opnd x.g l c).val, (s.opnd x.g l c).psn)
    if live.any fun l => (data l).any fun v => v.2 then s.consume x (if tgt then s.target? x codes live else 0)
    else
      let res := live.map fun l => (l, body x s l)
      if x.branchesDiffer res data then s.mismatch x (movesTo res) [] else s.finishBranch x res strict 0

/-- R153: `bra`. -/
def execBra (c : Common) (f : FmtB) (s : State) : Host.Outcome State Fault Refusal :=
  branchInstr (.bra c f) s [] false fun x s l => s.goRel x l f 0

/-- R153: `brx`. -/
def execBrx (c : Common) (f : FmtB) (s : State) : Host.Outcome State Fault Refusal :=
  branchInstr (.brx c f) s [f.sa] true fun x s l => s.go x l (s.opnd x.g l f.sa).val true

/-- Whether the tested bits of `bra.z` and `bra.nz` are zero (R153). -/
def testsZero (f : FmtB) (v : Word) : Bool := v.toNat % 2 ^ (64 / 2 ^ (f.mod.toNat % 4)) = 0

/-- R155: `bra.z`. -/
def execBraZ (c : Common) (f : FmtB) (s : State) : Host.Outcome State Fault Refusal :=
  branchInstr (.braZ c f) s [f.sa] false fun x s l =>
    if testsZero f (s.opnd x.g l f.sa).val then s.goRel x l f 0 else .next

/-- R155: `bra.nz`. -/
def execBraNz (c : Common) (f : FmtB) (s : State) : Host.Outcome State Fault Refusal :=
  branchInstr (.braNz c f) s [f.sa] false fun x s l =>
    if testsZero f (s.opnd x.g l f.sa).val then .next else s.goRel x l f 0

/-- R155: `jtab`. -/
def execJtab (c : Common) (f : FmtB) (s : State) : Host.Outcome State Fault Refusal :=
  branchInstr (.jtab c f) s [f.sa] false fun x s l =>
    let i := (s.opnd x.g l f.sa).val.toNat
    if i < 2 ^ f.mod.toNat then s.goRel x l f i else .next

/-- R155: `loop`. A lane that traps keeps its count. -/
def execLoop (c : Common) (f : FmtB) (s : State) : Host.Outcome State Fault Refusal :=
  frame (.loop c f) s fun x s =>
    let strict := s.strictTraps x [f.sa]
    let live := x.on.filter fun l => !strict.any fun t => t.lane == l
    let count := fun l => s.opnd x.g l f.sa
    let next := fun l => (count l).val.toNat - 1
    if live.any fun l => (count l).psn then s.consume x 0
    else
      let res := live.map fun l => (l, if next l = 0 then Branch.next else s.goRel x l f 0)
      if x.branchesDiffer res fun l => [((count l).val, false)] then s.mismatch x (movesTo res) []
      else
        let stays := fun (b : Branch) => match b with
          | .trap _ _ => false
          | _ => true
        let s1 := s.modGroup x.key fun g => g.mapLanes fun l e =>
          if res.any (fun r => r.1 == l && stays r.2) then e.dst f.sa (word (next l), false) (.from (s.cycle + 4)) else e
        s1.finishBranch x res strict 4

/-! ### Calls and returns (R156, R157) -/

/-- The link register that a depth names. -/
def linkAt (e : Lane) (d : Nat) : Word := e.link.getD (d % 8) 0

/-- The access of the link region that a call or return at a depth makes, if any: its word. -/
def spillWord (call : Bool) (d : Nat) : Option Nat :=
  if call then (if 8 ≤ d then some (d - 8) else none) else if 8 ≤ d - 1 then some (d - 9) else none

/-- The frame of `call`, `callx` and `ret`: the target and depth checks, the spill or refill of each lane, then the
moves (R157). -/
def callInstr (i : Instr) (s : State) (codes : List (BitVec 6)) (call : Bool) (body : Ctx → State → Nat → Branch) :
    Host.Outcome State Fault Refusal :=
  frame i s fun x s0 =>
    let strict := s0.strictTraps x codes
    let live := x.on.filter fun l => !strict.any fun t => t.lane == l
    let data := fun l => codes.map fun c => ((s0.opnd x.g l c).val, (s0.opnd x.g l c).psn)
    if live.any fun l => (data l).any fun v => v.2 then s0.consume x (s0.target? x codes live)
    else
      let depth := fun l => (x.g.lane l).depth
      let res := live.map fun l => (l,
        if !call && depth l = 0 then Branch.trap 14 x.pc
        else match body x s0 l with
          | .to m => if call && depth l = 1024 then Branch.trap 14 m.pc else .to m
          | b => b)
      if x.branchesDiffer res data then s0.mismatch x (movesTo res) []
      else
        let movers := (res.filter fun e => match e.2 with
          | .to _ => true
          | _ => false).map fun e => e.1
        let acc := if call then Acc.write else Acc.read
        let entry := fun l => match spillWord call (depth l) with
          | some w => (l, word (8 * w), 8, 8)
          | none => (l, 0, 0, 8)
        match State.checkAll x 3 acc ((x.actors movers).map entry) s0 [] with
        | .later s => s
        | .poison a => s0.consume x a
        | .done s cs =>
          let r := (passed cs).foldl (fun (a : State × List (Nat × Option Word)) p =>
            if p.2.isEmpty then (a.1, a.2 ++ [(p.1, none)])
            else if call then
              (a.1.writePieces x p.1 false p.2 (leBytes 8 (linkAt (x.g.lane p.1) (depth p.1)).toNat), a.2 ++ [(p.1, none)])
            else
              let q := a.1.readPieces x p.1 true p.2
              (q.1, a.2 ++ [(p.1, some (word (leNat q.2.1)))])) (s, [])
          let done := if x.ln.paired then
              r.2 ++ (r.2.filter fun e => movers.contains (e.1 + 16)).map fun e => (e.1 + 16, e.2) else r.2
          let s := r.1.modGroup x.key fun g => g.mapLanes fun l e =>
            match done.find? fun d => d.1 == l with
            | some (_, w) =>
              if call then { e with link := updAt (fun _ => succPc x.pc) (e.depth % 8) e.link, depth := e.depth + 1 }
              else { e with
                link := (match w with
                  | some v => updAt (fun _ => v) ((e.depth - 1) % 8) e.link
                  | none => e.link)
                depth := e.depth - 1 }
            | none => e
          let stays := res.filter fun e => !movers.contains e.1 || done.any fun d => d.1 == e.1
          (s.finishBranch x stays (strict ++ trapsOf x cs) 0).parkFaults x acc cs

/-- R157: `call`. -/
def execCall (c : Common) (f : FmtB) (s : State) : Host.Outcome State Fault Refusal :=
  callInstr (.call c f) s [] true fun x s l => s.goRel x l f 0

/-- R157: `callx`. -/
def execCallx (c : Common) (f : FmtB) (s : State) : Host.Outcome State Fault Refusal :=
  callInstr (.callx c f) s [f.sa] true fun x s l => s.go x l (s.opnd x.g l f.sa).val true

/-- R157: `ret`. -/
def execRet (c : Common) (f : FmtB) (s : State) : Host.Outcome State Fault Refusal :=
  callInstr (.ret c f) s [] false fun x s l => s.go x l (linkAt (x.g.lane l) ((x.g.lane l).depth - 1)) true

/-! ### Joins, exits and yields (R159 to R163) -/

/-- R163: `join` and `join.set`. A non-member of the set raises illegal membership, and the instruction then has no
effect in the other guard-true lanes (R362). -/
def execJoin (c : Common) (f : FmtS) (s : State) : Host.Outcome State Fault Refusal :=
  plainFrame (.join c f) s fun x s =>
    let isSet := f.sel.getLsbD 3
    let i := f.sel.toNat % 8
    let members := (s.mset x.tk i).members.getD x.g.gid 0
    let bad := x.on.filter fun l => isSet && !has members l
    let traps := bad.map fun l => (⟨l, 3, 0, 0⟩ : Trap)
    let ws := x.on.map fun l =>
      (l, (⟨if isSet then .joinSet else .join, if isSet then word i else 0, 0, 0, 0, 0⟩ : Wait))
    if !bad.isEmpty || ws.isEmpty then (s.finish x [] 0 none 0 [] 0).takeTraps x.key x.pc x.opc traps
    else (s.startWait x ws [] 0 none 0 .ready).recheck x.tk

/-- The check of R159: the guard-true lanes raise heirless exit. -/
def State.heirlessExit (s : State) (x : Ctx) : Option State :=
  if !x.on.isEmpty && x.g.heirless x.onMask then
    some ((s.finish x [] 0 none 0 [] 0).takeTraps x.key x.pc x.opc (x.on.map fun l => ⟨l, 4, 0, 0⟩))
  else none

/-- R159: `exit`. -/
def execExit (c : Common) (f : FmtS) (s : State) : Host.Outcome State Fault Refusal :=
  plainFrame (.exit c f) s fun x s =>
    if x.pairsDiffer fun _ => [] then s.mismatch x 0 []
    else match s.heirlessExit x with
      | some s => s
      | none => (s.finish x [] 0 none 0 [] 0).exitLanes x.key x.onMask

/-- R161: `yield`. -/
def execYield (c : Common) (f : FmtS) (s : State) : Host.Outcome State Fault Refusal :=
  plainFrame (.yield c f) s fun x s =>
    let s := s.finish x (x.on.map fun l => ⟨l, [], [], 0, none⟩) 0 none 0 [] 0
    s.modGroup x.key fun g => { g with slices := (withIdx g.slices).map fun e =>
      if !x.on.isEmpty && (lanesOf x.mask).any (fun l => l / 4 == e.1) then { e.2 with yield := some (s.cycle + 64) }
      else e.2 }

/-- R160: `exit.wk`. -/
def execExitWk (c : Common) (f : FmtS) (s : State) : Host.Outcome State Fault Refusal :=
  frame (.exitWk c f) s fun x s0 =>
    let strict := s0.strictTraps x [f.sa]
    let live := x.on.filter fun l => !strict.any fun t => t.lane == l
    let a := fun l => (s0.opnd x.g l f.sa).val
    if live.any fun l => (s0.opnd x.g l f.sa).psn then s0.consume x (s0.target? x [f.sa] live)
    else if x.pairsDiffer fun l => [(a l, false)] then s0.mismatch x ((live.head?.map a).getD 0) []
    else match s0.heirlessExit x with
      | some s => s
      | none =>
        match State.checkAll x 0 .read ((x.actors live).map fun l => (l, a l, 1, 1)) s0 [] with
        | .later s => s
        | .poison p => s0.consume x p
        | .done s cs =>
          let cs := denyKinds [3, 4] a cs
          let s := (passed cs).foldl (fun s p =>
            let k := s.keyOf x 0 (a p.1).toNat
            (s.wake k.1 k.2 (f.imm.toNat % 65536) 0).1.recallLine k.1 k.2) s
          let gone := maskOf fun l => (passed cs).any fun p => p.1 == l || (x.ln.paired && p.1 + 16 == l && x.on.contains l)
          let s := (s.finish x [] 0 none 0 [] 0).exitLanes x.key gone
          (s.takeTraps x.key x.pc x.opc (strict ++ trapsOf x cs)).parkFaults x .read cs

/-! ### `regroup` (R42, R162) -/

/-- The continuation record of a lane. -/
def State.contRec (s : State) (x : Ctx) (l : Nat) (t : Word) : ContRec :=
  let r := fun i => s.opnd x.g l (BitVec.ofNat 6 (0x10 + i))
  ⟨t, (List.range 8).map fun i => (r i).val, (x.g.lane l).thread,
    [false, false, false, false] ++ (List.range 8).map fun i => (r i).psn⟩

/-- Sends the records of lanes to the binner in ascending order: the lanes whose record was taken and those held. -/
def State.regroupLanes (x : Ctx) : List (Nat × Word) → State → List Nat → List Nat → State × List Nat × List Nat
  | [], s, gone, held => (s, gone.reverse, held.reverse)
  | (l, t) :: rest, s, gone, held =>
    match s.binArrive x.tk (s.contRec x l t) with
    | some s => State.regroupLanes x rest s (l :: gone) held
    | none => State.regroupLanes x rest s gone (l :: held)

/-- R162: `regroup`. -/
def execRegroup (c : Common) (f : FmtB) (s : State) : Host.Outcome State Fault Refusal :=
  frame (.regroup c f) s fun x s =>
    let ind := f.mod.getLsbD 0
    let codes := if ind then [f.sa] else []
    if !x.ln.isPool then
      (s.finish x [] 0 none 0 [] 0).takeTraps x.key x.pc x.opc (x.on.map fun l => ⟨l, 1, 16, 0⟩)
    else
      let strict := s.strictTraps x (codes ++ (List.range 8).map fun i => BitVec.ofNat 6 (0x10 + i))
      let live := x.on.filter fun l => !strict.any fun t => t.lane == l
      let data := fun l => codes.map fun c => ((s.opnd x.g l c).val, (s.opnd x.g l c).psn)
      if live.any fun l => (data l).any fun v => v.2 then s.consume x (s.target? x codes live)
      else
        let res := live.map fun l => (l, if ind then s.go x l (s.opnd x.g l f.sa).val false else s.goRel x l f 0)
        let carry := fun l => data l ++ (s.contRec x l 0).carry.zip ((s.contRec x l 0).psn.drop 4)
        if x.branchesDiffer res carry then s.mismatch x (movesTo res) []
        else
          let movers := res.filterMap fun e => match e.2 with
            | .to m => some (e.1, m.pc)
            | _ => none
          let twin := fun (ls : List Nat) => if x.ln.paired then
              ls ++ (ls.filter fun l => movers.any fun m => m.1 == l + 16).map (· + 16) else ls
          let r := State.regroupLanes x (if x.ln.paired then movers.filter fun m => m.1 < 16 else movers) s [] []
          let traps := res.filterMap fun e => match e.2 with
            | .trap n a => some (⟨e.1, 1, n, a⟩ : Trap)
            | _ => none
          let ws := (twin r.2.2).map fun l => (l, (⟨.regroupFull, 0, 0, 0, 0, 0⟩ : Wait))
          let s := if ws.isEmpty then r.1.finish x [] 0 none 0 [] 0 else r.1.startWait x ws [] 0 none 0 .ready
          (s.takeTraps x.key x.pc x.opc (strict ++ traps)).exitLanes x.key (maskOf fun l => (twin r.2.1).contains l)

/-! ### Launches from the device (R165, R166) -/

/-- A queue's position counted from CI, modulo 2^17 (R284). -/
def Queue.ahead (q : Queue) (seq : Nat) : Nat := (seq % 2 ^ 17 + 2 ^ 17 - q.ci) % 2 ^ 17

/-- Whether a queue is processed: enabled, with a legal LOG2N (R283). -/
def Queue.works (q : Queue) : Bool := q.en && 4 ≤ q.log2n && q.log2n ≤ 16

/-- A kick (R286, R412): a sequence below CI, one beyond the ring, or a disabled queue, is ignored; an earlier kick of a
later packet stands. -/
def Queue.kicked (q : Queue) (seq : Nat) : Queue :=
  let d := q.ahead seq
  if !q.works || 2 ^ 16 ≤ d || 2 ^ q.log2n ≤ d then q
  else match q.kick with
    | some k => if 2 ^ 16 ≤ q.ahead k || q.ahead k < d then { q with kick := some (seq % 2 ^ 17) } else q
    | none => { q with kick := some (seq % 2 ^ 17) }

/-- A kick that finds the slot of CI stamped clears KE (R412). -/
def State.kickSeen (s : State) (qn : Nat) : State :=
  let q := s.queue qn
  if !q.ke || !q.works then s
  else match s.devRead q.tenant (q.base + 64 * (q.ci % 2 ^ q.log2n)) 8 with
    | .ok s (bs, psn) => if !psn && leNat bs % 2 ^ 17 = q.ci then s.modQueue qn fun q => { q with ke := false } else s
    | _ => s

/-- Whether no slot of a queue is free for the device's next packet. -/
def Queue.full (q : Queue) : Bool := 2 ^ q.log2n ≤ (q.pi + 2 ^ 17 - q.ci) % 2 ^ 17

/-- The words of a packet that the device writes (R284, R285). -/
def packetWords (seq kind : Nat) (record start : Word) : List Word :=
  [word (kind * 2 ^ 17 + seq % 2 ^ 17), record, start, 0, 0, 0, 0, 0]

/-- What an issue does where an access it makes to a ring in its tenant's memory does not succeed (R362, log entry 47). No lane parks
on a page that is not present: a record is posted as for an engine, and the issue is held until the page is there; `denied` is what a
protection fault does. -/
def State.ringFault (s : State) (x : Ctx) (addr : Nat) (denied : State → State) : Dev Unit → State
  | .fault va => s.targetFault x.ln.tenant va 1
      { lslot := x.lk, core := coreReg x.key, team := x.t.idx, grp := x.g.gid, pc := x.pc }
  | .prot => denied s
  | .poison => s.consume x (word addr)
  | .blocked s => s
  | .ok s _ => s

/-- Whether a `launch.t` does not issue: its tag's pending count cannot rise (R65). -/
def State.launchHolds (s : State) (x : Ctx) (f : FmtE) : Bool :=
  f.mod.getLsbD 1 && !s.tagRoom x.core (x.ln.tagBase + f.tag.toNat)

/-- Whether a queue number names no device queue of the launching tenant (R165). -/
def State.badQueue (s : State) (x : Ctx) (qn : Nat) : Bool := !((s.queue qn).devq && (s.queue qn).tenant == x.ln.tenant)

/-- Whether a `launch.t` does not issue: it passes its checks first (R165, R357). -/
def State.launchStays (s : State) (x : Ctx) (f : FmtE) : Bool :=
  let qn := (s.opnd x.g 0 f.ub).val.toNat
  qn < 4096 && (s.opnd x.g 0 f.ua).val.toNat % 64 = 0 && !s.badQueue x qn && !(x.pairsDiffer fun _ => []) &&
    (x.on.any fun l => !(s.strictTraps x [f.ua, f.ub, f.uc]).any fun t => t.lane == l) && s.launchHolds x f

/-- `launch` and `launch.pool`. A queue that is not a device queue of the launching tenant, and a misaligned record, are issue
faults of every lane (R357, R362), where R165 speaks of the guard-true lanes (DEDUCED, log entry 32). With REL, the stores that
lanes of the group still buffer are performed before the packet is written (R166). -/
def launchInstr (i : Instr) (s : State) (f : FmtE) (kind : Nat) : Host.Outcome State Fault Refusal :=
  frame i s fun x s =>
    let rd := fun (c : BitVec 6) => s.opnd x.g 0 c
    let ua := (rd f.ua).val
    let qn := (rd f.ub).val.toNat
    let first := some f.ua
    let outs := fun (ls : List Nat) (v : Word) => ls.map fun l => (⟨l, [(v, false)], [], 0, none⟩ : Out)
    if 4096 ≤ qn then s.issueTrap x 1 13 0
    else if ua.toNat % 64 ≠ 0 then s.issueTrap x 5 0 ua
    else if s.badQueue x qn then s.issueTrap x 6 0 (word qn)
    else if x.pairsDiffer fun _ => [] then s.mismatch x 0 []
    else
      let strict := s.strictTraps x [f.ua, f.ub, f.uc]
      let live := x.on.filter fun l => !strict.any fun t => t.lane == l
      let q := s.queue qn
      let tag := x.ln.tagBase + f.tag.toNat
      let tagged := f.mod.getLsbD 1
      if live.isEmpty then (s.finish x [] 1 first f.dst [] 4).takeTraps x.key x.pc x.opc strict
      else if s.launchHolds x f then s
      else if q.full then
        if f.mod.getLsbD 0 then
          let s := if tagged then (s.tagIssue x.core tag).tagDone x.core tag 0 0 0 none else s
          let v := word (2 ^ 63 + qn * 2 ^ 16 + Config.freeNat s.free % 2 ^ 16)
          (s.finish x (outs live v) 1 first f.dst [] 4).takeTraps x.key x.pc x.opc strict
        else
          (s.startWait x (live.map fun l => (l, ⟨.launchFull, word qn, 0, f.dst, 0, 0⟩)) [] 1 first f.dst
            (.from (s.cycle + 4))).takeTraps x.key x.pc x.opc strict
      else
        let s := if f.rel = 1 then (List.range groupLanes).foldl (fun s l => s.drainWcb x.key l) s else s
        let addr := q.base + 64 * (q.pi % 2 ^ q.log2n)
        match s.devWrite x.ln.tenant addr (wordsBytes (packetWords q.pi kind ua (rd f.uc).val)) with
        | .ok s _ =>
          let s := s.modQueue qn fun q =>
            { q.kicked q.pi with
              pi := (q.pi + 1) % 2 ^ 17
              issuers := q.issuers.put q.pi
                ⟨indexKey x.lk x.gang, x.ln.serial, ((s.gang? (indexKey x.lk x.gang)).map Gang.attempt).getD 0, coreReg x.key⟩
              kids := if tagged then q.kids.put q.pi (x.tk, tag) else q.kids.del q.pi }
          let s := (if tagged then s.tagIssue x.core tag else s).kickSeen qn
          let v := word (qn * 2 ^ 16 + q.pi % 2 ^ 16)
          (s.finish x (outs live v) 1 first f.dst [] 4).takeTraps x.key x.pc x.opc strict
        | r => s.ringFault x addr (fun s => s.issueTrap x 6 0 (word addr)) r

/-- R165: `launch`. -/
def execLaunch (c : Common) (f : FmtE) (s : State) : Host.Outcome State Fault Refusal := launchInstr (.launch c f) s f 0

/-- R165: `launch.pool`. -/
def execLaunchPool (c : Common) (f : FmtE) (s : State) : Host.Outcome State Fault Refusal :=
  launchInstr (.launchPool c f) s f 1

end Sys2Proof.Machine
end

