-- ==== Sys2Proof/Machine/Sync.lean ====
section
/-! DEFINITION. Row 0x8: barriers, membership sets, gates, pacing, traps, system calls and stops
(spec/08_control_group_sync_instructions.md R167 to R178). -/

namespace Sys2Proof.Machine

/-- Results of fixed latency of lanes that all push one value. -/
def samePush (ls : List Nat) (v : Word) : List Out := ls.map fun l => ⟨l, [(v, false)], [], 0, none⟩

/-- Lanes that retire with nothing. -/
def plainOuts (ls : List Nat) : List Out := ls.map fun l => ⟨l, [], [], 0, none⟩

/-! ### Barriers (R167 to R170) -/

/-- The barrier that SEL names. -/
def barOf (f : FmtS) : Nat := f.sel.toNat % 32

/-- The count that an arrival gives. -/
def barCount (f : FmtS) : Nat := f.imm.toNat % 65536

/-- Whether an arrival gives another count than the open phase has (R168). -/
def Barrier.refuses (b : Barrier) (e : Nat) : Bool :=
  match b.opened with
  | some k => k != e
  | none => false

/-- The traps of a barrier arrival: pending reads in strict debug mode, and illegal membership of the others where the count is not
the phase's (R168, R369). An arrival that faults arrives in none of its issue's lanes (R362). -/
def State.arrivalTraps (s : State) (x : Ctx) (f : FmtS) : List Trap :=
  let strict := s.strictTraps x []
  strict ++ if (s.bar x.tk (barOf f)).refuses (barCount f) then
      (x.on.filter fun l => !strict.any fun t => t.lane == l).map fun l => ⟨l, 3, 0, 0⟩
    else []

/-- R168: `bar.arv`. -/
def execBarArv (c : Common) (f : FmtS) (s : State) : Host.Outcome State Fault Refusal :=
  frame (.barArv c f) s fun x s =>
    let b := barOf f
    let v := s.bar x.tk b
    let traps := s.arrivalTraps x f
    if !traps.isEmpty then (s.finish x [] 1 none f.dst [] 4).takeTraps x.key x.pc x.opc traps
    else
      let s := s.finish x (samePush x.on (word (v.phase % 2 ^ 32))) 1 none f.dst [] 4
      if x.on.isEmpty then s else s.arrive x.tk b x.on.length (some (barCount f))

/-- R168: `bar.sync` and `bar.sync.wo`. -/
def execBarSync (c : Common) (f : FmtS) (s : State) : Host.Outcome State Fault Refusal :=
  frame (.barSync c f) s fun x s =>
    let b := barOf f
    let v := s.bar x.tk b
    let offA := Avail.from (s.cycle + 4)
    if f.imm.getLsbD 16 then
      let strict := s.strictTraps x [f.sa]
      let live := x.on.filter fun l => !strict.any fun t => t.lane == l
      let a := fun l => (s.opnd x.g l f.sa).val.toNat % 2 ^ 32
      let outs := samePush (live.filter fun l => v.passed (a l)) v.phaseWord
      let ws := (live.filter fun l => !v.passed (a l)).map fun l =>
        (l, (⟨.barSyncWo, word b, 0, f.dst, 0, word (a l)⟩ : Wait))
      let s := if ws.isEmpty then s.finish x outs 1 (some f.sa) f.dst [] 4
        else s.startWait x ws outs 1 (some f.sa) f.dst offA
      s.takeTraps x.key x.pc x.opc strict
    else
      let traps := s.arrivalTraps x f
      if !traps.isEmpty || x.on.isEmpty then (s.finish x [] 1 none f.dst [] 4).takeTraps x.key x.pc x.opc traps
      else
        let ws := x.on.map fun l => (l, (⟨.barrier, word b, 0, f.dst, 0, word (v.phase % 2 ^ 32)⟩ : Wait))
        (s.startWait x ws [] 1 none f.dst offA).arrive x.tk b x.on.length (some (barCount f))

/-- R168: `bar.rd`. -/
def execBarRd (c : Common) (f : FmtS) (s : State) : Host.Outcome State Fault Refusal :=
  plainFrame (.barRd c f) s fun x s => s.finish x (samePush x.on (s.bar x.tk (barOf f)).phaseWord) 1 none f.dst [] 4

/-! ### Membership sets (R171, R172) -/

/-- R171: `set.join`. A lane that joins while a phase or join is open is not counted in it. -/
def execSetJoin (c : Common) (f : FmtS) (s : State) : Host.Outcome State Fault Refusal :=
  plainFrame (.setJoin c f) s fun x s =>
    let i := f.sel.toNat % 8
    let old := (s.mset x.tk i).members.getD x.g.gid 0
    let open' := s.setOpen x.tk i
    let s := s.modSet x.tk i fun m => { m with
      members := updAt (fun k => k ||| x.onMask) x.g.gid m.members
      late := if open' then updAt (fun k => k ||| (x.onMask &&& ~~~ old)) x.g.gid m.late else m.late }
    s.finish x (plainOuts x.on) 0 none 0 [] 0

/-- R171: `set.leave`. A lane that leaves counts as arrived. -/
def execSetLeave (c : Common) (f : FmtS) (s : State) : Host.Outcome State Fault Refusal :=
  plainFrame (.setLeave c f) s fun x s =>
    let i := f.sel.toNat % 8
    let s := s.modSet x.tk i fun m => { m with
      members := updAt (fun k => k &&& ~~~ x.onMask) x.g.gid m.members
      late := updAt (fun k => k &&& ~~~ x.onMask) x.g.gid m.late }
    (s.finish x (plainOuts x.on) 0 none 0 [] 0).checkSet x.tk i

/-- R172: `set.sync`. -/
def execSetSync (c : Common) (f : FmtS) (s : State) : Host.Outcome State Fault Refusal :=
  frame (.setSync c f) s fun x s =>
    let i := f.sel.toNat % 8
    let m := s.mset x.tk i
    let members := m.members.getD x.g.gid 0
    let masked := f.sa != 0x3F
    let strict := s.strictTraps x [f.sa]
    let live := x.on.filter fun l => !strict.any fun t => t.lane == l
    let given := fun l => (s.opnd x.g l f.sa).val.toNat % 2 ^ 32
    if live.any fun l => masked && (s.opnd x.g l f.sa).psn then s.consume x 0
    else
      let outside := live.filter fun l => !has members l
      let clash := masked && live.any fun l => given l != members.toNat || (match m.masks.get? x.g.gid with
        | some v => v.toNat != given l
        | none => false)
      let bad := if !outside.isEmpty && !clash then outside else if clash then live else []
      let done := fun (s : State) => s.finish x [] 0 none 0 [] 0
      if !bad.isEmpty || !strict.isEmpty || live.isEmpty then
        (done s).takeTraps x.key x.pc x.opc (strict ++ bad.map fun l => ⟨l, 3, 0, 0⟩)
      else
        let s := if masked then s.modSet x.tk i fun m => { m with masks := m.masks.put x.g.gid (word members.toNat) } else s
        (s.startWait x (live.map fun l => (l, ⟨.setSync, word i, 0, 0, 0, 0⟩)) [] 0 none 0 .ready).checkSet x.tk i

/-! ### Gates, release and pacing (R173 to R175) -/

/-- R173: `gate`. -/
def execGate (c : Common) (f : FmtS) (s : State) : Host.Outcome State Fault Refusal :=
  plainFrame (.gate c f) s fun x s =>
    match s.gate x.ln with
    | some k => s.finish x (samePush x.on (word (b2n k))) 1 none f.dst [] 4
    | none =>
      if x.on.isEmpty then s.finish x [] 1 none f.dst [] 4
      else s.startWait x (x.on.map fun l => (l, ⟨.gate, 0, 0, f.dst, 0, 0⟩)) [] 1 none f.dst (.from (s.cycle + 4))

/-- R173: `rls`. -/
def execRls (c : Common) (f : FmtS) (s : State) : Host.Outcome State Fault Refusal :=
  plainFrame (.rls c f) s fun x s =>
    let s := s.finish x (plainOuts x.on) 0 none 0 [] 0
    if x.on.isEmpty then s else (s.modGroup x.key fun g => { g with rls := true }).checkRls x.tk

/-- R174: `lead.adv`. -/
def execLeadAdv (c : Common) (f : FmtS) (s : State) : Host.Outcome State Fault Refusal :=
  plainFrame (.leadAdv c f) s fun x s =>
    let v := (x.t.lead + f.imm.toNat % 256) % 2 ^ 32
    let s := if x.on.isEmpty then s else s.modTeam x.tk fun t => { t with lead := v }
    s.finish x (samePush x.on (word v)) 1 none f.dst [] 4

/-- R174: `lead.wait`. -/
def execLeadWait (c : Common) (f : FmtS) (s : State) : Host.Outcome State Fault Refusal :=
  plainFrame (.leadWait c f) s fun x s =>
    if x.on.isEmpty || s.leadOk x.tk then s.finish x (plainOuts x.on) 0 none 0 [] 0
    else s.startWait x (x.on.map fun l => (l, ⟨.leadWait, 0, 0, 0, 0, 0⟩)) [] 0 none 0 .ready

/-- R175: `twait`. A target beyond the range of a word is never reached. -/
def execTwait (c : Common) (f : FmtS) (s : State) : Host.Outcome State Fault Refusal :=
  frame (.twait c f) s fun x s =>
    let strict := s.strictTraps x [f.sa]
    let live := x.on.filter fun l => !strict.any fun t => t.lane == l
    let a := fun l => (s.opnd x.g l f.sa).val.toNat
    let goal := fun l => if f.imm.getLsbD 0 then s.ns + a l else a l
    if live.any fun l => (s.opnd x.g l f.sa).psn then s.consume x 0
    else
      let outs := samePush (live.filter fun l => goal l ≤ s.ns) (word s.ns)
      let ws := (live.filter fun l => s.ns < goal l).map fun l =>
        (l, (⟨.twait, word (min (goal l) (2 ^ 64 - 1)), 0, f.dst, 0, 0⟩ : Wait))
      let s := if ws.isEmpty then s.finish x outs 1 (some f.sa) f.dst [] 4
        else s.startWait x ws outs 1 (some f.sa) f.dst (.from (s.cycle + 4))
      s.takeTraps x.key x.pc x.opc strict

/-! ### Traps, system calls and stops (R176 to R178) -/

/-- R176: `trap`. -/
def execTrap (c : Common) (f : FmtS) (s : State) : Host.Outcome State Fault Refusal :=
  frame (.trap c f) s fun x s =>
    let strict := s.strictTraps x [f.sa]
    let live := x.on.filter fun l => !strict.any fun t => t.lane == l
    (s.finish x [] 0 none 0 [] 0).takeTraps x.key x.pc x.opc
      (strict ++ live.map fun l => ⟨l, 8, f.sel.toNat, (s.opnd x.g l f.sa).val⟩)

/-- The words of a system-call request (R320). -/
def syscWords (x : Ctx) (cls prod : Nat) (lanes : LaneMask) (arg : Word) : List Word :=
  [word (cls % 4096 * 2 ^ 44 + coreReg x.key * 2 ^ 33 + prod % 2 ^ 17), word (x.t.idx * 2 ^ 32 + lanes.toNat),
    word (x.g.gid * 2 ^ 12 + x.lk), arg, 0, 0, 0, 0]

/-- `sysc`, and `sysc.try` where `prd` gives its predicate. -/
def syscInstr (i : Instr) (s : State) (f : FmtS) (prd : Option Nat) : Host.Outcome State Fault Refusal :=
  frame i s fun x s =>
    let strict := s.strictTraps x [f.sa]
    let live := x.on.filter fun l => !strict.any fun t => t.lane == l
    let first := some f.sa
    let done := fun (s : State) (outs : List Out) => (s.finish x outs 1 first f.dst [] 4).takeTraps x.key x.pc x.opc strict
    match live with
    | [] => done s []
    | m :: _ =>
      let arg := s.opnd x.g m f.sa
      if arg.psn then s.consume x 0
      else if x.pairsDiffer fun l => [((s.opnd x.g l f.sa).val, (s.opnd x.g l f.sa).psn)] then s.mismatch x 0 []
      else match s.tenant? x.ln.tenant with
        | none => done s (samePush live 0)
        | some t =>
          let full := fun (s : State) => match prd with
            | some p => done s (live.map fun l => ⟨l, [(0, false)], [(p, false, false)], 0, none⟩)
            | none => (done s []).modGroup x.key fun g => g.mapLanes fun l e =>
                if live.contains l then { e with status := .parked, park := { e.park with sysc := true } } else e
          match s.devRead x.ln.tenant t.consAddr 8 with
          | .ok s (cons, _) =>
            if 2 ^ t.ringLog2 ≤ (t.prod + 2 ^ 17 - leNat cons % 2 ^ 17) % 2 ^ 17 then full s
            else
              let s := live.foldl (fun s l => s.drainWcb x.key l) s
              let addr := t.ringBase + 64 * (t.prod % 2 ^ t.ringLog2)
              let lanes := maskOf fun l => live.contains l
              match s.devWrite x.ln.tenant addr (wordsBytes (syscWords x f.sel.toNat t.prod lanes arg.val)) with
              | .ok s _ =>
                let s := s.modTenant x.ln.tenant fun t => { t with prod := (t.prod + 1) % 2 ^ 17 }
                let s := s.startWait x (live.map fun l => (l, ⟨.syscReply, word addr, 0, f.dst, 0, 0⟩)) [] 1 first f.dst
                  (.from (s.cycle + 4))
                let s := match prd with
                  | some p => s.modGroup x.key fun g => g.mapLanes fun l e =>
                      if live.contains l then e.setPreds [(p, true, false)] (.from (s.cycle + 4)) else e
                  | none => s
                s.takeTraps x.key x.pc x.opc strict
              | r => s.ringFault x addr full r
          | .fault va => s.ringFault x t.consAddr full (.fault va)
          | .prot => full s
          | .poison => s.consume x (word t.consAddr)
          | .blocked s => s

/-- R177: `sysc`. -/
def execSysc (c : Common) (f : FmtS) (s : State) : Host.Outcome State Fault Refusal := syscInstr (.sysc c f) s f none

/-- R177: `sysc.try`. -/
def execSyscTry (c : Common) (f : FmtS) (s : State) : Host.Outcome State Fault Refusal :=
  syscInstr (.syscTry c f) s f (some (f.imm.toNat % 8))

/-- Whether a debug session holds the consent of a tenant (R328). -/
def State.consents (s : State) (tenant : Nat) : Bool :=
  match (s.tenant? tenant).bind fun t => t.session with
  | some d => s.ns < d.expiry
  | none => false

/-- The stop mode of a team (R367); 3 is treated as 0. -/
def Team.stopMode (t : Team) : Nat := bits t.dctl 30 29 % 3

/-- Whether the token of a tenant's session permits a team's stop mode (R328). A stop in a mode that it does not permit does not
happen (DESIGN CHOICE, log entry 53: the spec does not say). -/
def State.modeOk (s : State) (tenant : Nat) (t : Team) : Bool :=
  ((s.tenant? tenant).bind fun t => t.session).all fun d => d.modes.getLsbD t.stopMode

/-- Whether `brk` stops a team's work: a session holds its tenant's consent, and permits the team's stop mode (R328, R368). -/
def State.mayStop (s : State) (tenant : Nat) (t : Team) : Bool := s.consents tenant && s.modeOk tenant t

/-- Stops a lane for debug: it parks, and a waiting lane will when its wait ends (R366, R370). -/
def Lane.stop (e : Lane) : Lane :=
  if e.status = .exited then e
  else { e with
    park := { e.park with debug := true }
    status := if e.status = .active then .parked else e.status }

/-- A stop (R368): the lanes, the group or the team as the stop mode says; it is reported to the session. -/
def State.debugStop (s : State) (key : Nat) (m : LaneMask) (pc : Word) (code : Nat) : State :=
  match s.group? key with
  | some g =>
    let mode := match s.team? g.team with
      | some t => t.stopMode
      | none => 0
    let all := fun (g : Group) => g.mapLanes fun _ e => e.stop
    let s := match mode with
      | 1 => s.modGroup key all
      | 2 => (s.groupsOf g.team).foldl (fun (s : State) (e : Nat × Group) => s.modGroup e.1 all) s
      | _ => s.modGroup key fun g => g.mapLanes fun l e => if has m l then e.stop else e
    s.say (.debugStop key m pc code)
  | none => s

/-- R178: `brk`. It retires first, and its lanes stop at the successor (R368). -/
def execBrk (c : Common) (f : FmtS) (s : State) : Host.Outcome State Fault Refusal :=
  plainFrame (.brk c f) s fun x s =>
    let s1 := s.finish x (plainOuts x.on) 0 none 0 [] 0
    if s.mayStop x.ln.tenant x.t && !x.on.isEmpty then s1.debugStop x.key x.onMask (succPc x.pc) f.sel.toNat else s1

/-- R178: `nop`. -/
def execNop (c : Common) (f : FmtS) (s : State) : Host.Outcome State Fault Refusal :=
  plainFrame (.nop c f) s fun x s => s.finish x (plainOuts x.on) 0 none 0 [] 0

end Sys2Proof.Machine
end

