-- ==== Sys2Proof/Machine/Copies.lean ====
section
/-! DEFINITION. Row 0xC: copy commands and tag instructions
(spec/12_tensor_copy_and_prologue.md R253, R254, R259, R261). -/

namespace Sys2Proof.Machine

/-! ### The frame of engine instructions -/

/-- A check of a uniform value: whether it fails, and the cause, INFO and TRAPADDR it then raises. -/
structure UCheck where
  bad : Bool
  cause : Nat
  info : Nat
  addr : Word
  deriving DecidableEq, Repr

/-- Illegal instruction with a subcode (R356). -/
def UCheck.ill (bad : Bool) (sub : Nat) : UCheck := ⟨bad, 1, sub, 0⟩

/-- Misalignment of a value to n bytes. -/
def UCheck.mis (a n : Nat) : UCheck := ⟨a % n != 0, 5, 0, word a⟩

/-- Protection. -/
def UCheck.prot (bad : Bool) (a : Nat) : UCheck := ⟨bad, 6, 0, word a⟩

/-- The operands that an instruction of format E uses, in order: an unused field holds 0x00 (R86), which no operand of this
format is. -/
def operandsE (f : FmtE) : List (BitVec 6) := [f.ua, f.ub, f.uc].filter fun c => 0x10 ≤ c.toNat

/-- The value of a uniform operand. -/
def State.uni (s : State) (x : Ctx) (c : BitVec 6) : Word := (s.opnd x.g 0 c).val

/-- With ACQ, the stores that the issuing lanes still buffer are performed before a command at system scope reads (R198,
R202). -/
def State.drainFor (s : State) (x : Ctx) (f : FmtE) (live : List Nat) : State :=
  if f.acq = 1 && f.scope = 5 then live.foldl (fun s l => s.drainWcb x.key l) s else s

/-- An instruction of format E: the checks of its uniform values in order (R357 step 4), strict debug mode, then its
body with the guard-true lanes that remain. Where there is none, it only retires. -/
def engineInstr (i : Instr) (s : State) (f : FmtE) (perLane : Bool) (nres : Nat) (first : Option (BitVec 6))
    (checks : Ctx → State → List UCheck) (body : Ctx → List Nat → State → State) : Host.Outcome State Fault Refusal :=
  frame i s fun x s =>
    match (checks x s).find? fun c => c.bad with
    | some c => s.issueTrap x c.cause c.info c.addr
    | none =>
      let strict := s.strictTraps x (operandsE f)
      let live := x.on.filter fun l => !strict.any fun t => t.lane == l
      if perLane && live.any fun l => (s.opnd x.g l f.uc).psn then s.consume x 0
      else if collective x.opc && !strict.isEmpty then s.takeTraps x.key x.pc x.opc strict
      else
        let s := if live.isEmpty then s.finishLong x [] nres first f.dst [] [] false else body x live s
        s.takeTraps x.key x.pc x.opc strict

/-- Whether an instruction of format E gets past the checks of its values and acts for some lane: what may keep it from issuing is
looked at last (R254, R357). -/
def State.goes (s : State) (x : Ctx) (f : FmtE) (perLane : Bool) (checks : Ctx → State → List UCheck) : Bool :=
  let strict := s.strictTraps x (operandsE f)
  let live := x.on.filter fun l => !strict.any fun t => t.lane == l
  !((checks x s).any fun c => c.bad) && !(perLane && live.any fun l => (s.opnd x.g l f.uc).psn) &&
    !(collective x.opc && !strict.isEmpty) && !live.isEmpty

/-! ### Copy commands (R253, R254) -/

/-- The B slot of a value as a check: at or beyond the window's count (R253). -/
def badSlot (x : Ctx) (n : Nat) : UCheck := .ill (x.ln.slotCnt ≤ n) 11

/-- Bits of a value outside a mask. -/
def strays (v : Word) (mask : Nat) : UCheck := .ill (v &&& ~~~ word mask != 0) 13

/-- A value outside a range. -/
def beyond (v : Word) (lo hi : Nat) : UCheck := .ill (v.toNat < lo || hi < v.toNat) 13

/-- A range of the scratchpad beyond the team's allocation. -/
def badScr (x : Ctx) (off n : Nat) : UCheck := .prot (x.t.scrBytes < off + n) off

/-- Bytes of an A tile (R128). -/
def aTileBytes : Nat := 8192

/-- The checks of `cp.tile` and `cp.bld`. -/
def tileChecks (bld : Bool) (f : FmtE) (x : Ctx) (s : State) : List UCheck :=
  let uc := s.uni x f.uc
  let chk := f.mod.getLsbD 3
  let sums := bits uc 50 32
  let k := pxK (pxOf (f.mod.toNat % 4))
  (if bld then [badSlot x (bits uc 5 0)] else []) ++
  [strays uc ((2 ^ 19 - 1) * 2 ^ 32 + if bld then 0x3F else 2 ^ 19 - 1), .mis (s.uni x f.ua).toNat 64] ++
  (if bld then [] else [.mis (bits uc 18 0) 256]) ++ [.mis sums 64] ++
  (if bld then [] else [badScr x (bits uc 18 0) aTileBytes]) ++ (if chk then [badScr x sums (4 * k)] else [])

/-- A scratchpad range of a raw copy, where its space is the scratchpad. -/
def rawScr (x : Ctx) (space : Nat) (a n : Nat) : List UCheck := if space = 1 then [badScr x a n] else []

def bulkChecks (f : FmtE) (x : Ctx) (s : State) : List UCheck :=
  let n := s.uni x f.uc
  let a := (s.uni x f.ua).toNat
  let b := (s.uni x f.ub).toNat
  [beyond n 16 (2 ^ 30), .mis a 16, .mis b 16, .mis n.toNat 16] ++
    rawScr x (f.mod.toNat % 4) a n.toNat ++ rawScr x (f.mod.toNat / 4 % 4) b n.toNat

/-- The checks of `cp.gath` and `cp.scat`: UA is the scratchpad side. -/
def laneCopyChecks (f : FmtE) (x : Ctx) (s : State) : List UCheck :=
  let n := s.uni x f.ub
  let a := (s.uni x f.ua).toNat
  [beyond n 16 4096, .mis a 16, .mis n.toNat 16, badScr x a (32 * n.toNat)]

def fillChecks (f : FmtE) (x : Ctx) (s : State) : List UCheck :=
  let n := s.uni x f.uc
  let a := (s.uni x f.ua).toNat
  [beyond n 8 (2 ^ 30), .mis a 8, .mis n.toNat 8] ++ rawScr x (f.mod.toNat / 4 % 4) a n.toNat

def outChecks (f : FmtE) (x : Ctx) (s : State) : List UCheck :=
  let uc := s.uni x f.uc
  let cols := bits uc 44 32
  [strays uc ((2 ^ 19 - 1) + 0x3F * 2 ^ 20 + (2 ^ 13 - 1) * 2 ^ 32), .ill (cols = 0 || 4096 < cols) 13,
    .mis (s.uni x f.ua).toNat 64, .mis (bits uc 18 0) 16, badScr x (bits uc 18 0) (4 * cols * (bits uc 25 20 + 1))]

/-- Entries of a core's Punty queue. -/
def puntyEntries : Nat := 32

/-- A command as it enters Punty's queue. -/
def State.newCmd (s : State) (x : Ctx) (f : FmtE) : Cmd :=
  { team := x.tk, gid := x.g.gid, opc := x.v.opc, mod := f.mod, ua := s.uni x f.ua, ub := s.uni x f.ub,
    uc := s.uni x f.uc,
    lanes := if isNamed f.uc then (List.range groupLanes).map fun l => (s.opnd x.g l f.uc).val else [],
    tag := x.ln.tagBase + f.tag.toNat, ttag := f.tag.toNat, acq := f.acq = 1, rel := f.rel = 1, scope := f.scope.toNat,
    pc := x.pc, chunk := 0, desc := [], saved := [], sums := List.replicate 384 (some 0), udf := 0, offend := none,
    fid := none, forced := false, marver := false }

/-- Whether a copy command does not issue: Punty's queue is full (R254), or its tag's pending count cannot rise (R65). -/
def State.puntyHolds (s : State) (x : Ctx) (f : FmtE) : Bool :=
  puntyEntries ≤ (s.core x.core).punty.length || !s.tagRoom x.core (x.ln.tagBase + f.tag.toNat)

/-- Queues a command, which raises its tag's pending count. -/
def State.enqueue (s : State) (core : Nat) (c : Cmd) : State :=
  (s.tagIssue core c.tag).modCore core fun k => { k with punty := k.punty ++ [c] }

/-- A copy command: it does not issue while Punty's queue is full or its tag's pending count cannot rise. -/
def cpInstr (i : Instr) (s : State) (f : FmtE) (checks : Ctx → State → List UCheck) : Host.Outcome State Fault Refusal :=
  engineInstr i s f (isNamed f.uc) 0 none checks fun x live s =>
    if s.puntyHolds x f then s
    else ((s.drainFor x f live).enqueue x.core (s.newCmd x f)).finishLong x (plainOuts live) 0 none 0 [] [] false

/-- R253: `cp.tile`. -/
def execCpTile (c : Common) (f : FmtE) (s : State) : Host.Outcome State Fault Refusal :=
  cpInstr (.cpTile c f) s f (tileChecks false f)

/-- R253: `cp.bld`. -/
def execCpBld (c : Common) (f : FmtE) (s : State) : Host.Outcome State Fault Refusal :=
  cpInstr (.cpBld c f) s f (tileChecks true f)

/-- R253: `cp.bulk`. -/
def execCpBulk (c : Common) (f : FmtE) (s : State) : Host.Outcome State Fault Refusal :=
  cpInstr (.cpBulk c f) s f (bulkChecks f)

/-- R253: `cp.gath`. -/
def execCpGath (c : Common) (f : FmtE) (s : State) : Host.Outcome State Fault Refusal :=
  cpInstr (.cpGath c f) s f (laneCopyChecks f)

/-- R253: `cp.scat`. -/
def execCpScat (c : Common) (f : FmtE) (s : State) : Host.Outcome State Fault Refusal :=
  cpInstr (.cpScat c f) s f (laneCopyChecks f)

/-- R253: `cp.fill`. -/
def execCpFill (c : Common) (f : FmtE) (s : State) : Host.Outcome State Fault Refusal :=
  cpInstr (.cpFill c f) s f (fillChecks f)

/-- R253: `cp.out`. -/
def execCpOut (c : Common) (f : FmtE) (s : State) : Host.Outcome State Fault Refusal :=
  cpInstr (.cpOut c f) s f (outChecks f)

/-- The command that `cp.res` resumes: the recorded one under the tag, order and PC of `cp.res` (R259). -/
def Cmd.resumed (r c : Cmd) : Cmd :=
  { r with tag := c.tag, ttag := c.ttag, acq := c.acq, rel := c.rel, scope := c.scope, pc := c.pc, gid := c.gid }

/-- A tag whose resume record is taken: ERR, CODE, ELEM and the record clear (R259), and with ERR the underflow count (R258). -/
def Tag.take (t : Tag) : Tag := { t with err := false, code := 0, elem := 0, resume := none, udf := 0 }

/-- The checks of `cp.res` (R254). -/
def resChecks (f : FmtE) (x : Ctx) (s : State) : List UCheck :=
  [.ill (x.ln.tagCnt ≤ bits (s.uni x f.ua) 5 0) 10, strays (s.uni x f.ua) 0x3F]

/-- R259: `cp.res`. -/
def execCpRes (c : Common) (f : FmtE) (s : State) : Host.Outcome State Fault Refusal :=
  engineInstr (.cpRes c f) s f false 0 none (resChecks f) fun x live s =>
      let tn := x.ln.tagBase + bits (s.uni x f.ua) 5 0
      let tag := x.ln.tagBase + f.tag.toNat
      if s.puntyHolds x f then s
      else
        let s := s.drainFor x f live
        let s1 := match ((s.core x.core).tags.getD tn Tag.fresh).resume with
          | some r =>
            (s.modCore x.core fun k => { k with tags := updAt Tag.take tn k.tags }).enqueue x.core
              (r.resumed (s.newCmd x f))
          | none => (s.tagIssue x.core tag).tagDone x.core tag 6 0 0 none
        s1.finishLong x (plainOuts live) 0 none 0 [] [] false

/-! ### Tag instructions (R261) -/

/-- The team-relative tags of a mask. -/
def maskTags (x : Ctx) (m : Word) : List Nat := (List.range x.ln.tagCnt).filter fun i => bit m i

/-- The check of a mask. -/
def maskCheck (f : FmtE) (x : Ctx) (s : State) : List UCheck := [.ill ((s.uni x f.ua).toNat / 2 ^ x.ln.tagCnt != 0) 10]

/-- A team-relative tag of the issuing team. -/
def State.tagAt (s : State) (x : Ctx) (i : Nat) : Tag := (s.core x.core).tags.getD (x.ln.tagBase + i) Tag.fresh

/-- A mask of numbers. -/
def maskWord (ls : List Nat) : Word := word (ls.foldl (fun n i => n + 2 ^ i) 0)

/-- Whether `tag.wait` or `tag.any` does not issue: a tag of its mask is not ready, or none is. -/
def State.tagsHold (s : State) (x : Ctx) (f : FmtE) : Bool :=
  let ready := fun i => (s.tagAt x i).ready
  let ts := maskTags x (s.uni x f.ua)
  if x.opc = 0xC6 then !ts.all ready else !ts.any ready

/-- R261: `tag.wait`. -/
def execTagWait (c : Common) (f : FmtE) (s : State) : Host.Outcome State Fault Refusal :=
  engineInstr (.tagWait c f) s f false 1 (some f.ua) (maskCheck f) fun x live s =>
    let ts := maskTags x (s.uni x f.ua)
    if s.tagsHold x f then s
    else s.finishLong x (samePush live (maskWord (ts.filter fun i => (s.tagAt x i).err))) 1 (some f.ua) f.dst [] [] false

/-- R261: `tag.any`. -/
def execTagAny (c : Common) (f : FmtE) (s : State) : Host.Outcome State Fault Refusal :=
  engineInstr (.tagAny c f) s f false 1 (some f.ua) (maskCheck f) fun x live s =>
    let ready := (maskTags x (s.uni x f.ua)).filter fun i => (s.tagAt x i).ready
    if s.tagsHold x f then s else s.finishLong x (samePush live (maskWord ready)) 1 (some f.ua) f.dst [] [] false

/-- R261: `tag.ffr`. -/
def execTagFfr (c : Common) (f : FmtE) (s : State) : Host.Outcome State Fault Refusal :=
  engineInstr (.tagFfr c f) s f false 1 (some f.ua) (maskCheck f) fun x live s =>
    let r := ((maskTags x (s.uni x f.ua)).find? fun i => (s.tagAt x i).ready).getD 64
    s.finishLong x (samePush live (word r)) 1 (some f.ua) f.dst [] [] false

/-- The status word of a tag (R65). -/
def Tag.status (t : Tag) : Word := word (t.elem.toNat * 2 ^ 32 + t.code.toNat * 2 ^ 24 + b2n t.err * 2 ^ 16 + t.pend % 2 ^ 16)

/-- R261: `tag.st`. -/
def execTagSt (c : Common) (f : FmtE) (s : State) : Host.Outcome State Fault Refusal :=
  engineInstr (.tagSt c f) s f false 2 none (fun _ _ => []) fun x live s =>
    let t := s.tagAt x f.tag.toNat
    let s1 := if f.mod.getLsbD 0 then
        s.modCore x.core fun k => { k with tags := updAt Tag.clear (x.ln.tagBase + f.tag.toNat) k.tags }
      else s
    s1.finishLong x (live.map fun l => ⟨l, [(t.status, false), (word t.udf, false)], [], 0, none⟩) 2 none f.dst [] [] false

/-- R261: `tag.clr`. -/
def execTagClr (c : Common) (f : FmtE) (s : State) : Host.Outcome State Fault Refusal :=
  engineInstr (.tagClr c f) s f false 0 none (maskCheck f) fun x live s =>
    let s1 := s.modCore x.core fun k => { k with
      tags := (maskTags x (s.uni x f.ua)).foldl (fun ts i => updAt Tag.clear (x.ln.tagBase + i) ts) k.tags }
    s1.finishLong x (plainOuts live) 0 none 0 [] [] false

/-- The checks of the values of row 0xC (R254, R261). -/
def cpChecks (opc : Nat) (f : FmtE) : Ctx → State → List UCheck :=
  match opc with
  | 0xC0 => tileChecks false f
  | 0xC1 => tileChecks true f
  | 0xC2 => bulkChecks f
  | 0xC3 | 0xC4 => laneCopyChecks f
  | 0xC5 => resChecks f
  | 0xC6 | 0xC7 | 0xC8 | 0xCD => maskCheck f
  | 0xCC => outChecks f
  | 0xCE => fillChecks f
  | _ => fun _ _ => []

/-- Whether a copy command does not issue: it passes its checks, and only then finds no room (R254). -/
def State.cpStays (s : State) (x : Ctx) (f : FmtE) : Bool :=
  s.goes x f (x.opc != 0xC5 && isNamed f.uc) (cpChecks x.opc f) && s.puntyHolds x f

/-- Whether `tag.wait` or `tag.any` does not issue. -/
def State.tagStays (s : State) (x : Ctx) (f : FmtE) : Bool := s.goes x f false (cpChecks x.opc f) && s.tagsHold x f

end Sys2Proof.Machine
end

