-- ==== Sys2Proof/Machine/Operands.lean ====
section
/-! DEFINITION. The shapes of the instructions of rows 0x0 to 0x6: lane by lane, lane crossing, and
predicate pairs (spec/04_instruction_encoding.md R80 to R83, spec/05_integer_bit_lane_instructions.md R100, R112). -/

namespace Sys2Proof.Machine

/-! ### Format T -/

def noExtra (_ : Ctx) (_ : State) (_ : Nat) : Bool := false

/-- A format T instruction of n sources that works lane by lane and raises no flag. -/
def plainT (i : Instr) (s : State) (f : FmtT) (n nres lat : Nat) (body : List Word → List Word) :
    Host.Outcome State Fault Refusal :=
  laneInstr i s nres (f.codes n) f.dst f.marks lat noExtra fun _ _ _ rs => ⟨body (rs.map fun r => r.val), [], 0⟩

/-- An integer instruction (R100): n sources read at the type, one result. -/
def intT (i : Instr) (s : State) (f : FmtT) (n : Nat) (body : List Int → Int) : Host.Outcome State Fault Refusal :=
  plainT i s f n 1 4 fun vs => [pushInt f.ty (body (vs.map (readInt f.ty)))]

/-- A bit-pattern instruction: n sources as words, one result of w bits. -/
def bitsT (i : Instr) (s : State) (f : FmtT) (n : Nat) (body : Nat → List Nat → Nat) : Host.Outcome State Fault Refusal :=
  plainT i s f n 1 4 fun vs => [pushNat f.ty (body (typeWidth f.ty) (vs.map fun v => v.toNat))]

/-- A floating-point instruction: n sources, one result with its flags. -/
def fpT (i : Instr) (s : State) (f : FmtT) (n lat : Nat) (body : List Word → Nat × FpFlags) :
    Host.Outcome State Fault Refusal :=
  laneInstr i s 1 (f.codes n) f.dst f.marks lat noExtra fun _ _ _ rs =>
    let r := body (rs.map fun r => r.val)
    ⟨[word r.1], [], r.2⟩

/-! ### Format I -/

/-- A format I instruction; without a source a guard-false lane pushes zero. -/
def plainI (i : Instr) (s : State) (f : FmtI) (src : Bool) (body : Word → Word) : Host.Outcome State Fault Refusal :=
  laneInstr i s 1 (if src then [f.sa] else []) f.dst [] 4 noExtra fun _ _ _ rs =>
    ⟨[body ((rs.head?.map fun r => r.val).getD 0)], [], 0⟩

/-! ### Format P (R83, R56) -/

/-- The values that a pair receives for a condition: plain, and, or. -/
def pairValues (mode : Nat) (c pa pb : Bool) : Bool × Bool :=
  match mode with
  | 1 => (pa && c, pb && !c)
  | 2 => (pa || c, pb || !c)
  | _ => (c, !c)

/-- A compare: it pushes nothing and writes the pair; a plain-mode compare writes false in a guard-false lane. -/
def pairP (i : Instr) (s : State) (f : FmtP) (lat : Nat) (body : Word → Word → Bool × FpFlags) :
    Host.Outcome State Fault Refusal :=
  frame i s fun x s =>
    let codes := [f.sa, f.sb]
    let strict := s.strictTraps x codes
    let a := Avail.from (s.cycle + lat)
    let res := x.on.map fun l =>
      let rs := codes.map (s.opnd x.g l)
      let r := body ((rs.getD 0 ⟨0, false, false⟩).val) ((rs.getD 1 ⟨0, false, false⟩).val)
      let pa := s.pred x.g l f.pa.toNat
      let pb := s.pred x.g l f.pb.toNat
      let psn := rs.any (fun q => q.psn) || (f.mode != 0 && (pa.2.1 || pb.2.1))
      let v := pairValues f.mode.toNat r.1 pa.1 pb.1
      (⟨l, [], [(f.pb.toNat, v.2, psn), (f.pa.toNat, v.1, psn)], r.2, none⟩ : Out)
    let traps := res.filterMap fun o =>
      match strict.find? (fun t => t.lane == o.lane) with
      | some t => some t
      | none => fpTrap o.lane (x.g.lane o.lane).fpstat o.fp
    let outs := res.filter fun o => !traps.any fun t => t.lane == o.lane
    let s := s.finish x outs 0 none 0 [] lat
    let s := if f.mode = 0 then
        s.modGroup x.key fun g => g.mapLanes fun l e =>
          if x.off.contains l then e.setPreds [(f.pb.toNat, false, false), (f.pa.toNat, false, false)] a else e
      else s
    s.takeTraps x.key x.pc x.opc traps

/-! ### Lane crossing (R33, R112) -/

/-- The participants that a lane works with, all of the issue, or those of its half in a paired launch (R377). -/
def Ctx.peers (x : Ctx) (l : Nat) : List Nat :=
  if x.ln.paired then x.on.filter fun j => j / 16 == l / 16 else x.on

/-- A lane's number: modulo 16 in a paired launch (R377). -/
def Ctx.id (x : Ctx) (l : Nat) : Nat := if x.ln.paired then l % 16 else l

/-- A lane-crossing instruction: the body gives a lane's result, its poison, predicates and flags. -/
def crossT (i : Instr) (s : State) (f : FmtT) (codes : List (BitVec 6))
    (body : Ctx → State → Nat → Word × Bool × List (Nat × Bool) × FpFlags) : Host.Outcome State Fault Refusal :=
  frame i s fun x s =>
    let strict := s.strictTraps x codes
    let res := x.on.map fun l =>
      let r := body x s l
      (⟨l, [(r.1, r.2.1)], r.2.2.1.map fun e => (e.1, e.2, r.2.1), r.2.2.2, none⟩ : Out)
    let traps := res.filterMap fun o =>
      match strict.find? (fun t => t.lane == o.lane) with
      | some t => some t
      | none => fpTrap o.lane (x.g.lane o.lane).fpstat o.fp
    let outs := res.filter fun o => !traps.any fun t => t.lane == o.lane
    (s.finish x outs 1 codes.head? f.dst f.marks 6).takeTraps x.key x.pc x.opc traps

end Sys2Proof.Machine
end

