-- ==== Sys2Proof/Machine/Integer.lean ====
section
/-! DEFINITION. Rows 0x0 to 0x2: integer arithmetic, selection, shifts, logic and bit fields
(spec/05_integer_bit_lane_instructions.md R101 to R111). -/

namespace Sys2Proof.Machine

/-! ### Row 0x0 (R101 to R105) -/

/-- Source k of a list of values. -/
def src {α : Type} [Inhabited α] (vs : List α) (k : Nat) : α := vs.getD k default

/-- R101, R102: `add`. -/
def execAdd (c : Common) (f : FmtT) (s : State) : Host.Outcome State Fault Refusal :=
  intT (.add c f) s f 2 fun v => clampInt f.ty f.satB (src v 0 + src v 1)

/-- The carry or borrow out and the result of `addc` and `subb` (R103). -/
def carryOp (sub : Bool) (w a b ci : Nat) : Nat × Bool :=
  if sub then
    let r := a + 2 ^ w - b - ci
    (r % 2 ^ w, r < 2 ^ w)
  else ((a + b + ci) % 2 ^ w, 2 ^ w ≤ a + b + ci)

/-- `addc` and `subb` (R103): carry-in and carry-out predicates as MOD says. -/
def carryInstr (i : Instr) (s : State) (f : FmtT) (sub : Bool) : Host.Outcome State Fault Refusal :=
  let w := typeWidth f.ty
  let ci := fun (x : Ctx) (s : State) l => s.pred x.g l (f.m 10 8)
  laneInstr i s 1 (f.codes 2) f.dst f.marks 4 (fun x s l => f.mb 11 && (ci x s l).2.1)
    fun x s l rs =>
      let v := rs.map fun r => r.val.toNat % 2 ^ w
      let r := carryOp sub w (src v 0) (src v 1) (b2n (f.mb 11 && (ci x s l).1))
      ⟨[pushNat f.ty r.1], if f.mb 7 then [(f.m 6 4, r.2)] else [], 0⟩

/-- R103: `addc`. -/
def execAddc (c : Common) (f : FmtT) (s : State) : Host.Outcome State Fault Refusal :=
  carryInstr (.addc c f) s f false

/-- R101, R102: `sub`. -/
def execSub (c : Common) (f : FmtT) (s : State) : Host.Outcome State Fault Refusal :=
  intT (.sub c f) s f 2 fun v => clampInt f.ty f.satB (src v 0 - src v 1)

/-- R103: `subb`. -/
def execSubb (c : Common) (f : FmtT) (s : State) : Host.Outcome State Fault Refusal :=
  carryInstr (.subb c f) s f true

/-- R101: `mul`. -/
def execMul (c : Common) (f : FmtT) (s : State) : Host.Outcome State Fault Refusal :=
  intT (.mul c f) s f 2 fun v => src v 0 * src v 1

/-- The high half of the exact product (R101). -/
def highHalf (t : Nat) (p : Int) : Int := ((wrap (2 * typeWidth t) p / 2 ^ typeWidth t : Nat) : Int)

/-- R101: `mulhi`. -/
def execMulhi (c : Common) (f : FmtT) (s : State) : Host.Outcome State Fault Refusal :=
  intT (.mulhi c f) s f 2 fun v => highHalf f.ty (src v 0 * src v 1)

/-- The results of a value kept modulo 2^(2w): one of the double-width type, or at w = 64 the low then the high half
(R104). -/
def wideResults (t : Nat) (p : Int) : List Word :=
  let w := typeWidth t
  let n := wrap (2 * w) p
  if w = 64 then [word n, word (n / 2 ^ 64)]
  else if isI t then [sextW (2 * w) n] else [word n]

/-- R104: `mulw`. -/
def execMulw (c : Common) (f : FmtT) (s : State) : Host.Outcome State Fault Refusal :=
  plainT (.mulw c f) s f 2 (if typeWidth f.ty = 64 then 2 else 1) 4 fun vs =>
    let v := vs.map (readInt f.ty)
    wideResults f.ty (src v 0 * src v 1)

/-- R101, R102: `mad`. -/
def execMad (c : Common) (f : FmtT) (s : State) : Host.Outcome State Fault Refusal :=
  intT (.mad c f) s f 3 fun v => clampInt f.ty f.satB (src v 0 * src v 1 + src v 2)

/-- R101: `madhi`. -/
def execMadhi (c : Common) (f : FmtT) (s : State) : Host.Outcome State Fault Refusal :=
  intT (.madhi c f) s f 3 fun v => highHalf f.ty (src v 0 * src v 1) + src v 2

/-- R104: `madw`. The addend is the low 2w bits of SC, at w = 64 the whole of it. -/
def execMadw (c : Common) (f : FmtT) (s : State) : Host.Outcome State Fault Refusal :=
  let w := typeWidth f.ty
  plainT (.madw c f) s f 3 (if w = 64 then 2 else 1) 4 fun vs =>
    let v := vs.map (readInt f.ty)
    let cw := min (2 * w) 64
    let z := (src vs 2).toNat
    wideResults f.ty (src v 0 * src v 1 + (if isI f.ty then signedOf cw z else ((z % 2 ^ cw : Nat) : Int)))

/-- R101, R102: `neg`. -/
def execNeg (c : Common) (f : FmtT) (s : State) : Host.Outcome State Fault Refusal :=
  intT (.neg c f) s f 1 fun v => clampInt f.ty f.satB (-src v 0)

/-- R101, R102: `abs`. -/
def execAbs (c : Common) (f : FmtT) (s : State) : Host.Outcome State Fault Refusal :=
  intT (.abs c f) s f 1 fun v => clampInt f.ty f.satB ((src v 0).natAbs : Nat)

/-- R101: `min`. -/
def execMin (c : Common) (f : FmtT) (s : State) : Host.Outcome State Fault Refusal :=
  intT (.min c f) s f 2 fun v => min (src v 0) (src v 1)

/-- R101: `max`. -/
def execMax (c : Common) (f : FmtT) (s : State) : Host.Outcome State Fault Refusal :=
  intT (.max c f) s f 2 fun v => max (src v 0) (src v 1)

/-- Steps of restoring division: remainder and quotient word (R105). -/
def divSteps (w d : Nat) : Nat → Nat × Nat → Nat × Nat
  | 0, p => p
  | n + 1, (r, x) =>
    let t := r * 2 + x / 2 ^ (w - 1) % 2
    let x' := x * 2 % 2 ^ w
    divSteps w d n (if d ≤ t then ((t - d) % 2 ^ w, x' + 1) else (t % 2 ^ w, x'))

/-- R105: `divstep`. -/
def execDivstep (c : Common) (f : FmtT) (s : State) : Host.Outcome State Fault Refusal :=
  let w := typeWidth f.ty
  plainT (.divstep c f) s f 3 2 4 fun vs =>
    let v := vs.map fun q => q.toNat % 2 ^ w
    let r := divSteps w (src v 2) 8 (src v 0, src v 1)
    [word r.1, word r.2]

/-- R101: `sad`. -/
def execSad (c : Common) (f : FmtT) (s : State) : Host.Outcome State Fault Refusal :=
  intT (.sad c f) s f 3 fun v => ((src v 0 - src v 1).natAbs : Nat) + src v 2

/-! ### Row 0x1 (R106, R107) -/

/-- The conditions of `cmp` (R106). -/
def icond (cond : Nat) (a b : Int) (w : Nat) : Bool :=
  match cond with
  | 0 => a = b
  | 1 => a ≠ b
  | 2 => a < b
  | 3 => a ≤ b
  | 4 => b < a
  | 5 => b ≤ a
  | _ => Nat.land (wrap w a) (wrap w b) ≠ 0

/-- R106: `cmp`. -/
def execCmp (c : Common) (f : FmtP) (s : State) : Host.Outcome State Fault Refusal :=
  let t := f.type.toNat
  pairP (.cmp c f) s f 4 fun a b => (icond f.cond.toNat (readInt t a) (readInt t b) (typeWidth t), 0)

/-- R107: `sel`. -/
def execSel (c : Common) (f : FmtT) (s : State) : Host.Outcome State Fault Refusal :=
  bitsT (.sel c f) s f 3 fun w v => if src v 2 % 2 ^ w ≠ 0 then src v 0 else src v 1

/-- R107: `selp`. -/
def execSelp (c : Common) (f : FmtT) (s : State) : Host.Outcome State Fault Refusal :=
  let p := fun (x : Ctx) (s : State) l => s.pred x.g l (f.m 2 0)
  laneInstr (.selp c f) s 1 (f.codes 2) f.dst f.marks 4 (fun x s l => (p x s l).2.1)
    fun x s l rs =>
      let v := rs.map fun r => r.val.toNat
      ⟨[pushNat f.ty (if (p x s l).1 != f.mb 3 then src v 0 else src v 1)], [], 0⟩

/-- A left shift (R107). -/
def shiftL (w a c : Nat) : Nat := if w ≤ c then 0 else a % 2 ^ w * 2 ^ c
/-- A right shift with zero fill (R107). -/
def shiftR (w a c : Nat) : Nat := if w ≤ c then 0 else a % 2 ^ w / 2 ^ c
/-- A right shift with sign fill (R107). -/
def shiftS (w a c : Nat) : Int := signedOf w a / ((2 ^ min c w : Nat) : Int)
/-- A rotation to the left (R107). -/
def rotL (w a c : Nat) : Nat :=
  let a := a % 2 ^ w
  let k := c % w
  a * 2 ^ k % 2 ^ w + a / 2 ^ (w - k)

/-- R107: `shl`. -/
def execShl (c : Common) (f : FmtT) (s : State) : Host.Outcome State Fault Refusal :=
  bitsT (.shl c f) s f 2 fun w v => shiftL w (src v 0) (src v 1)

/-- R107: `shr`. -/
def execShr (c : Common) (f : FmtT) (s : State) : Host.Outcome State Fault Refusal :=
  bitsT (.shr c f) s f 2 fun w v => shiftR w (src v 0) (src v 1)

/-- R107: `sar`. -/
def execSar (c : Common) (f : FmtT) (s : State) : Host.Outcome State Fault Refusal :=
  plainT (.sar c f) s f 2 1 4 fun vs =>
    [pushInt f.ty (shiftS (typeWidth f.ty) (src vs 0).toNat (src vs 1).toNat)]

/-- R107: `rotl`. -/
def execRotl (c : Common) (f : FmtT) (s : State) : Host.Outcome State Fault Refusal :=
  bitsT (.rotl c f) s f 2 fun w v => rotL w (src v 0) (src v 1)

/-- R107: `rotr`. -/
def execRotr (c : Common) (f : FmtT) (s : State) : Host.Outcome State Fault Refusal :=
  bitsT (.rotr c f) s f 2 fun w v => rotL w (src v 0) (w - src v 1 % w)

/-- R107: `fshl`. -/
def execFshl (c : Common) (f : FmtT) (s : State) : Host.Outcome State Fault Refusal :=
  bitsT (.fshl c f) s f 3 fun w v =>
    (src v 0 % 2 ^ w * 2 ^ w + src v 1 % 2 ^ w) * 2 ^ min (src v 2) w / 2 ^ w

/-- R107: `fshr`. -/
def execFshr (c : Common) (f : FmtT) (s : State) : Host.Outcome State Fault Refusal :=
  bitsT (.fshr c f) s f 3 fun w v =>
    (src v 0 % 2 ^ w * 2 ^ w + src v 1 % 2 ^ w) / 2 ^ min (src v 2) w

/-- R107: `sext`. -/
def execSext (c : Common) (f : FmtT) (s : State) : Host.Outcome State Fault Refusal :=
  bitsT (.sext c f) s f 2 fun w v =>
    if src v 1 = 0 then 0 else if w ≤ src v 1 then src v 0 else wrap w (signedOf (src v 1) (src v 0))

/-- R107: `zext`. -/
def execZext (c : Common) (f : FmtT) (s : State) : Host.Outcome State Fault Refusal :=
  bitsT (.zext c f) s f 2 fun w v => if w ≤ src v 1 then src v 0 else src v 0 % 2 ^ src v 1

/-- R107: `clamp`; when lo > hi the result is hi. -/
def execClamp (c : Common) (f : FmtT) (s : State) : Host.Outcome State Fault Refusal :=
  intT (.clamp c f) s f 3 fun v => min (max (src v 0) (src v 1)) (src v 2)

/-- The width that MOD<1:0> gives an immediate shift (R107). -/
def immWidth (f : FmtI) : Nat := 64 / 2 ^ (f.mod.toNat % 4)

/-- R107: `shli`. -/
def execShli (c : Common) (f : FmtI) (s : State) : Host.Outcome State Fault Refusal :=
  plainI (.shli c f) s f true fun a => zextW (immWidth f) (shiftL (immWidth f) a.toNat (f.imm.toNat % 64))

/-- R107: `shri`. -/
def execShri (c : Common) (f : FmtI) (s : State) : Host.Outcome State Fault Refusal :=
  plainI (.shri c f) s f true fun a => zextW (immWidth f) (shiftR (immWidth f) a.toNat (f.imm.toNat % 64))

/-- R107: `sari`. -/
def execSari (c : Common) (f : FmtI) (s : State) : Host.Outcome State Fault Refusal :=
  plainI (.sari c f) s f true fun a => word (wrap 64 (shiftS (immWidth f) a.toNat (f.imm.toNat % 64)))

/-! ### Row 0x2 (R108 to R111) -/

/-- R108: `and`. -/
def execAnd (c : Common) (f : FmtT) (s : State) : Host.Outcome State Fault Refusal :=
  bitsT (.and c f) s f 2 fun _ v => Nat.land (src v 0) (src v 1)

/-- R108: `or`. -/
def execOr (c : Common) (f : FmtT) (s : State) : Host.Outcome State Fault Refusal :=
  bitsT (.or c f) s f 2 fun _ v => Nat.lor (src v 0) (src v 1)

/-- R108: `xor`. -/
def execXor (c : Common) (f : FmtT) (s : State) : Host.Outcome State Fault Refusal :=
  bitsT (.xor c f) s f 2 fun _ v => Nat.xor (src v 0) (src v 1)

/-- R108: `not`. -/
def execNot (c : Common) (f : FmtT) (s : State) : Host.Outcome State Fault Refusal :=
  bitsT (.not c f) s f 1 fun w v => 2 ^ w - 1 - src v 0 % 2 ^ w

/-- The number whose bits 0 to w − 1 are given. -/
def ofBits (w : Nat) (b : Nat → Bool) : Nat := (List.range w).foldl (fun n i => n + b2n (b i) * 2 ^ i) 0

/-- A three-input table at one bit (R62, R109). -/
def tbl (t : Nat) (a b c : Bool) : Bool := t.testBit (b2n a * 4 + b2n b * 2 + b2n c)

/-- R109: `tbl3`. -/
def execTbl3 (c : Common) (f : FmtT) (s : State) : Host.Outcome State Fault Refusal :=
  bitsT (.tbl3 c f) s f 3 fun w v =>
    ofBits w fun i => tbl (f.m 7 0) ((src v 0).testBit i) ((src v 1).testBit i) ((src v 2).testBit i)

/-- R108: `andn`. -/
def execAndn (c : Common) (f : FmtT) (s : State) : Host.Outcome State Fault Refusal :=
  bitsT (.andn c f) s f 2 fun w v => Nat.land (src v 0) (2 ^ w - 1 - src v 1 % 2 ^ w)

/-- How many of the low w bits are 1. -/
def popNat (w a : Nat) : Nat := ((List.range w).filter fun i => a.testBit i).length

/-- R108: `popc`. -/
def execPopc (c : Common) (f : FmtT) (s : State) : Host.Outcome State Fault Refusal :=
  bitsT (.popc c f) s f 1 fun w v => popNat w (src v 0)

/-- R108: `clz`. -/
def execClz (c : Common) (f : FmtT) (s : State) : Host.Outcome State Fault Refusal :=
  bitsT (.clz c f) s f 1 fun w v => ((lowestBit w (ofBits w fun i => (src v 0).testBit (w - 1 - i)))).getD w

/-- R108: `ctz`. -/
def execCtz (c : Common) (f : FmtT) (s : State) : Host.Outcome State Fault Refusal :=
  bitsT (.ctz c f) s f 1 fun w v => (lowestBit w (src v 0)).getD w

/-- R108: `brev`. -/
def execBrev (c : Common) (f : FmtT) (s : State) : Host.Outcome State Fault Refusal :=
  bitsT (.brev c f) s f 1 fun w v => ofBits w fun i => (src v 0).testBit (w - 1 - i)

/-- R110: `bfe`. -/
def execBfe (c : Common) (f : FmtT) (s : State) : Host.Outcome State Fault Refusal :=
  bitsT (.bfe c f) s f 3 fun w v =>
    let p := min (src v 1) w
    let n := min (src v 2) (w - p)
    let x := src v 0 % 2 ^ w / 2 ^ p % 2 ^ n
    if n = 0 then 0 else if isI f.ty then wrap w (signedOf n x) else x

/-- R110: `bfi`. -/
def execBfi (c : Common) (f : FmtT) (s : State) : Host.Outcome State Fault Refusal :=
  bitsT (.bfi c f) s f 3 fun w v =>
    let p := min (src v 2 % 256) w
    let n := min (src v 2 / 256 % 256) (w - p)
    let m := (2 ^ n - 1) * 2 ^ p
    Nat.lor (Nat.land (src v 1) (2 ^ w - 1 - m)) (Nat.land (src v 0 % 2 ^ w * 2 ^ p) m)

/-- One byte of `bpick` from the source bytes and a selector byte (R111). -/
def pickByte (n : Nat) (bytes : List Byte) (sel : Nat) : Byte :=
  let b := bytes.getD (sel % (2 * n)) 0
  match sel / 64 % 4 with
  | 0 => b
  | 1 => 0
  | 2 => if b.getLsbD 7 then 255 else 0
  | _ => 255

/-- R111: `bpick`. -/
def execBpick (c : Common) (f : FmtT) (s : State) : Host.Outcome State Fault Refusal :=
  bitsT (.bpick c f) s f 3 fun w v =>
    let n := w / 8
    let bytes := leBytes n (src v 0) ++ leBytes n (src v 1)
    leNat ((List.range n).map fun j => pickByte n bytes (src v 2 / 256 ^ j % 256))

/-- R108: `andi`. -/
def execAndi (c : Common) (f : FmtI) (s : State) : Host.Outcome State Fault Refusal :=
  plainI (.andi c f) s f true fun a => a &&& f.ext

/-- R108: `ori`. -/
def execOri (c : Common) (f : FmtI) (s : State) : Host.Outcome State Fault Refusal :=
  plainI (.ori c f) s f true fun a => a ||| f.ext

/-- R108: `xori`. -/
def execXori (c : Common) (f : FmtI) (s : State) : Host.Outcome State Fault Refusal :=
  plainI (.xori c f) s f true fun a => a ^^^ f.ext

end Sys2Proof.Machine
end

