-- ==== Sys2Proof/Machine/Lanes.lean ====
section
/-! DEFINITION. Row 0x3: exchanges, ballots, polls, reductions, scans and matches between the lanes of one issue
(spec/05_integer_bit_lane_instructions.md R112 to R117; paired launches R377). -/

namespace Sys2Proof.Machine

/-! ### Exchanges (R113) -/

/-- The segment size. -/
def segSize (x : Ctx) (f : FmtT) : Nat :=
  let n := 32 / 2 ^ f.m 2 0
  if x.ln.paired then min n 16 else n

/-- An exchange: `from` gives a lane's source lane from its number, the segment size and its k; without one the lane's
own fill is pushed. -/
def exchange (i : Instr) (s : State) (f : FmtT) (n : Nat) (source : Nat → Nat → Word → Option Nat) :
    Host.Outcome State Fault Refusal :=
  crossT i s f (f.codes n) fun x s l =>
    let k := s.opnd x.g l f.sb
    let r : Rd := match source l (segSize x f) k.val with
      | some j => if (x.peers l).contains j then s.opnd x.g j f.sa else ⟨0, false, false⟩
      | none => s.opnd x.g l f.sc
    (pushNat f.ty r.val.toNat, r.psn || k.psn, [], 0)

/-- R113: `lx.at`. -/
def execLxAt (c : Common) (f : FmtT) (s : State) : Host.Outcome State Fault Refusal :=
  exchange (.lxAt c f) s f 2 fun l n k => some (l - l % n + k.toNat % n)

/-- R113: `lx.rot`. -/
def execLxRot (c : Common) (f : FmtT) (s : State) : Host.Outcome State Fault Refusal :=
  exchange (.lxRot c f) s f 2 fun l n k => some (l - l % n + (l % n + k.toNat) % n)

/-- R113: `lx.sh`. -/
def execLxSh (c : Common) (f : FmtT) (s : State) : Host.Outcome State Fault Refusal :=
  exchange (.lxSh c f) s f 3 fun l n k =>
    let d := ((l % n : Nat) : Int) - k.toInt
    if 0 ≤ d ∧ d < (n : Int) then some (((l : Int) - k.toInt).toNat) else none

/-- R113: `lx.flip`. -/
def execLxFlip (c : Common) (f : FmtT) (s : State) : Host.Outcome State Fault Refusal :=
  exchange (.lxFlip c f) s f 2 fun l n k => some (l - l % n + Nat.xor (l % n) (k.toNat % n))

/-! ### Ballots and polls (R114) -/

/-- A lane's contribution: the bit, the value compared by `poll.same`, and its poison. -/
def contribution (f : FmtT) (x : Ctx) (s : State) (l : Nat) : Bool × Nat × Bool :=
  if f.mb 11 then
    let r := s.opnd x.g l f.sa
    let v := r.val.toNat % 2 ^ typeWidth f.ty
    (v ≠ 0, v, r.psn)
  else
    let p := s.pred x.g l (f.m 2 0)
    let b := p.1 != f.mb 3
    (b, b2n b, p.2.1)

/-- A ballot or poll: `result` gives the value from the participants' numbers and contributions. -/
def vote (i : Instr) (s : State) (f : FmtT) (result : List (Nat × Bool × Nat) → Nat) :
    Host.Outcome State Fault Refusal :=
  crossT i s f (if f.mb 11 then [f.sa] else []) fun x s l =>
    let cs := (x.peers l).map fun j => (x.id j, contribution f x s j)
    let v := result (cs.map fun e => (e.1, e.2.1, e.2.2.1))
    (word v, cs.any fun e => e.2.2.2, if f.mb 7 then [(f.m 6 4, v ≠ 0)] else [], 0)

/-- R114: `ballot`. -/
def execBallot (c : Common) (f : FmtT) (s : State) : Host.Outcome State Fault Refusal :=
  vote (.ballot c f) s f fun cs => cs.foldl (fun n e => n + b2n e.2.1 * 2 ^ e.1) 0

/-- R114: `poll.all`. -/
def execPollAll (c : Common) (f : FmtT) (s : State) : Host.Outcome State Fault Refusal :=
  vote (.pollAll c f) s f fun cs => b2n (cs.all fun e => e.2.1)

/-- R114: `poll.any`. -/
def execPollAny (c : Common) (f : FmtT) (s : State) : Host.Outcome State Fault Refusal :=
  vote (.pollAny c f) s f fun cs => b2n (cs.any fun e => e.2.1)

/-- R114: `poll.same`. -/
def execPollSame (c : Common) (f : FmtT) (s : State) : Host.Outcome State Fault Refusal :=
  vote (.pollSame c f) s f fun cs => match cs with
    | [] => 1
    | e :: t => b2n (t.all fun d => d.2.2 == e.2.2)

/-! ### Reductions, scans and match (R115, R116) -/

/-- A combination of the values of the participants that `enters` admits, in lane order; none gives `empty`. -/
def combine (i : Instr) (s : State) (f : FmtT) (enters : Nat → Nat → Bool) (empty : Nat) (op : Int → Int → Int) :
    Host.Outcome State Fault Refusal :=
  crossT i s f [f.sa] fun x s l =>
    let rs := ((x.peers l).filter fun j => enters j l).map fun j => s.opnd x.g j f.sa
    let v := match rs.map fun r => readInt f.ty r.val with
      | [] => (empty : Int)
      | a :: t => t.foldl op a
    (pushInt f.ty v, rs.any fun r => r.psn, [], 0)

/-- The operation of `rdx.lop` and `scan.lop` (R115). -/
def lop (f : FmtT) (a b : Int) : Int :=
  match f.m 1 0 with
  | 0 => (Nat.land a.toNat b.toNat : Nat)
  | 1 => (Nat.lor a.toNat b.toNat : Nat)
  | _ => (Nat.xor a.toNat b.toNat : Nat)

/-- Which participants enter a scan (R115). -/
def scans (f : FmtT) (j l : Nat) : Bool := if f.mb 2 then j < l else j ≤ l

/-- R115: `rdx.add`. -/
def execRdxAdd (c : Common) (f : FmtT) (s : State) : Host.Outcome State Fault Refusal :=
  combine (.rdxAdd c f) s f (fun _ _ => true) 0 (· + ·)

/-- R115: `rdx.min`. -/
def execRdxMin (c : Common) (f : FmtT) (s : State) : Host.Outcome State Fault Refusal :=
  combine (.rdxMin c f) s f (fun _ _ => true) 0 min

/-- R115: `rdx.max`. -/
def execRdxMax (c : Common) (f : FmtT) (s : State) : Host.Outcome State Fault Refusal :=
  combine (.rdxMax c f) s f (fun _ _ => true) 0 max

/-- R115: `rdx.lop`. -/
def execRdxLop (c : Common) (f : FmtT) (s : State) : Host.Outcome State Fault Refusal :=
  combine (.rdxLop c f) s f (fun _ _ => true) 0 (lop f)

/-- R115: `scan.add`. -/
def execScanAdd (c : Common) (f : FmtT) (s : State) : Host.Outcome State Fault Refusal :=
  combine (.scanAdd c f) s f (scans f) 0 (· + ·)

/-- R115: `scan.lop`. -/
def execScanLop (c : Common) (f : FmtT) (s : State) : Host.Outcome State Fault Refusal :=
  combine (.scanLop c f) s f (scans f) (if f.m 1 0 = 0 then 2 ^ typeWidth f.ty - 1 else 0) (lop f)

/-- R116: `match`. -/
def execMatchV (c : Common) (f : FmtT) (s : State) : Host.Outcome State Fault Refusal :=
  crossT (.matchV c f) s f [f.sa] fun x s l =>
    let w := typeWidth f.ty
    let vs := (x.peers l).map fun j => (x.id j, s.opnd x.g j f.sa)
    let own := (s.opnd x.g l f.sa).val.toNat % 2 ^ w
    let eq := vs.filter fun e => e.2.val.toNat % 2 ^ w == own
    let mask := eq.foldl (fun n e => n + 2 ^ e.1) 0
    (word (if f.mb 0 && eq.length < vs.length then 0 else mask), vs.any fun e => e.2.psn, [], 0)

/-! ### `rdx.fadd` (R117) -/

/-- One level of the pairwise tree: leaf 2j with leaf 2j + 1, an empty leaf passing its partner through. -/
def treeLevel (add : Nat → Nat → Nat × FpFlags) : List (Option Nat) → List (Option Nat) × FpFlags
  | a :: b :: t =>
    let r := treeLevel add t
    match a, b with
    | none, y => (y :: r.1, r.2)
    | x, none => (x :: r.1, r.2)
    | some x, some y => (some (add x y).1 :: r.1, r.2 ||| (add x y).2)
  | l => (l, 0)

/-- The tree over 2^n leaves. -/
def treeSum (add : Nat → Nat → Nat × FpFlags) : Nat → List (Option Nat) → List (Option Nat) × FpFlags
  | 0, l => (l, 0)
  | n + 1, l =>
    let r := treeLevel add l
    let q := treeSum add n r.1
    (q.1, r.2 ||| q.2)

/-- The leaves of the tree of a lane: the participants it works with, by their numbers. -/
def faddLeaves (x : Ctx) (s : State) (f : FmtT) (l : Nat) : List (Option Rd) :=
  (List.range (if x.ln.paired then 16 else 32)).map fun k =>
    ((x.peers l).find? fun j => x.id j == k).map fun j => s.opnd x.g j f.sa

/-- An addition of the tree. -/
def faddOp (f : FmtT) (a b : Nat) : Nat × FpFlags :=
  let m := fmtOf f.ty
  m.add f.rnd.toNat f.ftzB (m.read f.ftzB a) (m.read f.ftzB b)

/-- The level of the tree, and the place in it, of each of its 31 additions: 16 at the leaves, then 8, 4, 2 and 1. -/
def additionOf (k : Nat) : Nat × Nat :=
  if k < 16 then (0, k) else if k < 24 then (1, k - 16) else if k < 28 then (2, k - 24) else if k < 30 then (3, k - 28) else (4, 0)

/-- The inputs of an addition of the tree, where both are there. -/
def additionInputs (add : Nat → Nat → Nat × FpFlags) (at' : Nat × Nat) (leaves : List (Option Nat)) : Option (Nat × Nat) :=
  let l := (treeSum add at'.1 leaves).1
  match (l[2 * at'.2]?).join, (l[2 * at'.2 + 1]?).join with
  | some a, some b => some (a, b)
  | _, _ => none

/-- The tree with another result of one of its additions. -/
def struckSum (add : Nat → Nat → Nat × FpFlags) (at' : Nat × Nat) (r : Nat) (leaves : List (Option Nat)) :
    List (Option Nat) × FpFlags :=
  let lower := treeSum add at'.1 leaves
  let here := treeLevel add lower.1
  let upper := treeSum add (4 - at'.1) (updAt (fun _ => some r) at'.2 here.1)
  (upper.1, lower.2 ||| here.2 ||| upper.2)

/-- The additions that the tree performs on some leaves: those of which both inputs are there. -/
def additionsOf (add : Nat → Nat → Nat × FpFlags) (leaves : List (Option Nat)) : List (Nat × Nat) :=
  ((List.range 31).map additionOf).filter fun a => (additionInputs add a leaves).isSome

/-- R117: `rdx.fadd`. An error of the arithmetic units strikes one of its additions, any of them, a free choice: in an issue of paired
lanes, of the half that the struck lane lies in (R373). -/
def execRdxFadd (c : Common) (f : FmtT) (s : State) : Host.Outcome State Fault Refusal :=
  frame (.rdxFadd c f) s fun x s0 =>
    let m := fmtOf f.ty
    let leaves := fun l => faddLeaves x s0 f l
    let nums := fun l => (leaves l).map fun o => o.map fun r => r.val.toNat % 2 ^ m.width
    let retires := fun (s : State) (n : Nat) (sum : Nat → List (Option Nat) × FpFlags) =>
      let strict := s.strictTraps x [f.sa]
      let res := x.on.map fun l =>
        (⟨l, [(word (((sum l).1.head?.join).getD 0), (leaves l).any fun o => match o with
          | some r => r.psn
          | none => false)], [], (sum l).2, none⟩ : Out)
      let traps := res.filterMap fun o =>
        match strict.find? (fun t => t.lane == o.lane) with
        | some t => some t
        | none => fpTrap o.lane (x.g.lane o.lane).fpstat o.fp
      let outs := res.filter fun o => !traps.any fun t => t.lane == o.lane
      ((s.finish x outs 1 (some f.sa) f.dst f.marks (6 + n)).takeTraps x.key x.pc x.opc traps).delayed x n
    let clean := fun l => treeSum (faddOp f) 5 (nums l)
    match s0.struck x with
    | none => retires s0 0 clean
    | some (k, a, b) =>
      let adds := additionsOf (faddOp f) (nums k)
      let at' := adds.getD (Config.freeNat (2 ^ 46 + s0.free) % adds.length) (0, 0)
      match additionInputs (faddOp f) at' (nums k) with
      | none => retires s0 0 clean
      | some (u, v) =>
        s0.outcome x (strike x.v [word u, word v] a b (word (faddOp f u v).1)) fun s n r =>
          retires s n fun l =>
            if x.ln.paired && l / 16 ≠ k / 16 then clean l else struckSum (faddOp f) at' r.toNat (nums l)

end Sys2Proof.Machine
end

