-- ==== Sys2Proof/Machine/Matrix.lean ====
section
/-! DEFINITION. Opcodes 0xD0 to 0xD8: the matrix array, the accumulator ring and Lehr
(spec/13_matrix_ring_epilogue.md R266 to R282, spec/21_silent_errors_containment.md R376). -/

namespace Sys2Proof.Machine

/-! ### Dot products (R129, R272 to R274) -/

/-- An exact product of finite values. -/
def prodDy : FNum × FNum → Option Dy
  | (.fin n m e, .fin n' m' e') => some (signed (n != n') (m * m'), e + e')
  | _ => none

/-- The largest exponent among nonzero products (R129 step 2). -/
def topExp (ps : List Dy) : Option Int :=
  ps.foldl (fun (b : Option Int) (p : Dy) => if p.1 = 0 then b else
    let x := expOf p.1.natAbs p.2
    match b with
    | some y => some (max x y)
    | none => some x) none

/-- A product truncated toward zero to a multiple of 2^q, in units of 2^q. -/
def truncAt (q : Int) (p : Dy) : Int :=
  if q ≤ p.2 then p.1 * ((2 ^ (p.2 - q).toNat : Nat) : Int)
  else signed (p.1 < 0) (p.1.natAbs / 2 ^ (q - p.2).toNat)

/-- Steps 1 to 5 of R129: the `f32` value of a dot product, and X where a product is not zero. -/
def dotF32 (ps : List (FNum × FNum)) : Nat × Option Int :=
  let ds := ps.map prodDy
  if ds.any fun d => d.isNone then (fmtF32.canon, none)
  else
    let ds := ds.filterMap id
    match topExp ds with
    | none => (0, none)
    | some x => ((fmtF32.roundDy 0 false false false (ds.foldl (fun a d => a + truncAt (x - 48) d) 0, x - 48)).1, some x)

/-- An `f32` addition of R129 step 6 and R280. -/
def addF32 (a b : Nat) : Nat := (fmtF32.add 0 false (fmtF32.read false a) (fmtF32.read false b)).1

/-- A finite dyadic value times 2^352 (R396). -/
def at352 (d : Dy) : Int := d.1 * ((2 ^ (d.2 + 352).toNat : Nat) : Int)

/-- A finite `f32` value; none for a NaN or an infinity. -/
def finF32 (b : Nat) : Option Dy :=
  match fmtF32.read false b with
  | .fin n m e => some (signed n m, e)
  | _ => none

/-- The elements of a canonical row with their poison, from its operand row and its scale row (R127, R276). -/
def rowElems (t : Nat) (row scales : List PByte) : List (FNum × Bool) :=
  let blks := ofCanon t (row.map fun b => b.1) (scales.map fun b => b.1)
  let c := pxC t
  (withIdx blks).flatMap fun e =>
    let ps := ((scales.drop (2 * e.1)).take 2).any fun b => b.2
    (List.range 16).map fun i =>
      let lo := c * (16 * e.1 + i)
      (e.2.value t i, ps || ((row.drop (lo / 8)).take ((lo + c - 1) / 8 + 1 - lo / 8)).any fun b => b.2)

/-- Bytes of a B slot with their poison. -/
def BSlot.get (b : BSlot) (off n : Nat) : List PByte :=
  (List.range n).map fun i => (b.bytes.read (off + i), b.psn.contains ((off + i) / 2))

/-- Row i of the A tile at a place. -/
def State.aRow (s : State) (t : Nat) (l : CpLoc) (i : Nat) : List (FNum × Bool) :=
  rowElems t (s.cpGet (l.plus (192 * i)) 192) (s.cpGet (l.plus (6144 + 48 * i)) 48)

/-- Column j of a B slot. -/
def BSlot.col (b : BSlot) (t j : Nat) : List (FNum × Bool) :=
  rowElems t (b.get (192 * j) 192) (b.get (12288 + 48 * j) 48)

/-- The position index of stored element k (R273): two bits of the metadata, which holds K/8 bytes. The groups that
this leaves without bits have indices that nothing states, free values (log entry 18). -/
def State.skIndex (s : State) (t : Nat) (metadata : List Byte) (k : Nat) : Nat :=
  let at' := 4 * (k / 2) + 2 * (k % 2)
  if at' < pxK t then leNat metadata / 2 ^ at' % 4 else Config.freeNat (2 ^ 45 + s.free * 1024 + k) % 4

/-- The logical row of stored element k. -/
def skRow (k idx : Nat) : Nat := 4 * (k / 2) + idx

/-- What an `mma` reads at issue. -/
structure MmaIn where
  t : Nat
  rows : List (List (FNum × Bool))
  cols : List (List (FNum × Bool))
  psn : Bool
  ca : List PByte
  rb : List PByte
  row : List Nat

/-- The dot products, with poison and X, of tile element 64 i + j in order. -/
def MmaIn.dots (m : MmaIn) : List (Nat × Bool × Option Int) :=
  m.rows.flatMap fun a =>
    let ap := a.any fun e => e.2
    m.cols.map fun b =>
      let r := dotF32 ((a.zip b).map fun e => (e.1.1, e.2.1))
      (r.1, m.psn || ap || b.any fun e => e.2, r.2)

/-- The `f32` words of sums. -/
def sumWords (bs : List PByte) : List Nat := (runs 4 (bs.length / 4) bs).map fun g => leNat (g.map fun b => b.1)

/-- The comparison of R274. A poisoned sum counts as a poisoned input (log entry 19). -/
def MmaIn.check (m : MmaIn) (ds : List (Nat × Bool × Option Int)) : MqCheck :=
  let dv := ds.map fun d => finF32 d.1
  let rb := sumWords m.rb
  let pairs := ((sumWords m.ca).zip m.row).map fun e => (finF32 e.1, finF32 (rb.getD e.2 0))
  let nan := dv.any (fun d => d.isNone) || (sumWords m.ca).any (fun w => (finF32 w).isNone) ||
    rb.any fun w => (finF32 w).isNone
  let prods := pairs.filterMap fun e => match e with
    | (some a, some b) => some (at352 (a.mul b))
    | _ => none
  let vals := dv.filterMap fun d => d.map at352
  let abs := fun (l : List Int) => l.foldl (fun a v => a + (v.natAbs : Int)) 0
  { p := vals.foldl (· + ·) 0
    ref := prods.foldl (· + ·) 0
    tol := (abs prods + abs vals) / ((2 ^ 20 : Nat) : Int) + ds.foldl (fun a d => match d.2.2 with
      | some x => a + at352 ((pxK m.t : Nat), x - 48)
      | none => a) 0
    nan := nan
    psn := ds.any (fun d => d.2.1) || (m.ca ++ m.rb).any fun b => b.2 }

/-! ### Tiles (R266, R276, R277) -/

/-- The 2,048 elements of a tile. -/
def Tile.all (t : Tile) : List (BitVec 32) := (List.range 2048).map fun i => (t.elems.get? i).getD 0

/-- The stored form of elements. -/
def packElems (l : List (BitVec 32)) : Sparse (BitVec 32) := (withIdx l).filter fun e => !(e.2 == 0)

/-- A tile zeroed with its accumulators; an epilogue that is attached stays. -/
def Tile.zeroed (t : Tile) : Tile := { Tile.fresh with epi := t.epi }

/-- Adds one to a saturating 16-bit count. -/
def sat16 (n : Nat) : Nat := min (n + 1) 65535

/-- Changes a tile of a core's ring. -/
def State.modTile (s : State) (core i : Nat) (f : Tile → Tile) : State :=
  s.modCore core fun c => { c with ring := updAt f i c.ring }

/-- A tile of a core's ring. -/
def Core.tile (c : Core) (i : Nat) : Tile := c.ring.getD i Tile.fresh

/-- The tile that a selector names: 0 the head, n the n-th newest closed tile (R275). -/
def Core.select (c : Core) (n : Nat) : Nat := (c.head + 16 - n) % 16

/-- The closed tiles from the tail on. -/
def Core.closed (c : Core) : List Nat := (List.range c.ncl).map fun n => (c.tail + n) % 16

/-- Adds dot products into a tile. -/
def Tile.accumulate (t : Tile) (e : MqEntry) : Tile :=
  { t with
    elems := packElems ((t.all.zip e.data).map fun d => BitVec.ofNat 32 (addF32 d.1.toNat d.2.toNat))
    psn := (withIdx e.dataPsn).foldl (fun l p => if p.2 then insertNat p.1 l else l) t.psn
    psnFlag := t.psnFlag || e.dataPsn.any id }

/-! ### Results that are known only later -/

/-- The registers that await an operation hold, until it gives a result, what they held (R89). -/
def State.unknown (s : State) (key id : Nat) : State :=
  let hold := fun (r : Reg Word) => match r.nxt with
    | some n => if n.avail = .op id then { r with nxt := some { n with val := r.val, psn := r.psn } } else r
    | none => r
  s.modGroup key fun g => { g.mapLanes (fun _ e => { e with n := e.n.map hold }) with k := g.k.map hold }

/-- Puts results into the newest entries of a queue that await an operation; `vals` newest first. -/
def fillQueue (id : Nat) : List RedVal → List QEntry → List QEntry
  | v :: vs, e :: t =>
    if e.avail = .op id then { e with val := v.1, psn := v.2 } :: fillQueue id vs t else e :: fillQueue id (v :: vs) t
  | _, l => l

/-- An operation obtains its results, by lane: it completes from a cycle on (R57, R210). -/
def State.fillOp (s : State) (id : Nat) (vals : Nat → List RedVal) (due : Nat) : State :=
  match s.op? id with
  | none => s
  | some o =>
    let set := fun (v : Option RedVal) (r : Reg Word) => match v, r.nxt with
      | some v, some n => if n.avail = .op id then { r with nxt := some { n with val := v.1, psn := v.2 } } else r
      | _, _ => r
    let s := s.modGroup o.group fun g =>
      { g.mapLanes (fun l e =>
          if has o.lanes l then { e with q := fillQueue id (vals l).reverse e.q, n := e.n.map (set (vals l).getLast?) } else e)
        with k := g.k.map (set (vals o.low).getLast?) }
    s.setOp id { o with
      held := false
      due := due
      res := (lanesOf o.lanes).filterMap fun l => ((vals l).getLast?).map fun v => (l, v.1, v.2) }

/-! ### The matrix queue (R268, R269) -/

/-- Entries of a matrix queue. -/
def matrixEntries : Nat := 8

/-- Whether an instruction of the matrix queue does not issue: the queue is full (R268), 15 tiles are closed for `ring.adv`
(R277), or the tag of `epi.post` has no room (R65). -/
def State.ringHolds (s : State) (x : Ctx) (f : FmtE) : Bool :=
  matrixEntries ≤ (s.core x.core).mq.length || (x.opc = 0xD2 && 15 ≤ (s.core x.core).ncl) ||
    (x.opc = 0xD7 && !s.tagRoom x.core (x.ln.tagBase + f.tag.toNat))

/-- The px type of an `mma`. -/
def mmaType (f : FmtE) : Nat := f.mod.toNat % 32

/-- The checks of `mma` and `mma.sk` (R270, R271). -/
def mmaChecks (sk : Bool) (f : FmtE) (x : Ctx) (s : State) : List UCheck :=
  let ua := s.uni x f.ua
  let ub := s.uni x f.ub
  let uc := s.uni x f.uc
  let slot := bits ub 5 0
  let t := mmaType f
  let a := bits ua 21 0
  let chk := f.mod.getLsbD 6
  let gang := f.mod.getLsbD 5
  [.ill (x.ln.slotCnt ≤ slot || (sk && (slot % 2 = 1 || x.ln.slotCnt ≤ slot + 1))) 11,
    strays ua ((2 ^ 19 - 1) * 2 ^ 32 + (2 ^ 22 - 1)), strays ub ((2 ^ 19 - 1) * 2 ^ 32 + 0x3F)] ++
  (if sk then [strays uc (2 ^ 19 - 1)] else []) ++
  [.mis a 256, .mis (bits ua 50 32) 64, .mis (bits ub 50 32) 64] ++ (if sk then [.mis (bits uc 18 0) 64] else []) ++
  (if gang then
    [.prot (match s.cpMap x.tk 2 a aTileBytes .read with
      | .ok _ _ => false
      | _ => true) a]
   else [.prot (a / 2 ^ 19 != 0) a, badScr x a aTileBytes]) ++
  (if chk then
    [badScr x (bits ua 50 32) (4 * pxK t), badScr x (bits ub 50 32) (4 * pxK t * if sk then 2 else 1)] else []) ++
  (if sk then [badScr x (bits uc 18 0) (pxK t / 8)] else [])

/-- The checks of a row and of a tile selector (R271). -/
def rowChecks (v : Word) : List UCheck := [strays v 0x1F]
def selChecks (x : Ctx) (s : State) (v : Word) : List UCheck :=
  [strays v 0xF, .ill ((s.core x.core).ncl < bits v 3 0) 13]

/-- Whether `ring.clr` names the tail. -/
def clrTail (f : FmtE) : Bool := f.mod.getLsbD 0

/-- The oldest closed tile without a descriptor (R278). -/
def Core.unposted (c : Core) : Option Nat := c.closed.find? fun i => (c.tile i).epi.isNone

/-- The checks of the values of `mma` to `chk.rd` (R271, R277, R278). -/
def ringChecks (opc : Nat) (f : FmtE) (x : Ctx) (s : State) : List UCheck :=
  let k := s.core x.core
  match opc with
  | 0xD0 => mmaChecks false f x s
  | 0xD1 => mmaChecks true f x s
  | 0xD3 => rowChecks (s.uni x f.ua) ++ selChecks x s (s.uni x f.ub)
  | 0xD4 => rowChecks (s.uni x f.ua)
  | 0xD5 => if clrTail f then [.ill (k.ncl = 0 || (k.tile k.tail).epi.isSome) 15] else []
  | 0xD7 => [.mis (s.uni x f.ua).toNat 128, .ill k.unposted.isNone 15]
  | 0xD8 => selChecks x s (s.uni x f.ub)
  | _ => []

/-- Whether an instruction of the matrix queue does not issue: it passes its checks, and only then finds no room. -/
def State.ringStays (s : State) (x : Ctx) (f : FmtE) : Bool :=
  s.goes x f false (ringChecks x.opc f) && s.ringHolds x f

/-- An instruction of the matrix queue (R268); `act` is what it changes at issue. -/
def ringInstr (i : Instr) (s : State) (f : FmtE) (perLane : Bool) (nres : Nat) (first : Option (BitVec 6))
    (entry : Ctx → State → MqEntry) (act : Ctx → State → State) : Host.Outcome State Fault Refusal :=
  engineInstr i s f perLane nres first (fun x s => ringChecks x.opc f x s) fun x live s =>
    if s.ringHolds x f then s
    else
      let id := s.serial
      let e := { entry x s with opc := x.v.opc, op := id, pc := x.pc }
      let outs := live.map fun l => (⟨l, List.replicate nres (0, false), [], 0, none⟩ : Out)
      let s := act x (s.drainFor x f live)
      let s := (s.finishLong x outs nres first f.dst [] [] true).unknown x.key id
      s.modCore x.core fun c => { c with mq := c.mq ++ [e] }

/-- An entry that acts on a tile. -/
def MqEntry.on (tile row : Nat) : MqEntry := ⟨0, row, tile, 0, [], [], none, 0⟩

def nothing (_ : Ctx) (s : State) : State := s

/-- What `mma` and `mma.sk` read (R269). -/
def State.mmaIn (s : State) (sk : Bool) (f : FmtE) (x : Ctx) : MmaIn :=
  let ua := s.uni x f.ua
  let ub := s.uni x f.ub
  let t := mmaType f
  let k := pxK t
  let loc := if f.mod.getLsbD 5 then
      (match s.cpMap x.tk 2 (bits ua 21 0) aTileBytes .read with
        | .ok _ l => l
        | _ => .scr x.tk 0)
    else .scr x.tk (bits ua 21 0)
  let slot := x.ln.slotBase + bits ub 5 0
  let b := fun (n : Nat) => (s.core x.core).bslots.getD n ⟨[], [], none⟩
  let metadata := s.cpGet (.scr x.tk (bits (s.uni x f.uc) 18 0)) (k / 8)
  let row := (List.range k).map fun i =>
    if sk then skRow i (s.skIndex t (metadata.map fun e => e.1) i) else i
  let col := fun (j : Nat) => if sk then (b slot).col t j ++ (b (slot + 1)).col t j else (b slot).col t j
  { t := t
    rows := (List.range 32).map fun i => s.aRow t loc i
    cols := (List.range 64).map fun j => let c := col j; row.map fun r => c.getD r (.fin false 0 0, false)
    psn := sk && metadata.any fun e => e.2
    ca := s.cpGet (.scr x.tk (bits ua 50 32)) (4 * k)
    rb := s.cpGet (.scr x.tk (bits ub 50 32)) (4 * k * if sk then 2 else 1)
    row := row }

/-- The entry of an `mma`: it reads its operands at issue. -/
def mmaEntry (sk : Bool) (f : FmtE) (x : Ctx) (s : State) : MqEntry :=
  let m := s.mmaIn sk f x
  let ds := m.dots
  { MqEntry.on (s.core x.core).head 0 with
    data := ds.map fun d => word d.1
    dataPsn := ds.map fun d => d.2.1
    chk := if f.mod.getLsbD 6 then some (m.check ds) else none }

/-- R272: `mma`. -/
def execMma (c : Common) (f : FmtE) (s : State) : Host.Outcome State Fault Refusal :=
  ringInstr (.mma c f) s f false 0 none (mmaEntry false f) nothing

/-- R273: `mma.sk`. -/
def execMmaSk (c : Common) (f : FmtE) (s : State) : Host.Outcome State Fault Refusal :=
  ringInstr (.mmaSk c f) s f false 0 none (mmaEntry true f) nothing

/-- R277: `ring.adv`. -/
def execRingAdv (c : Common) (f : FmtE) (s : State) : Host.Outcome State Fault Refusal :=
  ringInstr (.ringAdv c f) s f false 0 none (fun x s => MqEntry.on (((s.core x.core).head + 1) % 16) 0)
    fun x s => s.modCore x.core fun c => { c with head := (c.head + 1) % 16, ncl := c.ncl + 1 }


/-- R277: `ring.rd`. -/
def execRingRd (c : Common) (f : FmtE) (s : State) : Host.Outcome State Fault Refusal :=
  ringInstr (.ringRd c f) s f false 1 (some f.ua)
    (fun x s => MqEntry.on ((s.core x.core).select (bits (s.uni x f.ub) 3 0)) (bits (s.uni x f.ua) 4 0)) nothing

/-- R277: `ring.wr`. The per-lane source is not consumed: its poison is copied. -/
def execRingWr (c : Common) (f : FmtE) (s : State) : Host.Outcome State Fault Refusal :=
  ringInstr (.ringWr c f) s f false 0 none
    (fun x s =>
      let rd := fun l => s.opnd x.g l f.uc
      { MqEntry.on (s.core x.core).head (bits (s.uni x f.ua) 4 0) with
        data := (List.range groupLanes).map fun l => (rd l).val
        dataPsn := (List.range groupLanes).map fun l => (rd l).psn }) nothing

/-- R277: `ring.clr.head` and `ring.clr.tail`. -/
def execRingClr (c : Common) (f : FmtE) (s : State) : Host.Outcome State Fault Refusal :=
  ringInstr (.ringClr c f) s f false 0 none
    (fun x s => MqEntry.on (s.core x.core).head (b2n (clrTail f)))
    fun x s => if clrTail f then s.modCore x.core fun c => { c with tail := (c.tail + 1) % 16, ncl := c.ncl - 1 } else s

/-- The ring status word (R277). -/
def Core.ringStatus (c : Core) : Word :=
  word ((c.closed.filter fun i => (c.tile i).epi.isSome).length * 2 ^ 17 + b2n c.lehr.busy * 2 ^ 16 + c.head * 2 ^ 12 +
    c.tail * 2 ^ 8 + c.ncl * 2 ^ 4 + c.mq.length)

/-- R277: `ring.st`: the status at issue. -/
def execRingSt (c : Common) (f : FmtE) (s : State) : Host.Outcome State Fault Refusal :=
  ringInstr (.ringSt c f) s f false 1 none
    (fun x s => { MqEntry.on 0 0 with data := [(s.core x.core).ringStatus] }) nothing

/-- R278: `epi.post`. -/
def execEpiPost (c : Common) (f : FmtE) (s : State) : Host.Outcome State Fault Refusal :=
  ringInstr (.epiPost c f) s f false 0 none
    (fun _ _ => MqEntry.on 0 0)
    fun x s =>
      let tag := x.ln.tagBase + f.tag.toNat
      match (s.core x.core).unposted with
      | some i =>
        let e : Epi := ⟨x.g.gid, (s.uni x f.ua).toNat, tag, f.tag.toNat, f.acq = 1, f.rel = 1, f.scope.toNat, x.pc⟩
        (s.tagIssue x.core tag).modTile x.core i fun t => { t with epi := some e }
      | none => s

/-- R275: `chk.rd`. -/
def execChkRd (c : Common) (f : FmtE) (s : State) : Host.Outcome State Fault Refusal :=
  ringInstr (.chkRd c f) s f false 3 (some f.ub)
    (fun x s => MqEntry.on ((s.core x.core).select (bits (s.uni x f.ub) 3 0)) 0) nothing

/-! ### Performing an entry -/

/-- The check word (R275). -/
def Tile.checkWord (t : Tile) : Word :=
  word (b2n t.psnFlag * 2 ^ 39 + b2n t.nan * 2 ^ 38 + b2n t.fix * 2 ^ 37 + t.unchk * 2 ^ 16 + t.cnt)

/-- CP or CR rounded once to `f64`. -/
def sumF64 (v : Int) : Word := word (fmtF64.roundDy 0 false false false (v, -352)).1

/-- Whether the first check of an `mma` fails, so that it is performed once more (R274). -/
def MqEntry.recomputes (e : MqEntry) (err : ErrClass) : Bool :=
  match e.chk with
  | none => false
  | some c => !c.nan && !c.psn && ((c.p - c.ref).natAbs > c.tol.natAbs || err != .none)

/-- Performs an `mma` (R274, R376): what a detected error of the array did is `err`; a difference beyond Tol that the
data themselves make recurs. -/
def State.mmaPerform (s : State) (core : Nat) (e : MqEntry) (err : ErrClass) : State :=
  let done := fun (s : State) (n : Nat) => s.fillOp e.op (fun _ => []) (s.cycle + n)
  let put := fun (s : State) (f : Tile → Tile) => s.modTile core e.tile fun t => f (t.accumulate e)
  match e.chk with
  | none => done (put s fun t => { t with unchk := sat16 t.unchk }) 40
  | some c =>
    if c.nan || c.psn then
      done (put s fun t => { t with nan := t.nan || c.nan, psnFlag := t.psnFlag || c.psn }) 40
    else if (c.p - c.ref).natAbs > c.tol.natAbs || err = .lasting then
      let s := (s.count 9 true core).modTile core e.tile fun t => { t with psn := List.range 2048, psnFlag := true }
      let s := (done s 64).modCore core fun k => { k with withdrawn := true }
      match (s.core core).owner with
      | some tk => s.engineKill tk core 4 0
      | none => s
    else
      let s := if err = .transient then s.count 9 false core else s
      done (put s fun t => { t with
        cp := t.cp + c.p
        cr := t.cr + c.ref
        cnt := sat16 t.cnt
        fix := t.fix || err = .transient }) (if err = .transient then 64 else 40)

/-- Cycles that one `mma` occupies the array (R15, R269). -/
def arrayCycles : Nat := 24

/-- Performs the oldest entry of a core's matrix queue. An `mma` waits until the array accepts it; one that is recomputed
occupies the array twice (R269, R274). -/
def State.matrixStep (s : State) (core : Nat) (err : ErrClass) : State :=
  match (s.core core).mq with
  | [] => s
  | e :: rest =>
    let isMma := e.opc.toNat ≤ 0xD1
    if isMma && s.cycle < (s.core core).arrayFree then s
    else
    let busy := s.cycle + arrayCycles * if e.recomputes err then 2 else 1
    let s := s.modCore core fun c => { c with mq := rest, arrayFree := if isMma then busy else c.arrayFree }
    let t := (s.core core).tile e.tile
    let done := fun (s : State) (v : Nat → List RedVal) => s.fillOp e.op v (s.cycle + 1)
    match e.opc.toNat with
    | 0xD0 | 0xD1 => s.mmaPerform core e err
    | 0xD2 => done (s.modTile core e.tile Tile.zeroed) fun _ => []
    | 0xD3 =>
      done s fun l =>
        let i := 64 * e.row + 2 * l
        let el := fun i => ((t.elems.get? i).getD 0).toNat
        [(word (el i + el (i + 1) * 2 ^ 32), t.psn.contains i || t.psn.contains (i + 1))]
    | 0xD4 =>
      let all := t.all
      let new := (withIdx all).map fun a =>
        if a.1 / 64 = e.row then
          let w := e.data.getD (a.1 % 64 / 2) 0
          BitVec.ofNat 32 (w.toNat / 2 ^ (32 * (a.1 % 2)))
        else a.2
      let psn := (List.range 64).foldl (fun l i => if e.dataPsn.getD (i / 2) false then insertNat (64 * e.row + i) l else l) t.psn
      done (s.modTile core e.tile fun t => { t with
        elems := packElems new, psn := psn, psnFlag := t.psnFlag || e.dataPsn.any id }) fun _ => []
    | 0xD5 => done (if e.row = 0 then s.modTile core e.tile Tile.zeroed else s) fun _ => []
    | 0xD6 => done s fun _ => [(e.data.headD 0, false)]
    | 0xD8 => done s fun _ => [(sumF64 t.cp, false), (sumF64 t.cr, false), (t.checkWord, false)]
    | _ => done s fun _ => []

/-! ### Lehr (R278 to R282) -/

/-- The fields of an epilogue descriptor (R279). -/
structure EpiDesc where
  sat : Bool
  dsp : Bool
  ofmt : Nat
  red : Nat
  act : Nat
  res : Bool
  bias : Nat
  scl : Nat
  w : List Word
  deriving DecidableEq, Repr

namespace EpiDesc

def word (d : EpiDesc) (i : Nat) : Word := d.w.getD i 0
def row0 (d : EpiDesc) : Nat := bits (d.word 5) 63 32
def col0 (d : EpiDesc) : Nat := bits (d.word 5) 31 0

end EpiDesc

/-- Whether a vector field is well formed. -/
def vecOk (v : Word) : Bool := bits v 62 48 = 0 && bits v 1 0 = 0

/-- An epilogue descriptor from its sixteen words, if it meets every constraint of R279 and R280. -/
def epiOf (ws : List Word) : Option EpiDesc :=
  let w := fun i => ws.getD i 0
  let d : EpiDesc := ⟨bit (w 0) 31, bit (w 0) 30, bits (w 0) 29 25, bits (w 0) 21 20, bits (w 0) 19 18, bit (w 0) 17,
    bits (w 0) 16 15, bits (w 0) 14 13, ws⟩
  let used := fun (b : Bool) (v : Word) => if b then vecOk v else v == 0
  let sized := fmtBytes d.ofmt 64
  if bits (w 0) 63 32 = 0 && bits (w 0) 24 22 = 0 && bits (w 0) 12 0 = 0 && storageFmts.contains d.ofmt && d.red != 3 &&
      d.bias != 3 && used (d.scl = 1 || d.scl = 2) (w 1) && used (d.bias != 0) (w 2) &&
      (if d.res then bits (w 3) 5 0 = 0 else w 3 == 0) &&
      (if d.dsp then bits (w 4) 63 51 = 0 && bits (w 4) 31 19 = 0 && bits (w 4) 50 32 % 16 = 0 && sized ≤ bits (w 4) 50 32
       else bits (w 4) 5 0 = 0) &&
      (!d.dsp || d.res || isPx d.ofmt || w 5 == 0) && used (d.red != 0) (w 6) && (if d.scl = 3 then bits (w 7) 63 32 = 0 else w 7 == 0) && (ws.drop 8).all (· == 0) &&
      (!isPx d.ofmt || d.col0 % 16 = 0) then some d else none

/-- gelu and silu as v / (1 + e^-w), at most 2^-220 × max(1, |v|) from the exact value (log entry 12). -/
def sigmoidOf (v w : Dy) : Dy :=
  let aw := w.abs
  if Dy.le (256, 0) aw then (if w.1 < 0 then (0, 0) else v)
  else
    let fx := if aw.2 < -250 then aw.1.natAbs / 2 ^ (-250 - aw.2).toNat else aw.1.natAbs * 2 ^ (aw.2 + 250).toNat
    let y := fx * 2 ^ 300 / ln2at300
    let x := expSeries 64 1 (2 ^ 250) (y % 2 ^ 250 * ln2at300 / 2 ^ 300) * 2 ^ (y / 2 ^ 250)
    let d : Int := ((x + 2 ^ 250 : Nat) : Int)
    if w.1 < 0 then (v.1 * ((2 ^ 1250 : Nat) : Int) / d, v.2 - 1000)
    else (v.1 * ((x * 2 ^ 1000 : Nat) : Int) / d, v.2 - 1000)

/-- The argument of the exponential: v for silu; for gelu, twice that of tanh, times 10^16. -/
def activationExact (act : Nat) (v : Dy) : Dy :=
  if act = 3 then sigmoidOf v v
  else
    let c := (v.mul v).mul v
    let a : Dy := (1000000 * 2 * 79788456 * v.1, v.2)
    let b : Dy := (44715 * 2 * 79788456 * c.1, c.2)
    let s := a.add b
    let n : Int := 100000000000000
    sigmoidOf v (s.1 * ((2 ^ 300 : Nat) : Int) / n, s.2 - 300)

/-- An activation (R281): relu exactly; gelu and silu by the implementation's function where what it gives lies within the
bound, and the nearest `f32` otherwise. The bound is narrowed by what `activationExact` leaves out, never widened. -/
def activate (act : Nat) (b : Nat) : Nat :=
  match act, fmtF32.read false b with
  | 0, _ => b
  | _, .nan _ => fmtF32.canon
  | _, .inf g => if g then 0 else fmtF32.infBits
  | 1, .fin n _ _ => if n then 0 else b
  | a, .fin n m e =>
    let v : Dy := (signed n m, e)
    let y := activationExact a v
    let one : Dy := (1, 0)
    let big := if Dy.le one v.abs then v.abs else one
    let tol := Dy.mul big (((2 ^ 200 - 1 : Nat) : Int), -220)
    let c := Config.activation a (BitVec.ofNat 32 b) % 2 ^ 32
    match fmtF32.read false c with
    | .fin n' m' e' =>
      if Dy.le ((Dy.add (signed n' m', e') y.neg).abs) tol then c else (fmtF32.roundDy 0 false false (y.1 < 0) y).1
    | _ => (fmtF32.roundDy 0 false false (y.1 < 0) y).1

/-- n `f32` values of a vector field from element k on, with their poison. -/
def State.epiVec (s : State) (tk : Nat) (v : Word) (k n : Nat) : Dev (List (Nat × Bool)) :=
  match s.cpRead tk (b2n (bit v 63)) (bits v 47 0 + 4 * k) (4 * n) with
  | .ok s bs => .ok s ((runs 4 n bs).map fun g => (leNat (g.map fun b => b.1), g.any fun b => b.2))
  | .fault va => .fault va
  | .prot => .prot
  | .poison => .poison
  | .blocked s => .blocked s

/-- The 64 scale or bias values of row i: by row, by column, or a scalar. -/
def State.epiRow (s : State) (tk mode : Nat) (vec scalar : Word) (i : Nat) : Dev (List (Nat × Bool)) :=
  match mode with
  | 1 => match s.epiVec tk vec i 1 with
    | .ok s l => .ok s (List.replicate 64 (l.headD (0, false)))
    | d => d
  | 2 => s.epiVec tk vec 0 64
  | _ => .ok s (List.replicate 64 (bits scalar 31 0, false))

/-- The residual elements of a row. -/
def State.epiResidual (s : State) (tk : Nat) (t : Tensor) (y x0 : Nat) : Dev (List (FNum × Bool)) :=
  let lo := if isPx t.fmt then x0 / 16 * 16 else x0
  match s.tensorRow tk t y lo (if isPx t.fmt then 80 else 64) with
  | .ok s es => .ok s (((es.drop (x0 - lo)).take 64).map fun e => (e.val, e.psn))
  | .fault va => .fault va
  | .prot => .prot
  | .poison => .poison
  | .blocked s => .blocked s

/-- Combines a row's values with those of a vector. -/
def zipRow (f : Nat → Nat → Nat) (a b : List (Nat × Bool)) : List (Nat × Bool) :=
  (a.zip b).map fun e => (f e.1.1 e.2.1, e.1.2 || e.2.2)

/-- A multiplication of R280. -/
def mulF32 (a b : Nat) : Nat := (fmtF32.mul 0 false (fmtF32.read false a) (fmtF32.read false b)).1

/-- A row's values v before its stores (R280). -/
def State.epiValues (s : State) (tk : Nat) (d : EpiDesc) (rt : Option Tensor) (t : Tile) (i : Nat) : Dev (List (Nat × Bool)) :=
  let v0 := (List.range 64).map fun j => (((t.elems.get? (64 * i + j)).getD 0).toNat, t.psn.contains (64 * i + j))
  let scale : Dev (List (Nat × Bool)) := if d.scl = 0 then .ok s v0 else
    match s.epiRow tk d.scl (d.word 1) (d.word 7) i with
    | .ok s l => .ok s (zipRow mulF32 v0 l)
    | e => e
  match scale with
  | .ok s v =>
    let bias : Dev (List (Nat × Bool)) := if d.bias = 0 then .ok s v else
      match s.epiRow tk d.bias (d.word 2) 0 i with
      | .ok s l => .ok s (zipRow addF32 v l)
      | e => e
    match bias with
    | .ok s v =>
      match rt with
      | none => .ok s (v.map fun e => (activate d.act e.1, e.2))
      | some r =>
        match s.epiResidual tk r (d.row0 + i) d.col0 with
        | .ok s l => .ok s ((v.zip l).map fun e =>
            (activate d.act (fmtF32.add 0 false (fmtF32.read false e.1.1) e.2.1).1, e.1.2 || e.2.2))
        | .fault va => .fault va
        | .prot => .prot
        | .poison => .poison
        | .blocked s => .blocked s
    | e => e
  | e => e

/-- The reduction of a row (R280): the tree of R117 over 64 leaves. -/
def rowReduce (red : Nat) (v : List (Nat × Bool)) : Nat :=
  let f := fun a b => if red = 1 then fmtF32.add 0 false (fmtF32.read false a) (fmtF32.read false b)
    else fmtF32.minmax true (fmtF32.read false a) (fmtF32.read false b)
  ((treeSum f 6 (v.map fun e => some e.1)).1.head?.join).getD 0

/-- Writes bytes to a space of a team; where part of it cannot be written, each byte of the rest is old or new. -/
def State.epiPut (s : State) (core tk space a : Nat) (bs : List PByte) : State × Option CpErr :=
  let tenant := s.tenantOf tk
  let r := (pageParts (bs.length / 4096 + 2) a bs.length).foldl
    (fun (q : State × List (CpLoc × List PByte) × Option CpErr × Nat) p =>
      match q.1.cpMap tk space p.1 p.2 .write with
      | .ok s l => (s, q.2.1 ++ [(l, (bs.drop q.2.2.2).take p.2)], q.2.2.1, q.2.2.2 + p.2)
      | e => (q.1, q.2.1, q.2.2.1.or (e.err? .write), q.2.2.2 + p.2)) (s, [], none, 0)
  match r.2.2.1 with
  | none => (r.2.1.foldl (fun s p => s.cpPut core tenant p.1 p.2) r.1, none)
  | some e => (r.2.1.foldl (fun s p => s.cpMaybe core tenant p.1 p.2) r.1, some e)

/-- Lehr finishes the tail tile: it is freed, the tail advances, the tag completes, with the underflows of the rows that are
done (R258, R278, R282). -/
def State.lehrDone (s : State) (core tk : Nat) (e : Epi) (code : BitVec 8) (elem udf : Nat) : State :=
  let s := s.modCore core fun c => { c with
    ring := updAt (fun t => { t with epi := none }) c.tail c.ring
    tail := (c.tail + 1) % 16
    ncl := c.ncl - 1
    lehr := Lehr.idle }
  let s := s.tagDone core e.tag code elem udf none
  if code = 4 then s.engineKill tk core 2 4 else s

/-- What Lehr does where a row does not succeed. -/
def State.lehrFail (s : State) (core tk : Nat) (e : Epi) (elem : Nat) : CpErr → State
  | .fault va acc =>
    let (s, fid) := s.engineFault tk (s.tenantOf tk) e.gid core e.pc va acc.code (.lehr core)
    s.modCore core fun c => { c with lehr := { c.lehr with fid := some fid } }
  | .prot => s.lehrDone core tk e 2 elem (s.core core).lehr.udf
  | .poison => s.lehrDone core tk e 4 elem (s.core core).lehr.udf
  | .malformed => s.lehrDone core tk e 3 0 0
  | .blocked s => s

/-- Eight or sixteen words from a tenant's space, as Lehr reads a descriptor. -/
def State.readWords (s : State) (tenant va n : Nat) : Dev (List Word × Bool) :=
  match s.devRead tenant va (8 * n) with
  | .ok s (bs, p) => .ok s ((List.range n).map fun j => word (leNat ((bs.drop (8 * j)).take 8)), p)
  | .fault va => .fault va
  | .prot => .prot
  | .poison => .poison
  | .blocked s => .blocked s

/-- Lehr reads the descriptors that a tile's epilogue names. -/
def State.lehrRead (s : State) (tenant : Nat) (e : Epi) : Dev (Option (List Word)) :=
  let tensor := fun (s : State) (va : Nat) => s.readWords tenant va 8
  match s.readWords tenant e.desc 16 with
  | .ok s (ws, p) =>
    if p then .poison
    else match epiOf ws with
      | none => .ok s none
      | some d =>
        let res : Dev (List Word × Bool) := if d.res then tensor s (d.word 3).toNat else .ok s (List.replicate 8 0, false)
        match res with
        | .ok s (rs, p) =>
          if p then .poison
          else if d.res && (tensorOf rs).isNone then .ok s none
          else if d.dsp then .ok s (some (ws ++ rs ++ List.replicate 8 0))
          else match tensor s (d.word 4).toNat with
            | .ok s (os, p) =>
              if p then .poison
              else match tensorOf os with
                | some t => .ok s (if t.fmt = d.ofmt then some (ws ++ rs ++ os) else none)
                | none => .ok s none
            | .fault va => .fault va
            | .prot => .prot
            | .poison => .poison
            | .blocked s => .blocked s
        | .fault va => .fault va
        | .prot => .prot
        | .poison => .poison
        | .blocked s => .blocked s
  | .fault va => .fault va
  | .prot => .prot
  | .poison => .poison
  | .blocked s => .blocked s

/-- One row of the tail tile. -/
def State.lehrRow (s : State) (core tk : Nat) (e : Epi) (d : EpiDesc) : State :=
  let k := s.core core
  let i := k.lehr.row
  let words := k.lehr.desc
  match s.epiValues tk d (if d.res then tensorOf ((words.drop 16).take 8) else none) (k.tile k.tail) i with
  | .ok s v =>
    let red := if d.red = 0 then (s, none)
      else s.epiPut core tk (b2n (bit (d.word 6) 63)) (bits (d.word 6) 47 0 + 4 * i)
        ((leBytes 4 (rowReduce d.red v)).map fun b => (b, v.any fun e => e.2))
    let es := v.map fun a => (fmtF32.read false a.1, a.2)
    let t : Tensor := if d.dsp then ⟨d.ofmt, 0, 64, 32, 0⟩ else (tensorOf (words.drop 24)).getD ⟨d.ofmt, 0, 1, 1, 0⟩
    let o := if d.dsp then outRow t d.sat i 0 es else outRow t d.sat (d.row0 + i) d.col0 es
    let put := if d.dsp then red.1.epiPut core tk 1 (bits (d.word 4) 18 0 + bits (d.word 4) 50 32 * i) o.1
      else red.1.putRow core tk t (d.row0 + i) d.col0 o.1
    match red.2.or put.2 with
    | some err => put.1.lehrFail core tk e (64 * i) err
    | none =>
      let off := k.lehr.offend.or (o.2.1.map fun j => 64 * i + j)
      let udf := k.lehr.udf + o.2.2
      if i = 31 then put.1.lehrDone core tk e (if off.isSome then 5 else 0) (off.getD 0) udf
      else put.1.modCore core fun c => { c with lehr := { c.lehr with row := i + 1, offend := off, udf := udf } }
  | .fault va => s.lehrFail core tk e (64 * i) (.fault va .read)
  | .prot => s.lehrFail core tk e (64 * i) .prot
  | .poison => s.lehrFail core tk e (64 * i) .poison
  | .blocked s => s

/-- Whether Lehr can work on the tail tile: an epilogue is attached, the `ring.adv` that closed the tile, and with it every entry that
was queued before it, has been performed (R278), and it waits for no answer. -/
def Core.lehrReady (c : Core) : Bool :=
  c.ncl != 0 && (c.tile c.tail).epi.isSome && c.lehr.fid.isNone &&
    !c.mq.any fun e => e.opc == 0xD2 && e.tile == (c.tail + 1) % 16

/-- A step of Lehr: the descriptors first, then one row at a time. -/
def State.lehrStep (s : State) (core : Nat) : State :=
  let c := s.core core
  match c.owner, (c.tile c.tail).epi with
  | some tk, some e =>
    if !c.lehrReady then s
    else if c.lehr.forced then s.lehrDone core tk e 2 (64 * c.lehr.row) c.lehr.udf
    else if !c.lehr.busy then
      match s.lehrRead (s.tenantOf tk) e with
      | .ok s (some ws) => s.modCore core fun c => { c with lehr := { Lehr.idle with busy := true, desc := ws } }
      | .ok s none => s.lehrDone core tk e 3 0 0
      | .fault va => s.lehrFail core tk e 0 (.fault va .read)
      | .prot => s.lehrFail core tk e 0 .prot
      | .poison => s.lehrFail core tk e 0 .poison
      | .blocked s => s
    else match epiOf (c.lehr.desc.take 16) with
      | some d => s.lehrRow core tk e d
      | none => s
  | _, _ => s

end Sys2Proof.Machine
end

