-- ==== Sys2Proof/Machine/Transport.lean ====
section
/-! DEFINITION. Pontil: opcodes 0xD9 to 0xDF, outstanding commands, completion counters, reduction steps and what
arrives from the network (spec/18_transport_and_decompression.md R329 to R345,
spec/24_fabric_recovery.md R417 to R419). -/

namespace Sys2Proof.Machine

/-! ### Completion counters (R337) -/

/-- Whether a tenant owns a counter. -/
def State.ownsCounter (s : State) (tenant n : Nat) : Bool := (s.counter n).owner == some tenant

/-- A team through which a binding's barrier is reached: the bound team, or one of the bound gang's; none while they are
swapped out (R395). -/
def State.boundTeam (s : State) (key bar : Nat) : Option Nat :=
  if bar < 16 then (s.team? key).bind fun t => if onCore t.core then some key else none
  else (s.work.teams.find? fun e => match s.launch? e.2.launch with
    | some ln => gangKeyOf ln e.2 == key && onCore e.2.core
    | none => false).map fun e => e.1

/-- Fires a counter's binding if its value has reached the threshold. -/
def State.fire (s : State) (n : Nat) : State :=
  let c := s.counter n
  match c.bind with
  | some (key, bar, limit) =>
    if limit.toNat ≤ c.value.toNat then
      match s.boundTeam key bar with
      | some tk => (s.modCounter n fun c => { c with bind := none }).arrive tk bar 1 none
      | none => s
    else s
  | none => s

/-- One increment of a counter. -/
def State.countUp (s : State) (n : Nat) : State := (s.modCounter n fun c => { c with value := c.value + 1 }).fire n

/-! ### Connections (R330) -/

/-- Whether a handle is open for a tenant. -/
def State.opens (s : State) (tenant handle : Nat) : Bool := (s.conn? handle).any fun c => c.tenant == tenant

/-- Changes a connection. -/
def State.modConn (s : State) (handle : Nat) (f : Conn → Conn) : State :=
  { s with eng := { s.eng with conns := s.eng.conns.upd handle f } }

/-- The peer and job key that a handle's messages carry. -/
def State.peer (s : State) (handle : Nat) : Nat × Nat := ((s.conn? handle).map fun c => (c.peer, c.jobKey)).getD (0, 0)

/-! ### Completion (R334) -/

/-- The value that `nx.atom` pushes: the old value, 0 where it is refused; nothing is stated for another code, a free
value. -/
def State.atomResult (s : State) (c : NxCmd) (code : BitVec 8) : Word :=
  if code = 0x10 then 0
  else if code ≠ 0 then Config.freeWord s.free
  else
    let n := if c.mod.getLsbD 4 then 4 else 8
    word (leNat (((c.answer.map fun a => a.data).getD []).take n))

/-- A command completes: its counter is incremented, on its tag, and a reserved result is filled. While its partition is swapped out
Pontil keeps the completion (R395). -/
def State.nxDone (s : State) (id : Nat) (code : BitVec 8) : State :=
  match s.nx? id with
  | none => s
  | some c => if s.away c.team then s.setNx id { c with kept := some code } else
    let v := s.atomResult c code
    let s := match if code = 0 then c.counts else none with
      | some n => s.countUp n
      | none => s
    let s := ((s.delNx id).farTagDone c.team c.core c.tag code).bump
    let s := if c.opc = 0xDC then s.fillOp c.op (fun _ => [(v, false)]) (s.cycle + 1) else s
    if code = 4 then s.engineKill c.team c.core 2 4 else s

/-- What a command does where an access of its local bytes does not succeed: a fault record, and a wait for the answer;
or code 0x02 or 0x04 (R333, R334). -/
def State.nxFail (s : State) (id : Nat) (c : NxCmd) (e : CpErr) : State :=
  match e with
  | .fault va acc =>
    let (s, fid) := s.engineFault c.team c.tenant c.gid c.core c.pc va acc.code (.pontil id)
    s.setNx id { c with fid := some fid }
  | .prot => s.nxDone id 2
  | .poison => s.nxDone id 4
  | .malformed => s.nxDone id 3
  | .blocked s => s

/-! ### Reduction steps (R343 to R345, R130) -/

/-- The element types of a reduction (R343). -/
def redTypes : List Nat := [2, 3, 6, 7, 0x0C, 0x0D, 0x0E, 0x0F]

/-- Combines two elements (R344). -/
def redCombine (type op : Nat) (a b : RedVal) : RedVal :=
  let w := typeWidth type
  let m := fmtOf type
  let x := a.1.toNat % 2 ^ w
  let y := b.1.toNat % 2 ^ w
  let aop : AtomOp := if op = 0 then .add else if op = 1 then .min else .max
  let v := if type < 8 then atomNew aop w (isI type) x y
    else match op with
      | 0 => (m.add 0 false (m.read false x) (m.read false y)).1
      | o => (m.minmax (o = 2) (m.read false x) (m.read false y)).1
  (word v, a.2 || b.2)

/-- Levels of the tree of P ranks. -/
def redLevels (p : Nat) : Nat := ((List.range 17).find? fun l => p ≤ 2 ^ l).getD 16

/-- The ranks whose partials come to a rank, by level (R344). -/
def redChildren (p rank : Nat) : List (Nat × Nat) :=
  (List.range (redLevels p)).filterMap fun v =>
    if rank % 2 ^ (v + 1) = 0 && rank + 2 ^ v < p then some (v + 1, rank + 2 ^ v) else none

/-- The rank that takes a rank's partial. -/
def redParent (rank : Nat) : Nat := rank - 2 ^ (((List.range 16).find? fun v => rank.testBit v).getD 0)

/-- The other ends of a rank's tree edges. -/
def redEdges (p rank : Nat) : List Nat :=
  (redChildren p rank).map (fun e => e.2) ++ (if rank = 0 then [] else [redParent rank])

/-- A collective descriptor's fields. -/
structure RedDesc where
  type : Nat
  op : Nat
  pm1 : Nat
  rank : Nat
  cid : Nat
  srcb : Nat
  dstb : Nat
  peers : Nat
  cen : Bool
  cnt : Nat
  deriving DecidableEq, Repr

/-- The descriptor that eight words hold, if it meets every constraint of R343. -/
def redDescOf (ws : List Word) : Option RedDesc :=
  let w := fun i => ws.getD i 0
  let d : RedDesc := ⟨bits (w 0) 58 54, bits (w 0) 53 52, bits (w 0) 47 32, bits (w 0) 31 16, bits (w 0) 15 0,
    (w 1).toNat, (w 2).toNat, (w 3).toNat, bit (w 4) 12, bits (w 4) 11 0⟩
  if bits (w 0) 63 59 = 0 && bits (w 0) 51 48 = 0 && redTypes.contains d.type && d.op != 3 && d.pm1 < 32768 &&
      d.rank ≤ d.pm1 && d.srcb < 2 ^ 48 && d.dstb < 2 ^ 48 && d.peers < 2 ^ 48 && bits (w 4) 63 13 = 0 &&
      (ws.drop 5).all (· == 0) then some d else none

namespace RedStep

def p (r : RedStep) : Nat := r.pm1 + 1

/-- Whether a partial agrees with a step and has the rank of one of its edges (R345). -/
def accepts (r : RedStep) (m : NetPartial) : Bool :=
  m.pm1 == r.pm1 && m.type == r.type && m.op == r.op && m.first == r.first && m.count == r.count &&
    m.values.length == r.count &&
    (if m.down then r.rank != 0 && m.rank == redParent r.rank
     else (redChildren r.p r.rank).any fun e => e.2 == m.rank)

/-- The message that a step sends over a connection with a peer and a job key. -/
def message (r : RedStep) (to' : Nat × Nat) (down : Bool) (values : List RedVal) : NetPartial :=
  { head := ⟨to'.2, to'.1, 2 * r.cmd.getD 0 + b2n down, 0, .rud, false, false⟩, cid := r.cid, step := r.step, pm1 := r.pm1,
    type := r.type, op := r.op, first := r.first, count := r.count, rank := r.rank, down := down, values := values }

/-- How far a step comes with the partials it holds, level by level: its values, and whether it has reached the rank's
last level. -/
def climb (r : RedStep) : List (Nat × Nat) → RedStep × Bool
  | [] => (r, true)
  | (v, child) :: rest =>
    if v ≤ r.level then climb r rest
    else match r.held.find? fun m => !m.down && m.rank == child with
      | some m =>
        climb { r with
          acc := (r.acc.zip m.values).map fun e => redCombine r.type.toNat r.op.toNat e.1 e.2
          level := v
          held := r.held.filter fun k => !(!k.down && k.rank == child) } rest
      | none => (r, false)

end RedStep

/-- Replaces a step, by tenant, CID and number. -/
def State.putRed (s : State) (r : RedStep) : State :=
  { s with eng := { s.eng with reds := s.eng.reds.map fun k =>
      if k.tenant == r.tenant && k.cid == r.cid && k.step == r.step then r else k } }

/-- Removes a step. -/
def State.dropRed (s : State) (r : RedStep) : State :=
  { s with eng := { s.eng with reds := s.eng.reds.filter fun k =>
      !(k.tenant == r.tenant && k.cid == r.cid && k.step == r.step) } }

/-- The step of a tenant's collective. -/
def State.red? (s : State) (tenant cid step : Nat) : Option RedStep :=
  s.eng.reds.find? fun r => r.tenant == tenant && r.cid == cid && r.step == step

/-- A step of which nothing but its name is known. -/
def RedStep.named (tenant cid step : Nat) : RedStep :=
  ⟨tenant, cid, step, none, 0, 0, 0, 0, 0, 0, 0, none, [], [], 0, [], false, none, none, false⟩

/-- Whether a packet came over a connection. -/
def State.cameBy (s : State) (h : NetHead) (handle : Nat) : Bool :=
  (s.conn? handle).any fun c => c.peer == h.peer && c.jobKey == h.jobKey

/-- Whether a partial agrees with a step and came over the edge whose rank it names (R343, R345). -/
def State.redAccepts (s : State) (r : RedStep) (m : NetPartial) : Bool :=
  r.accepts m && (r.peers.get? m.rank).any fun h => s.cameBy m.head h

/-- The handle of the connection that a packet came over. -/
def State.cameFrom (s : State) (h : NetHead) : Option Nat :=
  (s.eng.conns.find? fun e => e.2.peer == h.peer && e.2.jobKey == h.jobKey).map (·.1)

/-- The handles of a step to which its abort goes: its edges, and the ranks that have sent it a partial that disagrees (R345, R419). -/
def State.abortTo (s : State) (r : RedStep) : List Nat :=
  (r.peers.map (·.2) ++ (r.held.filter fun m => !s.redAccepts r m).filterMap fun m => s.cameFrom m.head).eraseDups

/-- Ends a step with a code at this rank, and sends an abort along its surviving edges but one, and to each rank that disagrees (R345,
R419). A step that is not posted yet keeps the code. -/
def State.redAbort (s : State) (r : RedStep) (code : BitVec 8) (but : Option Nat) : State :=
  match r.cmd with
  | some id =>
    let s := (s.abortTo r).foldl (fun (s : State) (h : Nat) =>
      if some h = but || (s.conn? h).all fun k => k.failed then s else s.say (.abort h r.cid r.step code)) (s.dropRed r)
    State.nxDone { s with eng := { s.eng with redEnds := s.eng.redEnds ++ [(r.tenant, r.cid, r.step, code)] } } id code
  | none => s.putRed { r with ended := some code }

/-- The largest payload of a packet (R329). -/
def maxPayload : Nat := 4096

/-- The packets of a partial or result (R329). -/
def partPackets (handle : Nat) (m : NetPartial) : List Msg :=
  let per := maxPayload / (typeWidth m.type.toNat / 8)
  let total := (m.values.length + per - 1) / per
  (List.range total).map fun i => .part handle { m with
    head := { m.head with packet := i }, total := total, values := (m.values.drop (per * i)).take per }

/-- Sends several messages. -/
def State.says (s : State) (ms : List Msg) : State := ms.foldl (fun (s : State) m => s.say m) s

/-- Passes a step's result down to the ranks whose partials it took, once (R344). -/
def State.redForward (s : State) (r : RedStep) (vals : List RedVal) : State :=
  if r.forwarded then s
  else ((redChildren r.p r.rank).foldl (fun (s : State) e =>
      let h := (r.peers.get? e.2).getD 0
      s.says (partPackets h (r.message (s.peer h) true vals))) s).putRed { r with result := some vals, forwarded := true }

/-- Writes a step's result, element by element with its poison; then the counter and the tag (R344). -/
def State.redWrite (s : State) (r : RedStep) (vals : List RedVal) : State :=
  match r.cmd.bind fun id => (s.nx? id).map fun c => (id, c) with
  | none => s
  | some (id, c) =>
    let w := typeWidth r.type.toNat / 8
    let bs := vals.flatMap fun v => (leBytes w v.1.toNat).map fun b => (b, v.2)
    match s.cpTenant c.tenant (r.dstb + r.first * w) bs.length .write with
    | .ok s ls =>
      let s := State.cpPuts c.core c.tenant ls bs s
      ((s.dropRed r).setNx id { c with counts := r.counter }).nxDone id 0
    | .fault va => s.nxFail id c (.fault va .write)
    | .prot => (s.dropRed r).nxDone id 2
    | .poison => (s.dropRed r).nxDone id 4
    | .blocked s => s

/-- Brings a step on as far as it can go. -/
def State.redAdvance (s : State) (r : RedStep) : State :=
  if r.cmd.isNone then s
  else if r.held.any fun m => !s.redAccepts r m then s.redAbort r 0x12 none
  else match r.result with
    | some vals => (s.redForward r vals).redWrite r vals
    | none =>
      let (r, top) := r.climb (redChildren r.p r.rank)
      let s := s.putRed r
      if !top then s
      else if r.rank = 0 then
        (s.redForward r r.acc).redWrite r r.acc
      else
        let up := (r.peers.get? (redParent r.rank)).getD 0
        let s := if r.sentUp then s else s.says (partPackets up (r.message (s.peer up) false r.acc))
        let r := { r with sentUp := true }
        match r.held.find? fun m => m.down with
        | some m => (s.redForward r m.values).redWrite r m.values
        | none => s.putRed r

/-- The handles of a step's edges by rank, as PEERS holds them (R343). -/
def State.redTable (s : State) (tenant peers : Nat) (edges : List Nat) : Dev (List (Nat × Nat)) :=
  edges.foldl (fun (r : Dev (List (Nat × Nat))) e => match r with
    | .ok s l => match s.devRead tenant (peers + 2 * e) 2 with
      | .ok s (b, p) => if p then .poison else .ok s (l ++ [(e, leNat b)])
      | .fault va => .fault va
      | .prot => .prot
      | .poison => .poison
      | .blocked s => .blocked s
    | x => x) (.ok s [])

/-- Gives a command the next posting number of its collective (R345). -/
def State.redNumber (s : State) (id : Nat) (c : NxCmd) (cid : Nat) : State × Nat :=
  match c.num with
  | some (_, n) => (s, n)
  | none =>
    let key := c.tenant * 2 ^ 16 + cid
    let n := (s.eng.redPosts.get? key).getD 0
    let s := s.setNx id { c with num := some (cid, n) }
    ({ s with eng := { s.eng with redPosts := s.eng.redPosts.put key (n + 1) } }, n)

/-- A step whose descriptor, handles and source elements have been read joins the partials that have come for it; a step with an
edge on a connection that has failed ends with 0x11 (R344, R418, R419). -/
def State.redPost (s : State) (id : Nat) (c : NxCmd) (d : RedDesc) (n : Nat) (handles : List (Nat × Nat)) (acc : List RedVal) :
    State :=
  let early := s.red? c.tenant d.cid n
  let r : RedStep :=
    { tenant := c.tenant, cid := d.cid, step := n, cmd := some id, pm1 := d.pm1, rank := d.rank, type := BitVec.ofNat 5 d.type,
      op := BitVec.ofNat 2 d.op, first := bits c.ub 31 0, count := bits c.ub 51 32 + 1, dstb := d.dstb,
      counter := if d.cen then some d.cnt else none, peers := handles.foldl (fun m e => Sparse.put e.1 e.2 m) [], acc := acc,
      level := 0, held := (early.map fun r => r.held).getD [], sentUp := false, result := none, ended := none }
  let s := (s.dropRed r).setNx id { c with sent := true, num := some (d.cid, n) }
  let s := { s with eng := { s.eng with reds := s.eng.reds ++ [r] } }
  match early.bind fun r => r.ended with
  | some code => s.redAbort r code none
  | none => if handles.any fun e => (s.conn? e.2).any fun k => k.failed then s.redAbort r 0x11 none else s.redAdvance r

/-- Begins a step: the descriptor, its posting number, the handles of its edges, the source elements (R343 to R345). A step is
numbered once an earlier one of its tenant is. -/
def State.redStart (s : State) (id : Nat) (c : NxCmd) : State :=
  if s.eng.nx.any fun e => e.1 < id && e.2.opc == 0xDD && e.2.tenant == c.tenant && !e.2.sent && e.2.num.isNone then s
  else match s.readWords c.tenant c.ua.toNat 8 with
    | .ok s (ws, psn) =>
      if psn then s.nxDone id 4
      else match redDescOf ws with
        | none => s.nxDone id 3
        | some d =>
          let (s, n) := s.redNumber id c d.cid
          let c := { c with num := some (d.cid, n) }
          match s.redTable c.tenant d.peers (redEdges (d.pm1 + 1) d.rank) with
          | .ok s handles =>
            if handles.any (fun e => !s.opens c.tenant e.2) || (d.cen && !s.ownsCounter c.tenant d.cnt) then s.nxDone id 2
            else
              let w := typeWidth d.type / 8
              let count := bits c.ub 51 32 + 1
              match s.tenRead c.tenant (d.srcb + bits c.ub 31 0 * w) (count * w) with
              | .ok s bs =>
                s.redPost id c d n handles ((runs w count bs).map fun g => (word (leNat (g.map fun b => b.1)), g.any fun b => b.2))
              | .fault va => s.nxFail id c (.fault va .read)
              | .prot => s.nxFail id c .prot
              | .poison => s.nxFail id c .poison
              | .blocked s => s
          | .fault va => s.nxFail id c (.fault va .read)
          | .prot => s.nxFail id c .prot
          | .poison => s.nxFail id c .poison
          | .blocked s => s
    | .fault va => s.nxFail id c (.fault va .read)
    | .prot => s.nxFail id c .prot
    | .poison => s.nxFail id c .poison
    | .blocked s => s

/-! ### Commands (R331 to R336) -/

/-- Bytes of a put, get or send. -/
def NxCmd.len (c : NxCmd) : Nat := bits c.uc 31 0

/-- The counter that a put or get names. -/
def NxCmd.counter (c : NxCmd) : Option Nat := if bit c.uc 44 then some (bits c.uc 43 32) else none

/-- The packets of a send (R329). -/
def sendPackets (peer key id mailbox : Nat) (bs : List Byte) (deferrable : Bool) (scope : Nat) : List Msg :=
  let total := (bs.length + maxPayload - 1) / maxPayload
  (List.range total).map fun i =>
    .send peer key id i total mailbox ((bs.drop (maxPayload * i)).take maxPayload) deferrable scope

/-- The packets of the answer to a read (R329). -/
def answerPackets (key id addr : Nat) (bs : List Byte) : List Msg :=
  let total := (bs.length + maxPayload - 1) / maxPayload
  (List.range total).map fun i => .getData key id i total (addr + maxPayload * i) ((bs.drop (maxPayload * i)).take maxPayload)

/-- The packets of a put (R329, R333). -/
def putPackets (peer key id addr : Nat) (bs : List Byte) (counter : Option Nat) (scope : Nat) : List Msg :=
  let total := (bs.length + maxPayload - 1) / maxPayload
  (List.range total).map fun i =>
    .put peer key id i total (addr + maxPayload * i) ((bs.drop (maxPayload * i)).take maxPayload) counter scope

/-- Sends a command's messages; local bytes are read first (R333). -/
def State.nxSend (s : State) (id : Nat) : State :=
  match s.nx? id with
  | none => s
  | some c =>
    if c.sent || c.fid.isSome || c.kept.isSome then s
    else if c.forced then s.nxDone id 2
    else if c.opc ≠ 0xDD && (s.conn? c.handle).all (fun k => k.failed) then s.nxDone id 0x11
    else
      let (peer, key) := s.peer c.handle
      let sent := fun (s : State) (ms : List Msg) => (s.setNx id { c with sent := true }).says ms
      let local' := fun (k : State → List Byte → State) =>
        match s.devRead c.tenant c.ua.toNat c.len with
        | .ok s (bs, psn) => if psn then s.nxDone id 4 else k s bs
        | .fault va => s.nxFail id c (.fault va .read)
        | .prot => s.nxFail id c .prot
        | .poison => s.nxFail id c .poison
        | .blocked s => s
      match c.opc.toNat with
      | 0xD9 => local' fun s bs => sent s (putPackets peer key id (bits c.ub 47 0) bs c.counter c.scope)
      | 0xDA => sent s [.get peer key id (bits c.ub 47 0) c.len]
      | 0xDB => local' fun s bs => sent s (sendPackets peer key id (bits c.ub 11 0) bs (c.mod.getLsbD 0) c.scope)
      | 0xDC => sent s [.atomic peer key id (bits c.ua 47 0) (c.mod.extractLsb' 0 4) (c.mod.getLsbD 4) (c.mod.getLsbD 5) c.ub c.uc]
      | _ => s.redStart id c

/-- The code with which a command ends for a remote code: the target met poison, or the connection is dead; otherwise it was refused
(R334). -/
def remoteCode (code : BitVec 8) : BitVec 8 := if code = 0x11 || code = 4 then code else 0x10

/-- A command takes the answer that the network brought (R333 to R336). -/
def State.nxFinish (s : State) (id : Nat) : State :=
  match s.nx? id with
  | none => s
  | some c =>
    match c.answer with
    | none => s
    | some a =>
      if !c.sent || c.fid.isSome || c.kept.isSome then s
      else if c.forced then s.nxDone id 2
      else if a.code ≠ 0 then s.nxDone id (remoteCode a.code)
      else if c.opc = 0xDA then
        match s.cpTenant c.tenant c.ua.toNat c.len .write with
        | .ok s ls =>
          let bs := (List.range c.len).map fun i => (a.data.getD i 0, false)
          let s := State.cpPuts c.core c.tenant ls bs s
          (s.setNx id { c with counts := c.counter }).nxDone id 0
        | .fault va => s.nxFail id c (.fault va .write)
        | .prot => s.nxFail id c .prot
        | .poison => s.nxFail id c .poison
        | .blocked s => s
      else s.nxDone id 0

/-- A command goes on after its fault record was answered. -/
def State.nxRetry (s : State) (id : Nat) : State :=
  match s.nx? id with
  | some c =>
    if c.kept.isSome then s
    else if !c.sent then s.nxSend id
    else if c.opc = 0xDD then
      match s.eng.reds.find? fun r => r.cmd == some id with
      | some r => if c.forced then (s.dropRed r).nxDone id 2 else s.redAdvance r
      | none => s
    else s.nxFinish id
  | none => s

/-- Commands that Pontil queues for a core (R332). -/
def pontilEntries : Nat := 256

/-- The check of a handle (R330). -/
def badHandle (x : Ctx) (s : State) (h : Nat) : UCheck := .prot (!s.opens x.ln.tenant h) h

/-- The check of a counter (R330). -/
def badCounter (x : Ctx) (s : State) (used : Bool) (n : Nat) : UCheck := .prot (used && !s.ownsCounter x.ln.tenant n) n

/-- The checks of a length (R332). -/
def lenChecks (v : Word) : List UCheck := [.ill (bits v 31 0 = 0 || 2 ^ 30 < bits v 31 0) 13]

/-- Whether a transport command does not issue: Pontil's queue for the core is full (R332), or its tag's pending count cannot
rise (R65). -/
def State.pontilHolds (s : State) (x : Ctx) (f : FmtE) : Bool :=
  pontilEntries ≤ (s.eng.nx.filter fun e => e.2.core == x.core).length || !s.tagRoom x.core (x.ln.tagBase + f.tag.toNat)

/-- The checks of the values of `nx.put` to `nx.red` (R330, R332). -/
def nxChecks (opc : Nat) (f : FmtE) (x : Ctx) (s : State) : List UCheck :=
  let ua := s.uni x f.ua
  let ub := s.uni x f.ub
  let uc := s.uni x f.uc
  match opc with
  | 0xD9 => [badHandle x s (bits ub 63 48), strays uc (2 ^ 45 - 1)] ++ lenChecks uc ++ [.mis ua.toNat 16]
  | 0xDA =>
    [badHandle x s (bits ub 63 48), badCounter x s (bit uc 44) (bits uc 43 32), strays uc (2 ^ 45 - 1)] ++ lenChecks uc ++
      [.mis ua.toNat 16]
  | 0xDB =>
    [badHandle x s (bits ub 63 48), strays ub (0xFFFF * 2 ^ 48 + 0xFFF), strays uc (2 ^ 32 - 1)] ++ lenChecks uc ++
      [.mis ua.toNat 16]
  | 0xDC => [badHandle x s (bits ua 63 48), .mis (bits ua 47 0) (if f.mod.getLsbD 4 then 4 else 8)]
  | 0xDD => [strays ub (2 ^ 52 - 1), .mis ua.toNat 64]
  | _ => []

/-- Whether a transport command does not issue: it passes its checks, and only then finds no room. -/
def State.pontilStays (s : State) (x : Ctx) (f : FmtE) : Bool :=
  s.goes x f false (nxChecks x.opc f) && s.pontilHolds x f

/-- A transport command: it does not issue while Pontil's queue is full or its tag's pending count cannot rise. -/
def nxInstr (i : Instr) (s : State) (f : FmtE) (nres : Nat) (handle : Word → Word → Nat) : Host.Outcome State Fault Refusal :=
  engineInstr i s f false nres (some f.ua) (fun x s => nxChecks x.opc f x s) fun x live s =>
    let tag := x.ln.tagBase + f.tag.toNat
    if s.pontilHolds x f then s
    else
      let ua := s.uni x f.ua
      let ub := s.uni x f.ub
      let s := s.drainFor x f live
      let op := s.serial
      let outs := live.map fun l => (⟨l, List.replicate nres (0, false), [], 0, none⟩ : Out)
      let s := (s.finishLong x outs nres (some f.ua) f.dst [] [] (nres != 0)).unknown x.key op
      let id := s.serial
      let c : NxCmd :=
        { opc := x.v.opc, team := x.tk, gid := x.g.gid, tenant := x.ln.tenant, core := x.core, tag := tag,
          ttag := f.tag.toNat, handle := handle ua ub, ua := ua, ub := ub, uc := s.uni x f.uc, mod := f.mod,
          acq := f.acq = 1, rel := f.rel = 1, scope := f.scope.toNat, op := op, pc := x.pc, sent := false,
          answer := none, fid := none, forced := false }
      ((s.fresh.tagIssue x.core tag).setNx id c).nxSend id

/-- R333: `nx.put`. -/
def execNxPut (c : Common) (f : FmtE) (s : State) : Host.Outcome State Fault Refusal :=
  nxInstr (.nxPut c f) s f 0 fun _ ub => bits ub 63 48

/-- R333: `nx.get`. -/
def execNxGet (c : Common) (f : FmtE) (s : State) : Host.Outcome State Fault Refusal :=
  nxInstr (.nxGet c f) s f 0 fun _ ub => bits ub 63 48

/-- R333: `nx.send`. -/
def execNxSend (c : Common) (f : FmtE) (s : State) : Host.Outcome State Fault Refusal :=
  nxInstr (.nxSend c f) s f 0 fun _ ub => bits ub 63 48

/-- R336: `nx.atom`. -/
def execNxAtom (c : Common) (f : FmtE) (s : State) : Host.Outcome State Fault Refusal :=
  nxInstr (.nxAtom c f) s f 1 fun ua _ => bits ua 63 48

/-- R344: `nx.red`. -/
def execNxRed (c : Common) (f : FmtE) (s : State) : Host.Outcome State Fault Refusal :=
  nxInstr (.nxRed c f) s f 0 fun _ _ => 0

/-- R337: `nx.cnt`. -/
def execNxCnt (c : Common) (f : FmtE) (s : State) : Host.Outcome State Fault Refusal :=
  frame (.nxCnt c f) s fun x s =>
    let ua := s.uni x f.ua
    let n := bits ua 11 0
    match [badCounter x s true n, strays ua 0xFFF].find? fun k => k.bad with
    | some k => s.issueTrap x k.cause k.info k.addr
    | none =>
      let strict := s.strictTraps x [f.ua, f.ub]
      let live := x.on.filter fun l => !strict.any fun t => t.lane == l
      let bar := f.mod.toNat % 32
      let old := if f.mod.getLsbD 6 then 0 else (s.counter n).value
      let key := if bar < 16 then x.tk else gangKeyOf x.ln x.t
      let s1 := s.finish x (samePush live old) 1 (some f.ua) f.dst [] 6
      let s1 := if live.isEmpty then s1
        else (s1.modCounter n fun k => { k with
          value := old
          bind := if f.mod.getLsbD 5 then none else some (key, bar, s.uni x f.ub) }).fire n
      s1.takeTraps x.key x.pc x.opc strict

/-- Bytes that may be outstanding on a connection: those of its commands, of the reduction steps with an edge on it, and of the read
answers that have left over it. -/
def State.outstanding (s : State) (h : Nat) : Nat :=
  ((s.eng.nx.filter fun e => e.2.opc != 0xDD && e.2.handle == h && e.2.sent && e.2.answer.isNone && e.2.kept.isNone).map fun e =>
    if e.2.opc = 0xDC then 8 else e.2.len).sum +
  ((s.eng.reds.filter fun r => r.peers.any fun e => e.2 == h).map fun r => 2 * r.count * (typeWidth r.type.toNat / 8)).sum +
  ((s.conn? h).map Conn.served).getD 0

/-- The congestion record of a connection (R339): the ports of its live paths, its retransmissions and live paths, its least
round trip, of which the smoothed one is no less, no byte in flight where nothing is outstanding; the words that the spec names
but gives no rule for are free. -/
def State.congestion (s : State) (h : Nat) : List Word :=
  match s.conn? h with
  | some c =>
    let free := fun i => word (Config.congestion h i s.free).toNat
    let half := fun (hi lo : Nat) => word (hi * 2 ^ 32 + lo)
    let ports := (List.range 8).foldl (fun n p => if c.live.any fun v => (Config.pathPort h v).val = p then n + 2 ^ p else n) 0
    let least := c.rttMin.getD (free 3).toNat
    [half (free 0).toNat (free 1).toNat, half (least + (free 2).toNat % (2 ^ 32 - least)) least,
      half ((free 4).toNat % 2 ^ 16 * 2 ^ 16 + ports * 2 ^ 8) (min c.retx (2 ^ 32 - 1)),
      half c.live.length ((free 6).toNat % (s.outstanding h + 1))]
  | none => [0, 0, 0, 0]

/-- R339: `nx.cc`. -/
def execNxCc (c : Common) (f : FmtE) (s : State) : Host.Outcome State Fault Refusal :=
  frame (.nxCc c f) s fun x s =>
    let ua := s.uni x f.ua
    let h := bits ua 15 0
    match [badHandle x s h, strays ua 0xFFFF].find? fun k => k.bad with
    | some k => s.issueTrap x k.cause k.info k.addr
    | none =>
      let strict := s.strictTraps x [f.ua]
      let live := x.on.filter fun l => !strict.any fun t => t.lane == l
      let vals := (s.congestion h).map fun w => (w, false)
      (s.finish x (live.map fun l => ⟨l, vals, [], 0, none⟩) 4 (some f.ua) f.dst [] 6).takeTraps x.key x.pc x.opc strict

/-! ### What arrives (R329, R330, R333 to R336, R340 to R345) -/

/-- The tenant that a job key selects (R330). -/
def State.tenantByKey (s : State) (key : Nat) : Option (Nat × Tenant) :=
  s.sec.tenants.find? fun e => e.2.jobKeys.contains key

/-- A packet is sent again, on a path chosen afresh among those that are live (R417). -/
def State.resend (s : State) (handle : Nat) : State :=
  match s.conn? handle with
  | some c => match c.live[Config.freeNat (2 ^ 46 + s.free) % c.live.length]? with
    | some p => ((s.modConn handle fun c => { c with retx := sat32 c.retx }).say (.retransmit handle p)).bump
    | none => s
  | none => s

/-- The bytes of an answer whose packets have all come. -/
def answerData (parts : List (Nat × List Byte)) (total : Nat) : List Byte :=
  (List.range total).flatMap fun i => ((parts.find? fun p => p.1 == i).map (·.2)).getD []

/-- NetAnswer: a packet of the answer to a command arrives. A NACK has a packet of the command sent again, and a trimmed or
unsupported packet is answered with one (R329, R417). With the last packet the command is acknowledged; its answer waits where
local bytes cannot be written. An acknowledgement resets the timeouts of the path it took, which the answer does not name: a
free choice; its round trip, a free value, counts for the least one seen (R339). -/
def execNxCommandCompletion (cmd : Nat) (answer : NetAnswer) (s : State) : Host.Outcome State Fault Refusal :=
  .next <| match s.nx? cmd with
    | none => s
    | some c =>
      if !c.sent || c.answer.isSome || c.kept.isSome || c.opc = 0xDD then s
      else if answer.again then s.resend c.handle
      else if answer.trimmed || answer.unsupported || maxPayload < answer.data.length then
        s.say (.nack (s.peer c.handle).2 cmd answer.packet answer.trimmed)
      else
        let trip := (Config.congestion c.handle 3 s.free).toNat
        let s := s.modConn c.handle fun k => { k with
          timeouts := k.timeouts.del (Config.freeNat s.free % 256)
          rttMin := some (min trip (k.rttMin.getD trip)) }
        let parts := (answer.packet, answer.data) :: c.parts.filter fun p => p.1 != answer.packet
        if answer.code = 0 && parts.length < answer.total then (s.setNx cmd { c with parts := parts }).bump
        else
          let a := if answer.total ≤ 1 then answer else { answer with data := answerData parts answer.total }
          ((s.setNx cmd { c with answer := some a }).nxFinish cmd).bump

/-- The answer to a packet that has been dealt with: it leaves, and is kept for copies of the packet (R417). -/
def State.answerOne (s : State) (h : NetHead) (answer : Msg) : State :=
  State.say { s with eng := { s.eng with dealt := s.eng.dealt ++ [⟨h.jobKey, h.peer, h.msg, h.packet, answer⟩] } } answer

/-- Whether a packet that is kept belongs to the message of another. -/
def NetFrag.of (f : NetFrag) (h : NetHead) : Bool := f.jobKey == h.jobKey && f.peer == h.peer && f.msg == h.msg

/-- The answer to the packet with which a message is complete; the packets that were kept for it are gone. -/
def State.answerTo (s : State) (h : NetHead) (answer : Msg) : State :=
  State.answerOne { s with eng := { s.eng with frags := s.eng.frags.filter fun f => !f.of h } } h answer

/-- The acknowledgement of a packet. -/
def ackOf (h : NetHead) (code : BitVec 8) (old : Word) : Msg := .ack h.jobKey h.msg h.packet code old

/-- What Pontil does with an arriving packet (R329, R330, R333, R336, R417): a trimmed one is asked for again; one that uses an
unsupported part is answered with a NACK and has no effect; a copy of one that has been dealt with gets the same answer again; one
whose job key selects no tenant is refused. `big` is whether its payload exceeds 4,096 bytes, and `write` whether it is a write,
which alone may be marked idempotent. -/
def State.inbound (s : State) (h : NetHead) (big write : Bool) (deal : Nat → Tenant → State) : State :=
  if h.trimmed then s.say (.nack h.jobKey h.msg h.packet true)
  else if h.unsupported || big || h.mode == .rod || h.mode == .uud || (h.mode == .rudi && !write) then
    s.say (.nack h.jobKey h.msg h.packet false)
  else match s.eng.dealt.find? fun e => e.jobKey == h.jobKey && e.peer == h.peer && e.msg == h.msg && e.packet == h.packet with
    | some e => s.say e.answer
    | none => match s.tenantByKey h.jobKey with
      | some (n, t) => deal n t
      | none => s.answerTo h (ackOf h 0x10 0)

/-- What the packets of a message carry, once all are there. -/
def State.gather (s : State) (h : NetHead) (total : Nat) (data : List RedVal) : Option (List RedVal) :=
  let mine := s.eng.frags.filter fun f => f.of h
  if mine.length + 1 < total then none
  else some ((List.range total).flatMap fun i => if i = h.packet then data else ((mine.find? fun f => f.packet == i).map NetFrag.data).getD [])

/-- Deals with a message once all its packets are there; an earlier one is kept and acknowledged (R329, R333). A message of one
packet is dealt with as it is. -/
def State.whole (s : State) (h : NetHead) (total : Nat) (data : List RedVal) (deal : Option (List RedVal) → State) : State :=
  if total ≤ 1 then deal none
  else match s.gather h total data with
    | some d => deal (some d)
    | none =>
      let s := s.answerOne h (ackOf h 0 0)
      { s with eng := { s.eng with frags := s.eng.frags ++ [⟨h.jobKey, h.peer, h.msg, h.packet, data⟩] } }

/-- The bytes of a message as values, and back. -/
def asValues (bs : List Byte) : List RedVal := bs.map fun b => (b.setWidth 64, false)
def asBytes (vs : List RedVal) : List Byte := vs.map fun v => v.1.setWidth 8

/-- A packet of a put has been dealt with. With the last one the counter is incremented, unless a packet was refused (R334,
R335). -/
def State.putArrived (s : State) (m : NetPut) (bad : Bool) : State :=
  let same := fun (e : PutIn) => e.jobKey == m.head.jobKey && e.peer == m.head.peer && e.msg == m.head.msg
  let old := (s.eng.puts.find? same).getD ⟨m.head.jobKey, m.head.peer, m.head.msg, 0, false⟩
  let e := { old with got := old.got + 1, bad := old.bad || bad }
  let rest := s.eng.puts.filter fun e => !same e
  if e.got < m.total then { s with eng := { s.eng with puts := rest ++ [e] } }
  else
    let s := { s with eng := { s.eng with puts := rest } }
    match m.counter with
    | some c => if e.bad then s else s.countUp c
    | none => s

/-- R335: a write packet is placed, once; the last of a message increments the counter. -/
def execInboundPut (msg : NetPut) (s : State) : Host.Outcome State Fault Refusal :=
  .next <| s.inbound msg.head (maxPayload < msg.data.length) true fun n _ =>
    let refuse := fun (s : State) => (s.putArrived msg true).answerTo msg.head (ackOf msg.head 0x10 0)
    if msg.counter.any fun c => !s.ownsCounter n c then refuse s
    else match s.devWrite n msg.addr msg.data with
      | .ok s _ => (s.putArrived msg false).answerTo msg.head (ackOf msg.head 0 0)
      | .fault va => s.targetFault n va 1
      | .blocked s => s
      | _ => refuse s

/-- Read answers leave over the connection that a request came over. -/
def State.modServed (s : State) (h : NetHead) (n : Nat) : State :=
  match s.cameFrom h with
  | some k => s.modConn k fun c => { c with served := c.served + n }
  | none => s

/-- R333: a read request is served. Poisoned bytes never leave the module (R383): it is refused with code 0x04. -/
def execInboundGet (head : NetHead) (addr len : Nat) (s : State) : Host.Outcome State Fault Refusal :=
  .next <| s.inbound head false false fun n _ =>
    match s.devRead n addr len with
    | .ok s (bs, psn) =>
      if psn then s.say (ackOf head 4 0)
      else ((s.says (answerPackets head.jobKey head.msg addr bs)).modServed head bs.length)
    | .fault va => s.targetFault n va 0
    | .blocked s => s
    | _ => s.say (ackOf head 0x10 0)

namespace Mailbox

def w (m : Mailbox) (i : Nat) : Word := m.words.getD i 0
def valid (m : Mailbox) : Bool := bit (m.w 0) 63
def lnch (m : Mailbox) : Bool := bit (m.w 0) 62
def slots (m : Mailbox) : Nat := 2 ^ bits (m.w 0) 59 56
def burst (m : Mailbox) : Nat := bits (m.w 0) 55 48
def rate (m : Mailbox) : Nat := bits (m.w 0) 47 32
def jobKey (m : Mailbox) : Nat := bits (m.w 0) 23 0
def plen (m : Mailbox) : Nat := bits (m.w 3) 63 56
def cnt (m : Mailbox) : Nat := bits (m.w 3) 23 12
def queue (m : Mailbox) : Nat := bits (m.w 3) 11 0
def tmpl (m : Mailbox) : Nat := bits (m.w 4) 47 0
def slotBytes (m : Mailbox) : Nat := 256 * bits (m.w 5) 63 48
def area (m : Mailbox) : Nat := bits (m.w 5) 47 0
def head (m : Mailbox) : Nat := bits (m.w 6) 31 0 % m.slots
def slotAddr (m : Mailbox) : Nat := m.area + m.slotBytes * m.head

/-- Whether a sender's job key and source address are admitted (R340). -/
def admits (m : Mailbox) (key : Nat) (src : BitVec 128) : Bool :=
  let own := (m.w 1).toNat + (m.w 2).toNat * 2 ^ 64
  let shift := 128 - min m.plen 128
  m.valid && m.jobKey == key && own / 2 ^ shift == src.toNat / 2 ^ shift

/-- HEAD advances. -/
def advance (m : Mailbox) : Mailbox := { m with words := updAt (fun w => word ((bits w 31 0 + 1) % m.slots)) 6 m.words }

/-- The tokens of the bucket at a time, in millionths (R342). -/
def filled (m : Mailbox) (now : Nat) : Nat := min (m.burst * 1000000) (m.tokens + (now - m.stamp) * m.rate)

end Mailbox

/-- A mailbox entry of a tenant; none where it was never written. -/
def Tenant.mailbox (t : Tenant) (n : Nat) : Mailbox := (t.mailboxes.get? n).getD ⟨List.replicate 8 0, 0, 0, []⟩

/-- Writes a mailbox entry. -/
def State.setMailbox (s : State) (tenant n : Nat) (m : Mailbox) : State :=
  s.modTenant tenant fun t => { t with mailboxes := t.mailboxes.put n m }

/-- A send with the bytes of all its packets. -/
def sendWith (m : NetSend) (d : Option (List RedVal)) : NetSend := { m with data := (d.map asBytes).getD m.data }

/-- A message is sent to a ring mailbox (R341). -/
def State.ringSend (s : State) (n : Nat) (t : Tenant) (msg : NetSend) : State :=
  let refuse := fun (s : State) => s.answerTo msg.head (ackOf msg.head 0x10 0)
  let m := t.mailbox msg.mailbox
  if m.lnch || !m.admits msg.head.jobKey msg.source || m.slotBytes < msg.data.length + 64 || !s.ownsCounter n m.cnt then
    refuse s
  else match s.devRead n m.slotAddr 8 with
    | .ok s (w, _) =>
      if (leNat w).testBit 63 then s.say (.noCredit msg.head.jobKey msg.mailbox)
      else
        let header := leBytes 8 (2 ^ 63 + msg.data.length) ++ List.replicate 56 0
        (match s.devWrite n m.slotAddr (header ++ msg.data) with
        | .ok s _ => ((s.setMailbox n msg.mailbox m.advance).countUp m.cnt).answerTo msg.head (ackOf msg.head 0 0)
        | .fault va => s.targetFault n va 1
        | .blocked s => s
        | _ => refuse s)
    | .fault va => s.targetFault n va 0
    | .blocked s => s
    | _ => refuse s

/-- R341: a packet of a send to a ring mailbox. -/
def execInboundSend (msg : NetSend) (s : State) : Host.Outcome State Fault Refusal :=
  .next <| s.inbound msg.head (maxPayload < msg.data.length) false fun n t =>
    s.whole msg.head msg.total (asValues msg.data) fun d => s.ringSend n t (sendWith msg d)

/-- The sender, module and message by which a send is known whose token has been taken. -/
def sendId (h : NetHead) : Nat × Nat × Nat := (h.jobKey, h.peer, h.msg)

/-- Takes the token of a send (R342). -/
def State.payToken (s : State) (n : Nat) (msg : NetSend) (m : Mailbox) : State :=
  let s := s.setMailbox n msg.mailbox { m with tokens := m.filled s.ns - 1000000, stamp := s.ns }
  { s with eng := { s.eng with paid := s.eng.paid ++ [sendId msg.head] } }

/-- A send that passed the rate check is over. -/
def State.unpay (s : State) (h : NetHead) : State :=
  { s with eng := { s.eng with paid := s.eng.paid.filter fun e => !(e == sendId h) } }

/-- A send whose checks of key, prefix and rate are passed (R342): its slot must be free; then the record is placed, a LAUNCH packet
written and kicked, and the entry's counter incremented (R340). -/
def State.launchByMail (s : State) (n : Nat) (msg : NetSend) (m : Mailbox) : State :=
  let refuse := fun (s : State) => (s.unpay msg.head).answerTo msg.head (ackOf msg.head 0x10 0)
  let q := s.queue m.queue
  if m.busy.contains m.head || q.full then s.say (.noCredit msg.head.jobKey msg.mailbox)
  else if !(q.devq && q.tenant == n) then refuse s
  else match s.devWrite n m.slotAddr msg.data with
    | .ok s _ =>
      let packet := wordsBytes (packetWords q.pi 0 (word m.slotAddr) 0)
      (match s.devWrite n (q.base + 64 * (q.pi % 2 ^ q.log2n)) packet with
      | .ok s _ =>
        let s := s.setMailbox n msg.mailbox { m.advance with busy := insertNat m.head m.busy }
        ((((s.modQueue m.queue fun q =>
          { q.kicked q.pi with
            pi := (q.pi + 1) % 2 ^ 17
            kids := q.kids.del q.pi
            mails := q.mails.put q.pi (msg.mailbox, m.head) }).kickSeen m.queue).countUp m.cnt).unpay msg.head).answerTo msg.head
          (ackOf msg.head 0 0)
      | .fault va => s.targetFault n va 1
      | .blocked s => s
      | _ => refuse s)
    | .fault va => s.targetFault n va 1
    | .blocked s => s
    | _ => refuse s

/-- A deferrable send to a launch mailbox (R342): key and prefix, then the rate, whose token is taken once, then the slot. The size and
the counter, for which R342 names no place, come after the first check (log entry 20). -/
def State.mailSend (s : State) (n : Nat) (t : Tenant) (msg : NetSend) : State :=
  let refuse := fun (s : State) => s.answerTo msg.head (ackOf msg.head 0x10 0)
  let m := t.mailbox msg.mailbox
  let paid := s.eng.paid.contains (sendId msg.head)
  if !m.valid || !m.lnch then refuse (s.unpay msg.head)
  else if !m.admits msg.head.jobKey msg.source then refuse (s.count 15 false msg.mailbox)
  else if m.slotBytes < msg.data.length || !s.ownsCounter n m.cnt then refuse (s.unpay msg.head)
  else if !paid && m.filled s.ns < 1000000 then refuse (s.count 15 false msg.mailbox)
  else
    let s := if paid then s else s.payToken n msg m
    s.launchByMail n msg (((s.tenant? n).map fun t => t.mailbox msg.mailbox).getD m)

/-- R342: a packet of a deferrable send to a launch mailbox. -/
def execInboundDeferrableSend (msg : NetSend) (s : State) : Host.Outcome State Fault Refusal :=
  .next <| s.inbound msg.head (maxPayload < msg.data.length) false fun n t =>
    s.whole msg.head msg.total (asValues msg.data) fun d => s.mailSend n t (sendWith msg d)

/-- The operation of `nx.atom` by its code (R331). -/
def nxAtomOp (op : Nat) : AtomOp :=
  match op with
  | 0 => .add
  | 1 => .min
  | 2 => .max
  | 3 => .and
  | 4 => .or
  | 5 => .xor
  | 8 => .fadd
  | _ => .xchg

/-- R336: an atomic is performed once at its home. -/
def execInboundAtomic (msg : NetAtomic) (s : State) : Host.Outcome State Fault Refusal :=
  .next <| s.inbound msg.head false false fun t _ =>
    let refuse := fun (s : State) => s.answerTo msg.head (ackOf msg.head 0x10 0)
    let n := if msg.b32 then 4 else 8
    if msg.addr % n ≠ 0 || 8 < msg.op.toNat then refuse s
    else match s.devMap t msg.addr n .rmw with
      | .ok s ((pa, _, kind) :: _) =>
        if kind = 3 || kind = 4 then refuse s
        else if s.physPsn pa n then s.answerTo msg.head (ackOf msg.head 4 0)
        else
          let s := s.recallDirty pa n
          let old := s.mem.bytes.readNat pa n
          let w := 8 * n
          let v := msg.operand.toNat % 2 ^ w
          let new := if msg.op = 7 then (if old = msg.compare.toNat % 2 ^ w then v else old)
            else atomNew (nxAtomOp msg.op.toNat) w (msg.signed && msg.op != 8) old v
          (s.physWrite pa (leBytes n new) false).answerTo msg.head (ackOf msg.head 0 (word old))
      | .ok s [] => s
      | .fault va => s.targetFault t va 2
      | .blocked s => s
      | _ => refuse s

/-- Bytes of partials that the reduction store holds (R344). -/
def State.redStore (s : State) : Nat :=
  (s.eng.reds.flatMap fun r => r.held.map fun m => m.values.length * (typeWidth m.type.toNat / 8)).sum

/-- Whether a step of a collective has been posted here and is over. -/
def State.redOver (s : State) (n cid step : Nat) : Bool :=
  step < (s.eng.redPosts.get? (n * 2 ^ 16 + cid)).getD 0 &&
    !(s.eng.nx.any fun e => e.2.opc == 0xDD && e.2.tenant == n && e.2.num == some (cid, step) && e.2.kept.isNone)

/-- The code with which a step that is over aborts a rank whose partial comes too late: what it ended with, else that of a mismatch,
since every partial that the tree names has come (R345, R419). -/
def State.redLate (s : State) (n cid step : Nat) : BitVec 8 :=
  ((s.eng.redEnds.find? fun e => e.1 == n && e.2.1 == cid && e.2.2.1 == step).map (·.2.2.2)).getD 0x12

/-- A partial, or a root's result, is there (R344). One for a step that is over aborts its sender's step (R345). -/
def State.partArrived (s : State) (n : Nat) (msg : NetPartial) : State :=
  match s.red? n msg.cid msg.step with
  | some r =>
    let r := { r with held := r.held ++ [msg] }
    (s.putRed r).redAdvance r
  | none =>
    if s.redOver n msg.cid msg.step then match s.cameFrom msg.head with
      | some h => s.say (.abort h msg.cid msg.step (s.redLate n msg.cid msg.step))
      | none => s
    else { s with eng := { s.eng with reds := s.eng.reds ++ [{ RedStep.named n msg.cid msg.step with held := [msg] }] } }

/-- R344: a packet of a partial, or of a root's result, arrives. While the store is full its sender has no credit. -/
def execInboundPartial (msg : NetPartial) (s : State) : Host.Outcome State Fault Refusal :=
  let size := msg.values.length * (typeWidth msg.type.toNat / 8)
  .next <| s.inbound msg.head (maxPayload < size) false fun n _ =>
    if 2 ^ 24 < s.redStore + size then s
    else s.whole msg.head msg.total msg.values fun d =>
      (s.answerTo msg.head (ackOf msg.head 0 0)).partArrived n { msg with values := d.getD msg.values }

/-- R345, R419: an abort ends a step with its code, that of a mismatch or of a lost edge, and is passed on. -/
def execStepAbort (head : NetHead) (cid : Nat) (abort : NetAbort) (s : State) : Host.Outcome State Fault Refusal :=
  .next <| s.inbound head false false fun n _ =>
    let s := s.answerTo head (ackOf head 0 0)
    let step := abort.step
    let code := if abort.code = 0x12 then 0x12 else 0x11
    match s.red? n cid step with
    | some r => s.redAbort r code ((r.peers.find? fun e => s.cameBy head e.2).map fun e => e.2)
    | none =>
      if s.redOver n cid step then s
      else { s with eng := { s.eng with reds := s.eng.reds ++ [{ RedStep.named n cid step with ended := some code }] } }

/-! ### Paths (R417, R418) -/

/-- R417: a packet times out and is sent again, on a path chosen afresh; the third consecutive timeout makes the path dead. -/
def execRetransmissionTimeout (handle path : Nat) (s : State) : Host.Outcome State Fault Refusal :=
  .next <| match s.conn? handle with
    | none => s
    | some c =>
      if !c.live.contains path then s
      else
        let n := (c.timeouts.get? path).getD 0 + 1
        let live := if n < 3 then c.live else c.live.filter fun p => p != path
        (s.modConn handle fun c => { c with
            timeouts := c.timeouts.put path n
            live := live
            dead := if live.isEmpty then some s.ns else c.dead }).resend handle

/-- Whether the port that a path takes is up, and enabled by configuration (R324, R417). -/
def State.pathUp (s : State) (handle path : Nat) : Bool :=
  s.eng.portsUp.getLsbD (Config.pathPort handle path).val && s.sec.ezwell.ports.getLsbD (Config.pathPort handle path).val

/-- R418: a dead path is probed. -/
def execPathProbe (handle path : Nat) (s : State) : Host.Outcome State Fault Refusal :=
  .next <| match s.conn? handle with
    | some c => if path < c.paths && !c.live.contains path && s.pathUp handle path then s.say (.probe handle path) else s
    | none => s

/-- R418: an acknowledged probe revives a path. -/
def execPathRevival (handle path : Nat) (s : State) : Host.Outcome State Fault Refusal :=
  .next <| s.modConn handle fun c =>
    if path < c.paths && s.pathUp handle path then
      { c with live := insertNat path c.live, timeouts := c.timeouts.del path, dead := none, failed := false }
    else c

/-- Every outstanding command of a connection, and every reduction step with an edge on it, ends with code 0x11
(R418, R419). -/
def State.failConn (s : State) (handle : Nat) : State :=
  let s := (s.eng.nx.filter fun e => e.2.opc != 0xDD && e.2.handle == handle && e.2.kept.isNone).foldl
    (fun (s : State) (e : Nat × NxCmd) => s.nxDone e.1 0x11) s
  (s.eng.reds.filter fun r => r.peers.any fun e => e.2 == handle).foldl (fun s r => s.redAbort r 0x11 (some handle)) s

/-- R418: the grace of 500 ms of a connection without a live path. -/
def graceNs : Nat := 500000000

/-- R418: the grace ends. -/
def execPathGraceExpiry (handle : Nat) (s : State) : Host.Outcome State Fault Refusal :=
  .next <| match s.conn? handle with
    | some c =>
      match c.dead with
      | some d => if c.failed || s.ns < d + graceNs then s
          else (s.modConn handle fun c => { c with failed := true }).failConn handle
      | none => s
    | none => s

/-- R417: a port goes down. -/
def execLinkDown (port : Nat) (s : State) : Host.Outcome State Fault Refusal :=
  .next <| if port < 8 then
      let s := s.count 6 true port
      { s with eng := { s.eng with portsUp := s.eng.portsUp &&& ~~~ BitVec.ofNat 8 (2 ^ port) } }
    else s

/-- R330: the kernel opens a connection, of at most 256 paths (R329). -/
def execConnectionOpen (handle tenant peer jobKey paths : Nat) (s : State) : Host.Outcome State Fault Refusal :=
  .next <|
    if (s.conn? handle).isSome || (s.tenant? tenant).isNone || 2 ^ 16 ≤ handle then s
    else
      let n := min paths 256
      let live := (List.range n).filter (s.pathUp handle)
      let c : Conn := ⟨tenant, peer, jobKey, n, live, [], if live.isEmpty then some s.ns else none, false, 0, none, 0⟩
      let s := { s with eng := { s.eng with conns := s.eng.conns.put handle c } }
      s.modTenant tenant fun t => { t with jobKeys := insertNat jobKey t.jobKeys }

/-- R418: the kernel closes a connection. What is still outstanding on it has no live path and ends with code 0x11. -/
def execConnectionClose (handle : Nat) (s : State) : Host.Outcome State Fault Refusal :=
  .next <| match s.conn? handle with
    | none => s
    | some c =>
      let s := s.failConn handle
      let s := { s with eng := { s.eng with conns := s.eng.conns.del handle } }
      if s.eng.conns.any fun e => e.2.tenant == c.tenant && e.2.jobKey == c.jobKey then s
      else s.modTenant c.tenant fun t => { t with jobKeys := t.jobKeys.filter fun k => k != c.jobKey }

end Sys2Proof.Machine
end

