-- ==== Sys2Proof/Machine/Launches.lean ====
section
/-! DEFINITION. Launch records at acceptance and their rejection, completion records, event counters and child launches
(spec/16_launch_queues_scheduling.md R285, R292 to R300; spec/12_tensor_copy_and_prologue.md R264;
spec/18_transport_and_decompression.md R342; spec/08_control_group_sync_instructions.md R166). -/

namespace Sys2Proof.Machine

/-! ### Addresses of a record (R295) -/

/-- Whether the walk of an address meets a malformed entry, or a poisoned one, which counts as malformed (R405). -/
def State.walkBad (s : State) (va : Nat) : List Nat → Nat → Bool
  | [], _ => false
  | shift :: rest, table =>
    let loc := table + 8 * (va / 2 ^ shift % 512)
    let e := s.physWord loc
    if s.physPsn loc 8 then true
    else if !bit e 0 then false
    else if malformed e shift ((s.mem.spl.get? loc).isSome) then true
    else if bit e 1 then false
    else s.walkBad va rest (bits e 51 12 * 4096)

/-- Whether an address is outside a tenant's space: a malformed entry, or a present leaf that names a frame of the
trusted base or of another tenant. -/
def State.outside (s : State) (tenant va : Nat) : Bool :=
  2 ^ 48 ≤ va || match s.tenant? tenant with
    | none => true
    | some t => s.walkBad va [39, 30, 21, 12] t.root || match s.walk t.root va with
      | some l => s.foreign tenant (l.pa va)
      | none => false

/-- Whether a code address is refused: it is not a branch target, or its line lies on a present leaf without EX. -/
def State.badEntry (s : State) (tenant : Nat) (a : Word) : Bool :=
  !(s.target tenant a).1 || match (s.tenant? tenant).bind fun t => s.walk t.root (lineOf a) with
    | some l => !l.ex
    | none => false

namespace Launch

/-- Whether transform binding i is enabled (R264). -/
def bindOn (l : Launch) (i : Nat) : Bool := !l.isPool && bit (l.w (16 + 4 * i)) 53

/-- Whether an enabled binding breaks R264. -/
def bindBad (l : Launch) (i : Nat) : Bool :=
  let w0 := l.w (16 + 4 * i)
  let dest := l.w (18 + 4 * i)
  let bld := bit w0 52
  let off := bits dest 18 0
  let sums := bits dest 50 32
  bits w0 63 60 != 0 || l.w (19 + 4 * i) != 0 || bits w0 49 48 = 3 || l.tagCnt ≤ bits w0 59 54 ||
    dest &&& ~~~ word ((2 ^ 19 - 1) * 2 ^ 32 + if bld then 0x3F else 2 ^ 19 - 1) != 0 ||
    (if bld then l.slotCnt ≤ bits dest 5 0 else off % 256 != 0 || l.scr < off + 8192) ||
    (bit w0 51 && (sums % 64 != 0 || l.scr < sums + 4 * pxK (pxOf (bits w0 49 48))))

/-- The addresses that R295 checks for code 0x08. -/
def addresses (l : Launch) : List Nat :=
  [l.entry.toNat, l.compl, l.estate, l.privArea, l.addr] ++ (if l.traph = 0 then [] else [l.traph.toNat]) ++
    (((List.range 4).filter l.bindOn).map fun i => bits (l.w (16 + 4 * i)) 47 0) ++
    if l.isPool then [l.poolBase, l.spillBase] else []

/-- Whether a field of a record that must be zero is not, or another bound of code 0x05 is broken. -/
def reserved (l : Launch) : Bool :=
  bits (l.w 1) 63 60 != 0 || bits (l.w 2) 63 62 != 0 || bits (l.w 4) 63 48 != 0 || bits (l.w 5) 63 48 != 0 ||
    bits (l.w 6) 63 48 != 0 || l.nbr = 3 || l.constSize = 0 || 131072 < bits (l.w 2) 43 26 ||
    (l.isPool && (List.range 12).any fun i => l.w (20 + i) != 0)

/-- Whether an address of a record is misaligned. -/
def misaligned (l : Launch) : Bool :=
  l.addr % 64 != 0 || l.compl % 64 != 0 || l.estate % 32 != 0 || l.privArea % 256 != 0 ||
    (l.isPool && (l.poolBase % 128 != 0 || l.spillBase % 128 != 0))

/-- A launch from its record, before its first team. -/
def ofRecord (words : List Word) (addr queue seq tenant start evAddr : Nat) (evAdd : Word) (serial : Nat) : Launch :=
  { words := words, addr := addr, queue := queue, seq := seq, tenant := tenant, start := start, evAddr := evAddr,
    evAdd := evAdd, child := none, mbox := none, prev := none, prevRej := false, serial := serial, next := 0,
    ranges := [], again := [], attempts := [], releasedTeams := [], retired := 0, tdone := 0, tfail := 0, reln := 0,
    fgang := 2 ^ 32 - 1, kil := false, estn := 0, estlost := 0, prej := 0, tstart := 0, poolNext := 0,
    killed := false }

/-- Word 0 of the completion record (R296). -/
def status (l : Launch) (lk st code : Nat) : Word :=
  word (st * 2 ^ 60 + code * 2 ^ 52 + b2n l.kil * 2 ^ 51 + lk * 2 ^ 32 + l.queue * 2 ^ 16 + l.seq % 2 ^ 16)

/-- The completion record at completion (R296). -/
def completion (l : Launch) (lk tend : Nat) : List Word :=
  [l.status lk (if l.tfail = 0 then 2 else 3) 0, word (l.tfail * 2 ^ 32 + l.tdone), word (l.reln % 2 ^ 16 * 2 ^ 32 + l.fgang),
    word (l.estlost * 2 ^ 32 + l.estn), word (l.prej % 2 ^ 32), word l.tstart, word tend, 0]

end Launch

/-- The reject code of a record (R295): the first failing row; `template` is whether a launch mailbox's template refuses
it (R342). -/
def State.rejectCode (s : State) (l : Launch) (template : Bool) : Option Nat :=
  ([ (0x01, l.nteam = 0 || 2 ^ 31 < l.nteam || l.nteam % l.gangSize != 0 ||
        (l.isPool && (l.groups != 1 || l.gangSize != 1))),
     (0x02, 2048 < bits (l.w 2) 11 0),
     (0x03, 64 < l.tagBase + l.tagCnt || 64 < l.slotBase + l.slotCnt),
     (0x04, (List.range 4).any fun i => l.bindOn i && l.bindBad i),
     (0x05, l.reserved),
     (0x06, l.misaligned),
     (0x07, s.badEntry l.tenant l.entry || (l.traph != 0 && s.badEntry l.tenant l.traph)),
     (0x08, l.addresses.any (s.outside l.tenant) || template) ].find? fun e => e.2).map fun e => e.1

/-! ### What the device writes for a launch -/

/-- Writes a record of a launch in slot `lk`, if it has one; on a page that is not present a fault record is posted (log entry 22). -/
def State.record (s : State) (tenant va lk : Nat) (ws : List Word) : State :=
  if s.outside tenant va then s else s.devPut tenant va (wordsBytes ws) { lslot := lk }

/-- Whether the completion record of a launch, or its event counter after it, must be waited for (R190). -/
def State.reportWaits (s : State) (l : Launch) : Bool :=
  State.mustWaitAny ((l.tenant, l.compl, 64, .write) :: if l.evAddr = 0 then [] else [(l.tenant, l.evAddr, 8, .rmw)]) s

/-- Adds to an event counter (R285). -/
def State.signal (s : State) (tenant va : Nat) (v : Word) : State :=
  if va = 0 then s
  else match s.devAdd tenant va v with
    | .ok s _ => s
    | .fault va => s.targetFault tenant va 2
    | .blocked _ => s.owe [.add tenant va v]
    | _ => s

/-- The completion record of a launch and its event counter, as writes that are owed in this order. -/
def Launch.report (l : Launch) (lk ns : Nat) : List Owed :=
  .put l.tenant l.compl (wordsBytes (l.completion lk ns)) :: if l.evAddr = 0 then [] else [.add l.tenant l.evAddr l.evAdd]

/-- The tag of a `launch.t` falls; a child that was rejected or failed sets ERR with the code of its completion record
(R166). -/
def Tag.childDone (t : Tag) (err : Bool) (code : Nat) : Tag := t.ends err (BitVec.ofNat 8 code) 0 0 none

/-- A child launch ends: its parent's tag falls; while the parent is swapped out, that is kept until its restore
(R395). -/
def State.childDone (s : State) (child : Option (Nat × Nat)) (err : Bool) (code : Nat) : State :=
  match child with
  | none => s
  | some (tk, tag) =>
    if s.away tk then { s with work := { s.work with children := s.work.children ++ [⟨tk, tag, err, code⟩] } }
    else match s.team? tk with
      | some t => s.modCore t.core fun c => { c with tags := updAt (fun t => t.childDone err code) tag c.tags }
      | none => s

/-- A launch mailbox's slot becomes free (R342). -/
def State.freeMail (s : State) (m : Option (Nat × Nat × Nat)) : State :=
  match m with
  | none => s
  | some (tenant, n, slot) => s.modTenant tenant fun t => { t with
      mailboxes := t.mailboxes.upd n fun b => { b with busy := b.busy.filter fun k => !(k == slot) } }

/-- What follows a completion record: the event counter, the tag of the parent, and the mailbox slot. -/
def State.afterRecord (s : State) (l : Launch) (err : Bool) (code : Nat) : State :=
  ((s.signal l.tenant l.evAddr l.evAdd).childDone l.child err code).freeMail l.mbox

/-! ### Acceptance (R287, R295, R296, R299) -/

/-- What came of a record that was submitted. -/
inductive Submit where
  | hold
  | unreadable
  | poisoned
  | rejected (code : Nat)
  | accepted
  deriving DecidableEq, Repr

/-- Whether the template of a launch mailbox refuses a record (R342): a bit under its mask differs. -/
def State.templateRefuses (s : State) (tenant : Nat) (box : Option (Nat × Nat)) (words : List Word) : Bool :=
  match box, s.tenant? tenant with
  | some (n, _), some t =>
    match s.readWords tenant (t.mailbox n).tmpl 64 with
    | .ok _ (ws, psn) => psn || (List.range 32).any fun i =>
        (words.getD i 0 ^^^ ws.getD i 0) &&& ws.getD (32 + i) 0 != 0
    | _ => true
  | _, _ => false

/-- Whether the template of a launch mailbox must be waited for (R190). -/
def State.templateWaits (s : State) (tenant : Nat) (box : Option (Nat × Nat)) : Bool :=
  match box, s.tenant? tenant with
  | some (n, _), some t => s.mustWait tenant (t.mailbox n).tmpl 512 .read
  | _, _ => false

/-- Restores the compressed frames that hold some code lines; whether one must be waited for. -/
def State.warm (tenant : Nat) : List Nat → State → State × Bool
  | [], s => (s, false)
  | a :: rest, s =>
    match s.devXlate tenant a .fetch with
    | .ok s _ _ _ => State.warm tenant rest s
    | .later s => (s, true)
    | _ => State.warm tenant rest s

/-- Submits a record for a queue: the record is read, a slot taken, and the record checked; an accepted launch gets ST 1,
a rejected one ST 4 with its code, and its gate link. -/
def State.submit (s : State) (qn : Nat) (addr start : Nat) (evAddr : Nat) (evAdd : Word) : State × Submit :=
  let q := s.queue qn
  let lk := Sparse.freeKey s.work.launches launchSlots 0
  if launchSlots ≤ lk then (s, .hold)
  else match s.readWords q.tenant addr 32 with
    | .blocked s => (s, .hold)
    | .ok s (words, psn) =>
      if psn then (s, .poisoned)
      else
        let box := q.mails.get? q.ci
        let l := { Launch.ofRecord words addr qn q.ci q.tenant start evAddr evAdd s.serial with
            child := q.kids.get? q.ci
            mbox := box.map fun b => (q.tenant, b.1, b.2) }
        let w := State.warm l.tenant ([lineOf l.entry] ++ if l.traph = 0 then [] else [lineOf l.traph]) s
        if w.2 || w.1.reportWaits l || w.1.templateWaits l.tenant box then (w.1, .hold)
        else
          let s := w.1.fresh
          let s := s.modQueue qn fun q => { q with kids := q.kids.del q.ci, mails := q.mails.del q.ci }
          match s.rejectCode l (s.templateRefuses l.tenant box words) with
          | some c =>
            let s := s.modQueue qn fun q => { q with last := some (l.serial, true) }
            ((s.record l.tenant l.compl 0 [l.status 0 4 c]).afterRecord l true c, .rejected c)
          | none =>
            let l := { l with
                prev := if l.dep then q.last.map fun e => e.1 else none
                prevRej := (q.last.map fun e => e.2).getD false }
            let s := s.modQueue qn fun q => { q with last := some (l.serial, false) }
            let s := s.record l.tenant l.compl lk (l.status lk 1 0 :: List.replicate 7 0)
            (s.setLaunch lk l, .accepted)
    | .poison => (s, .poisoned)
    | _ => (s, .unreadable)

end Sys2Proof.Machine
end

