-- ==== Sys2Proof/Machine/Queues.lean ====
section
/-! DEFINITION. Queues, packets, and queue scripts (spec/16_launch_queues_scheduling.md R283 to R291). -/

namespace Sys2Proof.Machine

/-! ### Packets (R284 to R288) -/

/-- Whether the latest kick announces the packet of CI. -/
def Queue.announced (q : Queue) : Bool :=
  q.works && match q.kick with
    | some k => q.ahead k < 2 ^ 16
    | none => false

/-- The address of the slot of CI. -/
def Queue.slot (q : Queue) : Nat := q.base + 64 * (q.ci % 2 ^ q.log2n)

/-- Whether a header is stamped for a sequence. -/
def stamped (h : Word) (seq : Nat) : Bool := bits h 16 0 = seq % 2 ^ 17

/-- KIND of a header. -/
def packetKind (h : Word) : Nat := bits h 19 17

/-- Whether a packet has a reserved KIND or a nonzero reserved field. -/
def packetBad (ws : List Word) : Bool :=
  let h := ws.getD 0 0
  let kind := packetKind h
  5 ≤ kind || bits h 63 40 != 0 || bits h 31 22 != 0 ||
    (kind ≤ 1 && (ws.drop 5).any fun w => w != 0) || ((kind = 2 || kind = 3) && (ws.drop 3).any fun w => w != 0)

/-- The words of the packet of CI, where they can be read. -/
def State.packetAt (s : State) (qn : Nat) : Dev (List Word × Bool) :=
  let q := s.queue qn
  s.readWords q.tenant q.slot 8

/-- The KIND of the packet that a queue can go on with: the one in progress, or a stamped one that was announced and
that BAR does not hold. -/
def State.readyKind (s : State) (qn : Nat) : Option Nat :=
  let q := s.queue qn
  match q.run with
  | some r => if r.builtin then some (packetKind (r.words.getD 0 0)) else none
  | none =>
    if !q.announced then none
    else match s.packetAt qn with
      | .ok _ (ws, psn) =>
        let h := ws.getD 0 0
        if psn || !stamped h q.ci then none
        else if bit h 20 && s.work.launches.any fun e => e.2.queue == qn then none
        else some (packetKind h)
      | _ => none

/-- Whether the announced packet's slot is not stamped. -/
def State.unstamped (s : State) (qn : Nat) : Bool :=
  let q := s.queue qn
  q.run.isNone && q.announced && match s.packetAt qn with
    | .ok _ (ws, psn) => psn || !stamped (ws.getD 0 0) q.ci
    | .blocked _ => false
    | _ => true

/-- Lanes that wait for room in a queue issue their `launch` again, afresh: two streams that waited may then gang and write one
packet, and one held issue may become two. R165 does not say (DESIGN CHOICE, log entry 32). -/
def State.wakeFull (s : State) (qn : Nat) : State :=
  (s.work.groups.filter fun e => onCore (coreOf e.1)).foldl (fun (s : State) (e : Nat × Group) =>
    (e.2.live.filter fun l => (e.2.lane l).waitsFor .launchFull (word qn)).foldl (fun s l => s.unwait e.1 l .active) s) s

/-- Whether the slot of the packet of CI must be waited for (R190): the engine then does nothing for the queue. -/
def State.slotWaits (s : State) (qn : Nat) : Bool :=
  let q := s.queue qn
  (q.run.isSome || q.announced) && s.mustWait q.tenant q.slot 8 .write

/-- Consumes the packet of CI: STS and CONS are written and CI advances. On a page that is not present a fault record is posted (log
entry 22); where the page must be waited for, the packet is handled and stays in progress until they can be written (R190; log entry
32). -/
def State.consumePacket (s : State) (qn sts : Nat) : State :=
  let q := s.queue qn
  if s.mustWait q.tenant q.slot 8 .write then
    s.modQueue qn fun q => { q with run := q.run.map fun r => { r with builtin := true, sts := some sts } }
  else
  let h := match q.run with
    | some r => (r.words.getD 0 0).toNat
    | none => 0
  let h := h - nbits h 39 32 * 2 ^ 32 - nbits h 21 21 * 2 ^ 21 + sts % 256 * 2 ^ 32 + 2 ^ 21
  ((s.devPut q.tenant q.slot (leBytes 8 h)).modQueue qn fun q => { q with
    run := none, ci := (q.ci + 1) % 2 ^ 17, kids := q.kids.del q.ci, mails := q.mails.del q.ci
    issuers := q.issuers.del q.ci }).wakeFull qn

/-- The record of a packet that a gang wrote is poisoned (R383): the tag of `launch.t` completes with code 0x04, and the gang is killed
with reason 0x02, unless it has ended since. -/
def State.recordPoison (s : State) (qn : Nat) : State :=
  let q := s.queue qn
  let s := s.childDone (q.kids.get? q.ci) true 4
  match q.issuers.get? q.ci with
  | some i => match s.gang? i.gang, s.launch? (i.gang / 2 ^ 32) with
    | some g, some l => if l.serial = i.serial && g.attempt = i.attempt then
        s.kill ⟨i.gang / 2 ^ 32, i.gang % 2 ^ 32, 2, 0, i.core, 0, 4, []⟩ else s
    | _, _ => s
  | none => s

/-- The run of a packet as it starts: script registers are zero (R289). -/
def Run.start (code : List (BitVec 32)) (ws : List Word) : Run :=
  { words := ws, regs := List.replicate 16 0, idx := 0, count := 0, loops := [], hold := .none, builtin := code.isEmpty }

/-- An event counter named by a packet or a script: its value; none where the access faults. -/
def State.counterAt (s : State) (tenant va : Nat) : Dev Word :=
  if va % 8 ≠ 0 then .prot
  else match s.readWords tenant va 1 with
    | .ok s (ws, psn) => if psn then .poison else .ok s (ws.getD 0 0)
    | .fault va => .fault va
    | .prot => .prot
    | .poison => .poison
    | .blocked s => .blocked s

/-- Adds to an event counter that a packet or a script names. -/
def State.addAt (s : State) (tenant va : Nat) (v : Word) : Dev Unit :=
  match s.counterAt tenant va with
  | .ok s _ => s.devAdd tenant va v
  | .fault va => .fault va
  | .prot => .prot
  | .poison => .poison
  | .blocked s => .blocked s

/-- The built-in handling of the packet in progress (R285, R287). -/
def State.builtin (s : State) (qn : Nat) (r : Run) : State :=
  let w := fun i => r.words.getD i 0
  let tenant := (s.queue qn).tenant
  match packetKind (w 0) with
  | 2 =>
    match s.counterAt tenant (w 1).toNat with
    | .ok s v => if (w 2).toNat ≤ v.toNat then s.consumePacket qn 0 else s
    | .blocked s => s
    | _ => s.consumePacket qn 4
  | 3 =>
    match s.addAt tenant (w 1).toNat (w 2) with
    | .ok s _ => s.consumePacket qn 0
    | .blocked s => s
    | _ => s.consumePacket qn 4
  | 4 => s.consumePacket qn 0
  | _ =>
    match s.submit qn (w 1).toNat (w 2).toNat (w 3).toNat (w 4) with
    | (s, .hold) => s
    | (s, .unreadable) => s.consumePacket qn 4
    | (s, .poisoned) => (s.recordPoison qn).consumePacket qn 4
    | (s, .rejected c) => s.consumePacket qn (if c = 8 then 5 else 2)
    | (s, .accepted) => s.consumePacket qn 0

/-- A step of the queue engine on a packet of one of some kinds: it begins the packet, or performs its built-in
handling once the script has ended. Where the slot is not stamped, the 2 µs of R288 begin. -/
def State.packet (s : State) (qn : Nat) (kinds : List Nat) : State :=
  let q := s.queue qn
  if s.slotWaits qn then s
  else match q.run.bind fun r => r.sts with
  | some k => s.consumePacket qn k
  | none =>
  if s.unstamped qn then
    match q.early with
    | some _ => s
    | none => s.modQueue qn fun q => { q with early := some s.ns }
  else match s.readyKind qn with
    | none => s
    | some k =>
      if !kinds.contains k then s
      else match q.run with
        | some r => s.builtin qn r
        | none =>
          match s.packetAt qn with
          | .ok s (ws, _) =>
            let s := s.modQueue qn fun q => { q with early := none, run := some (Run.start q.code ws) }
            if packetBad ws then s.consumePacket qn 1 else s
          | _ => s

/-- Bytes of the kick window, which BAR 2 begins with (R316). -/
def kickWindow : Nat := 0x8000

/-- What a read of a queue's kick register returns (R412). -/
def Queue.kickWord (q : Queue) : Word := word (b2n q.ke * 2 ^ 63 + q.ci % 2 ^ 17)

/-- A write of a queue's kick register. The 2 µs for which an unstamped header is read again go on (R288). -/
def State.kick (s : State) (queue : Nat) (value : Word) : State :=
  (s.modQueue queue fun q => q.kicked (value.toNat % 2 ^ 17)).kickSeen queue

/-- R286, R316, R412: a host access to the kick window of BAR 2. An access that is not an aligned one of 8 bytes has no effect, and
reads as zero. -/
def execKick (port offset : Nat) (access : BarAccess) (s : State) : Host.Outcome State Fault Refusal :=
  .next <| if 2 ≤ port || kickWindow ≤ offset then s
    else match access with
      | .read n => s.say (.barData port offset (if n = 8 && offset % 8 = 0 then (s.queue (offset / 8)).kickWord else 0))
      | .write n v => if n = 8 && offset % 8 = 0 then s.kick (offset / 8) v else s

/-- R287: a LAUNCH packet, or one of a reserved kind. -/
def execLaunchPacket (queue : Nat) (s : State) : Host.Outcome State Fault Refusal :=
  .next (s.packet queue [0, 5, 6, 7]).bump
/-- R287: a POOL packet. -/
def execPoolPacket (queue : Nat) (s : State) : Host.Outcome State Fault Refusal := .next (s.packet queue [1]).bump
/-- R285: a WAIT packet. -/
def execWaitPacket (queue : Nat) (s : State) : Host.Outcome State Fault Refusal := .next (s.packet queue [2]).bump
/-- R285: a SIGNAL packet. -/
def execSignalPacket (queue : Nat) (s : State) : Host.Outcome State Fault Refusal := .next (s.packet queue [3]).bump
/-- R287: a SCRIPT packet. -/
def execScriptPacket (queue : Nat) (s : State) : Host.Outcome State Fault Refusal := .next (s.packet queue [4]).bump

/-- The time for which a header that is not stamped is read again (R288). -/
def earlyNs : Nat := 2000

/-- R288: the 2 µs pass: KE is set and CI stays; the packet waits for the next kick. -/
def execKickEarlyTimeout (queue : Nat) (s : State) : Host.Outcome State Fault Refusal :=
  .next <| match (s.queue queue).early with
    | some t =>
      if s.unstamped queue && t + earlyNs ≤ s.ns then
        s.modQueue queue fun q => { q with ke := true, early := none, kick := none }
      else s
    | none => s

/-! ### Script registers and control (R289, R290) -/

namespace Run

def reg (r : Run) (i : BitVec 4) : Word := r.regs.getD i.toNat 0
def setReg (r : Run) (i : BitVec 4) (v : Word) : Run := { r with regs := updAt (fun _ => v) i.toNat r.regs }

/-- Ends the loop bodies that end at the present position: the next iteration, or the bytecode after the body. -/
def close : Nat → Run → Run
  | 0, r => r
  | n + 1, r =>
    match r.loops with
    | f :: t =>
      if r.idx ≠ f.start + f.len then r
      else if f.i + 1 < f.n then
        { r with
          idx := f.start
          loops := { f with i := f.i + 1 } :: t
          regs := updAt (fun _ => word (f.i + 1)) f.d r.regs }
      else close n { r with loops := t }
    | [] => r

/-- Goes on k bytecodes from the present one, which counts as executed; past the last bytecode the script has ended. -/
def go (r : Run) (len k : Nat) : Run :=
  let r := close r.loops.length { r with idx := r.idx + k, count := r.count + 1, hold := .none }
  if len ≤ r.idx then { r with builtin := true } else r

end Run

/-- A bytecode of the script of the queue in progress. -/
def scriptInstr (s : State) (body : Nat → Queue → Run → State) : Host.Outcome State Fault Refusal :=
  .next <| match s.cur with
    | .script qn =>
      match (s.queue qn).run with
      | some r => if r.builtin || s.slotWaits qn then s else (body qn (s.queue qn) r).bump
      | none => s
    | _ => s

/-- The script goes on. -/
def State.scriptTo (s : State) (qn : Nat) (r : Run) : State := s.modQueue qn fun q => { q with run := some r }

/-- A bytecode that only computes. -/
def scriptCalc (s : State) (f : Queue → Run → Run) : Host.Outcome State Fault Refusal :=
  scriptInstr s fun qn q r => s.scriptTo qn ((f q r).go q.code.length 1)

/-- A two-operand bytecode. -/
def scriptOp (s : State) (d a b : BitVec 4) (op : Word → Word → Word) : Host.Outcome State Fault Refusal :=
  scriptCalc s fun _ r => r.setReg d (op (r.reg a) (r.reg b))

/-- R290: `end`. -/
def execScriptEnd (s : State) : Host.Outcome State Fault Refusal :=
  scriptInstr s fun qn _ r => s.scriptTo qn { r with builtin := true, count := r.count + 1 }

/-- R290: `drop`. -/
def execScriptDrop (s : State) : Host.Outcome State Fault Refusal := scriptInstr s fun qn _ _ => s.consumePacket qn 0

/-- R290: `ldp`. -/
def execScriptLdp (d : BitVec 4) (w : BitVec 12) (s : State) : Host.Outcome State Fault Refusal :=
  scriptCalc s fun _ r => r.setReg d (r.words.getD w.toNat 0)

/-- R283, R290: `ldc`. The context words lie in memory at CTX; one that cannot be read ends the packet as R291 states for
the other addresses of a script (log entry 26). -/
def execScriptLdc (d : BitVec 4) (w : BitVec 12) (s : State) : Host.Outcome State Fault Refusal :=
  scriptInstr s fun qn q r =>
    match s.devRead q.tenant (q.ctxAddr + 8 * w.toNat) 8 with
    | .ok s (bs, _) => s.scriptTo qn ((r.setReg d (word (leNat bs))).go q.code.length 1)
    | .blocked s => s
    | _ => s.consumePacket qn 4

/-- R283, R290: `stc`. -/
def execScriptStc (a : BitVec 4) (w : BitVec 12) (s : State) : Host.Outcome State Fault Refusal :=
  scriptInstr s fun qn q r =>
    match s.devWrite q.tenant (q.ctxAddr + 8 * w.toNat) (leBytes 8 (r.reg a).toNat) with
    | .ok s _ => s.scriptTo qn (r.go q.code.length 1)
    | .blocked s => s
    | _ => s.consumePacket qn 4

/-- R290: `li`. -/
def execScriptLi (d : BitVec 4) (i : BitVec 16) (s : State) : Host.Outcome State Fault Refusal :=
  scriptCalc s fun _ r => r.setReg d (i.signExtend 64)

/-- R290: `lih`. -/
def execScriptLih (d : BitVec 4) (i : BitVec 16) (s : State) : Host.Outcome State Fault Refusal :=
  scriptCalc s fun _ r => r.setReg d (r.reg d * 65536 + i.setWidth 64)

/-- R290: `bfx`. `l` is len − 1. -/
def execScriptBfx (d : BitVec 4) (a : BitVec 4) (l : BitVec 6) (p : BitVec 6) (s : State) :
    Host.Outcome State Fault Refusal :=
  scriptCalc s fun _ r => r.setReg d (word ((r.reg a).toNat / 2 ^ p.toNat % 2 ^ (l.toNat + 1)))

/-- R290: `add`. -/
def execScriptAdd (d a b : BitVec 4) (s : State) : Host.Outcome State Fault Refusal := scriptOp s d a b fun x y => x + y
/-- R290: `sub`. -/
def execScriptSub (d a b : BitVec 4) (s : State) : Host.Outcome State Fault Refusal := scriptOp s d a b fun x y => x - y
/-- R290: `and`. -/
def execScriptAnd (d a b : BitVec 4) (s : State) : Host.Outcome State Fault Refusal := scriptOp s d a b fun x y => x &&& y
/-- R290: `or`. -/
def execScriptOr (d a b : BitVec 4) (s : State) : Host.Outcome State Fault Refusal := scriptOp s d a b fun x y => x ||| y
/-- R290: `seq`. -/
def execScriptSeq (d a b : BitVec 4) (s : State) : Host.Outcome State Fault Refusal :=
  scriptOp s d a b fun x y => word (b2n (x == y))
/-- R290: `sltu`. -/
def execScriptSltu (d a b : BitVec 4) (s : State) : Host.Outcome State Fault Refusal :=
  scriptOp s d a b fun x y => word (b2n (x.toNat < y.toNat))

/-- R290: `addi`. -/
def execScriptAddi (d : BitVec 4) (a : BitVec 4) (i : BitVec 16) (s : State) : Host.Outcome State Fault Refusal :=
  scriptCalc s fun _ r => r.setReg d (r.reg a + i.signExtend 64)

/-- R290: `shl`. -/
def execScriptShl (d : BitVec 4) (a : BitVec 4) (n : BitVec 12) (s : State) : Host.Outcome State Fault Refusal :=
  scriptCalc s fun _ r => r.setReg d (r.reg a <<< (n.toNat % 64))

/-- R290: `shr`. -/
def execScriptShr (d : BitVec 4) (a : BitVec 4) (n : BitVec 12) (s : State) : Host.Outcome State Fault Refusal :=
  scriptCalc s fun _ r => r.setReg d (r.reg a >>> (n.toNat % 64))

/-- A branch forward, counted from the branch. -/
def scriptBranch (s : State) (o : BitVec 12) (taken : Run → Bool) : Host.Outcome State Fault Refusal :=
  scriptInstr s fun qn q r => s.scriptTo qn (r.go q.code.length (if taken r then o.toNat else 1))

/-- R290: `bz`. -/
def execScriptBz (a : BitVec 4) (o : BitVec 12) (s : State) : Host.Outcome State Fault Refusal :=
  scriptBranch s o fun r => r.reg a == 0
/-- R290: `bnz`. -/
def execScriptBnz (a : BitVec 4) (o : BitVec 12) (s : State) : Host.Outcome State Fault Refusal :=
  scriptBranch s o fun r => r.reg a != 0
/-- R290: `br`. -/
def execScriptBr (o : BitVec 12) (s : State) : Host.Outcome State Fault Refusal := scriptBranch s o fun _ => true

/-- R290: `loop`: the next `l` bytecodes run `n` times, with sd = 0 to n − 1. -/
def execScriptLoop (d : BitVec 4) (n l : BitVec 8) (s : State) : Host.Outcome State Fault Refusal :=
  scriptInstr s fun qn q r =>
    let r := (r.go q.code.length 1).setReg d 0
    s.scriptTo qn { r with loops := ⟨r.idx, l.toNat, n.toNat, 0, d.toNat⟩ :: r.loops }

/-- R290: `launch`: the register takes 0 or the reject code. -/
def execScriptLaunch (d a b : BitVec 4) (s : State) : Host.Outcome State Fault Refusal :=
  scriptInstr s fun qn q r =>
    match s.submit qn (r.reg a).toNat (r.reg b).toNat 0 0 with
    | (s, .hold) => s
    | (s, .unreadable) | (s, .poisoned) => s.consumePacket qn 4
    | (s, .rejected c) => s.scriptTo qn ((r.setReg d (word c)).go q.code.length 1)
    | (s, .accepted) => s.scriptTo qn ((r.setReg d 0).go q.code.length 1)

/-- R290: `evwait`. It is read again while it holds the queue. -/
def execScriptEvwait (a b : BitVec 4) (s : State) : Host.Outcome State Fault Refusal :=
  scriptInstr s fun qn q r =>
    match s.counterAt q.tenant (r.reg a).toNat with
    | .ok s v =>
      if (r.reg b).toNat ≤ v.toNat then s.scriptTo qn (r.go q.code.length 1)
      else s.scriptTo qn { r with hold := .event (r.reg a).toNat (r.reg b) }
    | .blocked s => s
    | _ => s.consumePacket qn 4

/-- R290: `evsig`. -/
def execScriptEvsig (a b : BitVec 4) (s : State) : Host.Outcome State Fault Refusal :=
  scriptInstr s fun qn q r =>
    match s.addAt q.tenant (r.reg a).toNat (r.reg b) with
    | .ok s _ => s.scriptTo qn (r.go q.code.length 1)
    | .blocked s => s
    | _ => s.consumePacket qn 4

/-- R290: `post`. -/
def execScriptPost (a b : BitVec 4) (s : State) : Host.Outcome State Fault Refusal :=
  scriptInstr s fun qn q r =>
    let va := (r.reg a).toNat
    if va % 8 ≠ 0 then s.consumePacket qn 4
    else match s.devWrite q.tenant va (leBytes 8 (r.reg b).toNat) with
      | .ok s _ => s.scriptTo qn (r.go q.code.length 1)
      | .blocked s => s
      | _ => s.consumePacket qn 4

/-- R290: `greq`: the request goes to the Gleden kernel, and the queue holds until the reply, which the kernel's own
program determines (log entry 15). -/
def execScriptGreq (d : BitVec 4) (c : BitVec 12) (s : State) : Host.Outcome State Fault Refusal :=
  scriptInstr s fun qn q r =>
    let args := r.regs.take 4
    match r.hold with
    | .greq _ => s.scriptTo qn ((r.setReg d (Config.kernelReply c.toNat args s.free)).go q.code.length 1)
    | _ => (s.scriptTo qn { r with hold := .greq d.toNat }).say (.kernelRequest qn c.toNat args)

/-- Bytecodes that a packet may execute (R291). -/
def scriptBudget : Nat := 512

/-- R291: the 513th bytecode: STS 3, and BUD. -/
def execScriptBudgetExceeded (queue : Nat) (s : State) : Host.Outcome State Fault Refusal :=
  .next <| match (s.queue queue).run with
    | some r =>
      if !r.builtin && scriptBudget ≤ r.count then
        (s.modQueue queue fun q => { q with bud := true }).consumePacket queue 3
      else s
    | none => s

/-! ### Bytecodes and the checker (R289 to R291) -/

/-- A bytecode by its fields, for the checker and the script engine. -/
inductive ScriptOp where
  | ends
  | drop
  | ldp (d : BitVec 4) (w : BitVec 12)
  | ldc (d : BitVec 4) (w : BitVec 12)
  | stc (a : BitVec 4) (w : BitVec 12)
  | li (d : BitVec 4) (i : BitVec 16)
  | lih (d : BitVec 4) (i : BitVec 16)
  | bfx (d a : BitVec 4) (l p : BitVec 6)
  | add (d a b : BitVec 4)
  | sub (d a b : BitVec 4)
  | and (d a b : BitVec 4)
  | or (d a b : BitVec 4)
  | addi (d a : BitVec 4) (i : BitVec 16)
  | shl (d a : BitVec 4) (n : BitVec 12)
  | shr (d a : BitVec 4) (n : BitVec 12)
  | seq (d a b : BitVec 4)
  | sltu (d a b : BitVec 4)
  | bz (a : BitVec 4) (o : BitVec 12)
  | bnz (a : BitVec 4) (o : BitVec 12)
  | br (o : BitVec 12)
  | loop (d : BitVec 4) (n l : BitVec 8)
  | launch (d a b : BitVec 4)
  | evwait (a b : BitVec 4)
  | evsig (a b : BitVec 4)
  | post (a b : BitVec 4)
  | greq (d : BitVec 4) (c : BitVec 12)
  deriving DecidableEq, Repr

/-- Reads a bytecode (R289, R290); none for an OP outside the table or a nonzero unused field. -/
def scriptOf (w : BitVec 32) : Option ScriptOp :=
  let d := w.extractLsb' 20 4
  let a := w.extractLsb' 16 4
  let b := w.extractLsb' 12 4
  let i12 := w.extractLsb' 0 12
  let i16 := w.extractLsb' 0 16
  let only := fun (used : Nat) (o : ScriptOp) => if w &&& ~~~ BitVec.ofNat 32 (0xFF000000 + used) = 0 then some o else none
  let n := 0xFFF
  match (w.extractLsb' 24 8).toNat with
  | 0x00 => only 0 .ends
  | 0x01 => only 0 .drop
  | 0x02 => only (0xF00000 + n) (.ldp d i12)
  | 0x03 => only (0xF00000 + n) (.ldc d i12)
  | 0x04 => only (0xF0000 + n) (.stc a i12)
  | 0x05 => only 0xF0FFFF (.li d i16)
  | 0x06 => only 0xF0FFFF (.lih d i16)
  | 0x07 => only (0xFF0000 + n) (.bfx d a (w.extractLsb' 6 6) (w.extractLsb' 0 6))
  | 0x08 => only 0xFFF000 (.add d a b)
  | 0x09 => only 0xFFF000 (.sub d a b)
  | 0x0A => only 0xFFF000 (.and d a b)
  | 0x0B => only 0xFFF000 (.or d a b)
  | 0x0C => only 0xFFFFFF (.addi d a i16)
  | 0x0D => only (0xFF0000 + n) (.shl d a i12)
  | 0x0E => only (0xFF0000 + n) (.shr d a i12)
  | 0x0F => only 0xFFF000 (.seq d a b)
  | 0x10 => only 0xFFF000 (.sltu d a b)
  | 0x11 => only (0xF0000 + n) (.bz a i12)
  | 0x12 => only (0xF0000 + n) (.bnz a i12)
  | 0x13 => only n (.br i12)
  | 0x14 => only 0xF0FFFF (.loop d (w.extractLsb' 8 8) (w.extractLsb' 0 8))
  | 0x15 => only 0xFFF000 (.launch d a b)
  | 0x16 => only 0xFF000 (.evwait a b)
  | 0x17 => only 0xFF000 (.evsig a b)
  | 0x18 => only 0xFF000 (.post a b)
  | 0x19 => only (0xF00000 + n) (.greq d i12)
  | _ => none

/-- The loop bodies of a script: first position and the one past the last. -/
def scriptBodies (ops : List ScriptOp) : List (Nat × Nat) :=
  (withIdx ops).filterMap fun e => match e.2 with
    | .loop _ _ l => some (e.1 + 1, e.1 + 1 + l.toNat)
    | _ => none

/-- Whether the checker admits a bytecode at a position (R291). -/
def scriptAdmits (n : Nat) (bodies : List (Nat × Nat)) (i : Nat) (o : ScriptOp) : Bool :=
  let branch := fun (k : Nat) =>
    k != 0 && i + k ≤ n && bodies.all fun b =>
      (decide (b.1 ≤ i) && decide (i < b.2)) == (decide (b.1 ≤ i + k) && decide (i + k < b.2))
  match o with
  | .bz _ k | .bnz _ k | .br k => branch k.toNat
  | .loop _ m l =>
    m != 0 && m.toNat ≤ 64 && l != 0 && i + 1 + l.toNat ≤ n &&
      (bodies.filter fun b => b.1 ≤ i && i < b.2).length < 2
  | .ldp _ w => w.toNat ≤ 7
  | .ldc _ w | .stc _ w => w.toNat ≤ 31
  | _ => true

/-- The checker (R291); a script is 1 to 1,024 bytecodes long (R289). -/
def scriptOk (code : List (BitVec 32)) : Bool :=
  let ops := code.filterMap scriptOf
  1 ≤ code.length && code.length ≤ 1024 && ops.length = code.length &&
    (withIdx ops).all fun e => scriptAdmits code.length (scriptBodies ops) e.1 e.2

/-- R291: a script is bound: Ezwell verifies the image (R322) and the checker runs; a refusal leaves the queue
disabled. -/
def execScriptBinding (queue : Nat) (image : ScriptImage) (s : State) : Host.Outcome State Fault Refusal :=
  .next <| if 4096 ≤ queue then s
    else if image.signed && s.sec.ezwell.minScript ≤ image.version && scriptOk image.code then
      (s.modQueue queue fun q => { q with script := image.addr, code := image.code }).modTenant (s.queue queue).tenant fun t =>
        { t with scripts := Config.digest [t.scripts.toNat, (Config.digest (image.code.map BitVec.toNat)).toNat] }
    else s.modQueue queue fun q => { q with en := false }

end Sys2Proof.Machine
end

