-- ==== Sys2Proof/Decode.lean ====
section
/-! DEFINITION. Decoding and encoding: the 96-bit word of a Huaxus instruction (spec/04_instruction_encoding.md R71, R75 to
R94) and the 32-bit bytecode of a queue script (spec/16_launch_queues_scheduling.md R289, R290). The other rows of the
opcode table have no encoding. -/

namespace Sys2Proof

open Machine

/-- Why bits are no instruction. -/
inductive Reject where
  /-- An opcode of 0xE0 to 0xFF (R94). -/
  | reservedOpcode (opc : BitVec 8)
  /-- An OP that is no bytecode, or a nonzero field that its OP does not use (R290, R291). -/
  | notABytecode (w : BitVec 32)
  /-- Fewer bytes than the instruction has. -/
  | truncated (n : Nat)
  deriving DecidableEq, Repr

/-! ### The instruction word (R75, R79 to R87) -/

/-- The common fields (R75). -/
def commonOf (w : Slot96) : Common :=
  { tt := w.extractLsb' 80 8, ga := w.extractLsb' 77 3, gb := w.extractLsb' 74 3, gc := w.extractLsb' 71 3,
    wait := w.extractLsb' 59 12, set1 := w.extractLsb' 55 4, set2 := w.extractLsb' 51 4, dist := w.extractLsb' 48 3 }

/-- Format T (R80). -/
def fmtTOf (w : Slot96) : FmtT :=
  { dst := w.extractLsb' 42 6, sa := w.extractLsb' 36 6, sb := w.extractLsb' 30 6, sc := w.extractLsb' 24 6,
    la := w.extractLsb' 23 1, lb := w.extractLsb' 22 1, lc := w.extractLsb' 21 1, type := w.extractLsb' 16 5,
    rnd := w.extractLsb' 14 2, ftz := w.extractLsb' 13 1, sat := w.extractLsb' 12 1, mod := w.extractLsb' 0 12 }

/-- Format I (R82). -/
def fmtIOf (w : Slot96) : FmtI :=
  { dst := w.extractLsb' 42 6, sa := w.extractLsb' 36 6, mod := w.extractLsb' 32 4, imm := w.extractLsb' 0 32 }

/-- Format P (R83). -/
def fmtPOf (w : Slot96) : FmtP :=
  { pa := w.extractLsb' 45 3, pb := w.extractLsb' 42 3, sa := w.extractLsb' 36 6, sb := w.extractLsb' 30 6,
    mode := w.extractLsb' 28 2, cond := w.extractLsb' 24 4, type := w.extractLsb' 19 5, ftz := w.extractLsb' 18 1,
    rsv := w.extractLsb' 0 18 }

/-- Format B (R84). -/
def fmtBOf (w : Slot96) : FmtB :=
  { sa := w.extractLsb' 42 6, mod := w.extractLsb' 38 4, rsv := w.extractLsb' 32 6, ofs := w.extractLsb' 0 32 }

/-- Format M (R85). -/
def fmtMOf (w : Slot96) : FmtM :=
  { dst := w.extractLsb' 42 6, sa := w.extractLsb' 36 6, sd := w.extractLsb' 30 6, space := w.extractLsb' 27 3,
    width := w.extractLsb' 24 3, order := w.extractLsb' 22 2, scope := w.extractLsb' 19 3, hint := w.extractLsb' 17 2,
    sgn := w.extractLsb' 16 1, ofs := w.extractLsb' 0 16 }

/-- Format E (R86). -/
def fmtEOf (w : Slot96) : FmtE :=
  { dst := w.extractLsb' 42 6, ua := w.extractLsb' 36 6, ub := w.extractLsb' 30 6, uc := w.extractLsb' 24 6,
    tag := w.extractLsb' 18 6, acq := w.extractLsb' 17 1, rel := w.extractLsb' 16 1, scope := w.extractLsb' 13 3,
    mod := w.extractLsb' 0 13 }

/-- Format S (R87). -/
def fmtSOf (w : Slot96) : FmtS :=
  { dst := w.extractLsb' 42 6, sa := w.extractLsb' 36 6, sel := w.extractLsb' 24 12, imm := w.extractLsb' 0 24 }

/-- The instruction of an opcode, whose format fixes how the low 48 bits are read; none for a reserved opcode. -/
def slotInstr (w : Slot96) : Option Instr :=
  let o := (w.extractLsb' 88 8).toNat
  let c := commonOf w
  ofFmtT o c (fmtTOf w) <|> ofFmtI o c (fmtIOf w) <|> ofFmtP o c (fmtPOf w) <|> ofFmtB o c (fmtBOf w) <|>
    ofFmtM o c (fmtMOf w) <|> ofFmtE o c (fmtEOf w) <|> ofFmtS o c (fmtSOf w)

/-- Decodes an instruction word. -/
def decodeSlot (w : Slot96) : Except Reject Instr :=
  match slotInstr w with
  | some i => .ok i
  | none => .error (.reservedOpcode (w.extractLsb' 88 8))

/-- Decodes the 12 bytes of a slot, the least significant first (R3, R71). -/
def decodeBytes (bs : List Byte) : Except Reject Instr :=
  if bs.length < 12 then .error (.truncated bs.length) else decodeSlot (BitVec.ofNat 96 (leNat (bs.take 12)))

/-- The opcode and the common fields in their places (R75). -/
def commonBits (opc : BitVec 8) (c : Common) : Nat :=
  opc.toNat * 2 ^ 88 + c.tt.toNat * 2 ^ 80 + c.ga.toNat * 2 ^ 77 + c.gb.toNat * 2 ^ 74 + c.gc.toNat * 2 ^ 71 +
    c.wait.toNat * 2 ^ 59 + c.set1.toNat * 2 ^ 55 + c.set2.toNat * 2 ^ 51 + c.dist.toNat * 2 ^ 48

/-- The format-specific fields in their places (R80 to R87). -/
def fmtBits : Fmt → Nat
  | .t f => f.dst.toNat * 2 ^ 42 + f.sa.toNat * 2 ^ 36 + f.sb.toNat * 2 ^ 30 + f.sc.toNat * 2 ^ 24 +
      f.la.toNat * 2 ^ 23 + f.lb.toNat * 2 ^ 22 + f.lc.toNat * 2 ^ 21 + f.type.toNat * 2 ^ 16 +
      f.rnd.toNat * 2 ^ 14 + f.ftz.toNat * 2 ^ 13 + f.sat.toNat * 2 ^ 12 + f.mod.toNat
  | .i f => f.dst.toNat * 2 ^ 42 + f.sa.toNat * 2 ^ 36 + f.mod.toNat * 2 ^ 32 + f.imm.toNat
  | .p f => f.pa.toNat * 2 ^ 45 + f.pb.toNat * 2 ^ 42 + f.sa.toNat * 2 ^ 36 + f.sb.toNat * 2 ^ 30 +
      f.mode.toNat * 2 ^ 28 + f.cond.toNat * 2 ^ 24 + f.type.toNat * 2 ^ 19 + f.ftz.toNat * 2 ^ 18 + f.rsv.toNat
  | .b f => f.sa.toNat * 2 ^ 42 + f.mod.toNat * 2 ^ 38 + f.rsv.toNat * 2 ^ 32 + f.ofs.toNat
  | .m f => f.dst.toNat * 2 ^ 42 + f.sa.toNat * 2 ^ 36 + f.sd.toNat * 2 ^ 30 + f.space.toNat * 2 ^ 27 +
      f.width.toNat * 2 ^ 24 + f.order.toNat * 2 ^ 22 + f.scope.toNat * 2 ^ 19 + f.hint.toNat * 2 ^ 17 +
      f.sgn.toNat * 2 ^ 16 + f.ofs.toNat
  | .e f => f.dst.toNat * 2 ^ 42 + f.ua.toNat * 2 ^ 36 + f.ub.toNat * 2 ^ 30 + f.uc.toNat * 2 ^ 24 +
      f.tag.toNat * 2 ^ 18 + f.acq.toNat * 2 ^ 17 + f.rel.toNat * 2 ^ 16 + f.scope.toNat * 2 ^ 13 + f.mod.toNat
  | .s f => f.dst.toNat * 2 ^ 42 + f.sa.toNat * 2 ^ 36 + f.sel.toNat * 2 ^ 24 + f.imm.toNat

/-- The 96-bit word of an instruction's parts. -/
def wordOf (v : View) : Slot96 := BitVec.ofNat 96 (commonBits v.opc v.c + fmtBits v.f)

/-! ### Bytecodes (R289, R290) -/

/-- The instruction of a bytecode. -/
noncomputable def scriptInstrOf : ScriptOp → Instr
  | .ends => .scriptEnd
  | .drop => .scriptDrop
  | .ldp d w => .scriptLdp d w
  | .ldc d w => .scriptLdc d w
  | .stc a w => .scriptStc a w
  | .li d i => .scriptLi d i
  | .lih d i => .scriptLih d i
  | .bfx d a l p => .scriptBfx d a l p
  | .add d a b => .scriptAdd d a b
  | .sub d a b => .scriptSub d a b
  | .and d a b => .scriptAnd d a b
  | .or d a b => .scriptOr d a b
  | .addi d a i => .scriptAddi d a i
  | .shl d a n => .scriptShl d a n
  | .shr d a n => .scriptShr d a n
  | .seq d a b => .scriptSeq d a b
  | .sltu d a b => .scriptSltu d a b
  | .bz a o => .scriptBz a o
  | .bnz a o => .scriptBnz a o
  | .br o => .scriptBr o
  | .loop d n l => .scriptLoop d n l
  | .launch d a b => .scriptLaunch d a b
  | .evwait a b => .scriptEvwait a b
  | .evsig a b => .scriptEvsig a b
  | .post a b => .scriptPost a b
  | .greq d c => .scriptGreq d c

/-- Decodes a bytecode. -/
noncomputable def decodeScript (w : BitVec 32) : Except Reject Instr :=
  match scriptOf w with
  | some o => .ok (scriptInstrOf o)
  | none => .error (.notABytecode w)

/-- The bytecode of an operation, its unused fields zero. -/
def scriptWord (op : Nat) (d a b : BitVec 4) (i12 : BitVec 12) : BitVec 32 :=
  BitVec.ofNat 32 (op * 2 ^ 24 + d.toNat * 2 ^ 20 + a.toNat * 2 ^ 16 + b.toNat * 2 ^ 12 + i12.toNat)

/-- As `scriptWord`, with IMM16 in the low bits. -/
def scriptWord16 (op : Nat) (d a : BitVec 4) (i16 : BitVec 16) : BitVec 32 :=
  BitVec.ofNat 32 (op * 2 ^ 24 + d.toNat * 2 ^ 20 + a.toNat * 2 ^ 16 + i16.toNat)

/-- The bytecode of an instruction of a script; none for the others. -/
def bytecodeOf : Instr → Option (BitVec 32)
  | .scriptEnd => some (scriptWord 0x00 0 0 0 0)
  | .scriptDrop => some (scriptWord 0x01 0 0 0 0)
  | .scriptLdp d w => some (scriptWord 0x02 d 0 0 w)
  | .scriptLdc d w => some (scriptWord 0x03 d 0 0 w)
  | .scriptStc a w => some (scriptWord 0x04 0 a 0 w)
  | .scriptLi d i => some (scriptWord16 0x05 d 0 i)
  | .scriptLih d i => some (scriptWord16 0x06 d 0 i)
  | .scriptBfx d a l p => some (scriptWord 0x07 d a 0 (l ++ p))
  | .scriptAdd d a b => some (scriptWord 0x08 d a b 0)
  | .scriptSub d a b => some (scriptWord 0x09 d a b 0)
  | .scriptAnd d a b => some (scriptWord 0x0A d a b 0)
  | .scriptOr d a b => some (scriptWord 0x0B d a b 0)
  | .scriptAddi d a i => some (scriptWord16 0x0C d a i)
  | .scriptShl d a n => some (scriptWord 0x0D d a 0 n)
  | .scriptShr d a n => some (scriptWord 0x0E d a 0 n)
  | .scriptSeq d a b => some (scriptWord 0x0F d a b 0)
  | .scriptSltu d a b => some (scriptWord 0x10 d a b 0)
  | .scriptBz a o => some (scriptWord 0x11 0 a 0 o)
  | .scriptBnz a o => some (scriptWord 0x12 0 a 0 o)
  | .scriptBr o => some (scriptWord 0x13 0 0 0 o)
  | .scriptLoop d n l => some (scriptWord16 0x14 d 0 (n ++ l))
  | .scriptLaunch d a b => some (scriptWord 0x15 d a b 0)
  | .scriptEvwait a b => some (scriptWord 0x16 0 a b 0)
  | .scriptEvsig a b => some (scriptWord 0x17 0 a b 0)
  | .scriptPost a b => some (scriptWord 0x18 0 a b 0)
  | .scriptGreq d c => some (scriptWord 0x19 d 0 0 c)
  | _ => none

/-! ### Both -/

/-- The encoding of an instruction: how many bits it has and their value; none for a row without an encoding. -/
def encode (i : Instr) : Option (Nat × Nat) :=
  match view i with
  | some v => some (96, (wordOf v).toNat)
  | none => (bytecodeOf i).map fun w => (32, w.toNat)

/-- The instruction that bits numbered as the opcode table numbers them are: a bytecode for up to 32 bits, else an
instruction word. -/
noncomputable def decodeTableWord (nbits w : Nat) : Option Instr :=
  match if nbits ≤ 32 then decodeScript (BitVec.ofNat 32 w) else decodeSlot (BitVec.ofNat 96 w) with
  | .ok i => some i
  | .error _ => none

end Sys2Proof
end

