-- ==== Sys2Proof/Machine/Float.lean ====
section
/-! DEFINITION. Rows 0x4 to 0x6: floating-point arithmetic, special functions, compares, conversions, moves, special
registers and predicates (spec/07_float_conversion_instructions.md R131 to R151). -/

namespace Sys2Proof.Machine

/-! ### Scalar and packed arithmetic (R132 to R136) -/

/-- The sources as values of the type, flushed under `.ftz`. -/
def fsrc (f : FmtT) (vs : List Word) (k : Nat) : FNum := readFp f.ty f.ftzB (src vs k)

def addOp (f : FmtT) (vs : List Word) : Nat × FpFlags := (fmtOf f.ty).add f.rnd.toNat f.ftzB (fsrc f vs 0) (fsrc f vs 1)
def subOp (f : FmtT) (vs : List Word) : Nat × FpFlags :=
  (fmtOf f.ty).add f.rnd.toNat f.ftzB (fsrc f vs 0) (fsrc f vs 1).flip
def mulOp (f : FmtT) (vs : List Word) : Nat × FpFlags := (fmtOf f.ty).mul f.rnd.toNat f.ftzB (fsrc f vs 0) (fsrc f vs 1)
def fmaOp (f : FmtT) (vs : List Word) : Nat × FpFlags :=
  (fmtOf f.ty).fma f.rnd.toNat f.ftzB (fsrc f vs 0) (fsrc f vs 1) (fsrc f vs 2)
def minOp (f : FmtT) (vs : List Word) : Nat × FpFlags := (fmtOf f.ty).minmax false (fsrc f vs 0) (fsrc f vs 1)
def maxOp (f : FmtT) (vs : List Word) : Nat × FpFlags := (fmtOf f.ty).minmax true (fsrc f vs 0) (fsrc f vs 1)

/-- R132: `fadd`. -/
def execFadd (c : Common) (f : FmtT) (s : State) : Host.Outcome State Fault Refusal := fpT (.fadd c f) s f 2 4 (addOp f)
/-- R132: `fsub`. -/
def execFsub (c : Common) (f : FmtT) (s : State) : Host.Outcome State Fault Refusal := fpT (.fsub c f) s f 2 4 (subOp f)
/-- R132: `fmul`. -/
def execFmul (c : Common) (f : FmtT) (s : State) : Host.Outcome State Fault Refusal := fpT (.fmul c f) s f 2 4 (mulOp f)
/-- R132: `ffma`. -/
def execFfma (c : Common) (f : FmtT) (s : State) : Host.Outcome State Fault Refusal := fpT (.ffma c f) s f 3 4 (fmaOp f)
/-- R133: `fmin`. -/
def execFmin (c : Common) (f : FmtT) (s : State) : Host.Outcome State Fault Refusal := fpT (.fmin c f) s f 2 4 (minOp f)
/-- R133: `fmax`. -/
def execFmax (c : Common) (f : FmtT) (s : State) : Host.Outcome State Fault Refusal := fpT (.fmax c f) s f 2 4 (maxOp f)

/-- A value with its sign cleared or inverted; a NaN gives the canonical NaN and no flag (R134). -/
def signOp (f : FmtT) (vs : List Word) (g : FNum → FNum) : Nat × FpFlags :=
  ((fmtOf f.ty).exact (g (fsrc f vs 0)), 0)

/-- R134: `fabs`. -/
def execFabs (c : Common) (f : FmtT) (s : State) : Host.Outcome State Fault Refusal :=
  fpT (.fabs c f) s f 1 4 fun vs => signOp f vs fun a => if a.neg then a.flip else a
/-- R134: `fneg`. -/
def execFneg (c : Common) (f : FmtT) (s : State) : Host.Outcome State Fault Refusal :=
  fpT (.fneg c f) s f 1 4 fun vs => signOp f vs FNum.flip

/-- Element e of packed sources. -/
def elemOf (vs : List Word) (e : Nat) : List Word := vs.map fun v => word (v.toNat / 2 ^ (16 * e) % 2 ^ 16)

/-- An operation on both elements of packed sources (R135). -/
def packed (op : List Word → Nat × FpFlags) (vs : List Word) : Nat × FpFlags :=
  let r0 := op (elemOf vs 0)
  let r1 := op (elemOf vs 1)
  (r0.1 + r1.1 * 2 ^ 16, r0.2 ||| r1.2)

/-- R135: `hadd2`. -/
def execHadd2 (c : Common) (f : FmtT) (s : State) : Host.Outcome State Fault Refusal :=
  fpT (.hadd2 c f) s f 2 4 (packed (addOp f))
/-- R135: `hsub2`. -/
def execHsub2 (c : Common) (f : FmtT) (s : State) : Host.Outcome State Fault Refusal :=
  fpT (.hsub2 c f) s f 2 4 (packed (subOp f))
/-- R135: `hmul2`. -/
def execHmul2 (c : Common) (f : FmtT) (s : State) : Host.Outcome State Fault Refusal :=
  fpT (.hmul2 c f) s f 2 4 (packed (mulOp f))
/-- R135: `hfma2`. -/
def execHfma2 (c : Common) (f : FmtT) (s : State) : Host.Outcome State Fault Refusal :=
  fpT (.hfma2 c f) s f 3 4 (packed (fmaOp f))
/-- R135: `hmin2`. -/
def execHmin2 (c : Common) (f : FmtT) (s : State) : Host.Outcome State Fault Refusal :=
  fpT (.hmin2 c f) s f 2 4 (packed (minOp f))
/-- R135: `hmax2`. -/
def execHmax2 (c : Common) (f : FmtT) (s : State) : Host.Outcome State Fault Refusal :=
  fpT (.hmax2 c f) s f 2 4 (packed (maxOp f))

/-- R136: `hdot2`. -/
def execHdot2 (c : Common) (f : FmtT) (s : State) : Host.Outcome State Fault Refusal :=
  fpT (.hdot2 c f) s f 3 4 fun vs =>
    let a := fun k e => fsrc f (elemOf vs e) k
    fmtF32.dot2 f.rnd.toNat f.ftzB (a 0 0) (a 1 0) (a 0 1) (a 1 1) (readFp 14 f.ftzB (src vs 2))

/-- R132: `fscale`. -/
def execFscale (c : Common) (f : FmtT) (s : State) : Host.Outcome State Fault Refusal :=
  fpT (.fscale c f) s f 2 4 fun vs =>
    (fmtOf f.ty).scale f.rnd.toNat f.ftzB (fsrc f vs 0) (max (min (signedOf 32 (src vs 1).toNat) 5000) (-5000))

/-- R132: `dadd`. -/
def execDadd (c : Common) (f : FmtT) (s : State) : Host.Outcome State Fault Refusal := fpT (.dadd c f) s f 2 6 (addOp f)
/-- R132: `dsub`. -/
def execDsub (c : Common) (f : FmtT) (s : State) : Host.Outcome State Fault Refusal := fpT (.dsub c f) s f 2 6 (subOp f)
/-- R132: `dmul`. -/
def execDmul (c : Common) (f : FmtT) (s : State) : Host.Outcome State Fault Refusal := fpT (.dmul c f) s f 2 6 (mulOp f)
/-- R132: `dfma`. -/
def execDfma (c : Common) (f : FmtT) (s : State) : Host.Outcome State Fault Refusal := fpT (.dfma c f) s f 3 6 (fmaOp f)
/-- R133: `dmin`. -/
def execDmin (c : Common) (f : FmtT) (s : State) : Host.Outcome State Fault Refusal := fpT (.dmin c f) s f 2 6 (minOp f)
/-- R133: `dmax`. -/
def execDmax (c : Common) (f : FmtT) (s : State) : Host.Outcome State Fault Refusal := fpT (.dmax c f) s f 2 6 (maxOp f)

/-! ### Special functions (R131, R137, R138, R148): long latency, flags and traps at completion -/

/-- A special function: results stay pending; the operation keeps each lane's flags, no result for a lane whose
enables at issue make it trap at completion (R131), and the sources that such a lane finds intact (R61). -/
def specialT (i : Instr) (s : State) (f : FmtT) : Host.Outcome State Fault Refusal :=
  frame i s fun x s0 =>
    let m := fmtOf f.ty
    let rd := fun l => s0.opnd x.g l f.sa
    let res := fun l =>
      let a := (rd l).val.toNat % 2 ^ m.width
      m.special x.opc f.rnd.toNat f.ftzB (Config.special x.v.opc f.type f.ftz (word a)) (m.read f.ftzB a)
    s0.shadowCheck x (fun l => [(rd l).val]) (fun l => [word (res l).1]) fun s _ vals =>
      let strict := s.strictTraps x [f.sa]
      let live := x.on.filter fun l => !strict.any fun t => t.lane == l
      let id := s.serial
      let s := s.finishLong x (live.map fun l => ⟨l, [((vals l).headD 0, (rd l).psn)], [], 0, none⟩) 1 (some f.sa) f.dst f.marks
        (live.map fun l => (l, (res l).2)) false
      let traps := live.filter fun l => (fpTrap l (x.g.lane l).fpstat (res l).2).isSome
      let s := match s.op? id with
        | some o => s.setOp id { o with
            res := o.res.filter fun r => !traps.contains r.1
            saved := traps.flatMap fun l => f.marks.map fun n => (l, n, (x.g.lane l).n.getD n (Reg.clear 0)) }
        | none => s
      s.takeTraps x.key x.pc x.opc strict

/-- R137: `rcp`. -/
def execRcp (c : Common) (f : FmtT) (s : State) : Host.Outcome State Fault Refusal := specialT (.rcp c f) s f
/-- R137: `rsqrt`. -/
def execRsqrt (c : Common) (f : FmtT) (s : State) : Host.Outcome State Fault Refusal := specialT (.rsqrt c f) s f
/-- R137: `exp2`. -/
def execExp2 (c : Common) (f : FmtT) (s : State) : Host.Outcome State Fault Refusal := specialT (.exp2 c f) s f
/-- R137: `log2`. -/
def execLog2 (c : Common) (f : FmtT) (s : State) : Host.Outcome State Fault Refusal := specialT (.log2 c f) s f
/-- R137: `sin`. -/
def execSin (c : Common) (f : FmtT) (s : State) : Host.Outcome State Fault Refusal := specialT (.sin c f) s f
/-- R137: `cos`. -/
def execCos (c : Common) (f : FmtT) (s : State) : Host.Outcome State Fault Refusal := specialT (.cos c f) s f
/-- R137: `sqrt`. -/
def execSqrt (c : Common) (f : FmtT) (s : State) : Host.Outcome State Fault Refusal := specialT (.sqrt c f) s f

/-! ### Classification and compares (R139, R140) -/

/-- R139: `fclass`. -/
def execFclass (c : Common) (f : FmtT) (s : State) : Host.Outcome State Fault Refusal :=
  plainT (.fclass c f) s f 1 1 4 fun vs => [word ((fmtOf f.ty).classOf ((src vs 0).toNat % 2 ^ typeWidth f.ty))]

/-- R140: `fcmp`. -/
def execFcmp (c : Common) (f : FmtP) (s : State) : Host.Outcome State Fault Refusal :=
  pairP (.fcmp c f) s f 4 fun a b =>
    fcond f.cond.toNat (readFp f.type.toNat (f.ftz = 1) a) (readFp f.type.toNat (f.ftz = 1) b)

/-- R140: `dcmp`. -/
def execDcmp (c : Common) (f : FmtP) (s : State) : Host.Outcome State Fault Refusal :=
  pairP (.dcmp c f) s f 4 fun a b =>
    fcond f.cond.toNat (readFp f.type.toNat (f.ftz = 1) a) (readFp f.type.toNat (f.ftz = 1) b)

/-! ### Conversions (R141 to R144) -/

/-- One conversion of `cvt` (R142). -/
def convert (rnd dt st : Nat) (ftz sat : Bool) (v : Word) : Word × FpFlags :=
  if 12 ≤ st then
    let a := readFp st ftz v
    if 12 ≤ dt then
      let narrows := typeWidth dt < typeWidth st || (typeWidth dt = typeWidth st && dt ≠ st)
      let r := (fmtOf dt).convert rnd ftz (sat && narrows) a
      (word r.1, r.2)
    else
      let r := toInt rnd (intRange dt).1 (intRange dt).2 a
      (pushInt dt r.1, r.2)
  else
    let i := readInt st v
    if 12 ≤ dt then
      let r := (fmtOf dt).roundDy rnd ftz sat false (i, 0)
      (word r.1, r.2)
    else (pushInt dt (clampInt dt sat i), 0)

/-- R141, R142: `cvt`. -/
def execCvt (c : Common) (f : FmtT) (s : State) : Host.Outcome State Fault Refusal :=
  fpT (.cvt c f) s f 1 4 fun vs =>
    let r := convert f.rnd.toNat f.ty (f.m 4 0) f.ftzB f.satB (src vs 0)
    (r.1.toNat, r.2)

/-- R143: `cvt.pk`. -/
def execCvtPk (c : Common) (f : FmtT) (s : State) : Host.Outcome State Fault Refusal :=
  if f.mb 0 then
    fpT (.cvtPk c f) s f 1 4 fun vs =>
      fmtF32.convert 0 false false (readFp f.ty false (src (elemOf vs (f.m 1 1)) 0))
  else
    fpT (.cvtPk c f) s f 2 4 fun vs =>
      let one := fun k => (fmtOf f.ty).convert f.rnd.toNat f.ftzB f.satB (readFp 14 f.ftzB (src vs k))
      ((one 0).1 + (one 1).1 * 2 ^ 16, (one 0).2 ||| (one 1).2)

/-- R144: `cvt.f8`. -/
def execCvtF8 (c : Common) (f : FmtT) (s : State) : Host.Outcome State Fault Refusal :=
  let m := fmtOf f.ty
  if f.mb 0 then
    fpT (.cvtF8 c f) s f 1 4 fun vs =>
      let b := (src vs 0).toNat / 2 ^ (8 * f.m 2 1) % 256
      match m.read false b with
      | .nan _ => (fmtF32.canon, 0)
      | a => fmtF32.convert 0 false false a
  else
    fpT (.cvtF8 c f) s f 3 4 fun vs =>
      let one := fun k => m.convert f.rnd.toNat false f.satB (readFp 14 f.ftzB (src vs k))
      let h := 16 * f.m 1 1
      let old := (src vs 2).toNat % 2 ^ 32
      let keep := old - old / 2 ^ h % 2 ^ 16 * 2 ^ h
      (keep + ((one 0).1 + (one 1).1 * 256) * 2 ^ h, (one 0).2 ||| (one 1).2)

/-! ### Moves and immediates (R145) -/

/-- R145: `mov`. -/
def execMov (c : Common) (f : FmtT) (s : State) : Host.Outcome State Fault Refusal :=
  bitsT (.mov c f) s f 1 fun _ v => src v 0

/-- R145: `movi`. -/
def execMovi (c : Common) (f : FmtI) (s : State) : Host.Outcome State Fault Refusal :=
  plainI (.movi c f) s f false fun _ => f.ext

/-- R145: `movhi`. -/
def execMovhi (c : Common) (f : FmtI) (s : State) : Host.Outcome State Fault Refusal :=
  plainI (.movhi c f) s f true fun a => word (f.imm.toNat * 2 ^ 32 + a.toNat % 2 ^ 32)

/-- R145: `addi`. -/
def execAddi (c : Common) (f : FmtI) (s : State) : Host.Outcome State Fault Refusal :=
  plainI (.addi c f) s f true fun a => a + f.ext

/-- R145: `muli`. -/
def execMuli (c : Common) (f : FmtI) (s : State) : Host.Outcome State Fault Refusal :=
  plainI (.muli c f) s f true fun a => a * f.ext

/-- R145: `fmovi`. -/
def execFmovi (c : Common) (f : FmtI) (s : State) : Host.Outcome State Fault Refusal :=
  plainI (.fmovi c f) s f false fun _ =>
    if f.mod.getLsbD 0 then word (fmtF64.exact (fmtF32.read false f.imm.toNat)) else f.imm.zeroExtend 64

/-! ### Special registers (R66 to R69, R146 to R148) -/

/-- A lane's entry of PCV (R68). -/
def Lane.pcv (l : Lane) : Word :=
  let st := match l.status with
    | .active => 0
    | .waiting => 1
    | .parked => 2
    | .exited => 3
  (l.pc &&& ~~~ (0x38 : Word)) ||| word (st * 8)

/-- TAGS (R66): the ready bits of the team's window. -/
def State.tagsOf (s : State) (x : Ctx) : Word :=
  word ((List.range x.ln.tagCnt).foldl (fun n i =>
    n + b2n ((s.core x.core).tags.getD (x.ln.tagBase + i) Tag.fresh).ready * 2 ^ i) 0)

/-- FPSTAT as read: the flags of each special function still pending are either included or not (R148). -/
def State.fpstatOf (s : State) (x : Ctx) (l : Nat) : Word :=
  let own := (x.g.lane l).fpstat
  let v := s.work.ops.foldl (fun (v : BitVec 13) o =>
    if o.2.group = x.key && o.2.res.any (fun r => r.1 == l) && Config.freeBit (2 ^ 100 * (o.1 + 1) + s.free * 32 + l) then
      o.2.fp.foldl (fun (v : BitVec 13) e => if e.1 = l then v ||| e.2.setWidth 13 else v) v
    else v) own
  v.setWidth 64

/-- What `sreg.rd` pushes (R146). -/
def State.sreg (s : State) (x : Ctx) (l sel : Nat) (a : Word) : List Word :=
  match sel with
  | 0 => [word (x.id l)]
  | 1 => [word x.g.gid]
  | 2 => [word x.t.idx]
  | 3 => [word x.gang]
  | 4 => [word (coreReg x.key)]
  | 5 => [(x.g.lane (a.toNat % 32)).pcv]
  | 6 => [s.tagsOf x]
  | 7 => [word s.ns, word s.frac]
  | 8 => [s.clock x.core]
  | 9 => [s.fpstatOf x l]
  | 10 => [x.t.trapCause]
  | 11 => [x.t.trapAddr]
  | _ => [x.t.trapSlot]

/-- R146: `sreg.rd`. -/
def execSregRd (c : Common) (f : FmtS) (s : State) : Host.Outcome State Fault Refusal :=
  let sel := f.sel.toNat
  laneInstr (.sregRd c f) s (if sel = 7 then 2 else 1) (if sel = 5 then [f.sa] else []) f.dst [] 4 noExtra
    fun x s l rs => ⟨s.sreg x l sel ((rs.head?.map fun r => r.val).getD 0), [], 0⟩

/-- R147: `sreg.wr`: the RSV bits of the value are ignored. -/
def execSregWr (c : Common) (f : FmtS) (s : State) : Host.Outcome State Fault Refusal :=
  frame (.sregWr c f) s fun x s =>
    let strict := s.strictTraps x [f.sa]
    let live := x.on.filter fun l => !strict.any fun t => t.lane == l
    if live.any fun l => (s.opnd x.g l f.sa).psn then s.consume x 0
    else
      let s1 := s.finish x (live.map fun l => ⟨l, [], [], 0, none⟩) 0 (some f.sa) 0 [] 4
      let s1 := s1.modGroup x.key fun g => g.mapLanes fun l e =>
        if live.contains l then { e with fpstat := (s.opnd x.g l f.sa).val.setWidth 13 &&& 0x1F1F } else e
      s1.takeTraps x.key x.pc x.opc strict

/-! ### Predicates and lane masks (R149 to R151) -/

/-- R149: `plop`. -/
def execPlop (c : Common) (f : FmtS) (s : State) : Host.Outcome State Fault Refusal :=
  let n := f.imm.toNat
  let p := fun (x : Ctx) (s : State) l k => s.pred x.g l (n / 2 ^ (8 + 3 * k) % 8)
  laneInstr (.plop c f) s 0 [] 0 [] 4 (fun x s l => (p x s l 0).2.1 || (p x s l 1).2.1 || (p x s l 2).2.1)
    fun x s l _ => ⟨[], [(n / 2 ^ 17 % 8, tbl (n % 256) (p x s l 0).1 (p x s l 1).1 (p x s l 2).1)], 0⟩

/-- R150: `pdead`. The predicates are zero at once, and not 4 cycles later: R150 does not say (DESIGN CHOICE, log entry 49). -/
def execPdead (c : Common) (f : FmtS) (s : State) : Host.Outcome State Fault Refusal :=
  frame (.pdead c f) s fun x s =>
    let strict := s.strictTraps x []
    let live := x.on.filter fun l => !strict.any fun t => t.lane == l
    let s := s.finish x (live.map fun l => ⟨l, [], [], 0, none⟩) 0 none 0 [] 4
    let s := s.modGroup x.key fun g => g.mapLanes fun l e =>
      if live.contains l then
        { e with p := (withIdx e.p).map fun r => if f.imm.getLsbD r.1 then Reg.clear false else r.2 }
      else e
    s.takeTraps x.key x.pc x.opc strict

/-- R151: `p2n`. -/
def execP2n (c : Common) (f : FmtT) (s : State) : Host.Outcome State Fault Refusal :=
  laneInstr (.p2n c f) s 1 [] f.dst [] 4 (fun x s l => (List.range 8).any fun i => (s.pred x.g l i).2.1)
    fun x s l _ =>
      let v := ofBits 8 fun i => (s.pred x.g l i).1
      let live := ofBits 8 fun i => ((x.g.lane l).p.getD i (Reg.clear false)).live
      ⟨[word (v + 256 * live)], [], 0⟩

/-- R151: `n2p`. -/
def execN2p (c : Common) (f : FmtT) (s : State) : Host.Outcome State Fault Refusal :=
  laneInstr (.n2p c f) s 0 (f.codes 1) 0 f.marks 4 noExtra fun _ _ _ rs =>
    let a := (rs.head?.map fun r => r.val).getD 0
    ⟨[], ((List.range 8).filter fun i => f.mod.getLsbD i).map fun i => (i, bit a i), 0⟩

/-- R151: `lmask`. -/
def execLmask (c : Common) (f : FmtT) (s : State) : Host.Outcome State Fault Refusal :=
  laneInstr (.lmask c f) s 1 [] f.dst [] 4 noExtra fun x _ l _ =>
    let n := if x.ln.paired then 16 else 32
    let i := x.id l
    let test : Nat → Bool := match f.m 2 0 with
      | 0 => fun j => j = i
      | 1 => fun j => j < i
      | 2 => fun j => j ≤ i
      | 3 => fun j => i < j
      | 4 => fun j => i ≤ j
      | _ => fun j => (lanesOf x.mask).any fun k => (!x.ln.paired || k / 16 == l / 16) && x.id k == j
    ⟨[word (ofBits n test)], [], 0⟩

end Sys2Proof.Machine
end

