-- ==== Sys2Proof/Machine/Cullet.lean ====
section
/-! DEFINITION. Cullet: job cards, the CLZ and DEFLATE streams, chunks, parking and completion
(spec/12_tensor_copy_and_prologue.md R262, R263; spec/18_transport_and_decompression.md R346 to R352, R439;
spec/23_memory_engine_host_failures.md R410, R411). -/

namespace Sys2Proof.Machine

/-! ### Elements of a stream -/

/-- What an element of a stream appends to the output: a byte, or n bytes from d back, where the symbol that gives the
distance starts `off` bits into the element. -/
inductive Emit where
  | lit (b : Byte)
  | copy (d n off : Nat)
  deriving DecidableEq, Repr

/-- What parsing one element from the bytes at hand gives: what it appends and how many bits it takes; that it needs
further bytes; or that it fails with a code, at the header, data or symbol that starts `off` bits into the element
(R352). -/
inductive Parse where
  | done (out : List Emit) (bits : Nat) (z : ZState) (final : Bool)
  | more (out : List Emit)
  | bad (out : List Emit) (bits : Nat) (code : BitVec 8) (off : Nat)
  deriving DecidableEq, Repr

/-- What reading a number gives. -/
inductive Num where
  | ok (v rest : Nat)
  | more
  | bad
  deriving DecidableEq, Repr

/-- A varint of at most `fuel` bytes from position p on (R348): its value and the position after it. -/
def varint (bs : List Byte) : Nat → Nat → Nat → Nat → Num
  | 0, _, _, _ => .bad
  | fuel + 1, p, shift, acc =>
    match bs[p]? with
    | none => .more
    | some b =>
      let v := acc + b.toNat % 128 * 2 ^ shift
      if b.toNat < 128 then .ok v (p + 1) else varint bs fuel (p + 1) (shift + 7) v

/-- A value that extends a 6-bit code (R348). -/
def extended (bs : List Byte) (code base p : Nat) : Num :=
  if code = 63 then
    match varint bs 4 p 0 0 with
    | .ok v q => .ok (base + v) q
    | n => n
  else .ok (base - 63 + code) p

/-- One sequence of a CLZ stream (R348). -/
def clzElem (bs : List Byte) : Parse :=
  if bs.length < 2 then .more []
  else
    let h := leNat (bs.take 2)
    let lc := h / 1024
    let mc := h / 16 % 64
    let dx := h % 16
    if mc = 0 && dx != 0 then .bad [] 16 0x22 0
    else match extended bs lc 63 2 with
      | .more => .more []
      | .bad => .bad [] 48 0x24 0
      | .ok l p =>
        match extended bs mc 65 p with
        | .more => .more []
        | .bad => .bad [] (8 * (p + 4)) 0x24 0
        | .ok ml p =>
          let lits := ((bs.drop p).take l).map Emit.lit
          if lits.length < l then .more lits
          else if mc = 0 then .done lits (8 * (p + l)) .header false
          else match varint bs 4 (p + l) 0 0 with
            | .more => .more lits
            | .bad => .bad lits (8 * (p + l + 4)) 0x24 0
            | .ok d q => .done (lits ++ [.copy (d * 16 + dx + 1) ml 0]) (8 * q) .header false

/-- n bits from bit p on, the least significant first (RFC 1951). -/
def bitsFrom (bs : List Byte) (p n : Nat) : Option Nat :=
  if 8 * bs.length < p + n then none
  else some (leNat ((bs.drop (p / 8)).take ((p % 8 + n + 7) / 8)) / 2 ^ (p % 8) % 2 ^ n)

/-- A symbol of a canonical Huffman code, the most significant code bit first: from length n on, with the code read so
far and the first code of the length (RFC 1951). -/
def huffman (lens : List Nat) (bs : List Byte) : Nat → Nat → Nat → Nat → Nat → Num
  | 0, _, _, _, _ => .bad
  | fuel + 1, n, p, code, first =>
    match bitsFrom bs p 1 with
    | none => .more
    | some b =>
      let code := 2 * code + b
      let syms := (withIdx lens).filter fun e => e.2 == n
      match if code < first then none else syms[code - first]? with
      | some e => .ok e.1 (p + 1)
      | none => huffman lens bs fuel (n + 1) (p + 1) code (2 * (first + syms.length))

/-- A symbol from bit p on. Bits that no code of the set begins with are known to be wrong at once: any bit for a set without a code,
a 1 for a set of the one code 0. -/
def symbol (lens : List Nat) (bs : List Byte) (p : Nat) : Num :=
  let used := lens.filter (· != 0)
  match bitsFrom bs p 1 with
  | none => if used.isEmpty then .bad else .more
  | some b => if used.isEmpty || (used == [1] && b = 1) then .bad else huffman lens bs 15 1 p 0 0

/-- Whether a set of code lengths is neither over-subscribed nor incomplete (R350); a set of distance codes may have no
code, or one code of one bit (RFC 1951). -/
def codeOk (lens : List Nat) (sparse : Bool) : Bool :=
  let used := lens.filter (· != 0)
  let sum := used.foldl (fun a n => a + 2 ^ (15 - n)) 0
  sum = 2 ^ 15 || (sparse && (used == [] || used == [1]))

/-- The order of the code length code lengths (RFC 1951). -/
def lengthOrder : List Nat := [16, 17, 18, 0, 8, 7, 9, 6, 10, 5, 11, 4, 12, 3, 13, 2, 14, 1, 15]

/-- The fixed code (RFC 1951). -/
def fixedLit : List Nat := List.replicate 144 8 ++ List.replicate 112 9 ++ List.replicate 24 7 ++ List.replicate 8 8
def fixedDist : List Nat := List.replicate 32 5

/-- The code lengths of a dynamic block, read with the code length code; newest first. -/
def readLengths (cl : List Nat) (bs : List Byte) (total : Nat) : Nat → Nat → List Nat → Option (List Nat × Nat) ⊕ Nat
  | 0, p, _ => .inr p
  | fuel + 1, p, acc =>
    if total ≤ acc.length then .inl (some (acc, p))
    else match symbol cl bs p with
      | .more => .inl none
      | .bad => .inr p
      | .ok v p =>
        if v < 16 then readLengths cl bs total fuel p (v :: acc)
        else
          let extra := if v = 16 then 2 else if v = 17 then 3 else 7
          match bitsFrom bs p extra, (if v = 16 then acc.head? else some 0) with
          | none, _ => .inl none
          | _, none => .inr p
          | some e, some x =>
            readLengths cl bs total fuel (p + extra) (List.replicate (e + if v = 18 then 11 else 3) x ++ acc)

/-- The block that follows a header or a block's end. -/
def nextBlock (final : Bool) : ZState := if final then .finished else .header

/-- A block header (RFC 1951), from bit p on. -/
def blockHeader (bs : List Byte) (p : Nat) : Parse :=
  match bitsFrom bs p 3 with
  | none => .more []
  | some h =>
    let final := h % 2 = 1
    match h / 2 with
    | 0 =>
      let q := (p + 3 + 7) / 8 * 8
      (match bitsFrom bs q 32 with
      | none => .more []
      | some v =>
        if v % 2 ^ 16 + v / 2 ^ 16 = 2 ^ 16 - 1 && Nat.land (v % 2 ^ 16) (v / 2 ^ 16) = 0 then
          .done [] (q + 32 - p) (if v % 2 ^ 16 = 0 then nextBlock final else .stored (v % 2 ^ 16)) final
        else .bad [] (q + 32 - p) 0x21 0)
    | 1 => .done [] 3 (.codes fixedLit fixedDist) final
    | 2 => .done [] 3 .lengths final
    | _ => .bad [] 3 0x21 0

/-- The code-length data of a dynamic block (RFC 1951). -/
def lengthData (bs : List Byte) (p : Nat) (final : Bool) : Parse :=
  match bitsFrom bs p 14 with
  | none => .more []
  | some h =>
    let hl := h % 32 + 257
    let hd := h / 32 % 32 + 1
    let hc := h / 1024 + 4
    match bitsFrom bs (p + 14) (3 * hc) with
    | none => .more []
    | some v =>
      let cl := (List.range 19).map fun s =>
        match (withIdx lengthOrder).find? fun e => e.2 == s with
        | some (i, _) => if i < hc then v / 2 ^ (3 * i) % 8 else 0
        | none => 0
      let q := p + 14 + 3 * hc
      if !codeOk cl false then .bad [] (q - p) 0x21 0
      else match readLengths cl bs (hl + hd) 400 q [] with
        | .inl none => .more []
        | .inr e => .bad [] (e - p) 0x21 0
        | .inl (some (acc, e)) =>
          let lens := acc.reverse
          if lens.length = hl + hd && codeOk (lens.take hl) false && codeOk (lens.drop hl) true then
            .done [] (e - p) (.codes (lens.take hl) (lens.drop hl)) final
          else .bad [] (e - p) 0x21 0

/-- A length's base and extra bits, by its symbol less 257. -/
def lengthBase (i : Nat) : Nat × Nat :=
  if i < 8 then (3 + i, 0) else if i = 28 then (258, 0) else (3 + (4 + i % 4) * 2 ^ (i / 4 - 1), i / 4 - 1)

/-- A distance's base and extra bits, by its symbol. -/
def distBase (i : Nat) : Nat × Nat := if i < 4 then (1 + i, 0) else (1 + (2 + i % 2) * 2 ^ (i / 2 - 1), i / 2 - 1)

/-- A literal, a match, or the end of a block. -/
def codeElem (lit dist : List Nat) (bs : List Byte) (p : Nat) (final : Bool) : Parse :=
  match symbol lit bs p with
  | .more => .more []
  | .bad => .bad [] 15 0x21 0
  | .ok v q =>
    if v < 256 then .done [.lit (BitVec.ofNat 8 v)] (q - p) (.codes lit dist) final
    else if v = 256 then .done [] (q - p) (nextBlock final) final
    else if 285 < v then .bad [] (q - p) 0x21 0
    else
      let (lb, lx) := lengthBase (v - 257)
      match bitsFrom bs q lx with
      | none => .more []
      | some le =>
        match symbol dist bs (q + lx) with
        | .more => .more []
        | .bad => .bad [] (q + lx + 15 - p) 0x21 (q + lx - p)
        | .ok d r =>
          if 29 < d then .bad [] (r - p) 0x21 (q + lx - p)
          else
            let (db, dx) := distBase d
            match bitsFrom bs r dx with
            | none => .more []
            | some de => .done [.copy (db + de) (lb + le) (q + lx - p)] (r + dx - p) (.codes lit dist) final

/-- One element of a DEFLATE stream (R350). -/
def deflateElem (z : ZState) (final : Bool) (bs : List Byte) (p : Nat) : Parse :=
  match z with
  | .header => blockHeader bs p
  | .lengths => lengthData bs p final
  | .stored n =>
    match bs[p / 8]? with
    | some b => .done [.lit b] 8 (if n ≤ 1 then nextBlock final else .stored (n - 1)) final
    | none => .more []
  | .codes lit dist => codeElem lit dist bs p final
  | .finished => .done [] 0 .finished final

/-! ### A job's card and memory (R346, R439) -/

namespace Job

def w (j : Job) (i : Nat) : Word := j.words.getD i 0
def clz (j : Job) : Bool := bits (j.w 0) 63 62 = 1
def src (j : Job) : Nat := bits (j.w 0) 47 0
def dcap (j : Job) : Nat := bits (j.w 1) 63 32
def slen (j : Job) : Nat := bits (j.w 1) 31 0
def dst (j : Job) : Nat := bits (j.w 2) 47 0
def dict (j : Job) : Nat := bits (j.w 3) 47 0
def res (j : Job) : Nat := bits (j.w 6) 47 0
def dlen (j : Job) : Nat := bits (j.w 7) 16 0

/-- Whether the card is malformed (R347). -/
def malformed (j : Job) : Bool :=
  bits (j.w 0) 61 48 != 0 || 2 ≤ bits (j.w 0) 63 62 || bits (j.w 2) 63 48 != 0 || bits (j.w 3) 63 48 != 0 ||
    bits (j.w 6) 63 48 != 0 || bits (j.w 7) 63 17 != 0 || j.slen = 0 || 65536 < j.dlen || j.res % 4096 != 0

/-- CONS (R352): the source offset of the first byte whose output is not all written. -/
def cons (j : Job) : Nat :=
  if j.written < j.out.length then ((j.marks.find? fun m => m.1 ≤ j.written).map fun m => m.2).getD 0
  else match j.fail with
    | some (_, c) => c
    | none => if j.zst = .finished then (j.bitPos + 7) / 8 else j.bitPos / 8

/-- Whether nothing is left to decode. -/
def ended (j : Job) : Bool := j.fail.isSome || j.zst = .finished

end Job

/-- Bytes of a resume area (R346). -/
def resumeBytes : Nat := 73728

/-- ST, CODE, PROD and CONS as they are written to a card (R347). -/
def Job.cardBytes (j : Job) (st : Nat) (code : BitVec 8) : List Byte :=
  leBytes 8 (st * 2 ^ 60 + code.toNat * 2 ^ 52) ++ leBytes 8 (j.written * 2 ^ 32 + j.cons % 2 ^ 32)

/-- Writes ST, CODE, PROD and CONS to a card (R347). -/
def State.putCard (s : State) (j : Job) (st : Nat) (code : BitVec 8) : Dev Unit :=
  s.devWrite j.tenant (j.card + 32) (j.cardBytes st code)

/-- Changes the job at the head of an engine's queue. -/
def State.setJob (s : State) (e : Nat) (j : Job) : State :=
  s.modCullet e fun c => { c with queue := updAt (fun _ => j) 0 c.queue }

/-- Removes the job at the head of an engine's queue. -/
def State.dropJob (s : State) (e : Nat) : State := s.modCullet e fun c => { c with queue := c.queue.drop 1 }

/-- The tag of a job completes (R352). -/
def State.jobTag (s : State) (j : Job) (code : BitVec 8) : State :=
  let s := s.farTagDone j.team j.core j.tag code
  if code = 4 then s.engineKill j.team j.core 2 4 else s

/-- A fault record of a job. -/
def State.jobFault (s : State) (e : Nat) (j : Job) (va : Nat) (acc : Acc) : State × Nat :=
  s.engineFault j.team j.tenant j.gid j.core j.pc va acc.code (.cullet e)

/-- A job ends, or parks, with a code: the card, then the tag (R347). A card that is not present is waited for; one that
cannot be written leaves the code on the tag only (R439). A parked job keeps its place with the engine, with a record
for the page it parked on. -/
def State.jobEnd (s : State) (e : Nat) (j : Job) (st : Nat) (code : BitVec 8) (page : Option (Nat × Acc)) : State :=
  match s.putCard j st code with
  | .ok s _ =>
    let s := (s.dropJob e).jobTag j code
    if st = 3 then
      let r := match page with
        | some (va, acc) => let q := s.jobFault e j va acc; (q.1, some q.2)
        | none => (s, none)
      let j' := { j with parked := some code, started := false, accepted := false, resuming := false, fid := r.2,
                         cardWait := false, forced := false }
      r.1.modCullet e fun c => { c with parked := c.parked ++ [j'] }
    else s
  | .fault va =>
    let (s, fid) := s.jobFault e j va .write
    s.setJob e { j with fid := some fid, cardWait := true }
  | .prot => (s.dropJob e).jobTag j 2
  | .poison => (s.dropJob e).jobTag j 4
  | .blocked s => s

/-- What the card of a parked job gets: pre-emption parks it; or its resume area could not be written (R351, R411). -/
def Job.parkCode (j : Job) : Nat × BitVec 8 := if j.parked = some 0x28 then (3, 0x28) else (5, 0x25)

/-- Replaces a parked job of an engine, or removes it. -/
def State.setParked (s : State) (e : Nat) (j : Job) (k : Option Job) : State :=
  s.modCullet e fun c => { c with parked := c.parked.flatMap fun q => if q == j then k.toList else [q] }

/-- The card of a parked job is written. A card that is not present is waited for; a job whose card cannot be written ends, and its
tag, if it has not completed yet, with 0x02 or 0x04 (R439). -/
def State.parkCard (s : State) (e : Nat) (j : Job) : State :=
  let halted : Bool := j.parked = some 0x28
  let gone := fun (s : State) (code : BitVec 8) => let s := s.setParked e j none; if halted then s.jobTag j code else s
  if j.forced then gone s 2
  else match s.putCard j j.parkCode.1 j.parkCode.2 with
    | .ok s _ => s.setParked e j (if halted then some { j with cardWait := false } else none)
    | .fault va =>
      let (s, fid) := s.jobFault e j va .write
      s.setParked e j (some { j with fid := some fid, cardWait := true })
    | .prot => gone s 2
    | .poison => gone s 4
    | .blocked s => s.setParked e j (some { j with cardWait := true })

/-- The parked jobs of an engine whose card has still to be written try again; those of a partition that is swapped out go on
with it. -/
def State.settleParked (s : State) (e : Nat) : State :=
  ((s.cullet e).parked.filter fun j => j.cardWait && j.fid.isNone && onCore j.core).foldl (fun s j => s.parkCard e j) s

/-! ### Acceptance (R347, R410) -/

/-- What acceptance gives: the job goes on, waits for its card, or has ended. -/
inductive Accepted where
  | go (s : State) (j : Job)
  | wait (s : State) (j : Job)
  | ended (s : State) (parked : Bool)

/-- Whether an engine holds a tenant's card in its queue. -/
def State.cardBusy (s : State) (tenant card : Nat) : Bool :=
  s.eng.cullets.any fun c => c.queue.any fun j => j.accepted && j.tenant == tenant && j.card == card

/-- Acceptance of a submission, or of a continuation: word 4 is read and ST 1 written. A continuation whose parked job no
engine holds still reads the card, whose faults are its faults (R439), and then names a card that is in no state for it
(R347). A refused continuation leaves the job parked; one that a fault of its card ends is gone. -/
def State.jobAccept (s : State) (e : Nat) (j : Job) : Accepted :=
  let wait := fun (s : State) (va : Nat) (acc : Acc) =>
    let q := s.jobFault e j va acc
    Accepted.wait q.1 { j with fid := some q.2, cardWait := true }
  match s.tenRead j.tenant (j.card + 32) 8 with
  | .ok s bs =>
    let w := word (leNat (bs.map fun b => b.1))
    let ok := if j.resuming then j.parked.isSome && bits w 63 60 = 3 && bits w 59 52 = 1 else bits w 63 60 = 0
    if bs.any fun b => b.2 then .ended (s.jobTag j 4) false
    else if !ok || s.cardBusy j.tenant j.card then .ended (s.jobTag j 0x26) j.parked.isSome
    else match s.putCard j 1 0 with
      | .ok s _ => .go s { j with accepted := true, parked := none }
      | .fault va => wait s va .write
      | .prot => .ended (s.jobTag j 2) false
      | .poison => .ended (s.jobTag j 4) false
      | .blocked s => .wait s j
  | .fault va => wait s va .read
  | .prot => .ended (s.jobTag j 2) false
  | .poison => .ended (s.jobTag j 4) false
  | .blocked s => .wait s j

/-- A refused continuation leaves the job parked. -/
def State.rePark (s : State) (e : Nat) (j : Job) (parked : Bool) : State :=
  if parked then
    let j' := { j with accepted := false, resuming := false, parked := some 1, cardWait := false }
    s.modCullet e fun c => { c with parked := c.parked ++ [j'] }
  else s

/-- Jobs of an engine's queue (R346). -/
def culletEntries : Nat := 64

/-- The engine of the base die that carries the issuing die that MOD names (R262). -/
def engineOf (x : Ctx) (f : FmtE) : Nat := 2 * (dieOf x.core / 2) + f.mod.toNat % 2

/-- Whether a Cullet command does not issue: its tag's pending count cannot rise (R65), or the engine's queue is full (R346). -/
def State.culletHolds (s : State) (x : Ctx) (f : FmtE) : Bool :=
  !s.tagRoom x.core (x.ln.tagBase + f.tag.toNat) || (x.opc = 0xCA && culletEntries ≤ (s.cullet (engineOf x f)).queue.length)

/-- Whether a Cullet command does not issue: a misaligned card traps first. -/
def State.culletStays (s : State) (x : Ctx) (f : FmtE) : Bool :=
  s.goes x f false (fun _ _ => []) && (s.uni x f.ua).toNat % 64 = 0 && s.culletHolds x f

/-- `dz.sub` and `dz.res`. A continuation takes the parked job of its card from the engine that holds it; where no engine
holds one, the engine that MOD names takes the command, which its card then ends (R347, R439). -/
def dzInstr (i : Instr) (s : State) (f : FmtE) (res : Bool) : Host.Outcome State Fault Refusal :=
  engineInstr i s f false 0 none (fun _ _ => []) fun x live s =>
    let a := (s.uni x f.ua).toNat
    let tag := x.ln.tagBase + f.tag.toNat
    let own := engineOf x f
    if a % 64 ≠ 0 then
      (s.finishLong x [] 0 none 0 [] [] false).takeTraps x.key x.pc x.opc (live.map fun l => ⟨l, 5, 0, word a⟩)
    else if s.culletHolds x f then s
    else
      let s := s.drainFor x f live
      let s := (s.tagIssue x.core tag).finishLong x (plainOuts live) 0 none 0 [] [] false
      let base : Job :=
        { card := a, tenant := x.ln.tenant, team := x.tk, gid := x.g.gid, core := x.core, tag := tag, ttag := f.tag.toNat,
          acq := f.acq = 1, rel := f.rel = 1, scope := f.scope.toNat, pc := x.pc, accepted := false, started := false,
          resuming := res, words := [], out := [], written := 0, bitPos := 0, final := false, zst := .header, marks := [],
          fail := none, parked := none, area := none, fid := none, cardWait := false, forced := false }
      let mine := fun (j : Job) => j.tenant == x.ln.tenant && j.card == a && j.parked == some 1
      let found := if res then
          ((withIdx s.eng.cullets).findSome? fun c => (c.2.parked.find? mine).map fun j => (c.1, { j with
            team := base.team, gid := base.gid, core := base.core, tag := base.tag, ttag := base.ttag, acq := base.acq,
            rel := base.rel, scope := base.scope, pc := base.pc, resuming := true })).getD (own, base)
        else (own, base)
      let e := found.1
      let j := found.2
      let s := if res then s.modCullet e fun c => { c with parked := c.parked.filter fun k => !mine k } else s
      let add := fun (s : State) (j : Job) => s.modCullet e fun c => { c with queue := c.queue ++ [j] }
      if j.fid.isSome || j.forced then add s j
      else match s.jobAccept e j with
        | .go s j => add s j
        | .wait s j => add s j
        | .ended s p => s.rePark e j p

/-- R262: `dz.sub`. -/
def execDzSub (c : Common) (f : FmtE) (s : State) : Host.Outcome State Fault Refusal := dzInstr (.dzSub c f) s f false

/-- R262: `dz.res`. -/
def execDzRes (c : Common) (f : FmtE) (s : State) : Host.Outcome State Fault Refusal := dzInstr (.dzRes c f) s f true

/-- The status of a job that an engine holds (R263); a parked job that a continuation has named stays parked, its state
still in the engine, until that continuation is accepted. -/
def State.heldStatus (s : State) (tenant card : Nat) : Option Word :=
  let mine := fun (j : Job) => j.tenant == tenant && j.card == card
  s.eng.cullets.findSome? fun c =>
    match c.queue.find? (fun j => mine j && j.accepted) with
    | some j => some (word ((if j.started then 2 else 1) * 2 ^ 60 + 2 ^ 48))
    | none => ((c.parked ++ c.queue.filter fun j => j.parked.isSome).find? fun j => mine j && j.area.isNone).map fun j =>
        word (3 * 2 ^ 60 + (j.parked.getD 0).toNat * 2 ^ 52 + 2 ^ 48)

/-- R262: `dz.st`. -/
def execDzSt (c : Common) (f : FmtE) (s : State) : Host.Outcome State Fault Refusal :=
  engineInstr (.dzSt c f) s f false 1 (some f.ua) (fun _ _ => []) fun x live s =>
    let a := s.uni x f.ua
    let first := some f.ua
    let done := fun (s : State) (outs : List Out) => s.finishLong x outs 1 first f.dst [] [] false
    if a.toNat % 64 ≠ 0 then (done s []).takeTraps x.key x.pc x.opc (live.map fun l => ⟨l, 5, 0, a⟩)
    else match s.heldStatus x.ln.tenant a.toNat with
      | some w => done s (samePush live w)
      | none =>
        match State.checkAll x 0 .read (live.map fun l => (l, a + 32, 8, 8)) s [] with
        | .later s => s
        | .poison p => s.consume x p
        | .done s cs =>
          let outs := (passed cs).map fun p =>
            let r := s.readPieces x p.1 true p.2
            (⟨p.1, [(word (leNat r.2.1 / 2 ^ 52 * 2 ^ 52), r.2.2)], [], 0, none⟩ : Out)
          ((done s outs).takeTraps x.key x.pc x.opc (trapsOf x cs)).parkFaults x .read cs

/-! ### The resume area (R351, R411) -/

/-- The bytes that an engine keeps in a resume area: nothing states them, a free value. -/
def areaByte (seed i : Nat) : Byte := BitVec.ofNat 8 (Config.freeNat (2 ^ 47 + seed * 2 ^ 17 + i))

/-- The state of a parked job goes to its resume area. Where that cannot be written, the job ends on its card only (R411); while its
page must be waited for (R190), none: it has not gone. -/
def State.spillJob (s : State) (e : Nat) (j : Job) : Option State :=
  match s.devWrite j.tenant j.res ((List.range resumeBytes).map (areaByte s.free)) with
  | .ok s' _ => some (s'.setParked e j (some { j with area := some s.free })).bump
  | .blocked _ => none
  | _ => some (s.parkCard e j)

/-- Whether a job's resume area still holds what the engine wrote. -/
def areaKept (seed : Nat) (bs : List Byte) : Bool := (withIdx bs).all fun b => b.2 == areaByte seed b.1

/-- A job whose resume area software has changed: any bytes within its destination, and any of the codes (R351). -/
def State.spoilJob (s : State) (e : Nat) (j : Job) : State :=
  let n := Config.freeNat s.free % (j.dcap - j.written + 1)
  let code : BitVec 8 := if Config.freeBit s.free then 0 else BitVec.ofNat 8 (0x20 + Config.freeNat (2 ^ 40 + s.free) % 6)
  let s := (List.range j.dcap).foldl (fun (s : State) i =>
    if Config.freeBit (2 ^ 48 + s.free * 2 ^ 32 + i) then
      s.devPut j.tenant (j.dst + i) [BitVec.ofNat 8 (Config.freeNat (2 ^ 80 + s.free * 2 ^ 32 + i))]
    else s) s
  s.bump.jobEnd e { j with out := List.replicate (j.written + n) 0, written := j.written + n, zst := .finished, fail := none }
    (if code = 0 then 4 else 5) code none

/-! ### Starting and decoding (R349 to R352, R410) -/

/-- A job whose card cannot be read. -/
def State.cardErr (s : State) (e : Nat) (j : Job) : CpErr → State
  | .fault va acc =>
    let (s, fid) := s.jobFault e j va acc
    s.setJob e { j with fid := some fid, cardWait := true }
  | .prot => (s.dropJob e).jobTag j 2
  | .poison => (s.dropJob e).jobTag j 4
  | .malformed => s
  | .blocked s => s

/-- A job that takes its state back from the resume area, where it lies there. -/
def State.jobResume (s : State) (e : Nat) (j : Job) (k : State → Job → State) : State :=
  match j.area with
  | none => k s j
  | some seed =>
    match s.tenRead j.tenant j.res resumeBytes with
    | .ok s bs =>
      if bs.any fun b => b.2 then s.jobEnd e j 5 4 none
      else if areaKept seed (bs.map fun b => b.1) then k s { j with area := none }
      else s.spoilJob e j
    | .poison => s.jobEnd e j 5 4 none
    | .blocked s => s
    | _ => s.jobEnd e j 5 0x25 none

/-- An engine accepts, starts or resumes the job at the head of its queue, once the state of its parked jobs has gone where it
needs their room. Whether it needs the room of its parked jobs is a free choice. -/
def State.jobStart (s : State) (e : Nat) : State :=
  let s := s.settleParked e
  match (s.cullet e).queue.head? with
  | none => s
  | some j =>
    if j.started || j.fid.isSome then s
    else if j.forced then
      if j.cardWait then (s.dropJob e).jobTag j 2 else s.jobEnd e j 5 2 none
    else if !j.accepted then
      match s.jobAccept e j with
      | .go s j => s.setJob e { j with cardWait := false }
      | .wait s j => s.setJob e j
      | .ended s p => (s.dropJob e).rePark e j p
    else
      let room := Config.freeBit (2 ^ 46 + s.free)
      let out := if room then (s.cullet e).parked.filter fun k => k.area.isNone && !k.cardWait else []
      match out.foldl (fun (s : Option State) k => s.bind fun s => s.spillJob e k) (some s) with
      | none => s
      | some s => match s.tenRead j.tenant j.card 32 with
      | .ok s a =>
        match s.tenRead j.tenant (j.card + 48) 16 with
        | .ok s b =>
          let ws := fun (l : List PByte) => (runs 8 (l.length / 8) l).map fun g => word (leNat (g.map fun b => b.1))
          let j := { j with words := ws a ++ [0, 0] ++ ws b, cardWait := false }
          if (a ++ b).any fun e => e.2 then s.cardErr e j .poison
          else if j.malformed then s.jobEnd e j 5 0x20 none
          else s.jobResume e j fun s j =>
            match s.putCard j 2 0 with
            | .ok s _ => s.setJob e { j with started := true }
            | .fault va => s.cardErr e j (.fault va .write)
            | .prot => s.cardErr e j .prot
            | .poison => s.cardErr e j .poison
            | .blocked s => s
        | .fault va => s.cardErr e j (.fault va .read)
        | .prot => s.cardErr e j .prot
        | .poison => s.cardErr e j .poison
        | .blocked s => s
      | .fault va => s.cardErr e j (.fault va .read)
      | .prot => s.cardErr e j .prot
      | .poison => s.cardErr e j .poison
      | .blocked s => s

/-- What decoding met. -/
inductive Zip where
  | ok (s : State) (j : Job)
  | stop (s : State) (j : Job) (e : CpErr)

/-- Copies n bytes from d back, ascending (R349): the output, newest first, and its length. -/
def State.copyBack (j : Job) (d cons : Nat) : Nat → State → List Byte → Nat → Zip
  | 0, s, out, _ => .ok s { j with out := out }
  | n + 1, s, out, len =>
    if j.dcap ≤ len then .ok s { j with out := out, fail := some (0x23, cons) }
    else if d ≤ len then State.copyBack j d cons n s (out.getD (d - 1) 0 :: out) (len + 1)
    else match s.tenRead j.tenant (j.dict + j.dlen + len - d) 1 with
      | .ok s ((b, false) :: _) => State.copyBack j d cons n s (b :: out) (len + 1)
      | .ok s _ => .ok s { j with out := out, fail := some (4, cons) }
      | .fault va => .stop s j (.fault va .read)
      | .prot => .stop s j .prot
      | .poison => .ok s { j with out := out, fail := some (4, cons) }
      | .blocked s => .stop s j (.blocked s)

/-- Appends what an element gives. -/
def State.emit (cons : Nat) : List Emit → State → Job → Zip
  | [], s, j => .ok s j
  | .lit b :: rest, s, j =>
    if j.dcap ≤ j.out.length then .ok s { j with fail := some (0x23, cons) }
    else State.emit cons rest s { j with out := b :: j.out }
  | .copy d n off :: rest, s, j =>
    let len := j.out.length
    if len + (if j.clz then j.dlen else min j.dlen 32768) < d then
      .ok s { j with fail := some (0x22, (j.bitPos + off) / 8) }
    else match State.copyBack j d cons n s j.out len with
      | .ok s j => if j.fail.isSome then .ok s j else State.emit cons rest s j
      | z => z

/-- Parses the next element, taking further source pages while it needs them: the bytes at hand and what they give. -/
def State.nextElem (j : Job) (pos : Nat) : Nat → Nat → State → Dev (List PByte × Parse)
  | 0, _, s => .ok s ([], .more [])
  | fuel + 1, pages, s =>
    let left := j.slen - pos
    let n := min left (4096 - (j.src + pos) % 4096 + 4096 * pages)
    match s.tenRead j.tenant (j.src + pos) n with
    | .ok s bs =>
      let raw := bs.map fun b => b.1
      let p := if j.clz then clzElem raw else deflateElem j.zst j.final raw (j.bitPos % 8)
      match p with
      | .more _ => if n < left && !(bs.any fun b => b.2) then State.nextElem j pos fuel (pages + 1) s else .ok s (bs, p)
      | _ => .ok s (bs, p)
    | .fault va => .fault va
    | .prot => .prot
    | .poison => .poison
    | .blocked s => .blocked s

/-- Decodes elements until the output has `goal` bytes or the stream ends. An element that meets a page that is not
present is decoded again later. -/
def State.decodeTo (goal : Nat) : Nat → State → Job → Zip
  | 0, s, j => .ok s j
  | fuel + 1, s, j =>
    if goal ≤ j.out.length || j.ended then .ok s j
    else
      let pos := j.bitPos / 8
      if j.clz && j.slen ≤ pos then .ok s { j with zst := .finished }
      else match State.nextElem j pos (j.slen / 4096 + 2) 0 s with
        | .ok s (bs, p) =>
          let poisoned := fun (bits : Nat) => (bs.take ((j.bitPos % 8 + bits + 7) / 8)).any fun b => b.2
          let j0 := { j with marks := (j.out.length, pos) :: j.marks }
          let fail := fun (s : State) (out : List Emit) (code : BitVec 8) (off : Nat) =>
            match State.emit pos out s j0 with
            | .ok s k => Zip.ok s { k with fail := k.fail.or (some (code, (j.bitPos + off) / 8)) }
            | .stop s _ e => .stop s j e
          match p with
          | .done out n z final =>
            if poisoned n then .ok s { j0 with fail := some (4, pos) }
            else match State.emit pos out s j0 with
              | .ok s k =>
                if k.fail.isSome then .ok s k
                else State.decodeTo goal fuel s { k with bitPos := k.bitPos + n, zst := z, final := final }
              | .stop s _ e => .stop s j e
          | .more out => if bs.any fun b => b.2 then .ok s { j0 with fail := some (4, pos) } else fail s out 0x24 0
          | .bad out n code off =>
            if poisoned n then .ok s { j0 with fail := some (4, pos) } else fail s out code off
        | .fault va => .stop s j (.fault va .read)
        | .prot => .ok s { j with marks := (j.out.length, pos) :: j.marks, fail := some (2, pos) }
        | .poison => .ok s { j with marks := (j.out.length, pos) :: j.marks, fail := some (4, pos) }
        | .blocked s => .stop s j (.blocked s)

/-- Ends a job whose output is all written. -/
def State.jobOver (s : State) (e : Nat) (j : Job) : State :=
  match j.fail with
  | some (code, _) => s.jobEnd e j 5 code none
  | none => s.jobEnd e j 4 0 none

/-- Decodes and writes the next destination chunk of the job that an engine runs (R351). -/
def State.jobChunk (s : State) (e : Nat) : State :=
  match (s.cullet e).queue.head? with
  | none => s
  | some j =>
    if !j.started || j.fid.isSome then s
    else if j.forced then (s.dropJob e).jobTag j 2
    else
      let room := 4096 - (j.dst + j.written) % 4096
      match State.decodeTo (j.written + room) (8 * j.slen + 2) s j with
      | .stop _ j (.fault va acc) => s.jobEnd e j 3 1 (some (va, acc))
      | .stop s j .prot => s.setJob e { j with fail := some (2, j.bitPos / 8), marks := (j.out.length, j.bitPos / 8) :: j.marks }
      | .stop _ _ (.blocked s) => s
      | .stop s _ _ => s
      | .ok s j =>
        let len := j.out.length
        let k := min (len - j.written) room
        let bs := ((j.out.drop (len - j.written - k)).take k).reverse
        if k = 0 then s.jobOver e j
        else match s.devMap j.tenant (j.dst + j.written) k .write with
          | .ok s ps =>
            let j := { j with written := j.written + k }
            let s := s.putParts ps bs
            if j.ended && j.written = len then s.jobOver e j else s.setJob e j
          | .fault va => (s.setJob e j).jobEnd e j 3 1 (some (va, .write))
          | .prot => s.jobEnd e j 5 2 none
          | .poison => s.jobEnd e j 5 4 none
          | .blocked s => s

/-- R410: an engine starts or resumes a job. -/
def execCulletJobStart (engine : Nat) (s : State) : Host.Outcome State Fault Refusal := .next (s.jobStart engine).bump

/-- R351: an engine decodes and writes the next chunk. -/
def execCulletChunk (engine : Nat) (s : State) : Host.Outcome State Fault Refusal := .next (s.jobChunk engine).bump

end Sys2Proof.Machine
end

