-- ==== Sys2Proof/Machine/Distributor.lean ====
section
/-! DEFINITION. The gaffer and the distributors, Marver's bindings, the binner, and how groups, teams, gangs and launches
end (spec/02_execution_model.md R24, R25, R37 to R48, spec/12_tensor_copy_and_prologue.md R265,
spec/16_launch_queues_scheduling.md R294, R296 to R302). -/

namespace Sys2Proof.Machine

/-! ### Where a team fits (R24, R25, R266, R294, R391) -/

/-- The cores of a partition. -/
def Partition.cores (p : Partition) : List Nat :=
  ((List.range 64).filter fun c => p.benches.getLsbD (c / 8)).map fun c => p.die * 64 + c

/-- The partition that a core belongs to. -/
def State.partitionOf (s : State) (core : Nat) : Option Partition :=
  s.admin.partitions.find? fun p => p.die = dieOf core && p.benches.getLsbD (core % 64 / 8)

/-- Whether a core runs: its die is not fenced (R420), and its partition, if it is in one, neither halts nor has halted
(R392). -/
def State.coreRuns (s : State) (core : Nat) : Bool :=
  onCore core && !s.work.fenced.contains (dieOf core) && match s.partitionOf core with
    | some p => !p.halted && !p.halting
    | none => true

/-- Whether the partition of a team's core runs. -/
def State.teamRuns (s : State) (tk : Nat) : Bool := (s.team? tk).any fun t => s.coreRuns t.core

/-- Whether a core accepts teams of a tenant: healthy, and its partition, if it is in one, is the tenant's and runs. -/
def State.coreOpen (s : State) (tenant core : Nat) : Bool :=
  !(s.core core).withdrawn && !s.work.fenced.contains (dieOf core) && match s.partitionOf core with
    | some p => p.tenant = tenant && !p.halted && !p.halting
    | none => true

/-- The teams of a core with their launches. -/
def State.teamsOn (s : State) (core : Nat) : List (Nat × Team × Launch) :=
  s.work.teams.filterMap fun e => if e.2.core = core then (s.launch? e.2.launch).map fun l => (e.1, e.2, l) else none

/-- Whether two windows share a number. -/
def windowsMeet (a n b m : Nat) : Bool := n != 0 && m != 0 && a < b + m && b < a + n

/-- Bytes of a core's scratchpad (R14). -/
def scratchBytes : Nat := 524288

/-- Whether a core can hold the next team of a launch. A pool launch has one team on a core (R298). -/
def State.coreFits (s : State) (lk : Nat) (l : Launch) (core : Nat) : Bool :=
  let on := s.teamsOn core
  let live := on.filter fun e => !e.2.1.retired
  s.coreOpen l.tenant core &&
    (l.isPool || l.groups ≤ ((List.range 4).map fun q => (s.freeSlots core q).length).foldl (· + ·) 0) &&
    (on.map fun e => e.2.1.scrBytes).foldl (· + ·) l.scr ≤ scratchBytes &&
    (live.all fun e => !windowsMeet l.tagBase l.tagCnt e.2.2.tagBase e.2.2.tagCnt) &&
    (live.all fun e => !windowsMeet l.slotBase l.slotCnt e.2.2.slotBase e.2.2.slotCnt) &&
    (!l.ring || (s.core core).owner.isNone) &&
    (!l.isPool || live.all fun e => e.2.1.launch != lk)

/-- The lowest core of a die from which the next gang of a launch can be placed. -/
def State.fits (s : State) (lk : Nat) (l : Launch) (die : Nat) : Option Nat :=
  ((List.range 64).map fun i => die * 64 + i).find? fun c =>
    c % 8 % l.gangSize = 0 && (List.range l.gangSize).all fun i => s.coreFits lk l (c + i)

/-! ### Ranges (R298) -/

/-- The lowest range that has been given back: a fenced distributor's, which names no die (R423). -/
def Launch.returned (l : Launch) : Option (Nat × Nat) :=
  ((l.ranges.filter fun r => r.1 == noDie).map fun r => r.2).foldl (fun (b : Option (Nat × Nat)) r =>
    match b with
    | some c => if r.1 < c.1 then some r else b
    | none => some r) none

/-- Whether a launch has teams that no distributor has been given. -/
def Launch.pending (l : Launch) : Bool := l.next < l.nteam || l.returned.isSome

/-- A launch after its next grant to a die: a range that was given back, or up to 64 teams, in whole gangs. -/
def Launch.granted (l : Launch) (die : Nat) : Launch :=
  match l.returned with
  | some r => { l with ranges := l.ranges.map fun q => if q = (noDie, r) then (die, r) else q }
  | none =>
    let n := l.next + min 64 (l.nteam - l.next)
    { l with ranges := l.ranges ++ [(die, l.next, n)], next := n }

/-- Whether a launch comes before another in the gaffer's order: PRIO, then acceptance. -/
def Launch.before (a b : Launch) : Bool := b.prio < a.prio || (a.prio = b.prio && a.serial < b.serial)

/-- Whether a die's distributor may be given a range of a launch: it has a core for the launch's next team. -/
def State.wantsRange (s : State) (lk : Nat) (l : Launch) (die : Nat) : Bool := l.pending && (s.fits lk l die).isSome

/-- R298: the gaffer gives a die's distributor a range of the first pending launch whose next team it can place. -/
def execTeamRangeGrant (launch die : Nat) (s : State) : Host.Outcome State Fault Refusal :=
  .next <| match s.launch? launch with
    | none => s
    | some l =>
      let first := s.work.launches.all fun e => e.1 == launch || !(e.2.before l && s.wantsRange e.1 e.2 die)
      if s.work.gaffer.isNone || s.work.election || 8 ≤ die || !first || !s.wantsRange launch l die then s
      else s.modLaunch launch fun l => l.granted die

/-! ### Placement (R24, R25, R27, R265, R267) -/

/-- A team as it is placed. -/
def Team.fresh (lk idx core : Nat) (l : Launch) : Team :=
  { launch := lk, idx := idx, core := core, bars := List.replicate 16 Barrier.fresh, sets := List.replicate 8 MSet.fresh,
    scrBytes := l.scr, scr := [], scrPsn := [], lead := 0, seen := [], trapCause := 0, trapAddr := 0, trapSlot := 0,
    dctl := 0, bps := List.replicate 4 0, binding := 0, bindFail := false, released := false,
    pool := if l.isPool then some ⟨List.replicate 16 Bin.empty, 0, 0, [], []⟩ else none, failed := false, retired := false }

/-- Applies a function to the elements of a window of a list. -/
def onWindow {α : Type} (base count : Nat) (f : α → α) (l : List α) : List α :=
  (withIdx l).map fun e => if base ≤ e.1 && e.1 < base + count then f e.2 else e.2

/-- A core takes a team: its tags are ready, B slots that another tenant used are zeroed, and a ring owner finds a fresh
ring (R64, R266, R267). -/
def Core.take (c : Core) (tk : Nat) (l : Launch) : Core :=
  let c := { c with
    tags := onWindow l.tagBase l.tagCnt (fun _ => Tag.fresh) c.tags
    bslots := onWindow l.slotBase l.slotCnt
      (fun b => if b.tenant == some l.tenant then b else ⟨[], [], some l.tenant⟩) c.bslots }
  if l.ring then { c with ring := List.replicate 16 Tile.fresh, head := 0, tail := 0, ncl := 0, owner := some tk, mq := [], lehr := Lehr.idle }
  else c

/-- The teams of a launch forget the lead counter of a team that is placed anew (R174). -/
def State.forgetLead (s : State) (lk tk : Nat) : State :=
  { s with work := { s.work with teams := s.work.teams.map fun (e : Nat × Team) =>
      (e.1, if e.2.launch = lk then { e.2 with seen := e.2.seen.del tk } else e.2) } }

/-- Places one team with its groups. One that had retired before its gang was killed with its die stands, and is only there for its
gang (R423). -/
def State.placeTeam (s : State) (lk : Nat) (l : Launch) (idx core : Nat) : State :=
  let tk := indexKey lk idx
  let stood := l.stood.contains idx
  let t := { Team.fresh lk idx core l with released := stood, retired := stood }
  let s := ((s.forgetLead lk tk).setTeam tk t).modCore core fun c => if stood then c else c.take tk l
  let lane := { Lane.fresh l.entry with unchecked := (s.target l.tenant l.entry).2 }
  if l.isPool || stood then s
  else (List.range l.groups).foldl (fun s j => (s.placeGroup tk j (List.replicate groupLanes lane)).getD s) s

/-- Places a gang whose first team stands on a core. -/
def State.placeGang (s : State) (lk : Nat) (l : Launch) (gang core : Nat) : State :=
  let s := s.setGang (indexKey lk gang) ⟨lk, gang, List.replicate 4 Barrier.fresh, (l.attempts.get? gang).getD 0⟩
  (List.range l.gangSize).foldl (fun s i => s.placeTeam lk l (gang * l.gangSize + i) (core + i)) s

/-- Takes the first gang of a die's ranges. -/
def takeRange (die g : Nat) : List (Nat × Nat × Nat) → List (Nat × Nat × Nat)
  | [] => []
  | (d, a, b) :: t => if d = die then (if a + g < b then (d, a + g, b) :: t else t) else (d, a, b) :: takeRange die g t

/-- The gang that a die's distributor places next for a launch: one to be placed again (R386), or the first of its
range. -/
def Launch.nextGang (l : Launch) (die : Nat) : Option Nat :=
  match l.again with
  | g :: _ => some g
  | [] => (l.ranges.find? fun r => r.1 == die).map fun r => r.2.1 / l.gangSize

/-- R298: a distributor places the next team, or gang, of its range. Which launch's range it serves first, where it holds ranges
of several, the rule does not say: a free choice (log entry 52). -/
def execTeamPlacement (launch die : Nat) (s : State) : Host.Outcome State Fault Refusal :=
  .next <| match s.launch? launch with
    | none => s
    | some l =>
      match l.nextGang die, s.fits launch l die with
      | some g, some core =>
        let s := s.modLaunch launch fun l => if l.again.isEmpty then { l with ranges := takeRange die l.gangSize l.ranges }
          else { l with again := l.again.tail }
        s.placeGang launch l g core
      | _, _ => s

/-! ### Marver (R264, R265) -/

/-- The command that an enabled binding runs as. -/
def bindCmd (tk : Nat) (l : Launch) (i : Nat) : Cmd :=
  let w0 := l.w (16 + 4 * i)
  { team := tk, gid := 0, opc := if bit w0 52 then 0xC1 else 0xC0,
    mod := BitVec.ofNat 13 (bits w0 49 48 + b2n (bit w0 50) * 4 + b2n (bit w0 51) * 8),
    ua := word (bits w0 47 0), ub := l.w (17 + 4 * i), uc := l.w (18 + 4 * i), lanes := [],
    tag := l.tagBase + bits w0 59 54, ttag := bits w0 59 54, acq := true, rel := true, scope := 1, pc := 0, chunk := 0,
    desc := [], saved := [], sums := List.replicate 384 (some 0), udf := 0, offend := none, fid := none, forced := false,
    marver := true }

/-- Whether Marver still works on a team's binding. -/
def State.binds (s : State) (tk core : Nat) : Bool := (s.core core).punty.any fun c => c.marver && c.team == tk

/-- Whether the gang of a team is killed or being killed: Marver and the distributor do nothing more for it (R265, R385). -/
def State.teamDying (s : State) (t : Team) (l : Launch) : Bool := s.dying t.launch (t.idx / l.gangSize)

/-- R265: Marver begins the next enabled binding of a team, or, when every binding is complete, completes phase 0 of
b15. -/
def execTransformBinding (team : Nat) (s : State) : Host.Outcome State Fault Refusal :=
  .next <| match s.team? team with
    | none => s
    | some t => match s.launch? t.launch with
      | none => s
      | some l =>
        if t.released || !s.coreRuns t.core || s.teamDying t l || s.binds team t.core || (s.bar team 15).phase != 0 then s
        else if 4 ≤ t.binding then s.setBar team 15 ⟨t.bindFail, 0, 1, none⟩
        else if !l.bindOn t.binding then s.modTeam team fun t => { t with binding := t.binding + 1 }
        else if puntyEntries ≤ (s.core t.core).punty.length then s
        else s.enqueue t.core (bindCmd team l t.binding)

/-- R301: the groups of a team are released at b15's completion and the start time, whichever is later. -/
def execGroupRelease (team : Nat) (s : State) : Host.Outcome State Fault Refusal :=
  .next <| match s.team? team with
    | none => s
    | some t => match s.launch? t.launch with
      | none => s
      | some l =>
        if t.released || !s.coreRuns t.core || s.teamDying t l || (s.bar team 15).phase = 0 || s.ns < l.startTime then s
        else
          let s := s.modTeam team fun t => { t with released := true }
          if (s.groupsOf team).isEmpty then s else s.started t.launch

/-! ### Pacing (R174, R302) -/

/-- R302: a team's lead counter reaches its neighbours. -/
def execLeadCounterUpdate (team : Nat) (s : State) : Host.Outcome State Fault Refusal :=
  .next <| match s.team? team with
    | none => s
    | some t => if !s.coreRuns t.core then s else (s.neighboursOf team).foldl (fun (s : State) (e : Nat × Team) =>
        (s.modTeam e.1 fun n => { n with seen := n.seen.put team t.lead }).wakeLead e.1) s

/-! ### The binner (R39 to R42, R298) -/

/-- Whether a record's PC is refused (R39). One whose line cannot be read is accepted, and its target is checked at the first
fetch: the spec does not say (DESIGN CHOICE, log entry 30). -/
def State.badRecord (s : State) (tenant : Nat) (pc : Word) : Bool := !(s.target tenant pc).1

/-- Lanes of the pool teams of a core that wait for room issue their `regroup` again: a bin or a group slot of the core, or room in a
spill area, may have become free (R40, R41). -/
def State.wakeRegroups (s : State) (core : Nat) : State :=
  (((s.work.teams.filter fun t => t.2.pool.isSome && t.2.core == core).flatMap fun t => s.threads t.1).filter fun e =>
    (s.laneAt e).waitsFor .regroupFull 0).foldl (fun s e => s.unwait e.1 e.2 .active) s

/-- A record that the binner has read arrives, unless only the spill area would take it: it then stays in the area that it was read
from until a bin can take it. That a record of the pool area is never written to the spill area is a choice: the spec does not say
(DESIGN CHOICE, log entry 52). -/
def State.binTake (s : State) (tk : Nat) (r : ContRec) : Option State :=
  match (s.team? tk).bind fun t => t.pool with
  | some p => (s.binArrive tk r).filter fun s => match (s.team? tk).bind fun t => t.pool with
      | some q => q.spillWr == p.spillWr && q.held == p.held
      | none => false
  | none => none

/-- A record that was read joins a bin, or is discarded and counted (R39). Its PC's poison is consumed. -/
def State.poolTake (s : State) (tk : Nat) (t : Team) (l : Launch) (ws : List Word) (psn : List Bool) : Option State :=
  let r := ContRec.ofWords ws psn
  if psn.getD 0 false then some (s.kill ⟨t.launch, t.idx, 1, 0, t.core, 0, 0, []⟩)
  else if s.badRecord l.tenant r.pc then some (s.modLaunch t.launch fun l => { l with prej := l.prej + 1 })
  else s.binTake tk r

/-- The words of a record with their poison. -/
def State.readRecord (s : State) (tenant va : Nat) : Dev (List Word × List Bool) :=
  match s.devMap tenant va 128 .read with
  | .ok s ((pa, _, _) :: _) =>
    .ok s ((List.range 16).map fun i => s.physWord (pa + 8 * i), (List.range 16).map fun i => s.physPsn (pa + 8 * i) 8)
  | .ok s [] => .blocked s
  | .fault va => .fault va
  | .prot => .prot
  | .poison => .poison
  | .blocked s => .blocked s

/-- Takes one record from an address; `next` advances the place it was read from. -/
def State.fetchRecord (s : State) (tk : Nat) (t : Team) (l : Launch) (va : Nat) (next : State → State) : State :=
  match s.readRecord l.tenant va with
  | .ok s1 (ws, psn) => match s1.poolTake tk t l ws psn with
    | some s => (next s).wakeRegroups t.core
    | none => s
  | .fault va => s.targetFault l.tenant va 0 { lslot := t.launch, core := t.core, team := t.idx }
  | .blocked s => s
  | .prot => (next (s.modLaunch t.launch fun l => { l with prej := l.prej + 1 })).wakeRegroups t.core
  | .poison => s.kill ⟨t.launch, t.idx, 1, 0, t.core, 0, word va, []⟩

/-- R40, R298: the binner reads the oldest record of its spill area into a bin that is empty, or the next record of its
range of the pool area; a team without a range is given the next one. A record that waits for its page of the spill area is
written once the page is there. -/
def execPoolRecordFetch (team : Nat) (s : State) : Host.Outcome State Fault Refusal :=
  .next <| match s.team? team with
    | none => s
    | some t => match s.launch? t.launch, t.pool with
      | some l, some p =>
        (if !s.coreRuns t.core then s
        else if !p.held.isEmpty && s.spillReady team then s.spillHeld team
        else if p.spillRd < p.spillWr && s.emptyBin t.core then
          s.fetchRecord team t l (spillAddr l t.idx p.spillRd) fun s => s.modPool team fun p => { p with spillRd := p.spillRd + 1 }
        else match p.ranges with
          | (a, b) :: rest =>
            s.fetchRecord team t l (l.poolBase + 128 * a) fun s => s.modPool team fun p =>
              { p with ranges := if a + 1 < b then (a + 1, b) :: rest else rest }
          | [] =>
            let n := min 64 (l.poolCnt - l.poolNext)
            if n = 0 then s
            else (s.modPool team fun p => { p with ranges := [(l.poolNext, l.poolNext + n)] }).modLaunch t.launch fun l =>
              { l with poolNext := l.poolNext + n }).bump
      | _, _ => s

/-- Cycles without an arrival after which a bin is flushed (R41). -/
def flushCycles : Nat := 2048

/-- Whether a partial bin's time has come. -/
def Bin.stale (b : Bin) (now : Nat) : Bool := !b.recs.isEmpty && !b.flushed && b.last + flushCycles ≤ now

/-- R41: a bin without an arrival for 2,048 cycles is flushed. -/
def execBinFlush (team bin : Nat) (s : State) : Host.Outcome State Fault Refusal :=
  .next <| if !s.teamRuns team then s else s.modPool team fun p => { p with
    bins := updAt (fun b => if b.stale s.cycle then { b with flushed := true } else b) bin p.bins }

/-- R41: a full or flushed bin becomes a group. -/
def execGroupFormation (team bin : Nat) (s : State) : Host.Outcome State Fault Refusal :=
  .next <| match s.team? team with
    | none => s
    | some t => match s.launch? t.launch, t.pool with
      | some l, some p =>
        let b := p.bins.getD bin Bin.empty
        if t.released && s.coreRuns t.core && (b.flushed || binSize l ≤ b.recs.length) then
          match s.formGroup team bin with
          | some s => (s.wakeRegroups t.core).bump
          | none => s
        else s
      | _, _ => s

/-! ### How groups, teams and launches end (R45 to R48) -/

/-- Removes the operations of a group that leaves: their results are discarded (R45). -/
def State.dropOps (s : State) (key : Nat) : State :=
  { s with work := { s.work with ops := s.work.ops.filter fun e => !(e.2.group == key) } }

/-- Appends a record to the containment queue (R389, R390), which holds 65,536; answers whether there was room. -/
def State.contain (s : State) (ws : List Word) : State × Bool :=
  if 65536 ≤ s.admin.contain.length then (s, false)
  else ({ s with admin := { s.admin with contain := s.admin.contain ++ [ws] } }, true)

/-- What a kill record counts (R389). -/
structure KillCounts where
  nstd : Nat
  nhld : Nat
  ncmd : Nat
  ncnv : Nat
  nhls : Nat
  nitem : Nat
  nlost : Nat
  deriving DecidableEq, Repr

/-- The words of a kill record (R389). -/
def killWords (tenant reason info lslot att : Nat) (rln fail : Bool) (gang core : Nat) (pc addr : Word) (n : KillCounts)
    (kid time : Nat) : List Word :=
  [ word (tenant % 65536 * 2 ^ 48 + reason * 2 ^ 40 + info % 256 * 2 ^ 32 + lslot * 2 ^ 20 + att * 2 ^ 18 + b2n rln * 2 ^ 17 +
      b2n fail * 2 ^ 16),
    word (gang * 2 ^ 32 + core % 2 ^ 11), pc, addr,
    word (n.nstd % 65536 * 2 ^ 48 + n.nhld % 65536 * 2 ^ 32 + n.ncmd % 65536 * 2 ^ 16 + n.ncnv % 65536),
    word (n.nhls % 65536 * 2 ^ 48 + n.nitem % 65536 * 2 ^ 32 + n.nlost % 65536 * 2 ^ 16),
    word (kid * 2 ^ 32), word time ]

/-- Unbinds counters bound to a key's barriers that a test names (R337). -/
def State.unbind (s : State) (key : Nat) (p : Nat → Bool) : State :=
  { s with eng := { s.eng with counters := s.eng.counters.map fun e => (e.1, match e.2.bind with
      | some (k, b, _) => if k = key ∧ p b then { e.2 with bind := none } else e.2
      | none => e.2) } }

/-- The barriers of a team and of a gang. -/
def isTeamBar (b : Nat) : Bool := b < 16
def isGangBar (b : Nat) : Bool := 16 ≤ b

/-- Removes a group: its slot becomes free. -/
def State.removeGroup (s : State) (key : Nat) : State := (s.dropOps key).delGroup key

/-- The kill record of a group that command 0x0B killed (R388), once it has conveyed. -/
def State.groupRecord (s : State) (key : Nat) : State :=
  match s.group? key with
  | some g => match g.killRec, s.team? g.team with
    | some (kid, time), some t => match s.launch? t.launch with
      | some l =>
        let gang := t.idx / l.gangSize
        let att := ((s.gang? (indexKey t.launch gang)).map Gang.attempt).getD 0
        (s.contain (killWords l.tenant 0x0B 0 t.launch att false true gang (coreReg key) 0 0
          ⟨0, 0, 0, g.estate.conveyed, g.estate.heirless, 0, 0⟩ kid time)).1
      | none => s
    | _, _ => s
  | none => s

/-- Whether a group retires: it has no live lane, and its conveyance may have begun. -/
def Group.ending (g : Group) : Bool := g.stage = .retiring || g.stage = .conveying

/-- R46: a group without a live lane retires once its flags are zero: its buffered stores are performed, its holdings
conveyed, its slot freed. The record of a group kill follows (R388). While a page that the conveyance of a holding reaches must be
waited for, that holding and the older ones wait (R190, R245). -/
def execGroupRetirement (core slot : Nat) (s : State) : Host.Outcome State Fault Refusal :=
  .next <|
    let key := groupKey core slot
    match s.group? key with
    | none => s
    | some g =>
      let d : Departure := ⟨key, g.killed, false⟩
      if !g.ending || !s.coreRuns core || (g.flags.any fun n => n != 0) then s
      else match s.team? g.team with
        | none => s
        | some _ =>
          let s := (List.range groupLanes).foldl (fun s l => s.drainWcb key l) s
          let r := s.convey d
          if r.2 then
            let s := (r.1.groupRecord key).removeGroup key
            (((s.checkRls g.team).recheck g.team).wakeRegroups (coreOf key)).bump
          else (r.1.modGroup key fun g => { g with stage := .conveying }).bump

/-- Whether a pool team has nothing left to do (R43). -/
def Launch.poolDry (l : Launch) (p : Pool) : Bool :=
  p.ranges.isEmpty && l.poolCnt ≤ l.poolNext && p.spillRd = p.spillWr && p.held.isEmpty && p.bins.all fun b => b.recs.isEmpty

/-- Whether a command is pending on a tag of a team (R47). -/
def State.tagsBusy (s : State) (t : Team) (l : Launch) : Bool :=
  ((((s.core t.core).tags.drop l.tagBase).take l.tagCnt).any fun g => g.pend != 0) || (s.core t.core).punty.any fun c =>
    c.team == indexKey t.launch t.idx

/-- Whether a team can retire: no group is left, or can come, and no command is pending. -/
def State.retires (s : State) (tk : Nat) : Bool :=
  match s.team? tk with
  | none => false
  | some t => match s.launch? t.launch with
    | none => false
    | some l =>
      t.released && !t.retired && s.coreRuns t.core && (s.groupsOf tk).isEmpty && !s.tagsBusy t l &&
        ((s.core t.core).owner != some tk || (s.core t.core).mq.isEmpty) && match t.pool with
          | some p => l.poolDry p
          | none => true

/-- The ring of a team that leaves becomes unowned. -/
def State.dropRing (s : State) (tk core : Nat) : State :=
  if (s.core core).owner = some tk then s.modCore core fun c => { c with
      owner := none, ring := List.replicate 16 Tile.fresh, head := 0, tail := 0, ncl := 0, mq := [], lehr := Lehr.idle }
  else s

/-- A team's gang retires with its last team; until then the team keeps its scratchpad for the gang space (R47). -/
def State.dropTeam (s : State) (tk : Nat) (t : Team) (l : Launch) : State :=
  let gang := t.idx / l.gangSize
  let s := s.modTeam tk fun t => { t with retired := true }
  let all := s.teamsOfGang t.launch gang l.gangSize
  if all.all fun e => e.2.retired then
    let gk := indexKey t.launch gang
    ((all.foldl (fun (s : State) (e : Nat × Team) => s.delTeam e.1) s).unbind gk isGangBar).delGang gk
  else s

/-- R47: a team retires. -/
def execTeamRetirement (team : Nat) (s : State) : Host.Outcome State Fault Refusal :=
  .next <|
    if !s.retires team then s
    else match s.team? team with
      | none => s
      | some t => match s.launch? t.launch with
        | none => s
        | some l =>
          let near := (s.neighboursOf team).map fun e => e.1
          let s := ((s.dropRing team t.core).unbind team isTeamBar).dropTeam team t l
          let s := s.modLaunch t.launch fun l => if t.failed then
              { l with tfail := l.tfail + 1, fgang := min l.fgang (t.idx / l.gangSize), kil := true }
            else { l with tdone := l.tdone + 1 }
          (near.foldl (fun s n => s.wakeLead n) (s.gateCount t.launch t.idx)).bump

/-- Whether a launch can complete: every team has ended, and a pool has no unread record (R43, R48). A pool launch whose teams are
not all placed yet completes only once all NTEAM have been placed and have retired, even where the conditions of R43 hold before:
the spec does not say (DESIGN CHOICE, log entry 52). -/
def State.completes (s : State) (lk : Nat) (l : Launch) : Bool :=
  l.tdone + l.tfail = l.nteam && l.again.isEmpty && !l.pending && l.ranges.isEmpty &&
    (s.work.teams.all fun e => e.2.launch != lk) && (!l.isPool || l.poolCnt ≤ l.poolNext)

/-- A dependent launch keeps what its gate pushes once the preceding launch has completed (R173, R300). -/
def Launch.settled (l : Launch) (serial : Nat) (killed : Bool) : Launch :=
  if l.prev = some serial then { l with prev := none, prevRej := killed } else l

/-- As `Launch.settled`, for a queue whose next launch may depend on it. -/
def Queue.settled (q : Queue) (serial : Nat) (killed : Bool) : Queue :=
  match q.last with
  | some (n, _) => if n = serial then { q with last := some (n, killed) } else q
  | none => q

/-- R48, R296: a launch completes: its completion record is written, and then its event counter, its parent's tag and
its mailbox slot; its slot is free, and the gates of dependent launches keep what it left. While the page of the record or of
the counter must be waited for, it does not complete (R190). -/
def execLaunchCompletion (launch : Nat) (s : State) : Host.Outcome State Fault Refusal :=
  .next <| match s.launch? launch with
    | none => s
    | some l =>
      if !s.completes launch l then s
      else if s.reportWaits l then s
      else
        let s := s.record l.tenant l.compl launch (l.completion launch s.ns)
        let s := s.delLaunch launch
        let s := { s with work := { s.work with
            launches := s.work.launches.map fun (e : Nat × Launch) => (e.1, e.2.settled l.serial (l.opened.getD l.killed))
            queues := s.work.queues.map fun (e : Nat × Queue) => (e.1, e.2.settled l.serial (l.opened.getD l.killed)) } }
        ((s.afterRecord l (l.tfail != 0) 0).openGates).bump

end Sys2Proof.Machine
end

