-- ==== Sys2Proof/Machine/Images.lean ====
section
/-! DEFINITION. The records of a context image, which the state window shows as well, and the core apertures
(spec/22_preemption_context_readback.md R396 to R399). The layouts that the rules leave open are log entry 23. -/

namespace Sys2Proof.Machine

/-- The number whose bit i is the i-th Boolean. -/
def bitsOf (l : List Bool) : Nat := l.foldr (fun b n => b2n b + 2 * n) 0

/-- A list of words brought to a length. -/
def padTo (n : Nat) (l : List Word) : List Word := l ++ List.replicate (n - l.length) 0

/-- A list of words rounded up to 64 bytes. -/
def padLine (l : List Word) : List Word := padTo ((l.length + 7) / 8 * 8) l

/-- Words of a bit list, 64 bits each. -/
def bitWords (n : Nat) (p : Nat → Bool) : List Word :=
  (List.range n).map fun i => word (bitsOf ((List.range 64).map fun j => p (64 * i + j)))

/-- WKIND of R398. -/
def WaitKind.code : WaitKind → Nat
  | .none => 0
  | .join => 1
  | .joinSet => 2
  | .barrier => 3
  | .barSyncWo => 4
  | .setSync => 5
  | .gate => 6
  | .wait => 7
  | .leadWait => 8
  | .twait => 9
  | .syscReply => 10
  | .launchFull => 11
  | .regroupFull => 12
  | .cell => 13

/-- The value that a register has, or will have once its write is available. -/
def Reg.now {α : Type} (r : Reg α) : α × Bool :=
  match r.nxt with
  | some n => (n.val, n.psn)
  | none => (r.val, r.psn)

/-- Whether a write can be seen at a cycle. -/
def Avail.seen (a : Avail) (now : Nat) : Bool :=
  match a with
  | .ready => true
  | .from c => c ≤ now
  | .op _ => false

/-- The value of a register as it stands at a cycle (R399): that of a write which is available by then, else the one before it. -/
def Reg.shown {α : Type} (now : Nat) (r : Reg α) : α × Bool :=
  match r.nxt with
  | some n => if n.avail.seen now then (n.val, n.psn) else (r.val, r.psn)
  | none => (r.val, r.psn)

/-- A queue entry as it stands at a cycle: one that its instruction has not filled yet holds a free value. -/
def QEntry.shown (now seed i : Nat) (x : QEntry) : Word × Bool :=
  if x.avail.seen now then (x.val, x.psn) else (Config.freeWord (2 ^ 51 + seed * 16 + i), Config.freeBit (2 ^ 51 + seed * 16 + i))

/-- A lane record (R398) as it stands at a cycle: header, LINK0 to LINK7, q0 to q15 from the oldest, and the live named registers. -/
def Lane.record (now seed : Nat) (e : Lane) : List Word :=
  let q := (List.range 16).map fun i => (e.q.getD i ⟨0, false, .ready⟩).shown now seed i
  [ e.pcv,
    word (bitsOf (e.n.map fun r => r.live) * 2 ^ 32 + bitsOf (e.p.map fun r => r.live) * 2 ^ 24 +
      bitsOf (e.p.map fun r => (r.shown now).1) * 2 ^ 16 + e.fpstat.toNat),
    word (bitsOf (e.n.map fun r => (r.shown now).2) * 2 ^ 32 + bitsOf (q.map fun x => x.2) * 2 ^ 16 +
      bitsOf (e.p.map fun r => (r.shown now).2) * 2 ^ 8),
    word (e.depth * 2 ^ 53 + b2n e.hnd * 2 ^ 52 + b2n e.park.debug * 2 ^ 51 + b2n e.park.sysc * 2 ^ 50 +
      b2n e.park.page * 2 ^ 49 + e.wait.kind.code * 2 ^ 45),
    e.wait.obj, word (e.fid * 2 ^ 32), 0, 0 ] ++ (List.range 8).map (fun i => e.link.getD i 0) ++
    (q.map fun x => x.1).reverse ++ padLine ((e.n.filter fun r => r.live).map fun r => (r.shown now).1)

/-- Words of a group record before its lane records. -/
def groupWords : Nat := 64

/-- A group record (R398) as it stands at a cycle. -/
def Group.record (now seed : Nat) (g : Group) (slot : Nat) : List Word :=
  let r := (FaultInfo.words ⟨0, 0, 0, 0, 0, 0, 0, 0, 0, 0, g.resume, 0⟩ 0 0)
  padTo groupWords
    ([ word (slot + g.gid % 16 * 2 ^ 6 + slot / 12 * 2 ^ 10 + g.segment % 2 ^ 15 * 2 ^ 12),
       word ((withIdx g.flags).foldl (fun n e => n + e.2 % 16 * 2 ^ (4 * e.1)) 0),
       r.getD 4 0, r.getD 5 0, (g.resume.map Resume.pc).getD 0, 0, 0, 0 ] ++
     (List.range 15).map (fun i => ((g.k.getD i (Reg.clear 0)).shown now).1) ++
     [ word (bitsOf (g.k.map fun k => (k.shown now).2)) ] ++
     padTo 32 (g.estate.entries.flatMap EstEntry.words) ++
     [ word (g.estate.curKind * 2 ^ 48 + g.estate.curArg), word (g.estate.dfltKind * 2 ^ 48 + g.estate.dfltArg),
       word g.estate.count ]) ++
    (withIdx g.lanes).flatMap fun e => e.2.record now (32 * seed + e.1)

/-- Words of a tag's part of a team record: status word, underflow count, ready bit, and the resume record. -/
def Tag.record (t : Tag) : List Word :=
  padTo 8 ([t.status, word t.udf, word (b2n t.ready)] ++ match t.resume with
    | some c => [word (c.opc.toNat + c.mod.toNat * 2 ^ 8 + c.chunk * 2 ^ 32), c.ua, c.ub, c.uc, c.pc]
    | none => [])

/-- The barrier words of a team record. -/
def Barrier.record (b : Barrier) : List Word := [b.phaseWord, word (b.opened.getD 0)]

/-- A team record (R397). -/
def State.teamRecord (s : State) (t : Team) (l : Launch) : List Word :=
  let gang := t.idx / l.gangSize
  let tags := ((s.core t.core).tags.drop l.tagBase).take l.tagCnt
  let n := (t.scrBytes + 7) / 8
  padLine ([word t.idx, word gang, word t.lead, t.dctl, word l.tagCnt, 0, 0, 0] ++ padTo 4 t.bps ++
    [t.trapCause, t.trapAddr, t.trapSlot] ++ t.bars.flatMap Barrier.record ++
    (if t.idx % l.gangSize = 0 then
      (((s.gang? (indexKey t.launch gang)).map Gang.bars).getD []).flatMap Barrier.record else []) ++
    (t.sets.flatMap fun m => (List.range 8).map fun i =>
      word ((m.members.getD (2 * i) 0).toNat + (m.members.getD (2 * i + 1) 0).toNat * 2 ^ 32)) ++
    tags.flatMap Tag.record ++ (List.range n).map (fun i => word (t.scr.readNat (8 * i) 8)) ++
    bitWords ((n + 63) / 64) t.scrPsn.contains)

/-- A tile in the ring part of a core's records: elements, then their poison. -/
def Tile.record (t : Tile) : List Word :=
  let el := fun i => ((t.elems.get? i).getD 0).toNat
  (List.range 1024).map (fun i => word (el (2 * i) + el (2 * i + 1) * 2 ^ 32)) ++ bitWords 32 t.psn.contains

/-- The 96-byte two's complement of an integer. -/
def wide (v : Int) : List Word := (List.range 12).map fun i => word (wrap 768 v / 2 ^ (64 * i))

/-- A tile in the checks part of a core's records. -/
def Tile.checks (t : Tile) : List Word :=
  padTo 32 (wide t.cp ++ wide t.cr ++ [t.checkWord, word ((t.epi.map Epi.desc).getD 0)])

/-- A Punty command in a core's records. -/
def Cmd.record (c : Cmd) : List Word :=
  [word (c.opc.toNat + c.mod.toNat * 2 ^ 8 + c.tag * 2 ^ 24 + c.chunk * 2 ^ 32), c.ua, c.ub, c.uc, c.pc, word c.team,
    word (c.fid.getD 0), word (b2n c.acq + 2 * b2n c.rel + 4 * c.scope)]

/-- A slot of the B store: bytes, then the poison of its 16-bit units. -/
def BSlot.record (b : BSlot) : List Word :=
  (List.range 2048).map (fun i => word (b.bytes.readNat (8 * i) 8)) ++ bitWords 128 b.psn.contains

/-- Words of the ring part, of the checks part and of the Punty part of a core's records, and of a B slot. -/
def ringWords : Nat := 16 * 1056
def checkWords : Nat := 16 * 32
def puntyWords : Nat := 264
def slotWords : Nat := 2176

/-- The B slots of a core that a context image holds: each slot of every resident team's window (R396). -/
def State.imageSlots (s : State) (core : Nat) : List Nat :=
  (s.teamsOn core).flatMap fun t => (List.range t.2.2.slotCnt).map (t.2.2.slotBase + ·)

/-- The records of a core up to the B slots (R396). -/
def State.coreRecord (s : State) (core : Nat) : List Word :=
  let c := s.core core
  let owner := (c.owner.bind fun tk => (s.team? tk).map Team.idx).getD 0
  [word (c.head + c.tail * 16 + c.ncl % 16 * 2 ^ 8 + owner * 2 ^ 32), word (c.lehr.row % 32), word (c.punty.length % 64),
    0, 0, 0, 0, 0] ++ c.ring.flatMap Tile.record ++ c.ring.flatMap Tile.checks ++
    padTo puntyWords (c.punty.flatMap Cmd.record)

/-- The records of a core with its B slots (R396). -/
def State.coreAndSlots (s : State) (core : Nat) : List Word :=
  s.coreRecord core ++ (s.imageSlots core).flatMap fun i => ((s.core core).bslots.getD i ⟨[], [], none⟩).record

/-- All records of a core, as an image holds them. -/
def State.coreRecords (s : State) (core : Nat) : List Word :=
  let on := s.teamsOn core
  s.coreAndSlots core ++
    (on.flatMap fun t => s.teamRecord t.2.1 t.2.2) ++
    ((s.work.groups.filter fun e => coreOf e.1 == core).flatMap fun e => e.2.record s.cycle s.free (slotOf e.1))

/-- The records of an image behind its header. -/
def State.imageRecords (s : State) (id : Nat) (count : Nat) : List Word :=
  (List.range (8 * count)).flatMap fun r => s.coreRecords (imageCore id r)

/-- The words of an image's partition header but for its digest (R396): VER, tenant and bench count; the length in bytes; TIME at
halt. -/
def Image.header (m : Image) (bytes : Nat) : List Word :=
  [word (1 + m.tenant % 2 ^ 16 * 2 ^ 16 + m.count % 16 * 2 ^ 32), word bytes, word m.time, 0]

/-- The partition header of 256 bytes (R396). -/
def Image.headerRecord (m : Image) (bytes : Nat) : List Word :=
  padTo 32 (m.header bytes ++ (List.range 4).map fun i => m.digest.extractLsb' (64 * i) 64)

/-- The digest of an image: of its header without the digest, and of its records (R396). -/
def State.imageDigest (s : State) (id : Nat) (m : Image) : BitVec 256 :=
  let ws := s.imageRecords id m.count
  Config.digest ((m.header (256 + 8 * ws.length) ++ ws).map BitVec.toNat)

/-- A whole image, header and records (R396). -/
def State.imageWords (s : State) (id : Nat) (m : Image) : List Word :=
  let ws := s.imageRecords id m.count
  m.headerRecord (256 + 8 * ws.length) ++ ws

/-- Writes the digest of an image again, after a kill has changed it (R387). -/
def State.reseal (s : State) (core : Nat) : State :=
  if onCore core then s
  else
    let id := (core - 512) / 64
    { s with admin := { s.admin with shadows := s.admin.shadows.upd id fun m => { m with digest := s.imageDigest id m } } }

/-! ### The aperture of a core (R399) -/

/-- What a word of a core's aperture belongs to: a word of the core's records, of a resident team's, of a group's. -/
inductive Place where
  | core (i : Nat)
  | team (tk i : Nat)
  | group (key i : Nat)
  deriving DecidableEq, Repr

/-- The place of word w of a core's aperture: a record lies where `Config` puts it. -/
def State.place (s : State) (core w : Nat) : Option Place :=
  let groups := s.work.groups.filterMap fun e =>
    let o := Config.groupRecordAt (slotOf e.1)
    if coreOf e.1 = core && o ≤ w && w < o + (e.2.record s.cycle s.free (slotOf e.1)).length then some (Place.group e.1 (w - o)) else none
  let teams := (withIdx (s.teamsOn core)).filterMap fun e =>
    let o := Config.teamRecordAt e.1
    if o ≤ w && w < o + (s.teamRecord e.2.2.1 e.2.2.2).length then some (Place.team e.2.1 (w - o)) else none
  if w < (s.coreAndSlots core).length then some (.core w) else (groups ++ teams).head?

/-- A word of a core's aperture. -/
def State.apertureWord (s : State) (core w : Nat) : Word :=
  match s.place core w with
  | some (.core i) => (s.coreAndSlots core).getD i 0
  | some (.team tk i) => match s.team? tk, s.launchOf tk with
    | some t, some l => (s.teamRecord t l).getD i 0
    | _, _ => 0
  | some (.group key i) => match s.group? key with
    | some g => (g.record s.cycle s.free (slotOf key)).getD i 0
    | none => 0
  | none => 0

/-- Writes a word of a lane record: LINK, the queue, a live register; the header is read only (R398). -/
def Lane.setWord (e : Lane) (i : Nat) (v : Word) : Lane :=
  if i < 8 then e
  else if i < 16 then { e with link := updAt (fun _ => v) (i - 8) e.link }
  else if i < 32 then { e with q := updAt (fun q => { q with val := v }) (31 - i) e.q }
  else match ((withIdx e.n).filter fun r => r.2.live)[i - 32]? with
    | some (j, _) => { e with n := updAt (fun r => ⟨v, r.now.2, true, none⟩) j e.n }
    | none => e

/-- Writes a word of the lane records of a group, the first of which is lane `l`'s. -/
def setLaneWord (v : Word) : List Lane → Nat → List Lane
  | [], _ => []
  | e :: t, i => if i < (e.record 0 0).length then e.setWord i v :: t else e :: setLaneWord v t (i - (e.record 0 0).length)

/-- Writes a word of a group record: the code address of a resume point, k0 to k14 and their poison, the heir settings and the
acquisition count, and the lane records. The resume point itself and the estate entries are the hardware's (R364, R234): a write of one
is ignored (R6). -/
def Group.setWord (g : Group) (i : Nat) (v : Word) : Group :=
  if i = 4 then { g with resume := g.resume.map fun r => { r with pc := v } }
  else if i < 8 then g
  else if i < 23 then { g with k := updAt (fun r => ⟨v, r.now.2, r.live, none⟩) (i - 8) g.k }
  else if i = 23 then { g with k := (withIdx g.k).map fun r => { r.2 with psn := bit v r.1 } }
  else if i = 56 then { g with estate := { g.estate with curKind := bits v 50 48, curArg := bits v 47 0 } }
  else if i = 57 then { g with estate := { g.estate with dfltKind := bits v 50 48, dfltArg := bits v 47 0 } }
  else if i = 58 then { g with estate := { g.estate with count := v.toNat } }
  else if i < groupWords then g
  else { g with lanes := setLaneWord v g.lanes (i - groupWords) }

/-- Writes a word of a Punty command's record. -/
def Cmd.setWord (c : Cmd) (i : Nat) (v : Word) : Cmd :=
  match i with
  | 0 => { c with
      opc := v.extractLsb' 0 8, mod := v.extractLsb' 8 13, tag := bits v 31 24, chunk := bits v 63 32 }
  | 1 => { c with ua := v }
  | 2 => { c with ub := v }
  | 3 => { c with uc := v }
  | 4 => { c with pc := v }
  | 5 => { c with team := v.toNat }
  | 6 => { c with fid := c.fid.map fun _ => v.toNat }
  | _ => { c with acq := bit v 0, rel := bit v 1, scope := bits v 3 2 }

/-- Writes a word of a tag's part of a team record: the underflow count, the ready bit, the resume record. The status word is the
hardware's (R65). -/
def Tag.setWord (t : Tag) (i : Nat) (v : Word) : Tag :=
  match i with
  | 0 => t
  | 1 => { t with udf := v.toNat }
  | 2 => { t with ready := bit v 0 }
  | 3 => { t with resume := t.resume.map fun c => { c with
      opc := v.extractLsb' 0 8, mod := v.extractLsb' 8 13, chunk := bits v 63 32 } }
  | _ => { t with resume := t.resume.map fun c => c.setWord (i - 3) v }

/-- A 768-bit two's-complement integer of which one 64-bit word takes a new value. -/
def setWide (x : Int) (i : Nat) (v : Word) : Int :=
  let n := (List.range 12).foldl (fun n k => n + (if k = i then v.toNat else wrap 768 x / 2 ^ (64 * k) % 2 ^ 64) * 2 ^ (64 * k)) 0
  if n < 2 ^ 767 then n else (n : Int) - 2 ^ 768

/-- Writes a word of a tile's checks: CP, CR, and the address of the epilogue's descriptor. The check word is read only (R275). -/
def Tile.setCheck (t : Tile) (i : Nat) (v : Word) : Tile :=
  if i < 12 then { t with cp := setWide t.cp i v }
  else if i < 24 then { t with cr := setWide t.cr (i - 12) v }
  else if i = 25 then { t with epi := t.epi.map fun e => { e with desc := bits v 47 0 } }
  else t

/-- Writes a word of a core header: HEAD, TAIL, NCL and the team that owns the ring, where it is resident; Lehr's next row; the number
of Punty commands, of which those past it are gone. -/
def State.setCoreHeader (s : State) (core i : Nat) (v : Word) : State :=
  match i with
  | 0 =>
    let owner := (s.teamsOn core).find? fun t => t.2.1.idx == bits v 63 32
    s.modCore core fun c => { c with
      head := bits v 3 0
      tail := bits v 7 4
      ncl := bits v 11 8
      owner := if c.owner.isNone && bits v 63 32 = 0 then none else (owner.map (·.1)) <|> c.owner }
  | 1 => s.modCore core fun c => { c with lehr := { c.lehr with row := bits v 4 0 } }
  | 2 => s.modCore core fun c => { c with punty := c.punty.take (bits v 5 0) }
  | _ => s

/-- Writes a word of a team record: the lead counter, the debug control register and breakpoints, and the expected counts of open
phases. The trap registers are read only (R66), and phase words are the hardware's (R167): a write of one is ignored (R6). -/
def Team.setWord (t : Team) (i : Nat) (v : Word) : Team :=
  if i = 2 then { t with lead := bits v 31 0 }
  else if i = 3 then { t with dctl := v &&& 0xEF000000 }
  else if 8 ≤ i ∧ i < 12 then { t with bps := updAt (fun _ => v) (i - 8) t.bps }
  else if 15 ≤ i ∧ i < 47 ∧ (i - 15) % 2 = 1 then
    { t with bars := updAt (fun b => { b with opened := b.opened.map fun _ => bits v 15 0 }) ((i - 15) / 2) t.bars }
  else t

/-- Writes word i of a membership set: members of groups 2i and 2i + 1 (R397). -/
def MSet.setWord (m : MSet) (i : Nat) (v : Word) : MSet :=
  let odd := updAt (fun _ => BitVec.ofNat 32 (v.toNat / 2 ^ 32)) (2 * i + 1) m.members
  { m with members := updAt (fun _ => BitVec.ofNat 32 v.toNat) (2 * i) odd }

/-- Writes 64 bits of a poison list of n granules, from granule `base` on. -/
def putPoison (psn : List Nat) (n base : Nat) (v : Word) : List Nat :=
  (List.range 64).foldl (fun p j => if base + j < n then setIn (base + j) (bit v j) p else p) psn

/-- Where the scratchpad begins in a team record. -/
def State.scrAt (s : State) (t : Team) (l : Launch) : Nat :=
  47 + (if t.idx % l.gangSize = 0 then
    2 * (((s.gang? (indexKey t.launch (t.idx / l.gangSize))).map Gang.bars).getD []).length else 0) + 64 + 8 * l.tagCnt

/-- Writes a word of a B slot's record: bytes, or the poison of 64 units. -/
def State.setSlotWord (s : State) (core slot i : Nat) (v : Word) : State :=
  s.modCore core fun c => { c with bslots := updAt (fun b =>
    if i < 2048 then { b with bytes := b.bytes.writeN (8 * i) (leBytes 8 v.toNat) }
    else { b with psn := putPoison b.psn 8192 (64 * (i - 2048)) v }) slot c.bslots }

/-- Writes a word of a core's aperture. A write of a field that is read only or the hardware's is ignored (R6). -/
def State.setApertureWord (s : State) (core w : Nat) (v : Word) : State :=
  match s.place core w with
  | some (.core i) =>
    let checks := 8 + ringWords
    let punty := checks + checkWords
    let slots := punty + puntyWords
    if i < 8 then s.setCoreHeader core i v
    else if slots ≤ i then s.setSlotWord core ((s.imageSlots core).getD ((i - slots) / slotWords) 64) ((i - slots) % slotWords) v
    else if punty ≤ i then
      s.modCore core fun c => { c with punty := updAt (fun k => k.setWord ((i - punty) % 8) v) ((i - punty) / 8) c.punty }
    else if checks ≤ i then s.modTile core ((i - checks) / 32) fun t => t.setCheck ((i - checks) % 32) v
    else if 8 ≤ i ∧ (i - 8) % 1056 < 1024 ∧ (i - 8) / 1056 < 16 then
      let j := (i - 8) % 1056
      s.modTile core ((i - 8) / 1056) fun t => { t with elems := packElems ((withIdx t.all).map fun e =>
        if e.1 = 2 * j then BitVec.ofNat 32 v.toNat else if e.1 = 2 * j + 1 then BitVec.ofNat 32 (v.toNat / 2 ^ 32) else e.2) }
    else if 8 ≤ i ∧ (i - 8) % 1056 ≥ 1024 ∧ (i - 8) / 1056 < 16 then
      s.modTile core ((i - 8) / 1056) fun t => { t with psn := putPoison t.psn 2048 (64 * ((i - 8) % 1056 - 1024)) v }
    else s
  | some (.team tk i) => match s.team? tk, s.launchOf tk with
    | some t, some l =>
      let o := s.scrAt t l
      let n := (t.scrBytes + 7) / 8
      let sets := o - 8 * l.tagCnt - 64
      if o ≤ i ∧ i < o + n then s.scrWrite tk (8 * (i - o)) (leBytes 8 v.toNat) false
      else if o + n ≤ i ∧ i < o + n + (n + 63) / 64 then
        s.modTeam tk fun t => { t with scrPsn := putPoison t.scrPsn n (64 * (i - o - n)) v }
      else if sets + 64 ≤ i ∧ i < o then
        s.modCore t.core fun c => { c with
          tags := updAt (fun k => k.setWord ((i - sets - 64) % 8) v) (l.tagBase + (i - sets - 64) / 8) c.tags }
      else if sets ≤ i ∧ i < sets + 64 then
        s.modTeam tk fun t => { t with sets := updAt (fun m => m.setWord ((i - sets) % 8) v) ((i - sets) / 8) t.sets }
      else if 47 ≤ i ∧ i < sets ∧ (i - 47) % 2 = 1 then
        s.modGang (indexKey t.launch (t.idx / l.gangSize)) fun g => { g with
          bars := updAt (fun b => { b with opened := b.opened.map fun _ => bits v 15 0 }) ((i - 47) / 2) g.bars }
      else s.modTeam tk fun t => t.setWord i v
    | _, _ => s
  | some (.group key i) => s.modGroup key fun g => g.setWord i v
  | none => s

end Sys2Proof.Machine
end

