-- ==== Sys2Proof/Machine/Containment.lean ====
section
/-! DEFINITION. Containment: gang kills, the kill of lanes of one group, answers to fault records, fenced dies and the
gaffer's election, compute reset and partition reset (spec/20_faults_traps_parking.md R365, R366,
spec/21_silent_errors_containment.md R384 to R390, spec/23_memory_engine_host_failures.md R415, R416,
spec/24_fabric_recovery.md R420 to R423, spec/17_host_tenancy_security.md R313). -/

namespace Sys2Proof.Machine

/-! ### Item and kill records (R389, R390) -/

/-- Adds an item record of a kill, from its words with KID left out. -/
def State.item (s : State) (k : Killing) (ws : List Word) : State × Killing :=
  let full := (word (k.kid * 2 ^ 32 + (ws.getD 0 0).toNat % 2 ^ 32) :: ws.drop 1) ++ List.replicate (8 - ws.length) 0
  let r := s.contain full
  (r.1, if r.2 then { k with nitem := k.nitem + 1 } else { k with nlost := k.nlost + 1 })

/-- SPACE and ADDR of the first destination byte of a copy command (R390). A `cp.out` that has not read its descriptor
has no destination address yet: a free value. -/
def State.firstByte (s : State) (c : Cmd) : Nat × Nat :=
  match c.opc.toNat with
  | 0xC0 => (1, bits c.uc 18 0)
  | 0xC1 => (7, bits c.uc 5 0)
  | 0xC2 => (c.mod.toNat / 4 % 4, c.ub.toNat)
  | 0xC3 => (1, c.ua.toNat)
  | 0xC4 => (c.mod.toNat / 4 % 4, (c.lanes.getD 0 0).toNat)
  | 0xCE => (c.mod.toNat / 4 % 4, c.ua.toNat)
  | _ => match tensorOf c.desc with
    | some t => (0, t.at c.row0 c.col0)
    | none => (0, (Config.freeWord s.free).toNat)

/-- Whether Punty has begun a command. -/
def Cmd.begun (c : Cmd) : Bool := c.chunk != 0 || !c.desc.isEmpty

/-- The item record of a command that is dropped, kind 3, or stopped, kind 4 (R390). -/
def State.cmdItem (s : State) (c : Cmd) : List Word :=
  let b := s.firstByte c
  [word ((if c.begun then 4 else 3) * 2 ^ 28 + c.opc.toNat * 2 ^ 12 + c.ttag % 64 * 2 ^ 6),
    word (b.1 * 2 ^ 61 + b.2 % 2 ^ 48), c.pc, word (if c.begun then c.elem c.chunk else 0)]

/-! ### Gang kills (R384 to R387) -/

/-- The groups of a gang, in team order and then slot order. -/
def State.gangGroups (s : State) (launch gang size : Nat) : List (Nat × Group) :=
  (s.teamsOfGang launch gang size).flatMap fun t => s.groupsOf t.1

/-- Step 1 for one group: it stops, and its lanes leave every list they wait in. A group that has begun to convey finishes that as a
normal retirement (R387). -/
def State.stopGroup (s : State) (key : Nat) : State :=
  let s := s.modGroup key fun g =>
    { (g.mapLanes fun _ e => { e with wait := ⟨.none, 0, 0, 0, 0, 0⟩ }) with
      stage := if g.stage = .conveying then .conveying else .departing }
  { s with mem := { s.mem with waiters := s.mem.waiters.filter fun w => !(w.group == key) } }

/-- Whether a fault record of a killed gang is withdrawn: those of its lanes and of the engines that stop (R366,
R385). -/
def FaultRec.stops (r : FaultRec) (launch gang : Nat) : Bool :=
  r.launch == launch && r.gang == gang && match r.who with
    | .lanes _ _ _ _ | .punty _ _ | .marver _ => true
    | _ => false

/-- Step 2 for one group: what its lanes had issued is performed, or, in the cores of a fenced die, discarded (R421). -/
def State.settleGroup (s : State) (key : Nat) (fenced : Bool) : State :=
  let s := if fenced then s.modGroup key fun g => g.mapLanes fun _ e => { e with wcb := [] }
    else (List.range groupLanes).foldl (fun s l => s.drainWcb key l) s
  s.dropOps key

/-- Step 3 for one team: its Punty commands are dropped or stopped, each with an item record. -/
def State.stopPunty (s : State) (k : Killing) (tk core : Nat) (fenced : Bool) : State × Killing :=
  let cs := (s.core core).punty.filter fun c => c.team == tk
  let r := cs.foldl (fun (a : State × Killing) c =>
    let k := { a.2 with ncmd := a.2.ncmd + 1 }
    if fenced then (a.1, k) else a.1.item k (a.1.cmdItem c)) (s, k)
  (r.1.modCore core fun c => { c with punty := c.punty.filter fun c => !(c.team == tk) }, r.2)

/-- Steps 1 to 3 of a requested kill, as far as they happen at once. -/
def State.killStop (s : State) (k : Kill) (size : Nat) : State :=
  let teams := s.teamsOfGang k.launch k.gang size
  let fenced := teams.any fun t => s.work.fenced.contains (dieOf t.2.core)
  let a : Killing := ⟨k, s.admin.nextKid, s.ns, 0, 0, 0⟩
  let s := { s with work := { s.work with starting := s.work.starting.filter fun j => !(j == k) }
                    admin := { s.admin with nextKid := s.admin.nextKid + 1 } }
  let groups := s.gangGroups k.launch k.gang size
  let s := groups.foldl (fun (s : State) (e : Nat × Group) => s.stopGroup e.1) s
  let s := s.withdraw fun r => r.stops k.launch k.gang
  let s := groups.foldl (fun (s : State) (e : Nat × Group) => s.settleGroup e.1 fenced) s
  let r := if fenced then (s, a) else k.held.foldl (fun (b : State × Killing) ws => b.1.item b.2 ws) (s, a)
  let r := teams.foldl (fun (b : State × Killing) (t : Nat × Team) => b.1.stopPunty b.2 t.1 t.2.core fenced) r
  { r.1 with work := { r.1.work with killing := r.1.work.killing ++ [r.2] } }

/-- Whether the engines that run to completion have done so for a team (R385 step 3): its matrix queue, the tiles that
carry an epilogue, Pontil and Cullet. For a gang that is swapped out, or on a fenced die, nothing is waited for in the
core. -/
def State.enginesDone (s : State) (tk : Nat) (t : Team) : Bool :=
  !onCore t.core ||
    (!(s.eng.nx.any fun e => e.2.team == tk) && !(s.eng.cullets.any fun c => c.queue.any fun j => j.team == tk) &&
      (s.work.fenced.contains (dieOf t.core) || (s.core t.core).owner != some tk ||
        ((s.core t.core).mq.isEmpty &&
          ((s.core t.core).ncl = 0 || ((s.core t.core).tile (s.core t.core).tail).epi.isNone))))

/-- No team: the owner of commands whose team is gone. -/
def noTeam : Nat := 2 ^ 60

/-- Commands of Pontil and Cullet that outlive their team go on without its tag (R387, R395). -/
def State.orphan (s : State) (tk : Nat) : State :=
  let job := fun (j : Job) => if j.team = tk then { j with team := noTeam } else j
  { s with eng := { s.eng with
      nx := s.eng.nx.map fun (e : Nat × NxCmd) => (e.1, if e.2.team = tk then { e.2 with team := noTeam } else e.2)
      cullets := s.eng.cullets.map fun c => { c with queue := c.queue.map job, parked := c.parked.map job } } }

/-- What else names a team that leaves: its children's tags, its counters' bindings. -/
def State.forgetTeam (s : State) (tk : Nat) : State :=
  let s := (s.unbind tk isTeamBar).orphan tk
  let mine := fun (c : Option (Nat × Nat)) => c.any fun e => e.1 == tk
  { s with work := { s.work with
      launches := s.work.launches.map fun (e : Nat × Launch) => (e.1, if mine e.2.child then { e.2 with child := none } else e.2)
      queues := s.work.queues.map fun (e : Nat × Queue) => (e.1, { e.2 with kids := e.2.kids.filter fun k => !(k.2.1 == tk) })
      children := s.work.children.filter fun c => !(c.team == tk) } }

/-- Whether the estate table of a group of a fenced core cannot be read (R421): a free choice for each kill and group. -/
def estateUnread (k : Killing) (key : Nat) : Bool := Config.freeBit (2 ^ 83 + k.kid * 2 ^ 20 + key)

/-- A group of a fenced core whose estate cannot be read: nothing is conveyed, and its cells are handled as those of a holder that is
gone (R416, R421). -/
def State.loseEstate (s : State) (key : Nat) (g : Group) : State :=
  let s := s.modEstate key fun e => { e with entries := [] }
  if g.estate.entries.isEmpty || s.work.lost.contains (g.team, g.gid) then s
  else { s with work := { s.work with lost := s.work.lost ++ [(g.team, g.gid)] } }

/-- Step 4, in team order and then slot order: each group conveys, as far as no page must be waited for: whether all have. -/
def State.killConvey (k : Killing) (fenced again : Bool) : List (Nat × Group) → State → State × Bool
  | [], s => (s, true)
  | (key, g) :: rest, s =>
    if fenced && estateUnread k key then State.killConvey k fenced again rest (s.loseEstate key g)
    else
      let r := s.convey (if g.stage = .conveying then ⟨key, g.killed, false⟩ else ⟨key, true, again⟩)
      if r.2 then State.killConvey k fenced again rest r.1 else r

/-- The holdings that the groups of a killed gang have conveyed, and those of them heirless, but for a group that conveyed as a normal
retirement (R387). -/
def conveyCounts (gs : List (Nat × Group)) : Nat × Nat :=
  let es := (gs.filter fun e => e.2.stage != .conveying).map fun e => e.2.estate
  ((es.map fun e => e.conveyed).foldl (· + ·) 0, (es.map fun e => e.heirless).foldl (· + ·) 0)

/-- Teams of a gang that have already been counted as they retired (R47): completed and failed. -/
def retiredCounts (teams : List (Nat × Team)) : Nat × Nat :=
  let rs := teams.filter fun t => t.2.retired
  ((rs.filter fun t => !t.2.failed).length, (rs.filter fun t => t.2.failed).length)

/-- Step 5 for one team: its groups, ring and links go, its scratchpad with it. -/
def State.freeTeam (s : State) (tk : Nat) (t : Team) : State :=
  let s := (s.groupsOf tk).foldl (fun (s : State) (e : Nat × Group) => s.removeGroup e.1) s
  ((s.dropRing tk t.core).forgetTeam tk).delTeam tk

/-- Teams of a gang that count as failed (R386). -/
def Launch.fail (l : Launch) (gang n : Nat) : Launch :=
  { l with tfail := l.tfail + n, fgang := min l.fgang gang, kil := true }

/-- What a kill leaves of its gang's counts in the launch: it is placed again or fails (R386). The teams that had retired when
their die was fenced stand (R423); otherwise a killed gang's retired teams leave the counts (log entry 44). -/
def Launch.killed' (l : Launch) (gang attempt : Nat) (fenced again : Bool) (teams : List (Nat × Team)) : Launch :=
  let rs := teams.filter fun t => t.2.retired
  let old := if fenced then (0, 0) else retiredCounts teams
  let l := { l with
    killed := true
    tdone := l.tdone - old.1
    tfail := l.tfail - old.2
    stood := if fenced then rs.foldl (fun ids (t : Nat × Team) => insertNat t.2.idx ids) l.stood
      else l.stood.filter fun i => i / l.gangSize != gang }
  if again then { l with
      again := l.again ++ [gang]
      attempts := l.attempts.put gang (attempt + 1)
      reln := l.reln + 1 }
  else l.fail gang (l.gangSize - if fenced then rs.length else 0)

/-- Steps 5 and 6 of a kill (R385, R386), whose groups have conveyed. -/
def State.killEnd (s : State) (k : Killing) (l : Launch) (fenced : Bool) : State :=
  let lk := k.kill.launch
  let gang := k.kill.gang
  let gk := indexKey lk gang
  let att := ((s.gang? gk).map Gang.attempt).getD 0
  let again := l.idem && att < 2
  let teams := s.teamsOfGang lk gang l.gangSize
  let near := (teams.flatMap fun t => s.neighboursOf t.1).map fun e => e.1
  let groups := s.gangGroups lk gang l.gangSize
  let n := conveyCounts groups
  let s := groups.foldl (fun (s : State) (e : Nat × Group) => s.groupRecord e.1) s
  let s := teams.foldl (fun (s : State) (t : Nat × Team) => s.freeTeam t.1 t.2) s
  let s := (s.unbind gk isGangBar).delGang gk
  let s := (s.contain (killWords l.tenant k.kill.reason k.kill.info lk att again (!again) gang k.kill.core k.kill.pc
    k.kill.addr ⟨0, k.kill.held.length, k.ncmd, n.1, n.2, k.nitem, k.nlost⟩ k.kid k.time)).1
  let s := s.modLaunch lk fun l => l.killed' gang att fenced again teams
  let s := { s with work := { s.work with killing := s.work.killing.filter fun j => !(j == k) } }
  let s := teams.foldl (fun (s : State) (t : Nat × Team) => s.gateCount lk t.2.idx) s
  let s := near.foldl (fun s n => s.wakeLead n) s
  match teams with
  | (_, t) :: _ => s.reseal t.core
  | [] => s

/-- Goes on with a kill in progress once the engines that run to completion have done so: the groups convey, and, where no page must be
waited for, the kill ends (R385). -/
def State.killTry (s : State) (lk gang : Nat) : State :=
  match s.work.killing.find? (fun k => k.kill.of lk gang), s.launch? lk with
  | some k, some l =>
    let teams := s.teamsOfGang lk gang l.gangSize
    let fenced := teams.any fun t => s.work.fenced.contains (dieOf t.2.core)
    let again := l.idem && ((s.gang? (indexKey lk gang)).map Gang.attempt).getD 0 < 2
    if teams.all fun t => s.enginesDone t.1 t.2 then
      let r := State.killConvey k fenced again (s.gangGroups lk gang l.gangSize) s
      if r.2 then r.1.killEnd k l fenced else r.1
    else s
  | _, _ => s

/-- R385: a gang's kill begins, or goes on. A kill of a gang that is no longer there is forgotten. -/
def execGangKill (gang : Nat) (s : State) : Host.Outcome State Fault Refusal :=
  .next <|
    let lk := gang / 2 ^ 32
    let n := gang % 2 ^ 32
    match s.work.starting.find? fun k => k.of lk n with
    | some k => match s.launch? lk, s.gang? gang with
      | some l, some _ => ((s.killStop k l.gangSize).killTry lk n).bump
      | _, _ => { s with work := { s.work with starting := s.work.starting.filter fun j => !(j == k) } }
    | none => (s.killTry lk n).bump

/-! ### The kill of lanes of one group (R388) -/

/-- The status word of the state window (R401). -/
def State.status (s : State) (n : Nat) : State := { s with admin := { s.admin with cmdStatus := n } }

/-- A lane leaves what it waits in; its arrival in a phase that is still open is taken back. -/
def State.pullLane (s : State) (key l : Nat) : State :=
  match s.group? key with
  | some g =>
    let e := g.lane l
    let b := e.wait.obj.toNat
    let v := s.bar g.team b
    let s := if e.status = .waiting && e.wait.kind = .barrier && v.phase % 2 ^ 32 = e.wait.arg.toNat then
        s.setBar g.team b { v with arr := v.arr - 1 } else s
    if e.status = .waiting then (s.unlist key l).unwait key l .active else s
  | none => s

/-- Whether every lane that a record names has exited. -/
def FaultRec.allGone (r : FaultRec) (key : Nat) (g : Group) : Bool :=
  match r.who with
  | .lanes k m _ _ => k == key && (lanesOf m).all fun l => (g.lane l).status = .exited
  | _ => false

/-- Lanes of a group are killed; with its last lane the group is, and its team has failed. -/
def State.killLanes (s : State) (key : Nat) (m : LaneMask) : State :=
  match s.group? key with
  | some g =>
    let live := g.live.filter fun l => has m l
    let all := !live.isEmpty && live.length = g.live.length
    let time := s.ns
    let s := live.foldl (fun s l => (s.pullLane key l).drainWcb key l) s
    let s := if all then
        let kid := s.admin.nextKid
        let s := { s with admin := { s.admin with nextKid := kid + 1 } }
        let s := s.modGroup key fun g => { g with killed := true, killRec := some (kid, time) }
        let s := s.modTeam g.team fun t => { t with failed := true }
        match s.team? g.team with
        | some t => s.modLaunch t.launch fun l => { l with killed := true }
        | none => s
      else s
    let s := s.exitLanes key m
    match s.group? key with
    | some g => s.withdraw fun r => r.allGone key g
    | none => s
  | none => s

/-- R388: command 0x0B. -/
def execKillGroupLanes (core slot : Nat) (mask : LaneMask) (s : State) : Host.Outcome State Fault Refusal :=
  .next <|
    let key := groupKey core slot
    if !onCore core || (s.group? key).isNone then s.status 2
    else ((s.killLanes key mask).status 0).bump

/-! ### Answers to fault records (R365, R366, R395, R408, R410) -/

/-- The lanes that still wait on a record. -/
def Group.parkedOn (g : Group) (m : LaneMask) (fid : Nat) : LaneMask :=
  maskOf fun l => has m l && (g.lane l).park.page && (g.lane l).fid = fid && (g.lane l).status = .parked

/-- Releases the page-fault reason of lanes. -/
def State.unparkPage (s : State) (key : Nat) (m : LaneMask) : State :=
  s.modGroup key fun g => g.mapLanes fun l e =>
    if has m l then ({ e with park := { e.park with page := false }, fid := 0 } : Lane).unpark else e

/-- Lanes raise protection, each at the instruction it is parked at (R365). -/
def State.protectLanes (s : State) (key : Nat) (m : LaneMask) (opc : Nat) (addrs : List (Nat × Word)) : State :=
  match s.group? key with
  | some g =>
    let s := s.modGroup key fun g => g.mapLanes fun l e =>
      if has m l then { e with park := { e.park with page := false }, fid := 0 } else e
    s.trapLanes opc ((lanesOf m).map fun l =>
      (key, (g.lane l).pc, ⟨l, 6, 0, ((addrs.find? fun a => a.1 == l).map fun a => a.2).getD 0⟩))
  | none => s

/-- An engine's command takes the answer to its record: it goes on, or is forced to fail. -/
def Cmd.answered (c : Cmd) (fid : Nat) (forced : Bool) : Cmd :=
  if c.fid = some fid then { c with fid := none, forced := c.forced || forced } else c

/-- As `Cmd.answered`, for a Cullet job. -/
def Job.answered (j : Job) (fid : Nat) (forced : Bool) : Job :=
  if j.fid = some fid then { j with fid := none, forced := j.forced || forced } else j

/-- A core's Punty commands and resume records take an answer (R408). -/
def Core.answered (c : Core) (fid : Nat) (forced : Bool) : Core :=
  { c with
    punty := c.punty.map fun p => p.answered fid forced
    tags := c.tags.map fun t => { t with resume := t.resume.map fun r => r.answered fid forced } }

/-- A Cullet job takes a Kill answer: a submission leaves the engine, a continuation stays parked for the gang's
successor (R410). -/
def Cullet.killed (c : Cullet) (fid : Nat) : Cullet :=
  let back := (c.queue.filter fun j => j.fid == some fid && j.resuming && j.parked.isSome).map fun j =>
      { j with fid := none, resuming := false, accepted := false, parked := some 1, cardWait := false }
  { c with
    queue := c.queue.filter fun j => !(j.fid == some fid)
    parked := (c.parked.map fun j => j.answered fid false) ++ back }

/-- Applies an answer to those who wait on a record: outcome 0 Retry, 1 Protection, 2 Kill. -/
def State.applyAnswer (s : State) (r : FaultRec) (outcome : Nat) : State :=
  let forced := outcome != 0
  let s := if outcome = 2 && (s.gang? (indexKey r.launch r.gang)).isSome then s.kill ⟨r.launch, r.gang, 9, 0, 0, 0, 0, []⟩
    else s
  match r.who with
  | .lanes key m opc addrs =>
    match s.group? key with
    | some g =>
      let on := g.parkedOn m r.fid
      (match outcome with
      | 0 => s.unparkPage key on
      | 1 => s.protectLanes key on opc addrs
      | _ => s)
    | none => s
  | .punty core _ => s.modCore core fun c => c.answered r.fid forced
  | .marver tk => match s.team? tk with
    | some t => s.modCore t.core fun c => c.answered r.fid forced
    | none => s
  | .lehr core => s.modCore core fun c =>
      if c.lehr.fid = some r.fid then { c with lehr := { c.lehr with fid := none, forced := c.lehr.forced || forced } } else c
  | .pontil id => match s.nx? id with
    | some c => (s.setNx id { c with fid := none, forced := c.forced || forced }).nxRetry id
    | none => s
  | .cullet e => s.modCullet e fun c =>
      if outcome = 2 then c.killed r.fid
      else { c with queue := c.queue.map fun j => j.answered r.fid forced
                    parked := c.parked.map fun j => j.answered r.fid forced }
  | .host => s

/-- Whether a record's waiters are swapped out, so that its answer is kept (R395). -/
def State.kept (s : State) (r : FaultRec) : Bool :=
  match r.who with
  | .lanes key _ _ _ => !onCore (coreOf key)
  | .punty core _ | .lehr core => !onCore core
  | .marver tk => s.away tk
  | _ => false

/-- A record of a host access, to which the answer command is refused (R413). -/
def FaultRec.ofPort (r : FaultRec) : Bool := r.who == .host && r.words.getD 3 0 == word (2 ^ 64 - 1)

/-- Whether a record is of an ATS miss, which the host answers: ACC 4 (R364, R429). -/
def FaultRec.ofAts (r : FaultRec) : Bool := bits (r.words.getD 1 0) 31 29 = 4

/-- R365: command 0x06. An answer to a record that is not outstanding is ignored. -/
def execAnswerFault (fid : Nat) (outcome : BitVec 2) (s : State) : Host.Outcome State Fault Refusal :=
  .next <|
    match s.admin.faults.find? fun r => r.fid == fid with
    | none => s.status 0
    | some r =>
      if r.ofPort || r.ofAts || outcome = 3 then s.status 2
      else if s.kept r && outcome != 2 then
        { s.status 0 with admin := { (s.status 0).admin with faults := s.admin.faults.map fun q =>
            if q == r then { q with answer := some outcome } else q } }
      else (((s.withdraw fun q => q == r).applyAnswer r outcome.toNat).status 0).bump

/-! ### Fenced dies (R420 to R423) -/

/-- The healthy dies. -/
def State.healthy (s : State) : List Nat := (List.range 8).filter fun d => !s.work.fenced.contains d

/-- The index ranges of a fenced distributor that have no team yet go back to be granted again (R423). -/
def Launch.settleRanges (l : Launch) (die : Nat) : Launch :=
  { l with ranges := l.ranges.map fun r => if r.1 = die then (noDie, r.2) else r }

/-- R420 to R424: a die is fenced, which is reported: its gangs are killed, what its distributor had not placed is given out again, and
if it was the gaffer's, an election begins. -/
def State.fence (s : State) (die : Nat) : State :=
  if s.work.fenced.contains die then s
  else
    let s := { s with work := { s.work with
        fenced := insertNat die s.work.fenced
        election := s.work.election || s.work.gaffer == some die
        gaffer := if s.work.gaffer = some die then none else s.work.gaffer
        launches := s.work.launches.map fun (e : Nat × Launch) => (e.1, e.2.settleRanges die) } }
    let s := s.say (.fenceReport die)
    (s.work.teams.filter fun t => onCore t.2.core && dieOf t.2.core == die).foldl (fun (s : State) (t : Nat × Team) =>
      match s.launch? t.2.launch with
      | some l => s.kill ⟨t.2.launch, t.2.idx / l.gangSize, 0x0A, 0, 0, 0, 0, []⟩
      | none => s) s

/-- R420: command 0x0A, or a lasting error of the die. -/
def execFenceDie (die : Nat) (s : State) : Host.Outcome State Fault Refusal :=
  .next <| if die < 8 then ((s.fence die).status 0).bump else s.status 2

/-! ### Compute reset (R415, R416) -/

/-- The gangs of a launch that have a team left: resident, to be placed again, or not placed yet. -/
def State.openGangs (s : State) (lk : Nat) (l : Launch) : List Nat :=
  ((s.work.teams.filter fun t => t.2.launch == lk && !t.2.retired).map fun t => t.2.idx / l.gangSize) ++ l.again ++
    (l.ranges.map fun r => r.2.1 / l.gangSize) ++ if l.next < l.nteam then [l.next / l.gangSize] else []

/-- A running launch ends: ST 3, KIL, every team that has not retired failed. -/
def State.endLaunch (s : State) (lk : Nat) (l : Launch) : State :=
  let l := { l with
    tfail := l.nteam - l.tdone
    fgang := (s.openGangs lk l).foldl min l.fgang
    kil := true
    child := none }
  if s.reportWaits l then
    ((s.owe (l.report lk s.ns)).delLaunch lk).childDone none true 0 |>.freeMail l.mbox
  else
    let s := s.record l.tenant l.compl lk (l.completion lk s.ns)
    (s.delLaunch lk).afterRecord l true 0

/-- The card of a job that a compute reset ends (R415). -/
def State.resetJob (s : State) (j : Job) : State := s.devPut j.tenant (j.card + 32) (({ j with fail := none } : Job).cardBytes 5 0x27)

/-- What a compute reset does to a queue: disabled, its packets and CI kept. -/
def Queue.disabled (q : Queue) : Queue :=
  { q with en := false, kick := none, early := none, run := none, last := none, kids := [], issuers := [] }

/-- Everything that was resident or swapped out ends: launches with their records, engines' commands, waiters, fault records. The
connections stay, with what they know of the packets that they have taken. -/
def State.endAll (s : State) : State :=
  let gone := s.work.launches.map fun e => e.1
  let s := s.work.launches.foldl (fun (s : State) (e : Nat × Launch) => s.endLaunch e.1 e.2) s
  let jobs := s.eng.cullets.flatMap fun c => c.queue ++ c.parked.filter fun j => j.area.isNone || j.parked == some 0x28
  let s := jobs.foldl (fun s j => s.resetJob j) s
  { s with
    work := { s.work with
      gangs := [], teams := [], groups := [], ops := [], kills := [], starting := [], killing := [], children := []
      steps := [], lost := [], reserved := []
      cores := s.work.cores.filterMap fun (e : Nat × Core) =>
        if onCore e.1 then some (e.1, { Core.fresh with bslots := e.2.bslots, withdrawn := e.2.withdrawn }) else none
      gone := gone.foldl (fun l n => insertNat n l) s.work.gone }
    mem := { s.mem with waiters := [] }
    admin := { s.admin with
      faults := s.admin.faults.filter fun r => r.ofPort
      joined := []
      shadows := []
      partitions := s.admin.partitions.map fun p => { p with halted := false, halting := false, swap := none } }
    eng := { s.eng with
      nx := [], reds := [], redPosts := []
      counters := s.eng.counters.map fun (e : Nat × Counter) => (e.1, { e.2 with bind := none })
      cullets := s.eng.cullets.map fun c => ⟨[], c.parked.filter fun j => j.area.isSome && j.parked != some 0x28⟩ } }

/-- Whether a turn is of an agent outside the module. -/
def Turn.outside : Turn → Bool
  | .ev _ => true
  | _ => false

/-- Whether a turn is of an agent that a compute reset does not stop: one outside the module, or the memory keeper with its frame
engine, translation and ports (R312, R313). -/
def Turn.keeps : Turn → Bool
  | .ev _ => true
  | .int (.invalidationCompletion ..) | .int (.pageRequestTimeout ..) | .int (.splinter ..) | .int (.frameMigration ..)
  | .int (.cmpRestore ..) => true
  | _ => false

/-- R415: all compute work ends; queues are disabled, fault records withdrawn, connections closed, dies returned to service. -/
def State.computeReset (s : State) : State :=
  let s := s.endAll
  { s with
    agenda := s.agenda.filter Turn.keeps
    work := { s.work with
      queues := s.work.queues.map fun (e : Nat × Queue) => (e.1, e.2.disabled)
      fenced := [], gaffer := some 0, election := false }
    admin := { s.admin with faults := [] }
    eng := { s.eng with conns := [], dealt := [], puts := [], paid := [] }
    sec := { s.sec with tenants := s.sec.tenants.map fun (e : Nat × Tenant) => (e.1, { e.2 with jobKeys := [] }) } }

/-- R415: a compute reset. -/
def execComputeReset (s : State) : Host.Outcome State Fault Refusal := .next s.computeReset.bump

/-- R422: the distributor of the lowest-numbered healthy die becomes the gaffer; with none left, every running launch
ends as in a compute reset. -/
def execGafferElection (s : State) : Host.Outcome State Fault Refusal :=
  .next <|
    if !s.work.election then s
    else match s.healthy with
      | d :: _ => { s with work := { s.work with gaffer := some d, election := false } }
      | [] => { s.endAll with work := { s.endAll.work with election := false } }

/-! ### Partitions (R313, R391, R401) -/

/-- The partition that a command's die and benches form, with its place. -/
def State.partition? (s : State) (die : Nat) (benches : BitVec 8) : Option (Nat × Partition) :=
  (withIdx s.admin.partitions).find? fun e => e.2.die == die && e.2.benches == benches

/-- Changes a partition. -/
def State.modPartition (s : State) (i : Nat) (f : Partition → Partition) : State :=
  { s with admin := { s.admin with partitions := updAt f i s.admin.partitions } }

/-- The gangs with a team on some cores: launch and gang. -/
def State.gangsOn (s : State) (cores : List Nat) : List (Nat × Nat) :=
  ((s.work.teams.filter fun t => cores.contains t.2.core).filterMap fun t =>
    (s.launch? t.2.launch).map fun l => (t.2.launch, t.2.idx / l.gangSize)).eraseDups

/-- A gang's resident context is lost: nothing is conveyed, its teams count as failed. -/
def State.loseGang (s : State) (e : Nat × Nat) : State :=
  match s.launch? e.1 with
  | none => s
  | some l =>
    let teams := s.teamsOfGang e.1 e.2 l.gangSize
    let groups := s.gangGroups e.1 e.2 l.gangSize
    let s := groups.foldl (fun (s : State) (g : Nat × Group) => s.stopGroup g.1) s
    let s := s.withdraw fun r => r.launch == e.1 && r.gang == e.2
    let s := teams.foldl (fun (s : State) (t : Nat × Team) => s.freeTeam t.1 t.2) s
    let s := (s.unbind (indexKey e.1 e.2) isGangBar).delGang (indexKey e.1 e.2)
    let old := retiredCounts teams
    let s := s.modLaunch e.1 fun l =>
      { l with killed := true, tdone := l.tdone - old.1, tfail := l.tfail - old.2 }.fail e.2 l.gangSize
    let s := { s with work := { s.work with
        kills := s.work.kills.filter fun k => !k.of e.1 e.2
        starting := s.work.starting.filter fun k => !k.of e.1 e.2
        killing := s.work.killing.filter fun k => !k.kill.of e.1 e.2 } }
    teams.foldl (fun (s : State) (t : Nat × Team) => s.gateCount e.1 t.2.idx) s

/-- R313: a partition reset. The resident contexts of one partition are lost. -/
def execPartitionReset (die : Nat) (benches : BitVec 8) (s : State) : Host.Outcome State Fault Refusal :=
  .next <| match s.partition? die benches with
    | none => s.status 2
    | some (i, p) =>
      let s := (s.gangsOn p.cores).foldl State.loseGang s
      let s := p.cores.foldl (fun s c => s.modCore c fun k =>
        { Core.fresh with bslots := k.bslots, withdrawn := k.withdrawn }) s
      ((s.modPartition i fun p => { p with halted := false, halting := false, swap := none }).status 0).bump

end Sys2Proof.Machine
end

