-- ==== Sys2Proof/Machine/Frames.lean ====
section
/-! DEFINITION. The frame engine and the scrub (spec/09_memory_model.md R190, R191, spec/17_host_tenancy_security.md R308 to
R310, spec/23_memory_engine_host_failures.md R403 to R406), and the accesses of the host: the lend window, atomics, wake
windows, ATS and page requests (R205, R306, R307, R310, R315 to R319, R413, R414, R429). -/

namespace Sys2Proof.Machine

/-! ### Frames -/

/-- Empties a tenant's lines out of every L1 (R191, R308). -/
def State.l1Flush (s : State) (tenant : Nat) : State :=
  { s with work := { s.work with cores := s.work.cores.map fun (e : Nat × Core) =>
      (e.1, { e.2 with l1 := e.2.l1.filter fun l => !(l.tenant == tenant) }) } }

/-- Whether a frame may not be given to a tenant: it is the trusted base's or another tenant's. -/
def State.takenFrom (s : State) (tenant frame : Nat) : Bool := s.foreign tenant (4096 * frame)

/-- Whether a leaf of 4 KiB maps a frame and is in no other state of the frame engine. -/
def Leaf.mapsFrame (l : Leaf) (frame : Nat) : Bool :=
  l.shift = 12 && !bit l.e 52 && !bit l.e 53 && !bit l.e 55 && bits l.e 51 12 == frame

/-- Whether a leaf maps a frame, alone or among others. -/
def Leaf.covers (l : Leaf) (frame : Nat) : Bool := bits l.e 51 12 / 2 ^ (l.shift - 12) == frame / 2 ^ (l.shift - 12)

/-- Whether a leaf of 4 KiB is in no other state of the frame engine. -/
def Leaf.free (l : Leaf) : Bool := l.mapsFrame (bits l.e 51 12)

/-- The leaf of a page of a tenant, in its address space or in the host tenant table: the first of which a condition holds, else the
first. -/
def State.leafOf (s : State) (t : Tenant) (va : Nat) (p : Leaf → Bool) : Option Leaf :=
  let ls := t.roots.filterMap fun root => s.walk root va
  (ls.find? p) <|> ls.head?

/-- The leaves of some pages of a tenant, as far as they have one. -/
def State.leavesOf (s : State) (tenant : Nat) (pages : List Nat) (p : Leaf → Bool) : List Leaf :=
  match s.tenant? tenant with
  | some t => pages.filterMap fun va => s.leafOf t va p
  | none => []

/-- Whether every page named has a leaf of which a condition holds. -/
def State.allLeaves (s : State) (tenant : Nat) (pages : List Nat) (p : Leaf → Bool) : Bool :=
  (s.leavesOf tenant pages p).length = pages.length && (s.leavesOf tenant pages p).all p

/-- The tables that a table points to, and its leaves: entries of which memory lists nothing are not valid. -/
def State.tableLeaves (s : State) (shift table : Nat) : List Nat × List Leaf :=
  let locs := ((s.mem.bytes.filter fun e => e.1 / 4096 == table / 4096).map fun e => e.1 / 8 * 8).eraseDups
  let valid := locs.filter fun loc => bit (s.physWord loc) 0 && !malformed (s.physWord loc) shift (s.mem.spl.get? loc).isSome
  ((valid.filter fun loc => !bit (s.physWord loc) 1).map fun loc => bits (s.physWord loc) 51 12 * 4096,
    (valid.filter fun loc => bit (s.physWord loc) 1).map fun loc => ⟨s.physWord loc, loc, shift⟩)

/-- Every leaf below some tables. -/
def State.leavesUnder (s : State) : List Nat → List Nat → List Leaf
  | [], _ => []
  | shift :: rest, tables =>
    let r := tables.map (s.tableLeaves shift)
    r.flatMap (·.2) ++ s.leavesUnder rest (r.flatMap (·.1)).eraseDups

/-- The entries of a tenant that map the frame of an address: the frame in HBM, or the compressed frame at that capacity address. -/
def State.entriesOf (s : State) (t : Tenant) (pa : Nat) : List Nat :=
  ((s.leavesUnder [39, 30, 21, 12] t.roots).filter fun l => l.pa 0 / 2 ^ l.shift == pa / 2 ^ l.shift).map fun l => l.loc

/-- Performs the buffered stores of every lane that lie in a frame, before the frame moves (R198, R309). -/
def State.drainFrame (s : State) (frame : Nat) : State :=
  s.work.groups.foldl (fun (s : State) g => (List.range groupLanes).foldl (fun (s : State) l =>
    if (g.2.lane l).wcb.any fun e => e.1 / 4096 == frame then s.drainWcb g.1 l else s) s) s

/-- Copies n bytes of a frame from an offset on to another frame, with their poison (R404). -/
def State.copyFrame (s : State) (frame target off n : Nat) : State :=
  let a := 4096 * frame + off
  let b := 4096 * target + off
  let mine := (s.mem.psn.filter fun g => a / 8 ≤ g && g < (a + n) / 8).map fun g => g - a / 8 + b / 8
  { s with mem := { s.mem with
      bytes := s.mem.bytes.writeN b (s.physRead a n)
      psn := mine.foldl (fun l g => insertNat g l) (s.mem.psn.filter fun g => !(b / 8 ≤ g && g < (b + n) / 8)) } }

/-- Sets or clears the lock that a splinter holds on an entry (R191). -/
def State.lockEntry (s : State) (l : Leaf) (p : Splinter) : State :=
  let s := s.setPhysWord l.loc (l.e ||| word (2 ^ 55))
  { s with mem := { s.mem with spl := s.mem.spl.put l.loc p } }

/-- Replaces a migration by another of the same frame, or ends it. -/
def State.setMig (s : State) (frame : Nat) (m : Option Migration) : State :=
  { s with mem := { s.mem with migs := (s.mem.migs.filter fun k => !(k.frame == frame)) ++ m.toList } }

/-- The switch (R308 step 4): every line of the frame is in the new one, with its poison, as the writes made since its copy have kept
it; from here on each home passes what reaches it on to the other. A key under which the frame was shown meanwhile is that of the
first entry again (R326). -/
def State.switch (s : State) (m : Migration) : State :=
  let key := ((s.leavesOf m.tenant m.pages fun l => l.covers m.frame).head?.map Leaf.key).getD 0
  let s := (((s.viewAs m.frame key).copyFrame m.frame m.target 0 4096).newView m.target key)
  (s.modTenant m.tenant fun t => { t with
    reserve := t.reserve.filter fun k => !(k == m.target)
    frames := m.target :: t.frames.filter fun k => !(k == m.target) }).setMig m.frame (some { m with copied := some 65 })

/-- Whether an entry maps a frame while it migrates. -/
def mapsMoving (e : Word) (frame : Nat) : Bool := bit e 0 && bit e 1 && !bit e 52 && bits e 51 12 == frame

/-- The entry of one page is rewritten to name the new frame, with MIG clear (R308 step 5). -/
def State.migRewrite (s : State) (m : Migration) (va : Nat) : State :=
  match s.leavesOf m.tenant [va] fun l => l.covers m.frame with
  | [l] => if mapsMoving (s.physWord l.loc) m.frame then
      s.setEntry l.loc (withFrame (s.physWord l.loc) (4096 * m.target) false) else s
  | _ => s

/-- The end of a migration (R308 steps 5 and 6): what lanes still buffer of the old frame is performed, in both frames, the old
translations leave every L1, and the old frame is free. -/
def State.migEnd (s : State) (m : Migration) : State :=
  let s := (s.drainFrame m.frame).recallHost (4096 * m.frame) 4096
  ((s.modTenant m.tenant fun t => { t with frames := t.frames.filter fun k => !(k == m.frame) }).l1Flush m.tenant).setMig m.frame none

/-- Begins the migration of a frame: MIG is set in every entry that maps it. A large page that holds it is splintered first
(R191), and a migration whose pages do not map the frame is given up. -/
def State.migBegin (s : State) (m : Migration) : State :=
  let ls := s.leavesOf m.tenant m.pages fun l => l.covers m.frame
  if ls.any fun l => bit l.e 55 then s
  else match (m.pages.zip ls).find? fun e => e.2.shift != 12 with
    | some (va, l) => s.lockEntry l ⟨l.e, l.shift, m.tenant, va, false, none⟩
    | none =>
      if s.allLeaves m.tenant m.pages fun l => l.mapsFrame m.frame then
        (ls.foldl (fun (s : State) l => s.setEntry l.loc (s.physWord l.loc ||| word (2 ^ 53))) s).setMig m.frame
          (some { m with copied := some 0 })
      else s.setMig m.frame none

/-- A step of a migration (R308): it begins, copies the next line, whose host copy is recalled first, switches, rewrites the entry of
the next page, or ends. -/
def State.migStep (s : State) (m : Migration) : State :=
  match m.copied with
  | none => s.migBegin m
  | some n =>
    if n < 64 then
      ((s.recallHost (4096 * m.frame + 64 * n) 64).copyFrame m.frame m.target (64 * n) 64).setMig m.frame
        (some { m with copied := some (n + 1) })
    else if n = 64 then s.switch m
    else match m.pages[n - 65]? with
      | some va => (s.migRewrite m va).setMig m.frame (some { m with copied := some (n + 1) })
      | none => s.migEnd m

/-- R308, R309: a frame of a tenant, which some pages map, moves to a free frame. The first step takes the request; each further
one is a step of the migration, and no value that a read may return changes. -/
def execFrameMigration (tenant frame target : Nat) (pages : List Nat) (s : State) : Host.Outcome State Fault Refusal :=
  .next <| match s.mem.migs.find? fun m => m.frame == frame with
    | some m => (s.migStep m).bump
    | none =>
      if s.takenFrom tenant frame || s.takenFrom tenant target || pages.isEmpty || s.mem.migs.any (fun m => m.target == target) then s
      else (s.setMig frame (some ⟨tenant, frame, target, pages, none⟩)).bump

/-- The poisoned words of a frame once each 32-byte sector that holds one is poisoned whole (R380, R405). -/
def wholeSectors (psn : List Nat) : List Nat := (List.range 512).filter fun w => psn.any fun k => k / 4 == w / 4

/-- R190, R405: a cold frame of a tenant, which some pages map, is compressed into the capacity tier at a free capacity address,
and the entries that map it get CMP. What the lanes buffer of it is performed first. -/
def execCapacityTierEviction (tenant : Nat) (pages : List Nat) (cold : Nat) (s : State) : Host.Outcome State Fault Refusal :=
  .next <| match s.leavesOf tenant pages Leaf.free with
    | [] => s
    | l :: _ =>
      let frame := bits l.e 51 12
      let ls := s.leavesOf tenant pages fun l => l.mapsFrame frame
      if cold % 4096 ≠ 0 || cold < 2 ^ 40 || s.takenFrom tenant (cold / 4096) || (s.mem.cmp.get? cold).isSome ||
          s.takenFrom tenant frame || s.mem.migs.any (fun m => m.frame == frame || m.target == frame) || !(s.allLeaves tenant pages fun l => l.mapsFrame frame) then s
      else
        let s := ((s.drainFrame frame).recallHost (4096 * frame) 4096).viewAs frame l.key
        let c : Cold := ⟨tenant, s.physRead (4096 * frame) 4096, wholeSectors (s.framePsn (4096 * frame)),
          ls.map fun l => l.loc, frame, l.key⟩
        let s := { s with mem := { s.mem with cmp := s.mem.cmp.put cold c } }
        let s := ls.foldl (fun (s : State) l => s.setEntry l.loc (withFrame (s.physWord l.loc) cold true)) s
        ((s.modTenant tenant fun t => { t with
          frames := cold / 4096 :: t.frames.filter fun k => !(k == frame) }).l1Flush tenant).bump

/-- R190, R310: the frame engine restores the compressed frame that an entry maps, for an access by a compute die. -/
def execCmpRestore (r : Restore) (s : State) : Host.Outcome State Fault Refusal :=
  .next <| if bit (s.physWord r.pte) 52 then
      match s.restoreFrame r.pte r.va r.die with
      | some s => s.bump
      | none => s
    else s

/-- Entry i of the table that replaces a large entry (R191). -/
def splinterEntry (e : Word) (shift i : Nat) : Word :=
  let child := shift - 9
  (e &&& ~~~ word (2 ^ 55 + (2 ^ 40 - 1) * 2 ^ 12)) ||| word ((bits e 51 12 * 4096 + i * 2 ^ child) % 2 ^ 52) |||
    if child = 12 then word (2 ^ 11) else 0

/-- An entry after the permission change that asked for the splinter (R191 step 5). -/
def changedEntry (e : Word) (change : Option PermChange) (i : Nat) : Word :=
  match change with
  | some c =>
    if c.first ≤ i && i < c.first + c.count then
      (e &&& ~~~ word (7 * 2 ^ 6)) ||| word (b2n c.rd * 2 ^ 6 + b2n c.wr * 2 ^ 7 + b2n c.ex * 2 ^ 8)
    else e
  | none => e

/-- Step 3 of a splinter: all 512 entries of a table are written whole. -/
def State.fillTable (s : State) (t : Nat) (p : Splinter) : State :=
  (List.range 512).foldl (fun (s : State) i => s.setPhysWord (4096 * t + 8 * i) (splinterEntry p.entry p.shift i)) s

/-- Steps 2 to 5 of a splinter, with the permission change that asked for it, or one of its failures in the order of the steps:
an empty pool, a table page that reads uncorrectable, which the pool loses and which is returned marked bad, a large entry that
has changed (R191, R406). A migration that asked for a splinter that fails is given up. The pool of table pages is a list of its
own, apart from the tenant's frame reserve (DEDUCED, log entry 34). -/
def State.splinterEnd (s : State) (loc : Nat) (p : Splinter) : State :=
  let s := { s with mem := { s.mem with spl := s.mem.spl.del loc } }
  let e := s.physWord loc
  let back := fun (s : State) (status : Nat) =>
    let s := { s with mem := { s.mem with migs := s.mem.migs.filter fun m => !(m.tenant == p.tenant && m.copied.isNone && m.pages.contains p.va) } }
    (if bit e 0 && bit e 1 then s.setPhysWord loc (e &&& ~~~ word (2 ^ 55)) else s).say (.splinterDone loc status)
  match ((s.tenant? p.tenant).map Tenant.tablePool).getD [] with
  | [] => back s 1
  | t :: rest =>
    if p.bad then back ((s.modTenant p.tenant fun n => { n with tablePool := rest }).say (.pageBad t)) 3
    else if e != (p.entry ||| word (2 ^ 55)) then back (s.fillTable t p) 2
    else
      let s := (s.modTenant p.tenant fun n => { n with tablePool := rest }).fillTable t p
      let s := (s.setPhysWord loc (word (4096 * t + 1))).l1Flush p.tenant
      let s := (List.range 512).foldl (fun (s : State) i =>
        let at' := 4096 * t + 8 * i
        if changedEntry (s.physWord at') p.change i == s.physWord at' then s
        else s.setEntry at' (changedEntry (s.physWord at') p.change i)) s
      s.say (.splinterDone loc 0)

/-- R191: the large page of an address is splintered. The first step sets SPL; the walks of the page wait until the second
has replaced the entry or cleared SPL. -/
def execSplinter (tenant va : Nat) (cause : SplinterCause) (s : State) : Host.Outcome State Fault Refusal :=
  .next <| match (s.tenant? tenant).bind fun t => s.leafOf t va fun l => l.shift != 12 with
    | none => s
    | some l =>
      match s.mem.spl.get? l.loc with
      | some p => (s.splinterEnd l.loc p).bump
      | none =>
        if l.shift = 12 then s else s.lockEntry l ⟨l.e, l.shift, tenant, va, cause.badPage, cause.change⟩

/-! ### Scrubbing and retirement (R403, R404) -/

/-- A day in nanoseconds. -/
def dayNs : Nat := 86400000000000

/-- Poisons a 32-byte sector, and a compressed frame that lies there becomes unreadable (R405). -/
def State.poisonSector (s : State) (pa : Nat) : State :=
  { s with mem := { s.mem with
      psn := (granules (pa / 32 * 32) 32).foldl (fun l g => insertNat g l) s.mem.psn
      cmp := s.mem.cmp.upd (pa / 4096 * 4096) fun c => { c with psn := List.range 512 } } }

/-- Channels of capacity DRAM (R12). -/
def capacityChannels : Nat := 32

/-- R403, R404: a scrub corrects or poisons what it finds. WHERE is the stack of HBM or a channel, and the frame once it is
posted for retirement. -/
def execPatrolScrub (pa : Nat) (outcome : ScrubOutcome) (s : State) : Host.Outcome State Fault Refusal :=
  .next <|
    let channel := if pa < 2 ^ 40 then pa / 2 ^ 36 else Config.freeNat (2 ^ 45 + s.free) % capacityChannels
    let frame := pa / 4096
    match outcome with
    | .clean => s
    | .corrected =>
      if trustedBase ≤ pa then (s.count 4 false channel).bump
      else
        let times := ((s.mem.corr.get? frame).getD []).filter fun t => s.ns < t + dayNs
        let times := times ++ [s.ns]
        let s := { s with mem := { s.mem with corr := s.mem.corr.put frame times } }
        if 4 ≤ times.length then ((s.count 5 false frame).say (.frameRetired frame)).bump
        else (s.count 5 false channel).bump
    | .uncorrectable =>
      if trustedBase ≤ pa then
        ({ s with mem := { s.mem with psn := insertNat (pa / 8) s.mem.psn } }.count 4 true channel).bump
      else (((s.poisonSector pa).count 5 true frame).say (.frameRetired frame)).bump

/-! ### Errors of storage and links (R371, R372, R403, R417) -/

namespace Granule

/-- The census class of an error (R371): what a context image holds is a word of shadow storage, which is protected as the scratchpad
is (R393, R403), and counts as SRAM, as a word of hub SRAM does; that Ezwell's MRAM counts as DRAM is not said (log entry 17). -/
def entry : Granule → Nat
  | .queue g _ _ | .named g _ _ | .pred g _ _ | .uniform g _ => if onCore (coreOf g) then 0 else 4
  | .l1 .. => 2
  | .cache _ => 3
  | .scratch .. | .bstore .. | .ring .. | .dirty _ | .hub _ => 4
  | .mram => 5
  | .link _ => 6

/-- Where the census has it: CORE, the die, the port. -/
def loc (s : State) : Granule → Nat
  | .queue g _ _ | .named g _ _ | .pred g _ _ | .uniform g _ => coreReg g
  | .scratch tk _ => ((s.team? tk).map Team.core).getD 0
  | .bstore c _ _ | .ring c _ _ | .l1 c _ => c
  | .cache pa | .dirty pa => frameDie (pa / 4096)
  | .hub _ | .mram => 0
  | .link port => port

/-- Whether an error can last: a line of L1 is fetched again, a link sends again, and the copy of MRAM serves (R371, R403). -/
def lasts : Granule → Bool
  | .l1 .. | .mram | .link _ => false
  | _ => true

end Granule

/-- A value that cannot be recovered is poisoned at its granule (R380); a line leaves L1. -/
def State.poisonGranule (s : State) : Granule → State
  | .queue g l i => s.modGroup g fun k => k.mapLanes fun n e =>
      if n = l then { e with q := updAt (fun q => { q with psn := true }) i e.q } else e
  | .named g l i => s.modGroup g fun k => k.mapLanes fun n e =>
      if n = l then { e with n := updAt (fun r => { r with psn := true }) i e.n } else e
  | .pred g l i => s.modGroup g fun k => k.mapLanes fun n e =>
      if n = l then { e with p := updAt (fun r => { r with psn := true }) i e.p } else e
  | .uniform g i => s.modGroup g fun k => { k with k := updAt (fun r => { r with psn := true }) i k.k }
  | .scratch tk i => s.modTeam tk fun t => { t with scrPsn := insertNat i t.scrPsn }
  | .bstore c n i => s.modCore c fun k => { k with bslots := updAt (fun b => { b with psn := insertNat i b.psn }) n k.bslots }
  | .ring c n i => s.modTile c n fun t => { t with psn := insertNat i t.psn }
  | .l1 c i => s.modCore c fun k => { k with l1 := k.l1.eraseIdx i }
  | .cache pa => s.poisonSector pa
  | .dirty pa | .hub pa => { s with mem := { s.mem with psn := insertNat (pa / 8) s.mem.psn } }
  | .mram | .link _ => s

/-- An error of a storage or a link (R371): one that clears on the retry, or that the code corrects (R403), is counted; one that lasts
is counted and poisons its granule, and an error of a register file withdraws the core (R372). It is found when it arises, as if the
granule were read then (log entry 17). -/
def State.granuleError (s : State) (c : Granule) (lasting : Bool) : State :=
  let lasting := lasting && c.lasts
  let s := s.count c.entry lasting (c.loc s)
  if !lasting then (match c with
    | .l1 .. => s.poisonGranule c
    | _ => s)
  else
    let s := s.poisonGranule c
    match c with
    | .queue g _ _ | .named g _ _ | .pred g _ _ | .uniform g _ =>
      if onCore (coreOf g) then s.modCore (coreOf g) fun k => { k with withdrawn := true } else s
    | _ => s

/-! ### The lend window (R306, R307, R310, R413) -/

/-- Bytes of the overflow area of hub SRAM. -/
def overflowBytes : Nat := 2 ^ 24

/-- The 32-byte sectors that bytes touch. -/
def sectorsOf (a n : Nat) : List Nat := if n = 0 then [] else (List.range ((a + n - 1) / 32 - a / 32 + 1)).map (a / 32 + ·)

/-- The sectors that bytes cover whole. -/
def wholeOf (a n : Nat) : List Nat := (sectorsOf a n).filter fun k => a ≤ 32 * k && 32 * k + 32 ≤ a + n

/-- Whether a walk meets a poisoned entry (R405, R413). -/
def State.walkPsn (s : State) (va : Nat) : List Nat → Nat → Bool
  | [], _ => false
  | shift :: rest, table =>
    let loc := table + 8 * (va / 2 ^ shift % 512)
    let e := s.physWord loc
    if s.physPsn loc 8 then true
    else if !bit e 0 || malformed e shift (s.mem.spl.get? loc).isSome || bit e 1 then false
    else s.walkPsn va rest (bits e 51 12 * 4096)

/-- The record of a host access that is not served (R413). -/
def State.hostFault (s : State) (port tenant tsa : Nat) (write : Bool) : State :=
  (s.post ⟨tenant, tsa, 0, b2n write, 0, 0, port, 0, 0, word (2 ^ 64 - 1), none, 0⟩ .host 0).1

/-- What an access of the host meets: it does not reach the lend window; it is not served, with a record; or it goes on, at
an address of a tenant. -/
inductive HostAt where
  | outside
  | refused (s : State)
  | ok (s : State) (tenant : Nat) (t : Tenant) (tsa : Nat)

/-- Checks a host access. A splinter of the page's entry ends first, within the time that R406 allows it. -/
def State.hostAt (s : State) (port hpa : Nat) (acc : Acc) : HostAt :=
  let p := s.sec.ports.getD port Port.reset
  if !p.memActive || !p.programmed || hpa < p.base then .outside
  else match s.hostTenant with
    | none => .outside
    | some (n, _) =>
      let tsa := hpa - p.base
      let s := match (s.hostTenant.bind fun t => s.walk t.2.hostTable tsa).bind fun l => (s.mem.spl.get? l.loc).map fun p => (l.loc, p) with
        | some (loc, p) => s.splinterEnd loc p
        | none => s
      let write := acc != .read
      match s.tenant? n with
      | none => .outside
      | some t =>
        if t.quota ≤ tsa || s.walkPsn tsa [39, 30, 21, 12] t.hostTable then .refused (s.hostFault port n tsa write)
        else match s.walk t.hostTable tsa with
          | some l =>
            if !l.permits acc || s.foreign n (l.pa tsa) then .refused (s.hostFault port n tsa write)
            else .ok (if l.cmp then s.touch l acc else s.uses n l tsa acc) n t tsa
          | none => .ok s n t tsa

/-- What host bytes read as, and whether they are poisoned: a compressed frame is decompressed on the way, an absent page is
zero, and bytes that the overflow holds come from there. -/
def State.hostRead (s : State) (t : Tenant) (tsa n : Nat) : List Byte × Bool :=
  let r : List Byte × Bool := match s.walk t.hostTable tsa with
    | none => (List.replicate n 0, false)
    | some l =>
      let pa := l.pa tsa
      match if l.cmp then s.mem.cmp.get? (pa / 4096 * 4096) else none with
      | some c => (((c.shown (pa / 4096 * 4096) l.key).drop (pa % 4096)).take n, l.psn || poisonedRange c.psn (pa % 4096) n)
      | none => (s.physRead pa n, l.psn || s.physPsn pa n)
  ((withIdx r.1).map fun b => (s.mem.overflow.get? (tsa + b.1)).getD b.2,
    r.2 || (sectorsOf tsa n).any fun k => s.mem.overflowPsn.contains k)

/-- The host may hold a copy of the line of an address from now on (R305): of a page that has a frame or has none. -/
def State.lend (s : State) (t : Tenant) (tsa : Nat) : State :=
  match s.walk t.hostTable tsa with
  | some l => { s with mem := { s.mem with lent := s.mem.lent.put (l.pa tsa / 64) (tsa / 64) } }
  | none => { s with mem := { s.mem with lentAway := insertNat (tsa / 64) s.mem.lentAway } }

/-- A line of the host that reads uncorrectable at both attempts: it is poisoned, every entry of its frame gets POISON, the census
counts it, and the frame is posted (R310, R404). -/
def State.lineLost (s : State) (t : Tenant) (tsa : Nat) : State :=
  match s.walk t.hostTable tsa with
  | some l =>
    let pa := l.pa tsa
    let s := (s.entriesOf t pa).foldl (fun (s : State) loc => s.setEntry loc (s.physWord loc ||| word (2 ^ 54))) s
    (((s.poisonSector pa).poisonSector (pa + 32)).count 5 true (pa / 4096)).say (.frameRetired (pa / 4096))
  | none => s

/-- R307, R310, R413: a host read of a line of the lend window, which may read uncorrectable. Poisoned data carries no bytes
here. -/
def execHostMemrd (port : Nat) (read : HostRead) (s : State) : Host.Outcome State Fault Refusal :=
  .next <| match s.hostAt port (read.hpa / 64 * 64) .read with
    | .outside => s
    | .refused s => (s.say (.memData port read.hpa [] true)).bump
    | .ok s _ t tsa =>
      let s := if read.uncorrectable then s.lineLost t tsa else s
      let r := s.hostRead t tsa 64
      ((s.lend t tsa).say (.memData port read.hpa (if r.2 then [] else r.1) r.2)).bump

/-- Installs a leaf for an address, with tables from the tenant's pool where levels are absent (R306): none where the pool is
empty or an entry on the way is malformed. -/
def State.install (s : State) (n va : Nat) (leaf : Word → Word) : List Nat → Nat → Option State
  | [], _ => none
  | shift :: rest, table =>
    let loc := table + 8 * (va / 2 ^ shift % 512)
    let e := s.physWord loc
    if shift = 12 then (if bit e 0 then none else some (s.setPhysWord loc (leaf e)))
    else if bit e 0 then
      if bit e 1 || malformed e shift false then none else s.install n va leaf rest (bits e 51 12 * 4096)
    else match ((s.tenant? n).map Tenant.tablePool).getD [] with
      | [] => none
      | p :: ps =>
        let s := (s.physWrite (4096 * p) (List.replicate 4096 0) false).modTenant n fun t => { t with tablePool := ps }
        (s.install n va leaf rest (4096 * p)).map fun s => s.setPhysWord loc (word (4096 * p + 1))

/-- The leaf that the device installs for a host write: PLACE and KEY as software left them, read and write permitted, ACC
and DIRTY set (log entry 25). -/
def hostLeaf (frame : Nat) (e : Word) : Word :=
  (e &&& word (0x7F * 2 ^ 56)) ||| word (frame % 2 ^ 40 * 4096 + 0x6C3)

/-- Backs a page of the host with a zeroed frame (R306). -/
def State.backWith (s : State) (n : Nat) (t : Tenant) (tsa frame : Nat) : Option State :=
  ((s.physWrite (4096 * frame) (List.replicate 4096 0) false).install n tsa (hostLeaf frame) [39, 30, 21, 12] t.hostTable).map fun s =>
    (s.modTenant n fun t => { t with
      reserve := t.reserve.filter fun k => !(k == frame)
      frames := frame :: t.frames.filter fun k => !(k == frame) }).newView frame (((s.walk t.hostTable tsa).map Leaf.key).getD 0)
      |>.lendFound n tsa (4096 * frame)

/-- The frame that a host write takes from the reserve: on the stack that PLACE names for a host access, interleaved whatever
PLACE is (R190), where there is one, else any. -/
def State.hostFrame (s : State) (t : Tenant) (tsa : Nat) : Option Nat :=
  s.pickFrame t.reserve 0 tsa 0 none

/-- Writes clean host bytes, or poisoned ones, at one place of memory (R405, R413). -/
def State.hostPut (s : State) (pa : Nat) (bs : List Byte) (poison : Bool) : State :=
  let q := if poison then (sectorsOf pa bs.length).foldl (fun l k => (granules (32 * k) 32).foldl (fun l g => insertNat g l) l) s.mem.psn
    else s.mem.psn.filter fun g => !(wholeOf pa bs.length).contains (g / 4)
  { s with mem := { s.mem with
      bytes := s.mem.bytes.writeN pa bs, psn := q, orig := s.origAfter pa bs.length, runs := s.runsAfter pa bs.length } }

/-- Writes host bytes to physical memory (R405, R413), and in the other frame of a migration too (R308): poison covers every
sector that they touch; clean bytes clear the sectors that they cover whole, and the others stay as they are. -/
def State.hostStore (s : State) (pa : Nat) (bs : List Byte) (poison : Bool) : State :=
  (s.twins pa bs.length).foldl (fun (s : State) t => s.hostPut t.2.1 ((bs.drop t.1).take t.2.2) poison) (s.hostPut pa bs poison)

/-- Bytes as writes of whole sectors where all of a sector is there, and of single bytes elsewhere. -/
def sectorWrites (w : Sparse Byte) : List (Nat × List Byte) :=
  ((w.map fun e => e.1 / 32).eraseDups).flatMap fun g =>
    let mine := w.filter fun e => e.1 / 32 == g
    if mine.length = 32 then [(32 * g, mine.map (·.2))] else mine.map fun e => (e.1, [e.2])

/-- Moves the bytes that the overflow holds of a page into its frame. -/
def State.drainPage (s : State) (page pa : Nat) : State :=
  let mine := s.mem.overflow.filter fun e => e.1 / 4096 == page
  let bad := s.mem.overflowPsn.filter fun k => k / 128 == page
  let s := (sectorWrites mine).foldl (fun (s : State) e => s.hostStore (pa + e.1 % 4096) e.2 false) s
  let s := bad.foldl (fun (s : State) k => s.poisonSector (pa + 32 * (k % 128))) s
  { s with mem := { s.mem with
      overflow := s.mem.overflow.filter fun e => !(e.1 / 4096 == page)
      overflowPsn := s.mem.overflowPsn.filter fun k => !(k / 128 == page) } }

/-- Makes the page of a host write writable: restored from the capacity tier, or backed; its physical address, none while the
reserve is empty. -/
def State.hostPage (s : State) (n : Nat) (t : Tenant) (tsa : Nat) : Option (State × Nat) :=
  let found := fun (s : State) => (s.walk t.hostTable tsa).map fun l => (s.drainPage (tsa / 4096) (l.pa tsa / 4096 * 4096), l.pa tsa)
  match s.walk t.hostTable tsa with
  | some l => if l.cmp then (s.restoreFrame l.loc tsa none).bind found else found s
  | none => (s.hostFrame t tsa).bind fun f => (s.backWith n t tsa f).bind found

/-- Holds host bytes in the overflow area, or loses them where it is full (R306). -/
def State.hostOverflow (s : State) (port tsa : Nat) (bs : List Byte) (poison : Bool) : State :=
  let added := ((List.range bs.length).filter fun i => (s.mem.overflow.get? (tsa + i)).isNone).length
  if overflowBytes < s.mem.overflow.length + added then s.count 12 false port
  else
    let q := if poison then (sectorsOf tsa bs.length).foldl (fun l k => insertNat k l) s.mem.overflowPsn
      else s.mem.overflowPsn.filter fun k => !(wholeOf tsa bs.length).contains k
    State.say { s with mem := { s.mem with
      overflow := (withIdx bs).foldl (fun (m : Sparse Byte) b => m.put (tsa + b.1) b.2) s.mem.overflow
      overflowPsn := q } } (.overflowReport (tsa / 4096))

/-- Performs a host write that passed its checks. -/
def State.hostWrite (s : State) (port n : Nat) (t : Tenant) (tsa : Nat) (bs : List Byte) (poison : Bool) : State :=
  match s.hostPage n t tsa with
  | some (s, pa) => (s.hostStore pa bs poison).lend t tsa
  | none => s.hostOverflow port tsa bs poison

/-- R306, R413: a host write of up to a line of the lend window. -/
def execHostMemwr (port hpa : Nat) (data : List Byte) (poison : Bool) (s : State) : Host.Outcome State Fault Refusal :=
  .next <| match s.hostAt port hpa .write with
    | .outside => s
    | .refused s => (s.say (.memDone port hpa)).bump
    | .ok s n t tsa => ((s.hostWrite port n t tsa (data.take (64 - hpa % 64)) poison).say (.memDone port hpa)).bump

/-- The widths that a PCIe AtomicOp may have, in bytes (R205). -/
def atomicWidths : HostAtomic → List Nat
  | .cas => [4, 8, 16]
  | _ => [4, 8]

/-- The value that a PCIe AtomicOp leaves. -/
def atomicNew (op : HostAtomic) (width old operand compare : Nat) : Nat :=
  let m := 2 ^ (8 * width)
  match op with
  | .fetchAdd => (old + operand) % m
  | .swap => operand % m
  | .cas => if old = compare % m then operand % m else old

/-- Recalls the host's copies of an address of the lend window, which may have been changed (R205): of a page that has a frame. -/
def State.recallTsa (s : State) (t : Tenant) (tsa n : Nat) : State :=
  match s.walk t.hostTable tsa with
  | some l => if l.cmp then s else s.recallDirty (l.pa tsa) n
  | none => s

/-- R205: a PCIe AtomicOp. A misaligned one completes with Completer Abort and no effect; so do one that the lend window does
not serve and one on poisoned data (log entry 25). -/
def execHostAtomicop (port hpa : Nat) (op : HostAtomic) (width operand compare : Nat) (s : State) :
    Host.Outcome State Fault Refusal :=
  .next <|
    if !(atomicWidths op).contains width || hpa % width ≠ 0 then s.say (.completerAbort port hpa)
    else match s.hostAt port hpa .rmw with
      | .outside => s
      | .refused s => (s.say (.completerAbort port hpa)).bump
      | .ok s n t tsa =>
        let s := s.recallTsa t tsa width
        let r := s.hostRead t tsa width
        if r.2 then (s.say (.completerAbort port hpa)).bump
        else
          let old := leNat r.1
          let s := s.say (.backInvalidate (tsa / 64 * 64))
          ((s.hostWrite port n t tsa (leBytes width (atomicNew op width old operand compare)) false).say (.atomicDone port hpa old)).bump

/-- R306: the kernel supplies a frame for writes that the overflow holds. -/
def execHostOverflowDrain (page frame : Nat) (s : State) : Host.Outcome State Fault Refusal :=
  .next <| match s.hostTenant with
    | none => s
    | some (n, t) =>
      let tsa := 4096 * page
      let drained := fun (s : State) => match s.walk t.hostTable tsa with
        | some l => s.drainPage page (l.pa tsa / 4096 * 4096)
        | none => s
      let taken := s.takenFrom n frame
      if !(s.mem.overflow.any fun e => e.1 / 4096 == page) then s
      else match s.walk t.hostTable tsa with
        | some l =>
          if !l.cmp then (drained s).bump
          else if taken then s
          else match s.mem.cmp.get? (l.pa tsa / 4096 * 4096) with
            | some c => (drained (s.restoreTo (l.pa tsa / 4096 * 4096) c frame)).bump
            | none => s
        | none =>
          if taken then s
          else match s.backWith n t tsa frame with
            | some s => (drained s).bump
            | none => s

/-- A write of a wake register: the key's line is recalled, then the waiters are woken. A key outside the quota is dropped and
counted (R315). -/
def State.wakeByHost (s : State) (port : Nat) (value : Word) : State :=
  let key := bits value 47 0
  match s.hostTenant with
  | some (n, t) =>
    if t.quota ≤ key then s.count 13 false port
    else (((s.recallLine n key).wake n key (bits value 63 48) 0).1).bump
  | none => s.count 13 false port

/-- R315, R316: a host access to BAR 2 from the wake window on. Reads of a wake register, of a reserved offset and of another size
return zero; only an aligned 8-byte write of a wake register has an effect. -/
def execWakeWindowWrite (port offset : Nat) (access : BarAccess) (s : State) : Host.Outcome State Fault Refusal :=
  .next <| if 2 ≤ port || offset < kickWindow then s
    else match access with
      | .read _ => s.say (.barData port offset 0)
      | .write n v => if n ≠ 8 || offset % 8 ≠ 0 || offset < 0x10000 || 0x10200 ≤ offset then s else s.wakeByHost port v

/-! ### ATS and page requests (R317 to R319, R414, R429) -/

/-- Entries of a die's ATC. -/
def atcEntries : Nat := 4096

/-- Enters a translation in a die's ATC; which entry a full one gives up is a free choice. -/
def State.atcFill (s : State) (e : AtcEntry) : State :=
  let mine := s.mem.atc.filter fun k => k.die == e.die
  let out := if mine.length < atcEntries then none else mine[Config.freeNat (2 ^ 47 + s.free) % mine.length]?
  { s with mem := { s.mem with atc := (s.mem.atc.filter fun k => !(some k == out)) ++ [e] } }

/-- R429, R414: a Translation Completion for an outstanding request. -/
def execAtsTranslationCompletion (die pasid page : Nat) (answer : AtsAnswer) (s : State) : Host.Outcome State Fault Refusal :=
  .next <|
    let mine := fun (r : AtsReq) => r.die == die && r.pasid == pasid && r.page == page && r.answer.isNone
    if !s.mem.atsReqs.any mine then s
    else match answer with
      | .done hpa rd wr =>
        (State.atcFill { s with mem := { s.mem with atsReqs := s.mem.atsReqs.filter fun r => !mine r } }
          ⟨die, pasid, page, hpa, rd, wr⟩).bump
      | a =>
        let rs := s.mem.atsReqs.map fun r => if mine r then { r with answer := some a } else r
        State.bump { s with mem := { s.mem with atsReqs := rs } }

/-- R319, R414: an ATS Invalidation Request removes what matches at receipt; its completion follows. -/
def execAtsInvalidationRequest (pasid page : Nat) (all : Bool) (s : State) : Host.Outcome State Fault Refusal :=
  .next <| (State.plan { s with mem := { s.mem with atc := s.mem.atc.filter fun e =>
    !((all || e.pasid == pasid) && e.page == page) } } (.int (.invalidationCompletion pasid page))).bump

/-- R319: once every access of the old translation is performed, buffered stores among them, the completion is sent. -/
def execInvalidationCompletion (pasid page : Nat) (s : State) : Host.Outcome State Fault Refusal :=
  .next <| ((s.work.groups.foldl (fun (s : State) (g : Nat × Group) =>
    (List.range groupLanes).foldl (fun s l => s.drainWcb g.1 l) s) s).say (.invalidationDone pasid page)).bump

/-- The opcodes whose `.hv` access is a read. -/
def readOpcodes : List Nat := [0x90, 0x92, 0x95, 0x99, 0x9D, 0xAF]

/-- The page request of a record that found every request in use is sent once one is free (R414); a record whose answer is kept needs
none. -/
def State.nextRequest (s : State) : State :=
  let waits := s.admin.faults.filter fun r => r.ofAts && r.answer.isNone && !s.mem.pageReqs.any fun q => r.isAts q.pasid q.page
  match waits.head? with
  | some r =>
    let write := match r.who with
      | .lanes _ _ opc _ => !readOpcodes.contains opc
      | _ => false
    s.pageRequest (bits (r.words.getD 6 0) 31 0) (bits (r.words.getD 0 0) 47 12) write
  | none => s

/-- Forgets what the translation of a page gave, in every ATC, once its page request is answered (R318, R414). -/
def State.atsSettled (s : State) (pasid page : Nat) : State :=
  { s with mem := { s.mem with
      pageReqs := s.mem.pageReqs.filter fun q => !(q.pasid == pasid && q.page == page)
      atc := s.mem.atc.filter fun e => !(e.pasid == pasid && e.page == page)
      atsReqs := s.mem.atsReqs.filter fun r => !(r.pasid == pasid && r.page == page && r.answer.isSome) } }

/-- Keeps the answer to a record (R395). -/
def FaultRec.keep (r : FaultRec) (outcome : BitVec 2) (q : FaultRec) : FaultRec :=
  if q == r then { q with answer := some outcome } else q

/-- The lanes parked on a page request take its outcome: 0 they translate again, 1 they raise protection. -/
def State.settlePage (s : State) (pasid page : Nat) (outcome : BitVec 2) : State :=
  let s := s.atsSettled pasid page
  let s := ((s.admin.faults ++ s.admin.joined).filter fun r => r.isAts pasid page).foldl (fun (s : State) r =>
    if s.kept r then { s with admin := { s.admin with
      faults := s.admin.faults.map (r.keep outcome), joined := s.admin.joined.map (r.keep outcome) } }
    else (s.withdraw fun q => q == r).applyAnswer r outcome.toNat) s
  s.nextRequest

/-- R318: a PRG Response to an outstanding page request. -/
def execPrgResponse (pasid page : Nat) (success : Bool) (s : State) : Host.Outcome State Fault Refusal :=
  .next <| if s.mem.pageReqs.any (fun q => q.pasid == pasid && q.page == page) then
      (s.settlePage pasid page (if success then 0 else 1)).bump
    else s

/-- R318: a page request that no response answers within 1 s. -/
def execPageRequestTimeout (pasid page : Nat) (s : State) : Host.Outcome State Fault Refusal :=
  .next <| if s.mem.pageReqs.any (fun q => q.pasid == pasid && q.page == page && q.sent + 1000000000 ≤ s.ns) then
      let at' := ((s.admin.faults.find? fun r => r.isAts pasid page).map fun r => bits (r.words.getD 1 0) 10 0).getD 0
      ((s.settlePage pasid page 1).count 14 false at').bump
    else s

end Sys2Proof.Machine
end

