-- ==== Sys2Proof/Machine/Sequencer.lean ====
section
/-! DEFINITION. The sequencers: streams, line fetches, the choice of streams each cycle, holds, sweeps, and the completion
of long-latency work (spec/02_execution_model.md R30 to R32, R50, spec/03_architectural_state.md R57, R71 to R74,
spec/16_launch_queues_scheduling.md R303, spec/20_faults_traps_parking.md R358, R363, R368). -/

namespace Sys2Proof.Machine

/-! ### Streams (R30, R31) -/

/-- A stream of a group: its PC, the lanes of its issue set and its slices, lowest first. -/
structure Stream where
  pc : Word
  mask : LaneMask
  slices : List Nat
  deriving DecidableEq, Repr

/-- The active lanes of a group at a PC, in some slices. -/
def Group.lanesAt (g : Group) (pc : Word) (slices : List Nat) : LaneMask :=
  maskOf fun l => slices.contains (l / 4) && (g.lane l).status = .active && (g.lane l).pc == pc

/-- The minimum PC of every slice that has one. -/
def Group.minima (g : Group) : List (Nat × Word) :=
  (List.range 8).filterMap fun i => (g.minPc i).map fun p => (i, p)

/-- Collects slices of equal minima, in order of their lowest slice. -/
def gangSlices (g : Group) : List (Nat × Word) → List Word → List Stream
  | [], _ => []
  | (_, p) :: rest, seen =>
    if seen.contains p then gangSlices g rest seen
    else
      let slices := (g.minima.filter fun e => e.2 == p).map fun e => e.1
      ⟨p, g.lanesAt p slices, slices⟩ :: gangSlices g rest (p :: seen)

/-- The streams of a group: slices of equal minima are ganged. -/
def Group.streams (g : Group) : List Stream := gangSlices g g.minima []

/-- The stream that a slice belongs to. -/
def Group.streamOf (g : Group) (slice : Nat) : Option Stream := g.streams.find? fun t => t.slices.contains slice

/-- Whether the groups of a team may issue: released, its gang neither killed nor being killed, its partition running. -/
def State.mayIssue (s : State) (tk : Nat) : Bool :=
  match s.team? tk with
  | none => false
  | some t => match s.launch? t.launch with
    | none => false
    | some l => t.released && !s.dying t.launch (t.idx / l.gangSize) && s.coreRuns t.core

/-! ### Lines (R71 to R73) -/

/-- The line word of a fetched line. -/
def LineBuf.word (b : LineBuf) : BitVec 32 := b.bits.extractLsb' 480 32

/-- The instruction word in a slot. -/
def LineBuf.slot (b : LineBuf) (n : Nat) : BitVec 96 := b.bits.extractLsb' (96 * n) 96

/-- Whether the line word breaks R73: a wrong version, a nonzero reserved bit, or adjacent pairs. -/
def LineBuf.malformed (b : LineBuf) : Bool :=
  let w := b.word
  b.bad || !w.getLsbD 0 || w.extractLsb' 6 7 != 0 || (List.range 3).any fun i => w.getLsbD (23 + i) && w.getLsbD (24 + i)

/-- Whether a slot is a reconvergence point. -/
def LineBuf.conv (b : LineBuf) (n : Nat) : Bool := b.word.getLsbD (1 + n)

/-- Even parity of some bits of a line word and a half of a slot (R72): the count of ones is odd. -/
def oddOnes (n x : Nat) : Bool := ((List.range n).filter fun i => x.testBit i).length % 2 = 1

/-- Whether a line's parity bits disagree with its slots. -/
def parityWrong (bits : BitVec 512) : Bool :=
  let w := bits.extractLsb' 480 32
  (List.range 10).any fun i => w.getLsbD (13 + i) != oddOnes 48 (bits.extractLsb' (48 * i) 48).toNat

/-- The line as memory holds it, once it has been fetched. -/
def State.lineAt (s : State) (addr pa : Nat) : LineBuf :=
  let v := BitVec.ofNat 512 (s.mem.bytes.readNat pa 64)
  ⟨addr, v, s.physPsn pa 64, parityWrong v⟩

/-- The line buffer that a stream issues from: any of its slices' that holds its line. -/
def Group.lineFor (g : Group) (t : Stream) : Option LineBuf :=
  (t.slices.filterMap fun i => (g.slices.getD i Slice.fresh).line).find? fun b => b.addr = lineOf t.pc

/-- Changes some slices of a group. -/
def Group.modSlices (g : Group) (p : Nat → Bool) (f : Slice → Slice) : Group :=
  { g with slices := (withIdx g.slices).map fun e => if p e.1 then f e.2 else e.2 }

/-- Lanes of a group park at a PC whose line lies in a page that is not present (R363, R364). -/
def State.fetchPark (s : State) (key : Nat) (g : Group) (m : LaneMask) (pc : Word) (line : Nat) : State :=
  match s.team? g.team with
  | some t => match s.launch? t.launch with
    | some l =>
      s.parkLanes key m
        { tenant := l.tenant, va := line, mask := m, acc := 3, space := 0, lslot := t.launch, core := coreReg key,
          team := t.idx, grp := g.gid, pc := pc, resume := none, pasid := 0 } (t.idx / l.gangSize) 0 ((lanesOf m).map fun l => (l, word line))
    | none => s
  | none => s

/-- A fetch that faults parks every active lane of each stream whose minimum PC lies in the line (R363). -/
def State.fetchFault (s : State) (key : Nat) (g : Group) (line : Nat) : State :=
  let ts := g.streams.filter fun t => lineOf t.pc = line
  s.fetchPark key g (ts.foldl (fun m t => m ||| t.mask) 0) (((ts.map fun t => t.pc).head?).getD 0) line

/-- A gang of a group is killed for what happened at its fetch. -/
def State.fetchKill (s : State) (key : Nat) (g : Group) (reason : Nat) (pc : Word) : State :=
  match s.team? g.team with
  | some t => match s.launch? t.launch with
    | some l => s.kill ⟨t.launch, t.idx / l.gangSize, reason, 0, coreReg key, pc, 0, []⟩
    | none => s
  | none => s

/-- Lines that a quarter fetches in a cycle (R71). -/
def lineQuota : Nat := 2

/-- The state in which a quarter of a core has fetched one line more in this cycle; none where it has fetched all it may. -/
def State.fetchSlot (s : State) (core quarter : Nat) : Option State :=
  let n := match (s.core core).fetched.get? quarter with
    | some (c, n) => if c = s.cycle then n else 0
    | none => 0
  if n < lineQuota then some (s.modCore core fun k => { k with fetched := k.fetched.put quarter (s.cycle, n + 1) }) else none

/-- What a fetch of a line gives: the line and what a parity mismatch leaves of it, or what stops it. -/
inductive Fetched where
  | line (s : State) (b : LineBuf)
  | lost (s : State)
  | pageFault
  | trap (cause : Nat)
  | poison
  | later (s : State)

/-- A fetch of the line at an address for a core, with what a parity mismatch that the line as stored does not explain did:
it clears on the second fetch, or is a lasting error of the fetch path and withdraws the core (R73, R371, R372). -/
def State.fetch (s : State) (core tenant line loc : Nat) (err : ErrClass) : Fetched :=
  match State.xlate { s with cur := .engine core } tenant line .fetch with
  | .ok s' pa _ _ =>
    let s := { s' with cur := s.cur }
    let b := s.lineAt line pa
    if b.bad then .line s b
    else match err with
      | .none => .line s b
      | .transient => .line (s.count 1 false loc) b
      | .lasting => .lost ((s.count 1 true loc).modCore core fun c => { c with withdrawn := true })
  | .pageFault => .pageFault
  | .trap c => .trap c
  | .poison => .poison
  | .later s' => .later { s' with cur := s.cur }

/-- R71 to R73, R363: the line of a slice's stream is fetched into its line buffers. `err` is what a parity mismatch in
the core's fetch path did. -/
def execLineFetch (core slot slice : Nat) (err : ErrClass) (s : State) : Host.Outcome State Fault Refusal :=
  .next <|
    let key := groupKey core slot
    match s.group? key with
    | none => s
    | some g => match g.streamOf slice, (s.launchOf g.team) with
      | some t, some l =>
        let line := lineOf t.pc
        if (g.lineFor t).isSome || !s.mayIssue g.team then s
        else match s.fetchSlot core (quarterOf key) with
        | none => s
        | some s => match s.fetch core l.tenant line (coreReg key) err with
          | .line s b => (s.modGroup key fun g => g.modSlices t.slices.contains fun c => { c with line := some b }).bump
          | .lost s => (s.fetchKill key g 5 t.pc).bump
          | .pageFault => s.fetchFault key g line
          | .trap c => (g.streams.filter fun t => lineOf t.pc = line).foldl (fun (s : State) (t : Stream) =>
              s.takeTraps key t.pc 0 ((lanesOf t.mask).map fun l => ⟨l, c, 0, word line⟩)) s
          | .poison => s.fetchKill key g 1 t.pc
          | .later s => s
      | _, _ => s

/-! ### What the environment brings -/

/-- The outcome of a check of a storage or engine: a hardware error is what the environment brings, a free choice (R371). -/
def State.drawErr (s : State) (k : Nat) : ErrClass :=
  match Config.freeNat (2 ^ 82 + s.free * 2 ^ 24 + k) % 3 with
  | 0 => .none
  | 1 => .transient
  | _ => .lasting

/-- The outcome of the check of a line that is fetched for a sweep or a step. -/
def State.lineErr (s : State) (key slice : Nat) : ErrClass := s.drawErr (2 ^ 19 + key * 8 + slice)

/-! ### Candidates (R32, R63, R76, R161, R303) -/

/-- Fields of an instruction word (R75): WAIT, SET1, SET2, DIST. -/
def wordWait (w : BitVec 96) : BitVec 12 := w.extractLsb' 59 12
def wordSets (w : BitVec 96) : List Nat :=
  let a := (w.extractLsb' 55 4).toNat
  let b := (w.extractLsb' 51 4).toNat
  ([a] ++ (if b = a then [] else [b])).filter fun f => f < 12
def wordDist (w : BitVec 96) : Nat := (w.extractLsb' 48 3).toNat

/-- One more than the latest cycle in which a lane of a stream issued. -/
def Group.lastIssue (g : Group) (m : LaneMask) : Nat := maxOf ((lanesOf m).map fun l => (g.lane l).issued)

/-- Whether DIST cycles, and at least one, have passed since a stream's last issue (R76). -/
def Group.distOk (g : Group) (m : LaneMask) (w : BitVec 96) (now : Nat) : Bool :=
  let n := g.lastIssue m
  n = 0 || n - 1 + max 1 (wordDist w) ≤ now

/-- Whether the flags let an instruction issue (R63 items 4 and 5). -/
def Group.flagsOk (g : Group) (w : BitVec 96) : Bool :=
  ((List.range 12).all fun i => !(wordWait w).getLsbD i || g.flags.getD i 0 = 0) &&
    (wordSets w).all fun i => g.flags.getD i 0 < 15

/-- Whether a stream stands at a reconvergence point above another stream of its group (R32). -/
def Group.heldBack (g : Group) (t : Stream) (b : LineBuf) : Bool :=
  b.conv (t.pc.toNat % 8) && !(t.slices.any fun i => (g.slices.getD i Slice.fresh).unheld) &&
    g.streams.any fun u => u.pc.toNat < t.pc.toNat

/-- The breakpoints of a team that are enabled (R367). -/
def Team.breaks (t : Team) : List Word :=
  (withIdx t.bps).filterMap fun e => if bit t.dctl (24 + e.1) then some e.2 else none

/-- The lanes of a stream that stop at a breakpoint before they issue (R368). -/
def State.stops (s : State) (g : Group) (t : Stream) : List Nat :=
  match s.team? g.team with
  | some m => if m.breaks.contains t.pc && (s.launch? m.launch).all fun l => s.modeOk l.tenant m then (lanesOf t.mask).filter fun l => !(g.lane l).stepBp else []
  | none => []

/-- The groups of a quarter that may issue: (key, group). -/
def State.quarterGroups (s : State) (core quarter : Nat) : List (Nat × Group) :=
  s.work.groups.filter fun e =>
    coreOf e.1 == core && quarterOf e.1 == quarter && e.2.stage = .running && s.mayIssue e.2.team

/-- Backward-taken branches after which a slice sweeps (R50). -/
def sweepLimit : Nat := 4096

/-- The stream of a sweep: the lanes of a slice at the next distinct PC above the minimum. -/
def Group.sweep (g : Group) (slice : Nat) : Option Stream :=
  match g.minPc slice with
  | none => none
  | some m =>
    let above := (List.range 4).filterMap fun i =>
      let e := g.lane (slice * 4 + i)
      if e.status = .active && m.toNat < e.pc.toNat then some e.pc else none
    match above with
    | [] => none
    | p :: t =>
      let pc := t.foldl (fun (a : Word) b => if b.toNat < a.toNat then b else a) p
      some ⟨pc, g.lanesAt pc [slice], [slice]⟩

/-- Whether a slice's count calls for a sweep. -/
def Group.sweepDue (g : Group) (slice : Nat) : Bool :=
  sweepLimit ≤ (g.slices.getD slice Slice.fresh).count && (g.sweep slice).isSome

/-- Whether an instruction that would issue as `x` does not: it passes every check, and then a queue that it enters is full, the
pending count of its tag cannot rise, or a tag that it waits for is not ready (R65, R254, R261, R268, R277, R332, R346). One that
faults issues, and traps. -/
def State.stays (s : State) (x : Ctx) : Bool :=
  match x.v.f with
  | .e f =>
    s.reaches x &&
      (if x.opc = 0x7D || x.opc = 0x7E then s.launchStays x f
       else if x.opc = 0xC6 || x.opc = 0xC7 then s.tagStays x f
       else if x.opc = 0xCA || x.opc = 0xCB then s.culletStays x f
       else if x.opc ≤ 0xC5 || x.opc = 0xCC || x.opc = 0xCE then s.cpStays x f
       else if 0xD0 ≤ x.opc && x.opc ≤ 0xD8 then s.ringStays x f
       else if 0xD9 ≤ x.opc && x.opc ≤ 0xDD then s.pontilStays x f
       else false)
  | _ => false

/-- Whether the instruction in a slot does not issue for some lanes of a group. -/
def State.slotHolds (s : State) (key : Nat) (m : LaneMask) (pc : Word) (w : BitVec 96) : Bool :=
  match decodeSlot w with
  | .ok i => (({ s with cur := .stream (coreOf key) (slotOf key) m pc }).ctx? i).any s.stays
  | .error _ => false

/-- The pipe of an opcode (R88): 0 arithmetic, 1 branch and synchronisation, 2 memory and engine. -/
def pipeOf (opc : Nat) : Nat := if opc < 0x70 then 0 else if opc < 0x90 then 1 else 2

/-- The opcode of an instruction word. -/
def wordOpc (w : BitVec 96) : Nat := (w.extractLsb' 88 8).toNat

/-- The key of the arithmetic pipe of a slice. -/
def pipeKey (key slice : Nat) : Nat := 8 * quarterOf key + slice

/-- Whether the pipes of some slices take an instruction in this cycle (R88). -/
def State.pipeFree (s : State) (key : Nat) (slices : List Nat) (w : BitVec 96) : Bool :=
  pipeOf (wordOpc w) != 0 || slices.all fun i => ((s.core (coreOf key)).pipes.get? (pipeKey key i)).getD 0 ≤ s.cycle

/-- An issue of 0x50 to 0x55 occupies the arithmetic pipe of its slices for two cycles (R88). -/
def State.occupy (s : State) (key : Nat) (slices : List Nat) (w : BitVec 96) : State :=
  if 0x50 ≤ wordOpc w && wordOpc w ≤ 0x55 then
    s.modCore (coreOf key) fun c => { c with pipes := slices.foldl (fun p i => p.put (pipeKey key i) (s.cycle + 2)) c.pipes }
  else s

/-- Whether a stream could issue in this cycle, were it not for `yield`. A slice whose sweep is due issues from its next PC
alone (R50); while the instruction there is not ready to issue, the slice's minimum is held, which the spec does not say
(DESIGN CHOICE, log entry 28). -/
def State.eligible (s : State) (key : Nat) (g : Group) (t : Stream) : Bool :=
  match g.lineFor t with
  | some b =>
    let w := b.slot (t.pc.toNat % 8)
    g.distOk t.mask w s.cycle && g.flagsOk w && !g.heldBack t b && (s.stops g t).isEmpty && !t.slices.any g.sweepDue &&
      s.pipeFree key t.slices w && !s.slotHolds key t.mask t.pc w
  | none => false

/-- Whether `yield` holds a stream (R161): another eligible stream of one of its slices has not been chosen since. -/
def State.yielding (s : State) (key : Nat) (t : Stream) (others : List (Nat × Group × Stream)) : Bool :=
  match s.group? key with
  | some g =>
    t.slices.any fun i => match (g.slices.getD i Slice.fresh).yield with
      | some until' => s.cycle < until' && others.any fun o =>
          o.1 != key && o.2.2.slices.contains i && o.2.1.lastIssue o.2.2.mask + 64 ≤ until' + 1
      | none => false
  | none => false

/-- The slices of a quarter that have been granted in this cycle. -/
def State.granted (s : State) (core quarter : Nat) : List Nat :=
  (List.range 8).filter fun i => s.work.groups.any fun e =>
    coreOf e.1 == core && quarterOf e.1 == quarter &&
      (List.range 4).any fun j => (e.2.lane (4 * i + j)).issued = s.cycle + 1

/-- Whether 32 cycles have passed since a stream's last issue (R303). -/
def Group.oldIssue (g : Group) (m : LaneMask) (now : Nat) : Bool := g.lastIssue m + 31 ≤ now

/-- A candidate with its group and PRIO, and whether it is aged. -/
structure Candidate where
  key : Nat
  g : Group
  t : Stream
  prio : Nat
  aged : Bool
  deriving DecidableEq, Repr

/-- A stream as a candidate. It is aged where a slice of it bears the mark and its own last issue is as old: one formed by a split or
a merge takes that value from its lanes. -/
def State.candidate (s : State) (key : Nat) (g : Group) (t : Stream) : Candidate :=
  ⟨key, g, t, ((s.launchOf g.team).map fun l => l.prio).getD 0,
    (t.slices.any fun i => (g.slices.getD i Slice.fresh).aged) && g.oldIssue t.mask s.cycle⟩

/-- The lowest slice of a stream. -/
def Stream.first (t : Stream) : Nat := (t.slices.head?).getD 8

/-- The rank of R303, as numbers of which the smaller come first. -/
def Candidate.rank (c : Candidate) : List Nat :=
  [b2n (!c.aged), 3 - c.prio, 8 - c.t.slices.length, c.g.lastIssue c.t.mask, slotOf c.key, c.t.first]

/-- Whether a list of numbers comes before another. -/
def lexLe : List Nat → List Nat → Bool
  | a :: t, b :: u => a < b || (a = b && lexLe t u)
  | _, _ => true

/-- Inserts a candidate by rank. -/
def insertCand (c : Candidate) : List Candidate → List Candidate
  | [] => [c]
  | d :: t => if lexLe c.rank d.rank then c :: d :: t else d :: insertCand c t

/-- The candidates of a quarter, in rank order. -/
def State.candidates (s : State) (core quarter : Nat) : List Candidate :=
  let all := (s.quarterGroups core quarter).flatMap fun e =>
    (e.2.streams.filter fun t => s.eligible e.1 e.2 t).map fun t => (e.1, e.2, t)
  let cs := (all.filter fun e => !s.yielding e.1 e.2.2 all).map fun e => s.candidate e.1 e.2.1 e.2.2
  cs.foldr insertCand []

/-- Grants candidates in rank order, skipping those with a slice already granted. -/
def grant : List Candidate → List Nat → List Candidate
  | [], _ => []
  | c :: t, used => if c.t.slices.any used.contains then grant t used else c :: grant t (used ++ c.t.slices)

/-- Keeps the record of holds (R32): a hold starts with the first cycle in which it acts and is forgotten when it does
not. -/
def Group.holds (g : Group) (now : Nat) : Group :=
  let held := g.streams.filter fun t => match g.lineFor t with
    | some b => g.heldBack t b
    | none => false
  { g with slices := (withIdx g.slices).map fun e =>
      if held.any fun t => t.slices.contains e.1 then { e.2 with hold := some (e.2.hold.getD now) }
      else { e.2 with hold := none } }

/-- Marks a stream that is eligible and has had no grant for 32 cycles (R303). -/
def State.age (s : State) (key : Nat) (g : Group) (t : Stream) : State :=
  if s.eligible key g t && g.oldIssue t.mask s.cycle then
    s.modGroup key fun g => g.modSlices t.slices.contains fun c => { c with aged := true }
  else s

/-- R303: a quarter grants issue to streams; each granted stream issues one instruction. -/
def execIssueChoice (core quarter : Nat) (s : State) : Host.Outcome State Fault Refusal :=
  .next <|
    let s := (s.quarterGroups core quarter).foldl (fun (s : State) (e : Nat × Group) =>
      s.modGroup e.1 fun g => g.holds s.cycle) s
    let s := (s.quarterGroups core quarter).foldl (fun (s : State) (e : Nat × Group) =>
      e.2.streams.foldl (fun (s : State) t => s.age e.1 e.2 t) s) s
    let gs := grant (s.candidates core quarter) (s.granted core quarter)
    { s with agenda := gs.map (fun c => .issue core (slotOf c.key) c.t.mask) ++ s.agenda }

/-- R303: a candidate without a grant for 32 cycles becomes aged. -/
def execStreamAged (core slot slice : Nat) (s : State) : Host.Outcome State Fault Refusal :=
  .next <|
    let key := groupKey core slot
    match s.group? key with
    | none => s
    | some g => match g.streamOf slice with
      | some t => s.age key g t
      | none => s

/-- Cycles that a hold lasts (R32). -/
def holdCycles : Nat := 256

/-- R32: 256 cycles pass from the start of a hold: the stream is free until it has issued a backward-taken branch. -/
def execReconvergenceHoldExpiry (core slot slice : Nat) (s : State) : Host.Outcome State Fault Refusal :=
  .next <|
    let key := groupKey core slot
    match s.group? key with
    | none => s
    | some g => match g.streamOf slice, (g.slices.getD slice Slice.fresh).hold with
      | some t, some n => if n + holdCycles ≤ s.cycle then
          s.modGroup key fun g => g.modSlices t.slices.contains fun c => { c with hold := none, unheld := true }
        else s
      | _, _ => s

/-- Lanes of a stream stop at a breakpoint (R368). -/
def State.stopAt (s : State) (key : Nat) (t : Stream) (ls : List Nat) : State :=
  let s := s.modGroup key fun g => g.mapLanes fun l e => if ls.contains l then { e with stepBp := true } else e
  s.debugStop key (maskOf ls.contains) t.pc 0

/-- The sweep of a slice whose line is there issues, if its instruction may; then the count is reset (R50). -/
def State.sweepGo (s : State) (key slice : Nat) (g : Group) (t : Stream) (b : LineBuf) : State :=
  let w := b.slot (t.pc.toNat % 8)
  if g.distOk t.mask w s.cycle && g.flagsOk w && s.pipeFree key [slice] w && !s.slotHolds key t.mask t.pc w then
    let s := s.modGroup key fun g => g.modSlices (· == slice) fun c => { c with count := 0, high := none }
    { s.bump with agenda := .issue (coreOf key) (slotOf key) t.mask :: s.agenda }
  else s

/-- R50: a slice issues once from the next PC above its minimum, whose line is fetched first. -/
def execSweepIssue (core slot slice : Nat) (s : State) : Host.Outcome State Fault Refusal :=
  .next <|
    let key := groupKey core slot
    match s.group? key with
    | none => s
    | some g => match g.sweep slice, s.launchOf g.team with
      | some t, some l =>
        if !g.sweepDue slice || !s.mayIssue g.team || (s.granted core (quarterOf key)).contains slice then s
        else if !(s.stops g t).isEmpty then s.stopAt key t (s.stops g t)
        else match g.lineFor t with
        | some b => s.sweepGo key slice g t b
        | none => match s.fetchSlot core (quarterOf key) with
          | none => s
          | some s => match s.fetch core l.tenant (lineOf t.pc) (coreReg key) (s.lineErr key slice) with
            | .line s b =>
              (s.modGroup key fun g => g.modSlices (· == slice) fun c => { c with line := some b }).sweepGo key slice g t b
            | .lost s => (s.fetchKill key g 5 t.pc).bump
            | .later s => s
            | .pageFault => s.fetchPark key g t.mask t.pc (lineOf t.pc)
            | .trap c => s.takeTraps key t.pc 0 ((lanesOf t.mask).map fun l => ⟨l, c, 0, word (lineOf t.pc)⟩)
            | .poison => s.fetchKill key g 1 t.pc
      | _, _ => s

/-- R161: the 64 cycles of a `yield` pass. -/
def execYieldExpiry (core slot slice : Nat) (s : State) : Host.Outcome State Fault Refusal :=
  .next <| s.modGroup (groupKey core slot) fun g => g.modSlices (· == slice) fun c =>
    match c.yield with
    | some n => if n ≤ s.cycle then { c with yield := none } else c
    | none => c

/-- R175: TIME reaches the target of a waiting `twait`, whose lane pushes it. -/
def execTwaitExpiry (core slot lane : Nat) (s : State) : Host.Outcome State Fault Refusal :=
  .next <|
    let key := groupKey core slot
    match s.group? key with
    | none => s
    | some g =>
      let e := g.lane lane
      if onCore core && e.status = .waiting && e.wait.kind = .twait && e.wait.obj.toNat ≤ s.ns then
        s.resume key lane [(word s.ns, false)] none
      else s

/-- R368: the lanes of an issue set at an enabled breakpoint stop before the instruction issues, once. -/
def execBreakpointHit (core slot lane : Nat) (s : State) : Host.Outcome State Fault Refusal :=
  .next <|
    let key := groupKey core slot
    match s.group? key with
    | none => s
    | some g => match g.streamOf (lane / 4) with
      | some t => if (s.stops g t).contains lane && s.mayIssue g.team then s.stopAt key t (s.stops g t) else s
      | none => s

/-! ### The completion of long-latency work (R57, R63, R89, R90, R358) -/

/-- A register's outstanding write takes effect at completion; where another write has come after it, the register holds
either value (R90), and a later write that is itself outstanding stands. -/
def Reg.complete {α : Type} (r : Reg α) (id : Nat) (v : Option (α × Bool)) (pick : Bool) : Reg α :=
  match r.nxt with
  | some n =>
    if n.avail = .op id then ⟨n.val, n.psn, true, none⟩
    else match v with
      | some w => if pick then
          (match n.avail with
          | .op _ => { r with val := w.1, psn := w.2 }
          | _ => ⟨w.1, w.2, true, none⟩) else r
      | none => r
  | none => match v with
    | some w => if pick then ⟨w.1, w.2, true, none⟩ else r
    | none => r

/-- A register's outstanding write takes the value of another lane than the one it was started with (R59). -/
def Reg.answer {α : Type} (r : Reg α) (id : Nat) (v : α × Bool) : Reg α :=
  match r.nxt with
  | some n => if n.avail = .op id then { r with nxt := some { n with val := v.1, psn := v.2 } } else r
  | none => r

/-- A register's outstanding write is withdrawn (R358). -/
def Reg.withdraw {α : Type} (r : Reg α) (id : Nat) : Reg α :=
  match r.nxt with
  | some n => if n.avail = .op id then { r with nxt := none } else r
  | none => r

/-- An operation completes in one lane. `dst` is the index of the named register it writes, with its value. -/
def Lane.complete (e : Lane) (id : Nat) (dst : Option (Nat × Word × Bool)) (fp : BitVec 5) (pick : Bool) : Lane :=
  { e with
    q := e.q.map fun q => if q.avail = .op id then { q with avail := .ready } else q
    n := (withIdx e.n).map fun r => r.2.complete id (match dst with
      | some d => if d.1 = r.1 then some d.2 else none
      | none => none) pick
    p := e.p.map fun r => r.complete id none pick
    fpstat := e.fpstat ||| fp.setWidth 13 }

/-- A lane whose special function traps at its completion: the reserved entry and write are withdrawn (R358), and the sources
that its last-read marks took are back, but for those that a later instruction has written (R61). -/
def Lane.withdraw (e : Lane) (id : Nat) (saved : List (Nat × Reg Word)) : Lane :=
  let n := e.n.map fun r => r.withdraw id
  { e with
    q := e.q.filter fun q => !(q.avail == .op id)
    n := saved.foldl (fun n v => updAt (fun r => if r = Reg.clear 0 then v.2 else r) v.1 n) n }

/-- The uniform register that an operation writes at its completion, with its value: that of the lowest lane that did not trap
(R59), and none where that lane has exited since (R45) or another stream with a lower writing lane has written the register in
the same cycle (R59). -/
def Op.uniform (o : Op) (now : Nat) (g : Group) (traps : List Nat) : Option (Nat × Word × Bool) :=
  if 0x30 ≤ o.dst.toNat && o.dst.toNat < 0x3F then
    match (lanesOf o.lanes).find? fun l => !traps.contains l with
    | some l =>
      let lost : Bool := match g.kBy.get? (o.dst.toNat - 0x30) with
        | some (c, k) => c = now && k < l && !has o.lanes k
        | none => false
      if (g.lane l).status = .exited || lost then none
      else (o.res.find? fun r => r.1 == l).map fun r => (o.dst.toNat - 0x30, r.2.1, r.2.2)
    | none => none
  else none

/-- The uniform registers at the completion of an operation: the outstanding write takes effect with the value given, or is
discarded. -/
def Group.completeK (g : Group) (id now : Nat) (o : Op) (w : Option (Nat × Word × Bool)) (pick : Bool) : Group :=
  match w with
  | some d => { g with
      k := updAt (fun r => (r.answer id d.2).complete id (some d.2) pick) d.1 g.k
      kBy := g.kBy.put d.1 (now, ((lanesOf o.lanes).head?).getD 0) }
  | none => { g with k := g.k.map fun r => r.withdraw id }

/-- The opcodes that complete as stores (R210): `st`, `st.k`, `st.cmp`, `st.bm`, `st.2`, `st.nt` and `st.z`. -/
def stores : List Nat := [0x91, 0x93, 0x94, 0x98, 0x9A, 0x9C, 0x9E]

/-- An operation completes: results fill, destinations and FP flags are written, special functions with an enabled flag
trap, and the flags fall. -/
def State.completeOp (s : State) (id : Nat) (o : Op) : State :=
  match s.group? o.group with
  | none => s.delOp id
  | some g =>
    let traps := (o.fp.filter fun f => !(o.res.any fun r => r.1 == f.1) && (g.lane f.1).status != .exited)
    let fell := (o.fp.filter fun f => !(o.res.any fun r => r.1 == f.1)).map fun f => f.1
    let named := 0x10 ≤ o.dst.toNat && o.dst.toNat < 0x30
    let uni := o.uniform s.cycle g fell
    let s := s.modGroup o.group fun g =>
      (g.mapLanes fun l e =>
          if e.status = .exited then e
          else if traps.any fun f => f.1 == l then
            e.withdraw id ((o.saved.filter fun v => v.1 == l).map fun v => v.2)
          else
            let r := if named then (o.res.find? fun r => r.1 == l).map fun r => (o.dst.toNat - 0x10, r.2.1, r.2.2) else none
            e.complete id r (((o.fp.find? fun f => f.1 == l).map fun f => f.2).getD 0) (s.pick l 200)).completeK id s.cycle o uni
        (s.pick 0 201)
    let s := s.endOp id
    let s := traps.foldl (fun s f => if (s.laneAt (o.group, f.1)).status = .waiting then s.unwait o.group f.1 .active else s) s
    let s' : State := { s with cur := .stream (coreOf o.group) (slotOf o.group) o.lanes o.pc }
    let s := { s'.takeTraps o.group o.pc o.opc.toNat (traps.map fun f => ⟨f.1, 7, f.2.toNat, 0⟩) with cur := s.cur }
    s.modGroup o.group fun g => g.mapLanes fun l e => if traps.any fun f => f.1 == l then e.keepParked else e

/-- A store completes only once every access of it is performed: what its lanes still buffer is performed first (R198, R210). -/
def State.performStores (s : State) (o : Op) : State :=
  if stores.contains o.opc.toNat then (lanesOf o.lanes).foldl (fun (s : State) l => s.drainWcb o.group l) s else s

/-- R57, R63, R210: an outstanding operation completes, at any cycle from the next one on. -/
def execLongLatencyCompletion (op : Nat) (s : State) : Host.Outcome State Fault Refusal :=
  .next <| match s.op? op with
    | none => s
    | some o => if o.held || s.cycle < o.due then s else ((s.performStores o).completeOp op o).bump

/-! ### The core's engines -/

/-- R268: the array performs the next entry of a core's matrix queue; a halt waits for the queue to empty (R392). -/
def execMatrixQueueExecute (core : Nat) (err : ErrClass) (s : State) : Host.Outcome State Fault Refusal :=
  .next (s.matrixStep core err).bump

/-- R256: Punty performs a chunk; a halt stops it at a chunk boundary. -/
def execPuntyChunk (core : Nat) (err : ErrClass) (s : State) : Host.Outcome State Fault Refusal :=
  .next <| if s.coreRuns core then { (State.puntyStep { s with cur := .engine core } core err).bump with cur := .none } else s

/-- R280: Lehr computes a row; a halt stops it at a row boundary. -/
def execLehrRow (core : Nat) (s : State) : Host.Outcome State Fault Refusal :=
  .next <| if s.coreRuns core then { (State.lehrStep { s with cur := .engine core } core).bump with cur := .none } else s

end Sys2Proof.Machine
end

