-- ==== Sys2Proof/Machine/Preemption.lean ====
section
/-! DEFINITION. Pre-emption: halts, saves and restores of partitions, debug stops and steps, and the other commands of the
state window (spec/22_preemption_context_readback.md R391 to R395, R401, spec/20_faults_traps_parking.md R367 to R370,
spec/08_control_group_sync_instructions.md R177, spec/17_host_tenancy_security.md R320, R321). -/

namespace Sys2Proof.Machine

/-! ### Replies to system calls (R177, R321) -/

/-- Whether a lane waits for a system-call reply, and the address of its request. -/
def Lane.request (e : Lane) : Option Nat :=
  if e.status = .waiting && e.wait.kind = .syscReply then some e.wait.obj.toNat else none

/-- The lanes of a group whose request is done push its reply. -/
def State.replies (s : State) (key : Nat) : State :=
  match s.group? key with
  | none => s
  | some g =>
    let tenant := s.tenantOf g.team
    (g.live).foldl (fun s l => match (g.lane l).request with
      | some a => match s.readWords tenant a 8 with
        | .ok s (ws, psn) => if bit (ws.getD 0 0) 63 then s.resume key l [(ws.getD 7 0, psn)] none else s
        | _ => s
      | none => s) s

/-- R177, R321: the server has set DONE: the waiting lanes return. -/
def execSyscReply (core slot : Nat) (s : State) : Host.Outcome State Fault Refusal :=
  .next <| if onCore core then (s.replies (groupKey core slot)).bump else s

/-! ### Halting (R391, R392) -/

/-- The groups of some cores. -/
def State.groupsOn (s : State) (cores : List Nat) : List (Nat × Group) :=
  s.work.groups.filter fun e => cores.contains (coreOf e.1)

/-- Whether an operation is the wait of lanes that wait. -/
def State.isWait (s : State) (id : Nat) (o : Op) : Bool :=
  o.held && o.lanes != 0 && match s.group? o.group with
    | some g => (lanesOf o.lanes).all fun l => (g.lane l).status = .waiting && (g.lane l).wait.op = id
    | none => false

/-- Whether the cores of a partition have drained (R392 step 2). -/
def State.drained (s : State) (cores : List Nat) : Bool :=
  (s.work.ops.all fun e => !cores.contains (coreOf e.2.group) || s.isWait e.1 e.2) &&
    cores.all fun c => (s.core c).mq.isEmpty

/-- A Cullet job of a partition that halts parks with code 0x28 (R351): its resume area and its card are written, the card as R439
says. A job that waits for its card already still does. -/
def State.haltJob (s : State) (e : Nat) (j : Job) : State :=
  let s := s.modCullet e fun c => { c with queue := c.queue.filter fun k => !(k == j) }
  let j := { j with parked := some 0x28, started := false }
  let r : State × Job := if j.accepted && !j.words.isEmpty then
      match s.devWrite j.tenant j.res ((List.range resumeBytes).map (areaByte s.free)) with
      | .ok s' _ => (s'.bump, { j with area := some s.free })
      | _ => (s, j)
    else (s, j)
  let s := r.1.modCullet e fun c => { c with parked := c.parked ++ [r.2] }
  if j.accepted && j.fid.isNone then s.parkCard e r.2 else s

/-- Whether the card or the resume area of a job of some cores must be waited for (R190), which extends their halt (R392). -/
def State.jobsWait (s : State) (cores : List Nat) : Bool :=
  s.eng.cullets.any fun c => (c.queue.filter fun j => cores.contains j.core && j.accepted).any fun j =>
    State.mustWaitAny [(j.tenant, j.card + 32, 16, .write)] s ||
      (!j.words.isEmpty && State.mustWaitAny [(j.tenant, j.res, resumeBytes, .write)] s)

/-- What a job that a halt parked is parked with after it: a continuation that was not accepted still has its parked
job. -/
def Job.unhalted (j : Job) : Job := { j with parked := if j.resuming && !j.accepted && !j.words.isEmpty then some 1 else none }

/-- Jobs that a halt parked go on (R351, R392). -/
def State.unhaltJobs (s : State) (cores : List Nat) : State :=
  let mine := fun (j : Job) => j.parked == some 0x28 && cores.contains j.core
  { s with eng := { s.eng with cullets := s.eng.cullets.map fun c =>
      { queue := c.queue ++ (c.parked.filter mine).map Job.unhalted
        parked := c.parked.filter fun j => !mine j } } }

/-- A group as a halt leaves it (R392): a lane that waits on a holding cell is active at its instruction, stores are
performed, flags are zero. -/
def State.haltGroup (s : State) (key : Nat) : State :=
  match s.group? key with
  | none => s
  | some g =>
    let s := ((List.range groupLanes).filter fun l => (g.lane l).status = .waiting && (g.lane l).wait.kind = .cell).foldl
      (fun s l => (s.unlist key l).unwait key l .active) s
    let s := (List.range groupLanes).foldl (fun s l => s.drainWcb key l) s
    let s := s.modGroup key fun g => { g with flags := List.replicate 12 0 }
    { s with work := { s.work with ops := s.work.ops.map fun (e : Nat × Op) =>
        (e.1, if e.2.group = key then { e.2 with flags := [] } else e.2) } }

/-- Marks the waiters of some cores swapped, or no longer (R227, R392). -/
def State.markSwapped (s : State) (cores : List Nat) (swapped : Bool) : State :=
  let mark := fun (w : Waiter) => if cores.contains (coreOf w.group) then { w with swapped := swapped } else w
  { s with mem := { s.mem with waiters := s.mem.waiters.map mark } }

/-- Steps 2 to 4 of a halt, once the partition has drained: its wait-table entries are marked swapped. -/
def State.haltEnd (s : State) (i : Nat) (p : Partition) : State :=
  let s := (s.groupsOn p.cores).foldl (fun (s : State) (e : Nat × Group) => s.haltGroup e.1) s
  let s := (List.range 8).foldl (fun s e =>
    ((s.cullet e).queue.filter fun j => p.cores.contains j.core).foldl (fun s j => s.haltJob e j) s) s
  let s := s.markSwapped p.cores true
  s.modPartition i fun p => { p with halting := false, halted := true, haltedAt := s.ns }

/-! ### Saving (R393, R394, R396, R398) -/

/-- A register as a context image keeps it (R70). -/
def Reg.saved {α : Type} (zero : α) (r : Reg α) : Reg α := if r.live then ⟨r.now.1, r.now.2, true, none⟩ else Reg.clear zero

/-- A lane as a context image keeps it. -/
def Lane.saved (e : Lane) : Lane :=
  { e with
    q := (e.q.take 16).map fun x => { x with avail := .ready }
    n := e.n.map (Reg.saved 0)
    p := e.p.map (Reg.saved false) }

/-- A group as a context image keeps it. -/
def Group.saved (g : Group) : Group :=
  { (g.mapLanes fun _ e => e.saved) with
    k := g.k.map fun r => ⟨r.now.1, r.now.2, r.live, none⟩
    slices := List.replicate 8 Slice.fresh }

/-- The key of a group whose core gets another number. -/
def moveKey (f : Nat → Nat) (key : Nat) : Nat := groupKey (f (coreOf key)) (slotOf key)

/-- Who waits on a record, whose core gets another number. -/
def FaultFor.move (f : Nat → Nat) : FaultFor → FaultFor
  | .lanes key m opc addrs => .lanes (moveKey f key) m opc addrs
  | .punty core tag => .punty (f core) tag
  | .lehr core => .lehr (f core)
  | w => w

/-- Gives every core of a partition another number, in all that names it. -/
def State.move (s : State) (f : Nat → Nat) (swapped : Bool) : State :=
  let job := fun (j : Job) => { j with core := f j.core }
  let wt := fun (w : Waiter) => { w with group := moveKey f w.group, swapped := swapped }
  { s with
    work := { s.work with
      groups := s.work.groups.foldl (fun (m : Sparse Group) (e : Nat × Group) => m.put (moveKey f e.1) e.2) []
      teams := s.work.teams.map fun (e : Nat × Team) => (e.1, { e.2 with core := f e.2.core })
      ops := s.work.ops.map fun (e : Nat × Op) => (e.1, { e.2 with group := moveKey f e.2.group }) }
    mem := { s.mem with waiters := s.mem.waiters.map fun w => if f (coreOf w.group) = coreOf w.group then w else wt w }
    admin := { s.admin with
      faults := s.admin.faults.map fun r => { r with who := r.who.move f }
      joined := s.admin.joined.map fun r => { r with who := r.who.move f } }
    eng := { s.eng with
      nx := s.eng.nx.map fun (e : Nat × NxCmd) => (e.1, { e.2 with core := f e.2.core })
      cullets := s.eng.cullets.map fun c => ⟨c.queue.map job, c.parked.map job⟩ } }

/-- The number that a partition's core has in an image, and the other way round. -/
def toImage (id : Nat) (cores : List Nat) (c : Nat) : Nat :=
  match cores.findIdx? fun k => k == c with
  | some r => imageCore id r
  | none => c
def fromImage (id : Nat) (cores : List Nat) (c : Nat) : Nat :=
  if imageCore id 0 ≤ c && c < imageCore id cores.length then cores.getD (c - imageCore id 0) c else c

/-- A core's records as they are saved; what stays with the core itself. -/
def Core.saved (k : Core) : Core := { k with l1 := [], withdrawn := false }
def Core.left (k : Core) : Core := { Core.fresh with bslots := k.bslots, withdrawn := k.withdrawn }

/-- The number of a partition's benches. -/
def Partition.count (p : Partition) : Nat := p.cores.length / 8

/-- The shadow slot that a die's slot number names: two for each die (R393). -/
def shadowSlot (die shadow : Nat) : Nat := 2 * die + shadow

/-- The image in a shadow slot. -/
def State.imageIn (s : State) (slot : Nat) : Option (Nat × Image) := s.admin.shadows.find? fun e => e.2.slot == some slot

/-- Step 5: a halted partition is saved to a shadow slot (R393). -/
def State.save (s : State) (i : Nat) (p : Partition) (slot : Nat) : State :=
  let id := Sparse.freeKey s.admin.shadows s.admin.shadows.length 0
  let s := (s.groupsOn p.cores).foldl (fun (s : State) (e : Nat × Group) => s.setGroup e.1 e.2.saved) s
  let s := p.cores.foldl (fun s c =>
    let k := s.core c
    (s.modCore (toImage id p.cores c) fun _ => k.saved).modCore c fun _ => k.left) s
  let s := s.move (toImage id p.cores) true
  let m : Image := { slot := some slot, tenant := p.tenant, count := p.count, time := p.haltedAt, digest := 0 }
  let m := { m with digest := s.imageDigest id m }
  { (s.modPartition i fun p => { p with swap := none }) with admin :=
      { (s.modPartition i fun p => { p with swap := none }).admin with shadows := s.admin.shadows.put id m } }

/-- A command that waited for a partition is done (R401). -/
def State.toldDone (s : State) (i : Nat) (p : Partition) : State :=
  if p.told then (s.modPartition i fun p => { p with told := false }).status 0 else s

/-- Brings a halt as far as it can go. -/
def State.haltTry (s : State) (i : Nat) : State :=
  match s.admin.partitions[i]? with
  | none => s
  | some p =>
    let s := if p.halting && s.drained p.cores && !s.jobsWait p.cores then s.haltEnd i p else s
    match s.admin.partitions[i]? with
    | some q => if q.halted then
        match q.swap with
        | some slot => (s.save i q slot).toldDone i q
        | none => s.toldDone i q
      else s
    | none => s

/-- R392: a partition's halt goes on. -/
def execPartitionHalt (partition : Nat) (s : State) : Host.Outcome State Fault Refusal := .next (s.haltTry partition).bump

/-- R391: a partition's quantum expires. -/
def execQuantumExpiry (partition : Nat) (s : State) : Host.Outcome State Fault Refusal :=
  .next <| match s.admin.partitions[partition]? with
    | none => s
    | some p =>
      if p.quantum = 0 || p.halted || p.halting || s.ns < p.start + p.quantum then s
      else ((s.modPartition partition fun p => { p with halting := true }).haltTry partition).bump

/-- R401: command 0x01. -/
def execHaltPartition (die : Nat) (benches : BitVec 8) (s : State) : Host.Outcome State Fault Refusal :=
  .next <| match s.partition? die benches with
    | none => s.status 2
    | some (i, p) =>
      if p.halted then s.status 0
      else (((s.status 1).modPartition i fun p => { p with halting := true, told := true }).haltTry i).bump

/-- R401: command 0x02. The slot must be free, and no other swap-out under way may name it. -/
def execHaltAndSwapOut (die : Nat) (benches : BitVec 8) (shadow : Nat) (s : State) : Host.Outcome State Fault Refusal :=
  .next <| match s.partition? die benches with
    | none => s.status 2
    | some (i, p) =>
      if 2 ≤ shadow || (s.imageIn (shadowSlot die shadow)).isSome || p.swap.isSome ||
          (s.admin.partitions.any fun q => q.swap == some (shadowSlot die shadow)) then s.status 2
      else (((s.status 1).modPartition i fun p =>
        { p with halting := !p.halted, swap := some (shadowSlot die shadow), told := true }).haltTry i).bump

/-! ### Restoring (R394, R395) -/

/-- Whether a tenant's system-call ring has room (R320). -/
def State.ringRoom (s : State) (tenant : Nat) : Bool :=
  match s.tenant? tenant with
  | some t => match s.devRead tenant t.consAddr 8 with
    | .ok _ (cons, _) => !(2 ^ t.ringLog2 ≤ (t.prod + 2 ^ 17 - leNat cons % 2 ^ 17) % 2 ^ 17)
    | _ => false
  | none => false

/-- What waited for a swapped-out group happens at its restore. -/
def State.revive (s : State) (key : Nat) : State :=
  let s := s.replies key
  match s.group? key with
  | none => s
  | some g =>
    let s := g.live.foldl (fun s l =>
      let e := g.lane l
      if e.status = .waiting && e.wait.kind = .twait && e.wait.obj.toNat ≤ s.ns then s.resume key l [(word s.ns, false)] none
      else if e.status = .waiting && e.wait.kind = .launchFull then s.unwait key l .active
      else s) s
    let room := s.ringRoom (s.tenantOf g.team)
    s.modGroup key fun g => g.mapLanes fun _ e =>
      if e.park.sysc && room then ({ e with park := { e.park with sysc := false } } : Lane).unpark else e

/-- Wakes that met swapped entries take effect; the entries that are left are swapped no longer. -/
def State.lateWakes (s : State) (cores : List Nat) : State :=
  let ws := s.mem.waiters.filter fun w => cores.contains (coreOf w.group) && w.status.isSome
  let s := State.markSwapped { s with mem := { s.mem with waiters := s.mem.waiters.filter fun w => !ws.contains w } } cores false
  ws.foldl (fun s w => s.wakeOne { w with swapped := false } (w.status.getD 0)) s

/-- Answers that were kept take effect. -/
def State.lateAnswers (s : State) (cores : List Nat) : State :=
  let rs := (s.admin.faults ++ s.admin.joined).filter fun r => r.answer.isSome && !s.kept r && match r.who with
    | .lanes key _ _ _ => cores.contains (coreOf key)
    | .punty core _ | .lehr core => cores.contains core
    | .marver tk => (s.team? tk).any fun t => cores.contains t.core
    | _ => false
  rs.foldl (fun s r => (s.withdraw fun q => q == r).applyAnswer r ((r.answer.map BitVec.toNat).getD 0)) s

/-- Ends of child launches take effect on their parents' tags. -/
def State.lateChildren (s : State) : State :=
  let cs := s.work.children
  cs.foldl (fun s c => s.childDone (some (c.team, c.tag)) c.err c.code) { s with work := { s.work with children := [] } }

/-- Everything that met a partition while it was swapped out is applied, before any group issues (R395). -/
def State.late (s : State) (cores : List Nat) : State :=
  let s := (s.lateWakes cores).lateAnswers cores
  let s := s.eng.counters.foldl (fun (s : State) (e : Nat × Counter) => s.fire e.1) s
  let s := s.eng.nx.foldl (fun (s : State) (e : Nat × NxCmd) =>
    if !cores.contains e.2.core then s
    else match e.2.kept with
      | some code => s.nxDone e.1 code
      | none => if e.2.fid.isNone then s.nxRetry e.1 else s) s
  let s := (s.groupsOn cores).foldl (fun (s : State) (e : Nat × Group) => s.revive e.1) s
  let s := (s.work.teams.filter fun t => cores.contains t.2.core).foldl (fun (s : State) (t : Nat × Team) => s.wakeLead t.1) s
  (s.lateChildren.unhaltJobs cores).openGates

/-- A restored core takes the saved records; B slots that no restored team's window covers stay as they are. -/
def State.mergeCore (s : State) (c : Nat) (k : Core) : State :=
  let on := s.teamsOn c
  s.modCore c fun old => { k with
    withdrawn := old.withdrawn
    bslots := (withIdx k.bslots).map fun b =>
      if on.any fun t => t.2.2.slotBase ≤ b.1 && b.1 < t.2.2.slotBase + t.2.2.slotCnt then b.2
      else old.bslots.getD b.1 b.2 }

/-- An image is restored to a partition (R394). -/
def State.restore (s : State) (i : Nat) (p : Partition) (id : Nat) (m : Image) : State :=
  let saved := (List.range p.cores.length).map fun r => (p.cores.getD r 0, s.core (imageCore id r))
  let s := s.move (fromImage id p.cores) false
  let s := saved.foldl (fun (s : State) (e : Nat × Core) => s.mergeCore e.1 e.2) s
  let s := { s with
    work := { s.work with cores := s.work.cores.filter fun e => !(imageCore id 0 ≤ e.1 && e.1 < imageCore (id + 1) 0) }
    admin := { s.admin with shadows := s.admin.shadows.del id }
    mem := { s.mem with atc := s.mem.atc.filter fun e => !(e.die == p.die) } }
  let s := s.late p.cores
  s.modPartition i fun p => { p with tenant := m.tenant, halted := false, halting := false, start := s.ns }

/-- R401: command 0x03. It is refused where the slot holds no image of as many benches, the partition still holds a
context, its die is fenced, or the digest does not match. -/
def execSwapInAndResume (die : Nat) (benches : BitVec 8) (shadow : Nat) (s : State) : Host.Outcome State Fault Refusal :=
  .next <| match s.partition? die benches, s.imageIn (shadowSlot die shadow) with
    | some (i, p), some (id, m) =>
      if 2 ≤ shadow || m.count != p.count || (s.work.teams.any fun t => p.cores.contains t.2.core) ||
          s.work.fenced.contains die || p.halting || p.swap.isSome || m.digest != s.imageDigest id m then s.status 2
      else ((s.restore i p id m).status 0).bump
    | _, _ => s.status 2

/-- R401: command 0x04. -/
def execResumeInPlace (die : Nat) (benches : BitVec 8) (s : State) : Host.Outcome State Fault Refusal :=
  .next <| match s.partition? die benches with
    | none => s.status 2
    | some (i, p) =>
      (((s.modPartition i fun p => { p with halted := false, halting := false, swap := none, start := s.ns, told := false }).late p.cores).status
        0).bump

/-- R391, R401: command 0x05. -/
def execSetQuantum (die : Nat) (benches : BitVec 8) (ns : Nat) (s : State) : Host.Outcome State Fault Refusal :=
  .next <| match s.partition? die benches with
    | none => s.status 2
    | some (i, _) => (s.modPartition i fun p => { p with quantum := ns % 2 ^ 32, start := s.ns }).status 0

/-- R372, R401: command 0x09. -/
def execReturnWithdrawnCore (core : Nat) (s : State) : Host.Outcome State Fault Refusal :=
  .next <| if onCore core then (s.modCore core fun c => { c with withdrawn := false }).status 0 else s.status 2

/-- R401: a CMD value that the table does not list. -/
def execUnlistedCommand (cmd : BitVec 8) (s : State) : Host.Outcome State Fault Refusal :=
  .next <| if 1 ≤ cmd.toNat && cmd.toNat ≤ 0x0B then s else s.status 2

/-! ### Steps and resumption (R368, R370) -/

/-- Whether a lane is stopped and may be stepped. -/
def Lane.stopped (e : Lane) : Bool := e.status = .parked && e.park.debug && !e.park.page && !e.park.sysc

/-- The lanes that a step command names: those of a lane's slice that are stopped at its PC, or the group's stopped lanes
at their minimum PC. -/
def Group.stepLanes (g : Group) (lane : Nat) (group : Bool) : LaneMask :=
  let stopped := (List.range groupLanes).filter fun l => (g.lane l).stopped
  let pc := if group then
      ((stopped.map fun l => (g.lane l).pc.toNat).foldl (fun (b : Option Nat) p =>
        match b with
        | some q => some (min p q)
        | none => some p) none).getD 0
    else (g.lane lane).pc.toNat
  maskOf fun l => stopped.contains l && (g.lane l).pc.toNat = pc && (group || l / 4 = lane / 4)

/-- A step command is done. -/
def State.stepDone (s : State) (key : Nat) (m : LaneMask) : State :=
  State.status { s with work := { s.work with steps := s.work.steps.filter fun e => !(e == (key, m)) } } 0

/-- A step issues once its line is there and the instruction may issue; its lanes will stop again. The command stays until the
instruction has issued. A fetch that faults parks the lanes, or takes them into the handler, stopped. -/
def State.stepTry (s : State) (key : Nat) (m : LaneMask) : State :=
  match s.group? key with
  | none => s.stepDone key m
  | some g =>
    let ls := lanesOf m
    match ls.head?, s.launchOf g.team with
    | some l0, some l =>
      let pc := (g.lane l0).pc
      let slices := (List.range 8).filter fun i => ls.any fun k => k / 4 = i
      if !(ls.all fun k => (g.lane k).stopped) then s.stepDone key m
      else if !s.mayIssue g.team then s
      else
        let free := fun (s : State) => s.modGroup key fun g => g.mapLanes fun k e =>
          if has m k then ({ e with park := { e.park with debug := false }, restop := true, stepBp := true } : Lane).unpark else e
        match s.fetchSlot (coreOf key) (quarterOf key) with
        | none => s
        | some s => match s.fetch (coreOf key) l.tenant (lineOf pc) (coreReg key) (s.lineErr key (l0 / 4)) with
        | .line s b =>
          let w := b.slot (pc.toNat % 8)
          if g.distOk m w s.cycle && g.flagsOk w && s.pipeFree key slices w && !s.slotHolds key m pc w then
            let s := s.modGroup key fun g => g.modSlices slices.contains fun c => { c with line := some b }
            let s := (free s).bump
            { s with agenda := .issue (coreOf key) (slotOf key) m :: s.agenda }
          else s
        | .later s => s
        | .pageFault => (s.fetchPark key g m pc (lineOf pc)).stepDone key m
        | .trap c =>
          ((free s).takeTraps key pc 0 (ls.map fun l => ⟨l, c, 0, word (lineOf pc)⟩)).stepDone key m
        | .poison => (s.fetchKill key g 1 pc).stepDone key m
        | .lost s => ((s.fetchKill key g 5 pc).stepDone key m).bump
    | _, _ => s.stepDone key m

/-- R370: command 0x07. The step issues in its quarter's turn of a following cycle (R268). -/
def execDebugStep (core slot lane : Nat) (groupScope : Bool) (s : State) : Host.Outcome State Fault Refusal :=
  .next <|
    let key := groupKey core slot
    match s.group? key with
    | none => s.status 2
    | some g =>
      let m := g.stepLanes lane groupScope
      if !onCore core || groupLanes ≤ lane || !(g.lane lane).stopped || m = 0 then s.status 2
      else
        let s := s.status 1
        { s with work := { s.work with steps := s.work.steps ++ [(key, m)] } }

/-- R368: command 0x08. The team slot is the team's place among those of the core. -/
def execDebugResume (core slot : Nat) (s : State) : Host.Outcome State Fault Refusal :=
  .next <| match (s.teamsOn core)[slot]? with
    | some (tk, _, _) =>
      if !onCore core then s.status 2
      else ((s.groupsOf tk).foldl (fun (s : State) (e : Nat × Group) => s.modGroup e.1 fun g => g.mapLanes fun _ e =>
        ({ e with park := { e.park with debug := false }, restop := false } : Lane).unpark) s).status 0
    | none => s.status 2

end Sys2Proof.Machine
end

