-- ==== Sys2Proof/Machine/Trusted.lean ====
section
/-! DEFINITION. The trusted base and what is outside the cores: the state window (spec/22_preemption_context_readback.md R399 to
R402), Gleden-core accesses (R185, R192), tenants and Ezwell (spec/17_host_tenancy_security.md R304, R322 to R328), resets,
power and management (R21, R311 to R314, R425, R426), the time base (R301). -/

namespace Sys2Proof.Machine

/-! ### The state window (R399 to R402) -/

/-- Where the window, its module-wide part, and what follows it begin. -/
def windowBase : Nat := 0x40000000000
def windowModule : Nat := 0x40200000000
def windowEnd : Nat := 0x40300000000

/-- Runs the command that a command word and its second write name (R401). -/
def State.secondHalf (s : State) (c v : Word) : Host.Outcome State Fault Refusal :=
  let s := { s with admin := { s.admin with cmdHalf := none } }
  if bits c 7 0 = 6 then execAnswerFault (bits c 63 32) (BitVec.ofNat 2 v.toNat) s
  else execKillGroupLanes (bits c 40 32) (bits c 46 41) (BitVec.ofNat 32 v.toNat) s

/-- A write of the command register (R401). A command whose benches do not form one partition is refused, but for 0x0A and 0x0B.
Commands 0x06 and 0x0B wait for a second write. The status word tells of the latest command. -/
def State.command (s : State) (v : Word) : Host.Outcome State Fault Refusal :=
  match s.admin.cmdHalf with
  | some c => s.secondHalf c v
  | none =>
    let s := { s with admin := { s.admin with
      cmdReg := v, partitions := s.admin.partitions.map fun p => { p with told := false } } }
    let die := bits v 10 8
    let benches := BitVec.ofNat 8 (bits v 18 11)
    let arg := bits v 63 32
    if 1 ≤ bits v 7 0 ∧ bits v 7 0 ≤ 9 ∧ (s.partition? die benches).isNone then .next (s.status 2)
    else match bits v 7 0 with
    | 0x01 => execHaltPartition die benches s
    | 0x02 => execHaltAndSwapOut die benches arg s
    | 0x03 => execSwapInAndResume die benches arg s
    | 0x04 => execResumeInPlace die benches s
    | 0x05 => execSetQuantum die benches arg s
    | 0x06 => .next { s.status 1 with admin := { (s.status 1).admin with cmdHalf := some v } }
    | 0x07 => execDebugStep (arg % 512) (arg / 2 ^ 9 % 64) (arg / 2 ^ 14 % 32) (arg.testBit 20) s
    | 0x08 => execDebugResume (arg % 512) (arg / 2 ^ 9 % 64) s
    | 0x09 => execReturnWithdrawnCore arg s
    | 0x0A => execFenceDie die s
    | 0x0B => .next { s.status 1 with admin := { (s.status 1).admin with cmdHalf := some v } }
    | k => execUnlistedCommand (BitVec.ofNat 8 k) s

/-- Word i of a census entry (R402). -/
def Census.word (c : Census) (i : Nat) : Word :=
  match i with
  | 0 => BitVec.ofNat 64 (c.last * 2 ^ 32 + c.trans)
  | 1 => BitVec.ofNat 64 c.time
  | 2 => BitVec.ofNat 64 c.loc
  | _ => 0

/-- Writes word 0 of a census entry, LAST and TRANS (R402). -/
def Census.setWord (c : Census) (v : Word) : Census := { c with last := bits v 63 32, trans := bits v 31 0 }

/-- Whether a write to a word of a core's aperture takes effect (R367, R399): the core's partition is halted, and the write
comes from the Gleden kernel or from a session with consent; the debug registers of a team only from such a session. -/
def State.apertureOpen (s : State) (core w : Nat) (session : Bool) : Bool :=
  match s.partitionOf core with
  | some p =>
    let debug := match s.place core w with
      | some (.team _ i) => i == 3 || (8 ≤ i && i < 12)
      | _ => false
    p.halted && (!(session || debug) || (session && s.consents p.tenant))
  | none => false

/-- What regions of the window hold whose layout no rule gives (R400): the wake table; the states of the teams and gangs of a launch;
the fault queue and the containment queue with their indices. -/
def State.wakeContents (s : State) : List Nat :=
  s.mem.waiters.flatMap fun w =>
    let g := (s.group? w.group).getD default
    [w.key, w.tenant, g.team / 2 ^ 32, g.team % 2 ^ 32, g.gid, w.lane, b2n w.swapped, w.status.getD 3]
def State.launchContents (s : State) (slot : Nat) : List Nat :=
  ((s.work.teams.filter fun t => t.2.launch == slot).flatMap fun t =>
    [t.2.idx, t.2.core, b2n t.2.released, b2n t.2.failed, b2n t.2.retired]) ++
  (s.work.gangs.filter fun g => g.1 / 2 ^ 32 == slot).flatMap fun g => [g.1 % 2 ^ 32, g.2.attempt]
def State.queueContents (s : State) : List Nat :=
  [s.admin.nextFid, s.admin.faults.length, s.admin.killHead, s.admin.contain.length]

/-- The block of a connection in the window: tenant, peer, job key and congestion record (R339, R400). -/
def State.connBlock (s : State) (h : Nat) (c : Conn) : List Word := [word c.tenant, word c.peer, word c.jobKey] ++ s.congestion h

/-- A word of the region of the connections (R400). -/
def State.connWord (s : State) (i : Nat) : Word :=
  match s.eng.conns.findSome? fun c => if (Config.connAt c.1).val ≤ i then (s.connBlock c.1 c.2)[i - (Config.connAt c.1).val]? else none with
  | some w => w
  | none => Config.windowLayout 0x20000000 (s.eng.conns.map fun c => c.1) i

/-- A word of the record that stands at a place of the ring of the containment queue (R389). -/
def State.killWord (s : State) (n i : Nat) : Word :=
  ((s.admin.contain[(n + 2 ^ 32 - s.admin.killHead) % 65536]?).map fun ws => ws.getD i 0).getD 0

/-- A word of the region of the fault queue and the containment queue: their records (R364, R389, R390), and the rest (R400). -/
def State.queueRegionWord (s : State) (i : Nat) : Word :=
  let faults := s.admin.faults.flatMap FaultRec.words
  if i = Config.killHeadAt.val then word s.admin.killHead
  else if Config.faultsAt.val ≤ i ∧ i < Config.faultsAt.val + faults.length then faults.getD (i - Config.faultsAt.val) 0
  else if Config.killsAt.val ≤ i ∧ i < Config.killsAt.val + 8 * 65536 then
    s.killWord ((i - Config.killsAt.val) / 8) ((i - Config.killsAt.val) % 8)
  else Config.windowLayout 0x30000000 s.queueContents i

/-- The completion record of a launch as it stands: ST 1 and zeros while it runs (R296). -/
def Launch.recordNow (l : Launch) (slot : Nat) : List Word := l.status slot 1 0 :: List.replicate 7 0

/-- A word of a launch slot's 512 bytes in the window: the retained record, the completion record as it stands, the states of teams
and gangs. -/
def State.slotWord (s : State) (slot i : Nat) : Word :=
  match s.launch? slot with
  | some l =>
    if i < 32 then l.w i
    else if i < 40 then (l.recordNow slot).getD (i - 32) 0
    else Config.windowLayout 0x10000000 (s.launchContents slot) i
  | none => Config.freeWord (2 ^ 48 + s.free)

/-- The window's offset of the head index of the containment queue. -/
def killHeadOffset : Nat := 0x30000000 + 8 * Config.killHeadAt.val

/-- A word of the window. What no rule lays out reads as a free value, or as one that the region's contents determine. -/
def State.windowWord (s : State) (pa : Nat) : Word :=
  let off := pa - windowModule
  if pa < windowModule then s.apertureWord ((pa - windowBase) / 2 ^ 24) (pa % 2 ^ 24 / 8)
  else if off = 0 then s.admin.cmdReg
  else if off = 8 then word s.admin.cmdStatus
  else if 0x1000 ≤ off ∧ off < 0x1400 then
    match s.admin.census[(off - 0x1000) / 32]? with
    | some c => c.word (off % 32 / 8)
    | none => 0
  else if 0x100000 ≤ off ∧ off < 0x10000000 then Config.windowLayout 0x100000 s.wakeContents ((off - 0x100000) / 8)
  else if 0x10000000 ≤ off ∧ off < 0x10200000 then s.slotWord ((off - 0x10000000) / 512) (off % 512 / 8)
  else if 0x20000000 ≤ off ∧ off < 0x30000000 then s.connWord ((off - 0x20000000) / 8)
  else if 0x30000000 ≤ off ∧ off < 0x40000000 then s.queueRegionWord ((off - 0x30000000) / 8)
  else Config.freeWord (2 ^ 48 + s.free)

/-- The kernel has read the containment queue up to an index: the records before it are gone (R389, R400). -/
def State.readKills (s : State) (head : Nat) : State :=
  let n := (head + 2 ^ 32 - s.admin.killHead) % 2 ^ 32
  if s.admin.contain.length < n then s
  else { s with admin := { s.admin with contain := s.admin.contain.drop n, killHead := head % 2 ^ 32 } }

/-- R399 to R402: a write to the state window: the command register, the counters of a census entry, the head index of the containment
queue, a core's aperture. A debug session reaches the apertures alone (R367). -/
def execStateWindowWrite (pa : Nat) (value : Word) (session : Bool) (s : State) : Host.Outcome State Fault Refusal :=
  let off := pa - windowModule
  if pa < windowBase ∨ windowEnd ≤ pa then .next s
  else if pa < windowModule then
    let core := (pa - windowBase) / 2 ^ 24
    let w := pa % 2 ^ 24 / 8
    .next <| if s.apertureOpen core w session then (s.setApertureWord core w value).bump else s
  else if off = 0 then s.command value
  else if 0x1000 ≤ off ∧ off < 0x1220 ∧ off % 32 = 0 then
    .next <| if session then s
      else { s with admin := { s.admin with census := updAt (fun c => c.setWord value) ((off - 0x1000) / 32) s.admin.census } }
  else if off = killHeadOffset then .next (s.readKills value.toNat)
  else .next s

/-! ### Gleden cores (R185, R192, R283, R340) -/

/-- A word of hub SRAM that is a queue's descriptor, a mailbox entry, a tenant's context, or a record of the fault queue or the
containment queue: its queue and word; its tenant, entry and word; its tenant and word; its place among the outstanding fault records,
or in the ring of the containment queue, and its word (R283, R304, R340, R364, R389). -/
inductive HubWord where
  | queue (q i : Nat)
  | mailbox (tenant n i : Nat)
  | context (tenant i : Nat)
  | fault (n i : Nat)
  | kill (n i : Nat)
  deriving DecidableEq, Repr

/-- Words of a tenant context (R304), as the model lays it out (log entry 24): 8 words of settings, then 504 each for the frames of the
reserve, for the pages of the splinter pool, and for the PASID bindings, in order. -/
def contextWords : Nat := 1520

/-- What an aligned address of hub SRAM holds, if it is such a word. -/
def State.hubWord (s : State) (pa : Nat) : Option HubWord :=
  if Config.queueTable ≤ pa ∧ pa < Config.queueTable + 32 * 4096 then
    some (.queue ((pa - Config.queueTable) / 32) ((pa - Config.queueTable) % 32 / 8))
  else if Config.faultQueue ≤ pa ∧ pa < Config.faultQueue + 64 * s.admin.faults.length then
    some (.fault ((pa - Config.faultQueue) / 64) ((pa - Config.faultQueue) % 64 / 8))
  else if Config.killQueue ≤ pa ∧ pa < Config.killQueue + 64 * 65536 then
    some (.kill ((pa - Config.killQueue) / 64) ((pa - Config.killQueue) % 64 / 8))
  else s.sec.tenants.findSome? fun t =>
    let o := Config.mailboxTable t.1
    let k := Config.context t.1
    if o ≤ pa ∧ pa < o + 64 * 4096 then some (.mailbox t.1 ((pa - o) / 64) ((pa - o) % 64 / 8))
    else if k ≤ pa ∧ pa < k + 8 * contextWords then some (.context t.1 ((pa - k) / 8)) else none

/-- A word of a queue's descriptor (R283). -/
def Queue.word (q : Queue) (i : Nat) : Word :=
  match i with
  | 0 => BitVec.ofNat 64 (b2n q.en * 2 ^ 63 + b2n q.devq * 2 ^ 62 + b2n q.ke * 2 ^ 61 + b2n q.bud * 2 ^ 60 + q.log2n % 16 * 2 ^ 48 +
      q.base % 2 ^ 48)
  | 1 => BitVec.ofNat 64 (q.tenant % 2 ^ 16 * 2 ^ 48 + q.script % 2 ^ 48)
  | 2 => BitVec.ofNat 64 (q.ci % 2 ^ 17)
  | _ => BitVec.ofNat 64 (q.ctxAddr % 2 ^ 48)

/-- Writes a word of a queue's descriptor (R283): KE and BUD clear where a 1 is written, CI is the hardware's. A queue that
becomes enabled starts with nothing announced; another SCRIPT has no verified image until one is bound. -/
def Queue.setWord (q : Queue) (i : Nat) (v : Word) : Queue :=
  match i with
  | 0 =>
    let q := { q with
      devq := bit v 62
      ke := q.ke && !bit v 61
      bud := q.bud && !bit v 60
      log2n := bits v 51 48
      base := bits v 47 0 }
    if bit v 63 && !q.en then { q with en := true, kick := none, early := none, last := none }
    else { q with en := bit v 63 }
  | 1 =>
    { q with
      tenant := bits v 63 48
      script := bits v 47 0
      code := if q.script = bits v 47 0 then q.code else [] }
  | 3 => { q with ctxAddr := bits v 47 0 }
  | _ => q

/-- The bits of a mailbox entry's words that the kernel writes (R340). -/
def mailboxMask (i : Nat) : Word :=
  match i with
  | 0 => 0xCFFFFFFF00FFFFFF
  | 1 | 2 | 5 => -1
  | 3 => 0xFF00000000FFFFFF
  | 4 => 0xFFFFFFFFFFFF
  | _ => 0

/-- Writes a word of a mailbox entry; an entry whose word 0 is written starts with a full bucket and no slot in use. -/
def Mailbox.setWord (m : Mailbox) (i : Nat) (v : Word) (now : Nat) : Mailbox :=
  let m := { m with words := updAt (fun w => (w &&& ~~~ mailboxMask i) ||| (v &&& mailboxMask i)) i m.words }
  if i = 0 then { m with tokens := m.burst * 1000000, stamp := now, busy := [] } else m

/-- A word of a tenant context: the roots, the quota, the system-call ring; a frame or page number plus one; a PASID binding as
valid bit, queue and PASID; 0 past the last (R304). -/
def Tenant.ctxWord (t : Tenant) (i : Nat) : Word :=
  match i with
  | 0 => word t.root
  | 1 => word t.hostTable
  | 2 => word t.quota
  | 3 => word t.ringBase
  | 4 => word t.ringLog2
  | 5 => word t.prod
  | 6 => word t.consAddr
  | 7 => word t.serviceQueue
  | _ =>
    if i < 512 then word (((t.reserve[i - 8]?).map (· + 1)).getD 0)
    else if i < 1016 then word (((t.tablePool[i - 512]?).map (· + 1)).getD 0)
    else word (((t.pasids[i - 1016]?).map fun e => 2 ^ 63 + e.1 % 2 ^ 12 * 2 ^ 32 + e.2 % 2 ^ 20).getD 0)

/-- A list of numbers of which one place takes a new value, or which loses it (0), or grows by it. -/
def setSlot (l : List Nat) (i v : Nat) : List Nat :=
  l.take i ++ (if v = 0 then [] else [v - 1]) ++ l.drop (i + 1)

/-- Writes a word of a tenant context (R304). -/
def Tenant.setWord (t : Tenant) (i : Nat) (v : Word) : Tenant :=
  match i with
  | 0 => { t with root := v.toNat, table := t.table <|> some t.root }
  | 1 => { t with table := some v.toNat }
  | 2 => { t with quota := v.toNat }
  | 3 => { t with ringBase := v.toNat }
  | 4 => { t with ringLog2 := v.toNat }
  | 5 => { t with prod := v.toNat }
  | 6 => { t with consAddr := v.toNat }
  | 7 => { t with serviceQueue := v.toNat }
  | _ =>
    if i < 512 then { t with reserve := setSlot t.reserve (i - 8) v.toNat }
    else if i < 1016 then { t with tablePool := setSlot t.tablePool (i - 512) v.toNat }
    else
      let rest := match t.pasids[i - 1016]? with
        | some e => t.pasids.del e.1
        | none => t.pasids
      { t with pasids := if bit v 63 then rest.put (bits v 43 32) (bits v 19 0) else rest }

/-- Reads a hub word. -/
def State.getHub (s : State) : HubWord → Word
  | .queue q i => (s.queue q).word i
  | .mailbox t n i => ((s.tenant? t).map fun c => (c.mailbox n).w i).getD 0
  | .context t i => ((s.tenant? t).map fun c => c.ctxWord i).getD 0
  | .fault n i => ((s.admin.faults[n]?).map fun r => r.words.getD i 0).getD 0
  | .kill n i => s.killWord n i

/-- Writes a hub word. -/
def State.setHub (s : State) (v : Word) : HubWord → State
  | .queue q i => s.modQueue q fun d => d.setWord i v
  | .mailbox t n i => match s.tenant? t with
    | some c => s.setMailbox t n ((c.mailbox n).setWord i v s.ns)
    | none => s
  | .context t i => s.modTenant t fun c => c.setWord i v
  | .fault _ _ | .kill _ _ => s

/-- The bits of a hub word that a write of a 1 clears. -/
def HubWord.w1c : HubWord → Word
  | .queue _ 0 => word (3 * 2 ^ 60)
  | _ => 0

/-- The value that an access leaves; none for a load and a wake. -/
def gledenNew (op : GledenOp) (w old : Nat) : Option Nat :=
  match op with
  | .load | .wake .. => none
  | .store v => some (v.toNat % 2 ^ w)
  | .atomic k sgn v c =>
    let v := v.toNat % 2 ^ w
    some (if k = 7 then (if old = c.toNat % 2 ^ w then v else old) else atomNew (nxAtomOp k.toNat) w sgn old v)

/-- Whether an access answers with the old value. -/
def gledenAnswers : GledenOp → Bool
  | .store _ | .wake .. => false
  | _ => true

/-- A word with some of its bits replaced, for an access of n bytes at a place in it. -/
def spliceWord (old : Word) (at' n v : Nat) : Word :=
  let m := word ((2 ^ (8 * n) - 1) * 2 ^ (8 * at'))
  (old &&& ~~~ m) ||| (word (v * 2 ^ (8 * at')) &&& m)

/-- Bytes of hub SRAM (R14); it begins where the trusted base's own addresses do (log entry 24). -/
def hubBytes : Nat := 2 ^ 26

/-- A load, a store or an atomic of a Gleden core. Beyond hub SRAM and the state window stand engine registers that the spec does not
describe (R185). -/
def State.gledenAccess (s : State) (pa : Nat) (size : BitVec 2) (op : GledenOp) : Host.Outcome State Fault Refusal :=
  let n := 2 ^ size.toNat
  let at' := pa % 8
  let tell := fun (s : State) (old : Nat) (psn : Bool) => if gledenAnswers op then s.say (.gledenData pa (word old) psn) else s
  let part := fun (w : Word) => w.toNat / 2 ^ (8 * at') % 2 ^ (8 * n)
  let hub := if trustedBase ≤ pa && pa < windowBase then s.hubWord (pa - at') else none
  if windowEnd ≤ pa || (trustedBase + hubBytes ≤ pa && pa < windowBase && hub.isNone) then .fault .undescribedRegister
  else if windowBase ≤ pa then
    let w := s.windowWord (pa - at')
    let s := tell s (part w) false
    match gledenNew op (8 * n) (part w) with
    | some v => execStateWindowWrite (pa - at') (spliceWord w at' n v) false s
    | none => .next s.bump
  else .next <| match hub with
    | some h =>
      let w := s.getHub h
      let s := tell s (part w) false
      (match gledenNew op (8 * n) (part w) with
      | some v => (s.setHub (spliceWord (w &&& ~~~ h.w1c) at' n v) h).bump
      | none => s.bump)
    | none =>
      let s := match op with
        | .atomic .. => s.recallDirty pa n
        | _ => s
      let old := s.mem.bytes.readNat pa n
      let s := tell s old (s.physPsn pa n)
      (match gledenNew op (8 * n) old with
      | some v => (s.physWrite pa (leBytes n v) false).bump
      | none => s.bump)

/-- Row GLEDEN_CORE_ACCESS (R185, R192, R321): a Gleden core, an agent of device scope, loads, stores or performs an atomic on
module memory, a cell, hub SRAM or the state window, or wakes waiters of a key of a tenant, its address the one given. -/
def execGledenCoreAccess (pa : Nat) (size : BitVec 2) (op : GledenOp) (s : State) : Host.Outcome State Fault Refusal :=
  match op with
  | .wake tenant count => .next ((s.recallLine tenant pa).wake tenant pa count 0).1.bump
  | _ => s.gledenAccess pa size op

/-! ### Tenants (R304, R326) -/

/-- The key slots of a new tenant (R326). -/
def newKeys (tenant serial : Nat) : List (BitVec 512) := (List.range 16).map fun i => Config.tenantKey tenant i serial

/-- The partitions of a new tenant replace those whose benches they use (R391). -/
def State.assign (s : State) (tenant : Nat) (ps : List (Nat × BitVec 8)) : List Partition :=
  (s.admin.partitions.filter fun p => !ps.any fun q => q.1 == p.die && q.2 &&& p.benches != 0) ++
    ps.map fun q => ⟨q.1, q.2, tenant, 0, s.ns, false, false, none, 0, false⟩

/-- Row TENANT_CREATION (R304, R326): a tenant context, its key slots, its queues, PASID bindings, counters and partitions. A
number in use, a second host, or one tenant more than the configuration allows (R324) is refused. -/
def execTenantCreation (tenant : Nat) (cfg : TenantConfig) (s : State) : Host.Outcome State Fault Refusal :=
  .next <|
    if 65536 ≤ tenant || (s.tenant? tenant).isSome || s.sec.ezwell.tenantLimit ≤ s.sec.tenants.length ||
        (cfg.host && s.hostTenant.isSome) then s.say (.refused tenant)
    else
      let t : Tenant :=
        { host := cfg.host, root := cfg.root, quota := cfg.quota, reserve := cfg.reserve, tablePool := cfg.tablePool,
          frames := cfg.frames, ringBase := cfg.ringBase, ringLog2 := cfg.ringLog2, prod := 0, consAddr := cfg.ringCons,
          serviceQueue := cfg.serviceQueue, session := none, mailboxes := [], scripts := 0, jobKeys := [],
          pasids := cfg.pasids.foldl (fun m e => Sparse.put e.1 e.2 m) [], debugKey := cfg.debugKey, table := cfg.table }
      let s := { s with
        sec := { s.sec with
          tenants := s.sec.tenants.put tenant t
          keys := s.sec.keys.put tenant (newKeys tenant s.serial) }
        admin := { s.admin with partitions := s.assign tenant cfg.partitions } }
      let s := cfg.queues.foldl (fun (s : State) q => s.modQueue q fun d => { d with tenant := tenant }) s
      (cfg.counters.foldl (fun (s : State) n => s.modCounter n fun c => { c with owner := some tenant }) s).fresh

/-- The data of a frame whose key is gone: unreadable, so free bytes (R314, R326). -/
def State.lostFrame (s : State) (frame : Nat) : State :=
  { s with mem := { s.mem with
      bytes := s.mem.bytes.writeN (4096 * frame) ((List.range 4096).map fun i => areaByte (s.free + frame) i)
      orig := s.origAfter (4096 * frame) 4096 } }

/-- Row TENANT_DESTRUCTION (R326): the key slots are zeroed, which makes the tenant's encrypted data unreadable, and the
context is gone; its queues are disabled and its partitions given up. -/
def execTenantDestruction (tenant : Nat) (s : State) : Host.Outcome State Fault Refusal :=
  .next <| match s.tenant? tenant with
    | none => s
    | some t =>
      let s := t.frames.foldl State.lostFrame s
      State.bump { s with
        sec := { s.sec with
          tenants := s.sec.tenants.del tenant
          keys := s.sec.keys.put tenant (List.replicate 16 0) }
        work := { s.work with queues := s.work.queues.map fun (e : Nat × Queue) =>
          (e.1, if e.2.tenant = tenant then e.2.disabled else e.2) }
        mem := { s.mem with cmp := s.mem.cmp.filter fun e => !(e.2.tenant == tenant) }
        eng := { s.eng with counters := s.eng.counters.map fun (e : Nat × Counter) =>
          (e.1, if e.2.owner = some tenant then { e.2 with owner := none, bind := none } else e.2) }
        admin := { s.admin with partitions := s.admin.partitions.filter fun p => !(p.tenant == tenant) } }

/-! ### Ezwell (R322 to R325, R328, R426) -/

/-- Row CONFIGURATION_RECORD (R324): applied only if it is signed with the vendor key or the operator key that a record has
enrolled, and its sequence exceeds the last one applied. -/
def execConfigurationRecord (record : ConfigRecord) (s : State) : Host.Outcome State Fault Refusal :=
  .next <|
    let z := s.sec.ezwell
    if (record.signer == Config.vendorKey || z.operatorKey == some record.signer) && z.cfgSeq < record.seq then
      { s with sec := { s.sec with ezwell := { z with
          cfgSeq := record.seq
          operatorKey := record.enrol <|> z.operatorKey
          minFirmware := record.minFirmware
          minKernel := record.minKernel
          minScript := record.minScript
          tenantLimit := record.tenantLimit
          ports := record.ports
          debugAllowed := record.debugAllowed
          cfgDigest := Config.digest [z.cfgDigest.toNat, record.digest.toNat] } } }
    else s.say (.refused record.seq)

/-- R322, R426: a firmware image is applied if it verifies and its security version is not below the minimum. -/
def execPldmFirmwareUpdate (image : SignedImage) (s : State) : Host.Outcome State Fault Refusal :=
  .next <| if image.signed && s.sec.ezwell.minFirmware ≤ image.version then
      { s with sec := { s.sec with ezwell := { s.sec.ezwell with fwDigest := image.digest } } }
    else s.say (.refused image.version)

/-- Signatures that one subordinate key allows (R323). -/
def keySignatures : Nat := 2 ^ 20

/-- The counters once the next signature's index is used: an exhausted subordinate key is replaced (R323). -/
def Ezwell.advance (z : Ezwell) : Ezwell :=
  if keySignatures ≤ z.xmss then { z with subkey := z.subkey + 1, xmss := 1 } else { z with xmss := z.xmss + 1 }

/-- The 32 bytes of a digest. -/
def digestBytes (d : BitVec 256) : List Byte := leBytes 32 d.toNat

/-- The numbers of a tenant context that its digest covers, keys excluded: the root, quota and reserve, the PASID bindings, the
system-call ring and the debug consent (R304, R325). -/
def Tenant.numbers (t : Tenant) : List Nat :=
  [b2n t.host, t.root, t.quota, t.ringBase, t.ringLog2, t.prod, t.consAddr, t.serviceQueue, t.scripts.toNat, t.debugKey] ++
    (t.session.map fun d => [d.modes.toNat, d.expiry]).getD [] ++ (t.pasids.flatMap fun e => [e.1, e.2]) ++ t.reserve ++ t.table.toList

/-- An attestation report (R325). -/
def State.report (s : State) (tenant : Nat) (t : Tenant) (nonce : Nat) : List Byte :=
  let z := s.sec.ezwell
  let identity := Config.signature 0 0 68
  let body := leBytes 4 1 ++ leBytes 4 (tenant % 65536) ++ leBytes 32 nonce ++
    digestBytes (Config.digest (identity.map BitVec.toNat)) ++ digestBytes z.fwDigest ++ digestBytes z.kernelDigest ++
    digestBytes z.cfgDigest ++ digestBytes t.scripts ++ digestBytes (Config.digest t.numbers) ++ leBytes 8 s.ns ++ leBytes 8 0 ++
    (Config.signature 1 z.subkey 68 ++ List.replicate 68 0).take 68 ++
    (Config.signature 2 z.subkey 2820 ++ List.replicate 2820 0).take 2820
  body ++ (Config.signature 3 (2 ^ 21 * z.subkey + z.xmss) 2820 ++ List.replicate 2820 0).take 2820

/-- Row ATTESTATION_REPORT (R323, R325): the index is advanced before the signature leaves, and the report is written to the
requester's memory. -/
def execAttestationReport (tenant : Nat) (nonce : Nat) (addr : Nat) (s : State) : Host.Outcome State Fault Refusal :=
  .next <| match s.tenant? tenant with
    | none => s
    | some t =>
      let s := { s with sec := { s.sec with ezwell := s.sec.ezwell.advance } }
      ((s.devPut tenant addr (s.report tenant t nonce)).say (.attestation tenant)).bump

/-- Whether Ezwell accepts a consent token for a tenant's work (R328): it is signed with the key that the tenant registered at its
creation, names the device and the tenant, and has not expired; and the debug policy allows sessions (R324). -/
def State.tokenOk (s : State) (tenant : Nat) (token : DebugToken) : Bool :=
  token.thisDevice && token.tenant == tenant && s.ns < token.expiry && s.sec.ezwell.debugAllowed &&
    (s.tenant? tenant).any fun t => t.debugKey == token.signer

/-- Row DEBUG_CONSENT_TOKEN (R328): a session opens, or the token is refused. -/
def execDebugConsentToken (tenant : Nat) (token : DebugToken) (s : State) : Host.Outcome State Fault Refusal :=
  .next <| if s.tokenOk tenant token then
      s.modTenant tenant fun t => { t with session := some ⟨token.modes, token.expiry⟩ }
    else s.say (.refused tenant)

/-! ### Images in memory (R393) -/

/-- Bytes of an image. -/
def State.imageBytes (s : State) (id : Nat) (m : Image) : Nat := 8 * (s.imageWords id m).length

/-- Bytes of ordinary memory that a tenant's frames and images take. -/
def State.quotaUsed (s : State) (tenant : Nat) (t : Tenant) : Nat :=
  4096 * t.frames.length + ((s.admin.shadows.filter fun e => e.2.tenant == tenant && e.2.slot.isNone).map fun e =>
    (s.imageBytes e.1 e.2 + 4095) / 4096 * 4096).sum

/-- The pages that an image takes in ordinary memory. -/
def State.imagePages (s : State) (id : Nat) (m : Image) : Nat := (s.imageBytes id m + 4095) / 4096

/-- Whether the frames from one on hold nothing of a tenant and no other image, so that the kernel may put an image there. -/
def State.imageFits (s : State) (frame n : Nat) : Bool :=
  4096 * (frame + n) ≤ trustedBase &&
    (s.sec.tenants.all fun t => (t.2.frames ++ t.2.reserve ++ t.2.tablePool).all fun k => k < frame || frame + n ≤ k) &&
    s.admin.shadows.all fun e => match e.2.away with
      | some (f, _) => f + s.imagePages e.1 e.2 ≤ frame || frame + n ≤ f
      | none => true

/-- The bytes of an image in ordinary memory: encrypted, so free (R326, R393). -/
def cipherBytes (seed n : Nat) : List Byte := (List.range n).map (areaByte seed)

/-- Moves an image to ordinary memory, at frames that the kernel chooses, a free choice (R393). -/
def State.imageOut (s : State) (id : Nat) (m : Image) : State :=
  let frame := Config.freeNat (2 ^ 46 + s.free)
  let n := s.imagePages id m
  let room : Bool := match s.tenant? m.tenant with
    | some t => s.quotaUsed m.tenant t + 4096 * n ≤ t.quota
    | none => false
  if room && s.imageFits frame n then
    let seed := 2 ^ 8 + s.serial
    let s := (s.physWrite (4096 * frame) (cipherBytes seed (s.imageBytes id m)) false).fresh
    { s with admin := { s.admin with shadows := s.admin.shadows.upd id fun m => { m with slot := none, away := some (frame, seed) } } }
  else s

/-- Moves an image back to a shadow slot; one of which a byte has changed no longer has its digest (R393, R396). -/
def State.imageBack (s : State) (id : Nat) (m : Image) (slot : Nat) : State :=
  let same : Bool := match m.away with
    | some (frame, seed) => s.physRead (4096 * frame) (s.imageBytes id m) == cipherBytes seed (s.imageBytes id m) &&
        !s.physPsn (4096 * frame) (s.imageBytes id m)
    | none => true
  let digest := if same then m.digest else BitVec.ofNat 256 (Config.freeNat (2 ^ 46 + s.free))
  { s with admin := { s.admin with shadows := s.admin.shadows.upd id fun m => { m with slot := some slot, away := none, digest := digest } } }

/-- Row SHADOW_IMAGE_MOVE (R393): an image leaves its shadow slot for ordinary memory, where it counts against the tenant's
quota, or one of those in memory takes the slot, which one a free choice of the kernel. -/
def execShadowImageMove (die shadow : Nat) (toMemory : Bool) (s : State) : Host.Outcome State Fault Refusal :=
  .next <|
    let slot := shadowSlot die shadow
    let away := s.admin.shadows.filter fun e => e.2.slot.isNone
    if 8 ≤ die || 2 ≤ shadow then s
    else match s.imageIn slot with
      | some (id, m) => if toMemory then (s.imageOut id m).bump else s
      | none => match if toMemory then none else away[Config.freeNat (2 ^ 46 + s.free) % away.length]? with
        | some (id, m) => (s.imageBack id m slot).bump
        | none => s

/-! ### Power, resets and boot (R21, R311, R313, R314, R425) -/

/-- The stage of the boot chain that fails (R311, R322), 0 for none: 1 for the Ezwell firmware, which boot ROM verifies, 2 for the
Gleden kernel, which Ezwell verifies; an image fails that is not signed or whose version is below the minimum. The spec does not
number the stages (DESIGN CHOICE, log entry 13). -/
def Ezwell.bootStage (z : Ezwell) (firmware kernel : SignedImage) : Nat :=
  if !(firmware.signed && z.minFirmware ≤ firmware.version) then 1
  else if !(kernel.signed && z.minKernel ≤ kernel.version) then 2 else 0

/-- R311, R322, R427: power good: the boot chain verifies and measures the images, the memory keeper starts, the contexts are there,
Memory_Active is set, and the Ethernet ports train; a failed verification leaves it clear and reports the stage. -/
def execPowerGood (firmware kernel : SignedImage) (s : State) : Host.Outcome State Fault Refusal :=
  .next <| if s.sec.boot ≠ .off then s
    else
      let z := s.sec.ezwell
      let stage := z.bootStage firmware kernel
      { s with
        eng := { s.eng with portsUp := if stage = 0 then 255 else s.eng.portsUp }
        sec := { s.sec with
          boot := if stage = 0 then .active else .failed stage
          ports := s.sec.ports.map fun p => { p with memActive := stage = 0, failStage := stage }
          ezwell := { z with
            fwDigest := if stage = 1 then z.fwDigest else firmware.digest
            kernelDigest := if stage = 0 then kernel.digest else z.kernelDigest } } }

/-- What a full reset leaves (R313, R314): the contents of DRAM and Ezwell's retention domain with the keys; the contexts of
the tenants, which boot restores from their tables, without sessions and connections. -/
def State.fullReset (s : State) : State :=
  { State.reset with
    agenda := s.agenda.filter Turn.outside
    free := s.free + 1
    serial := s.serial
    mem := { State.reset.mem with
      bytes := s.mem.bytes.filter fun e => e.1 < trustedBase
      psn := s.mem.psn.filter fun g => 8 * g < trustedBase
      cmp := s.mem.cmp
      view := s.mem.view
      orig := s.mem.orig }
    sec := { State.reset.sec with
      tenants := s.sec.tenants.map fun (e : Nat × Tenant) => (e.1, { e.2 with session := none, jobKeys := [], mailboxes := [] })
      ezwell := s.sec.ezwell
      keys := s.sec.keys }
    outbox := s.outbox }

/-- What a loss of power leaves (R314): only what Ezwell's MRAM keeps. -/
def State.powerLost (s : State) : State :=
  { State.reset with
    free := s.free + 1
    serial := s.serial
    sec := { State.reset.sec with ezwell := s.sec.ezwell }
    outbox := s.outbox }

/-- R314: a full-reset request, refused unless both ports report the host quiesced; the boot chain then runs again, as
POWER_GOOD says. -/
def execFullResetRequest (quiesced : BitVec 2) (s : State) : Host.Outcome State Fault Refusal :=
  .next <|
    let s := { s with sec := { s.sec with ports := (withIdx s.sec.ports).map fun (p : Nat × Port) =>
      { p.2 with quiesced := quiesced.getLsbD p.1 } } }
    if s.sec.ports.all fun p => p.quiesced then s.fullReset else s.say (.refused 0)

/-- R314: power is lost. -/
def execPowerLoss (s : State) : Host.Outcome State Fault Refusal := .next s.powerLost

/-- An interval in which a die has idle issue cycles begins, and the census counts it (R21). How long it lasts depends on what the
die draws and on its temperature, a free choice. -/
def State.throttle (s : State) (die : Nat) : State :=
  let s := s.count 11 false die
  State.bump { s with admin := { s.admin with idle := s.admin.idle.put die (s.cycle + 1 + Config.freeNat (2 ^ 46 + s.free)) } }

/-- R21: a die over its power budget gets idle issue cycles, counted in the census. -/
def execPowerBudgetThrottle (die : Nat) (s : State) : Host.Outcome State Fault Refusal := .next (s.throttle die)

/-- R425: a die at its throttle temperature gets idle issue cycles as in R21. -/
def execThermalThrottle (die : Nat) (s : State) : Host.Outcome State Fault Refusal := .next (s.throttle die)

/-- R425: a compute die at 115 °C causes a compute reset; a base or hub die a full reset without quiescence, after which the
module powers off. -/
def execThermalShutdown (_die : Nat) (compute : Bool) (s : State) : Host.Outcome State Fault Refusal :=
  if compute then execComputeReset s else .next s.fullReset.powerLost

/-- R426: a monitoring request is answered with the readings and the census. -/
def execPldmMonitoring (s : State) : Host.Outcome State Fault Refusal :=
  .next (s.say (.management (Config.monitor s.free ++ s.admin.census.map fun c => c.word 0))).bump

/-- R306, R311: the host's firmware programs a port's HDM decoder, once Memory_Active is set. -/
def execHdmDecoderProgramming (port base : Nat) (s : State) : Host.Outcome State Fault Refusal :=
  .next { s with sec := { s.sec with ports := updAt (fun p =>
    if p.memActive then { p with base := base, programmed := true } else p) port s.sec.ports } }

/-! ### The time base (R301) -/

/-- Units of TIME in a nanosecond. -/
def nsUnits : Int := 851968

/-- R301, R427: a message disciplines TIME: at lock an offset above 1 ms steps it forward; any other correction slews its rate. Until
lock TIME runs free. -/
def execTimeSyncMessage (offset : Int) (lock : Bool) (s : State) : Host.Outcome State Fault Refusal :=
  .next <| if lock && !s.locked && 1000000 < offset then
      { s with time := s.time + (offset * nsUnits).toNat, locked := true, slew := 0 }
    else if lock || s.locked then { s with locked := true, slew := offset * nsUnits }
    else s

/-- The most that one cycle's correction changes TIME by: 500 ppm of a cycle. -/
def slewMax : Nat := 327

/-- One cycle passes: TIME advances by it and by part of the correction that is left, a free choice within the bound. -/
def State.tick (s : State) : State :=
  let k : Nat := min (Config.freeNat (2 ^ 49 + s.free) % (slewMax + 1)) s.slew.natAbs
  let d : Int := if s.slew < 0 then -(k : Int) else k
  { s with
    cycle := s.cycle + 1
    time := ((s.time : Int) + 655360 + d).toNat
    slew := s.slew - d
    free := s.free + 1 }

end Sys2Proof.Machine
end

