-- ==== Sys2Proof/Machine/Dispatch.lean ====
section
/-! DEFINITION. The dispatch: one arm per constructor of `Instr`. -/

namespace Sys2Proof.Machine

/-- What an instruction, or another step of the opcode table, does (spec/opcode_table.json). -/
def exec (i : Instr) (s : State) : Host.Outcome State Fault Refusal :=
  match i with
  | .add c f => Sys2Proof.Machine.execAdd c f s
  | .addc c f => Sys2Proof.Machine.execAddc c f s
  | .sub c f => Sys2Proof.Machine.execSub c f s
  | .subb c f => Sys2Proof.Machine.execSubb c f s
  | .mul c f => Sys2Proof.Machine.execMul c f s
  | .mulhi c f => Sys2Proof.Machine.execMulhi c f s
  | .mulw c f => Sys2Proof.Machine.execMulw c f s
  | .mad c f => Sys2Proof.Machine.execMad c f s
  | .madhi c f => Sys2Proof.Machine.execMadhi c f s
  | .madw c f => Sys2Proof.Machine.execMadw c f s
  | .neg c f => Sys2Proof.Machine.execNeg c f s
  | .abs c f => Sys2Proof.Machine.execAbs c f s
  | .min c f => Sys2Proof.Machine.execMin c f s
  | .max c f => Sys2Proof.Machine.execMax c f s
  | .divstep c f => Sys2Proof.Machine.execDivstep c f s
  | .sad c f => Sys2Proof.Machine.execSad c f s
  | .cmp c f => Sys2Proof.Machine.execCmp c f s
  | .sel c f => Sys2Proof.Machine.execSel c f s
  | .selp c f => Sys2Proof.Machine.execSelp c f s
  | .shl c f => Sys2Proof.Machine.execShl c f s
  | .shr c f => Sys2Proof.Machine.execShr c f s
  | .sar c f => Sys2Proof.Machine.execSar c f s
  | .rotl c f => Sys2Proof.Machine.execRotl c f s
  | .rotr c f => Sys2Proof.Machine.execRotr c f s
  | .fshl c f => Sys2Proof.Machine.execFshl c f s
  | .fshr c f => Sys2Proof.Machine.execFshr c f s
  | .sext c f => Sys2Proof.Machine.execSext c f s
  | .zext c f => Sys2Proof.Machine.execZext c f s
  | .clamp c f => Sys2Proof.Machine.execClamp c f s
  | .shli c f => Sys2Proof.Machine.execShli c f s
  | .shri c f => Sys2Proof.Machine.execShri c f s
  | .sari c f => Sys2Proof.Machine.execSari c f s
  | .and c f => Sys2Proof.Machine.execAnd c f s
  | .or c f => Sys2Proof.Machine.execOr c f s
  | .xor c f => Sys2Proof.Machine.execXor c f s
  | .not c f => Sys2Proof.Machine.execNot c f s
  | .tbl3 c f => Sys2Proof.Machine.execTbl3 c f s
  | .andn c f => Sys2Proof.Machine.execAndn c f s
  | .popc c f => Sys2Proof.Machine.execPopc c f s
  | .clz c f => Sys2Proof.Machine.execClz c f s
  | .ctz c f => Sys2Proof.Machine.execCtz c f s
  | .brev c f => Sys2Proof.Machine.execBrev c f s
  | .bfe c f => Sys2Proof.Machine.execBfe c f s
  | .bfi c f => Sys2Proof.Machine.execBfi c f s
  | .bpick c f => Sys2Proof.Machine.execBpick c f s
  | .andi c f => Sys2Proof.Machine.execAndi c f s
  | .ori c f => Sys2Proof.Machine.execOri c f s
  | .xori c f => Sys2Proof.Machine.execXori c f s
  | .lxAt c f => Sys2Proof.Machine.execLxAt c f s
  | .lxRot c f => Sys2Proof.Machine.execLxRot c f s
  | .lxSh c f => Sys2Proof.Machine.execLxSh c f s
  | .lxFlip c f => Sys2Proof.Machine.execLxFlip c f s
  | .ballot c f => Sys2Proof.Machine.execBallot c f s
  | .pollAll c f => Sys2Proof.Machine.execPollAll c f s
  | .pollAny c f => Sys2Proof.Machine.execPollAny c f s
  | .pollSame c f => Sys2Proof.Machine.execPollSame c f s
  | .rdxAdd c f => Sys2Proof.Machine.execRdxAdd c f s
  | .rdxMin c f => Sys2Proof.Machine.execRdxMin c f s
  | .rdxMax c f => Sys2Proof.Machine.execRdxMax c f s
  | .rdxLop c f => Sys2Proof.Machine.execRdxLop c f s
  | .scanAdd c f => Sys2Proof.Machine.execScanAdd c f s
  | .scanLop c f => Sys2Proof.Machine.execScanLop c f s
  | .matchV c f => Sys2Proof.Machine.execMatchV c f s
  | .rdxFadd c f => Sys2Proof.Machine.execRdxFadd c f s
  | .fadd c f => Sys2Proof.Machine.execFadd c f s
  | .fsub c f => Sys2Proof.Machine.execFsub c f s
  | .fmul c f => Sys2Proof.Machine.execFmul c f s
  | .ffma c f => Sys2Proof.Machine.execFfma c f s
  | .fmin c f => Sys2Proof.Machine.execFmin c f s
  | .fmax c f => Sys2Proof.Machine.execFmax c f s
  | .fabs c f => Sys2Proof.Machine.execFabs c f s
  | .fneg c f => Sys2Proof.Machine.execFneg c f s
  | .hadd2 c f => Sys2Proof.Machine.execHadd2 c f s
  | .hsub2 c f => Sys2Proof.Machine.execHsub2 c f s
  | .hmul2 c f => Sys2Proof.Machine.execHmul2 c f s
  | .hfma2 c f => Sys2Proof.Machine.execHfma2 c f s
  | .hmin2 c f => Sys2Proof.Machine.execHmin2 c f s
  | .hmax2 c f => Sys2Proof.Machine.execHmax2 c f s
  | .hdot2 c f => Sys2Proof.Machine.execHdot2 c f s
  | .fscale c f => Sys2Proof.Machine.execFscale c f s
  | .dadd c f => Sys2Proof.Machine.execDadd c f s
  | .dsub c f => Sys2Proof.Machine.execDsub c f s
  | .dmul c f => Sys2Proof.Machine.execDmul c f s
  | .dfma c f => Sys2Proof.Machine.execDfma c f s
  | .dmin c f => Sys2Proof.Machine.execDmin c f s
  | .dmax c f => Sys2Proof.Machine.execDmax c f s
  | .rcp c f => Sys2Proof.Machine.execRcp c f s
  | .rsqrt c f => Sys2Proof.Machine.execRsqrt c f s
  | .exp2 c f => Sys2Proof.Machine.execExp2 c f s
  | .log2 c f => Sys2Proof.Machine.execLog2 c f s
  | .sin c f => Sys2Proof.Machine.execSin c f s
  | .cos c f => Sys2Proof.Machine.execCos c f s
  | .fclass c f => Sys2Proof.Machine.execFclass c f s
  | .fcmp c f => Sys2Proof.Machine.execFcmp c f s
  | .dcmp c f => Sys2Proof.Machine.execDcmp c f s
  | .sqrt c f => Sys2Proof.Machine.execSqrt c f s
  | .cvt c f => Sys2Proof.Machine.execCvt c f s
  | .cvtPk c f => Sys2Proof.Machine.execCvtPk c f s
  | .cvtF8 c f => Sys2Proof.Machine.execCvtF8 c f s
  | .mov c f => Sys2Proof.Machine.execMov c f s
  | .movi c f => Sys2Proof.Machine.execMovi c f s
  | .movhi c f => Sys2Proof.Machine.execMovhi c f s
  | .addi c f => Sys2Proof.Machine.execAddi c f s
  | .sregRd c f => Sys2Proof.Machine.execSregRd c f s
  | .sregWr c f => Sys2Proof.Machine.execSregWr c f s
  | .plop c f => Sys2Proof.Machine.execPlop c f s
  | .pdead c f => Sys2Proof.Machine.execPdead c f s
  | .p2n c f => Sys2Proof.Machine.execP2n c f s
  | .n2p c f => Sys2Proof.Machine.execN2p c f s
  | .lmask c f => Sys2Proof.Machine.execLmask c f s
  | .fmovi c f => Sys2Proof.Machine.execFmovi c f s
  | .muli c f => Sys2Proof.Machine.execMuli c f s
  | .bra c f => Sys2Proof.Machine.execBra c f s
  | .brx c f => Sys2Proof.Machine.execBrx c f s
  | .call c f => Sys2Proof.Machine.execCall c f s
  | .callx c f => Sys2Proof.Machine.execCallx c f s
  | .ret c f => Sys2Proof.Machine.execRet c f s
  | .loop c f => Sys2Proof.Machine.execLoop c f s
  | .braZ c f => Sys2Proof.Machine.execBraZ c f s
  | .braNz c f => Sys2Proof.Machine.execBraNz c f s
  | .jtab c f => Sys2Proof.Machine.execJtab c f s
  | .join c f => Sys2Proof.Machine.execJoin c f s
  | .exit c f => Sys2Proof.Machine.execExit c f s
  | .yield c f => Sys2Proof.Machine.execYield c f s
  | .regroup c f => Sys2Proof.Machine.execRegroup c f s
  | .launch c f => Sys2Proof.Machine.execLaunch c f s
  | .launchPool c f => Sys2Proof.Machine.execLaunchPool c f s
  | .exitWk c f => Sys2Proof.Machine.execExitWk c f s
  | .barArv c f => Sys2Proof.Machine.execBarArv c f s
  | .barSync c f => Sys2Proof.Machine.execBarSync c f s
  | .barRd c f => Sys2Proof.Machine.execBarRd c f s
  | .setJoin c f => Sys2Proof.Machine.execSetJoin c f s
  | .setLeave c f => Sys2Proof.Machine.execSetLeave c f s
  | .setSync c f => Sys2Proof.Machine.execSetSync c f s
  | .gate c f => Sys2Proof.Machine.execGate c f s
  | .rls c f => Sys2Proof.Machine.execRls c f s
  | .leadAdv c f => Sys2Proof.Machine.execLeadAdv c f s
  | .leadWait c f => Sys2Proof.Machine.execLeadWait c f s
  | .twait c f => Sys2Proof.Machine.execTwait c f s
  | .trap c f => Sys2Proof.Machine.execTrap c f s
  | .sysc c f => Sys2Proof.Machine.execSysc c f s
  | .syscTry c f => Sys2Proof.Machine.execSyscTry c f s
  | .brk c f => Sys2Proof.Machine.execBrk c f s
  | .nop c f => Sys2Proof.Machine.execNop c f s
  | .ld c f => Sys2Proof.Machine.execLd c f s
  | .st c f => Sys2Proof.Machine.execSt c f s
  | .ldK c f => Sys2Proof.Machine.execLdK c f s
  | .stK c f => Sys2Proof.Machine.execStK c f s
  | .stCmp c f => Sys2Proof.Machine.execStCmp c f s
  | .ldExp c f => Sys2Proof.Machine.execLdExp c f s
  | .pf c f => Sys2Proof.Machine.execPf c f s
  | .pfK c f => Sys2Proof.Machine.execPfK c f s
  | .stBm c f => Sys2Proof.Machine.execStBm c f s
  | .ld_2 c f => Sys2Proof.Machine.execLd_2 c f s
  | .st_2 c f => Sys2Proof.Machine.execSt_2 c f s
  | .l1Inv c f => Sys2Proof.Machine.execL1Inv c f s
  | .stNt c f => Sys2Proof.Machine.execStNt c f s
  | .ldNt c f => Sys2Proof.Machine.execLdNt c f s
  | .stZ c f => Sys2Proof.Machine.execStZ c f s
  | .xlatPf c f => Sys2Proof.Machine.execXlatPf c f s
  | .atomAdd c f => Sys2Proof.Machine.execAtomAdd c f s
  | .atomMin c f => Sys2Proof.Machine.execAtomMin c f s
  | .atomMax c f => Sys2Proof.Machine.execAtomMax c f s
  | .atomAnd c f => Sys2Proof.Machine.execAtomAnd c f s
  | .atomOr c f => Sys2Proof.Machine.execAtomOr c f s
  | .atomXor c f => Sys2Proof.Machine.execAtomXor c f s
  | .atomXchg c f => Sys2Proof.Machine.execAtomXchg c f s
  | .atomCas c f => Sys2Proof.Machine.execAtomCas c f s
  | .atomInc c f => Sys2Proof.Machine.execAtomInc c f s
  | .atomFadd c f => Sys2Proof.Machine.execAtomFadd c f s
  | .atomFmin c f => Sys2Proof.Machine.execAtomFmin c f s
  | .atomFmax c f => Sys2Proof.Machine.execAtomFmax c f s
  | .red c f => Sys2Proof.Machine.execRed c f s
  | .fence c f => Sys2Proof.Machine.execFence c f s
  | .wait c f => Sys2Proof.Machine.execWait c f s
  | .wake c f => Sys2Proof.Machine.execWake c f s
  | .lockAcq c f => Sys2Proof.Machine.execLockAcq c f s
  | .lockTry c f => Sys2Proof.Machine.execLockTry c f s
  | .lockRel c f => Sys2Proof.Machine.execLockRel c f s
  | .promMake c f => Sys2Proof.Machine.execPromMake c f s
  | .promKeep c f => Sys2Proof.Machine.execPromKeep c f s
  | .promWait c f => Sys2Proof.Machine.execPromWait c f s
  | .promTry c f => Sys2Proof.Machine.execPromTry c f s
  | .claimGet c f => Sys2Proof.Machine.execClaimGet c f s
  | .claimTry c f => Sys2Proof.Machine.execClaimTry c f s
  | .claimPut c f => Sys2Proof.Machine.execClaimPut c f s
  | .heirSet c f => Sys2Proof.Machine.execHeirSet c f s
  | .estQ c f => Sys2Proof.Machine.execEstQ c f s
  | .estRd c f => Sys2Proof.Machine.execEstRd c f s
  | .promDrop c f => Sys2Proof.Machine.execPromDrop c f s
  | .claimPass c f => Sys2Proof.Machine.execClaimPass c f s
  | .heirClr c f => Sys2Proof.Machine.execHeirClr c f s
  | .cpTile c f => Sys2Proof.Machine.execCpTile c f s
  | .cpBld c f => Sys2Proof.Machine.execCpBld c f s
  | .cpBulk c f => Sys2Proof.Machine.execCpBulk c f s
  | .cpGath c f => Sys2Proof.Machine.execCpGath c f s
  | .cpScat c f => Sys2Proof.Machine.execCpScat c f s
  | .cpRes c f => Sys2Proof.Machine.execCpRes c f s
  | .tagWait c f => Sys2Proof.Machine.execTagWait c f s
  | .tagAny c f => Sys2Proof.Machine.execTagAny c f s
  | .tagFfr c f => Sys2Proof.Machine.execTagFfr c f s
  | .tagSt c f => Sys2Proof.Machine.execTagSt c f s
  | .dzSub c f => Sys2Proof.Machine.execDzSub c f s
  | .dzRes c f => Sys2Proof.Machine.execDzRes c f s
  | .cpOut c f => Sys2Proof.Machine.execCpOut c f s
  | .tagClr c f => Sys2Proof.Machine.execTagClr c f s
  | .cpFill c f => Sys2Proof.Machine.execCpFill c f s
  | .dzSt c f => Sys2Proof.Machine.execDzSt c f s
  | .mma c f => Sys2Proof.Machine.execMma c f s
  | .mmaSk c f => Sys2Proof.Machine.execMmaSk c f s
  | .ringAdv c f => Sys2Proof.Machine.execRingAdv c f s
  | .ringRd c f => Sys2Proof.Machine.execRingRd c f s
  | .ringWr c f => Sys2Proof.Machine.execRingWr c f s
  | .ringClr c f => Sys2Proof.Machine.execRingClr c f s
  | .ringSt c f => Sys2Proof.Machine.execRingSt c f s
  | .epiPost c f => Sys2Proof.Machine.execEpiPost c f s
  | .chkRd c f => Sys2Proof.Machine.execChkRd c f s
  | .nxPut c f => Sys2Proof.Machine.execNxPut c f s
  | .nxGet c f => Sys2Proof.Machine.execNxGet c f s
  | .nxSend c f => Sys2Proof.Machine.execNxSend c f s
  | .nxAtom c f => Sys2Proof.Machine.execNxAtom c f s
  | .nxRed c f => Sys2Proof.Machine.execNxRed c f s
  | .nxCnt c f => Sys2Proof.Machine.execNxCnt c f s
  | .nxCc c f => Sys2Proof.Machine.execNxCc c f s
  | .scriptEnd => Sys2Proof.Machine.execScriptEnd s
  | .scriptDrop => Sys2Proof.Machine.execScriptDrop s
  | .scriptLdp d w => Sys2Proof.Machine.execScriptLdp d w s
  | .scriptLdc d w => Sys2Proof.Machine.execScriptLdc d w s
  | .scriptStc a w => Sys2Proof.Machine.execScriptStc a w s
  | .scriptLi d imm => Sys2Proof.Machine.execScriptLi d imm s
  | .scriptLih d imm => Sys2Proof.Machine.execScriptLih d imm s
  | .scriptBfx d a l p => Sys2Proof.Machine.execScriptBfx d a l p s
  | .scriptAdd d a b => Sys2Proof.Machine.execScriptAdd d a b s
  | .scriptSub d a b => Sys2Proof.Machine.execScriptSub d a b s
  | .scriptAnd d a b => Sys2Proof.Machine.execScriptAnd d a b s
  | .scriptOr d a b => Sys2Proof.Machine.execScriptOr d a b s
  | .scriptAddi d a imm => Sys2Proof.Machine.execScriptAddi d a imm s
  | .scriptShl d a n => Sys2Proof.Machine.execScriptShl d a n s
  | .scriptShr d a n => Sys2Proof.Machine.execScriptShr d a n s
  | .scriptSeq d a b => Sys2Proof.Machine.execScriptSeq d a b s
  | .scriptSltu d a b => Sys2Proof.Machine.execScriptSltu d a b s
  | .scriptBz a o => Sys2Proof.Machine.execScriptBz a o s
  | .scriptBnz a o => Sys2Proof.Machine.execScriptBnz a o s
  | .scriptBr o => Sys2Proof.Machine.execScriptBr o s
  | .scriptLoop d n l => Sys2Proof.Machine.execScriptLoop d n l s
  | .scriptLaunch d a b => Sys2Proof.Machine.execScriptLaunch d a b s
  | .scriptEvwait a b => Sys2Proof.Machine.execScriptEvwait a b s
  | .scriptEvsig a b => Sys2Proof.Machine.execScriptEvsig a b s
  | .scriptPost a b => Sys2Proof.Machine.execScriptPost a b s
  | .scriptGreq d c => Sys2Proof.Machine.execScriptGreq d c s
  | .longLatencyCompletion op => Sys2Proof.Machine.execLongLatencyCompletion op s
  | .lineFetch core slot slice err => Sys2Proof.Machine.execLineFetch core slot slice err s
  | .issueChoice core quarter => Sys2Proof.Machine.execIssueChoice core quarter s
  | .streamAged core slot slice => Sys2Proof.Machine.execStreamAged core slot slice s
  | .reconvergenceHoldExpiry core slot slice => Sys2Proof.Machine.execReconvergenceHoldExpiry core slot slice s
  | .sweepIssue core slot slice => Sys2Proof.Machine.execSweepIssue core slot slice s
  | .yieldExpiry core slot slice => Sys2Proof.Machine.execYieldExpiry core slot slice s
  | .twaitExpiry core slot lane => Sys2Proof.Machine.execTwaitExpiry core slot lane s
  | .leadCounterUpdate team => Sys2Proof.Machine.execLeadCounterUpdate team s
  | .syscReply core slot => Sys2Proof.Machine.execSyscReply core slot s
  | .poolRecordFetch team => Sys2Proof.Machine.execPoolRecordFetch team s
  | .binFlush team bin => Sys2Proof.Machine.execBinFlush team bin s
  | .groupFormation team bin => Sys2Proof.Machine.execGroupFormation team bin s
  | .teamRangeGrant launch die => Sys2Proof.Machine.execTeamRangeGrant launch die s
  | .teamPlacement launch die => Sys2Proof.Machine.execTeamPlacement launch die s
  | .transformBinding team => Sys2Proof.Machine.execTransformBinding team s
  | .groupRelease team => Sys2Proof.Machine.execGroupRelease team s
  | .groupRetirement core slot => Sys2Proof.Machine.execGroupRetirement core slot s
  | .teamRetirement team => Sys2Proof.Machine.execTeamRetirement team s
  | .launchCompletion launch => Sys2Proof.Machine.execLaunchCompletion launch s
  | .kick port offset access => Sys2Proof.Machine.execKick port offset access s
  | .launchPacket queue => Sys2Proof.Machine.execLaunchPacket queue s
  | .poolPacket queue => Sys2Proof.Machine.execPoolPacket queue s
  | .waitPacket queue => Sys2Proof.Machine.execWaitPacket queue s
  | .signalPacket queue => Sys2Proof.Machine.execSignalPacket queue s
  | .scriptPacket queue => Sys2Proof.Machine.execScriptPacket queue s
  | .kickEarlyTimeout queue => Sys2Proof.Machine.execKickEarlyTimeout queue s
  | .scriptBudgetExceeded queue => Sys2Proof.Machine.execScriptBudgetExceeded queue s
  | .scriptBinding queue image => Sys2Proof.Machine.execScriptBinding queue image s
  | .matrixQueueExecute core err => Sys2Proof.Machine.execMatrixQueueExecute core err s
  | .puntyChunk core err => Sys2Proof.Machine.execPuntyChunk core err s
  | .lehrRow core => Sys2Proof.Machine.execLehrRow core s
  | .culletJobStart engine => Sys2Proof.Machine.execCulletJobStart engine s
  | .culletChunk engine => Sys2Proof.Machine.execCulletChunk engine s
  | .nxCommandCompletion cmd answer => Sys2Proof.Machine.execNxCommandCompletion cmd answer s
  | .inboundPut msg => Sys2Proof.Machine.execInboundPut msg s
  | .inboundGet head addr len => Sys2Proof.Machine.execInboundGet head addr len s
  | .inboundSend msg => Sys2Proof.Machine.execInboundSend msg s
  | .inboundDeferrableSend msg => Sys2Proof.Machine.execInboundDeferrableSend msg s
  | .inboundAtomic msg => Sys2Proof.Machine.execInboundAtomic msg s
  | .inboundPartial msg => Sys2Proof.Machine.execInboundPartial msg s
  | .stepAbort head cid abort => Sys2Proof.Machine.execStepAbort head cid abort s
  | .retransmissionTimeout handle path => Sys2Proof.Machine.execRetransmissionTimeout handle path s
  | .pathProbe handle path => Sys2Proof.Machine.execPathProbe handle path s
  | .pathRevival handle path => Sys2Proof.Machine.execPathRevival handle path s
  | .pathGraceExpiry handle => Sys2Proof.Machine.execPathGraceExpiry handle s
  | .linkDown port => Sys2Proof.Machine.execLinkDown port s
  | .timeSyncMessage offset lock => Sys2Proof.Machine.execTimeSyncMessage offset lock s
  | .hostMemrd port read => Sys2Proof.Machine.execHostMemrd port read s
  | .hostMemwr port hpa data poison => Sys2Proof.Machine.execHostMemwr port hpa data poison s
  | .hostAtomicop port hpa op width operand compare => Sys2Proof.Machine.execHostAtomicop port hpa op width operand compare s
  | .wakeWindowWrite port offset access => Sys2Proof.Machine.execWakeWindowWrite port offset access s
  | .atsTranslationCompletion die pasid page answer => Sys2Proof.Machine.execAtsTranslationCompletion die pasid page answer s
  | .atsInvalidationRequest pasid page all => Sys2Proof.Machine.execAtsInvalidationRequest pasid page all s
  | .invalidationCompletion pasid page => Sys2Proof.Machine.execInvalidationCompletion pasid page s
  | .prgResponse pasid page success => Sys2Proof.Machine.execPrgResponse pasid page success s
  | .pageRequestTimeout pasid page => Sys2Proof.Machine.execPageRequestTimeout pasid page s
  | .cmpRestore restore => Sys2Proof.Machine.execCmpRestore restore s
  | .frameMigration tenant frame target pages => Sys2Proof.Machine.execFrameMigration tenant frame target pages s
  | .splinter tenant va cause => Sys2Proof.Machine.execSplinter tenant va cause s
  | .patrolScrub pa outcome => Sys2Proof.Machine.execPatrolScrub pa outcome s
  | .gangKill gang => Sys2Proof.Machine.execGangKill gang s
  | .gafferElection => Sys2Proof.Machine.execGafferElection s
  | .quantumExpiry partition => Sys2Proof.Machine.execQuantumExpiry partition s
  | .partitionHalt partition => Sys2Proof.Machine.execPartitionHalt partition s
  | .breakpointHit core slot lane => Sys2Proof.Machine.execBreakpointHit core slot lane s
  | .powerBudgetThrottle die => Sys2Proof.Machine.execPowerBudgetThrottle die s
  | .thermalThrottle die => Sys2Proof.Machine.execThermalThrottle die s
  | .thermalShutdown die compute => Sys2Proof.Machine.execThermalShutdown die compute s
  | .powerGood firmware kernel => Sys2Proof.Machine.execPowerGood firmware kernel s
  | .fullResetRequest quiesced => Sys2Proof.Machine.execFullResetRequest quiesced s
  | .computeReset => Sys2Proof.Machine.execComputeReset s
  | .pldmMonitoring => Sys2Proof.Machine.execPldmMonitoring s
  | .pldmFirmwareUpdate image => Sys2Proof.Machine.execPldmFirmwareUpdate image s
  | .haltPartition die benches => Sys2Proof.Machine.execHaltPartition die benches s
  | .haltAndSwapOut die benches shadow => Sys2Proof.Machine.execHaltAndSwapOut die benches shadow s
  | .swapInAndResume die benches shadow => Sys2Proof.Machine.execSwapInAndResume die benches shadow s
  | .resumeInPlace die benches => Sys2Proof.Machine.execResumeInPlace die benches s
  | .setQuantum die benches ns => Sys2Proof.Machine.execSetQuantum die benches ns s
  | .answerFault fid outcome => Sys2Proof.Machine.execAnswerFault fid outcome s
  | .debugStep core slot lane groupScope => Sys2Proof.Machine.execDebugStep core slot lane groupScope s
  | .debugResume core slot => Sys2Proof.Machine.execDebugResume core slot s
  | .returnWithdrawnCore core => Sys2Proof.Machine.execReturnWithdrawnCore core s
  | .fenceDie die => Sys2Proof.Machine.execFenceDie die s
  | .killGroupLanes core slot mask => Sys2Proof.Machine.execKillGroupLanes core slot mask s
  | .unlistedCommand cmd => Sys2Proof.Machine.execUnlistedCommand cmd s
  | .stateWindowWrite pa value session => Sys2Proof.Machine.execStateWindowWrite pa value session s
  | .powerLoss => Sys2Proof.Machine.execPowerLoss s
  | .partitionReset die benches => Sys2Proof.Machine.execPartitionReset die benches s
  | .capacityTierEviction tenant pages cold => Sys2Proof.Machine.execCapacityTierEviction tenant pages cold s
  | .hostOverflowDrain page frame => Sys2Proof.Machine.execHostOverflowDrain page frame s
  | .gledenCoreAccess pa size op => Sys2Proof.Machine.execGledenCoreAccess pa size op s
  | .connectionOpen handle tenant peer jobKey paths => Sys2Proof.Machine.execConnectionOpen handle tenant peer jobKey paths s
  | .connectionClose handle => Sys2Proof.Machine.execConnectionClose handle s
  | .tenantCreation tenant cfg => Sys2Proof.Machine.execTenantCreation tenant cfg s
  | .tenantDestruction tenant => Sys2Proof.Machine.execTenantDestruction tenant s
  | .configurationRecord record => Sys2Proof.Machine.execConfigurationRecord record s
  | .attestationReport tenant nonce addr => Sys2Proof.Machine.execAttestationReport tenant nonce addr s
  | .debugConsentToken tenant token => Sys2Proof.Machine.execDebugConsentToken tenant token s
  | .shadowImageMove die shadow toMemory => Sys2Proof.Machine.execShadowImageMove die shadow toMemory s
  | .hdmDecoderProgramming port base => Sys2Proof.Machine.execHdmDecoderProgramming port base s

end Sys2Proof.Machine
end

