-- ==== Sys2Proof/Machine/Schedule.lean ====
section
/-! DEFINITION. What a step of the module consists of: an issue of a stream, a bytecode of a script, a step of one of the
module's own agents; and which of these come next (spec/02_execution_model.md R29 to R32, R50,
spec/03_architectural_state.md R71 to R76, spec/16_launch_queues_scheduling.md R303). Log entries 5 and 17. -/

namespace Sys2Proof.Machine

/-! ### An issue -/

/-- The lanes of a granted issue set that are still active at its lowest PC (R30). -/
def Group.issueSet (g : Group) (mask : LaneMask) : Option (Word × LaneMask) :=
  let live := (lanesOf mask).filter fun l => (g.lane l).status = .active
  match live with
  | [] => none
  | l0 :: rest =>
    let pc := rest.foldl (fun (p : Word) l => if (g.lane l).pc.toNat < p.toNat then (g.lane l).pc else p) (g.lane l0).pc
    some (pc, maskOf fun l => live.contains l && (g.lane l).pc == pc)

/-- The line buffer of one of some lanes' slices that holds the line of a PC. -/
def Group.lineBuf (g : Group) (m : LaneMask) (pc : Word) : Option LineBuf :=
  ((List.range 8).filterMap fun i =>
    if (lanesOf m).any fun l => l / 4 == i then (g.slices.getD i Slice.fresh).line else none).find? fun b => b.addr == lineOf pc

/-- What a granted issue records in its lanes and slices (R161, R303): its cycle, and that ageing and `yield` end. -/
def State.grantIssue (s : State) (key : Nat) (m : LaneMask) : State :=
  s.modGroup key fun g =>
    (g.mapLanes fun l e =>
      if has m l then { e with issued := s.cycle + 1, unchecked := false } else e).modSlices
      (fun i => (lanesOf m).any fun l => l / 4 == i) fun c => { c with aged := false, yield := none }

/-- After the issue of a step command, its lanes are stopped again (R370); where the instruction has not issued, for the next
attempt. -/
def Lane.afterStep (e : Lane) : Lane :=
  if !e.restop then e
  else match e.status with
    | .active => { e with restop := false, park := { e.park with debug := true }, status := .parked }
    | .parked => { e with restop := false, park := { e.park with debug := true } }
    | .exited => { e with restop := false }
    | .waiting => e

/-- The count of a slice resets once its minimum PC has risen above H (R50). -/
def Group.settleSweep (g : Group) : Group :=
  { g with slices := (withIdx g.slices).map fun c =>
      match c.2.high, g.minPc c.1 with
      | some h, some p => if h.toNat < p.toNat then { c.2 with count := 0, high := none } else c.2
      | _, _ => c.2 }

/-- Whether a lane still stands before the instruction that a step command names. -/
def Lane.unstepped (e : Lane) : Bool := e.status = .active && e.restop && e.stepBp

/-- A step command is done once the instruction has issued in its lanes. -/
def State.settleStep (s : State) (key : Nat) (m : LaneMask) : State :=
  if s.work.steps.contains (key, m) && !((lanesOf m).any fun l => (s.laneAt (key, l)).unstepped) then s.stepDone key m else s

/-- What follows an issue: no issue is in progress, stepped lanes stop, sweep counts settle. -/
def State.afterIssue (s : State) (key : Nat) (m : LaneMask) : State :=
  let s := s.settleStep key m
  { (s.modGroup key fun g => (g.mapLanes fun l e => if has m l then e.afterStep else e).settleSweep) with cur := .none }

/-- Continues from a next state. -/
def andThen (o : Host.Outcome State Fault Refusal) (f : State → State) : Host.Outcome State Fault Refusal :=
  match o with
  | .next s => .next (f s)
  | .fault e => .fault e
  | .refused r => .refused r

/-- The instruction that the slot at a PC of a line holds. -/
def LineBuf.instr (b : LineBuf) (pc : Word) : Except Reject Instr := decodeSlot (b.slot (pc.toNat % 8))

/-- The lanes that entered their slot unchecked and find it is no target (R295). -/
def Group.badEntries (g : Group) (b : LineBuf) (m : LaneMask) (pc : Word) : List Nat :=
  if b.word.getLsbD (27 + pc.toNat % 8) then [] else (lanesOf m).filter fun l => (g.lane l).unchecked

/-- The slices of some lanes. -/
def slicesOf (m : LaneMask) : List Nat := (List.range 8).filter fun i => (lanesOf m).any fun l => l / 4 == i

/-- Whether an instruction word may issue for some lanes of a group at a PC, now that other streams of the cycle have issued
(R63 items 4 and 5, R65, R268). -/
def State.mayGo (s : State) (key : Nat) (g : Group) (m : LaneMask) (pc : Word) (w : BitVec 96) : Bool :=
  g.flagsOk w && !s.slotHolds key m pc w

/-- The state in which an instruction word of a stream issues. -/
def State.issuing (s : State) (core slot : Nat) (m : LaneMask) (pc : Word) (w : BitVec 96) : State :=
  let key := groupKey core slot
  { (s.occupy key (slicesOf m) w).grantIssue key m with cur := .stream core slot m pc }

/-- The lanes of an issue that have gone on to the next slot: those that may take the second instruction of a pair (R91,
R358). -/
def Group.goneOn (g g0 : Group) (m : LaneMask) (pc : Word) : LaneMask :=
  maskOf fun l => has m l && (g.lane l).status = .active && (g.lane l).pc == succPc pc && (g.lane l).hnd == (g0.lane l).hnd

/-- After the instruction in a slot, the one in the next slot of the line issues in the same cycle where the line pairs them
and the conditions of R91 hold: their pipes differ, the first is not in the branch and synchronisation pipe, DIST of the second
is 0. Whether its flags are clear is found when it issues. It has no effect in a lane that the first has not retired (R358). -/
def State.pairNext (s : State) (core slot : Nat) (g0 : Group) (b : LineBuf) (m : LaneMask) (pc : Word) : State :=
  let key := groupKey core slot
  let n := pc.toNat % 8
  let first := pipeOf (wordOpc (b.slot n))
  let w := b.slot (n + 1)
  match s.group? key with
  | none => s
  | some g =>
    let m2 := g.goneOn g0 m pc
    let t : Stream := ⟨succPc pc, m2, slicesOf m2⟩
    if n < 4 && b.word.getLsbD (23 + n) && first != pipeOf (wordOpc w) && first != 1 && wordDist w = 0 && m2 != 0 &&
        s.pipeFree key t.slices w && (s.stops g t).isEmpty && !g.heldBack t b then
      { s with agenda := .issue core slot m2 :: s.agenda }
    else s

/-- One issue of a stream (R30, R31): the instruction at its PC, for the lanes of its issue set, and the second of a pair after
it. Poison in the line is consumed (R73); a reserved opcode, a malformed line, and an entry at an unmarked slot are illegal
instructions (R94, R356). -/
def runIssue (core slot : Nat) (mask : LaneMask) (s : State) : Host.Outcome State Fault Refusal :=
  let key := groupKey core slot
  match s.group? key with
  | none => .next s
  | some g => match g.issueSet mask with
    | none => .next s
    | some (pc, m) => match g.lineBuf m pc with
      | none => .next s
      | some b =>
        let w := b.slot (pc.toNat % 8)
        let trap := fun (ls : List Nat) (opc sub : Nat) (addr : Word) =>
          Host.Outcome.next (((s.grantIssue key m).takeTraps key pc opc (ls.map fun l => ⟨l, 1, sub, addr⟩)).bump.afterIssue key m)
        if !s.mayGo key g m pc w then .next (s.afterIssue key m)
        else if b.psn then .next (s.fetchKill key g 1 pc)
        else match b.instr pc with
          | .error _ => trap (lanesOf m) (wordOpc w) 1 0
          | .ok i =>
            if b.malformed then trap (lanesOf m) 0 2 0
            else if !(g.badEntries b m pc).isEmpty then trap (g.badEntries b m pc) 0 12 pc
            else andThen (exec i (s.issuing core slot m pc w)) fun s => (s.afterIssue key m).pairNext core slot g b m pc

/-! ### A bytecode -/

/-- Performs a bytecode of the script in progress. -/
def runScript (o : ScriptOp) (s : State) : Host.Outcome State Fault Refusal :=
  match o with
  | .ends => execScriptEnd s
  | .drop => execScriptDrop s
  | .ldp d w => execScriptLdp d w s
  | .ldc d w => execScriptLdc d w s
  | .stc a w => execScriptStc a w s
  | .li d i => execScriptLi d i s
  | .lih d i => execScriptLih d i s
  | .bfx d a l p => execScriptBfx d a l p s
  | .add d a b => execScriptAdd d a b s
  | .sub d a b => execScriptSub d a b s
  | .and d a b => execScriptAnd d a b s
  | .or d a b => execScriptOr d a b s
  | .addi d a i => execScriptAddi d a i s
  | .shl d a n => execScriptShl d a n s
  | .shr d a n => execScriptShr d a n s
  | .seq d a b => execScriptSeq d a b s
  | .sltu d a b => execScriptSltu d a b s
  | .bz a o => execScriptBz a o s
  | .bnz a o => execScriptBnz a o s
  | .br o => execScriptBr o s
  | .loop d n l => execScriptLoop d n l s
  | .launch d a b => execScriptLaunch d a b s
  | .evwait a b => execScriptEvwait a b s
  | .evsig a b => execScriptEvsig a b s
  | .post a b => execScriptPost a b s
  | .greq d c => execScriptGreq d c s

/-- The next bytecode of a queue's script (R289 to R291): the 513th ends the packet. -/
def runBytecode (queue : Nat) (s : State) : Host.Outcome State Fault Refusal :=
  match (s.queue queue).run with
  | none => .next s
  | some r =>
    if r.builtin then .next s
    else if scriptBudget ≤ r.count then execScriptBudgetExceeded queue s
    else match ((s.queue queue).code[r.idx]?).bind scriptOf with
      | some o => andThen (runScript o { s with cur := .script queue }) fun s => { s with cur := .none }
      | none => .next s

/-! ### Steps of the module's own agents -/

/-- The row of the opcode table that an agent's step is. -/
noncomputable def Ev.instr : Ev → Instr
  | .longLatencyCompletion op => .longLatencyCompletion op
  | .lineFetch core slot slice err => .lineFetch core slot slice err
  | .issueChoice core quarter => .issueChoice core quarter
  | .streamAged core slot slice => .streamAged core slot slice
  | .reconvergenceHoldExpiry core slot slice => .reconvergenceHoldExpiry core slot slice
  | .sweepIssue core slot slice => .sweepIssue core slot slice
  | .yieldExpiry core slot slice => .yieldExpiry core slot slice
  | .twaitExpiry core slot lane => .twaitExpiry core slot lane
  | .leadCounterUpdate team => .leadCounterUpdate team
  | .poolRecordFetch team => .poolRecordFetch team
  | .binFlush team bin => .binFlush team bin
  | .groupFormation team bin => .groupFormation team bin
  | .teamRangeGrant launch die => .teamRangeGrant launch die
  | .teamPlacement launch die => .teamPlacement launch die
  | .transformBinding team => .transformBinding team
  | .groupRelease team => .groupRelease team
  | .groupRetirement core slot => .groupRetirement core slot
  | .teamRetirement team => .teamRetirement team
  | .launchCompletion launch => .launchCompletion launch
  | .kick port offset access => .kick port offset access
  | .launchPacket queue => .launchPacket queue
  | .poolPacket queue => .poolPacket queue
  | .waitPacket queue => .waitPacket queue
  | .signalPacket queue => .signalPacket queue
  | .scriptPacket queue => .scriptPacket queue
  | .kickEarlyTimeout queue => .kickEarlyTimeout queue
  | .scriptBudgetExceeded queue => .scriptBudgetExceeded queue
  | .matrixQueueExecute core err => .matrixQueueExecute core err
  | .puntyChunk core err => .puntyChunk core err
  | .lehrRow core => .lehrRow core
  | .culletJobStart engine => .culletJobStart engine
  | .culletChunk engine => .culletChunk engine
  | .pathProbe handle path => .pathProbe handle path
  | .pathGraceExpiry handle => .pathGraceExpiry handle
  | .invalidationCompletion pasid page => .invalidationCompletion pasid page
  | .splinter tenant va cause => .splinter tenant va cause
  | .frameMigration tenant frame target pages => .frameMigration tenant frame target pages
  | .syscReply core slot => .syscReply core slot
  | .pageRequestTimeout pasid page => .pageRequestTimeout pasid page
  | .cmpRestore restore => .cmpRestore restore
  | .gangKill gang => .gangKill gang
  | .gafferElection => .gafferElection
  | .quantumExpiry partition => .quantumExpiry partition
  | .partitionHalt partition => .partitionHalt partition
  | .breakpointHit core slot lane => .breakpointHit core slot lane
  | .computeReset => .computeReset
  | .inboundPartial msg => .inboundPartial msg

/-- Performs a step of one of the module's own agents. -/
def runEv (e : Ev) (s : State) : Host.Outcome State Fault Refusal :=
  match e with
  | .longLatencyCompletion op => execLongLatencyCompletion op s
  | .lineFetch core slot slice err => execLineFetch core slot slice err s
  | .issueChoice core quarter => execIssueChoice core quarter s
  | .streamAged core slot slice => execStreamAged core slot slice s
  | .reconvergenceHoldExpiry core slot slice => execReconvergenceHoldExpiry core slot slice s
  | .sweepIssue core slot slice => execSweepIssue core slot slice s
  | .yieldExpiry core slot slice => execYieldExpiry core slot slice s
  | .twaitExpiry core slot lane => execTwaitExpiry core slot lane s
  | .leadCounterUpdate team => execLeadCounterUpdate team s
  | .poolRecordFetch team => execPoolRecordFetch team s
  | .binFlush team bin => execBinFlush team bin s
  | .groupFormation team bin => execGroupFormation team bin s
  | .teamRangeGrant launch die => execTeamRangeGrant launch die s
  | .teamPlacement launch die => execTeamPlacement launch die s
  | .transformBinding team => execTransformBinding team s
  | .groupRelease team => execGroupRelease team s
  | .groupRetirement core slot => execGroupRetirement core slot s
  | .teamRetirement team => execTeamRetirement team s
  | .launchCompletion launch => execLaunchCompletion launch s
  | .kick port offset access => execKick port offset access s
  | .launchPacket queue => execLaunchPacket queue s
  | .poolPacket queue => execPoolPacket queue s
  | .waitPacket queue => execWaitPacket queue s
  | .signalPacket queue => execSignalPacket queue s
  | .scriptPacket queue => execScriptPacket queue s
  | .kickEarlyTimeout queue => execKickEarlyTimeout queue s
  | .scriptBudgetExceeded queue => execScriptBudgetExceeded queue s
  | .matrixQueueExecute core err => execMatrixQueueExecute core err s
  | .puntyChunk core err => execPuntyChunk core err s
  | .lehrRow core => execLehrRow core s
  | .culletJobStart engine => execCulletJobStart engine s
  | .culletChunk engine => execCulletChunk engine s
  | .pathProbe handle path => execPathProbe handle path s
  | .pathGraceExpiry handle => execPathGraceExpiry handle s
  | .invalidationCompletion pasid page => execInvalidationCompletion pasid page s
  | .splinter tenant va cause => execSplinter tenant va cause s
  | .frameMigration tenant frame target pages => execFrameMigration tenant frame target pages s
  | .syscReply core slot => execSyscReply core slot s
  | .pageRequestTimeout pasid page => execPageRequestTimeout pasid page s
  | .cmpRestore restore => execCmpRestore restore s
  | .gangKill gang => execGangKill gang s
  | .gafferElection => execGafferElection s
  | .quantumExpiry partition => execQuantumExpiry partition s
  | .partitionHalt partition => execPartitionHalt partition s
  | .breakpointHit core slot lane => execBreakpointHit core slot lane s
  | .computeReset => execComputeReset s
  | .inboundPartial msg => execInboundPartial msg s

/-! ### The next cycle -/

/-- Whether something whose moment the spec leaves open happens now, a free choice. -/
def State.drawn (s : State) (k : Nat) : Bool := Config.freeBit (2 ^ 80 + s.free * 2 ^ 24 + k)

/-- The error of the arithmetic units that the next checked issue meets, if any (R371). -/
def State.drawUpset (s : State) : State :=
  let k := 2 ^ 82 + s.free * 2 ^ 24 + 2 ^ 23
  { s with upset :=
      if s.drawn (2 ^ 23) then .none
      else .struck (Config.freeNat k % groupLanes) (Config.freeWord k) (Config.freeWord (k + 1)) }

/-- The place of storage, or the link, that has an error in this cycle, if any, and whether it lasts: what the environment brings
(R371, R403, R417). -/
def State.drawGranule (s : State) : Option (Granule × Bool) :=
  let n := fun (k m : Nat) => Config.freeNat (2 ^ 82 + s.free * 2 ^ 24 + 2 ^ 23 + 16 + k) % m
  let group := (s.work.groups[n 1 s.work.groups.length]?).map fun e => e.1
  let core := (s.work.cores[n 2 s.work.cores.length]?).map fun e => e.1
  let cell : Option Granule := match n 0 13 with
    | 0 => group.map fun g => .queue g (n 3 groupLanes) (n 4 16)
    | 1 => group.map fun g => .named g (n 3 groupLanes) (n 4 32)
    | 2 => group.map fun g => .pred g (n 3 groupLanes) (n 4 8)
    | 3 => group.map fun g => .uniform g (n 4 15)
    | 4 => (s.work.teams[n 1 s.work.teams.length]?).map fun t => .scratch t.1 (n 4 ((t.2.scrBytes + 7) / 8))
    | 5 => core.map fun c => .bstore c (n 3 64) (n 4 8192)
    | 6 => core.map fun c => .ring c (n 3 16) (n 4 2048)
    | 7 => core.map fun c => .l1 c (n 4 l1Lines)
    | 8 => some (.cache (32 * n 4 (2 ^ 36)))
    | 9 => some (.dirty (8 * n 4 (2 ^ 38)))
    | 10 => some (.hub (trustedBase + 8 * n 4 (2 ^ 23)))
    | 11 => some .mram
    | _ => some (.link (n 4 8))
  if s.drawn (2 ^ 23 + 1) then none else cell.map fun c => (c, n 5 2 = 1)

/-- The error of this cycle takes effect. -/
def State.drawFlaw (s : State) : State :=
  match s.drawGranule with
  | some (c, lasting) => s.granuleError c lasting
  | none => s

/-- The cores and quarters that hold a group. -/
def State.quarters (s : State) : List (Nat × Nat) :=
  ((s.work.groups.filter fun e => onCore (coreOf e.1)).map fun e => (coreOf e.1, quarterOf e.1)).eraseDups

/-- The streams of a quarter that lack their line, in rank order; two lines are filled in a cycle (R303). A slice that is to sweep
fetches the line of its sweep instead (R50). -/
def State.fetches (s : State) (core quarter : Nat) : List Ev :=
  let cs := (s.quarterGroups core quarter).flatMap fun e =>
    (e.2.streams.filter fun t => (e.2.lineFor t).isNone && !t.slices.any e.2.sweepDue).map fun t => s.candidate e.1 e.2 t
  ((cs.foldr insertCand []).take lineQuota).map fun c => .lineFetch core (slotOf c.key) c.t.first (s.drawErr (c.key * 8 + c.t.first))

/-- The flags of an issue of fixed latency, and of one whose lanes are all guard-false, fall in the cycle in which they are due
(R63, R99). -/
def State.falls (s : State) : List Ev :=
  (s.work.ops.filter fun o => !o.2.held && o.2.lanes = 0 && o.2.due ≤ s.cycle).map fun o => .longLatencyCompletion o.1

/-- Steps that happen in the cycle in which they are due. A kill begins in the cycle after that of its reasons (R384). -/
def State.due (s : State) : List Ev :=
  s.falls ++
  (s.work.starting.map fun k => .gangKill (indexKey k.launch k.gang)) ++
  (s.work.groups.filter fun e => onCore (coreOf e.1)).flatMap (fun e =>
    let core := coreOf e.1
    let slot := slotOf e.1
    ((List.range 8).flatMap fun i =>
      [.yieldExpiry core slot i, .reconvergenceHoldExpiry core slot i, .streamAged core slot i]) ++
    ((List.range groupLanes).filter fun l => (e.2.lane l).status = .waiting && (e.2.lane l).wait.kind = .twait).map fun l =>
      .twaitExpiry core slot l) ++
  (s.work.teams.flatMap fun t => match t.2.pool with
    | some p => (List.range p.bins.length).map fun b => .binFlush t.1 b
    | none => []) ++
  (s.work.queues.map fun q => .kickEarlyTimeout q.1) ++
  (s.eng.conns.flatMap fun c =>
    if c.2.dead.isSome then [.pathGraceExpiry c.1] else []) ++
  (s.mem.pageReqs.map fun r => .pageRequestTimeout r.pasid r.page) ++
  (List.range s.admin.partitions.length).map fun i => .quantumExpiry i

/-- The probes of the dead paths (R418). -/
def State.probes (s : State) : List Turn :=
  s.eng.conns.flatMap fun c => ((List.range c.2.paths).filter fun p => !c.2.live.contains p).map fun p => .int (.pathProbe c.1 p)

/-- The packet in progress or next of a queue. -/
def State.queueSteps (s : State) (q : Nat) : List Turn :=
  match (s.queue q).run with
  | some r => if r.builtin then (match packetKind (r.words.getD 0 0) with
      | 1 => [.int (.poolPacket q)]
      | 2 => [.int (.waitPacket q)]
      | 3 => [.int (.signalPacket q)]
      | 4 => [.int (.scriptPacket q)]
      | _ => [.int (.launchPacket q)])
    else [.bytecode q]
  | none => match s.readyKind q with
    | some 1 => [.int (.poolPacket q)]
    | some 2 => [.int (.waitPacket q)]
    | some 3 => [.int (.signalPacket q)]
    | some 4 => [.int (.scriptPacket q)]
    | some _ => [.int (.launchPacket q)]
    | none => if (s.queue q).announced && (s.queue q).early.isNone then [.int (.launchPacket q)] else []

/-- Steps whose moment the spec leaves open. -/
def State.open' (s : State) : List Turn :=
  (s.work.ops.filterMap fun o => if o.2.held || o.2.lanes = 0 then none else some (.int (.longLatencyCompletion o.1))) ++
  (s.quarters.flatMap fun q => (s.fetches q.1 q.2).map Turn.int) ++
  ((s.work.groups.filter fun e => onCore (coreOf e.1)).flatMap fun e =>
    [.int (.groupRetirement (coreOf e.1) (slotOf e.1)), .int (.syscReply (coreOf e.1) (slotOf e.1))]) ++
  (s.work.teams.flatMap fun t =>
    [.int (.leadCounterUpdate t.1), .int (.transformBinding t.1), .int (.groupRelease t.1), .int (.teamRetirement t.1)] ++
    match t.2.pool with
    | some p => .int (.poolRecordFetch t.1) :: (List.range p.bins.length).map fun b => .int (.groupFormation t.1 b)
    | none => []) ++
  (s.work.launches.flatMap fun l =>
    .int (.launchCompletion l.1) :: (List.range 8).flatMap fun d =>
      [.int (.teamRangeGrant l.1 d), .int (.teamPlacement l.1 d)]) ++
  (s.work.cores.flatMap fun c => if onCore c.1 then
      (if c.2.mq.isEmpty then [] else [.int (.matrixQueueExecute c.1 (s.drawErr (2 ^ 20 + c.1)))]) ++
      (if c.2.punty.isEmpty then [] else [.int (.puntyChunk c.1 (s.drawErr (2 ^ 21 + c.1)))]) ++
      (if c.2.ncl = 0 then [] else [.int (.lehrRow c.1)])
    else []) ++
  ((withIdx s.eng.cullets).flatMap fun e => if e.2.queue.isEmpty && !(e.2.parked.any fun j => j.cardWait) then []
    else [.int (.culletJobStart e.1), .int (.culletChunk e.1)]) ++
  (s.mem.spl.map fun e => .int (.splinter e.2.tenant e.2.va ⟨e.2.bad, e.2.change⟩)) ++
  (s.mem.migs.map fun m => .int (.frameMigration m.tenant m.frame m.target m.pages)) ++
  (s.work.killing.map fun k => .int (.gangKill (indexKey k.kill.launch k.kill.gang))) ++
  (if s.work.election then [.int .gafferElection] else []) ++
  (withIdx s.admin.partitions).filterMap fun p => if p.2.halting || p.2.swap.isSome then some (.int (.partitionHalt p.1)) else none

/-- Queue script engines (R12). The spec does not say that one stays with a queue, so what they bound is the queues that are
served in one cycle (DESIGN CHOICE, log entry 9). -/
def scriptEngines : Nat := 16

/-- The queues that are served in this cycle. -/
def State.queueTurns (s : State) : List Turn :=
  ((withIdx (s.work.queues.flatMap fun q => s.queueSteps q.1)).filter fun e => s.drawn (2 ^ 21 + e.1)).map (·.2) |>.take scriptEngines

/-- The dies whose limits bear on a core: its own, the base die that carries it, and the hub die. Dies are numbered 0 to 7
compute, 8 to 11 base, 12 hub; which cores a base die or the hub die slows is not said (DESIGN CHOICE, log entry 55). -/
def diesOver (core : Nat) : List Nat := [dieOf core, 8 + dieOf core / 2, 12]

/-- Whether a core has an idle issue cycle: a die over it is in an interval of idle cycles (R21, R425). Which cycles of the interval
are idle is a free choice. -/
def State.idles (s : State) (core : Nat) : Bool :=
  ((diesOver core).any fun d => (s.admin.idle.get? d).any fun c => s.cycle < c) && s.drawn (2 ^ 22 + core)

/-- What a quarter of a core does in its turn: step commands, breakpoints and sweeps, and then the choice of streams. -/
def State.quarterTurns (s : State) (core quarter : Nat) : List Turn :=
  (s.work.steps.filter fun e => coreOf e.1 == core && quarterOf e.1 == quarter).map (fun e => Turn.debug e.1 e.2) ++
  ((s.quarterGroups core quarter).flatMap fun e =>
    (e.2.streams.filterMap fun t => (s.stops e.2 t).head?.map fun l => Turn.int (.breakpointHit core (slotOf e.1) l)) ++
    ((List.range 8).filter e.2.sweepDue).map fun i => Turn.int (.sweepIssue core (slotOf e.1) i)) ++
  [.int (.issueChoice core quarter)]

/-- The issues of a cycle: in each core, those of a lower-numbered quarter come first (R268). -/
def State.choices (s : State) : List Turn :=
  (List.range 4).flatMap fun n =>
    (s.quarters.filter fun q => q.2 == n && !s.idles q.1).flatMap fun q => s.quarterTurns q.1 q.2

/-- A buffered WCB write is performed at some time (R194, R198): which buffers are emptied in a cycle is a free choice. -/
def State.wcbPerform (s : State) : State :=
  s.work.groups.foldl (fun (s : State) e => (List.range groupLanes).foldl (fun (s : State) l =>
    if !(e.2.lane l).wcb.isEmpty && s.drawn (2 ^ 22 + 1024 + e.1 * groupLanes + l) then s.drainWcb e.1 l else s) s) s

/-- Pontil tries again to send what it holds, and to write what waits (R333). -/
def State.pontil (s : State) : State :=
  (withIdx s.eng.nx).foldl (fun (s : State) (e : Nat × (Nat × NxCmd)) =>
    if e.2.2.fid.isNone && s.drawn (2 ^ 23 + 2 + e.1) then s.nxRetry e.2.1 else s) s

/-- The next cycle: time passes, Pontil goes on, buffered writes are performed, and what may happen in the cycle is put on the agenda.
Which of the steps of open moment happen is a free choice (log entry 5). -/
def State.nextCycle (s : State) : State :=
  let ms := s.ns / 1000000
  let s := s.tick
  if s.sec.boot ≠ .active then s
  else
    let s := { s with work := { s.work with starting := s.work.starting ++ s.work.kills, kills := [] } }
    let s := s.drawUpset.drawFlaw
    let s := { s with work := { s.work with groups := s.work.groups.map fun (e : Nat × Group) => (e.1, e.2.settleSweep) } }
    let s := s.payOwed.pontil.wcbPerform
    let some' := ((withIdx s.open').filter fun e => s.drawn e.1).map fun e => e.2
    let probes := if s.ns / 1000000 = ms then [] else s.probes
    { s with agenda := s.agenda ++ s.due.map Turn.int ++ some' ++ probes ++ s.queueTurns ++ s.choices }

/-- Performs a turn of the agenda. -/
def runTurn (t : Turn) (s : State) : Host.Outcome State Fault Refusal :=
  match t with
  | .ev i => exec i s
  | .int e => runEv e s
  | .debug key mask => .next (s.stepTry key mask)
  | .issue core slot mask => runIssue core slot mask s
  | .bytecode q => runBytecode q s

/-! ### Placing an instruction as the next -/

/-- A queue whose packet in progress stands at a script of one bytecode. -/
def State.atBytecode (s : State) (w : BitVec 32) : State :=
  { (s.modQueue 0 fun q => { q with en := true, log2n := 4, code := [w], run := some (Run.start [w] [0x80000, 0, 0, 0, 0, 0, 0, 0]) })
    with agenda := .bytecode 0 :: s.agenda, cur := .none }

/-- The line that holds an instruction in slot 0 and zeros in the others; its line word has VER and every TARGET set. -/
def lineWith (w : BitVec 96) : LineBuf :=
  ⟨0x1000, BitVec.ofNat 512 (w.toNat + (0x1F * 2 ^ 27 + 1) * 2 ^ 480), false, false⟩

/-- A launch record of one team of one group, with 32 named registers, 64 tags, 64 B slots and the accumulator ring. -/
def plainRecord : List Word :=
  [0x1000, word (2 ^ 44 + 3 * 2 ^ 38 + 1), word (64 * 2 ^ 19 + 64 * 2 ^ 12)] ++ List.replicate 29 0

/-- A running launch in slot 0 with that record. -/
def plainLaunch : Launch :=
  { words := plainRecord, addr := 0, queue := 0, seq := 0, tenant := 0, start := 0, evAddr := 0, evAdd := 0, child := none,
    mbox := none, prev := none, prevRej := false, serial := 0, next := 1, ranges := [], again := [], attempts := [],
    releasedTeams := [], retired := 0, tdone := 0, tfail := 0, reln := 0, fgang := 2 ^ 32 - 1, kil := false, estn := 0,
    estlost := 0, prej := 0, tstart := 0, poolNext := 0, killed := false }

/-- A group of 32 active lanes at PC 0x1000 in core 0, whose next issue is an instruction word. -/
def State.atSlot (s : State) (w : BitVec 96) : State :=
  let t := { Team.fresh 0 0 0 plainLaunch with released := true }
  let g : Group :=
    { team := indexKey 0 0, gid := 0, k := List.replicate 15 ⟨0, false, false, none⟩, flags := List.replicate 12 0,
      estate := Estate.fresh, resume := none, slices := List.replicate 8 { Slice.fresh with line := some (lineWith w) },
      segment := 0, rls := false, stage := .running, killed := false, killRec := none, items := [],
      lanes := List.replicate 32 (Lane.fresh 0x1000) }
  let s := (((s.setLaunch 0 plainLaunch).setTeam (indexKey 0 0) t).setGang (indexKey 0 0)
    ⟨0, 0, List.replicate 4 Barrier.fresh, 0⟩).setGroup (groupKey 0 0) g
  { (s.modCore 0 fun c => { c with owner := some (indexKey 0 0) }) with
    agenda := .issue 0 0 (BitVec.allOnes 32) :: s.agenda, cur := .none }

end Sys2Proof.Machine
end

