-- ==== Sys2Proof/Machine/Step.lean ====
section
/-! DEFINITION. The step of the module, and how an instruction is placed as its next (log entry 5). -/

namespace Sys2Proof.Machine

/-- One step: the next turn of the agenda, or the next cycle once the agenda is empty. -/
def step (s : State) : Host.Outcome State Fault Refusal :=
  match s.agenda with
  | [] => .next s.nextCycle
  | t :: rest => runTurn t { s with agenda := rest }

/-- The state with an instruction placed so that the next step runs it: a bytecode in a packet of queue 0, an instruction
word in the line buffers of a group of core 0. -/
def State.withFetchWord (s : State) (nbits w : Nat) : State :=
  if nbits ≤ 32 then s.atBytecode (BitVec.ofNat 32 w) else s.atSlot (BitVec.ofNat 96 w)

end Sys2Proof.Machine
end

