-- ==== Sys2Proof/Safety.lean ====
section
/-! DEFINITION. What counts as a safe run, and the terms that statements about an issue use: when an instruction issues, which
lanes retire and how, and what an issue leaves alone (spec/04_instruction_encoding.md R96, spec/20_faults_traps_parking.md
R357). -/

namespace Sys2Proof

open Machine

/-- The state after n steps, none once a step faults or refuses. -/
def runFor : Nat → State → Option State
  | 0, s => some s
  | n + 1, s => match step s with
    | .next t => runFor n t
    | _ => none

/-- A run of n steps is safe if none of them faults or refuses. -/
def SafeFor (n : Nat) (s : State) : Prop := (runFor n s).isSome = true

/-- The canonical form of the byte memories of a state: module memory, scratchpads, B slots. -/
def Machine.State.memoryOk (s : State) : Bool :=
  s.mem.bytes.wf && (s.work.teams.all fun t => t.2.scr.wf) && s.work.cores.all fun c => c.2.bslots.all fun b => b.bytes.wf

namespace Machine

/-- Instruction `i` issues in state `s` as `x`, and its own body decides what happens: its word meets no decode check, no
guard predicate of a lane of the issue and no uniform operand of format E is poisoned, and a group-collective instruction
finds its group converged (steps 1 to 3 of R357). -/
structure Issues (s : State) (i : Instr) (x : Ctx) : Prop where
  ctx : s.ctx? i = some x
  legal : s.wordFault x = none
  guards : ∀ l ∈ lanesOf x.mask, s.guardPsn x.g x.v.c l = false
  uniform : s.uniformPsn x = false
  converged : collective x.opc = true → x.mask = BitVec.allOnes 32 ∧ x.off = []
  lanes : x.g.lanes.length = 32

/-- The strict debug mode is off (R369), so that no early read traps. -/
def Lenient (x : Ctx) : Prop := bit x.t.dctl 31 = false

/-- A lane of a group slot. -/
def State.laneIn (s : State) (key l : Nat) : Lane :=
  match s.group? key with
  | some g => g.lane l
  | none => Lane.fresh 0

/-- The uniform registers of a group slot. -/
def State.kAt (s : State) (key : Nat) : List (Reg Word) :=
  match s.group? key with
  | some g => g.k
  | none => []

/-- Which stream wrote each uniform register of a group slot last, and when. -/
def State.kByAt (s : State) (key : Nat) : Sparse (Nat × Nat) :=
  match s.group? key with
  | some g => g.kBy
  | none => []

/-- The flag counts of a group slot. -/
def State.flagsAt (s : State) (key : Nat) : List Nat :=
  match s.group? key with
  | some g => g.flags
  | none => []

/-- No shadow check of the issue fails (R373). -/
def Unstruck (s : State) (x : Ctx) : Prop := shadowed x.v = false ∨ s.upset = .none

/-- The flags that a lane raises cause no trap in it: none of them has its enable set (R69). -/
def Untrapped (x : Ctx) (l : Nat) (fp : BitVec 5) : Prop := fpTrap l (x.g.lane l).fpstat fp = none

/-- The slices of a group slot. -/
def State.slicesAt (s : State) (key : Nat) : List Slice :=
  match s.group? key with
  | some g => g.slices
  | none => []

/-- What an issue leaves alone: memory and everything outside the cores, the teams, gangs, launches, cores and queues, the
other groups, and of its own group all but lanes, uniform registers, flags and slices. -/
structure Frame (s t : State) (x : Ctx) : Prop where
  mem : t.mem = s.mem
  admin : t.admin = s.admin
  eng : t.eng = s.eng
  sec : t.sec = s.sec
  cycle : t.cycle = s.cycle
  time : t.time = s.time
  teams : t.work.teams = s.work.teams
  gangs : t.work.gangs = s.work.gangs
  launches : t.work.launches = s.work.launches
  cores : t.work.cores = s.work.cores
  queues : t.work.queues = s.work.queues
  kills : t.work.kills = s.work.kills
  starting : t.work.starting = s.work.starting
  others : ∀ k, k ≠ x.key → t.group? k = s.group? k
  group : ∃ g h, s.group? x.key = some h ∧ t.group? x.key = some g ∧
    { g with lanes := h.lanes, k := h.k, kBy := h.kBy, flags := h.flags, slices := h.slices } = h

/-- Whether another stream, which contains a lane below `lane`, has written uniform register i in this cycle already; a
result that comes later is not of this cycle (R59, R90). `m` are the lanes of the stream at hand. -/
def overtaken (kBy : Sparse (Nat × Nat)) (now : Nat) (m : LaneMask) (lane i : Nat) : Avail → Bool
  | .op _ => false
  | _ => match kBy.get? i with
    | some (c, l) => c = now && l < lane && !has m l
    | none => false

/-- A uniform destination takes the last of the results that the lowest retiring lane gives, unless another stream with a
lower lane has written it in this cycle (R59). -/
def uniformAfter (k : List (Reg Word)) (kBy : Sparse (Nat × Nat)) (now : Nat) (m : LaneMask) (out : Option Out)
    (dst : BitVec 6) (a : Avail) : List (Reg Word) :=
  match out with
  | some o => match o.vals.getLast? with
    | some v =>
      if 0x30 ≤ dst.toNat ∧ dst.toNat < 0x3F ∧ overtaken kBy now m o.lane (dst.toNat - 0x30) a = false then
        updAt (fun r => r.write v.1 v.2 a) (dst.toNat - 0x30) k
      else k
    | none => k
  | none => k

/-- The uniform registers after an issue in cycle `now` whose guard-true lanes retire as `o` says. -/
def kAfter (x : Ctx) (now : Nat) (o : Nat → Out) (dst : BitVec 6) (a : Avail) : List (Reg Word) :=
  uniformAfter x.g.k x.g.kBy now x.mask (x.on.head?.map o) dst a

/-- The flag counts of a group once an instruction has raised the flags it names (R63). -/
def flagsAfter (x : Ctx) (flags : List Nat) : List Nat := (raisedFlags x.v.c).foldl (fun fl i => updAt (· + 1) i fl) flags

/-- What an issue leaves: each guard-true lane as `onF` says, each guard-false lane as `offF` says, no other lane changed,
the uniform registers as `k` and the slices as `sl` say, and the flags that the instruction names raised (R63). -/
structure Issued (s t : State) (x : Ctx) (onF offF : Nat → Lane → Lane) (k : List (Reg Word)) (sl : List Slice) : Prop where
  frame : Frame s t x
  on : ∀ l ∈ x.on, t.laneIn x.key l = onF l (s.laneIn x.key l)
  off : ∀ l ∈ x.off, t.laneIn x.key l = offF l (s.laneIn x.key l)
  rest : ∀ l, l < 32 → l ∉ x.on → l ∉ x.off → t.laneIn x.key l = s.laneIn x.key l
  uniform : t.kAt x.key = k
  slices : t.slicesAt x.key = sl
  flags : t.flagsAt x.key = flagsAfter x (s.flagsAt x.key)

/-- A guard-false lane pushes its first source once for each result and goes on (R54, R96). -/
def skipped (s : State) (x : Ctx) (first : Option (BitVec 6)) (nres : Nat) (a : Avail) (l : Nat) (e : Lane) : Lane :=
  e.skip (s.firstSource x.g first l) nres a

/-- Every lane of an issue retires, a guard-true lane as `o` says (R53 to R61, R96). -/
def Retired (s t : State) (x : Ctx) (o : Nat → Out) (nres : Nat) (first : Option (BitVec 6)) (dst : BitVec 6)
    (marks : List Nat) (a offA : Avail) : Prop :=
  Issued s t x (fun l e => e.retire (o l) dst marks a) (skipped s x first nres offA) (kAfter x s.cycle o dst a) x.g.slices

/-- A lane after an issue: it retires as `outs` says, or is skipped if its guard is false, or stays. -/
def laneAfter (u : State) (x : Ctx) (outs : List Out) (nres : Nat) (first : Option (BitVec 6)) (dst : BitVec 6)
    (marks : List Nat) (a offA : Avail) (l : Nat) (e : Lane) : Lane :=
  match outs.find? fun o => o.lane == l with
  | some o => e.retire o dst marks a
  | none => if l ∈ x.off then skipped u x first nres offA l e else e

/-- The lanes that `outs` names retire as it says, the guard-false lanes are skipped, and nothing else changes but the
uniform destination and the flags: what an issue leaves on top of a state `u` in which its accesses are performed. -/
structure RetiredBy (u t : State) (x : Ctx) (outs : List Out) (nres : Nat) (first : Option (BitVec 6)) (dst : BitVec 6)
    (marks : List Nat) (a offA : Avail) : Prop where
  frame : Frame u t x
  lanes : ∀ l, l < 32 → t.laneIn x.key l = laneAfter u x outs nres first dst marks a offA l (u.laneIn x.key l)
  uniform : t.kAt x.key = uniformAfter (u.kAt x.key) (u.kByAt x.key) u.cycle x.mask outs.head? dst a
  slices : t.slicesAt x.key = u.slicesAt x.key
  flags : t.flagsAt x.key = flagsAfter x (u.flagsAt x.key)

/-- Instruction `i` works lane by lane: wherever it issues, outside the strict debug mode, without a failed shadow check and
without a flag that traps, every guard-true lane reads its sources `codes`, retires with what `res` gives for their values,
poisoned if a source is or `extra` says so (R381), and sees the results `lat` cycles later; nothing else changes. -/
def ComputesFrom (i : Instr) (codes : List (BitVec 6)) (nres : Nat) (dst : BitVec 6) (marks : List Nat) (lat : Nat)
    (extra : State → Ctx → Nat → Bool) (res : State → Ctx → Nat → List Word → LaneRes) : Prop :=
  ∀ s x, Issues s i x → Lenient x → Unstruck s x →
    (∀ l ∈ x.on, Untrapped x l (res s x l (codes.map fun c => (s.opnd x.g l c).val)).fp) →
    ∃ t, exec i s = .next t ∧
      Retired s t x
        (fun l => laneOut l (codes.map (s.opnd x.g l)) (extra s x l) (res s x l (codes.map fun c => (s.opnd x.g l c).val)))
        nres codes.head? dst marks (.from (s.cycle + lat)) (.from (s.cycle + lat))

/-- As `ComputesFrom`, where the results depend on the values of the sources alone. -/
def Computes (i : Instr) (codes : List (BitVec 6)) (nres : Nat) (dst : BitVec 6) (marks : List Nat) (lat : Nat)
    (res : List Word → LaneRes) : Prop :=
  ComputesFrom i codes nres dst marks lat (fun _ _ _ => false) fun _ _ _ vs => res vs

/-- A format T instruction that pushes the value of its integer type that `res` gives for its n sources, read at that type
(R53, R100). -/
def Integers (i : Instr) (f : FmtT) (n : Nat) (res : List Int → Int) : Prop :=
  Computes i (f.codes n) 1 f.dst f.marks 4 fun vs => ⟨[pushInt f.ty (res (vs.map (readInt f.ty)))], [], 0⟩

/-- A format T instruction that pushes w bits for its n sources, w being the width of its type (R53). -/
def Patterns (i : Instr) (f : FmtT) (n : Nat) (res : Nat → List Word → Word) : Prop :=
  Computes i (f.codes n) 1 f.dst f.marks 4 fun vs => ⟨[pushNat f.ty (res (typeWidth f.ty) vs).toNat], [], 0⟩

/-- A format T instruction that pushes a floating-point result and raises flags (R119, R131). -/
def Floats (i : Instr) (f : FmtT) (n lat : Nat) (res : List Word → Nat × FpFlags) : Prop :=
  Computes i (f.codes n) 1 f.dst f.marks lat fun vs => ⟨[word (res vs).1], [], (res vs).2⟩

/-- A lane-crossing instruction: every guard-true lane pushes what `res` gives it (R33, R112). -/
def Crosses (i : Instr) (codes : List (BitVec 6)) (f : FmtT)
    (res : State → Ctx → Nat → Word × Bool × List (Nat × Bool) × FpFlags) : Prop :=
  ∀ s x, Issues s i x → Lenient x → Unstruck s x → (∀ l ∈ x.on, Untrapped x l (res s x l).2.2.2) →
    ∃ t, exec i s = .next t ∧
      Retired s t x (fun l => ⟨l, [((res s x l).1, (res s x l).2.1)], (res s x l).2.2.1.map fun e => (e.1, e.2, (res s x l).2.1),
        (res s x l).2.2.2, none⟩) 1 codes.head? f.dst f.marks (.from (s.cycle + 6)) (.from (s.cycle + 6))

/-- A compare: every guard-true lane writes the pair with what the mode makes of the condition, poisoned if a source is or,
in an accumulating mode, the pair was; in plain mode a guard-false lane writes false to both; nothing is pushed (R56, R83). -/
def Compares (i : Instr) (f : FmtP) (res : Word → Word → Bool × FpFlags) : Prop :=
  ∀ s x, Issues s i x → Lenient x →
    (∀ l ∈ x.on, Untrapped x l (res (s.opnd x.g l f.sa).val (s.opnd x.g l f.sb).val).2) →
    ∃ t, exec i s = .next t ∧
      Issued s t x
        (fun l e =>
          let a := s.opnd x.g l f.sa
          let b := s.opnd x.g l f.sb
          let pa := s.pred x.g l f.pa.toNat
          let pb := s.pred x.g l f.pb.toNat
          let psn := a.psn || b.psn || (f.mode != 0 && (pa.2.1 || pb.2.1))
          let v := pairValues f.mode.toNat (res a.val b.val).1 pa.1 pb.1
          e.retire ⟨l, [], [(f.pb.toNat, v.2, psn), (f.pa.toNat, v.1, psn)], (res a.val b.val).2, none⟩ 0 [] (.from (s.cycle + 4)))
        (fun l e =>
          let e := skipped s x none 0 (.from (s.cycle + 4)) l e
          if f.mode = 0 then e.setPreds [(f.pb.toNat, false, false), (f.pa.toNat, false, false)] (.from (s.cycle + 4)) else e)
        x.g.k x.g.slices

/-- The verdicts of lanes that all pass. -/
def allPass (ps : List (Nat × List (Loc × Nat))) : List LaneChk := ps.map fun p => .pass p.1 p.2

/-- Every access of an issue passes its checks: they leave state `u` and give each lane its pieces, none on a page of a
kind that the instruction does not admit (R190, R208, R209). -/
structure Accessible (s : State) (x : Ctx) (space : Nat) (acc : Acc) (entries : List (Nat × Word × Nat × Nat))
    (deny : List Nat) (u : State) (ps : List (Nat × List (Loc × Nat))) : Prop where
  check : State.checkAll x space acc entries s [] = .done u (allPass ps)
  kinds : ∀ p ∈ ps, ∀ q ∈ p.2, kindOf [q] ∉ deny

/-- A memory instruction with one access per guard-true lane: wherever it issues outside the strict debug mode with clean
operands `clean`, with equal pairs in a paired launch, every access passing its checks and no poison going to a WCB or DEV
page, the accesses are performed by `act` in ascending lane order, and the lanes retire with what they gave, pending until
the operation completes; `rmw` says that poisoned old values would be consumed (R198, R208 to R212, R382). -/
def Performs (i : Instr) (f : FmtM) (acc : Acc) (rmw : Bool) (size : State → Ctx → Nat → Nat × Nat) (deny : List Nat)
    (clean : List (BitVec 6)) (data : State → Ctx → Nat → List RedVal) (psn : State → Ctx → Nat → Bool) (nres : Nat)
    (dst : BitVec 6) (act : State → Ctx → State → Nat → List (Loc × Nat) → State × List RedVal) : Prop :=
  ∀ s x u ps, Issues s i x → Lenient x → x.actors x.on ≠ [] ∨ x.off ≠ [] →
    (∀ l ∈ x.on, ∀ c ∈ clean, (s.opnd x.g l c).psn = false) →
    x.pairsDiffer (fun l => (s.ea x f l, false) :: data s x l) = false →
    Accessible s x f.space.toNat acc ((x.actors x.on).map fun l => (l, s.ea x f l, (size s x l).1, (size s x l).2)) deny u ps →
    (∀ p ∈ ps, psn s x p.1 = true → ∀ q ∈ p.2, kindOf [q] ≠ 3 ∧ kindOf [q] ≠ 4) →
    (rmw = true → ∀ p ∈ ps, (u.readPieces x p.1 true p.2).2.2 = false) →
    let r := performAll (act s x) ps (u.drainReleases x f.order f.scope acc (allPass ps)) []
    ∃ t, exec i s = .next t ∧
      RetiredBy r.1 t x (x.mirror r.2) nres (some f.sa) dst [] (.op r.1.serial) .ready

end Machine

end Sys2Proof
end

