-- ==== Sys2Proof/WellFormed.lean ====
section
/-! DEFINITION. Which instructions are well formed: a Huaxus instruction whose word no check of R94 refuses that depends on
the word alone, a bytecode that the checker of R291 admits in itself, a step of an agent that exists. -/

namespace Sys2Proof

open Machine

/-- Whether a core, a group slot and a slice exist (R14, R22). -/
def sliceOk (core slot slice : Nat) : Bool := core < 512 && slot < 48 && slice < 8

/-- Whether a step of an agent names parts of the module that exist, and a bytecode has the operands that R291 admits. -/
def argsOk : Instr → Bool
  | .scriptLdp _ w => w.toNat < 8
  | .scriptLdc _ w | .scriptStc _ w => w.toNat < 32
  | .scriptBz _ o | .scriptBnz _ o | .scriptBr o => o != 0
  | .scriptLoop _ n l => 1 ≤ n.toNat && n.toNat ≤ 64 && l != 0
  | .lineFetch core slot slice _ | .streamAged core slot slice | .reconvergenceHoldExpiry core slot slice
  | .sweepIssue core slot slice | .yieldExpiry core slot slice => sliceOk core slot slice
  | .issueChoice core quarter => core < 512 && quarter < 4
  | .twaitExpiry core slot lane | .breakpointHit core slot lane | .debugStep core slot lane _ => sliceOk core slot (lane / 4)
  | .syscReply core slot | .groupRetirement core slot | .killGroupLanes core slot _ => sliceOk core slot 0
  | .matrixQueueExecute core _ | .puntyChunk core _ | .lehrRow core | .returnWithdrawnCore core => core < 512
  | .culletJobStart engine | .culletChunk engine => engine < 8
  | .teamRangeGrant launch die | .teamPlacement launch die => launch < 4096 && die < 8
  | .launchCompletion launch => launch < 4096
  | .kick port offset _ => port < 2 && offset < 0x8000
  | .launchPacket q | .poolPacket q | .waitPacket q | .signalPacket q | .scriptPacket q | .kickEarlyTimeout q
  | .scriptBudgetExceeded q | .scriptBinding q _ => q < 4096
  | .hostMemrd port _ | .hostMemwr port _ _ _ | .wakeWindowWrite port _ _ | .hdmDecoderProgramming port _ => port < 2
  | .hostAtomicop port _ _ width _ _ => port < 2 && (width == 4 || width == 8 || width == 16)
  | .powerBudgetThrottle die | .thermalThrottle die => die < 13
  | .fenceDie die | .haltPartition die _ | .haltAndSwapOut die _ _
  | .swapInAndResume die _ _ | .resumeInPlace die _ | .setQuantum die _ _ | .partitionReset die _
  | .shadowImageMove die _ _ => die < 8
  | .answerFault _ outcome => outcome != 3
  | .tenantCreation tenant _ | .tenantDestruction tenant | .debugConsentToken tenant _ => tenant < 65536
  | _ => true

/-- Whether an instruction is well formed. -/
def Instr.wf (i : Instr) : Bool :=
  match view i with
  | some v => (staticCodes v).isEmpty
  | none => argsOk i

end Sys2Proof
end

