-- ==== Sys2Proof/Certificates/Slice0/Obligations.lean ====
section
/-! DEFINITION. The statements for the provers. The meanings of instructions are stated in the terms of Sys2Proof/Safety.lean:
where an instruction issues, its execution answers a next state, whose lanes retired as stated and in which nothing else
changed. -/

section

open Sys2Proof Sys2Proof.Machine

/-- R101, R102: the integer operations of one result: the exact value, clamped to the type's range under `.sat` where that is
admitted, modulo 2^w. `mulhi` and `madhi` take bits 2w−1:w of the exact product. -/
def Obligations.IntegerArithmeticResults : Prop := ∀ (c : Common) (f : FmtT),
  Integers (.add c f) f 2 (fun v => clampInt f.ty f.satB (src v 0 + src v 1)) ∧
  Integers (.sub c f) f 2 (fun v => clampInt f.ty f.satB (src v 0 - src v 1)) ∧
  Integers (.mul c f) f 2 (fun v => src v 0 * src v 1) ∧
  Integers (.mulhi c f) f 2 (fun v => src v 0 * src v 1 / ((2 ^ typeWidth f.ty : Nat) : Int)) ∧
  Integers (.mad c f) f 3 (fun v => clampInt f.ty f.satB (src v 0 * src v 1 + src v 2)) ∧
  Integers (.madhi c f) f 3 (fun v => src v 0 * src v 1 / ((2 ^ typeWidth f.ty : Nat) : Int) + src v 2) ∧
  Integers (.neg c f) f 1 (fun v => clampInt f.ty f.satB (-src v 0)) ∧
  Integers (.abs c f) f 1 (fun v => clampInt f.ty f.satB (if src v 0 < 0 then -src v 0 else src v 0)) ∧
  Integers (.min c f) f 2 (fun v => if src v 0 ≤ src v 1 then src v 0 else src v 1) ∧
  Integers (.max c f) f 2 (fun v => if src v 0 ≤ src v 1 then src v 1 else src v 0) ∧
  Integers (.sad c f) f 3 fun v => (if src v 0 < src v 1 then src v 1 - src v 0 else src v 0 - src v 1) + src v 2

/-- R104: `mulw` and `madw` at widths below 64 push the value modulo 2^(2w), extended as the type of width 2w says; at width
64 they push bits 63:0 and then bits 127:64.
R103: the carry-in is the predicate CI if CIE is 1 and 0 otherwise; the result is the low w bits of the sum or
difference; with COE the predicate CO receives the carry or borrow out. -/
def Obligations.WideCarryResults : Prop :=
  (∀ (c : Common) (f : FmtT),
  let w := typeWidth f.ty
  let push := fun (p : Int) =>
    if w = 64 then [BitVec.ofInt 64 p, BitVec.ofInt 64 (p / ((2 ^ 64 : Nat) : Int))]
    else if isI f.ty then [(BitVec.ofInt (2 * w) p).signExtend 64] else [(BitVec.ofInt (2 * w) p).zeroExtend 64]
  Computes (.mulw c f) (f.codes 2) (if w = 64 then 2 else 1) f.dst f.marks 4
    (fun vs => ⟨push (readInt f.ty (src vs 0) * readInt f.ty (src vs 1)), [], 0⟩) ∧
  Computes (.madw c f) (f.codes 3) (if w = 64 then 2 else 1) f.dst f.marks 4
    fun vs =>
      let z := if w = 64 then src vs 2 else if isI f.ty then ((src vs 2).setWidth (2 * w)).signExtend 64
        else ((src vs 2).setWidth (2 * w)).zeroExtend 64
      ⟨push (readInt f.ty (src vs 0) * readInt f.ty (src vs 1) + (if isI f.ty then z.toInt else (z.toNat : Int))), [], 0⟩) ∧
  (∀ (c : Common) (f : FmtT),
  let w := typeWidth f.ty
  let ci := fun (s : State) (x : Ctx) l => s.pred x.g l (f.m 10 8)
  let cin := fun (s : State) (x : Ctx) l => if f.mb 11 then b2n (ci s x l).1 else 0
  let a := fun (vs : List Word) k => (src vs k).toNat % 2 ^ w
  ComputesFrom (.addc c f) (f.codes 2) 1 f.dst f.marks 4 (fun s x l => f.mb 11 && (ci s x l).2.1)
    (fun s x l vs =>
      let r := a vs 0 + a vs 1 + cin s x l
      ⟨[pushNat f.ty r], if f.mb 7 then [(f.m 6 4, r.testBit w)] else [], 0⟩) ∧
  ComputesFrom (.subb c f) (f.codes 2) 1 f.dst f.marks 4 (fun s x l => f.mb 11 && (ci s x l).2.1)
    fun s x l vs =>
      let r := a vs 0 + 2 ^ w - a vs 1 - cin s x l
      ⟨[pushNat f.ty r], if f.mb 7 then [(f.m 6 4, !r.testBit w)] else [], 0⟩)

/-- R105: `divstep` pushes the remainder and then the quotient word that eight steps of restoring division leave, and the
destination receives the second.
R105: w steps from a zero remainder, as w / 8 instructions make them, leave remainder and quotient; for a zero divisor they
leave the dividend and 2^w − 1; and w / 8 times eight steps are w steps. -/
def Obligations.DivisionResults : Prop :=
  (∀ (c : Common) (f : FmtT),
  let w := typeWidth f.ty
  Computes (.divstep c f) (f.codes 3) 2 f.dst f.marks 4 fun vs =>
    let a := fun k => (src vs k).toNat % 2 ^ w
    let step := fun (p : Nat × Nat) =>
      let t := p.1 * 2 + p.2 / 2 ^ (w - 1) % 2
      let x := p.2 * 2 % 2 ^ w
      if a 2 ≤ t then ((t - a 2) % 2 ^ w, x + 1) else (t % 2 ^ w, x)
    let r := (List.range 8).foldl (fun p _ => step p) (a 0, a 1)
    ⟨[word r.1, word r.2], [], 0⟩) ∧
  (∀ w x d : Nat, 0 < w → x < 2 ^ w → d < 2 ^ w →
  divSteps w d w (0, x) = (if d = 0 then (x, 2 ^ w - 1) else (x % d, x / d)) ∧
  ∀ m n p, divSteps w d (m + n) p = divSteps w d n (divSteps w d m p))

/-- R106, R140: `cmp`, `fcmp` and `dcmp` write their pair from the condition between the sources as the type reads them.
R107: the shifts, funnel shifts, rotations, extensions and selections of row 0x1, with counts of any size. -/
def Obligations.CompareSelectShiftResults : Prop :=
  (∀ (c : Common) (f : FmtP),
  let t := f.type.toNat
  Compares (.cmp c f) f (fun a b =>
    let i := readInt t a
    let j := readInt t b
    (match f.cond.toNat with
      | 0 => decide (i = j)
      | 1 => decide (i ≠ j)
      | 2 => decide (i < j)
      | 3 => decide (i ≤ j)
      | 4 => decide (j < i)
      | 5 => decide (j ≤ i)
      | _ => decide ((a &&& b).toNat % 2 ^ typeWidth t ≠ 0), 0)) ∧
  Compares (.fcmp c f) f (fun a b => fcond f.cond.toNat (readFp t (f.ftz = 1) a) (readFp t (f.ftz = 1) b)) ∧
  Compares (.dcmp c f) f fun a b => fcond f.cond.toNat (readFp t (f.ftz = 1) a) (readFp t (f.ftz = 1) b)) ∧
  (∀ (c : Common) (f : FmtT),
  let n := fun (vs : List Word) k => (src vs k).toNat
  Patterns (.sel c f) f 3 (fun w vs => if n vs 2 % 2 ^ w ≠ 0 then src vs 0 else src vs 1) ∧
  ComputesFrom (.selp c f) (f.codes 2) 1 f.dst f.marks 4 (fun s x l => (s.pred x.g l (f.m 2 0)).2.1)
    (fun s x l vs => ⟨[pushNat f.ty (if (s.pred x.g l (f.m 2 0)).1 != f.mb 3 then src vs 0 else src vs 1).toNat], [], 0⟩) ∧
  Patterns (.shl c f) f 2 (fun w vs => if w ≤ n vs 1 then 0 else src vs 0 <<< n vs 1) ∧
  Patterns (.shr c f) f 2 (fun w vs => if w ≤ n vs 1 then 0 else (src vs 0 &&& word (2 ^ w - 1)) >>> n vs 1) ∧
  Computes (.sar c f) (f.codes 2) 1 f.dst f.marks 4
    (fun vs => ⟨[pushInt f.ty (signedOf (typeWidth f.ty) (n vs 0) / ((2 ^ min (n vs 1) (typeWidth f.ty) : Nat) : Int))], [], 0⟩) ∧
  Patterns (.rotl c f) f 2 (fun w vs => ((src vs 0).setWidth w |>.rotateLeft (n vs 1 % w)).setWidth 64) ∧
  Patterns (.rotr c f) f 2 (fun w vs => ((src vs 0).setWidth w |>.rotateRight (n vs 1 % w)).setWidth 64) ∧
  Patterns (.fshl c f) f 3 (fun w vs =>
    (((src vs 0).setWidth w ++ (src vs 1).setWidth w) <<< min (n vs 2) w).extractLsb' w w |>.setWidth 64) ∧
  Patterns (.fshr c f) f 3 (fun w vs =>
    (((src vs 0).setWidth w ++ (src vs 1).setWidth w) >>> min (n vs 2) w).setWidth w |>.setWidth 64) ∧
  Patterns (.sext c f) f 2 (fun w vs =>
    if n vs 1 = 0 then 0 else if w ≤ n vs 1 then src vs 0 else ((src vs 0).setWidth (n vs 1)).signExtend 64) ∧
  Patterns (.zext c f) f 2 (fun w vs => if w ≤ n vs 1 then src vs 0 else ((src vs 0).setWidth (n vs 1)).zeroExtend 64) ∧
  Integers (.clamp c f) f 3 fun v =>
    if src v 2 < src v 1 then src v 2 else if src v 0 < src v 1 then src v 1 else if src v 2 < src v 0 then src v 2 else src v 0)

/-- R108, R109: the logic operations bit by bit; `popc`, `clz`, `ctz` count within the low w bits; `brev` reverses them.
R110, R111: `bfe` extracts a field clipped to w bits, sign-extended for I types; `bfi` inserts one; `bpick` gathers
bytes of the pair b:a by selector bytes.
R107, R108, R145: the immediate forms. -/
def Obligations.LogicFieldResults : Prop :=
  (∀ (c : Common) (f : FmtT),
  Patterns (.and c f) f 2 (fun _ vs => src vs 0 &&& src vs 1) ∧
  Patterns (.or c f) f 2 (fun _ vs => src vs 0 ||| src vs 1) ∧
  Patterns (.xor c f) f 2 (fun _ vs => src vs 0 ^^^ src vs 1) ∧
  Patterns (.not c f) f 1 (fun _ vs => ~~~ src vs 0) ∧
  Patterns (.andn c f) f 2 (fun _ vs => src vs 0 &&& ~~~ src vs 1) ∧
  Patterns (.tbl3 c f) f 3 (fun w vs => word (ofBits w fun i =>
    f.mod.getLsbD (b2n ((src vs 0).getLsbD i) * 4 + b2n ((src vs 1).getLsbD i) * 2 + b2n ((src vs 2).getLsbD i)))) ∧
  Patterns (.popc c f) f 1 (fun w vs => word ((List.range w).countP fun i => (src vs 0).getLsbD i)) ∧
  Patterns (.clz c f) f 1 (fun w vs => word (((List.range w).find? fun i => (src vs 0).getLsbD (w - 1 - i)).getD w)) ∧
  Patterns (.ctz c f) f 1 (fun w vs => word (((List.range w).find? fun i => (src vs 0).getLsbD i).getD w)) ∧
  Patterns (.brev c f) f 1 fun w vs => word (ofBits w fun i => (src vs 0).getLsbD (w - 1 - i))) ∧
  (∀ (c : Common) (f : FmtT),
  let n := fun (vs : List Word) k => (src vs k).toNat
  Patterns (.bfe c f) f 3 (fun w vs =>
    let p := min (n vs 1) w
    let k := min (n vs 2) (w - p)
    let field := ((src vs 0).setWidth w >>> p).setWidth k
    if isI f.ty then field.signExtend 64 else field.zeroExtend 64) ∧
  Patterns (.bfi c f) f 3 (fun w vs =>
    let p := min (n vs 2 % 256) w
    let k := min (n vs 2 / 256 % 256) (w - p)
    word (ofBits w fun i => if p ≤ i ∧ i < p + k then (src vs 0).getLsbD (i - p) else (src vs 1).getLsbD i)) ∧
  Patterns (.bpick c f) f 3 fun w vs =>
    let k := w / 8
    let bytes := leBytes k (n vs 0) ++ leBytes k (n vs 1)
    word (leNat ((List.range k).map fun j =>
      let sel := n vs 2 / 256 ^ j % 256
      let b := bytes.getD (sel % (2 * k)) 0
      if sel / 64 = 0 then b else if sel / 64 = 1 then 0 else if sel / 64 = 2 then (if b.getLsbD 7 then 255 else 0) else 255))) ∧
  (∀ (c : Common) (f : FmtI),
  let one := fun (i : Instr) (res : Word → Word) => Computes i [f.sa] 1 f.dst [] 4 fun vs => ⟨[res (src vs 0)], [], 0⟩
  let none' := fun (i : Instr) (v : Word) => Computes i [] 1 f.dst [] 4 fun _ => ⟨[v], [], 0⟩
  let w := 64 / 2 ^ (f.mod.toNat % 4)
  let k := f.imm.toNat % 64
  let ext := if f.mod.getLsbD 0 then f.imm.signExtend 64 else f.imm.zeroExtend 64
  one (.shli c f) (fun a => if w ≤ k then 0 else zextW w (a <<< k).toNat) ∧
  one (.shri c f) (fun a => if w ≤ k then 0 else (a &&& word (2 ^ w - 1)) >>> k) ∧
  one (.sari c f) (fun a => BitVec.ofInt 64 (signedOf w a.toNat / ((2 ^ min k w : Nat) : Int))) ∧
  one (.andi c f) (fun a => a &&& ext) ∧ one (.ori c f) (fun a => a ||| ext) ∧ one (.xori c f) (fun a => a ^^^ ext) ∧
  one (.movhi c f) (fun a => f.imm ++ a.extractLsb' 0 32) ∧ one (.addi c f) (fun a => a + ext) ∧
  one (.muli c f) (fun a => a * ext) ∧ none' (.movi c f) ext ∧
  none' (.fmovi c f) (if f.mod.getLsbD 0 then word (fmtF64.exact (fmtF32.read false f.imm.toNat)) else f.imm.zeroExtend 64))

/-- R113: each lane receives the value that its source lane's SA has if that lane is a participant, and 0 if it is not;
`lx.sh` without a source lane gives the lane's own fill.
R114: a ballot gives the mask of the participants that contribute 1; the polls tell whether all do, some does, or all
contributions are equal, and may write a predicate too. -/
def Obligations.LaneExchangeResults : Prop :=
  (∀ (c : Common) (f : FmtT),
  let n := fun (x : Ctx) => min (32 / 2 ^ f.m 2 0) (if x.ln.paired then 16 else 32)
  let k := fun (s : State) (x : Ctx) l => (s.opnd x.g l f.sb).val
  let push := fun (s : State) (x : Ctx) l (r : Rd) =>
    (pushNat f.ty r.val.toNat, r.psn || (s.opnd x.g l f.sb).psn, ([] : List (Nat × Bool)), (0 : FpFlags))
  let from' := fun (s : State) (x : Ctx) l j => push s x l (if j ∈ x.peers l then s.opnd x.g j f.sa else ⟨0, false, false⟩)
  Crosses (.lxAt c f) (f.codes 2) f (fun s x l => from' s x l (l - l % n x + (k s x l).toNat % n x)) ∧
  Crosses (.lxRot c f) (f.codes 2) f (fun s x l => from' s x l (l - l % n x + (l % n x + (k s x l).toNat) % n x)) ∧
  Crosses (.lxSh c f) (f.codes 3) f (fun s x l =>
    let d := ((l % n x : Nat) : Int) - (k s x l).toInt
    if 0 ≤ d ∧ d < (n x : Int) then from' s x l ((l : Int) - (k s x l).toInt).toNat else push s x l (s.opnd x.g l f.sc)) ∧
  Crosses (.lxFlip c f) (f.codes 2) f fun s x l => from' s x l (l - l % n x + Nat.xor (l % n x) ((k s x l).toNat % n x))) ∧
  (∀ (c : Common) (f : FmtT),
  let codes := if f.mb 11 then [f.sa] else []
  let val := fun (s : State) (x : Ctx) j => (s.opnd x.g j f.sa).val.toNat % 2 ^ typeWidth f.ty
  let bit' := fun (s : State) (x : Ctx) j => if f.mb 11 then val s x j != 0 else (s.pred x.g j (f.m 2 0)).1 != f.mb 3
  let same := fun (s : State) (x : Ctx) i j => if f.mb 11 then val s x i == val s x j else bit' s x i == bit' s x j
  let psn := fun (s : State) (x : Ctx) l => (x.peers l).any fun j =>
    if f.mb 11 then (s.opnd x.g j f.sa).psn else (s.pred x.g j (f.m 2 0)).2.1
  let push := fun (s : State) (x : Ctx) l (v : Nat) =>
    (word v, psn s x l, if f.mb 7 then [(f.m 6 4, decide (v ≠ 0))] else [], (0 : FpFlags))
  Crosses (.ballot c f) codes f (fun s x l =>
    push s x l ((x.peers l).foldl (fun n j => n + (if bit' s x j then 2 ^ x.id j else 0)) 0)) ∧
  Crosses (.pollAll c f) codes f (fun s x l => push s x l (if ∀ j ∈ x.peers l, bit' s x j = true then 1 else 0)) ∧
  Crosses (.pollAny c f) codes f (fun s x l => push s x l (if ∃ j ∈ x.peers l, bit' s x j = true then 1 else 0)) ∧
  Crosses (.pollSame c f) codes f fun s x l =>
    push s x l (if ∀ i ∈ x.peers l, ∀ j ∈ x.peers l, same s x i j = true then 1 else 0))

/-- R115: every participant receives the combination over all participants, a scan's lane that over the participants up to
itself, or below itself under `.ex`; an empty one is 0, or all ones for `and`.
R116, R117: `match` gives the mask of the participants whose values equal the lane's own; `rdx.fadd` sums over the fixed
pairwise tree by lane index, empty leaves passing their partner through. -/
def Obligations.ReductionMatchResults : Prop :=
  (∀ (c : Common) (f : FmtT),
  let v := fun (s : State) (x : Ctx) j => readInt f.ty (s.opnd x.g j f.sa).val
  let upTo := fun (x : Ctx) l => (x.peers l).filter fun j => if f.mb 2 then j < l else j ≤ l
  let out := fun (s : State) (x : Ctx) (js : List Nat) (r : Int) =>
    (pushInt f.ty r, js.any (fun j => (s.opnd x.g j f.sa).psn), ([] : List (Nat × Bool)), (0 : FpFlags))
  let fold := fun (s : State) (x : Ctx) (js : List Nat) (empty : Int) (op : Int → Int → Int) =>
    out s x js (match js with
      | [] => empty
      | j :: t => t.foldl (fun a i => op a (v s x i)) (v s x j))
  Crosses (.rdxAdd c f) [f.sa] f (fun s x l => out s x (x.peers l) ((x.peers l).map (v s x)).sum) ∧
  Crosses (.rdxMin c f) [f.sa] f (fun s x l => fold s x (x.peers l) 0 min) ∧
  Crosses (.rdxMax c f) [f.sa] f (fun s x l => fold s x (x.peers l) 0 max) ∧
  Crosses (.rdxLop c f) [f.sa] f (fun s x l => fold s x (x.peers l) 0 (lop f)) ∧
  Crosses (.scanAdd c f) [f.sa] f (fun s x l => out s x (upTo x l) ((upTo x l).map (v s x)).sum) ∧
  Crosses (.scanLop c f) [f.sa] f fun s x l =>
    fold s x (upTo x l) (if f.m 1 0 = 0 then 2 ^ typeWidth f.ty - 1 else 0) (lop f)) ∧
  (∀ (c : Common) (f : FmtT),
  let m := fmtOf f.ty
  Crosses (.matchV c f) [f.sa] f (fun s x l =>
    let v := fun j => (s.opnd x.g j f.sa).val.toNat % 2 ^ typeWidth f.ty
    let eq := (x.peers l).filter fun j => v j == v l
    (word (if f.mb 0 && eq.length != (x.peers l).length then 0 else (eq.map fun j => 2 ^ x.id j).sum),
      (x.peers l).any fun j => (s.opnd x.g j f.sa).psn, [], 0)) ∧
  Crosses (.rdxFadd c f) [f.sa] f fun s x l =>
    let leaves := (List.range (if x.ln.paired then 16 else 32)).map fun i =>
      ((x.peers l).find? fun j => x.id j == i).map (s.opnd x.g · f.sa)
    let add := fun a b => m.add f.rnd.toNat f.ftzB (m.read f.ftzB a) (m.read f.ftzB b)
    let r := treeSum add 5 (leaves.map fun o => o.map fun r => r.val.toNat % 2 ^ m.width)
    (word ((r.1.head?.join).getD 0), leaves.any (fun o => o.any fun r => r.psn), [], r.2))

/-- R132 to R134, R136: the scalar operations on the values that TYPE and FTZ read from the sources, rounded once.
R135, R136, R139: the packed operations work on both 16-bit elements; `hdot2` sums two exact products and c in one
rounding; `fclass` gives the mask of the class. -/
def Obligations.FloatResults : Prop :=
  (∀ (c : Common) (f : FmtT),
  let m := fmtOf f.ty
  let a := fun (vs : List Word) k => m.read f.ftzB ((src vs k).toNat % 2 ^ m.width)
  let rnd := f.rnd.toNat
  Floats (.fadd c f) f 2 4 (fun vs => m.add rnd f.ftzB (a vs 0) (a vs 1)) ∧
  Floats (.fsub c f) f 2 4 (fun vs => m.add rnd f.ftzB (a vs 0) (a vs 1).flip) ∧
  Floats (.fmul c f) f 2 4 (fun vs => m.mul rnd f.ftzB (a vs 0) (a vs 1)) ∧
  Floats (.ffma c f) f 3 4 (fun vs => m.fma rnd f.ftzB (a vs 0) (a vs 1) (a vs 2)) ∧
  Floats (.fmin c f) f 2 4 (fun vs => m.minmax false (a vs 0) (a vs 1)) ∧
  Floats (.fmax c f) f 2 4 (fun vs => m.minmax true (a vs 0) (a vs 1)) ∧
  Floats (.fabs c f) f 1 4 (fun vs => (m.exact (if (a vs 0).neg then (a vs 0).flip else a vs 0), 0)) ∧
  Floats (.fneg c f) f 1 4 (fun vs => (m.exact (a vs 0).flip, 0)) ∧
  Floats (.fscale c f) f 2 4 (fun vs => m.scale rnd f.ftzB (a vs 0) (max (min (signedOf 32 (src vs 1).toNat) 5000) (-5000))) ∧
  Floats (.dadd c f) f 2 6 (fun vs => m.add rnd f.ftzB (a vs 0) (a vs 1)) ∧
  Floats (.dsub c f) f 2 6 (fun vs => m.add rnd f.ftzB (a vs 0) (a vs 1).flip) ∧
  Floats (.dmul c f) f 2 6 (fun vs => m.mul rnd f.ftzB (a vs 0) (a vs 1)) ∧
  Floats (.dfma c f) f 3 6 (fun vs => m.fma rnd f.ftzB (a vs 0) (a vs 1) (a vs 2)) ∧
  Floats (.dmin c f) f 2 6 (fun vs => m.minmax false (a vs 0) (a vs 1)) ∧
  Floats (.dmax c f) f 2 6 fun vs => m.minmax true (a vs 0) (a vs 1)) ∧
  (∀ (c : Common) (f : FmtT),
  let m := fmtOf f.ty
  let a := fun (vs : List Word) e k => m.read f.ftzB ((src vs k).toNat / 2 ^ (16 * e) % 2 ^ 16 % 2 ^ m.width)
  let two := fun (op : Nat → Nat × FpFlags) => ((op 0).1 + (op 1).1 * 2 ^ 16, (op 0).2 ||| (op 1).2)
  let rnd := f.rnd.toNat
  Floats (.hadd2 c f) f 2 4 (fun vs => two fun e => m.add rnd f.ftzB (a vs e 0) (a vs e 1)) ∧
  Floats (.hsub2 c f) f 2 4 (fun vs => two fun e => m.add rnd f.ftzB (a vs e 0) (a vs e 1).flip) ∧
  Floats (.hmul2 c f) f 2 4 (fun vs => two fun e => m.mul rnd f.ftzB (a vs e 0) (a vs e 1)) ∧
  Floats (.hfma2 c f) f 3 4 (fun vs => two fun e => m.fma rnd f.ftzB (a vs e 0) (a vs e 1) (a vs e 2)) ∧
  Floats (.hmin2 c f) f 2 4 (fun vs => two fun e => m.minmax false (a vs e 0) (a vs e 1)) ∧
  Floats (.hmax2 c f) f 2 4 (fun vs => two fun e => m.minmax true (a vs e 0) (a vs e 1)) ∧
  Floats (.hdot2 c f) f 3 4 (fun vs =>
    fmtF32.dot2 rnd f.ftzB (a vs 0 0) (a vs 0 1) (a vs 1 0) (a vs 1 1) (fmtF32.read f.ftzB ((src vs 2).toNat % 2 ^ 32))) ∧
  Computes (.fclass c f) (f.codes 1) 1 f.dst f.marks 4 fun vs =>
    ⟨[word (m.classOf ((src vs 0).toNat % 2 ^ typeWidth f.ty))], [], 0⟩)

/-- R131, R137: `rcp`, `rsqrt`, `exp2`, `log2`, `sin`, `cos` and `sqrt` complete: every guard-true lane retires with the result
that `special` gives for its source, with RND, FTZ and what the implementation's function gives for it, pending until the
operation completes; the operation has each lane's flags, and for a lane whose enables make it trap at completion no result but
the sources that the marks cleared.
R138: the special inputs, whose results are exact and raise only the flags of the table, whatever the implementation's function
gives; a power of two in `rcp`, `rsqrt` and `log2`.
R141 to R144: conversions between formats, packed and 8-bit forms among them. -/
def Obligations.SpecialConversionResults : Prop :=
  (∀ (c : Common) (f : FmtT),
  let completes := fun (i : Instr) (opc : Nat) => ∀ s x, Issues s i x → Lenient x → Unstruck s x → lanesOf x.mask ≠ [] →
    let m := fmtOf f.ty
    let a := fun l => (s.opnd x.g l f.sa).val.toNat % 2 ^ m.width
    let r := fun l => m.special opc f.rnd.toNat f.ftzB (Config.special (BitVec.ofNat 8 opc) f.type f.ftz (word (a l)))
      (m.read f.ftzB (a l))
    let traps := fun l => (fpTrap l (x.g.lane l).fpstat (r l).2).isSome
    ∃ t, exec i s = .next t ∧
      Retired s t x (fun l => ⟨l, [(word (r l).1, (s.opnd x.g l f.sa).psn)], [], 0, none⟩) 1 (some f.sa) f.dst f.marks
        (.op s.serial) .ready ∧
      ∃ o, t.op? s.serial = some o ∧ o.group = x.key ∧ o.flags = raisedFlags x.v.c ∧ o.dst = f.dst ∧
        o.fp = x.on.map (fun l => (l, (r l).2)) ∧
        o.res = (x.on.filter fun l => !traps l).map (fun l => (l, word (r l).1, (s.opnd x.g l f.sa).psn)) ∧
        o.saved = (x.on.filter traps).flatMap fun l => f.marks.map fun n => (l, n, (x.g.lane l).n.getD n (Reg.clear 0))
  completes (.rcp c f) 0x56 ∧ completes (.rsqrt c f) 0x57 ∧ completes (.exp2 c f) 0x58 ∧ completes (.log2 c f) 0x59 ∧
    completes (.sin c f) 0x5A ∧ completes (.cos c f) 0x5B ∧ completes (.sqrt c f) 0x5F) ∧
  (∀ (m : FFmt) (rnd : Nat) (ftz : Bool) (cand : Nat),
  let r := fun opc a => m.special opc rnd ftz cand a
  let nan := (m.canon, fNV)
  let inf := fun g => m.signBit g + m.infBits
  let one := m.bias * 2 ^ m.mbits
  (∀ opc g, r opc (.nan g) = (m.canon, if g then fNV else 0)) ∧
  (∀ g e, r 0x56 (.fin g 0 e) = (inf g, fDZ) ∧ r 0x57 (.fin g 0 e) = (inf g, fDZ) ∧ r 0x5F (.fin g 0 e) = (m.signBit g, 0) ∧
    r 0x58 (.fin g 0 e) = (one, 0) ∧ r 0x59 (.fin g 0 e) = (inf true, fDZ) ∧ r 0x5A (.fin g 0 e) = (m.signBit g, 0) ∧
    r 0x5B (.fin g 0 e) = (one, 0)) ∧
  (∀ g, r 0x56 (.inf g) = (m.signBit g, 0) ∧ r 0x5A (.inf g) = nan ∧ r 0x5B (.inf g) = nan) ∧
  r 0x57 (.inf false) = (0, 0) ∧ r 0x5F (.inf false) = (m.infBits, 0) ∧ r 0x58 (.inf false) = (m.infBits, 0) ∧
  r 0x59 (.inf false) = (m.infBits, 0) ∧ r 0x57 (.inf true) = nan ∧ r 0x5F (.inf true) = nan ∧ r 0x58 (.inf true) = (0, 0) ∧
  r 0x59 (.inf true) = nan ∧
  (∀ k e, 0 < k → r 0x57 (.fin true k e) = nan ∧ r 0x5F (.fin true k e) = nan ∧ r 0x59 (.fin true k e) = nan) ∧
  (∀ (g : Bool) (k : Nat) (e : Int), let n := (k : Int) + e
    (m.qmin ≤ -n → -n ≤ m.emax → r 0x56 (.fin g (2 ^ k) e) = m.round 0 ftz false g 1 (-n) false) ∧
    (n % 2 = 0 → r 0x57 (.fin false (2 ^ k) e) = m.round 0 ftz false false 1 (-(n / 2)) false) ∧
    r 0x59 (.fin false (2 ^ k) e) = m.roundDy 0 ftz false false (n, 0))) ∧
  (∀ (c : Common) (f : FmtT),
  let m := fmtOf f.ty
  let f32 := fun (v : Word) => fmtF32.read f.ftzB (v.toNat % 2 ^ 32)
  Floats (.cvt c f) f 1 4 (fun vs =>
    let r := convert f.rnd.toNat f.ty (f.m 4 0) f.ftzB f.satB (src vs 0)
    (r.1.toNat, r.2)) ∧
  (f.mb 0 = false → Floats (.cvtPk c f) f 2 4 fun vs =>
    let one := fun k => m.convert f.rnd.toNat f.ftzB f.satB (f32 (src vs k))
    ((one 0).1 + (one 1).1 * 2 ^ 16, (one 0).2 ||| (one 1).2)) ∧
  (f.mb 0 = true → Floats (.cvtPk c f) f 1 4 fun vs =>
    fmtF32.convert 0 false false (m.read false ((src vs 0).toNat / 2 ^ (16 * f.m 1 1) % 2 ^ 16 % 2 ^ m.width))) ∧
  (f.mb 0 = false → Floats (.cvtF8 c f) f 3 4 fun vs =>
    let one := fun k => m.convert f.rnd.toNat false f.satB (f32 (src vs k))
    let pair := (one 0).1 + (one 1).1 * 256
    let old := (src vs 2).toNat % 2 ^ 32
    (if f.mb 1 then old % 2 ^ 16 + pair * 2 ^ 16 else old / 2 ^ 16 * 2 ^ 16 + pair, (one 0).2 ||| (one 1).2)) ∧
  (f.mb 0 = true → Floats (.cvtF8 c f) f 1 4 fun vs =>
    match m.read false ((src vs 0).toNat / 2 ^ (8 * f.m 2 1) % 256) with
    | .nan _ => (fmtF32.canon, 0)
    | a => fmtF32.convert 0 false false a))

/-- R145, R149 to R151: `mov` copies w bits; `plop` writes a predicate from a table over three; `p2n` and `n2p` save and
restore predicates; `lmask` pushes a mask by lane number.
R150: `pdead` zeroes the named predicates of every guard-true lane and clears their live bits. -/
def Obligations.MovePredicateResults : Prop :=
  (∀ (c : Common) (f : FmtT) (e : FmtS),
  let n := e.imm.toNat
  let p := fun (s : State) (x : Ctx) l k => s.pred x.g l (n / 2 ^ (8 + 3 * k) % 8)
  Patterns (.mov c f) f 1 (fun _ vs => src vs 0) ∧
  ComputesFrom (.plop c e) [] 0 0 [] 4 (fun s x l => (p s x l 0).2.1 || (p s x l 1).2.1 || (p s x l 2).2.1)
    (fun s x l _ => ⟨[], [(n / 2 ^ 17 % 8, e.imm.getLsbD (b2n (p s x l 0).1 * 4 + b2n (p s x l 1).1 * 2 + b2n (p s x l 2).1))], 0⟩) ∧
  ComputesFrom (.p2n c f) [] 1 f.dst [] 4 (fun s x l => (List.range 8).any fun i => (s.pred x.g l i).2.1)
    (fun s x l _ => ⟨[word (ofBits 16 fun i => if i < 8 then (s.pred x.g l i).1
      else ((x.g.lane l).p.getD (i - 8) (Reg.clear false)).live)], [], 0⟩) ∧
  Computes (.n2p c f) (f.codes 1) 0 0 f.marks 4
    (fun vs => ⟨[], ((List.range 8).filter fun i => f.mod.getLsbD i).map fun i => (i, (src vs 0).getLsbD i), 0⟩) ∧
  ComputesFrom (.lmask c f) [] 1 f.dst [] 4 (fun _ _ _ => false) fun _ x l _ =>
    ⟨[word (ofBits (if x.ln.paired then 16 else 32) fun j => match f.m 2 0 with
      | 0 => j = x.id l
      | 1 => j < x.id l
      | 2 => j ≤ x.id l
      | 3 => x.id l < j
      | 4 => x.id l ≤ j
      | _ => (lanesOf x.mask).any fun k => (!x.ln.paired || k / 16 == l / 16) && x.id k == j)], [], 0⟩) ∧
  (∀ (c : Common) (f : FmtS) s x, Issues s (.pdead c f) x → Lenient x →
  ∃ t, exec (.pdead c f) s = .next t ∧
    Issued s t x
      (fun l e => { e.retire ⟨l, [], [], 0, none⟩ 0 [] (.from (s.cycle + 4)) with
        p := (withIdx e.p).map fun r => if f.imm.getLsbD r.1 then ⟨false, false, false, none⟩ else r.2 })
      (skipped s x none 0 (.from (s.cycle + 4))) x.g.k x.g.slices)

/-- R66 to R68, R146: what `sreg.rd` pushes for each register of the table. That CLOCK is the cycle number plus an offset of the die is
the model's choice (log entry 10).
R147: `sreg.wr` replaces FPSTAT by the value without its reserved bits. -/
def Obligations.SpecialRegisterAccess : Prop :=
  (∀ (c : Common) (f : FmtS),
  ComputesFrom (.sregRd c f) (if f.sel = 5 then [f.sa] else []) (if f.sel = 7 then 2 else 1) f.dst [] 4 (fun _ _ _ => false)
    fun s x l vs => ⟨match f.sel.toNat with
      | 0 => [word (x.id l)]
      | 1 => [word x.g.gid]
      | 2 => [word x.t.idx]
      | 3 => [word (x.t.idx / x.ln.gangSize)]
      | 4 => [word (quarterOf x.key * 512 + coreOf x.key)]
      | 5 => [(x.g.lane ((src vs 0).toNat % 32)).pcv]
      | 6 => [word (ofBits x.ln.tagCnt fun i => ((s.core x.core).tags.getD (x.ln.tagBase + i) Tag.fresh).ready)]
      | 7 => [word s.ns, word s.frac]
      | 8 => [word (s.cycle + Config.clockOffset (dieOf x.core))]
      | 9 => [s.fpstatOf x l]
      | 10 => [x.t.trapCause]
      | 11 => [x.t.trapAddr]
      | _ => [x.t.trapSlot], [], 0⟩) ∧
  (∀ (c : Common) (f : FmtS) s x, Issues s (.sregWr c f) x → Lenient x →
  (∀ l ∈ x.on, (s.opnd x.g l f.sa).psn = false) →
  ∃ t, exec (.sregWr c f) s = .next t ∧
    Issued s t x
      (fun l e => { e.retire ⟨l, [], [], 0, none⟩ 0 [] (.from (s.cycle + 4)) with
        fpstat := (s.opnd x.g l f.sa).val.setWidth 13 &&& 0x1F1F })
      (skipped s x (some f.sa) 0 (.from (s.cycle + 4))) x.g.k x.g.slices)

/-- R187, R188, R308, R326: a translation that succeeds gives the address, kind and permission of a leaf of the tenant's tables, sets
ACC, and DIRTY for a write, in its entry, and changes no other byte of memory but those of the frame it names, where that was
last shown under another key than the leaf's, and those of the other frame of a migration that the entry lies in.
R183, R198, R212: reading the pieces of an access leaves memory, the groups and the teams as they are.
R3, R198, R308: a write to a page that is not WCB changes exactly the bytes of the access: they read as the bytes stored, the
least significant first, and every other byte of memory reads as before, but for those that a migration under way keeps in the
other of its frames. -/
def Obligations.MemoryOperations : Prop :=
  (∀ (s u : State) (tenant va : Nat) (acc : Acc) (pa k : Nat) (v : Bool),
  s.xlate tenant va acc = .ok u pa k v →
    va < 2 ^ 48 ∧ ∃ t l, s.tenant? tenant = some t ∧ s.leafFor t.root va = some l ∧ l.permits acc = true ∧
      pa = l.pa va ∧ k = l.kind ∧ v = l.l1v ∧
      let shown := (s.mem.view.get? (pa / 4096)).getD 0 = l.key
      let apart := fun a => ∀ t ∈ s.twins l.loc 8, a < t.2.1 ∨ t.2.1 + t.2.2 ≤ a
      (∀ a, a < l.loc ∨ l.loc + 8 ≤ a → apart a → shown ∨ a / 4096 ≠ pa / 4096 →
        u.mem.bytes.read a = s.mem.bytes.read a) ∧
      (s.mem.bytes.wf = true → shown → (∀ j, j < 8 → apart (l.loc + j)) → u.physWord l.loc = s.physWord l.loc |||
        word (2 ^ 9 + if acc = .write ∨ acc = .rmw then 2 ^ 10 else 0))) ∧
  (∀ (s : State) (x : Ctx) (l : Nat) (fresh : Bool) (ps : List (Loc × Nat)),
  let t := (s.readPieces x l fresh ps).1
  t.mem = s.mem ∧ t.work.groups = s.work.groups ∧ t.work.teams = s.work.teams ∧ t.eng = s.eng ∧ t.sec = s.sec ∧
    t.admin = s.admin) ∧
  (∀ (s : State) (x : Ctx) (l : Nat) (psn : Bool) (pa k v : Nat) (l1 : Option Nat)
    (bs : List Byte), k ≠ 3 → s.mem.bytes.wf = true →
  let t := s.writePieces x l psn [(.mem pa k l1 v, bs.length)] bs
  let apart := fun a => ∀ t ∈ s.twins pa bs.length, a < t.2.1 ∨ t.2.1 + t.2.2 ≤ a
  (∀ j, j < bs.length → apart (pa + j) → t.mem.bytes.read (pa + j) = bs.getD j 0) ∧
    (∀ a, a < pa ∨ pa + bs.length ≤ a → apart a → t.mem.bytes.read a = s.mem.bytes.read a) ∧ t.mem.bytes.wf = true)

/-- R211 to R213, R380: `ld` and `ld.2` read one access of each guard-true lane and push its elements in address order, extended as
SGN says, each poisoned if a word of its own is.
R211 to R213, R215, R381: `st`, `st.2`, `st.bm` and `st.z` write the bytes of their data, each element with the poison of its own
source, the masked bytes of a word, or a line of zeros, at the address of each guard-true lane, and push nothing. -/
def Obligations.LoadStoreResults : Prop :=
  (∀ (c : Common) (f : FmtM),
  let n := 2 ^ f.width.toNat
  let ext := fun (bs : List Byte) => if f.sgn = 1 then sextW (8 * bs.length) (leNat bs) else zextW (8 * bs.length) (leNat bs)
  Performs (.ld c f) f .read false (fun _ _ _ => (n, n)) [] [f.sa] (fun _ _ _ => []) (fun _ _ _ => false)
    (if f.width = 4 then 2 else 1) f.dst (fun _ x s l ps =>
      let r := s.readElems x l (f.hint == 1) (if f.width = 4 then 8 else n) (if f.width = 4 then 2 else 1) ps
      (r.1, r.2.map fun e => (ext e.1, e.2))) ∧
  Performs (.ld_2 c f) f .read false (fun _ _ _ => (2 * n, 2 * n)) [] [f.sa] (fun _ _ _ => []) (fun _ _ _ => false) 2 f.dst
    fun _ x s l ps =>
      let r := s.readElems x l (f.hint == 1) n 2 ps
      (r.1, r.2.map fun e => (ext e.1, e.2))) ∧
  (∀ (c : Common) (f : FmtM),
  let n := 2 ^ f.width.toNat
  let v := fun (s : State) (x : Ctx) l k => s.opnd x.g l (f.sd + BitVec.ofNat 6 k)
  let el := fun (m : Nat) s x l k => (leBytes m (v s x l k).val.toNat, (v s x l k).psn)
  let key := fun (d : List (List Byte × Bool)) => d.map fun e => (word (leNat e.1), e.2)
  let two := fun (m : Nat) s x l => [el m s x l 0, el m s x l 1]
  let psn2 := fun s x l => (v s x l 0).psn || (v s x l 1).psn
  let st := fun s x l => if f.width = 4 then two 8 s x l else [el n s x l 0]
  let mask := fun s x l => (v s x l 1).val.toNat % 256
  Performs (.st c f) f .write false (fun _ _ _ => (n, n)) [] [f.sa] (fun s x l => key (st s x l))
    (fun s x l => (st s x l).any (·.2)) 0 0 (fun _ x s l ps => (s.writeElems x l (st s x l) ps, [])) ∧
  Performs (.st_2 c f) f .write false (fun _ _ _ => (2 * n, 2 * n)) [] [f.sa] (fun s x l => key (two n s x l))
    (fun s x l => (two n s x l).any (·.2)) 0 0 (fun _ x s l ps => (s.writeElems x l (two n s x l) ps, [])) ∧
  Performs (.stBm c f) f .write false (fun s x l => if mask s x l = 0 then (0, 1) else (8, 8)) [4] [f.sa]
    (fun s x l => [((v s x l 0).val, psn2 s x l), (word (mask s x l), psn2 s x l)]) psn2 0 0
    (fun _ x s l ps => (s.writeMasked x l (psn2 s x l) (mask s x l) (leBytes 8 (v s x l 0).val.toNat) ps, [])) ∧
  Performs (.stZ c f) f .write false (fun _ _ _ => (64, 64)) [4] [f.sa] (fun _ _ _ => []) (fun _ _ _ => false) 0 0
    fun _ x s l ps => (s.writePieces x l false ps (List.replicate 64 0), []))

/-- R205, R220 to R224: an atomic, for each guard-true lane in order, recalls the host's copies of the lines of its location, a
changed one coming home first (the model's choice, log 25: whether one is, and its bytes, are free), reads the old value, writes the new one and pushes the old one; `red` does the same without a result; `atom.cas` writes its new value where the old one is the expected one. -/
def Obligations.AtomicResults : Prop := ∀ (c : Common) (f : FmtM),
  let n := 2 ^ f.width.toNat
  let w := 8 * n
  let codes := [f.sa, f.sd]
  let data := fun (codes : List (BitVec 6)) (s : State) (x : Ctx) l => codes.map fun c => ((s.opnd x.g l c).val, (s.opnd x.g l c).psn)
  let v := fun (s : State) (x : Ctx) l => (s.opnd x.g l f.sd).val.toNat % 2 ^ w
  let rmw := fun (op : AtomOp) (push : Bool) (s0 : State) (x : Ctx) (s : State) l ps =>
    let s := s.recallPieces ps
    let o := leNat (s.readPieces x l true ps).2.1
    (s.writePieces x l false ps (leBytes n (atomNew op w (f.sgn = 1) o (v s0 x l))),
      if push then [(if f.sgn = 1 && !op.floating then sextW w o else word o, false)] else [])
  let one := fun (i : Instr) (op : AtomOp) => Performs i f .rmw true (fun _ _ _ => (n, n)) [3, 4] codes (data codes)
    (fun _ _ _ => false) 1 f.dst (rmw op true)
  one (.atomAdd c f) .add ∧ one (.atomMin c f) .min ∧ one (.atomMax c f) .max ∧ one (.atomAnd c f) .and ∧
  one (.atomOr c f) .or ∧ one (.atomXor c f) .xor ∧ one (.atomXchg c f) .xchg ∧ one (.atomInc c f) .inc ∧
  one (.atomFadd c f) .fadd ∧ one (.atomFmin c f) .fmin ∧ one (.atomFmax c f) .fmax ∧
  (∀ op, (f.dst.toNat, op) ∈ [(0, AtomOp.add), (1, .min), (2, .max), (3, .and), (4, .or), (5, .xor), (8, .inc), (9, .fadd),
      (10, .fmin), (11, .fmax)] →
    Performs (.red c f) f .rmw true (fun _ _ _ => (n, n)) [3, 4] codes (data codes) (fun _ _ _ => false) 0 0 (rmw op false)) ∧
  let k := if f.width = 4 then 4 else 2
  let four := f.sa :: (List.range k).map fun j => f.sd + BitVec.ofNat 6 j
  let r := fun (s : State) (x : Ctx) l j => (s.opnd x.g l (f.sd + BitVec.ofNat 6 j)).val.toNat
  Performs (.atomCas c f) f .rmw true (fun _ _ _ => (n, n)) [3, 4] four (data four) (fun _ _ _ => false)
    (if f.width = 4 then 2 else 1) f.dst fun s0 x s l ps =>
      let s := s.recallPieces ps
      let old := (s.readPieces x l true ps).2.1
      let e := if f.width = 4 then r s0 x l 0 + r s0 x l 1 * 2 ^ 64 else r s0 x l 0 % 2 ^ w
      let v := if f.width = 4 then r s0 x l 2 + r s0 x l 3 * 2 ^ 64 else r s0 x l 1 % 2 ^ w
      (s.writePieces x l false ps (if leNat old = e then leBytes n v else old),
        if f.width = 4 then [(word (leNat old), false), (word (leNat old / 2 ^ 64), false)] else [(word (leNat old), false)])

/-- R221, R222: what an atomic makes of the old value and its data. -/
def Obligations.AtomicNewValues : Prop := ∀ (w o v : Nat) (sgn : Bool), 0 < w → o < 2 ^ w → v < 2 ^ w →
  let less := if sgn then signedOf w o < signedOf w v else o < v
  atomNew .add w sgn o v = (o + v) % 2 ^ w ∧ atomNew .min w sgn o v = (if less then o else v) ∧
  atomNew .max w sgn o v = (if less then v else o) ∧ atomNew .and w sgn o v = o &&& v ∧ atomNew .or w sgn o v = o ||| v ∧
  atomNew .xor w sgn o v = o ^^^ v ∧ atomNew .xchg w sgn o v = v ∧ atomNew .inc w sgn o v = (if v ≤ o then 0 else o + 1) ∧
  ∀ op ∈ [AtomOp.add, .min, .max, .and, .or, .xor, .xchg, .inc], atomNew op w sgn o v < 2 ^ w

/-- R214: `ld.k` and `st.k` make one access for the issue, at the address of its lowest guard-true lane; every guard-true lane
receives what `ld.k` read.
R216: the non-faulting forms complete in every lane, whatever the checks of its access find: status 0 and the access where
it passes, 1 for a page fault, 3 for a misaligned address and 2 for any other trap, with 0 for the datum of a failed load. -/
def Obligations.UniformNonFaultingResults : Prop :=
  (∀ (c : Common) (f : FmtM) (s u : State) (x : Ctx) (m : Nat) (rest : List Nat)
    (ps : List (Loc × Nat)),
  let n := 2 ^ f.width.toNat
  let ext := fun (bs : List Byte) => if f.sgn = 1 then sextW (8 * bs.length) (leNat bs) else zextW (8 * bs.length) (leNat bs)
  let d := s.storeData x f m
  Lenient x → x.on = m :: rest → (∀ l0, (lanesOf x.mask).head? = some l0 → (s.opnd x.g l0 f.sa).psn = false) →
  x.pairsDiffer (fun _ => []) = false →
  (Issues s (.ldK c f) x → s.access x f.space.toNat m (s.ea x f m) n n .read = .ok u ps →
    let r := (u.drainReleases x f.order f.scope .read (x.on.map fun l => .pass l ps)).readPieces x m (f.hint == 1) ps
    ∃ t, exec (.ldK c f) s = .next t ∧
      RetiredBy r.1 t x (x.on.map fun l => ⟨l, [(ext r.2.1, r.2.2)], [], 0, none⟩) 1 (some f.sa) f.dst [] (.op r.1.serial) .ready) ∧
  (Issues s (.stK c f) x → s.access x f.space.toNat m (s.ea x f m) n n .write = .ok u ps →
    (d.any (·.2) = true → ∀ q ∈ ps, kindOf [q] ≠ 3 ∧ kindOf [q] ≠ 4) →
    let v := u.drainReleases x f.order f.scope .write (x.on.map fun l => .pass l ps)
    let r := v.writeElems x m (v.storeData x f m) ps
    ∃ t, exec (.stK c f) s = .next t ∧
      RetiredBy r t x (x.on.map fun l => ⟨l, [], [], 0, none⟩) 0 (some f.sa) 0 [] (.op r.serial) .ready)) ∧
  (∀ (c : Common) (f : FmtM) (s u : State) (x : Ctx) (cs : List LaneChk),
  let n := 2 ^ f.width.toNat
  let ext := fun (bs : List Byte) => if f.sgn = 1 then sextW (8 * bs.length) (leNat bs) else zextW (8 * bs.length) (leNat bs)
  let status := fun (k : LaneChk) => match k with
    | .pass _ _ => (0 : Word)
    | .fault _ _ _ _ _ => 1
    | .trap t => if t.cause = 5 then 3 else 2
  let run := fun (act : State → LaneChk → State × List RedVal) (s : State) =>
    cs.foldl (fun (a : State × List Out) k => ((act a.1 k).1, a.2 ++ [⟨k.lane, (act a.1 k).2, [], 0, none⟩])) (s, [])
  let entries := (x.actors x.on).map fun l => (l, s.ea x f l, n, n)
  Lenient x → x.actors x.on ≠ [] ∨ x.off ≠ [] → (∀ l ∈ x.on, (s.opnd x.g l f.sa).psn = false) →
  (Issues s (.ldNt c f) x →
    x.pairsDiffer (fun l => [(s.ea x f l, false)]) = false →
    State.checkAll x f.space.toNat .read entries s [] = .done u cs →
    let r := run (fun s k => match k with
      | .pass l ps =>
        let q := s.readPieces x l (f.hint == 1) ps
        (q.1, [(0, false), (ext q.2.1, q.2.2)])
      | k => (s, [(status k, false), (0, false)])) (u.drainReleases x f.order f.scope .read cs)
    let v := r.1.ntForget x cs
    ∃ t, exec (.ldNt c f) s = .next t ∧ RetiredBy v t x (x.mirror r.2) 2 (some f.sa) f.dst [] (.op v.serial) .ready) ∧
  (Issues s (.stNt c f) x →
    x.pairsDiffer (fun l => (s.ea x f l, false) :: dataKey (s.storeData x f l)) = false →
    State.checkAll x f.space.toNat .write entries s [] = .done u cs → storesPoison (fun l => (s.storeData x f l).any (·.2)) cs = none →
    let r := run (fun s k => match k with
      | .pass l ps => (s.writeElems x l (s.storeData x f l) ps, [(0, false)])
      | k => (s, [(status k, false)])) (u.drainReleases x f.order f.scope .write cs)
    let v := r.1.ntForget x cs
    ∃ t, exec (.stNt c f) s = .next t ∧ RetiredBy v t x (x.mirror r.2) 1 (some f.sa) f.dst [] (.op v.serial) .ready))

/-- R217, R428: `st.cmp` completes where no element is stopped: it stores the elements of its guard-true lanes next to each other
from the base on, and pushes in every lane how many there are; an issue that takes the group's resume point has its lanes, base
and first rank, and clears it. `ld.exp` completes where every access passes, and gives each lane its element in the order of
lanes.
R217, R198: how the elements of `st.cmp` are stored: in ascending rank, each at the base plus its rank times the width, a
lane's buffered writes being performed before its element on an NSO page; and where one meets a page fault, those below it are
performed and its rank is known. -/
def Obligations.CompressExpandResults : Prop :=
  (∀ (c : Common) (f : FmtM) (s u : State) (x : Ctx) (m : Nat) (rest : List Nat),
  let n := 2 ^ f.width.toNat
  let ext := fun (bs : List Byte) => if f.sgn = 1 then sextW (8 * bs.length) (leNat bs) else zextW (8 * bs.length) (leNat bs)
  let acts := x.actors x.on
  let b := s.ea x f m
  Lenient x → acts = m :: rest → (s.opnd x.g m f.sa).psn = false →
  (Issues s (.stCmp c f) x → b.toNat % n = 0 →
    x.pairsDiffer (fun l => (s.ea x f l, false) :: dataKey (s.storeData x f l)) = false →
    (∀ r, x.g.resume = some r → r.pc = x.pc → r.mask &&& x.mask = 0) →
    let v := if 2 ≤ f.order.toNat ∧ f.scope = 5 then x.on.foldl (fun s l => s.drainWcb x.key l) s else s
    let elems := (withIdx acts).filter fun e => x.on.contains e.2
    (∃ r, State.cmpElems x f b elems v = (u, r, .none)) →
    ∃ t, exec (.stCmp c f) s = .next t ∧
      RetiredBy u t x (x.on.map fun l => ⟨l, [(word acts.length, false)], [], 0, none⟩) 1 (some f.sa) f.dst [] (.op u.serial) .ready) ∧
  (Issues s (.stCmp c f) x →
    x.pairsDiffer (fun l => (s.ea x f l, false) :: dataKey (s.storeData x f l)) = false → ∀ p : Resume,
    x.g.resume = some p → p.pc = x.pc → p.mask &&& x.mask ≠ 0 → p.base.toNat % n = 0 →
    let w := s.modGroup x.key fun g => { g with resume := none }
    let v := if 2 ≤ f.order.toNat ∧ f.scope = 5 then x.on.foldl (fun s l => s.drainWcb x.key l) w else w
    let ranked := x.actors (lanesOf p.mask)
    let elems := (withIdx ranked).filter fun e => decide (p.rank ≤ e.1) && x.on.contains e.2
    (∃ r, State.cmpElems x f p.base elems v = (u, r, .none)) →
    ∃ t, exec (.stCmp c f) s = .next t ∧
      RetiredBy u t x (x.on.map fun l => ⟨l, [(word ranked.length, false)], [], 0, none⟩) 1 (some f.sa) f.dst [] (.op u.serial) .ready) ∧
  (Issues s (.ldExp c f) x → b.toNat % n = 0 → x.pairsDiffer (fun l => [(s.ea x f l, false)]) = false → ∀ ps,
    Accessible s x f.space.toNat .read ((withIdx acts).map fun e => (e.2, b + word (e.1 * n), n, n)) [4] u ps →
    let r := performAll (fun s l ps =>
      let q := s.readPieces x l (f.hint == 1) ps
      (q.1, [(ext q.2.1, q.2.2)])) ps u []
    ∃ t, exec (.ldExp c f) s = .next t ∧
      RetiredBy r.1 t x (x.mirror r.2) 1 (some f.sa) f.dst [] (.op r.1.serial) .ready)) ∧
  (∀ (x : Ctx) (f : FmtM) (b : Word) (r l : Nat) (es : List (Nat × Nat))
    (s u : State) (ps : List (Loc × Nat)),
  let n := 2 ^ f.width.toNat
  s.access x f.space.toNat l (b + word (r * n)) n n .write = .ok u ps →
  (∀ q ∈ ps, kindOf [q] ≠ 4) → ((s.storeData x f l).any (·.2) = true → ∀ q ∈ ps, kindOf [q] ≠ 3) →
  let v := if ∃ q ∈ ps, kindOf [q] = 1 then u.drainWcb x.key l else u
  State.cmpElems x f b ((r, l) :: es) s =
    State.cmpElems x f b es (v.writeElems x l (s.storeData x f l) ps) ∧
  ∀ w va sp ats, w.access x f.space.toNat l (b + word (r * n)) n n .write = .pageFault va sp ats →
    State.cmpElems x f b ((r, l) :: es) w = (w, r, .pageFault va sp ats))

/-- R218, R219, R225: `pf` and `pf.k` complete, push nothing, and change no architectural state: under `.keep` they fill lines of the
issuing core's L1, for `pf.k` those of at most 2^20 bytes, and a fill changes that L1 and the key under which a frame was last
shown alone. `l1.inv` completes and empties that L1 if the issue has a guard-true lane. `fence` completes and first
performs the issuing lanes' buffered WCB writes where it releases at system scope.
R219: `xlat.pf` completes where the walk of every guard-true lane's address has its answer, and pushes it; `waiting` is that an
ATS answer, or the end of a splinter, is still to come.
R219: what `xlat.pf` reports of an address of the tenant: STAT 1 where no valid leaf is found; nothing while a splinter works on
the leaf; STAT 2 where it names a frame of the trusted base; and otherwise STAT 0 with the leaf's size, permissions, kind and bits
CMP, MIG and PSN. The walk changes nothing. STAT 1 too for a host-virtual address that has no translation. -/
def Obligations.PrefetchFenceResults : Prop :=
  (∀ (c : Common) (f : FmtM) (s : State) (x : Ctx), Lenient x →
  lanesOf x.mask ≠ [] → x.pairsDiffer (fun _ => []) = false →
  let outs := x.on.map fun l => (⟨l, [], [], 0, none⟩ : Out)
  (∀ (w : State) (va : Nat), let v := w.l1Fill x va
    v = w ∨ ∃ frame key, v = w.viewAs frame key ∨
      ∃ lines, v = (w.viewAs frame key).modCore x.core fun k => { k with l1 := lines }) ∧
  (Issues s (.pf c f) x → (∀ l ∈ x.on, (s.opnd x.g l f.sa).psn = false) →
    x.pairsDiffer (fun l => [(s.ea x f l, false)]) = false →
    let u := if f.hint = 3 ∧ f.space = 0 then x.on.foldl (fun u l => u.l1Fill x (s.ea x f l).toNat) s else s
    ∃ t, exec (.pf c f) s = .next t ∧
      RetiredBy u t x outs 0 (some f.sa) 0 [] (.from s.cycle) (.from s.cycle)) ∧
  (Issues s (.pfK c f) x → (∀ l, (s.opnd x.g l f.sa).psn = false) →
    let l0 := ((lanesOf x.mask).head?).getD 0
    let a := (s.ea x f l0).toNat
    let n := min (s.opnd x.g l0 f.sd).val.toNat (2 ^ 20)
    let u := if f.hint = 3 ∧ x.on ≠ [] ∧ n ≠ 0 then
        (List.range ((a + n - 1) / 64 - a / 64 + 1)).foldl (fun u i => u.l1Fill x ((a / 64 + i) * 64)) s else s
    ∃ t, exec (.pfK c f) s = .next t ∧
      RetiredBy u t x outs 0 (some f.sa) 0 [] (.from s.cycle) (.from s.cycle)) ∧
  (Issues s (.l1Inv c f) x →
    let u := if x.on = [] then s else s.modCore x.core fun k => { k with l1 := [] }
    ∃ t, exec (.l1Inv c f) s = .next t ∧ RetiredBy u t x outs 0 (some f.sa) 0 [] (.op u.serial) .ready) ∧
  (Issues s (.fence c f) x →
    let u := if 2 ≤ f.order.toNat ∧ f.scope = 5 then x.on.foldl (fun s l => s.drainWcb x.key l) s else s
    ∃ t, exec (.fence c f) s = .next t ∧ RetiredBy u t x outs 0 (some f.sa) 0 [] (.op u.serial) .ready)) ∧
  (∀ (c : Common) (f : FmtM) (s : State) (x : Ctx) (w : Nat → Word),
  Issues s (.xlatPf c f) x → Lenient x → lanesOf x.mask ≠ [] → (∀ l ∈ x.on, (s.opnd x.g l f.sa).psn = false) →
  x.pairsDiffer (fun l => [(s.ea x f l, false)]) = false →
  (∀ l ∈ x.on, s.xlatOf x f.space.toNat (s.ea x f l).toNat = (s, some (w l))) →
  let u := s.atsSpent x f.space.toNat (x.on.map fun l => (s.ea x f l).toNat)
  ∃ t, exec (.xlatPf c f) s = .next t ∧
    RetiredBy u t x (x.on.map fun l => ⟨l, [(w l, false)], [], 0, none⟩) 1 (some f.sa) f.dst [] (.op u.serial) .ready) ∧
  (∀ (s : State) (x : Ctx) (va : Nat) (t : Tenant),
  s.tenant? x.ln.tenant = some t →
  let r := s.xlatOf x 0 va
  (2 ^ 48 ≤ va ∨ s.walk t.root va = none → r = (s, some 1)) ∧
  (∀ p, s.pasidOf x.ln = some p → (∀ u, s.ats (dieOf x.core) p (va / 4096) ≠ .waiting u) →
    (∀ h rd wr, s.ats (dieOf x.core) p (va / 4096) ≠ .hit h rd wr) → s.xlatOf x 4 va = (s, some 1)) ∧
  ∀ l, va < 2 ^ 48 → s.walk t.root va = some l →
    (bit l.e 55 = true → r = (s, none)) ∧
    (bit l.e 55 = false → trustedBase ≤ l.pa va → r = (s, some 2)) ∧
    (bit l.e 55 = false → l.pa va < trustedBase → ∃ w, r = (s, some w) ∧ bits w 1 0 = 0 ∧
      bits w 4 2 = (if l.shift = 30 then 3 else if l.shift = 21 then 2 else if l.run64 && s.runOk l then 1 else 0) ∧
      bit w 5 = l.rd ∧ bit w 6 = l.wr ∧ bit w 7 = l.ex ∧ bits w 10 8 = l.kind ∧ bit w 11 = l.cmp ∧ bit w 12 = bit l.e 53 ∧
      bit w 13 = l.psn ∧ bits w 63 14 = 0))

/-- R226 to R228: `wait` lets a lane whose compare fails complete with status 1 and one that finds its slice full with status 3,
and enters the others in the wake table, where they wait; `wake` removes and resumes waiters of the key in order of entry and
pushes how many.
R226, R227: what `wait` does in one lane. -/
def Obligations.WaitWakeResults : Prop :=
  (∀ (c : Common) (f : FmtM) (s u : State) (x : Ctx) (ps : List (Nat × List (Loc × Nat))),
  let n := 2 ^ f.width.toNat
  let ea := s.ea x f
  let cmp := fun l => if f.sgn = 1 then [((s.opnd x.g l f.sd).val, false)] else []
  Lenient x → (∀ l ∈ x.on, (s.opnd x.g l f.sa).psn = false ∧ (f.sgn = 1 → (s.opnd x.g l f.sd).psn = false)) →
  x.pairsDiffer (fun l => (ea l, false) :: cmp l) = false →
  (Issues s (.wait c f) x →
    Accessible s x f.space.toNat .rmw ((x.actors x.on).map fun l => (l, ea l, n, n)) [3, 4] u ps →
    (∀ p ∈ ps, (u.readPieces x p.1 true p.2).2.2 = false) →
    let r := State.waitLanes x f s ps u [] []
    let ws := r.2.2 ++ (r.2.2.filter fun w => x.ln.paired && x.on.contains (w.1 + 16)).map fun w => (w.1 + 16, w.2)
    exec (.wait c f) s = .next (r.1.settle x ws (x.mirror r.2.1) 1 (some f.sa) f.dst).bump) ∧
  (Issues s (.wake c f) x → (∀ l ∈ x.on, (s.opnd x.g l f.sd).psn = false) →
    Accessible s x f.space.toNat .read ((x.actors x.on).map fun l => (l, ea l, 1, 1)) [3, 4] u ps →
    let r := performAll (fun s l _ =>
      let k := s.keyOf x f.space.toNat (ea l).toNat
      let q := s.wake k.1 k.2 (s.opnd x.g l f.sd).val.toNat 0
      (q.1.recallLine k.1 k.2, [(word q.2, false)])) ps (u.drainReleases x f.order f.scope .read (allPass ps)) []
    exec (.wake c f) s = .next (r.1.finishLong x (x.mirror r.2) 1 (some f.sa) f.dst [] [] false).bump)) ∧
  (∀ (x : Ctx) (f : FmtM) (s0 s : State) (l : Nat) (ps : List (Loc × Nat)),
  let a := s0.ea x f l
  let k := s.keyOf x f.space.toNat a.toNat
  let v := leNat (s.readPieces x l true ps).2.1
  let same := v = (s0.opnd x.g l f.sd).val.toNat % 2 ^ (8 * 2 ^ f.width.toNat)
  let r := State.waitLanes x f s0 [(l, ps)] s [] []
  (f.sgn = 1 ∧ ¬ same → r = (s, [⟨l, [(1, false)], [], 0, none⟩], [])) ∧
  ((f.sgn = 1 → same) → s.sliceFull k.2 = true → r = (s, [⟨l, [(3, false)], [], 0, none⟩], [])) ∧
  ((f.sgn = 1 → same) → s.sliceFull k.2 = false →
    r.2.1 = [] ∧ r.2.2 = [(l, ⟨.wait, a, 0, f.dst, 0, 0⟩)] ∧
    r.1 = { s with mem := { s.mem with waiters := s.mem.waiters ++ [⟨k.2, k.1, x.key, l, false, 0xAE, f.scope.toNat, 0, false, none⟩] } }))

/-- R231 to R241: the instructions on locks, promises and claims complete where every access passes its checks: they perform their
operation for each guard-true lane in order, after its buffered writes where they release at system scope or the cell is NSO;
lanes that need not wait complete with its results and predicate, the others wait.
R242, R243: the heir settings change the current or default heir, and under `.all` every entry's; the queries push the
summary and an entry's words, or zeros. -/
def Obligations.HoldingInstructionResults : Prop :=
  (∀ (c : Common) (f : FmtM),
  let scope := f.scope.toNat
  let sd := fun (s : State) (x : Ctx) l => (s.opnd x.g l f.sd).val
  let cell := fun (i : Instr) (codes : List (BitVec 6)) (nres : Nat) (rel : Bool)
      (op : State → Ctx → State → Nat → Cell → State × CellRes) =>
    ∀ (s u : State) (x : Ctx) (ps : List (Nat × List (Loc × Nat))), Issues s i x → Lenient x →
      let n := 2 ^ f.width.toNat
      let ea := s.ea x f
      let vals := fun l => codes.map fun c => ((s.opnd x.g l c).val, (s.opnd x.g l c).psn)
      (∀ l ∈ x.on, ∀ c ∈ codes, (s.opnd x.g l c).psn = false) → x.pairsDiffer (fun l => (ea l, false) :: vals l) = false →
      Accessible s x 0 .rmw ((x.actors x.on).map fun l => (l, ea l, n, n)) [3, 4] u ps →
      (∀ p ∈ ps, (u.readPieces x p.1 true p.2).2.2 = false) →
      let v := ps.foldl (fun s p =>
        let s := if (rel && f.scope = 5) || kindOf p.2 = 1 then s.drainWcb x.key p.1 else s
        s.recallPieces p.2) u
      let r := State.cellLanes x f (fun l => (ea l).toNat) (op s x) ps v [] []
      let ws := r.2.2 ++ (r.2.2.filter fun w => x.ln.paired && x.on.contains (w.1 + 16)).map fun w => (w.1 + 16, w.2)
      exec i s = .next (r.1.settle x ws (x.mirror r.2.1) nres (some f.sa) f.dst).bump
  cell (.lockAcq c f) [f.sa] 1 false (fun _ x s l k => s.take k x.key l 0xB0 false false 0 scope) ∧
  cell (.lockTry c f) [f.sa] 1 false (fun _ x s l k => s.take k x.key l 0xB1 false true 0 scope) ∧
  cell (.lockRel c f) [f.sa] 1 true (fun _ x s _ k => s.release k x.key false) ∧
  cell (.promMake c f) [f.sa] 1 false (fun _ x s _ k => s.make k x.key scope) ∧
  cell (.promKeep c f) [f.sa, f.sd] 1 true (fun s0 x s l k => s.settle2 k x.key true (sd s0 x l)) ∧
  cell (.promWait c f) [f.sa] 2 false (fun _ x s l k => s.await k x.key l false scope) ∧
  cell (.promTry c f) [f.sa] 2 false (fun _ x s l k => s.await k x.key l true scope) ∧
  cell (.claimGet c f) [f.sa, f.sd] 1 false (fun s0 x s l k => s.take k x.key l 0xB7 true false (sd s0 x l) scope) ∧
  cell (.claimTry c f) [f.sa, f.sd] 1 false (fun s0 x s l k => s.take k x.key l 0xB8 true true (sd s0 x l) scope) ∧
  cell (.claimPut c f) [f.sa] 1 true (fun _ x s _ k => s.release k x.key true) ∧
  cell (.promDrop c f) [f.sa] 1 true (fun _ x s _ k => s.settle2 k x.key false 0) ∧
  cell (.claimPass c f) [f.sa, f.sd] 1 true fun s0 x s l k => s.pass k x.key ((sd s0 x l).toNat % 16)) ∧
  (∀ (c : Common) (f : FmtS) (s : State) (x : Ctx), Lenient x →
  lanesOf x.mask ≠ [] → x.pairsDiffer (fun _ => []) = false →
  let kind := f.sel.toNat % 8
  let set := fun (g : Group) (kind arg : Nat) (dflt all : Bool) => { g with estate :=
    { (if dflt then { g.estate with dfltKind := kind, dfltArg := arg } else { g.estate with curKind := kind, curArg := arg }) with
      entries := if all then g.estate.entries.map fun e => { e with heir := kind, harg := arg } else g.estate.entries } }
  (Issues s (.heirSet c f) x → kind ≠ 5 → (∀ l ∈ x.on, (s.opnd x.g l f.sa).psn = false) →
    x.pairsDiffer (fun l => [((s.opnd x.g l f.sa).val, false)]) = false → ∀ m rest, x.on = m :: rest →
    let u := s.modGroup x.key fun g => set g kind (if kind = 1 then (s.opnd x.g m f.sa).val.toNat % 16 else 0) (f.imm.getLsbD 1) (f.imm.getLsbD 0)
    ∃ t, exec (.heirSet c f) s = .next t ∧
      RetiredBy u t x (x.on.map fun l => ⟨l, [], [], 0, none⟩) 0 (some f.sa) 0 [] (.op u.serial) .ready) ∧
  (Issues s (.heirSet c f) x → kind = 5 → (∀ l ∈ x.on, (s.opnd x.g l f.sa).psn = false) →
    x.pairsDiffer (fun l => [((s.opnd x.g l f.sa).val, false)]) = false → ∀ m rest v ps, x.on = m :: rest →
    Accessible s x 0 .rmw [(m, (s.opnd x.g m f.sa).val, 4, 4)] [3, 4] v [(m, ps)] →
    let u := v.modGroup x.key fun g => set g 5 ((s.opnd x.g m f.sa).val.toNat % 2 ^ 48) (f.imm.getLsbD 1) (f.imm.getLsbD 0)
    ∃ t, exec (.heirSet c f) s = .next t ∧
      RetiredBy u t x (x.on.map fun l => ⟨l, [], [], 0, none⟩) 0 (some f.sa) 0 [] (.op u.serial) .ready) ∧
  (Issues s (.heirClr c f) x →
    let u := if x.on = [] then s else s.modGroup x.key fun g => set g 0 0 false (f.imm.getLsbD 0)
    ∃ t, exec (.heirClr c f) s = .next t ∧
      RetiredBy u t x (x.on.map fun l => ⟨l, [], [], 0, none⟩) 0 (some f.sa) 0 [] (.op u.serial) .ready) ∧
  (Issues s (.estQ c f) x → ∃ t, exec (.estQ c f) s = .next t ∧
    Retired s t x (fun l => ⟨l, [(word (x.g.estate.dfltKind % 8 * 2 ^ 21 + x.g.estate.curKind % 8 * 2 ^ 18 +
      x.g.estate.entries.length % 32 * 2 ^ 12), false)], [], 0, none⟩) 1 none f.dst [] (.from (s.cycle + 4)) (.from (s.cycle + 4))) ∧
  (Issues s (.estRd c f) x → ∃ t, exec (.estRd c f) s = .next t ∧
    Retired s t x (fun l => ⟨l, (match x.g.estate.entries[f.sel.toNat % 16]? with
      | some e => e.words
      | none => [0, 0]).map fun v => (v, false), [], 0, none⟩) 2 none f.dst [] (.from (s.cycle + 4)) (.from (s.cycle + 4))))

/-- R238: taking a lock or claim. A malformed word gives status 6; a cell that the group holds gives 4; a free cell, or one
reserved for the group, is taken unless the estate table is full, with status 2 if it was bereaved; a try of any other gives
1, and other requests wait, or give 3 where the slice of the wake table is full.
R232, R234, R238: a cell that is given holds a control word of ST 1 that names the group, with BRV clear, and the group's
estate has one more entry, which names the cell and takes the current heir. No migration may write another word over the cell's. -/
def Obligations.HoldingCells : Prop :=
  (∀ (s : State) (k : Cell) (key lane opc : Nat) (claim tries : Bool) (range : Word) (scope : Nat),
  let w0 := s.physWord k.pa
  let w := s.effective k w0 false
  let mine := s.matchesHolder key (holderOf w) = true
  let open' := stOf w = 0 ∨ (stOf w = 2 ∧ mine)
  let r := s.take k key lane opc claim tries range scope
  let done := fun (st : Nat) => CellRes.done [word st] (some (if tries then st = 0 || st = 2 else st = 2))
  (malformedCtl w0 false = true → r = (s, done 6)) ∧
  (malformedCtl w0 false = false → mine ∧ stOf w = 1 → r = (s, done 4)) ∧
  (malformedCtl w0 false = false → open' → s.estateFull key = true → r = (s, done 3)) ∧
  (malformedCtl w0 false = false → open' → s.estateFull key = false →
    r = (s.give k key claim range scope (brvOf w), done (if brvOf w then 2 else 0))) ∧
  (malformedCtl w0 false = false → ¬ open' → ¬ (mine ∧ stOf w = 1) → tries = true → r = (s, done 1)) ∧
  (malformedCtl w0 false = false → ¬ open' → ¬ (mine ∧ stOf w = 1) → tries = false → s.sliceFull k.va = true → r = (s, done 3)) ∧
  (malformedCtl w0 false = false → ¬ open' → ¬ (mine ∧ stOf w = 1) → tries = false → s.sliceFull k.va = false →
    let e : Waiter := ⟨k.va, k.tenant, key, lane, true, BitVec.ofNat 8 opc, scope, range, false, none⟩
    r = ({ s with mem := { s.mem with waiters := s.mem.waiters ++ [e] } }, .wait e))) ∧
  (∀ (s : State) (k : Cell) (key : Nat) (g : Group) (range : Word) (scope : Nat) (brv : Bool),
  s.mem.bytes.wf = true → s.group? key = some g →
  (∀ t ∈ s.twins k.pa 8, ∀ j, j < 8 → k.pa + j < t.2.1 ∨ t.2.1 + t.2.2 ≤ k.pa + j) →
  let id := s.identity key
  let t := s.give k key false range scope brv
  id.lslot < 4096 → id.grp < 16 → id.team < 2 ^ 31 →
  stOf (t.physWord k.pa) = 1 ∧ brvOf (t.physWord k.pa) = false ∧ malformedCtl (t.physWord k.pa) false = false ∧
  holderOf (t.physWord k.pa) = id ∧
  ∃ g', t.group? key = some g' ∧ g'.estate.entries = g.estate.entries ++
    [⟨brv, 0, g.estate.curKind, scope, k.va % 2 ^ 48, (g.estate.count + 1) % 2 ^ 16, g.estate.curArg⟩])

/-- R84, R152 to R155, R360: the branches. A guard-true lane goes to its target, which passed the TARGET check or is left to the
fetch, or goes on where the branch is not taken; a return from the handler clears HND; backward branches are counted for the
sweep, a branch to itself among them (the model's choices, log 30: a target whose line is not known is left to the fetch, and a branch
to itself is a backward one). Stated where no lane's target is refused.
R155: `loop` counts its register down by one and branches while the count is not 0. A target whose line is not known is left to the
fetch, and a branch to itself counts as a backward one (the model's choices, log 30).
R154: where a change of PC goes: a return from the handler anywhere; any other target only where the slot is a target. That a
target whose line is not yet known is left to the fetch is the model's choice (log 30). -/
def Obligations.BranchResults : Prop :=
  (∀ (c : Common) (f : FmtB),
  let v := fun (s : State) (x : Ctx) l => (s.opnd x.g l f.sa).val
  let rel := fun (s : State) (x : Ctx) l (extra : Nat) =>
    let n : Int := (linear x.pc : Int) + f.ofs.toInt + extra
    if n < 0 then Branch.trap 12 0 else s.go x l (ofLinear n.toNat) false
  let w := 64 / 2 ^ (f.mod.toNat % 4)
  let moves := fun (i : Instr) (codes : List (BitVec 6)) (body : State → Ctx → Nat → Branch) => ∀ (s : State) (x : Ctx),
    Issues s i x → Lenient x → (∀ l ∈ x.on, ∀ c ∈ codes, (s.opnd x.g l c).psn = false) →
    (∀ l ∈ x.on, ∀ n a, body s x l ≠ .trap n a) →
    x.branchesDiffer (x.on.map fun l => (l, body s x l)) (fun l => codes.map fun c => ((s.opnd x.g l c).val, (s.opnd x.g l c).psn)) = false →
    ∃ t, exec i s = .next t ∧
      Issued s t x
        (fun l e => match body s x l with
          | .to m => { e.retire ⟨l, [], [], 0, some m.pc⟩ 0 [] (.from (s.cycle + 0)) with
              unchecked := m.unchecked, hnd := e.hnd && !m.leave }
          | _ => e.retire ⟨l, [], [], 0, none⟩ 0 [] (.from (s.cycle + 0)))
        (skipped s x none 0 (.from (s.cycle + 0))) x.g.k
        (x.g.countBack x.g x.pc (x.on.filter fun l => match body s x l with
          | .to m => m.pc.toNat ≤ x.pc.toNat
          | _ => false)).slices
  moves (.bra c f) [] (fun s x l => rel s x l 0) ∧
  moves (.brx c f) [f.sa] (fun s x l => s.go x l (v s x l) true) ∧
  moves (.braZ c f) [f.sa] (fun s x l => if (v s x l).toNat % 2 ^ w = 0 then rel s x l 0 else .next) ∧
  moves (.braNz c f) [f.sa] (fun s x l => if (v s x l).toNat % 2 ^ w = 0 then .next else rel s x l 0) ∧
  moves (.jtab c f) [f.sa] fun s x l => if (v s x l).toNat < 2 ^ f.mod.toNat then rel s x l (v s x l).toNat else .next) ∧
  (∀ (c : Common) (f : FmtB) (s : State) (x : Ctx), Issues s (.loop c f) x → Lenient x →
  let next := fun l => (s.opnd x.g l f.sa).val.toNat - 1
  let body := fun l => if next l = 0 then Branch.next else s.goRel x l f 0
  (∀ l ∈ x.on, (s.opnd x.g l f.sa).psn = false ∧ ∀ n a, body l ≠ .trap n a) →
  x.branchesDiffer (x.on.map fun l => (l, body l)) (fun l => [((s.opnd x.g l f.sa).val, false)]) = false →
  ∃ t, exec (.loop c f) s = .next t ∧
    Issued s t x
      (fun l e =>
        let e := e.dst f.sa (word (next l), false) (.from (s.cycle + 4))
        match body l with
        | .to m => { e.retire ⟨l, [], [], 0, some m.pc⟩ 0 [] (.from (s.cycle + 0)) with
            unchecked := m.unchecked, hnd := e.hnd && !m.leave }
        | _ => e.retire ⟨l, [], [], 0, none⟩ 0 [] (.from (s.cycle + 0)))
      (skipped s x none 0 (.from (s.cycle + 0))) x.g.k
      (x.g.countBack x.g x.pc (x.on.filter fun l => match body l with
        | .to m => m.pc.toNat ≤ x.pc.toNat
        | _ => false)).slices) ∧
  (∀ (s : State) (x : Ctx) (l : Nat) (t : Word) (returns : Bool),
  let back := returns = true ∧ (x.g.lane l).hnd = true ∧ (t = (x.g.lane l).trapSlot ∨ t = succPc (x.g.lane l).trapSlot)
  (back → s.go x l t returns = .to ⟨t, false, true⟩) ∧
  (¬ back → (s.target x.ln.tenant t).1 = true → s.go x l t returns = .to ⟨t, (s.target x.ln.tenant t).2, false⟩) ∧
  (¬ back → (s.target x.ln.tenant t).1 = false → s.go x l t returns = .trap 12 t))

/-- R156, R157: `call` and `callx` at a depth below 1,024 keep the successor in the link register that the depth names and deepen by
one, and at a depth of 8 and more first store what that register held in the lane's link region; `ret` goes to the link of the depth
below, deepens by one less, and at a depth of 9 and more refills the link register from the region. A call at depth 1,024 and a return at
depth 0 trap with cause 1. Stated where every access of the link region passes its checks.
R159 to R163: `exit` and `exit.wk` end their lanes unless that would leave a heirless holding, which traps every guard-true lane
with cause 4, and then `exit.wk` wakes nobody; `yield` gives up
the next 64 cycles; `join` waits for the set's or the group's lanes. -/
def Obligations.CallExitResults : Prop :=
  (∀ (c : Common) (f : FmtB),
  let body := fun (i : Instr) (s : State) (x : Ctx) l => match i with
    | .call _ _ => s.goRel x l f 0
    | .callx _ _ => s.go x l (s.opnd x.g l f.sa).val true
    | _ => s.go x l ((x.g.lane l).link.getD (((x.g.lane l).depth - 1) % 8) 0) true
  let data := fun (codes : List (BitVec 6)) (s : State) (x : Ctx) l => codes.map fun c => ((s.opnd x.g l c).val, (s.opnd x.g l c).psn)
  let whole := fun (x : Ctx) => x.ln.paired = true → ∀ l, l < 16 → (l ∈ x.on ↔ l + 16 ∈ x.on)
  let moves := fun (i : Instr) (codes : List (BitVec 6)) (acc : Acc) (depths : Nat → Prop) (spill : Nat → Option Nat)
      (act : Ctx → State → Nat → List (Loc × Nat) → State) (link : Ctx → State → List (Nat × List (Loc × Nat)) → Nat → Lane → Lane) =>
    ∀ (s u : State) (x : Ctx) (m : Nat → Move) (ps : List (Nat × List (Loc × Nat))), Issues s i x → Lenient x → whole x →
    (∀ l ∈ x.on, ∀ c ∈ codes, (s.opnd x.g l c).psn = false) →
    (∀ l ∈ x.on, depths (x.g.lane l).depth ∧ body i s x l = .to (m l)) →
    x.branchesDiffer (x.on.map fun l => (l, .to (m l))) (data codes s x) = false →
    Accessible s x 3 acc ((x.actors x.on).map fun l => match spill (x.g.lane l).depth with
      | some w => (l, word (8 * w), 8, 8)
      | none => (l, 0, 0, 8)) [] u ps →
    let v := ps.foldl (fun v p => act x v p.1 p.2) u
    ∃ t, exec i s = .next t ∧
      Issued v t x
        (fun l e => { (link x u ps l e).retire ⟨l, [], [], 0, some (m l).pc⟩ 0 [] (.from (s.cycle + 0)) with
          unchecked := (m l).unchecked, hnd := e.hnd && !(m l).leave })
        (skipped s x none 0 (.from (s.cycle + 0))) x.g.k
        (x.g.countBack x.g x.pc (x.on.filter fun l => (m l).pc.toNat ≤ x.pc.toNat)).slices
  let store := fun (x : Ctx) (v : State) l (ps : List (Loc × Nat)) =>
    if ps = [] then v else v.writePieces x l false ps (leBytes 8 ((x.g.lane l).link.getD ((x.g.lane l).depth % 8) 0).toNat)
  let deeper := fun (x : Ctx) (_ : State) (_ : List (Nat × List (Loc × Nat))) (_ : Nat) (e : Lane) =>
    { e with link := updAt (fun _ => succPc x.pc) (e.depth % 8) e.link, depth := e.depth + 1 }
  let refill := fun (x : Ctx) (u : State) (ps : List (Nat × List (Loc × Nat))) (l : Nat) (e : Lane) =>
    { e with
      link := match ps.find? (fun p => p.1 == if x.ln.paired && 16 ≤ l then l - 16 else l) with
        | some (k, q :: qs) => updAt (fun _ => word (leNat (u.readPieces x k true (q :: qs)).2.1)) ((e.depth - 1) % 8) e.link
        | _ => e.link
      depth := e.depth - 1 }
  let region := fun d => if 8 ≤ d then some (d - 8) else none
  let traps := fun (i : Instr) (codes : List (BitVec 6)) (when' : State → Ctx → Nat → Word → Prop) =>
    ∀ (s : State) (x : Ctx) (a : Nat → Word), Issues s i x → Lenient x →
    (∀ l ∈ x.on, ∀ c ∈ codes, (s.opnd x.g l c).psn = false) → (∀ l ∈ x.on, when' s x l (a l)) →
    x.branchesDiffer (x.on.map fun l => (l, .trap 14 (a l))) (data codes s x) = false →
    exec i s = .next ((s.finish x [] 0 none 0 [] 0).takeTraps x.key x.pc x.opc (x.on.map fun l => ⟨l, 1, 14, a l⟩)).bump
  let full := fun (i : Instr) (s : State) (x : Ctx) l (a : Word) =>
    (x.g.lane l).depth = 1024 ∧ ∃ m : Move, body i s x l = .to m ∧ a = m.pc
  moves (.call c f) [] .write (· < 1024) region store deeper ∧
  moves (.callx c f) [f.sa] .write (· < 1024) region store deeper ∧
  moves (.ret c f) [] .read (1 ≤ ·) (fun d => if 9 ≤ d then some (d - 9) else none) (fun _ v _ _ => v) refill ∧
  traps (.call c f) [] (full (.call c f)) ∧ traps (.callx c f) [f.sa] (full (.callx c f)) ∧
  traps (.ret c f) [] fun _ x l a => (x.g.lane l).depth = 0 ∧ a = x.pc) ∧
  (∀ (c : Common) (f : FmtS) (s : State) (x : Ctx), Lenient x →
  x.pairsDiffer (fun _ => []) = false →
  let none0 := fun (s : State) => s.finish x [] 0 none 0 [] 0
  let heirless := x.on ≠ [] ∧ x.g.heirless x.onMask = true
  (Issues s (.exit c f) x → ¬ heirless → exec (.exit c f) s = .next ((none0 s).exitLanes x.key x.onMask).bump) ∧
  (Issues s (.exit c f) x → heirless →
    exec (.exit c f) s = .next ((none0 s).takeTraps x.key x.pc x.opc (x.on.map fun l => ⟨l, 4, 0, 0⟩)).bump) ∧
  (Issues s (.exitWk c f) x → heirless → (∀ l ∈ x.on, (s.opnd x.g l f.sa).psn = false) →
    x.pairsDiffer (fun l => [((s.opnd x.g l f.sa).val, false)]) = false →
    exec (.exitWk c f) s = .next ((none0 s).takeTraps x.key x.pc x.opc (x.on.map fun l => ⟨l, 4, 0, 0⟩)).bump) ∧
  (Issues s (.exitWk c f) x → ¬ heirless → (∀ l ∈ x.on, (s.opnd x.g l f.sa).psn = false) →
    x.pairsDiffer (fun l => [((s.opnd x.g l f.sa).val, false)]) = false → ∀ u ps,
    Accessible s x 0 .read ((x.actors x.on).map fun l => (l, (s.opnd x.g l f.sa).val, 1, 1)) [3, 4] u ps →
    let v := ps.foldl (fun u p =>
      let k := u.keyOf x 0 (s.opnd x.g p.1 f.sa).val.toNat
      (u.wake k.1 k.2 (f.imm.toNat % 65536) 0).1.recallLine k.1 k.2) u
    exec (.exitWk c f) s = .next ((none0 v).exitLanes x.key
      (maskOf fun l => ps.any fun p => p.1 == l || (x.ln.paired && p.1 + 16 == l && x.on.contains l))).bump) ∧
  (Issues s (.yield c f) x → ∃ t, exec (.yield c f) s = .next t ∧
    Issued s t x (fun l e => e.retire ⟨l, [], [], 0, none⟩ 0 [] (.from (s.cycle + 0))) (skipped s x none 0 (.from (s.cycle + 0)))
      x.g.k ((withIdx x.g.slices).map fun e =>
        if x.on ≠ [] ∧ (lanesOf x.mask).any (fun l => l / 4 == e.1) then { e.2 with yield := some (s.cycle + 64) } else e.2)) ∧
  (Issues s (.join c f) x → x.on ≠ [] →
    (f.sel.getLsbD 3 = true → ∀ l ∈ x.on, has ((s.mset x.tk (f.sel.toNat % 8)).members.getD x.g.gid 0) l = true) →
    let w : Wait := ⟨if f.sel.getLsbD 3 then .joinSet else .join, if f.sel.getLsbD 3 then word (f.sel.toNat % 8) else 0, 0, 0, 0, 0⟩
    exec (.join c f) s = .next ((s.startWait x (x.on.map fun l => (l, w)) [] 0 none 0 .ready).recheck x.tk).bump))

/-- R162, R165, R166, R362: `regroup` completes where every target passes its check: it sends each guard-true lane's continuation
to the binner with its target and the lane ends, or waits while its bin is full; in a paired launch the lower lane of a pair sends
it for both. `launch` and `launch.pool` complete on a device queue of the tenant that has room: they perform the group's buffered
stores under REL, write the packet at the queue's producer index, kick the queue and push the sequence number; where the queue is
full they wait or, in the trying form, complete with the refusal. On another queue every lane of the issue traps, whatever its guard:
the reading that the model chooses (log 32) where R165 says the guard-true lanes and R357 and R362 an issue fault. -/
def Obligations.RegroupLaunchResults : Prop := ∀ (c : Common) (f : FmtB) (e : FmtE) (s : State) (x : Ctx), Lenient x →
  let dest := fun l => if f.mod.getLsbD 0 then s.go x l (s.opnd x.g l f.sa).val false else s.goRel x l f 0
  let data := fun l => if f.mod.getLsbD 0 then [((s.opnd x.g l f.sa).val, (s.opnd x.g l f.sa).psn)] else []
  (Issues s (.regroup c f) x → x.ln.isPool = true → (∀ l ∈ x.on, ∀ v ∈ data l, v.2 = false) →
    ∀ m : Nat → Move, (∀ l ∈ x.on, dest l = .to (m l)) →
    x.branchesDiffer (x.on.map fun l => (l, .to (m l))) (fun l => data l ++ (s.contRec x l 0).carry.zip ((s.contRec x l 0).psn.drop 4)) = false →
    let movers := x.on.map fun l => (l, (m l).pc)
    let both := fun (ls : List Nat) => if x.ln.paired then ls ++ (ls.filter fun l => movers.any fun e => e.1 == l + 16).map (· + 16) else ls
    let r := State.regroupLanes x (if x.ln.paired then movers.filter fun e => decide (e.1 < 16) else movers) s [] []
    let u := if r.2.2 = [] then r.1.finish x [] 0 none 0 [] 0
      else r.1.startWait x ((both r.2.2).map fun l => (l, ⟨.regroupFull, 0, 0, 0, 0, 0⟩)) [] 0 none 0 .ready
    exec (.regroup c f) s = .next (u.exitLanes x.key (maskOf fun l => (both r.2.1).contains l)).bump) ∧
  (∀ kind, (kind = 0 ∧ Issues s (.launch c e) x) ∨ (kind = 1 ∧ Issues s (.launchPool c e) x) →
    let i := if kind = 0 then Instr.launch c e else .launchPool c e
    let ua := (s.opnd x.g 0 e.ua).val
    let qn := (s.opnd x.g 0 e.ub).val.toNat
    let q := s.queue qn
    let tag := x.ln.tagBase + e.tag.toNat
    let tagged := e.mod.getLsbD 1
    let outs := fun (v : Word) => x.on.map fun l => (⟨l, [(v, false)], [], 0, none⟩ : Out)
    qn < 4096 → ua.toNat % 64 = 0 →
    (¬ (q.devq = true ∧ q.tenant = x.ln.tenant) → exec i s = .next (s.issueTrap x 6 0 (word qn)).bump) ∧
    (q.devq = true → q.tenant = x.ln.tenant → x.pairsDiffer (fun _ => []) = false → x.on ≠ [] →
    (tagged = true → s.tagRoom x.core tag = true) →
    (q.full = false → ∀ w,
      let s0 := if e.rel = 1 then (List.range 32).foldl (fun s l => s.drainWcb x.key l) s else s
      s0.devWrite x.ln.tenant (q.base + 64 * (q.pi % 2 ^ q.log2n))
        (wordsBytes [word (kind * 2 ^ 17 + q.pi % 2 ^ 17), ua, (s.opnd x.g 0 e.uc).val, 0, 0, 0, 0, 0]) = .ok w () →
      let w := w.modQueue qn fun q => { q.kicked q.pi with
        pi := (q.pi + 1) % 2 ^ 17
        issuers := q.issuers.put q.pi
          ⟨indexKey x.lk x.gang, x.ln.serial, ((w.gang? (indexKey x.lk x.gang)).map Gang.attempt).getD 0, coreReg x.key⟩
        kids := if tagged then q.kids.put q.pi (x.tk, tag) else q.kids.del q.pi }
      let w := (if tagged then w.tagIssue x.core tag else w).kickSeen qn
      exec i s = .next (w.finish x (outs (word (qn * 2 ^ 16 + q.pi % 2 ^ 16))) 1 (some e.ua) e.dst [] 4).bump) ∧
    (q.full = true → e.mod.getLsbD 0 = true → ∃ seq < 2 ^ 16,
      let w := if tagged then (s.tagIssue x.core tag).tagDone x.core tag 0 0 0 none else s
      exec i s = .next (w.finish x (outs (word (2 ^ 63 + qn * 2 ^ 16 + seq))) 1 (some e.ua) e.dst [] 4).bump) ∧
    (q.full = true → e.mod.getLsbD 0 = false →
      exec i s = .next (s.startWait x (x.on.map fun l => (l, ⟨.launchFull, word qn, 0, e.dst, 0, 0⟩)) [] 1 (some e.ua) e.dst
        (.from (s.cycle + 4))).bump)))

/-- R167 to R172: barriers and membership sets. `bar.arv` pushes the phase and arrives; `bar.sync` arrives and waits for its
phase to complete, or with `.wo` completes at once where the phase given has passed; `bar.rd` pushes the barrier's word;
`set.join` and `set.leave` change the members; `set.sync` waits for them.
R173 to R175, R178: `gate` pushes whether the launch before was killed once the gate is open, and waits until then; `rls`
marks its group; `lead.adv` advances the team's lead; `lead.wait` and `twait` complete where their condition holds and wait
otherwise; `nop` only goes on, and so does `brk`, which also stops its team's work where a session holds the tenant's consent and
permits the team's stop mode (that a mode that is not permitted does not stop is the model's choice, log entry 53). -/
def Obligations.SynchronisationResults : Prop :=
  (∀ (c : Common) (f : FmtS) (s : State) (x : Ctx), Lenient x → x.on ≠ [] →
  let b := f.sel.toNat % 32
  let i := f.sel.toNat % 8
  let n := f.imm.toNat % 65536
  let v := s.bar x.tk b
  let a := fun l => (s.opnd x.g l f.sa).val.toNat % 2 ^ 32
  let push := fun (ls : List Nat) (w : Word) => ls.map fun l => (⟨l, [(w, false)], [], 0, none⟩ : Out)
  let plain := x.on.map fun l => (⟨l, [], [], 0, none⟩ : Out)
  let agrees := ∀ k, v.opened = some k → k = n
  (Issues s (.barArv c f) x → agrees →
    exec (.barArv c f) s = .next ((s.finish x (push x.on (word (v.phase % 2 ^ 32))) 1 none f.dst [] 4).arrive x.tk b x.on.length (some n)).bump) ∧
  (Issues s (.barSync c f) x → f.imm.getLsbD 16 = false → agrees →
    exec (.barSync c f) s = .next ((s.startWait x (x.on.map fun l => (l, ⟨.barrier, word b, 0, f.dst, 0, word (v.phase % 2 ^ 32)⟩)) [] 1 none
      f.dst (.from (s.cycle + 4))).arrive x.tk b x.on.length (some n)).bump) ∧
  (Issues s (.barSync c f) x → f.imm.getLsbD 16 = true → (∀ l ∈ x.on, v.passed (a l) = true) →
    ∃ t, exec (.barSync c f) s = .next t ∧ RetiredBy s t x (push x.on v.phaseWord) 1 (some f.sa) f.dst [] (.from (s.cycle + 4)) (.from (s.cycle + 4))) ∧
  (Issues s (.barSync c f) x → f.imm.getLsbD 16 = true → (∀ l ∈ x.on, v.passed (a l) = false) →
    exec (.barSync c f) s = .next (s.startWait x (x.on.map fun l => (l, ⟨.barSyncWo, word b, 0, f.dst, 0, word (a l)⟩)) [] 1 (some f.sa)
      f.dst (.from (s.cycle + 4))).bump) ∧
  (Issues s (.barRd c f) x → ∃ t, exec (.barRd c f) s = .next t ∧
    RetiredBy s t x (push x.on v.phaseWord) 1 none f.dst [] (.from (s.cycle + 4)) (.from (s.cycle + 4))) ∧
  (Issues s (.setJoin c f) x →
    let old := (s.mset x.tk i).members.getD x.g.gid 0
    let u := s.modSet x.tk i fun m => { m with
      members := updAt (fun k => k ||| x.onMask) x.g.gid m.members
      late := if s.setOpen x.tk i then updAt (fun k => k ||| (x.onMask &&& ~~~ old)) x.g.gid m.late else m.late }
    ∃ t, exec (.setJoin c f) s = .next t ∧ RetiredBy u t x plain 0 none 0 [] (.from (u.cycle + 0)) (.from (u.cycle + 0))) ∧
  (Issues s (.setLeave c f) x →
    let u := s.modSet x.tk i fun m => { m with
      members := updAt (fun k => k &&& ~~~ x.onMask) x.g.gid m.members
      late := updAt (fun k => k &&& ~~~ x.onMask) x.g.gid m.late }
    exec (.setLeave c f) s = .next ((u.finish x plain 0 none 0 [] 0).checkSet x.tk i).bump) ∧
  (Issues s (.setSync c f) x → f.sa = 0x3F → (∀ l ∈ x.on, has ((s.mset x.tk i).members.getD x.g.gid 0) l = true) →
    exec (.setSync c f) s = .next ((s.startWait x (x.on.map fun l => (l, ⟨.setSync, word i, 0, 0, 0, 0⟩)) [] 0 none 0 .ready).checkSet x.tk i).bump) ∧
  (Issues s (.setSync c f) x → f.sa ≠ 0x3F →
    let members := (s.mset x.tk i).members.getD x.g.gid 0
    (∀ l ∈ x.on, has members l = true ∧ (s.opnd x.g l f.sa).psn = false ∧ a l = members.toNat) →
    (∀ w, (s.mset x.tk i).masks.get? x.g.gid = some w → w = word members.toNat) →
    let u := s.modSet x.tk i fun m => { m with masks := m.masks.put x.g.gid (word members.toNat) }
    exec (.setSync c f) s = .next ((u.startWait x (x.on.map fun l => (l, ⟨.setSync, word i, 0, 0, 0, 0⟩)) [] 0 none 0 .ready).checkSet x.tk i).bump)) ∧
  (∀ (c : Common) (f : FmtS) (s : State) (x : Ctx), Lenient x → x.on ≠ [] →
  let push := fun (w : Word) => x.on.map fun l => (⟨l, [(w, false)], [], 0, none⟩ : Out)
  let plain := x.on.map fun l => (⟨l, [], [], 0, none⟩ : Out)
  let at4 := Avail.from (s.cycle + 4)
  let at0 := Avail.from (s.cycle + 0)
  let goal := fun l => if f.imm.getLsbD 0 then s.ns + (s.opnd x.g l f.sa).val.toNat else (s.opnd x.g l f.sa).val.toNat
  (Issues s (.gate c f) x → ∀ k, s.gate x.ln = some k →
    ∃ t, exec (.gate c f) s = .next t ∧ RetiredBy s t x (push (word (b2n k))) 1 none f.dst [] at4 at4) ∧
  (Issues s (.gate c f) x → s.gate x.ln = none →
    exec (.gate c f) s = .next (s.startWait x (x.on.map fun l => (l, ⟨.gate, 0, 0, f.dst, 0, 0⟩)) [] 1 none f.dst at4).bump) ∧
  (Issues s (.rls c f) x →
    exec (.rls c f) s = .next (((s.finish x plain 0 none 0 [] 0).modGroup x.key fun g => { g with rls := true }).checkRls x.tk).bump) ∧
  (Issues s (.leadAdv c f) x →
    let v := (x.t.lead + f.imm.toNat % 256) % 2 ^ 32
    let u := s.modTeam x.tk fun t => { t with lead := v }
    ∃ t, exec (.leadAdv c f) s = .next t ∧ RetiredBy u t x (push (word v)) 1 none f.dst [] at4 at4) ∧
  (Issues s (.leadWait c f) x → s.leadOk x.tk = true →
    ∃ t, exec (.leadWait c f) s = .next t ∧ RetiredBy s t x plain 0 none 0 [] at0 at0) ∧
  (Issues s (.leadWait c f) x → s.leadOk x.tk = false →
    exec (.leadWait c f) s = .next (s.startWait x (x.on.map fun l => (l, ⟨.leadWait, 0, 0, 0, 0, 0⟩)) [] 0 none 0 .ready).bump) ∧
  (Issues s (.twait c f) x → (∀ l ∈ x.on, (s.opnd x.g l f.sa).psn = false ∧ goal l ≤ s.ns) →
    ∃ t, exec (.twait c f) s = .next t ∧ RetiredBy s t x (push (word s.ns)) 1 (some f.sa) f.dst [] at4 at4) ∧
  (Issues s (.twait c f) x → (∀ l ∈ x.on, (s.opnd x.g l f.sa).psn = false ∧ s.ns < goal l) →
    exec (.twait c f) s = .next (s.startWait x (x.on.map fun l => (l, ⟨.twait, word (min (goal l) (2 ^ 64 - 1)), 0, f.dst, 0, 0⟩)) [] 1
      (some f.sa) f.dst at4).bump) ∧
  (Issues s (.nop c f) x → ∃ t, exec (.nop c f) s = .next t ∧ RetiredBy s t x plain 0 none 0 [] at0 at0) ∧
  (Issues s (.brk c f) x → s.mayStop x.ln.tenant x.t = false →
    ∃ t, exec (.brk c f) s = .next t ∧ RetiredBy s t x plain 0 none 0 [] at0 at0) ∧
  (Issues s (.brk c f) x → s.mayStop x.ln.tenant x.t = true →
    exec (.brk c f) s = .next ((s.finish x plain 0 none 0 [] 0).debugStop x.key x.onMask (succPc x.pc) f.sel.toNat).bump))

/-- R176, R177, R320, R362: `trap` completes as the trap of cause 8 with its number that its lanes take; a system call writes its
request to the tenant's ring and its lanes wait for the reply; on a full ring `sysc` parks its lanes and `sysc.try` pushes 0 with its
predicate false. Two clauses are the model's choice (log entry 47): a ring that refuses the access acts as a full one, and a ring whose
page is not present posts a record and holds the issue. -/
def Obligations.TrapSystemCallResults : Prop := ∀ (c : Common) (f : FmtS) (s : State) (x : Ctx), Lenient x →
  let first := some f.sa
  (Issues s (.trap c f) x →
    exec (.trap c f) s = .next ((s.finish x [] 0 none 0 [] 0).takeTraps x.key x.pc x.opc
      (x.on.map fun l => ⟨l, 8, f.sel.toNat, (s.opnd x.g l f.sa).val⟩)).bump) ∧
  (∀ prd, (prd = none ∧ Issues s (.sysc c f) x) ∨ (prd = some (f.imm.toNat % 8) ∧ Issues s (.syscTry c f) x) →
    let i := if prd = none then Instr.sysc c f else .syscTry c f
    ∀ m rest t u cons psn, x.on = m :: rest → (s.opnd x.g m f.sa).psn = false →
    x.pairsDiffer (fun l => [((s.opnd x.g l f.sa).val, (s.opnd x.g l f.sa).psn)]) = false → s.tenant? x.ln.tenant = some t →
    let full := fun (u : State) =>
      (prd = none → exec i s = .next ((u.finish x [] 1 first f.dst [] 4).modGroup x.key (fun g => g.mapLanes fun l e =>
        if x.on.contains l then { e with status := .parked, park := { e.park with sysc := true } } else e)).bump) ∧
      (∀ p, prd = some p → exec i s = .next (u.finish x (x.on.map fun l => ⟨l, [(0, false)], [(p, false, false)], 0, none⟩) 1
        first f.dst [] 4).bump)
    (s.devRead x.ln.tenant t.consAddr 8 = .prot → full s) ∧
    (∀ va, s.devRead x.ln.tenant t.consAddr 8 = .fault va → exec i s = .next (s.targetFault x.ln.tenant va 1
      { lslot := x.lk, core := coreReg x.key, team := x.t.idx, grp := x.g.gid, pc := x.pc }).bump) ∧
    (s.devRead x.ln.tenant t.consAddr 8 = .ok u (cons, psn) →
    let used := (t.prod + 2 ^ 17 - leNat cons % 2 ^ 17) % 2 ^ 17
    (2 ^ t.ringLog2 ≤ used → full u) ∧
    (used < 2 ^ t.ringLog2 → ∀ w,
      let addr := t.ringBase + 64 * (t.prod % 2 ^ t.ringLog2)
      (x.on.foldl (fun s l => s.drainWcb x.key l) u).devWrite x.ln.tenant addr
        (wordsBytes (syscWords x f.sel.toNat t.prod x.onMask (s.opnd x.g m f.sa).val)) = .ok w () →
      let v := (w.modTenant x.ln.tenant fun t => { t with prod := (t.prod + 1) % 2 ^ 17 }).startWait x
        (x.on.map fun l => (l, ⟨.syscReply, word addr, 0, f.dst, 0, 0⟩)) [] 1 first f.dst (.from (w.cycle + 4))
      exec i s = .next (match prd with
        | some p => v.modGroup x.key fun g => g.mapLanes fun l e => if x.on.contains l then e.setPreds [(p, true, false)] (.from (v.cycle + 4)) else e
        | none => v).bump)))

/-- R354, R355, R358, R359, R370: taking a trap. Where the launch has a handler, no trapping lane is in it and no pair of a paired
launch differs in its traps, each trapping lane pushes TRAPSLOT, TRAPADDR and TRAPCAUSE and goes to the handler with HND set, where a
step in progress stops it; the team's registers take the values of the lowest
trapping lane, unless a lane of a lower group slot has trapped in this cycle; and the other lanes, groups, memory and queues stay
as they are.
R361, R378, R379: a trap without a handler, or of a lane that is in it, kills the gang: reason 7 or 8, with the cause of the lowest
trapping lane; and so does a pair of a paired launch that differs in its traps, with reason 6. -/
def Obligations.TrapEntry : Prop :=
  (∀ (s : State) (key : Nat) (pc : Word) (opc : Nat) (ts : List Trap) (g : Group) (t : Team) (ln : Launch),
  s.group? key = some g → s.team? g.team = some t → s.launch? t.launch = some ln → g.lanes.length = 32 → ts ≠ [] →
  ts.Pairwise (fun a b => a.lane ≠ b.lane) → (∀ r ∈ ts, r.lane < 32 ∧ (g.lane r.lane).hnd = false) → ln.traph ≠ 0 →
  (ln.paired = true → trapsDiffer (s.issuing? key) ts = false) →
  let u := s.takeTraps key pc opc ts
  let w := fun (r : Trap) => word (r.info % 2 ^ 32 * 2 ^ 32 + opc * 2 ^ 16 + r.cause)
  (∀ r ∈ ts, u.laneIn key r.lane =
    { (((g.lane r.lane).push pc false .ready).push r.addr false .ready).push (w r) false .ready with
      hnd := true, trapSlot := pc, pc := ln.traph, status := if (g.lane r.lane).restop then .parked else .active
      wait := ⟨.none, 0, 0, 0, 0, 0⟩, stepBp := false, restop := false
      park := { (g.lane r.lane).park with debug := (g.lane r.lane).park.debug || (g.lane r.lane).restop } }) ∧
  (∀ l, l < 32 → (∀ r ∈ ts, r.lane ≠ l) → u.laneIn key l = g.lane l) ∧
  (∀ r ∈ ts, (∀ q ∈ ts, r.lane ≤ q.lane) →
    let first := t.trapBy.1 ≠ s.cycle + 1 ∨ slotOf key < t.trapBy.2.1 ∨ (slotOf key = t.trapBy.2.1 ∧ r.lane ≤ t.trapBy.2.2)
    (first → u.team? g.team = some { t with trapCause := w r, trapAddr := r.addr, trapSlot := pc, trapBy := (s.cycle + 1, slotOf key, r.lane) }) ∧
    (¬ first → u.team? g.team = some t)) ∧
  (∀ k, k ≠ key → u.group? k = s.group? k) ∧ u.mem = s.mem ∧ u.work.queues = s.work.queues ∧ u.work.launches = s.work.launches ∧
  u.work.cores = s.work.cores ∧ u.work.kills = s.work.kills) ∧
  (∀ (s : State) (key : Nat) (pc : Word) (opc : Nat) (ts : List Trap) (r : Trap) (g : Group)
    (t : Team) (ln : Launch), s.group? key = some g → s.team? g.team = some t → s.launch? t.launch = some ln →
  ts.Pairwise (fun a b => a.lane ≠ b.lane) → r ∈ ts → (∀ q ∈ ts, r.lane ≤ q.lane) →
  let gang := t.idx / ln.gangSize
  (ln.traph = 0 → s.takeTraps key pc opc ts = s.kill ⟨t.launch, gang, 7, r.cause, coreReg key, pc, 0, []⟩) ∧
  (ln.traph ≠ 0 → (∃ q ∈ ts, (g.lane q.lane).hnd = true) →
    s.takeTraps key pc opc ts = s.kill ⟨t.launch, gang, 8, r.cause, coreReg key, pc, 0, []⟩) ∧
  (ln.traph ≠ 0 → (∀ q ∈ ts, (g.lane q.lane).hnd = false) → ln.paired = true → trapsDiffer (s.issuing? key) ts = true →
    s.takeTraps key pc opc ts = (s.count 10 true (coreReg key)).kill ⟨t.launch, gang, 6, 0, coreReg key, pc, 0, []⟩))

/-- R94, R96, R356, R357, R382: the order of an issue's checks: a word fault traps every lane of the issue as illegal
instruction with its subcode, then poison that a guard or a uniform operand consumes kills the gang with reason 1, then a
group-collective instruction without its whole group traps with cause 2.
R69, R359: an instruction of fixed latency whose lane raises a flag with its enable set traps in that lane with cause 7 and
the flags, and the lane keeps its state; the other guard-true lanes retire. Stated for `fadd`. -/
def Obligations.IssueCheckOrder : Prop :=
  (∀ (i : Instr) (v : View) (s : State) (x : Ctx), view i = some v → s.ctx? i = some x →
  let poisoned := (∃ l ∈ lanesOf x.mask, s.guardPsn x.g x.v.c l = true) ∨ s.uniformPsn x = true
  let all := fun (cause info : Nat) => (lanesOf x.mask).map fun l => (⟨l, cause, info, 0⟩ : Trap)
  (∀ k, s.wordFault x = some k →
    exec i s = .next (s.takeTraps x.key x.pc (if k = 2 then 0 else x.opc) (all 1 k))) ∧
  (s.wordFault x = none → poisoned → exec i s = .next (s.kill ⟨x.lk, x.gang, 1, 0, coreReg x.key, x.pc, 0, []⟩)) ∧
  (s.wordFault x = none → ¬ poisoned → collective x.opc = true → ¬ (x.mask = BitVec.allOnes 32 ∧ x.off = []) →
    exec i s = .next (s.takeTraps x.key x.pc x.opc (all 2 0)))) ∧
  (∀ (c : Common) (f : FmtT) (s : State) (x : Ctx), Issues s (.fadd c f) x → Lenient x →
  Unstruck s x →
  let m := fmtOf f.ty
  let a := fun l (k : BitVec 6) => m.read f.ftzB ((s.opnd x.g l k).val.toNat % 2 ^ m.width)
  let r := fun l => m.add f.rnd.toNat f.ftzB (a l f.sa) (a l f.sb)
  let traps := x.on.filter fun l => (r l).2 &&& ((x.g.lane l).fpstat.extractLsb' 8 5) != 0
  let ok := x.on.filter fun l => (r l).2 &&& ((x.g.lane l).fpstat.extractLsb' 8 5) == 0
  exec (.fadd c f) s = .next ((s.finish x (ok.map fun l =>
      ⟨l, [(word (r l).1, (s.opnd x.g l f.sa).psn || (s.opnd x.g l f.sb).psn)], [], (r l).2, none⟩) 1 (some f.sa) f.dst f.marks 4).takeTraps
    x.key x.pc x.opc (traps.map fun l => ⟨l, 7, (r l).2.toNat, 0⟩)).bump)

/-- R253, R254, R258, R259: a copy command whose uniform operands pass the checks enters Punty's queue, which raises its tag's pending
count; while the queue is full, or the count cannot rise, it does not issue. With ACQ at system scope, what
the issuing lanes buffer is performed first. `cp.res` queues the command of the resume record and clears the failed tag with its
underflow count, or completes at once with code 0x06 where there is none. -/
def Obligations.CopyCommandResults : Prop := ∀ (c : Common) (f : FmtE) (s : State) (x : Ctx), Lenient x → x.on ≠ [] →
  let v := fun k => (s.opnd x.g 0 k).val
  let a := (v f.ua).toNat
  let b := (v f.ub).toNat
  let n := (v f.uc).toNat
  let uc := bits (v f.uc)
  let tag := x.ln.tagBase + f.tag.toNat
  let fits := fun off len => off + len ≤ x.t.scrBytes
  let room := (s.core x.core).punty.length < 32 ∧ ((s.core x.core).tags.getD tag Tag.fresh).pend < 65535
  let raised := fun (ts : List Tag) => updAt (fun t => { t with pend := t.pend + 1, ready := false }) tag ts
  let queued := fun (i : Instr) (u : State) => (room →
      ∃ t, exec i s = .next t ∧ RetiredBy u t x (x.on.map fun l => ⟨l, [], [], 0, none⟩) 0 none 0 [] (.op u.serial) .ready) ∧
    (¬ room → exec i s = .next s.bump)
  let d := if f.acq = 1 ∧ f.scope = 5 then x.on.foldl (fun s l => s.drainWcb x.key l) s else s
  let u := d.modCore x.core fun k => { k with tags := raised k.tags, punty := k.punty ++ [s.newCmd x f] }
  let sums := fun (m : Nat) => f.mod.getLsbD m = true → fits (uc 50 32) (4 * pxK (pxOf (f.mod.toNat % 4)))
  let src := fun off len => f.mod.toNat % 4 = 1 → fits off len
  let dst := fun off len => f.mod.toNat / 4 % 4 = 1 → fits off len
  let clean := ∀ l ∈ x.on, (s.opnd x.g l f.uc).psn = false
  (Issues s (.cpTile c f) x → n = uc 18 0 + uc 50 32 * 2 ^ 32 → a % 64 = 0 → uc 18 0 % 256 = 0 → uc 50 32 % 64 = 0 →
    fits (uc 18 0) 8192 → sums 3 → queued (.cpTile c f) u) ∧
  (Issues s (.cpBld c f) x → uc 5 0 < x.ln.slotCnt → n = uc 5 0 + uc 50 32 * 2 ^ 32 → a % 64 = 0 → uc 50 32 % 64 = 0 → sums 3 →
    queued (.cpBld c f) u) ∧
  (Issues s (.cpBulk c f) x → 16 ≤ n ∧ n ≤ 2 ^ 30 → a % 16 = 0 ∧ b % 16 = 0 ∧ n % 16 = 0 → src a n → dst b n →
    queued (.cpBulk c f) u) ∧
  (Issues s (.cpGath c f) x → clean → 16 ≤ b ∧ b ≤ 4096 → a % 16 = 0 ∧ b % 16 = 0 → fits a (32 * b) → queued (.cpGath c f) u) ∧
  (Issues s (.cpScat c f) x → clean → 16 ≤ b ∧ b ≤ 4096 → a % 16 = 0 ∧ b % 16 = 0 → fits a (32 * b) → queued (.cpScat c f) u) ∧
  (Issues s (.cpFill c f) x → 8 ≤ n ∧ n ≤ 2 ^ 30 → a % 8 = 0 ∧ n % 8 = 0 → dst a n → queued (.cpFill c f) u) ∧
  (Issues s (.cpOut c f) x → n = uc 18 0 + uc 25 20 * 2 ^ 20 + uc 44 32 * 2 ^ 32 → 1 ≤ uc 44 32 ∧ uc 44 32 ≤ 4096 → a % 64 = 0 →
    uc 18 0 % 16 = 0 → fits (uc 18 0) (4 * uc 44 32 * (uc 25 20 + 1)) → queued (.cpOut c f) u) ∧
  (Issues s (.cpRes c f) x → a < 64 → a < x.ln.tagCnt →
    let failed := x.ln.tagBase + a
    let clear := fun (ts : List Tag) => updAt (fun t => { t with err := false, code := 0, elem := 0, udf := 0, resume := none }) failed ts
    (∀ r, ((s.core x.core).tags.getD failed Tag.fresh).resume = some r →
      queued (.cpRes c f) (d.modCore x.core fun k => { k with
        tags := raised (clear k.tags)
        punty := k.punty ++ [{ r with
          tag := tag, ttag := f.tag.toNat, acq := f.acq = 1, rel := f.rel = 1, scope := f.scope.toNat, pc := x.pc, gid := x.g.gid }] })) ∧
    (((s.core x.core).tags.getD failed Tag.fresh).resume = none →
      queued (.cpRes c f) (d.modCore x.core fun k => { k with
        tags := updAt (fun t => { t with
          err := true
          code := if t.err || t.told then t.code else 6
          elem := if t.err || t.told then t.elem else 0
          resume := if t.err || t.told then t.resume else none
          ready := t.pend == 0
          told := t.pend != 0 && (t.told || !t.err)
          udf := min t.udf (2 ^ 32 - 1) }) tag k.tags })))

/-- R261: the tag instructions: what they push, when `tag.wait` and `tag.any` do not issue, and what `tag.st` and `tag.clr`
clear. -/
def Obligations.TagInstructionResults : Prop := ∀ (c : Common) (f : FmtE) (s : State) (x : Ctx), Lenient x → x.on ≠ [] →
  let m := (s.opnd x.g 0 f.ua).val
  let tag := fun i => (s.core x.core).tags.getD (x.ln.tagBase + i) Tag.fresh
  let named := (List.range x.ln.tagCnt).filter fun i => bit m i
  let mask := fun (is : List Nat) => is.foldl (fun n i => n + 2 ^ i) 0
  let clear := fun (is : List Nat) => s.modCore x.core fun k => { k with
    tags := is.foldl (fun ts i => updAt (fun t => { t with err := false, code := 0, elem := 0, udf := 0, resume := none })
      (x.ln.tagBase + i) ts) k.tags }
  let done := fun (i : Instr) (u : State) (vals : List Word) (first : Option (BitVec 6)) (dst : BitVec 6) => ∃ t, exec i s = .next t ∧
    RetiredBy u t x (x.on.map fun l => ⟨l, vals.map fun v => (v, false), [], 0, none⟩) vals.length first dst [] (.op u.serial) .ready
  m.toNat < 2 ^ x.ln.tagCnt →
  (Issues s (.tagWait c f) x → (∀ i ∈ named, (tag i).ready = true) →
    done (.tagWait c f) s [word (mask (named.filter fun i => (tag i).err))] (some f.ua) f.dst) ∧
  (Issues s (.tagWait c f) x → (∃ i ∈ named, (tag i).ready = false) → exec (.tagWait c f) s = .next s.bump) ∧
  (Issues s (.tagAny c f) x → (∃ i ∈ named, (tag i).ready = true) →
    done (.tagAny c f) s [word (mask (named.filter fun i => (tag i).ready))] (some f.ua) f.dst) ∧
  (Issues s (.tagAny c f) x → (∀ i ∈ named, (tag i).ready = false) → exec (.tagAny c f) s = .next s.bump) ∧
  (Issues s (.tagFfr c f) x →
    done (.tagFfr c f) s [word ((named.find? fun i => (tag i).ready).getD 64)] (some f.ua) f.dst) ∧
  (Issues s (.tagSt c f) x →
    let t := tag f.tag.toNat
    done (.tagSt c f) (if f.mod.getLsbD 0 then clear [f.tag.toNat] else s)
      [word (t.elem.toNat * 2 ^ 32 + t.code.toNat * 2 ^ 24 + (if t.err then 2 ^ 16 else 0) + t.pend % 2 ^ 16), word t.udf] none f.dst) ∧
  (Issues s (.tagClr c f) x → done (.tagClr c f) (clear named) [] none 0)

/-- R268, R271, R275, R277, R278: an instruction of rows 0xD0 to 0xD8 whose uniform operands pass the checks enters the matrix
queue as its last entry, with what it changes of the ring at issue, and its results await the entry; while the queue is full, it
does not issue. That `mma` computes its data from its operands as they are at issue, and that `ring.st` and `ring.wr` take theirs
then, is the model's choice (log 39). Before `epi.post` with ACQ at system scope, what the issuing lanes buffer is performed. -/
def Obligations.RingInstructionResults : Prop := ∀ (c : Common) (f : FmtE) (s : State) (x : Ctx), Lenient x → x.on ≠ [] →
  let v := fun k => (s.opnd x.g 0 k).val
  let ua := bits (v f.ua)
  let ub := bits (v f.ub)
  let k := s.core x.core
  let t := f.mod.toNat % 32
  let fits := fun off len => off + len ≤ x.t.scrBytes
  let d := if f.acq = 1 ∧ f.scope = 5 then x.on.foldl (fun s l => s.drainWcb x.key l) s else s
  let enters := fun (i : Instr) (nres : Nat) (first : Option (BitVec 6)) (dst : BitVec 6) (w : State) (e : MqEntry) =>
    (k.mq.length < 8 → exec i s = .next (((w.finishLong x (x.on.map fun l => ⟨l, List.replicate nres (0, false), [], 0, none⟩) nres
      first dst [] [] true).unknown x.key s.serial).modCore x.core fun c => { c with
        mq := c.mq ++ [{ e with opc := x.v.opc, op := s.serial, pc := x.pc }] }).bump) ∧
    (8 ≤ k.mq.length → exec i s = .next s.bump)
  let plain : MqEntry := ⟨0, 0, k.head, 0, [], [], none, 0⟩
  let sums := f.mod.getLsbD 6 = true → fits (ua 50 32) (4 * pxK t) ∧ fits (ub 50 32) (4 * pxK t)
  (Issues s (.mma c f) x → f.mod.getLsbD 5 = false → (v f.ua).toNat = ua 21 0 + ua 50 32 * 2 ^ 32 →
    (v f.ub).toNat = ub 5 0 + ub 50 32 * 2 ^ 32 → ub 5 0 < x.ln.slotCnt → ua 21 0 % 256 = 0 → ua 50 32 % 64 = 0 → ub 50 32 % 64 = 0 →
    ua 21 0 < 2 ^ 19 → fits (ua 21 0) 8192 → sums →
    ∃ data psn chk, enters (.mma c f) 0 none f.dst s { plain with data := data, dataPsn := psn, chk := chk } ∧
      data.length = 2048 ∧ ∀ i j, i < 32 → j < 64 →
        let row := (s.aRow t (.scr x.tk (ua 21 0)) i).map fun e => e.1
        let col := ((k.bslots.getD (x.ln.slotBase + ub 5 0) ⟨[], [], none⟩).col t j).map fun e => e.1
        data.getD (64 * i + j) 0 = word (dotF32 (row.zip col)).1) ∧
  (Issues s (.mmaSk c f) x → f.mod.getLsbD 5 = false → f.mod.getLsbD 6 = false → (v f.ua).toNat = ua 21 0 + ua 50 32 * 2 ^ 32 →
    (v f.ub).toNat = ub 5 0 + ub 50 32 * 2 ^ 32 → ub 5 0 % 2 = 0 → ub 5 0 + 1 < x.ln.slotCnt → ua 21 0 % 256 = 0 → ua 50 32 % 64 = 0 →
    ub 50 32 % 64 = 0 → ua 21 0 < 2 ^ 19 → fits (ua 21 0) 8192 → (v f.uc).toNat < 2 ^ 19 → (v f.uc).toNat % 64 = 0 →
    fits (v f.uc).toNat (pxK t / 8) → enters (.mmaSk c f) 0 none f.dst s (mmaEntry true f x s)) ∧
  (Issues s (.ringAdv c f) x → k.ncl < 15 → enters (.ringAdv c f) 0 none f.dst
    (s.modCore x.core fun c => { c with head := (c.head + 1) % 16, ncl := c.ncl + 1 }) { plain with tile := (k.head + 1) % 16 }) ∧
  (Issues s (.ringAdv c f) x → 15 ≤ k.ncl → exec (.ringAdv c f) s = .next s.bump) ∧
  (Issues s (.ringRd c f) x → (v f.ua).toNat < 32 → (v f.ub).toNat < 16 → (v f.ub).toNat ≤ k.ncl →
    enters (.ringRd c f) 1 (some f.ua) f.dst s { plain with tile := (k.head + 16 - (v f.ub).toNat) % 16, row := (v f.ua).toNat }) ∧
  (Issues s (.ringWr c f) x → (v f.ua).toNat < 32 → enters (.ringWr c f) 0 none f.dst s { plain with
    row := (v f.ua).toNat
    data := (List.range 32).map fun l => (s.opnd x.g l f.uc).val
    dataPsn := (List.range 32).map fun l => (s.opnd x.g l f.uc).psn }) ∧
  (Issues s (.ringClr c f) x → f.mod.getLsbD 0 = false → enters (.ringClr c f) 0 none f.dst s plain) ∧
  (Issues s (.ringClr c f) x → f.mod.getLsbD 0 = true → 0 < k.ncl → (k.tile k.tail).epi = none →
    enters (.ringClr c f) 0 none f.dst (s.modCore x.core fun c => { c with tail := (c.tail + 1) % 16, ncl := c.ncl - 1 })
      { plain with row := 1 }) ∧
  (Issues s (.ringClr c f) x → f.mod.getLsbD 0 = true → k.ncl = 0 ∨ (k.tile k.tail).epi ≠ none →
    exec (.ringClr c f) s = .next (s.takeTraps x.key x.pc x.opc ((lanesOf x.mask).map fun l => ⟨l, 1, 15, 0⟩)).bump) ∧
  (Issues s (.ringSt c f) x →
    let closed := (List.range k.ncl).map fun n => (k.tail + n) % 16
    let posted := (closed.filter fun i => (k.tile i).epi.isSome).length
    enters (.ringSt c f) 1 none f.dst s { plain with tile := 0, data := [word (posted * 2 ^ 17 + (if k.lehr.busy then 2 ^ 16 else 0) +
      k.head * 2 ^ 12 + k.tail * 2 ^ 8 + k.ncl * 2 ^ 4 + k.mq.length)] }) ∧
  (Issues s (.epiPost c f) x → (v f.ua).toNat % 128 = 0 → (k.tags.getD (x.ln.tagBase + f.tag.toNat) Tag.fresh).pend < 65535 →
    ∀ n, n < k.ncl → (k.tile ((k.tail + n) % 16)).epi = none → (∀ m < n, (k.tile ((k.tail + m) % 16)).epi ≠ none) →
    enters (.epiPost c f) 0 none f.dst (d.modCore x.core fun c => { c with
        tags := updAt (fun t => { t with pend := t.pend + 1, ready := false }) (x.ln.tagBase + f.tag.toNat) c.tags
        ring := updAt (fun t => { t with epi := some ⟨x.g.gid, (v f.ua).toNat, x.ln.tagBase + f.tag.toNat, f.tag.toNat, f.acq = 1,
          f.rel = 1, f.scope.toNat, x.pc⟩ }) ((c.tail + n) % 16) c.ring }) { plain with tile := 0 }) ∧
  (Issues s (.chkRd c f) x → (v f.ub).toNat < 16 → (v f.ub).toNat ≤ k.ncl →
    enters (.chkRd c f) 3 (some f.ub) f.dst s { plain with tile := (k.head + 16 - (v f.ub).toNat) % 16 })

/-- R268, R269, R272, R274, R275, R277: performing the oldest entry of the queue: an `mma` waits until the array accepts it, occupies
it for 24 cycles, adds its dot products, one `f32` rounding each, and counts; `ring.adv` and `ring.clr.head` zero the tile; `ring.wr` writes its row; `ring.rd`, `ring.st` and `chk.rd` give
their results to the operation that awaits them; and the entry is gone. Stated without a hardware error. -/
def Obligations.MatrixQueueSteps : Prop := ∀ (s : State) (core : Nat) (e : MqEntry) (rest : List MqEntry),
  let k := s.core core
  let old := fun i => ((k.tile e.tile).elems.get? i).getD 0
  k.mq = e :: rest → e.tile < 16 → k.ring.length = 16 → e.row < 32 →
  (e.opc.toNat ≤ 0xD1 → s.cycle < k.arrayFree → exec (.matrixQueueExecute core .none) s = .next s.bump) ∧
  ((e.opc.toNat ≤ 0xD1 → k.arrayFree ≤ s.cycle) →
  ∃ t, exec (.matrixQueueExecute core .none) s = .next t ∧ (t.core core).mq = rest ∧
    (0xD1 < e.opc.toNat → (t.core core).arrayFree = k.arrayFree) ∧ (e.opc = 0xD0 → e.chk = none → (t.core core).arrayFree = s.cycle + 24) ∧
    (∀ c, c ≠ core → t.core c = s.core c) ∧ t.mem = s.mem ∧ t.work.teams = s.work.teams ∧ t.work.queues = s.work.queues ∧
    (∀ i, i < 16 → i ≠ e.tile → (t.core core).tile i = k.tile i) ∧
    let new := fun i => ((((t.core core).tile e.tile).elems.get? i).getD 0)
    ((e.opc = 0xD0 ∨ e.opc = 0xD1) → e.chk = none → e.data.length = 2048 →
      (∀ i, i < 2048 → new i = BitVec.ofNat 32 (addF32 (old i).toNat (e.data.getD i 0).toNat)) ∧
        ((t.core core).tile e.tile).unchk = min ((k.tile e.tile).unchk + 1) 65535) ∧
    ((e.opc = 0xD0 ∨ e.opc = 0xD1) → ∀ r, e.chk = some r → r.nan = false → r.psn = false → (r.p - r.ref).natAbs ≤ r.tol.natAbs →
      e.data.length = 2048 →
      (∀ i, i < 2048 → new i = BitVec.ofNat 32 (addF32 (old i).toNat (e.data.getD i 0).toNat)) ∧
        ((t.core core).tile e.tile).cp = (k.tile e.tile).cp + r.p ∧ ((t.core core).tile e.tile).cr = (k.tile e.tile).cr + r.ref ∧
        ((t.core core).tile e.tile).cnt = min ((k.tile e.tile).cnt + 1) 65535) ∧
    (e.opc = 0xD2 ∨ (e.opc = 0xD5 ∧ e.row = 0) →
      (t.core core).tile e.tile = { Tile.fresh with epi := (k.tile e.tile).epi }) ∧
    (e.opc = 0xD4 → e.data.length = 32 → ∀ l, l < 32 →
      new (64 * e.row + 2 * l) = (e.data.getD l 0).extractLsb' 0 32 ∧ new (64 * e.row + 2 * l + 1) = (e.data.getD l 0).extractLsb' 32 32) ∧
    (e.opc = 0xD4 → ∀ i, i < 2048 → i / 64 ≠ e.row → new i = old i) ∧
    (e.opc = 0xD3 ∨ e.opc = 0xD6 ∨ e.opc = 0xD7 ∨ e.opc = 0xD8 ∨ (e.opc = 0xD5 ∧ e.row = 1) → (t.core core).tile e.tile = k.tile e.tile) ∧
    ∀ o, s.op? e.op = some o → ∃ p, t.op? e.op = some p ∧ p.held = false ∧ s.cycle < p.due ∧
      (e.opc = 0xD3 → p.res = (lanesOf o.lanes).map fun l =>
        (l, (old (64 * e.row + 2 * l + 1)) ++ (old (64 * e.row + 2 * l)),
          (k.tile e.tile).psn.contains (64 * e.row + 2 * l) || (k.tile e.tile).psn.contains (64 * e.row + 2 * l + 1))) ∧
      (e.opc = 0xD6 → p.res = (lanesOf o.lanes).map fun l => (l, e.data.headD 0, false)) ∧
      (e.opc = 0xD8 → p.res = (lanesOf o.lanes).map fun l => (l, (k.tile e.tile).checkWord, false)))

/-- R262, R263, R346, R347, R439: `dz.sub` whose card says that it is not submitted writes ST 1 to the card and queues the job on
the engine of its base die that MOD names; a card in another state completes the tag with code 0x26, and so does a `dz.res`
whose parked job no engine holds, once its card has been read, whatever the card says (the model's choice, log 41, and so is that a full
queue does not hold `dz.res`); `dz.res` queues the parked job on its engine; a card that cannot be
written or read for want of permission gives code 0x02; `dz.st` pushes what the engine that holds the job says, queued or parked, and
otherwise ST and CODE of the card; a misaligned card traps. -/
def Obligations.DecompressionCommandResults : Prop := ∀ (c : Common) (f : FmtE) (s : State) (x : Ctx), Lenient x → x.on ≠ [] →
  let a := (s.opnd x.g 0 f.ua).val
  let n := a.toNat
  let tag := x.ln.tagBase + f.tag.toNat
  let own := 2 * (dieOf x.core / 2) + f.mod.toNat % 2
  let plain := x.on.map fun l => (⟨l, [], [], 0, none⟩ : Out)
  let drained := if f.acq = 1 ∧ f.scope = 5 then x.on.foldl (fun s l => s.drainWcb x.key l) s else s
  let w := (drained.tagIssue x.core tag).finishLong x plain 0 none 0 [] [] false
  let room := ((s.core x.core).tags.getD tag Tag.fresh).pend < 65535
  let mine := fun (j : Job) => j.tenant == x.ln.tenant && j.card == n
  let started := leBytes 8 (2 ^ 60) ++ leBytes 8 0
  let stOf := fun (bs : List PByte) => bits (word (leNat (bs.map fun b => b.1))) 63 60
  let codeIn := fun (bs : List PByte) => bits (word (leNat (bs.map fun b => b.1))) 59 52
  let clean := fun (bs : List PByte) => ∀ b ∈ bs, b.2 = false
  let free := fun (es : List Cullet) => ∀ e ∈ es, ∀ j ∈ e.queue ++ e.parked, mine j = false
  (Issues s (.dzSub c f) x → n % 64 = 0 → room → (s.cullet own).queue.length < 64 →
    ∀ u bs, w.tenRead x.ln.tenant (n + 32) 8 = .ok u bs → clean bs →
    (stOf bs = 0 → u.cardBusy x.ln.tenant n = false → ∀ v, u.devWrite x.ln.tenant (n + 32) started = .ok v () →
      ∃ j : Job, j.card = n ∧ j.tenant = x.ln.tenant ∧ j.team = x.tk ∧ j.core = x.core ∧ j.tag = tag ∧ j.accepted = true ∧
        j.started = false ∧ j.out = [] ∧ j.bitPos = 0 ∧ j.zst = .header ∧ j.parked = none ∧
        exec (.dzSub c f) s = .next (v.modCullet own fun e => { e with queue := e.queue ++ [j] }).bump) ∧
    (stOf bs ≠ 0 → exec (.dzSub c f) s = .next (u.farTagDone x.tk x.core tag 0x26).bump)) ∧
  (Issues s (.dzSub c f) x → n % 64 = 0 → room → 64 ≤ (s.cullet own).queue.length → exec (.dzSub c f) s = .next s.bump) ∧
  (Issues s (.dzSub c f) x → n % 64 ≠ 0 → exec (.dzSub c f) s = .next ((s.finishLong x [] 0 none 0 [] [] false).takeTraps x.key x.pc x.opc
    (x.on.map fun l => ⟨l, 5, 0, a⟩)).bump) ∧
  (Issues s (.dzRes c f) x → n % 64 = 0 → room →
    (∀ e ∈ s.eng.cullets, ∀ j ∈ e.parked, mine j = true → j.parked ≠ some 1) →
    (∀ u bs, w.tenRead x.ln.tenant (n + 32) 8 = .ok u bs → clean bs →
      exec (.dzRes c f) s = .next (u.farTagDone x.tk x.core tag 0x26).bump) ∧
    (w.tenRead x.ln.tenant (n + 32) 8 = .prot → exec (.dzRes c f) s = .next (w.farTagDone x.tk x.core tag 2).bump)) ∧
  (Issues s (.dzSub c f) x → n % 64 = 0 → room → (s.cullet own).queue.length < 64 → w.tenRead x.ln.tenant (n + 32) 8 = .prot →
    exec (.dzSub c f) s = .next (w.farTagDone x.tk x.core tag 2).bump) ∧
  (Issues s (.dzRes c f) x → n % 64 = 0 → room → ∀ e k, e < s.eng.cullets.length → k ∈ (s.cullet e).parked → mine k = true →
    k.parked = some 1 → k.fid = none → k.forced = false →
    (∀ d j, d < s.eng.cullets.length → j ∈ (s.cullet d).parked → mine j = true → j.parked = some 1 → d = e ∧ j = k) →
    let w := w.modCullet e fun q => { q with parked := q.parked.filter fun j => !(mine j && j.parked == some 1) }
    ∀ u bs, w.tenRead x.ln.tenant (n + 32) 8 = .ok u bs → clean bs → stOf bs = 3 → codeIn bs = 1 → u.cardBusy x.ln.tenant n = false →
    ∀ v, u.devWrite x.ln.tenant (n + 32) (leBytes 8 (2 ^ 60) ++ leBytes 8 (k.written * 2 ^ 32 + k.cons % 2 ^ 32)) = .ok v () →
    exec (.dzRes c f) s = .next (v.modCullet e fun q => { q with queue := q.queue ++ [{ k with
      team := x.tk, gid := x.g.gid, core := x.core, tag := tag, ttag := f.tag.toNat, acq := f.acq = 1, rel := f.rel = 1,
      scope := f.scope.toNat, pc := x.pc, resuming := true, accepted := true, parked := none }] }).bump) ∧
  (Issues s (.dzSt c f) x → n % 64 = 0 → ∀ before e after j, s.eng.cullets = before ++ e :: after → free before →
    e.queue.find? (fun j => mine j && j.accepted) = some j →
    ∃ t, exec (.dzSt c f) s = .next t ∧
      RetiredBy s t x (x.on.map fun l => ⟨l, [(word ((if j.started then 2 else 1) * 2 ^ 60 + 2 ^ 48), false)], [], 0, none⟩) 1 (some f.ua) f.dst
        [] (.op s.serial) .ready) ∧
  (Issues s (.dzSt c f) x → n % 64 = 0 → ∀ before e after j, s.eng.cullets = before ++ e :: after → free before →
    (∀ k ∈ e.queue, mine k = false) → e.parked.find? (fun j => mine j && j.area.isNone) = some j →
    ∃ t, exec (.dzSt c f) s = .next t ∧ RetiredBy s t x (x.on.map fun l =>
      ⟨l, [(word (3 * 2 ^ 60 + (j.parked.getD 0).toNat * 2 ^ 52 + 2 ^ 48), false)], [], 0, none⟩) 1 (some f.ua) f.dst [] (.op s.serial)
      .ready) ∧
  (Issues s (.dzSt c f) x → n % 64 = 0 → (∀ e ∈ s.eng.cullets, ∀ j ∈ e.queue ++ e.parked, mine j = false) → ∀ u ps,
    Accessible s x 0 .read (x.on.map fun l => (l, a + 32, 8, 8)) [] u ps →
    exec (.dzSt c f) s = .next (u.finishLong x (ps.map fun p =>
      let r := u.readPieces x p.1 true p.2
      ⟨p.1, [(word (leNat r.2.1 / 2 ^ 52 * 2 ^ 52), r.2.2)], [], 0, none⟩) 1 (some f.ua) f.dst [] [] false).bump)

/-- R329 to R337, R339, R344: a transport command whose operands pass the checks raises its tag's pending count, enters Pontil and sends
its message at once where its local bytes can be read, a put or a send in packets of at most 4,096 bytes; `nx.atom`'s result awaits the answer;
while Pontil's queue for the core is full, or the count cannot rise, it does not issue; `nx.cnt` pushes the counter's value,
and sets or removes its binding; `nx.cc` pushes the congestion record. -/
def Obligations.TransportCommandResults : Prop := ∀ (c : Common) (f : FmtE) (s : State) (x : Ctx), Lenient x → x.on ≠ [] →
  let ua := (s.opnd x.g 0 f.ua).val
  let ub := (s.opnd x.g 0 f.ub).val
  let uc := (s.opnd x.g 0 f.uc).val
  let tag := x.ln.tagBase + f.tag.toNat
  let len := bits uc 31 0
  let drained := if f.acq = 1 ∧ f.scope = 5 then x.on.foldl (fun s l => s.drainWcb x.key l) s else s
  let room := (s.eng.nx.filter fun e => e.2.core == x.core).length < 256 ∧ ((s.core x.core).tags.getD tag Tag.fresh).pend < 65535
  let cmd := fun (opc : BitVec 8) (handle : Nat) => ({
    opc := opc, team := x.tk, gid := x.g.gid, tenant := x.ln.tenant, core := x.core, tag := tag, ttag := f.tag.toNat,
    handle := handle, ua := ua, ub := ub, uc := uc, mod := f.mod, acq := f.acq = 1, rel := f.rel = 1, scope := f.scope.toNat,
    op := drained.serial, pc := x.pc, sent := false, answer := none, fid := none, forced := false } : NxCmd)
  let retired := fun (nres : Nat) => (drained.finishLong x (x.on.map fun l => ⟨l, List.replicate nres (0, false), [], 0, none⟩) nres
    (some f.ua) f.dst [] [] (nres != 0)).unknown x.key drained.serial
  let queued := fun (k : NxCmd) (nres : Nat) => ((retired nres).fresh.tagIssue x.core tag).setNx (retired nres).serial k
  let sent := fun (i : Instr) (k : NxCmd) (nres : Nat) (u : State) (ms : List Msg) =>
    exec i s = .next (ms.foldl (fun s m => s.say m) (u.setNx (retired nres).serial { k with sent := true })).bump
  let id := fun (nres : Nat) => (retired nres).serial
  let opened := fun (handle : Nat) (k : Conn) => s.conn? handle = some k ∧ k.tenant = x.ln.tenant ∧ k.failed = false
  let put := bits ub 63 48
  let packets := (len + 4095) / 4096
  (Issues s (.nxPut c f) x → room → ∀ k, opened put k → uc.toNat < 2 ^ 45 → 1 ≤ len → len ≤ 2 ^ 30 → ua.toNat % 16 = 0 →
    ∀ u bs, (queued (cmd 0xD9 put) 0).devRead x.ln.tenant ua.toNat len = .ok u (bs, false) →
    sent (.nxPut c f) (cmd 0xD9 put) 0 u
      ((List.range packets).map fun i => .put k.peer k.jobKey (id 0) i packets (bits ub 47 0 + 4096 * i)
        ((bs.drop (4096 * i)).take 4096) (if bit uc 44 then some (bits uc 43 32) else none) f.scope.toNat)) ∧
  (Issues s (.nxGet c f) x → room → ∀ k, opened put k → (bit uc 44 = true → (s.counter (bits uc 43 32)).owner = some x.ln.tenant) →
    uc.toNat < 2 ^ 45 → 1 ≤ len → len ≤ 2 ^ 30 → ua.toNat % 16 = 0 →
    sent (.nxGet c f) (cmd 0xDA put) 0 (queued (cmd 0xDA put) 0) [.get k.peer k.jobKey (id 0) (bits ub 47 0) len]) ∧
  (Issues s (.nxSend c f) x → room → ∀ k, opened put k → ub.toNat % 2 ^ 48 < 2 ^ 12 → uc.toNat < 2 ^ 32 → 1 ≤ len → len ≤ 2 ^ 30 →
    ua.toNat % 16 = 0 → ∀ u bs, (queued (cmd 0xDB put) 0).devRead x.ln.tenant ua.toNat len = .ok u (bs, false) →
    sent (.nxSend c f) (cmd 0xDB put) 0 u ((List.range packets).map fun i => .send k.peer k.jobKey (id 0) i packets (bits ub 11 0)
      ((bs.drop (4096 * i)).take 4096) (f.mod.getLsbD 0) f.scope.toNat)) ∧
  (Issues s (.nxAtom c f) x → room → ∀ k, opened (bits ua 63 48) k → bits ua 47 0 % (if f.mod.getLsbD 4 then 4 else 8) = 0 →
    sent (.nxAtom c f) (cmd 0xDC (bits ua 63 48)) 1 (queued (cmd 0xDC (bits ua 63 48)) 1)
      [.atomic k.peer k.jobKey (id 1) (bits ua 47 0) (f.mod.extractLsb' 0 4) (f.mod.getLsbD 4) (f.mod.getLsbD 5) ub uc]) ∧
  (Issues s (.nxRed c f) x → room → ub.toNat < 2 ^ 52 → ua.toNat % 64 = 0 →
    exec (.nxRed c f) s = .next ((queued (cmd 0xDD 0) 0).redStart (retired 0).serial (cmd 0xDD 0)).bump) ∧
  (¬ room → ∀ k,
    (Issues s (.nxPut c f) x → opened put k → uc.toNat < 2 ^ 45 → 1 ≤ len → len ≤ 2 ^ 30 → ua.toNat % 16 = 0 →
      exec (.nxPut c f) s = .next s.bump) ∧
    (Issues s (.nxGet c f) x → opened put k → (bit uc 44 = true → (s.counter (bits uc 43 32)).owner = some x.ln.tenant) →
      uc.toNat < 2 ^ 45 → 1 ≤ len → len ≤ 2 ^ 30 → ua.toNat % 16 = 0 → exec (.nxGet c f) s = .next s.bump) ∧
    (Issues s (.nxSend c f) x → opened put k → ub.toNat % 2 ^ 48 < 2 ^ 12 → uc.toNat < 2 ^ 32 → 1 ≤ len → len ≤ 2 ^ 30 →
      ua.toNat % 16 = 0 → exec (.nxSend c f) s = .next s.bump) ∧
    (Issues s (.nxAtom c f) x → opened (bits ua 63 48) k → bits ua 47 0 % (if f.mod.getLsbD 4 then 4 else 8) = 0 →
      exec (.nxAtom c f) s = .next s.bump) ∧
    (Issues s (.nxRed c f) x → ub.toNat < 2 ^ 52 → ua.toNat % 64 = 0 → exec (.nxRed c f) s = .next s.bump)) ∧
  (Issues s (.nxCnt c f) x → ua.toNat < 2 ^ 12 → (s.counter ua.toNat).owner = some x.ln.tenant →
    let bar := f.mod.toNat % 32
    let old := if f.mod.getLsbD 6 then 0 else (s.counter ua.toNat).value
    let key := if bar < 16 then x.tk else indexKey x.t.launch x.gang
    let pushed := s.finish x (x.on.map fun l => ⟨l, [(old, false)], [], 0, none⟩) 1 (some f.ua) f.dst [] 6
    (f.mod.getLsbD 5 = true → exec (.nxCnt c f) s =
      .next (pushed.modCounter ua.toNat fun k => { k with value := old, bind := none }).bump) ∧
    (f.mod.getLsbD 5 = false → old.toNat < ub.toNat → exec (.nxCnt c f) s =
      .next (pushed.modCounter ua.toNat fun k => { k with value := old, bind := some (key, bar, ub) }).bump) ∧
    (f.mod.getLsbD 5 = false → bar < 16 → onCore x.t.core = true → ub.toNat ≤ old.toNat → exec (.nxCnt c f) s =
      .next ((pushed.modCounter ua.toNat fun k => { k with value := old, bind := none }).arrive x.tk bar 1 none).bump)) ∧
  (Issues s (.nxCc c f) x → ua.toNat < 2 ^ 16 → ∀ k, s.conn? ua.toNat = some k → k.tenant = x.ln.tenant →
    ∃ (t : State) (ws : List Word), exec (.nxCc c f) s = .next t ∧ ws.length = 4 ∧ bits (ws.getD 2 0) 31 0 = min k.retx (2 ^ 32 - 1) ∧
      bits (ws.getD 3 0) 63 32 = k.live.length % 2 ^ 32 ∧ (∀ n, k.rttMin = some n → n < 2 ^ 32 → bits (ws.getD 1 0) 31 0 = n) ∧
      (k.live ≠ [] → ∃ p, p < 8 ∧ bit (ws.getD 2 0) (40 + p) = true) ∧ (k.live = [] → bits (ws.getD 2 0) 47 40 = 0) ∧
      ((∀ e ∈ s.eng.nx, e.2.opc = 0xDD ∨ e.2.handle ≠ ua.toNat ∨ e.2.sent = false ∨ e.2.answer ≠ none ∨ e.2.kept ≠ none) →
        (∀ r ∈ s.eng.reds, ∀ e ∈ r.peers, e.2 ≠ ua.toNat) → k.served = 0 → bits (ws.getD 3 0) 31 0 = 0) ∧
      RetiredBy s t x (x.on.map fun l => ⟨l, ws.map fun w => (w, false), [], 0, none⟩) 4 (some f.ua) f.dst [] (.from (s.cycle + 6))
        (.from (s.cycle + 6)))

/-- R289, R290: the bytecodes that compute or branch: the register they set, or where they go; `loop` runs its body n times with
its register from 0 on; the built-in handling follows the last bytecode and `end`, and `drop` consumes the packet. -/
def Obligations.BytecodeResults : Prop := ∀ (s : State) (qn : Nat) (r : Run), s.cur = .script qn → (s.queue qn).run = some r →
  r.builtin = false → s.slotWaits qn = false →
  let len := (s.queue qn).code.length
  let go := fun (r : Run) => (s.modQueue qn fun q => { q with run := some r }).bump
  let at' := fun (k : Nat) (regs : List Word) => { r with
    regs := regs, idx := r.idx + k, count := r.count + 1, hold := .none, builtin := decide (len ≤ r.idx + k) }
  let inBody := fun k => ∀ f, r.loops.head? = some f → r.idx + k ≠ f.start + f.len
  let set := fun (d : BitVec 4) (v : Word) => updAt (fun _ => v) d.toNat r.regs
  let reg := fun (i : BitVec 4) => r.regs.getD i.toNat 0
  let sets := fun (i : Instr) (d : BitVec 4) (v : Word) => inBody 1 → exec i s = .next (go (at' 1 (set d v)))
  let goes := fun (i : Instr) (o : BitVec 12) (taken : Bool) =>
    inBody (if taken then o.toNat else 1) → exec i s = .next (go (at' (if taken then o.toNat else 1) r.regs))
  (∀ (d a b : BitVec 4) (w : BitVec 12) (i : BitVec 16) (l p : BitVec 6),
    sets (.scriptLdp d w) d (r.words.getD w.toNat 0) ∧ sets (.scriptLi d i) d (i.signExtend 64) ∧
    sets (.scriptLih d i) d ((reg d).extractLsb' 0 48 ++ i) ∧
    sets (.scriptBfx d a l p) d (((reg a >>> p.toNat).setWidth (l.toNat + 1)).setWidth 64) ∧
    sets (.scriptAdd d a b) d (reg a + reg b) ∧ sets (.scriptSub d a b) d (reg a - reg b) ∧ sets (.scriptAnd d a b) d (reg a &&& reg b) ∧
    sets (.scriptOr d a b) d (reg a ||| reg b) ∧ sets (.scriptSeq d a b) d (if reg a = reg b then 1 else 0) ∧
    sets (.scriptSltu d a b) d (if (reg a).toNat < (reg b).toNat then 1 else 0) ∧
    sets (.scriptAddi d a i) d (reg a + i.signExtend 64) ∧ sets (.scriptShl d a w) d (reg a <<< (w.toNat % 64)) ∧
    sets (.scriptShr d a w) d (reg a >>> (w.toNat % 64)) ∧
    goes (.scriptBz a w) w (reg a == 0) ∧ goes (.scriptBnz a w) w (reg a != 0) ∧ goes (.scriptBr w) w true) ∧
  (∀ (d : BitVec 4) (i : BitVec 16) (f : Loop) (rest : List Loop), r.loops = f :: rest → r.idx + 1 = f.start + f.len → f.i + 1 < f.n →
    exec (.scriptLi d i) s = .next (go { at' 1 [] with
      regs := updAt (fun _ => word (f.i + 1)) f.d (set d (i.signExtend 64)), idx := f.start
      loops := { f with i := f.i + 1 } :: rest, builtin := decide (len ≤ f.start) })) ∧
  (∀ (d : BitVec 4) (i : BitVec 16) (f : Loop), r.loops = [f] → r.idx + 1 = f.start + f.len → f.n ≤ f.i + 1 →
    exec (.scriptLi d i) s = .next (go { at' 1 (set d (i.signExtend 64)) with loops := [] })) ∧
  (∀ (d : BitVec 4) (n l : BitVec 8), inBody 1 → exec (.scriptLoop d n l) s =
    .next (go { at' 1 (set d 0) with loops := ⟨r.idx + 1, l.toNat, n.toNat, 0, d.toNat⟩ :: r.loops })) ∧
  exec .scriptEnd s = .next (go { r with count := r.count + 1, builtin := true }) ∧
  exec .scriptDrop s = .next (s.consumePacket qn 0).bump

/-- R289 to R291: the bytecodes that act on memory, launches and the kernel, where their access succeeds, and what ends the
packet: an address that fails, or the 513th bytecode. That `ldc` and `stc` act on the tenant's memory at CTX (log 26), and that a
misaligned address of `evwait`, `evsig` or `post` ends the packet with STS 4 (log 32), is the model's choice. -/
def Obligations.BytecodeEffects : Prop := ∀ (s : State) (qn : Nat) (r : Run), (s.queue qn).run = some r → r.builtin = false → s.slotWaits qn = false →
  let q := s.queue qn
  let len := q.code.length
  let reg := fun (i : BitVec 4) => r.regs.getD i.toNat 0
  let inBody := ∀ f, r.loops.head? = some f → r.idx + 1 ≠ f.start + f.len
  let goOn := fun (u : State) (regs : List Word) => (u.modQueue qn fun q => { q with run := some { r with
    regs := regs, idx := r.idx + 1, count := r.count + 1, hold := .none, builtin := decide (len ≤ r.idx + 1) } }).bump
  let set := fun (d : BitVec 4) (v : Word) => updAt (fun _ => v) d.toNat r.regs
  (512 ≤ r.count → exec (.scriptBudgetExceeded qn) s = .next ((s.modQueue qn fun q => { q with bud := true }).consumePacket qn 3)) ∧
  (s.cur = .script qn → inBody → ∀ (d a b : BitVec 4) (w : BitVec 12) (u v : State),
    (∀ bs psn, s.devRead q.tenant (q.ctxAddr + 8 * w.toNat) 8 = .ok u (bs, psn) →
      exec (.scriptLdc d w) s = .next (goOn u (set d (word (leNat bs))))) ∧
    (s.devWrite q.tenant (q.ctxAddr + 8 * w.toNat) (leBytes 8 (reg a).toNat) = .ok u () →
      exec (.scriptStc a w) s = .next (goOn u r.regs)) ∧
    (s.submit qn (reg a).toNat (reg b).toNat 0 0 = (u, .accepted) → exec (.scriptLaunch d a b) s = .next (goOn u (set d 0))) ∧
    (∀ k, s.submit qn (reg a).toNat (reg b).toNat 0 0 = (u, .rejected k) →
      exec (.scriptLaunch d a b) s = .next (goOn u (set d (word k)))) ∧
    (∀ k, (reg a).toNat % 8 = 0 → s.readWords q.tenant (reg a).toNat 1 = .ok u ([k], false) →
      ((reg b).toNat ≤ k.toNat → exec (.scriptEvwait a b) s = .next (goOn u r.regs)) ∧
      (k.toNat < (reg b).toNat → exec (.scriptEvwait a b) s =
        .next (u.modQueue qn fun q => { q with run := some { r with hold := .event (reg a).toNat (reg b) } }).bump) ∧
      (u.devAdd q.tenant (reg a).toNat (reg b) = .ok v () → exec (.scriptEvsig a b) s = .next (goOn v r.regs))) ∧
    ((reg a).toNat % 8 = 0 → s.devWrite q.tenant (reg a).toNat (leBytes 8 (reg b).toNat) = .ok u () →
      exec (.scriptPost a b) s = .next (goOn u r.regs)) ∧
    ((reg a).toNat % 8 ≠ 0 → exec (.scriptEvwait a b) s = .next (s.consumePacket qn 4).bump ∧
      exec (.scriptEvsig a b) s = .next (s.consumePacket qn 4).bump ∧ exec (.scriptPost a b) s = .next (s.consumePacket qn 4).bump) ∧
    (r.hold = .none → exec (.scriptGreq d w) s = .next (((s.modQueue qn fun q => { q with run := some { r with hold := .greq d.toNat } }).say
      (.kernelRequest qn w.toNat (r.regs.take 4))).bump)) ∧
    (r.hold = .greq d.toNat → ∃ reply, exec (.scriptGreq d w) s = .next (goOn s (set d reply))))

/-- R286 to R288, R316, R412: a kick of an enabled queue of legal size at most 2^16 − 1 and less than its slots ahead of CI is kept where
it reaches further than the one before, and any other has no effect; a kick while KE is set clears KE where the slot of CI is stamped;
an access of the kick window that is not an aligned one of 8 bytes has no effect, and reads as zero, where an aligned one reads KE and
CI; consuming a packet writes its status and CONS, advances CI modulo 2^17 and changes nothing of the queue else, and where its slot must
be waited for the packet stays in progress with its status (the model's choice, log 32); a packet whose header is not stamped for CI is
read again for 2 µs, and then KE is set.
R284, R285, R287, R288, R295, R299: a stamped packet of KIND 0 to 4 begins, once BAR and the kick allow it, with its words and
its script; a header that is not stamped starts the 2 µs, and a packet with a reserved KIND or a nonzero reserved field is consumed with STS 1;
while the access to its slot must wait, nothing is done; the packet's built-in handling submits the record of a LAUNCH or POOL,
compares the counter of a WAIT, adds to that of a SIGNAL, and consumes a SCRIPT packet, each with the STS of its outcome; a packet
handled already, whose slot had to be waited for, is consumed with its status. A counter whose address is misaligned ends the packet with
STS 4 (the model's choice, log 32). -/
def Obligations.QueuePacketResults : Prop :=
  (∀ (s : State) (qn : Nat),
  let q := s.queue qn
  let works := q.en = true ∧ 4 ≤ q.log2n ∧ q.log2n ≤ 16
  let d := fun n => (n % 2 ^ 17 + 2 ^ 17 - q.ci) % 2 ^ 17
  let slot := q.base + 64 * (q.ci % 2 ^ q.log2n)
  let kept := fun (n : Nat) => s.modQueue qn fun q => { q with kick := some n }
  (∀ port (value : Word), port < 2 → qn < 4096 → q.ke = false → q.kick = none →
    (works → d value.toNat < 2 ^ 16 → d value.toNat < 2 ^ q.log2n →
      exec (.kick port (8 * qn) (.write 8 value)) s = .next (kept (value.toNat % 2 ^ 17))) ∧
    (¬ works ∨ 2 ^ 16 ≤ d value.toNat ∨ 2 ^ q.log2n ≤ d value.toNat →
      exec (.kick port (8 * qn) (.write 8 value)) s = .next (s.modQueue qn id))) ∧
  (∀ port (value : Word) k, port < 2 → qn < 4096 → works → q.ke = false → q.kick = some k →
    d value.toNat < 2 ^ 16 → d value.toNat < 2 ^ q.log2n → d k < 2 ^ 16 → exec (.kick port (8 * qn) (.write 8 value)) s =
      .next (kept (if d k < d value.toNat then value.toNat % 2 ^ 17 else k))) ∧
  (∀ port (value : Word), port < 2 → qn < 4096 → works → q.ke = true → q.kick = none → d value.toNat < 2 ^ 16 →
    d value.toNat < 2 ^ q.log2n →
    let u := kept (value.toNat % 2 ^ 17)
    (∀ v bs psn, u.devRead q.tenant slot 8 = .ok v (bs, psn) → exec (.kick port (8 * qn) (.write 8 value)) s =
      .next (if psn = false ∧ leNat bs % 2 ^ 17 = q.ci then v.modQueue qn fun q => { q with ke := false } else v)) ∧
    ((∀ v b, u.devRead q.tenant slot 8 ≠ .ok v b) → exec (.kick port (8 * qn) (.write 8 value)) s = .next u)) ∧
  (∀ port offset n (value : Word), port < 2 → offset < 0x8000 → n ≠ 8 ∨ offset % 8 ≠ 0 →
    exec (.kick port offset (.write n value)) s = .next s ∧ exec (.kick port offset (.read n)) s = .next (s.say (.barData port offset 0))) ∧
  (∀ port, port < 2 → qn < 4096 → exec (.kick port (8 * qn) (.read 8)) s =
    .next (s.say (.barData port (8 * qn) (word ((if q.ke then 2 ^ 63 else 0) + q.ci % 2 ^ 17))))) ∧
  (∀ sts r, q.run = some r → sts < 256 → s.mustWait q.tenant slot 8 .write = true → s.consumePacket qn sts =
    s.modQueue qn fun q => { q with run := some { r with builtin := true, sts := some sts } }) ∧
  (∀ sts r, q.run = some r → sts < 256 → s.mustWait q.tenant slot 8 .write = false →
    let t := s.consumePacket qn sts
    t.queue qn = { q with run := none, ci := (q.ci + 1) % 2 ^ 17, kids := q.kids.del q.ci, mails := q.mails.del q.ci,
                          issuers := q.issuers.del q.ci } ∧
    (∀ n, n ≠ qn → t.queue n = s.queue n) ∧ t.work.launches = s.work.launches ∧ t.work.teams = s.work.teams ∧
    ∀ u, s.devWrite q.tenant slot (leBytes 8 (((r.words.getD 0 0) &&& ~~~ word (0xFF * 2 ^ 32 + 2 ^ 21)) |||
      word (sts * 2 ^ 32 + 2 ^ 21)).toNat) = .ok u () → t.mem.bytes = u.mem.bytes) ∧
  (∀ t0, q.early = some t0 → s.unstamped qn = true →
    (t0 + 2000 ≤ s.ns → exec (.kickEarlyTimeout qn) s = .next (s.modQueue qn fun q => { q with ke := true, early := none, kick := none })) ∧
    (s.ns < t0 + 2000 → exec (.kickEarlyTimeout qn) s = .next s))) ∧
  (∀ (s : State) (qn : Nat),
  let q := s.queue qn
  let row := fun (kind : Nat) => if kind = 0 then Instr.launchPacket qn else if kind = 1 then .poolPacket qn
    else if kind = 2 then .waitPacket qn else if kind = 3 then .signalPacket qn else if kind = 4 then .scriptPacket qn else .launchPacket qn
  (s.slotWaits qn = true → ∀ kind, exec (row kind) s = .next s.bump) ∧
  (s.slotWaits qn = false →
  (∀ kind u ws, kind < 8 → q.run = none → q.announced = true → s.packetAt qn = .ok u (ws, false) →
    bits (ws.getD 0 0) 16 0 = q.ci % 2 ^ 17 → bits (ws.getD 0 0) 19 17 = kind → packetBad ws = true →
    (bit (ws.getD 0 0) 20 = true → ∀ l ∈ s.work.launches, l.2.queue ≠ qn) →
    exec (row kind) s = .next ((u.modQueue qn fun k => { k with early := none, run := some ⟨ws, List.replicate 16 0, 0, 0, [], .none, q.code.isEmpty, none⟩ }).consumePacket qn 1).bump) ∧
  (∀ kind u ws, kind < 5 → q.run = none → q.announced = true → s.packetAt qn = .ok u (ws, false) →
    bits (ws.getD 0 0) 16 0 = q.ci % 2 ^ 17 → bits (ws.getD 0 0) 19 17 = kind → packetBad ws = false →
    (bit (ws.getD 0 0) 20 = true → ∀ l ∈ s.work.launches, l.2.queue ≠ qn) →
    exec (row kind) s = .next (u.modQueue qn fun k => { k with early := none, run := some ⟨ws, List.replicate 16 0, 0, 0, [], .none, q.code.isEmpty, none⟩ }).bump) ∧
  (∀ kind u ws, kind < 5 → q.run = none → q.announced = true → q.early = none → s.packetAt qn = .ok u (ws, false) →
    bits (ws.getD 0 0) 16 0 ≠ q.ci % 2 ^ 17 → exec (row kind) s = .next (s.modQueue qn fun q => { q with early := some s.ns }).bump) ∧
  (∀ r k, q.run = some r → r.sts = some k → ∀ kind, exec (row kind) s = .next (s.consumePacket qn k).bump) ∧
  (∀ r, q.run = some r → r.builtin = true → r.sts = none →
    let w := fun i => r.words.getD i 0
    let kind := bits (w 0) 19 17
    (kind < 2 → ∀ u o, s.submit qn (w 1).toNat (w 2).toNat (w 3).toNat (w 4) = (u, o) → exec (row kind) s = .next (match o with
      | .hold => u
      | .unreadable => u.consumePacket qn 4
      | .poisoned => (u.recordPoison qn).consumePacket qn 4
      | .rejected k => u.consumePacket qn (if k = 8 then 5 else 2)
      | .accepted => u.consumePacket qn 0).bump) ∧
    (kind = 2 → (w 1).toNat % 8 = 0 → ∀ u v, s.readWords q.tenant (w 1).toNat 1 = .ok u ([v], false) →
      exec (row kind) s = .next (if (w 2).toNat ≤ v.toNat then u.consumePacket qn 0 else u).bump) ∧
    (kind = 3 → (w 1).toNat % 8 = 0 → ∀ u v z, s.readWords q.tenant (w 1).toNat 1 = .ok u ([z], false) →
      u.devAdd q.tenant (w 1).toNat (w 2) = .ok v () → exec (row kind) s = .next (v.consumePacket qn 0).bump) ∧
    (kind = 2 ∨ kind = 3 → (w 1).toNat % 8 ≠ 0 → exec (row kind) s = .next (s.consumePacket qn 4).bump) ∧
    (kind = 4 → exec (row kind) s = .next (s.consumePacket qn 0).bump))))

/-- R303: the quarter ranks its candidates by age, PRIO, number of slices, last issue, slot and lowest slice, and grants them in that
order, skipping any with a slice that is already granted; each grant is an issue of the next steps, and nothing else changes but
the record of holds. -/
def Obligations.IssueChoiceGrants : Prop := ∀ (s : State) (core quarter : Nat),
  let w := (s.quarterGroups core quarter).foldl (fun (s : State) e => s.modGroup e.1 fun g => g.holds s.cycle) s
  let u := (w.quarterGroups core quarter).foldl (fun (s : State) e => e.2.streams.foldl (fun (s : State) t => s.age e.1 e.2 t) s) w
  let cs := u.candidates core quarter
  let meets := fun (c d : Candidate) => ∃ i ∈ c.t.slices, i ∈ d.t.slices
  ∃ gs : List Candidate,
    exec (.issueChoice core quarter) s =
      .next { u with agenda := gs.map (fun c => .issue core (slotOf c.key) c.t.mask) ++ u.agenda } ∧
    (∀ c ∈ gs, c ∈ cs ∧ ∀ i ∈ c.t.slices, i ∉ u.granted core quarter) ∧
    gs.Pairwise (fun c d => lexLe c.rank d.rank = true ∧ ¬ meets c d) ∧
    (∀ c ∈ cs, c ∉ gs → (∃ i ∈ c.t.slices, i ∈ u.granted core quarter) ∨ ∃ d ∈ gs, lexLe d.rank c.rank = true ∧ meets c d) ∧
    u.mem = s.mem ∧ u.work.teams = s.work.teams ∧ u.work.cores = s.work.cores ∧ u.agenda = s.agenda

/-- R57, R63, R89, R148, R210: the completion of an outstanding operation without a lane that traps makes its pending results readable
in every lane that has not exited, adds its floating-point flags to FPSTAT, lets its flags fall and changes no other group; a store
has what its lanes buffer performed first, and otherwise memory does not change; before its cycle, and while it is held, nothing
happens. -/
def Obligations.CompletionResults : Prop := ∀ (s : State) (id : Nat) (o : Op), s.op? id = some o →
  (o.held = true ∨ s.cycle < o.due → exec (.longLatencyCompletion id) s = .next s) ∧
  (o.held = false → o.due ≤ s.cycle → (∀ f ∈ o.fp, o.res.any (fun r => r.1 == f.1) = true) →
    let raised : Nat → BitVec 5 := fun l => ((o.fp.find? fun f => f.1 == l).map fun f => f.2).getD 0
    let store := o.opc.toNat ∈ [0x91, 0x93, 0x94, 0x98, 0x9A, 0x9C, 0x9E]
    let u := if store then (lanesOf o.lanes).foldl (fun s l => s.drainWcb o.group l) s else s
    ∀ g, u.group? o.group = some g → g.lanes.length = 32 →
    ∃ t : State, exec (.longLatencyCompletion id) s = .next t ∧ t.op? id = none ∧ t.mem = u.mem ∧ t.work.teams = u.work.teams ∧
      t.work.cores = u.work.cores ∧ (∀ k, k ≠ o.group → t.group? k = u.group? k) ∧
      t.flagsAt o.group = o.flags.foldl (fun l i => updAt (fun n => n - 1) i l) g.flags ∧
      ∀ l, l < 32 →
        ((g.lane l).status = .exited → t.laneIn o.group l = g.lane l) ∧
        ((g.lane l).status ≠ .exited → (t.laneIn o.group l).pc = (g.lane l).pc ∧ (t.laneIn o.group l).status = (g.lane l).status ∧
          (t.laneIn o.group l).fpstat = (g.lane l).fpstat ||| (raised l).setWidth 13 ∧
          (t.laneIn o.group l).q = (g.lane l).q.map (fun e => if e.avail = .op id then { e with avail := .ready } else e) ∧
          ∀ (i : Nat) (r : Reg Word) (n : Nxt Word), (g.lane l).n[i]? = some r → r.nxt = some n → n.avail = .op id →
            (t.laneIn o.group l).n[i]? = some (⟨n.val, n.psn, true, none⟩ : Reg Word)))

/-- R32, R50, R71, R161, R175, R303, R363, R368: the other steps of a sequencer: a line is fetched into the buffers of a stream's
slices, or, where its page is not present, parks the lanes that stand in it, and a third line of the cycle is not fetched; ageing after 32 cycles without a grant; the end of a hold
after 256 cycles and of a yield after 64; a sweep's one issue, which resets the count; the end of a `twait`; a stop at a
breakpoint. -/
def Obligations.SequencerResults : Prop := ∀ (s : State) (core slot slice : Nat) (g : Group), s.group? (groupKey core slot) = some g →
  let key := groupKey core slot
  let slices := fun (u : State) (p : Nat → Bool) (f : Slice → Slice) => u.modGroup key fun g => { g with
    slices := (withIdx g.slices).map fun e => if p e.1 then f e.2 else e.2 }
  let had := match (s.core core).fetched.get? (quarterOf key) with
    | some (c, n) => if c = s.cycle then n else 0
    | none => 0
  let w := s.modCore core fun k => { k with fetched := k.fetched.put (quarterOf key) (s.cycle, had + 1) }
  let xlated := fun (l : Launch) (pc : Word) => State.xlate { w with cur := .engine core } l.tenant (lineOf pc) .fetch
  (∀ st l, g.streamOf slice = some st → s.launchOf g.team = some l → g.lineFor st = none → s.mayIssue g.team = true →
    (2 ≤ had → exec (.lineFetch core slot slice .none) s = .next s) ∧
    (∀ u pa k v, had < 2 → xlated l st.pc = .ok u pa k v →
      let bits := BitVec.ofNat 512 (u.mem.bytes.readNat pa 64)
      exec (.lineFetch core slot slice .none) s = .next (slices { u with cur := s.cur } (fun i => st.slices.contains i) fun c => { c with
        line := some ⟨lineOf st.pc, bits, u.physPsn pa 64, parityWrong bits⟩ }).bump) ∧
    (had < 2 → xlated l st.pc = .pageFault → ∃ t, exec (.lineFetch core slot slice .none) s = .next t ∧
      t.mem = s.mem ∧ t.admin.faults.length = s.admin.faults.length + 1 ∧ ∀ k, k < 32 → g.lanes.length = 32 →
        (∃ u ∈ g.streams, lineOf u.pc = lineOf st.pc ∧ has u.mask k = true) →
        (t.laneIn key k).status = .parked ∧ (t.laneIn key k).park.page = true ∧ (t.laneIn key k).pc = (g.lane k).pc)) ∧
  (∀ st, g.streamOf slice = some st → s.eligible key g st = true →
    (g.lastIssue st.mask + 31 ≤ s.cycle →
      exec (.streamAged core slot slice) s = .next (slices s (fun i => st.slices.contains i) fun c => { c with aged := true })) ∧
    (s.cycle < g.lastIssue st.mask + 31 → exec (.streamAged core slot slice) s = .next s)) ∧
  (∀ st n, g.streamOf slice = some st → (g.slices.getD slice Slice.fresh).hold = some n →
    (n + 256 ≤ s.cycle → exec (.reconvergenceHoldExpiry core slot slice) s =
      .next (slices s (fun i => st.slices.contains i) fun c => { c with hold := none, unheld := true })) ∧
    (s.cycle < n + 256 → exec (.reconvergenceHoldExpiry core slot slice) s = .next s)) ∧
  (∀ st l, g.sweep slice = some st → s.launchOf g.team = some l → g.sweepDue slice = true → s.mayIssue g.team = true →
    slice ∉ s.granted core (quarterOf key) → s.stops g st = [] →
    let ready := fun (v : State) (b : LineBuf) =>
      let w := b.slot (st.pc.toNat % 8)
      g.distOk st.mask w s.cycle = true ∧ g.flagsOk w = true ∧ v.pipeFree key [slice] w = true ∧ v.slotHolds key st.mask st.pc w = false
    let swept := fun (v : State) (b : Option LineBuf) => ∃ t, exec (.sweepIssue core slot slice) s = .next t ∧
      t.agenda = .issue core slot st.mask :: v.agenda ∧ t.mem = v.mem ∧
      (slice < g.slices.length → ∃ c ∈ (t.slicesAt key)[slice]?, c.count = 0 ∧ c.high = none ∧ (b.isSome = true → c.line = b))
    (∀ b, g.lineFor st = some b → ready s b → swept s none) ∧
    (∀ u pa k v, g.lineFor st = none → had < 2 → xlated l st.pc = .ok u pa k v →
      let b := u.lineAt (lineOf st.pc) pa
      let u := { u with cur := s.cur }
      let errs := fun e => b.bad = false ∧ s.lineErr key slice = e
      let v := slices (if errs .transient then u.count 1 false (coreReg key) else u) (fun i => i == slice) fun c => { c with line := some b }
      (¬ errs .lasting → ready v b → swept v (some b)) ∧
      (errs .lasting → exec (.sweepIssue core slot slice) s = .next
        (((u.count 1 true (coreReg key)).modCore core fun c => { c with withdrawn := true }).fetchKill key g 5 st.pc).bump))) ∧
  exec (.yieldExpiry core slot slice) s = .next (slices s (fun i => i == slice) fun c =>
    if ∃ n, c.yield = some n ∧ n ≤ s.cycle then { c with yield := none } else c) ∧
  (∀ lane, lane < 32 → g.lanes.length = 32 → onCore core = true → (g.lane lane).status = .waiting → (g.lane lane).wait.kind = .twait →
    (s.ns < (g.lane lane).wait.obj.toNat → exec (.twaitExpiry core slot lane) s = .next s) ∧
    ((g.lane lane).wait.obj.toNat ≤ s.ns → (g.lane lane).restop = false → (g.lane lane).park = ⟨false, false, false⟩ →
      ∃ t, exec (.twaitExpiry core slot lane) s = .next t ∧ t.mem = s.mem ∧ (t.laneIn key lane).status = .active ∧
        (t.laneIn key lane).q = ((⟨word s.ns, false, .ready⟩ : QEntry) :: (g.lane lane).q).take 32 ∧
        (t.laneIn key lane).pc = succPc (g.lane lane).pc ∧ ∀ l, l < 32 → l ≠ lane → t.laneIn key l = g.lane l)) ∧
  (∀ lane st, g.streamOf (lane / 4) = some st → lane ∈ s.stops g st → s.mayIssue g.team = true → g.lanes.length = 32 →
    ∃ t, exec (.breakpointHit core slot lane) s = .next t ∧ t.mem = s.mem ∧ ∀ l ∈ s.stops g st,
      (t.laneIn key l).status = .parked ∧ (t.laneIn key l).park.debug = true ∧ (t.laneIn key l).pc = (g.lane l).pc)

/-- R248, R256, R257, R278, R280, R351, R410: the first command of Punty's queue reads its descriptor, then performs a chunk,
and its tag completes with its last; a command whose fault was answered against it ends with code 0x02. Lehr reads the
descriptors of the tail tile, then writes a row a step, frees the tile with the last and completes its tag. A Cullet engine starts
the job at the head of its queue, then writes a destination chunk a step. -/
def Obligations.EngineSteps : Prop := ∀ (s : State) (core : Nat), s.coreRuns core = true →
  let k := s.core core
  let w := { s with cur := .engine core }
  let ends := fun (u : State) => Host.Outcome.next { u.bump with cur := .none }
  (∀ c rest, k.punty = c :: rest → c.fid = none →
    let step := exec (.puntyChunk core .none) s
    (c.forced = true → ∃ t, step = .next t ∧ (c.marver = false → (t.core core).punty = rest ∧ t.mem = s.mem ∧
      ∀ g, k.tags[c.tag]? = some g → g.pend = 1 → g.err = false → g.told = false → ∃ h, (t.core core).tags[c.tag]? = some h ∧
        h.pend = 0 ∧ h.ready = true ∧ h.err = true ∧ h.code = 2 ∧ h.elem = BitVec.ofNat 32 (c.elem c.chunk))) ∧
    (c.forced = false → c.tensor = true → c.desc = [] → ∀ u bs,
      w.devRead (s.tenantOf c.team) c.ua.toNat 64 = .ok u (bs, false) → step =
        ends (u.setCmd core 0 { c with desc := (List.range 8).map fun j => word (leNat ((bs.drop (8 * j)).take 8)) })) ∧
    (c.forced = false → (c.tensor = true → c.desc ≠ []) → ∀ u d, w.cmdChunk core c = .ok u d →
      (d.chunk + 1 < d.chunks → step = ends (u.setCmd core 0 { d with chunk := d.chunk + 1 })) ∧
      (d.chunks ≤ d.chunk + 1 → step = ends (u.cmdEnd core 0 { d with chunk := d.chunk + 1 }))) ∧
    (c.forced = false → (c.tensor = true → c.desc ≠ []) → ∀ u e, w.cmdChunk core c = .fail u e →
      step = ends (u.cmdFail core 0 c (c.elem c.chunk) e))) ∧
  (∀ tk e, k.owner = some tk → (k.tile k.tail).epi = some e → k.lehrReady = true →
    let step := exec (.lehrRow core) s
    let done := fun (u : State) (code : BitVec 8) elem udf => step = ends (u.lehrDone core tk e code elem udf)
    (k.lehr.forced = true → done w 2 (64 * k.lehr.row) k.lehr.udf) ∧
    (k.lehr.forced = false → k.lehr.busy = false → ∀ u ws, w.lehrRead (s.tenantOf tk) e = .ok u (some ws) →
      step = ends (u.modCore core fun c => { c with lehr := { Lehr.idle with busy := true, desc := ws } })) ∧
    (k.lehr.forced = false → k.lehr.busy = false → ∀ u, w.lehrRead (s.tenantOf tk) e = .ok u none → done u 3 0 0) ∧
    (k.lehr.forced = false → k.lehr.busy = true → ∀ d, epiOf (k.lehr.desc.take 16) = some d → d.dsp = true → d.red = 0 →
      ∀ u v, w.epiValues tk d (if d.res then tensorOf ((k.lehr.desc.drop 16).take 8) else none) (k.tile k.tail) k.lehr.row = .ok u v →
      let o := outRow ⟨d.ofmt, 0, 64, 32, 0⟩ d.sat k.lehr.row 0 (v.map fun a => (fmtF32.read false a.1, a.2))
      let off := k.lehr.offend.or (o.2.1.map fun j => 64 * k.lehr.row + j)
      ∀ x, u.epiPut core tk 1 (bits (d.word 4) 18 0 + bits (d.word 4) 50 32 * k.lehr.row) o.1 = (x, none) →
        (k.lehr.row ≠ 31 → step = ends (x.modCore core fun c => { c with lehr := { c.lehr with
          row := k.lehr.row + 1, offend := off, udf := k.lehr.udf + o.2.2 } })) ∧
        (k.lehr.row = 31 → done x (if off.isSome then 5 else 0) (off.getD 0) (k.lehr.udf + o.2.2)))) ∧
  (∀ e j rest, (s.cullet e).queue = j :: rest → j.fid = none → j.forced = false →
    (j.started = false → j.accepted = true → j.area = none → (∀ p ∈ (s.cullet e).parked, p.area ≠ none) →
      ∀ u v a b, s.tenRead j.tenant j.card 32 = .ok u a → u.tenRead j.tenant (j.card + 48) 16 = .ok v b →
      (∀ y ∈ a ++ b, y.2 = false) →
      let ws := fun (l : List PByte) => (runs 8 (l.length / 8) l).map fun g => word (leNat (g.map fun b => b.1))
      let i := { j with words := ws a ++ [0, 0] ++ ws b, cardWait := false }
      (i.malformed = true → exec (.culletJobStart e) s = .next (v.jobEnd e i 5 0x20 none).bump) ∧
      (i.malformed = false → ∀ w, v.putCard i 2 0 = .ok w () →
        exec (.culletJobStart e) s = .next (w.setJob e { i with started := true }).bump)) ∧
    (j.started = true → ∀ u d,
      let room := 4096 - (j.dst + j.written) % 4096
      State.decodeTo (j.written + room) (8 * j.slen + 2) s j = .ok u d →
      let n := min (d.out.length - d.written) room
      let bs := ((d.out.drop (d.out.length - d.written - n)).take n).reverse
      let i := { d with written := d.written + n }
      (n = 0 → exec (.culletChunk e) s = .next (u.jobOver e d).bump) ∧
      (n ≠ 0 → ∀ v ps, u.devMap d.tenant (d.dst + d.written) n .write = .ok v ps →
        exec (.culletChunk e) s = .next (if d.ended ∧ i.written = d.out.length then (v.putParts ps bs).jobOver e i
          else (v.putParts ps bs).setJob e i).bump)))

/-- R298, R264, R265, R301, R302: the gaffer grants the first pending launch's next 64 teams to a die that can place one; a
distributor places the teams of the next gang on adjacent cores, their scratchpads zero and their groups not released; Marver
begins a team's bindings one after another and completes b15's phase 0 after the last; the groups are released at that
completion and the start time, which the first of a launch records; for a gang that is killed neither happens; a lead counter
reaches its neighbours, and one of a team that is placed anew is forgotten. That a placed scratchpad is zero is the model's choice
(log 4), that a team which had retired before its die was fenced is not placed again its reading of R423 (log 44).
R39 to R42, R296, R298: the binner of a pool team takes the next 64 records of the pool where it has no range, reads the oldest
record of its spill area, while one of the core's 16 bins is empty, or the next of its range into a bin, writes a record that waited
for its page of the spill area, flushes a bin after 2,048 cycles without an arrival, and makes a
full or flushed bin a group, the first of a launch starting it. A record whose PC may not be entered is discarded and counted. The held
record, a record that stays in the pool area, and the start of a pool launch are the model's choices (log 31, 52). -/
def Obligations.DistributorSteps : Prop :=
  (∀ (s : State),
  (∀ launch die l, s.launch? launch = some l → s.work.gaffer ≠ none → s.work.election = false → die < 8 →
    s.wantsRange launch l die = true →
    (∀ e ∈ s.work.launches, e.1 ≠ launch → e.2.before l = true → s.wantsRange e.1 e.2 die = false) → l.returned = none →
    ∃ t, exec (.teamRangeGrant launch die) s = .next t ∧ t.launch? launch = some { l with
        ranges := l.ranges ++ [(die, l.next, l.next + min 64 (l.nteam - l.next))], next := l.next + min 64 (l.nteam - l.next) } ∧
      (∀ k, k ≠ launch → t.launch? k = s.launch? k) ∧ t.mem = s.mem ∧ t.work.teams = s.work.teams ∧ t.work.cores = s.work.cores) ∧
  (∀ launch die l gang core, s.launch? launch = some l → l.nextGang die = some gang → s.fits launch l die = some core →
    ∃ t, exec (.teamPlacement launch die) s = .next t ∧ t.mem = s.mem ∧ (∀ i, i < l.gangSize →
      ∃ u, t.team? (indexKey launch (gang * l.gangSize + i)) = some u ∧ u.launch = launch ∧ u.idx = gang * l.gangSize + i ∧
        u.core = core + i ∧ u.scrBytes = l.scr ∧ u.scr = [] ∧ u.lead = 0 ∧
        u.released = l.stood.contains (gang * l.gangSize + i) ∧ u.retired = l.stood.contains (gang * l.gangSize + i)) ∧
      ∀ k v, (∀ i, i < l.gangSize → k ≠ indexKey launch (gang * l.gangSize + i)) → s.team? k = some v →
        ∃ w, t.team? k = some w ∧ { w with seen := v.seen } = v ∧ (v.launch ≠ launch → w = v) ∧
          (v.launch = launch → ∀ i, i < l.gangSize → w.seen.get? (indexKey launch (gang * l.gangSize + i)) = none)) ∧
  (∀ team t l, s.team? team = some t → s.launch? t.launch = some l → s.coreRuns t.core = true →
    (s.dying t.launch (t.idx / l.gangSize) = true →
      exec (.transformBinding team) s = .next s ∧ exec (.groupRelease team) s = .next s) ∧
    (t.released = false → s.dying t.launch (t.idx / l.gangSize) = false → s.binds team t.core = false → (s.bar team 15).phase = 0 →
      let step := exec (.transformBinding team) s
      (4 ≤ t.binding → step = .next (s.setBar team 15 ⟨t.bindFail, 0, 1, none⟩)) ∧
      (t.binding < 4 → l.bindOn t.binding = false → step = .next (s.modTeam team fun t => { t with binding := t.binding + 1 })) ∧
      (t.binding < 4 → l.bindOn t.binding = true → (s.core t.core).punty.length < 32 →
        step = .next (s.enqueue t.core (bindCmd team l t.binding)))) ∧
    (t.released = false → s.dying t.launch (t.idx / l.gangSize) = false → (s.bar team 15).phase ≠ 0 → l.startTime ≤ s.ns →
      let u := s.modTeam team fun t => { t with released := true }
      exec (.groupRelease team) s = .next (if s.groupsOf team = [] then u else u.modLaunch t.launch fun l =>
        { l with tstart := if l.tstart = 0 then s.ns else l.tstart })) ∧
    (t.released = false → (s.bar team 15).phase = 0 ∨ s.ns < l.startTime → exec (.groupRelease team) s = .next s) ∧
    ∃ u, exec (.leadCounterUpdate team) s = .next u ∧ u.mem = s.mem ∧ ∀ k n, s.team? k = some n →
      u.team? k = some (if k ∈ (s.neighboursOf team).map (fun e => e.1) then { n with seen := n.seen.put team t.lead } else n))) ∧
  (∀ (s : State) (team : Nat) (t : Team) (l : Launch) (p : Pool),
  s.team? team = some t → s.launch? t.launch = some l → t.pool = some p → s.coreRuns t.core = true →
  let held := p.held ≠ [] ∧ s.spillReady team = true
  let spilled := p.spillRd < p.spillWr ∧ s.emptyBin t.core = true
  let fetch := exec (.poolRecordFetch team) s
  (∀ r rest, p.held = r :: rest → ∀ u, s.devPutWords l.tenant (spillAddr l t.idx p.spillWr) r.words r.psn = .ok u () →
    s.spillReady team = true → ∃ v, fetch = .next v ∧ v.mem = u.mem ∧ v.work.groups = s.work.groups ∧ ∀ w, v.team? team = some w →
      w.pool = some { p with held := rest, spillWr := p.spillWr + 1 }) ∧
  (¬ held → ¬ spilled → p.ranges = [] →
    let n := min 64 (l.poolCnt - l.poolNext)
    (n = 0 → fetch = .next s.bump) ∧
    (n ≠ 0 → fetch = .next ((s.modPool team fun p => { p with ranges := [(l.poolNext, l.poolNext + n)] }).modLaunch t.launch fun l =>
      { l with poolNext := l.poolNext + n }).bump)) ∧
  (¬ held → ¬ spilled → ∀ a b rest, p.ranges = (a, b) :: rest → ∀ u ws psn, s.readRecord l.tenant (l.poolBase + 128 * a) = .ok u (ws, psn) →
    psn.getD 0 false = false →
    let next := fun (v : State) => v.modPool team fun p => { p with ranges := if a + 1 < b then (a + 1, b) :: rest else rest }
    let r := ContRec.ofWords ws psn
    ((u.target l.tenant r.pc).1 = false →
      fetch = .next ((next (u.modLaunch t.launch fun l => { l with prej := l.prej + 1 })).wakeRegroups t.core).bump) ∧
    ((u.target l.tenant r.pc).1 = true → ∀ v, u.binTake team r = some v → fetch = .next ((next v).wakeRegroups t.core).bump)) ∧
  (¬ held → spilled → ∀ u ws psn, s.readRecord l.tenant (spillAddr l t.idx p.spillRd) = .ok u (ws, psn) → psn.getD 0 false = false →
    let r := ContRec.ofWords ws psn
    (u.target l.tenant r.pc).1 = true → ∀ v, u.binTake team r = some v →
      fetch = .next ((v.modPool team fun p => { p with spillRd := p.spillRd + 1 }).wakeRegroups t.core).bump) ∧
  (∀ bin, exec (.binFlush team bin) s = .next (s.modPool team fun p => { p with
    bins := updAt (fun b => if b.recs ≠ [] ∧ b.flushed = false ∧ b.last + 2048 ≤ s.cycle then { b with flushed := true } else b) bin p.bins })) ∧
  (∀ bin,
    let b := p.bins.getD bin Bin.empty
    t.released = true → b.flushed = true ∨ binSize l ≤ b.recs.length → b.recs ≠ [] → ∀ gid slot,
    (List.range 16).find? (fun i => !((s.groupsOf team).map fun e => e.2.gid).contains i) = some gid →
    s.freeSlot t.core = some slot →
    let lanes := (List.range 32).map fun l' => match b.recs[if l.paired then l' % 16 else l']? with
      | some r => r.lane (s.target l.tenant b.pc).2
      | none => { Lane.fresh b.pc with status := .exited }
    exec (.groupFormation team bin) s = .next (((((s.setGroup (groupKey t.core slot)
      (Group.fresh team gid (s.freeSegment t.launch) l lanes)).modPool team fun p => { p with
        bins := updAt (fun _ => Bin.empty) bin p.bins }).modLaunch t.launch fun l =>
          { l with tstart := if l.tstart = 0 then s.ns else l.tstart }).wakeRegroups t.core).bump)))

/-- R46 to R48: a group whose lanes have exited and whose flags are zero performs its buffered stores, conveys what it holds and
leaves its slot; a team without groups or pending commands retires and is counted, and its gang with its last team; a launch
whose teams have ended writes its completion record, then does what follows a record, and its slot is free. Before these
conditions hold none of the three happens. While a page that a conveyance reaches must be waited for, that holding and the older ones
wait, and so does a launch for the page of its record: the model's reading (log 22, 37). -/
def Obligations.RetirementSteps : Prop := ∀ (s : State),
  (∀ core slot g, s.group? (groupKey core slot) = some g →
    let key := groupKey core slot
    (g.ending = true → s.coreRuns core = true → (∀ n ∈ g.flags, n = 0) → (s.team? g.team).isSome →
      let r := ((List.range 32).foldl (fun s l => s.drainWcb key l) s).convey ⟨key, g.killed, false⟩
      (r.2 = true → exec (.groupRetirement core slot) s =
        .next (((((r.1.groupRecord key).removeGroup key).checkRls g.team).recheck g.team).wakeRegroups (coreOf key)).bump) ∧
      (r.2 = false → exec (.groupRetirement core slot) s = .next (r.1.modGroup key fun g => { g with stage := .conveying }).bump)) ∧
    ((g.stage ≠ .retiring ∧ g.stage ≠ .conveying) ∨ (∃ n ∈ g.flags, n ≠ 0) → exec (.groupRetirement core slot) s = .next s)) ∧
  (∀ team t l, s.team? team = some t → s.launch? t.launch = some l →
    (s.retires team = true → ∃ u, exec (.teamRetirement team) s = .next u ∧ u.mem.bytes = s.mem.bytes ∧
      (∃ m, u.launch? t.launch = some m ∧ m.tdone = l.tdone + (if t.failed then 0 else 1) ∧
        m.tfail = l.tfail + (if t.failed then 1 else 0) ∧ m.nteam = l.nteam ∧ m.next = l.next) ∧
      ∀ v, u.team? team = some v → v.retired = true) ∧
    (s.retires team = false → exec (.teamRetirement team) s = .next s)) ∧
  (∀ launch l, s.launch? launch = some l →
    (s.completes launch l = false ∨ s.reportWaits l = true → exec (.launchCompletion launch) s = .next s) ∧
    (s.completes launch l = true → s.reportWaits l = false → ∃ u : State,
      exec (.launchCompletion launch) s = .next ((u.afterRecord l (l.tfail != 0) 0).openGates).bump ∧
      u.mem = (s.record l.tenant l.compl launch (l.completion launch s.ns)).mem ∧ u.launch? launch = none))

/-- R384 to R386, R388, R365, R420 to R422, R415, R313: a requested kill stops its gang at once, and ends once its engines have run
to completion and its groups have conveyed: the gang is gone, and counts as failed or is placed again. Command 0x0B ends the lanes it names. An answer to a
fault record withdraws it, and a Retry releases its lanes. A fenced die is out of service, with a kill of each of its gangs; the
lowest healthy die becomes the gaffer. A compute reset ends every launch, team and connection and disables every queue. A partition
reset leaves its cores fresh. That the retired teams of a killed gang leave TDONE and TFAIL, and that a
partition reset keeps B slots and withdrawal, is the model's reading (log entry 44). -/
def Obligations.ContainmentSteps : Prop := ∀ (s : State),
  (∀ gang l, s.launch? (gang / 2 ^ 32) = some l →
    let lk := gang / 2 ^ 32
    let n := gang % 2 ^ 32
    (∀ k, s.work.starting.find? (fun k => k.of lk n) = some k → (s.gang? gang).isSome →
      exec (.gangKill gang) s = .next ((s.killStop k l.gangSize).killTry lk n).bump) ∧
    (∀ k, s.work.starting.find? (fun k => k.of lk n) = none → s.work.killing.find? (fun k => k.kill.of lk n) = some k →
      k.kill.launch = lk → k.kill.gang = n →
      let teams := s.teamsOfGang lk n l.gangSize
      let fenced := teams.any fun t => s.work.fenced.contains (dieOf t.2.core)
      let att := ((s.gang? gang).map Gang.attempt).getD 0
      let stood := teams.filter fun t => t.2.retired
      let old := if fenced then (0, 0) else ((stood.filter fun t => !t.2.failed).length, (stood.filter fun t => t.2.failed).length)
      let r := State.killConvey k fenced (l.idem && att < 2) (s.gangGroups lk n l.gangSize) s
      ((∃ e ∈ teams, s.enginesDone e.1 e.2 = false) → exec (.gangKill gang) s = .next s.bump) ∧
      ((∀ e ∈ teams, s.enginesDone e.1 e.2 = true) → (r.2 = false → exec (.gangKill gang) s = .next r.1.bump) ∧
        (r.2 = true → ∃ t, exec (.gangKill gang) s = .next t ∧ t.gang? gang = none ∧ ∃ m, t.launch? lk = some m ∧ m.killed = true ∧
          m.tdone = l.tdone - old.1 ∧
          (l.idem = true ∧ att < 2 → m.again = l.again ++ [n] ∧ m.attempts.get? n = some (att + 1) ∧ m.reln = l.reln + 1) ∧
          (¬ (l.idem = true ∧ att < 2) → m.kil = true ∧ m.fgang = min l.fgang n ∧
            m.tfail = l.tfail - old.2 + (l.gangSize - if fenced then stood.length else 0)))))) ∧
  (∀ core slot mask g, onCore core = true → s.group? (groupKey core slot) = some g → g.lanes.length = 32 →
    ∃ t, exec (.killGroupLanes core slot mask) s = .next t ∧ t.admin.cmdStatus = 0 ∧
      ∀ l, l < 32 → has mask l = true → (t.laneIn (groupKey core slot) l).status = .exited) ∧
  (∀ core slot mask, s.group? (groupKey core slot) = none → exec (.killGroupLanes core slot mask) s = .next (s.status 2)) ∧
  (∀ fid outcome, s.admin.faults.find? (fun r => r.fid == fid) = none → exec (.answerFault fid outcome) s = .next (s.status 0)) ∧
  (∀ fid outcome r, s.admin.faults.find? (fun r => r.fid == fid) = some r → r.ofPort = false → r.ofAts = false → outcome ≠ 3 →
    (s.kept r = false ∨ outcome = 2 → exec (.answerFault fid outcome) s =
      .next (((s.withdraw fun q => q == r).applyAnswer r outcome.toNat).status 0).bump) ∧
    (∀ key m opc addrs g, outcome = 0 → r.who = .lanes key m opc addrs → onCore (coreOf key) = true → s.group? key = some g →
      g.lanes.length = 32 → ∃ t, exec (.answerFault fid outcome) s = .next t ∧ t.mem = s.mem ∧
        (∀ q ∈ t.admin.faults, q ≠ r) ∧ ∀ l, l < 32 → t.laneIn key l =
          if has m l = true ∧ (g.lane l).status = .parked ∧ (g.lane l).park.page = true ∧ (g.lane l).fid = fid then
            { g.lane l with
              park := { (g.lane l).park with page := false }
              fid := 0
              status := if (g.lane l).park.sysc ∨ (g.lane l).park.debug then .parked else .active }
          else g.lane l)) ∧
  (∀ fid outcome r, s.admin.faults.find? (fun r => r.fid == fid) = some r → r.ofPort = true ∨ r.ofAts = true ∨ outcome = 3 →
    exec (.answerFault fid outcome) s = .next (s.status 2)) ∧
  (∀ die, die < 8 → die ∉ s.work.fenced → ∃ t, exec (.fenceDie die) s = .next t ∧ die ∈ t.work.fenced ∧ t.mem = s.mem ∧
    t.work.teams = s.work.teams ∧ t.work.gaffer = (if s.work.gaffer = some die then none else s.work.gaffer) ∧
    (s.work.gaffer = some die → t.work.election = true) ∧
    ∀ e ∈ s.work.teams, onCore e.2.core = true → dieOf e.2.core = die → ∀ l, s.launch? e.2.launch = some l →
      s.underKill e.2.launch (e.2.idx / l.gangSize) = true ∨ ∃ k ∈ t.work.kills, k.of e.2.launch (e.2.idx / l.gangSize) = true) ∧
  (s.work.election = true → ∀ d, d < 8 → d ∉ s.work.fenced → (∀ e, e < d → e ∈ s.work.fenced) →
    exec .gafferElection s = .next { s with work := { s.work with gaffer := some d, election := false } }) ∧
  (∃ t, exec .computeReset s = .next t ∧ t.work.launches = [] ∧ t.work.gangs = [] ∧ t.work.teams = [] ∧ t.work.groups = [] ∧
    t.work.ops = [] ∧ t.mem.waiters = [] ∧ t.eng.conns = [] ∧ t.eng.nx = [] ∧ t.work.fenced = [] ∧ t.work.gaffer = some 0 ∧
    ∀ e ∈ t.work.queues, e.2.en = false ∧ e.2.run = none) ∧
  (∀ die benches i p, s.partition? die benches = some (i, p) → ∃ t, exec (.partitionReset die benches) s = .next t ∧
    t.mem.bytes = s.mem.bytes ∧ t.admin.cmdStatus = 0 ∧ ∀ c ∈ p.cores,
      t.core c = { Core.fresh with bslots := (s.core c).bslots, withdrawn := (s.core c).withdrawn })

/-- R329, R330, R333 to R336, R340 to R345, R417: a transport command completes with the code of its answer, a get once the packets of its
answer have come and their bytes are written. An arriving packet that was trimmed is asked for again; one that uses an unsupported part
is answered with a NACK; a copy of one that has been dealt with gets the same answer again; one whose key no tenant has is refused with
code 0x10; none of these has another effect but the record of a refusal's answer. A put, get, send, deferrable send or atomic of a tenant's
key is performed in that tenant's space and answered, a send of several packets with its last; a partial joins its step, or aborts its
sender's where the step is over; an abort ends its step with its code. The order of the checks of a send, code 4 for a poisoned get or
atomic, and what a partial finds are the model's reading (log 14, 20, 40, 45). -/
def Obligations.NetworkArrivals : Prop := ∀ (s : State),
  let ack := fun (h : NetHead) (code : BitVec 8) (old : Word) => Msg.ack h.jobKey h.msg h.packet code old
  let kept := fun (h : NetHead) => s.eng.frags.filter fun f => f.jobKey == h.jobKey && f.peer == h.peer && f.msg == h.msg
  let record := fun (u : State) (h : NetHead) (a : Msg) =>
    State.say { u with eng := { u.eng with dealt := u.eng.dealt ++ [⟨h.jobKey, h.peer, h.msg, h.packet, a⟩] } } a
  let answered := fun (u : State) (h : NetHead) (a : Msg) => record { u with eng := { u.eng with
    frags := u.eng.frags.filter fun f => !(f.jobKey == h.jobKey && f.peer == h.peer && f.msg == h.msg) } } h a
  let copy := fun (h : NetHead) => s.eng.dealt.find? fun e => e.jobKey == h.jobKey && e.peer == h.peer && e.msg == h.msg && e.packet == h.packet
  let plain := fun (h : NetHead) (write : Bool) => h.trimmed = false ∧ h.unsupported = false ∧ (h.mode = .rud ∨ (h.mode = .rudi ∧ write = true))
  let dealt := fun (h : NetHead) (write : Bool) (n : Nat) (t : Tenant) => plain h write ∧ copy h = none ∧ s.tenantByKey h.jobKey = some (n, t)
  let arrives := fun (i : Instr) (h : NetHead) (write big : Bool) =>
    (h.trimmed = true → exec i s = .next (s.say (.nack h.jobKey h.msg h.packet true))) ∧
    (h.trimmed = false → h.unsupported = true ∨ big = true ∨ h.mode = .rod ∨ h.mode = .uud ∨ (h.mode = .rudi ∧ write = false) →
      exec i s = .next (s.say (.nack h.jobKey h.msg h.packet false))) ∧
    (big = false → plain h write → (∀ e, copy h = some e → exec i s = .next (s.say e.answer)) ∧
      (copy h = none → s.tenantByKey h.jobKey = none → exec i s = .next (answered s h (ack h 0x10 0))))
  let partly := fun (i : Instr) (h : NetHead) (total : Nat) (data : List RedVal) => 1 < total → (kept h).length + 1 < total →
    let w := record s h (ack h 0 0)
    exec i s = .next { w with eng := { w.eng with frags := w.eng.frags ++ [⟨h.jobKey, h.peer, h.msg, h.packet, data⟩] } }
  let joined := fun (h : NetHead) (total : Nat) (data : List RedVal) => (List.range total).flatMap fun i =>
    if i = h.packet then data else (((kept h).find? fun f => f.packet == i).map NetFrag.data).getD []
  let all := fun (h : NetHead) (total : Nat) (data d : List RedVal) =>
    (total ≤ 1 ∧ d = data) ∨ (1 < total ∧ total ≤ (kept h).length + 1 ∧ d = joined h total data)
  (∀ cmd (c : NxCmd) (a : NetAnswer), s.nx? cmd = some c → c.sent = true → c.answer = none → c.kept = none → c.opc ≠ 0xDD →
    let parts := (a.packet, a.data) :: c.parts.filter fun p => p.1 != a.packet
    let b := if a.total ≤ 1 then a else { a with
      data := (List.range a.total).flatMap fun i => ((parts.find? fun p => p.1 == i).map fun p => p.2).getD [] }
    let bad := a.trimmed = true ∨ a.unsupported = true ∨ 4096 < a.data.length
    (a.again = true → ∀ d, s.conn? c.handle = some d →
      (d.live = [] → exec (.nxCommandCompletion cmd a) s = .next s) ∧
      (d.live ≠ [] → ∃ p ∈ d.live, exec (.nxCommandCompletion cmd a) s =
        .next ((s.modConn c.handle fun k => { k with retx := sat32 k.retx }).say (.retransmit c.handle p)).bump)) ∧
    (a.again = false → bad → exec (.nxCommandCompletion cmd a) s =
      .next (s.say (.nack (s.peer c.handle).2 cmd a.packet a.trimmed))) ∧
    (a.again = false → ¬ bad → ∃ p r, p < 256 ∧
      let v := s.modConn c.handle fun k => { k with timeouts := k.timeouts.del p, rttMin := some (min r (k.rttMin.getD r)) }
      let u := v.setNx cmd { c with answer := some b }
      (a.code = 0 → parts.length < a.total → exec (.nxCommandCompletion cmd a) s = .next (v.setNx cmd { c with parts := parts }).bump) ∧
      (a.code ≠ 0 ∨ a.total ≤ parts.length → c.fid = none → c.forced = false →
        (a.code ≠ 0 → exec (.nxCommandCompletion cmd a) s =
          .next (u.nxDone cmd (if a.code = 0x11 ∨ a.code = 4 then a.code else 0x10)).bump) ∧
        (a.code = 0 → c.opc ≠ 0xDA → exec (.nxCommandCompletion cmd a) s = .next (u.nxDone cmd 0).bump) ∧
        (a.code = 0 → c.opc = 0xDA → ∀ v ls, u.cpTenant c.tenant c.ua.toNat c.len .write = .ok v ls →
          let w := State.cpPuts c.core c.tenant ls ((List.range c.len).map fun i => (b.data.getD i 0, false)) v
          exec (.nxCommandCompletion cmd a) s =
            .next ((w.setNx cmd { c with answer := some b, counts := c.counter }).nxDone cmd 0).bump)))) ∧
  (∀ (m : NetPut), arrives (.inboundPut m) m.head true (decide (4096 < m.data.length)) ∧
    (m.data.length ≤ 4096 → ∀ n t, dealt m.head true n t →
      let same := fun (e : PutIn) => e.jobKey == m.head.jobKey && e.peer == m.head.peer && e.msg == m.head.msg
      let after := fun (u : State) (bad : Bool) =>
        let old := (u.eng.puts.find? same).getD ⟨m.head.jobKey, m.head.peer, m.head.msg, 0, false⟩
        let rest := u.eng.puts.filter fun e => !same e
        let w := { u with eng := { u.eng with puts := rest } }
        if old.got + 1 < m.total then { u with eng := { u.eng with puts := rest ++ [{ old with got := old.got + 1, bad := old.bad || bad }] } }
        else match m.counter with
          | some c => if old.bad || bad then w else w.countUp c
          | none => w
      ((∀ c, m.counter = some c → s.ownsCounter n c = true) →
        (∀ u, s.devWrite n m.addr m.data = .ok u () → exec (.inboundPut m) s = .next (answered (after u false) m.head (ack m.head 0 0))) ∧
        (s.devWrite n m.addr m.data = .prot → exec (.inboundPut m) s = .next (answered (after s true) m.head (ack m.head 0x10 0)))) ∧
      (∀ c, m.counter = some c → s.ownsCounter n c = false →
        exec (.inboundPut m) s = .next (answered (after s true) m.head (ack m.head 0x10 0))))) ∧
  (∀ (h : NetHead) addr len, arrives (.inboundGet h addr len) h false false ∧ ∀ n t, dealt h false n t →
    (∀ u bs, s.devRead n addr len = .ok u (bs, true) → exec (.inboundGet h addr len) s = .next (u.say (ack h 4 0))) ∧
    (∀ u bs, s.devRead n addr len = .ok u (bs, false) →
      let total := (bs.length + 4095) / 4096
      let w := u.says ((List.range total).map fun i =>
        .getData h.jobKey h.msg i total (addr + 4096 * i) ((bs.drop (4096 * i)).take 4096))
      exec (.inboundGet h addr len) s = .next (match w.eng.conns.find? fun e => e.2.peer == h.peer && e.2.jobKey == h.jobKey with
        | some e => w.modConn e.1 fun c => { c with served := c.served + bs.length }
        | none => w)) ∧
    (s.devRead n addr len = .prot → exec (.inboundGet h addr len) s = .next (s.say (ack h 0x10 0)))) ∧
  (∀ (m : NetSend), arrives (.inboundSend m) m.head false (decide (4096 < m.data.length)) ∧
    arrives (.inboundDeferrableSend m) m.head false (decide (4096 < m.data.length)) ∧
    (m.data.length ≤ 4096 → ∀ n t, dealt m.head false n t → s.tenant? n = some t →
      let b := t.mailbox m.mailbox
      let q := s.queue b.queue
      let mine := (m.head.jobKey, m.head.peer, m.head.msg)
      let vs := m.data.map fun b => ((b.setWidth 64, false) : RedVal)
      partly (.inboundSend m) m.head m.total vs ∧ partly (.inboundDeferrableSend m) m.head m.total vs ∧
      ∀ vd, all m.head m.total vs vd →
      let d : List Byte := if m.total ≤ 1 then m.data else vd.map fun v => v.1.setWidth 8
      (b.lnch = true ∨ b.admits m.head.jobKey m.source = false ∨ b.slotBytes < d.length + 64 ∨ s.ownsCounter n b.cnt = false →
        exec (.inboundSend m) s = .next (answered s m.head (ack m.head 0x10 0))) ∧
      (b.lnch = false → b.admits m.head.jobKey m.source = true → d.length + 64 ≤ b.slotBytes → s.ownsCounter n b.cnt = true →
        ∀ u w psn, s.devRead n b.slotAddr 8 = .ok u (w, psn) →
          ((leNat w).testBit 63 = true → exec (.inboundSend m) s = .next (u.say (.noCredit m.head.jobKey m.mailbox))) ∧
          ((leNat w).testBit 63 = false →
            ∀ v, u.devWrite n b.slotAddr (leBytes 8 (2 ^ 63 + d.length) ++ List.replicate 56 0 ++ d) = .ok v () →
            exec (.inboundSend m) s = .next (answered ((v.setMailbox n m.mailbox b.advance).countUp b.cnt) m.head (ack m.head 0 0)))) ∧
      (b.valid = true → b.lnch = true → b.admits m.head.jobKey m.source = false →
        exec (.inboundDeferrableSend m) s = .next (answered (s.count 15 false m.mailbox) m.head (ack m.head 0x10 0))) ∧
      (b.valid = true → b.lnch = true → b.admits m.head.jobKey m.source = true → d.length ≤ b.slotBytes → s.ownsCounter n b.cnt = true →
        (mine ∉ s.eng.paid → b.filled s.ns < 1000000 →
          exec (.inboundDeferrableSend m) s = .next (answered (s.count 15 false m.mailbox) m.head (ack m.head 0x10 0))) ∧
        (mine ∈ s.eng.paid ∨ 1000000 ≤ b.filled s.ns →
          let spent := if mine ∈ s.eng.paid then b else { b with tokens := b.filled s.ns - 1000000, stamp := s.ns }
          let w := if mine ∈ s.eng.paid then s else
            let v := s.setMailbox n m.mailbox spent
            { v with eng := { v.eng with paid := v.eng.paid ++ [mine] } }
          (b.head ∈ b.busy ∨ q.full = true → exec (.inboundDeferrableSend m) s = .next (w.say (.noCredit m.head.jobKey m.mailbox))) ∧
          (b.head ∉ b.busy → q.full = false → q.devq = true → q.tenant = n → ∀ u v, w.devWrite n b.slotAddr d = .ok u () →
            u.devWrite n (q.base + 64 * (q.pi % 2 ^ q.log2n)) (wordsBytes (packetWords q.pi 0 (word b.slotAddr) 0)) = .ok v () →
            let z := (((v.setMailbox n m.mailbox { spent.advance with busy := insertNat b.head b.busy }).modQueue b.queue fun q =>
                { q.kicked q.pi with
                  pi := (q.pi + 1) % 2 ^ 17
                  kids := q.kids.del q.pi
                  mails := q.mails.put q.pi (m.mailbox, b.head) }).kickSeen b.queue).countUp b.cnt
            exec (.inboundDeferrableSend m) s = .next (answered
              { z with eng := { z.eng with paid := z.eng.paid.filter fun e => !(e == mine) } } m.head (ack m.head 0 0))))))) ∧
  (∀ (m : NetAtomic), arrives (.inboundAtomic m) m.head false false ∧ ∀ n t u pa len kind rest,
      let k := if m.b32 then 4 else 8
      dealt m.head false n t → m.addr % k = 0 → m.op.toNat ≤ 8 →
      s.devMap n m.addr k .rmw = .ok u ((pa, len, kind) :: rest) →
      (kind = 3 ∨ kind = 4 → exec (.inboundAtomic m) s = .next (answered u m.head (ack m.head 0x10 0))) ∧
      (kind ≠ 3 → kind ≠ 4 → u.physPsn pa k = true → exec (.inboundAtomic m) s = .next (answered u m.head (ack m.head 4 0))) ∧
      (kind ≠ 3 → kind ≠ 4 → u.physPsn pa k = false →
        let v := u.recallDirty pa k
        let old := v.mem.bytes.readNat pa k
        let x := m.operand.toNat % 2 ^ (8 * k)
        let new := if m.op = 7 then (if old = m.compare.toNat % 2 ^ (8 * k) then x else old)
          else atomNew (nxAtomOp m.op.toNat) (8 * k) (m.signed && m.op != 8) old x
        exec (.inboundAtomic m) s = .next (answered (v.physWrite pa (leBytes k new) false) m.head (ack m.head 0 (word old))))) ∧
  (∀ (m : NetPartial),
    let size := m.values.length * (typeWidth m.type.toNat / 8)
    arrives (.inboundPartial m) m.head false (decide (4096 < size)) ∧ (size ≤ 4096 → ∀ n t, dealt m.head false n t →
    (2 ^ 24 < s.redStore + size → exec (.inboundPartial m) s = .next s) ∧
    (s.redStore + size ≤ 2 ^ 24 → partly (.inboundPartial m) m.head m.total m.values ∧ ∀ d, all m.head m.total m.values d →
      let w := answered s m.head (ack m.head 0 0)
      let m' := { m with values := d }
      (∀ r, s.red? n m.cid m.step = some r → exec (.inboundPartial m) s =
        .next ((w.putRed { r with held := r.held ++ [m'] }).redAdvance { r with held := r.held ++ [m'] })) ∧
      (s.red? n m.cid m.step = none → s.redOver n m.cid m.step = false → exec (.inboundPartial m) s =
        .next { w with eng := { w.eng with reds := w.eng.reds ++ [{ RedStep.named n m.cid m.step with held := [m'] }] } }) ∧
      (s.red? n m.cid m.step = none → s.redOver n m.cid m.step = true → ∀ h, s.cameFrom m.head = some h → exec (.inboundPartial m) s =
        .next (w.say (.abort h m.cid m.step (s.redLate n m.cid m.step))))))) ∧
  (∀ (h : NetHead) cid step code, arrives (.stepAbort h cid ⟨step, code⟩) h false false ∧ ∀ n t, dealt h false n t →
    let w := answered s h (ack h 0 0)
    let ends : BitVec 8 := if code = 0x12 then 0x12 else 0x11
    (∀ r, s.red? n cid step = some r → exec (.stepAbort h cid ⟨step, code⟩) s =
      .next (w.redAbort r ends ((r.peers.find? fun e => s.cameBy h e.2).map fun e => e.2))) ∧
    (s.red? n cid step = none → s.redOver n cid step = true → exec (.stepAbort h cid ⟨step, code⟩) s = .next w) ∧
    (s.red? n cid step = none → s.redOver n cid step = false →
      exec (.stepAbort h cid ⟨step, code⟩) s = .next { w with eng := { w.eng with
        reds := w.eng.reds ++ [{ RedStep.named n cid step with ended := some ends }] } }))

/-- R329, R330, R417, R418: a timeout on a live path counts and sends again on a live path, and the third in a row makes the path dead; a dead path
whose port is up is probed, and an acknowledged probe revives it; a connection without a live path for 500 ms fails, and its commands are gone
from Pontil; a port whose link goes down is marked down, and no other port; the kernel opens connections, whose paths live where their ports are up and enabled, and closes them, which ends their commands. That a path is up where its port is up and
enabled is the model's choice (log entry 14). -/
def Obligations.PathConnectionSteps : Prop := ∀ (s : State) (h : Nat),
  (∀ c path, s.conn? h = some c → path ∈ c.live →
    let n := (c.timeouts.get? path).getD 0 + 1
    ∃ t, exec (.retransmissionTimeout h path) s = .next t ∧ t.mem = s.mem ∧ (∀ k, k ≠ h → t.conn? k = s.conn? k) ∧
      ∃ d, t.conn? h = some d ∧ d.timeouts.get? path = some n ∧ (d.live = [] → d.retx = c.retx ∧ t.outbox = s.outbox) ∧
        (d.live ≠ [] → d.retx = sat32 c.retx ∧ ∃ p ∈ d.live, t.outbox = .retransmit h p :: s.outbox) ∧
        (n < 3 → d.live = c.live ∧ d.dead = c.dead) ∧
        (3 ≤ n → d.live = c.live.filter (fun p => p != path) ∧ ((∀ p ∈ c.live, p = path) → d.dead = some s.ns) ∧
          ((∃ p ∈ c.live, p ≠ path) → d.dead = c.dead))) ∧
  (∀ c path, s.conn? h = some c → path < c.paths → path ∉ c.live → s.pathUp h path = true →
    exec (.pathProbe h path) s = .next (s.say (.probe h path)) ∧
    ∃ t, exec (.pathRevival h path) s = .next t ∧ t.mem = s.mem ∧ ∃ d, t.conn? h = some d ∧ path ∈ d.live ∧ d.dead = none ∧
      d.failed = false ∧ d.timeouts.get? path = none ∧ d.paths = c.paths ∧ ∀ p ∈ c.live, p ∈ d.live) ∧
  (∀ c d, s.conn? h = some c → c.dead = some d → c.failed = false →
    (s.ns < d + 500000000 → exec (.pathGraceExpiry h) s = .next s) ∧
    (d + 500000000 ≤ s.ns → ∃ t, exec (.pathGraceExpiry h) s = .next t ∧ (∃ e, t.conn? h = some e ∧ e.failed = true) ∧
      ∀ id n, s.nx? id = some n → n.opc ≠ 0xDD → n.handle = h → n.kept = none →
        t.nx? id = if s.away n.team then some { n with kept := some 0x11 } else none)) ∧
  (∀ port, port < 8 → ∃ t, exec (.linkDown port) s = .next t ∧ t.mem = s.mem ∧ t.eng.portsUp.getLsbD port = false ∧
    ∀ p, p ≠ port → t.eng.portsUp.getLsbD p = s.eng.portsUp.getLsbD p) ∧
  (∀ tenant peer key paths o, s.conn? h = none → s.tenant? tenant = some o → h < 2 ^ 16 → 1 ≤ paths → paths ≤ 256 →
    ∃ t, exec (.connectionOpen h tenant peer key paths) s = .next t ∧ t.mem = s.mem ∧ (∀ k, k ≠ h → t.conn? k = s.conn? k) ∧
      (∃ d, t.conn? h = some d ∧ d.tenant = tenant ∧ d.peer = peer ∧ d.jobKey = key ∧ d.paths = paths ∧ d.live = (List.range paths).filter (s.pathUp h) ∧
        d.failed = false) ∧ ∃ p, t.tenant? tenant = some p ∧ key ∈ p.jobKeys) ∧
  (∀ c, s.conn? h = some c → ∃ t, exec (.connectionClose h) s = .next t ∧ t.conn? h = none ∧
    ∀ id n, s.nx? id = some n → n.opc ≠ 0xDD → n.handle = h → n.kept = none →
      t.nx? id = if s.away n.team then some { n with kept := some 0x11 } else none)

/-- R190, R191, R308 to R310, R403 to R405: a migration takes its request, sets MIG in the entries that map the frame, copies a line a
step, whose host copy is recalled first, switches with its poison, rewrites an entry a step, and then frees the old frame; an eviction
keeps the frame's bytes compressed, with the key slot that encrypted them, and gives its entries CMP; a restore puts them into a frame
of the reserve, one where PLACE would have it if there is one, as the entry's key slot shows them; a splinter sets SPL and, in a later
step, puts a table of 512 entries, with the change that was asked for, in the place of the large one; a scrub poisons the 32-byte sector
of an error that the code cannot correct. Every other byte of memory stays, where no other migration moves a frame of the tables. The
steps of a migration are the model's choice (log 34). -/
def Obligations.FrameEngineSteps : Prop := ∀ (s : State),
  let alone := fun (u : State) (loc : Nat) => loc % 8 = 0 ∧ u.twins loc 8 = []
  (∀ tenant frame target pages, s.takenFrom tenant frame = false → s.takenFrom tenant target = false → pages ≠ [] →
    (∀ m ∈ s.mem.migs, m.frame ≠ frame ∧ m.target ≠ target) → ∃ t, exec (.frameMigration tenant frame target pages) s = .next t ∧
      t.mem.migs = s.mem.migs ++ [⟨tenant, frame, target, pages, none⟩] ∧ t.mem.bytes = s.mem.bytes) ∧
  (∀ (m : Migration) tenant target pages, s.mem.migs.find? (fun k => k.frame == m.frame) = some m →
    let step := exec (.frameMigration tenant m.frame target pages) s
    let ls := s.leavesOf m.tenant m.pages fun l => l.covers m.frame
    (m.copied = none → ls.length = m.pages.length → (∀ l ∈ ls, l.mapsFrame m.frame = true ∧ alone s l.loc) → ∃ t,
      step = .next t ∧ (∀ l ∈ ls, t.physWord l.loc = s.physWord l.loc ||| word (2 ^ 53)) ∧ { m with copied := some 0 } ∈ t.mem.migs ∧
      ∀ a, (∀ l ∈ ls, a / 8 * 8 ≠ l.loc) → t.mem.bytes.read a = s.mem.bytes.read a) ∧
    (∀ n, m.copied = some n → n < 64 → ∃ t, step = .next t ∧ { m with copied := some (n + 1) } ∈ t.mem.migs ∧
      t.mem.lent.get? (64 * m.frame + n) = none ∧
      (∀ i, i < 64 → t.mem.bytes.read (4096 * m.target + 64 * n + i) = s.mem.bytes.read (4096 * m.frame + 64 * n + i)) ∧
      ∀ a, a < 4096 * m.target + 64 * n ∨ 4096 * m.target + 64 * n + 64 ≤ a → t.mem.bytes.read a = s.mem.bytes.read a) ∧
    (m.copied = some 64 →
      let u := s.viewAs m.frame ((ls.head?.map Leaf.key).getD 0)
      ∃ t, step = .next t ∧ { m with copied := some 65 } ∈ t.mem.migs ∧
        (∀ i, i < 4096 → t.mem.bytes.read (4096 * m.target + i) = u.mem.bytes.read (4096 * m.frame + i)) ∧
        (∀ a, a / 4096 ≠ m.target → t.mem.bytes.read a = u.mem.bytes.read a) ∧
        (m.target ≠ m.frame → ∀ w, w < 512 → (512 * m.target + w ∈ t.mem.psn ↔ 512 * m.frame + w ∈ s.mem.psn)) ∧
        ∀ o, s.tenant? m.tenant = some o → ∃ p, t.tenant? m.tenant = some p ∧ m.target ∈ p.frames ∧ m.target ∉ p.reserve) ∧
    (∀ n va, m.copied = some n → 64 < n → m.pages[n - 65]? = some va → ∀ l, s.leavesOf m.tenant [va] (fun l => l.covers m.frame) = [l] →
      mapsMoving (s.physWord l.loc) m.frame = true → alone s l.loc → ∃ t, step = .next t ∧ { m with copied := some (n + 1) } ∈ t.mem.migs ∧
        t.physWord l.loc = withFrame (s.physWord l.loc) (4096 * m.target) false ∧
        ∀ a, a / 8 * 8 ≠ l.loc → t.mem.bytes.read a = s.mem.bytes.read a) ∧
    (∀ n, m.copied = some n → 64 < n → m.pages[n - 65]? = none → ∃ t, step = .next t ∧ (∀ k ∈ t.mem.migs, k.frame ≠ m.frame) ∧
      t.mem.bytes = (s.drainFrame m.frame).mem.bytes)) ∧
  (∀ tenant pages cold l rest, s.leavesOf tenant pages Leaf.free = l :: rest → cold % 4096 = 0 → 2 ^ 40 ≤ cold →
    s.takenFrom tenant (cold / 4096) = false → s.mem.cmp.get? cold = none →
    let frame := bits l.e 51 12
    let locs := (s.leavesOf tenant pages fun l => l.mapsFrame frame).map fun l => l.loc
    let u := ((s.drainFrame frame).recallHost (4096 * frame) 4096).viewAs frame l.key
    s.takenFrom tenant frame = false → (∀ m ∈ s.mem.migs, m.frame ≠ frame ∧ m.target ≠ frame) →
    s.allLeaves tenant pages (fun l => l.mapsFrame frame) = true → (∀ loc ∈ locs, alone s loc) →
    ∃ t, exec (.capacityTierEviction tenant pages cold) s = .next t ∧
      t.mem.cmp.get? cold = some ⟨tenant, u.physRead (4096 * frame) 4096, wholeSectors (u.framePsn (4096 * frame)), locs, frame, l.key⟩ ∧
      (∀ loc ∈ locs, t.physWord loc = withFrame (u.physWord loc) cold true) ∧
      ∀ a, a / 8 * 8 ∉ locs → t.mem.bytes.read a = u.mem.bytes.read a) ∧
  (∀ pte va die c, bit (s.physWord pte) 52 = true →
    let cold := bits (s.physWord pte) 51 12 * 4096
    let here := placed (bits (s.physWord pte) 62 60) va c.old die
    s.mem.cmp.get? cold = some c → ∀ o, s.tenant? c.tenant = some o →
    (o.reserve = [] → exec (.cmpRestore ⟨pte, va, die⟩) s = .next s) ∧
    (o.reserve ≠ [] → ∃ f ∈ o.reserve, exec (.cmpRestore ⟨pte, va, die⟩) s = .next (s.restoreTo cold c f).bump ∧
      ((∃ k ∈ o.reserve, here k = true) → here f = true) ∧
      (c.bytes.length = 4096 → (∀ loc ∈ c.entries, alone s loc ∧ loc / 4096 ≠ f) →
        let key := (c.entries.head?.map fun loc => bits (s.physWord loc) 59 56).getD 0
        ∀ i, i < 4096 → (s.restoreTo cold c f).mem.bytes.read (4096 * f + i) = (c.shown cold key).getD i 0))) ∧
  (∀ tenant va bad change o l, s.tenant? tenant = some o → s.leafOf o va (fun l => l.shift != 12) = some l → alone s l.loc →
    (s.mem.spl.get? l.loc = none → l.shift ≠ 12 → ∃ t, exec (.splinter tenant va ⟨bad, change⟩) s = .next t ∧
      t.physWord l.loc = l.e ||| word (2 ^ 55) ∧ t.mem.spl.get? l.loc = some ⟨l.e, l.shift, tenant, va, bad, change⟩ ∧
      ∀ a, a / 8 * 8 ≠ l.loc → t.mem.bytes.read a = s.mem.bytes.read a) ∧
    (∀ p n q rest, s.mem.spl.get? l.loc = some p → s.physWord l.loc = p.entry ||| word (2 ^ 55) → s.tenant? p.tenant = some n →
      n.tablePool = q :: rest → p.bad = false → l.loc / 4096 ≠ q → (∀ i, i < 512 → alone s (4096 * q + 8 * i)) →
      ∃ t, exec (.splinter tenant va ⟨bad, change⟩) s = .next t ∧ t.physWord l.loc = word (4096 * q + 1) ∧ t.mem.spl.get? l.loc = none ∧
        (∀ i, i < 512 → t.physWord (4096 * q + 8 * i) = changedEntry (splinterEntry p.entry p.shift i) p.change i) ∧
        ∀ a, a / 8 * 8 ≠ l.loc → a / 4096 ≠ q → t.mem.bytes.read a = s.mem.bytes.read a)) ∧
  (∀ pa, exec (.patrolScrub pa .clean) s = .next s ∧
    (∃ t, exec (.patrolScrub pa .corrected) s = .next t ∧ t.mem.bytes = s.mem.bytes ∧ t.mem.psn = s.mem.psn) ∧
    (pa < 0x30000000000 → ∃ t, exec (.patrolScrub pa .uncorrectable) s = .next t ∧ t.mem.bytes = s.mem.bytes ∧
      ∀ g, g ∈ t.mem.psn ↔ g ∈ s.mem.psn ∨ g / 4 = pa / 32))

/-- R306, R307, R310, R413, R205, R315, R316: what an access of the host answers and leaves where the lend window serves it: a read
gives the page's bytes, a write stores them in its page, or in the overflow area while the reserve is empty, and an atomic gives the
old value and stores the new one; one that is not served answers as poisoned, as done, or with Completer Abort. A drain supplies a
frame for a page that the overflow holds; an aligned 8-byte write of a wake register wakes a key within the quota, and what else
reaches the wake window has no effect and reads as zero. What an access that is not served answers, and the line that an atomic recalls
before it, are the model's choice (log 25). -/
def Obligations.HostAccessSteps : Prop := ∀ (s : State) (port hpa : Nat),
  (∀ lost u, s.hostAt port (hpa / 64 * 64) .read = .refused u →
    exec (.hostMemrd port ⟨hpa, lost⟩) s = .next (u.say (.memData port hpa [] true)).bump) ∧
  (∀ lost u n t tsa, s.hostAt port (hpa / 64 * 64) .read = .ok u n t tsa →
    let v := if lost then u.lineLost t tsa else u
    let r := v.hostRead t tsa 64
    exec (.hostMemrd port ⟨hpa, lost⟩) s = .next ((v.lend t tsa).say (.memData port hpa (if r.2 then [] else r.1) r.2)).bump) ∧
  (∀ data poison,
    let bs := data.take (64 - hpa % 64)
    (∀ u, s.hostAt port hpa .write = .refused u → exec (.hostMemwr port hpa data poison) s = .next (u.say (.memDone port hpa)).bump) ∧
    ∀ u n t tsa, s.hostAt port hpa .write = .ok u n t tsa →
      (∀ v pa, u.hostPage n t tsa = some (v, pa) →
        let apart := fun a => ∀ t ∈ v.twins pa bs.length, a < t.2.1 ∨ t.2.1 + t.2.2 ≤ a
        ∃ w, exec (.hostMemwr port hpa data poison) s = .next w ∧
        (∀ i, i < bs.length → apart (pa + i) → w.mem.bytes.read (pa + i) = bs.getD i 0) ∧
        (∀ a, a < pa ∨ pa + bs.length ≤ a → apart a → w.mem.bytes.read a = v.mem.bytes.read a) ∧
        (v.twins pa bs.length = [] → ∀ g, g ∈ w.mem.psn ↔ if poison = true then g ∈ v.mem.psn ∨ g / 4 ∈ sectorsOf pa bs.length
          else g ∈ v.mem.psn ∧ g / 4 ∉ wholeOf pa bs.length)) ∧
      (u.hostPage n t tsa = none → u.mem.overflow.length + bs.length ≤ 2 ^ 24 → ∃ w,
        exec (.hostMemwr port hpa data poison) s = .next w ∧ w.mem.bytes = u.mem.bytes ∧
        (∀ i, i < bs.length → w.mem.overflow.get? (tsa + i) = some (bs.getD i 0)) ∧
        ∀ a, a < tsa ∨ tsa + bs.length ≤ a → w.mem.overflow.get? a = u.mem.overflow.get? a)) ∧
  (∀ op width operand compare,
    (hpa % width ≠ 0 → exec (.hostAtomicop port hpa op width operand compare) s = .next (s.say (.completerAbort port hpa))) ∧
    (width ∈ atomicWidths op → hpa % width = 0 → ∀ u n t tsa, s.hostAt port hpa .rmw = .ok u n t tsa →
      let v := u.recallTsa t tsa width
      let r := v.hostRead t tsa width
      let old := leNat r.1
      let m := 2 ^ (8 * width)
      let new := match op with
        | .fetchAdd => (old + operand) % m
        | .swap => operand % m
        | .cas => if old = compare % m then operand % m else old
      (r.2 = true → exec (.hostAtomicop port hpa op width operand compare) s = .next (v.say (.completerAbort port hpa)).bump) ∧
      (r.2 = false → exec (.hostAtomicop port hpa op width operand compare) s =
        .next ((((v.say (.backInvalidate (tsa / 64 * 64))).hostWrite port n t tsa (leBytes width new) false).say
          (.atomicDone port hpa old)).bump)))) ∧
  (∀ page frame n t, s.hostTenant = some (n, t) → (∃ e ∈ s.mem.overflow, e.1 / 4096 = page) →
    (∀ l, s.walk t.hostTable (4096 * page) = some l → l.cmp = false →
      exec (.hostOverflowDrain page frame) s = .next (s.drainPage page (l.pa (4096 * page) / 4096 * 4096)).bump) ∧
    (s.walk t.hostTable (4096 * page) = none → s.takenFrom n frame = false → ∀ u l, s.backWith n t (4096 * page) frame = some u →
      u.walk t.hostTable (4096 * page) = some l →
      exec (.hostOverflowDrain page frame) s = .next (u.drainPage page (l.pa (4096 * page) / 4096 * 4096)).bump)) ∧
  (∀ offset size value, port < 2 → 0x8000 ≤ offset →
    exec (.wakeWindowWrite port offset (.read size)) s = .next (s.say (.barData port offset 0)) ∧
    (size ≠ 8 ∨ offset % 8 ≠ 0 ∨ offset < 0x10000 ∨ 0x10200 ≤ offset → exec (.wakeWindowWrite port offset (.write size value)) s = .next s)) ∧
  (∀ offset value n t, port < 2 → 0x10000 ≤ offset → offset < 0x10200 → offset % 8 = 0 → s.hostTenant = some (n, t) →
    let key := bits value 47 0
    (t.quota ≤ key → exec (.wakeWindowWrite port offset (.write 8 value)) s = .next (s.count 13 false port)) ∧
    (key < t.quota → exec (.wakeWindowWrite port offset (.write 8 value)) s =
      .next ((s.recallLine n key).wake n key (bits value 63 48) 0).1.bump))

/-- R318, R319, R414, R429: a Translation Completion for an outstanding request enters the ATC, or is kept as its answer; an
Invalidation Request removes what matches at once, and its completion follows the buffered stores; a page request ends with its
response, or with Protection 1 s after it was sent. -/
def Obligations.AtsPageRequestSteps : Prop := ∀ (s : State) (pasid page : Nat),
  (∀ die r, r ∈ s.mem.atsReqs → r.die = die → r.pasid = pasid → r.page = page → r.answer = none →
    (∀ hpa rd wr, (s.mem.atc.filter fun k => k.die == die).length < 4096 → ∃ t,
      exec (.atsTranslationCompletion die pasid page (.done hpa rd wr)) s = .next t ∧ t.mem.bytes = s.mem.bytes ∧
      t.mem.atc = s.mem.atc ++ [⟨die, pasid, page, hpa, rd, wr⟩] ∧
      ∀ q ∈ t.mem.atsReqs, q ∈ s.mem.atsReqs ∧ ¬ (q.die = die ∧ q.pasid = pasid ∧ q.page = page ∧ q.answer = none)) ∧
    (∀ a, (∀ hpa rd wr, a ≠ .done hpa rd wr) → ∃ t, exec (.atsTranslationCompletion die pasid page a) s = .next t ∧
      t.mem.atc = s.mem.atc ∧ t.mem.atsReqs = s.mem.atsReqs.map fun q =>
        if q.die = die ∧ q.pasid = pasid ∧ q.page = page ∧ q.answer = none then { q with answer := some a } else q)) ∧
  (∀ all, ∃ t, exec (.atsInvalidationRequest pasid page all) s = .next t ∧ t.mem.bytes = s.mem.bytes ∧
    ∀ e, e ∈ t.mem.atc ↔ e ∈ s.mem.atc ∧ ¬ ((all = true ∨ e.pasid = pasid) ∧ e.page = page)) ∧
  exec (.invalidationCompletion pasid page) s = .next ((s.work.groups.foldl (fun (s : State) (g : Nat × Group) =>
    (List.range 32).foldl (fun s l => s.drainWcb g.1 l) s) s).say (.invalidationDone pasid page)).bump ∧
  (∀ q ∈ s.mem.pageReqs, q.pasid = pasid → q.page = page →
    (∀ ok, exec (.prgResponse pasid page ok) s = .next (s.settlePage pasid page (if ok then 0 else 1)).bump) ∧
    (q.sent + 1000000000 ≤ s.ns → ∃ place,
      exec (.pageRequestTimeout pasid page) s = .next ((s.settlePage pasid page 1).count 14 false place).bump)) ∧
  ((∀ q ∈ s.mem.pageReqs, q.pasid = pasid → q.page = page → s.ns < q.sent + 1000000000) →
    exec (.pageRequestTimeout pasid page) s = .next s)

/-- R391 to R395, R401, R368, R370, R177, R321: the commands of the state window on a partition, with status 0 where they have
ended, 1 where they go on and 2 where they are refused; the halt of a partition whose cores have drained leaves it halted; a
quantum that expires halts its partition; a withdrawn core returns to service; the debug commands queue the step of a stopped lane and resume a
team; a lane whose request is done pushes its reply. What a halt waits for, the state that a step waits in and which commands wait for
their partition are the model's reading (log 42, 43). -/
def Obligations.PartitionCommands : Prop := ∀ (s : State),
  (∀ die benches shadow ns, s.partition? die benches = none →
    exec (.haltPartition die benches) s = .next (s.status 2) ∧ exec (.haltAndSwapOut die benches shadow) s = .next (s.status 2) ∧
    exec (.swapInAndResume die benches shadow) s = .next (s.status 2) ∧ exec (.resumeInPlace die benches) s = .next (s.status 2) ∧
    exec (.setQuantum die benches ns) s = .next (s.status 2)) ∧
  (∀ die benches i p, s.partition? die benches = some (i, p) →
    (p.halted = true → exec (.haltPartition die benches) s = .next (s.status 0)) ∧
    (p.halted = false → s.drained p.cores = false ∨ s.jobsWait p.cores = true → ∃ t, exec (.haltPartition die benches) s = .next t ∧
      t.admin.cmdStatus = 1 ∧ t.admin.partitions[i]? = some { p with halting := true, told := true } ∧ t.mem = s.mem ∧ t.work = s.work) ∧
    (p.halted = false → s.drained p.cores = true → s.jobsWait p.cores = false → p.swap = none →
      ∃ t, exec (.haltPartition die benches) s = .next t ∧ t.admin.cmdStatus = 0 ∧
      t.admin.partitions[i]? = some { p with halting := false, halted := true, haltedAt := s.ns, told := false }) ∧
    (∀ shadow,
      let slot := shadowSlot die shadow
      (shadow < 2 → s.imageIn slot = none → p.swap = none → (∀ q ∈ s.admin.partitions, q.swap ≠ some slot) →
        exec (.haltAndSwapOut die benches shadow) s = .next (((s.status 1).modPartition i fun p =>
          { p with halting := !p.halted, swap := some slot, told := true }).haltTry i).bump) ∧
      (2 ≤ shadow ∨ (s.imageIn slot).isSome = true ∨ p.swap ≠ none ∨ (∃ q ∈ s.admin.partitions, q.swap = some slot) →
        exec (.haltAndSwapOut die benches shadow) s = .next (s.status 2))) ∧
    (∀ shadow id m, shadow < 2 → s.imageIn (shadowSlot die shadow) = some (id, m) → m.count = p.count →
      (∀ e ∈ s.work.teams, e.2.core ∉ p.cores) → die ∉ s.work.fenced → p.halting = false → p.swap = none →
      m.digest = s.imageDigest id m →
      exec (.swapInAndResume die benches shadow) s = .next ((s.restore i p id m).status 0).bump) ∧
    exec (.resumeInPlace die benches) s = .next (((s.modPartition i fun p =>
      { p with halted := false, halting := false, swap := none, start := s.ns, told := false }).late p.cores).status 0).bump ∧
    (∀ ns, exec (.setQuantum die benches ns) s = .next ((s.modPartition i fun p =>
      { p with quantum := ns % 2 ^ 32, start := s.ns }).status 0)) ∧
    (p.quantum ≠ 0 → p.halted = false → p.halting = false →
      (s.ns < p.start + p.quantum → exec (.quantumExpiry i) s = .next s) ∧
      (p.start + p.quantum ≤ s.ns →
        exec (.quantumExpiry i) s = .next ((s.modPartition i fun p => { p with halting := true }).haltTry i).bump)) ∧
    (p.halting = true → p.halted = false → p.swap = none → s.drained p.cores = true → s.jobsWait p.cores = false →
      ∃ t, exec (.partitionHalt i) s = .next t ∧ t.admin.cmdStatus = (if p.told then 0 else s.admin.cmdStatus) ∧
      t.admin.partitions[i]? = some { p with halting := false, halted := true, haltedAt := s.ns, told := false }) ∧
    (p.halting = true → p.halted = false → s.drained p.cores = false ∨ s.jobsWait p.cores = true →
      exec (.partitionHalt i) s = .next s.bump)) ∧
  (∀ core, core < 512 → ∃ t, exec (.returnWithdrawnCore core) s = .next t ∧ t.admin.cmdStatus = 0 ∧ t.mem = s.mem ∧
    t.core core = { s.core core with withdrawn := false } ∧ ∀ c, c ≠ core → t.core c = s.core c) ∧
  (∀ core, 512 ≤ core → exec (.returnWithdrawnCore core) s = .next (s.status 2)) ∧
  (∀ cmd : BitVec 8, cmd = 0 ∨ 0x0B < cmd → exec (.unlistedCommand cmd) s = .next (s.status 2)) ∧
  (∀ core slot lane all g, onCore core = true → s.group? (groupKey core slot) = some g → lane < 32 →
    (g.lane lane).stopped = true → g.lanes.length = 32 →
    let m := g.stepLanes lane all
    m ≠ 0 → exec (.debugStep core slot lane all) s = .next { s.status 1 with work := { s.work with
      steps := s.work.steps ++ [(groupKey core slot, m)] } }) ∧
  (∀ core slot tk t l, onCore core = true → (s.teamsOn core)[slot]? = some (tk, t, l) → ∃ u,
    exec (.debugResume core slot) s = .next u ∧ u.admin.cmdStatus = 0 ∧ u.mem = s.mem ∧
    ∀ key g, s.group? key = some g → g.lanes.length = 32 → g.team = tk → ∀ k, k < 32 →
      (u.laneIn key k).park.debug = false ∧ (u.laneIn key k).pc = (g.lane k).pc ∧
      ((g.lane k).status = .parked → (g.lane k).park.page = false → (g.lane k).park.sysc = false →
        (u.laneIn key k).status = .active)) ∧
  (∀ core slot, onCore core = true → exec (.syscReply core slot) s = .next (s.replies (groupKey core slot)).bump)

/-- R304, R326, R324, R322, R325, R328, R393: a tenant is created with its context, its keys and what it owns, where its number is
free and the limit allows it; its destruction zeroes its keys, removes its context and disables its queues, and changes nothing of
memory outside its frames. A configuration record is applied only if it is signed with the vendor key or the enrolled operator key
and its sequence rises; a firmware image only if it is signed and its version is not below the minimum; an attestation report
advances the signature index; a debug token opens a session only if it is signed with the key that the tenant registered, names the
device and the tenant, has not expired and is allowed. An image leaves its shadow slot where it fits the quota. A
script is bound only if it verifies. The frames, the bytes and the digest of an image that moves are free values (log 45). -/
def Obligations.TrustedBaseSteps : Prop := ∀ (s : State),
  (∀ n (cfg : TenantConfig), n < 65536 → s.tenant? n = none → s.sec.tenants.length < s.sec.ezwell.tenantLimit →
    (cfg.host = true → s.hostTenant = none) → ∃ t o, exec (.tenantCreation n cfg) s = .next t ∧ t.mem = s.mem ∧
      t.tenant? n = some o ∧ o.host = cfg.host ∧ o.root = cfg.root ∧ o.quota = cfg.quota ∧ o.frames = cfg.frames ∧
      o.reserve = cfg.reserve ∧ o.table = cfg.table ∧ o.tablePool = cfg.tablePool ∧ o.debugKey = cfg.debugKey ∧ o.session = none ∧
      o.mailboxes = [] ∧ (∀ k, k ≠ n → t.tenant? k = s.tenant? k) ∧ (∃ ks, t.sec.keys.get? n = some ks ∧ ks.length = 16) ∧
      (∀ q ∈ cfg.queues, (t.queue q).tenant = n) ∧ ∀ c ∈ cfg.counters, (t.counter c).owner = some n) ∧
  (∀ n (cfg : TenantConfig), 65536 ≤ n ∨ (s.tenant? n).isSome ∨ s.sec.ezwell.tenantLimit ≤ s.sec.tenants.length ∨
    (cfg.host = true ∧ s.hostTenant.isSome) → exec (.tenantCreation n cfg) s = .next (s.say (.refused n))) ∧
  (∀ n o, s.tenant? n = some o → ∃ t, exec (.tenantDestruction n) s = .next t ∧ t.tenant? n = none ∧
    t.sec.keys.get? n = some (List.replicate 16 0) ∧ (∀ k, k ≠ n → t.tenant? k = s.tenant? k) ∧
    (∀ e ∈ t.work.queues, e.2.tenant = n → e.2.en = false) ∧
    ∀ a, a / 4096 ∉ o.frames → t.mem.bytes.read a = s.mem.bytes.read a) ∧
  (∀ r : ConfigRecord,
    let z := s.sec.ezwell
    (r.signer = Config.vendorKey ∨ z.operatorKey = some r.signer → z.cfgSeq < r.seq → ∃ t, exec (.configurationRecord r) s = .next t ∧ t.mem = s.mem ∧ t.work = s.work ∧
      t.sec.ezwell.cfgSeq = r.seq ∧ t.sec.ezwell.minFirmware = r.minFirmware ∧ t.sec.ezwell.minKernel = r.minKernel ∧
      t.sec.ezwell.minScript = r.minScript ∧ t.sec.ezwell.operatorKey = (if r.enrol.isSome then r.enrol else z.operatorKey) ∧
      t.sec.ezwell.ports = r.ports ∧ t.sec.ezwell.tenantLimit = r.tenantLimit ∧
      t.sec.ezwell.debugAllowed = r.debugAllowed ∧ t.sec.ezwell.fwDigest = z.fwDigest) ∧
    ((r.signer ≠ Config.vendorKey ∧ z.operatorKey ≠ some r.signer) ∨ r.seq ≤ z.cfgSeq → exec (.configurationRecord r) s = .next (s.say (.refused r.seq)))) ∧
  (∀ i : SignedImage,
    (i.signed = true → s.sec.ezwell.minFirmware ≤ i.version → exec (.pldmFirmwareUpdate i) s =
      .next { s with sec := { s.sec with ezwell := { s.sec.ezwell with fwDigest := i.digest } } }) ∧
    (i.signed = false ∨ i.version < s.sec.ezwell.minFirmware → exec (.pldmFirmwareUpdate i) s = .next (s.say (.refused i.version)))) ∧
  (∀ n o nonce addr, s.tenant? n = some o → ∃ t, exec (.attestationReport n nonce addr) s = .next t ∧
    (s.sec.ezwell.xmss < 2 ^ 20 → t.sec.ezwell.xmss = s.sec.ezwell.xmss + 1 ∧ t.sec.ezwell.subkey = s.sec.ezwell.subkey) ∧
    (2 ^ 20 ≤ s.sec.ezwell.xmss → t.sec.ezwell.xmss = 1 ∧ t.sec.ezwell.subkey = s.sec.ezwell.subkey + 1)) ∧
  (∀ n o (k : DebugToken), s.tenant? n = some o →
    (k.signer = o.debugKey → k.thisDevice = true → k.tenant = n → s.ns < k.expiry → s.sec.ezwell.debugAllowed = true →
      exec (.debugConsentToken n k) s = .next (s.modTenant n fun t => { t with session := some ⟨k.modes, k.expiry⟩ })) ∧
    (k.signer ≠ o.debugKey ∨ k.thisDevice = false ∨ k.tenant ≠ n ∨ k.expiry ≤ s.ns ∨ s.sec.ezwell.debugAllowed = false →
      exec (.debugConsentToken n k) s = .next (s.say (.refused n)))) ∧
  (∀ die shadow, die < 8 → shadow < 2 →
    let slot := shadowSlot die shadow
    let moved := fun (u : State) (id : Nat) (f : Image → Image) =>
      Host.Outcome.next ({ u with admin := { u.admin with shadows := u.admin.shadows.upd id f } } : State).bump
    (∀ id m o, s.imageIn slot = some (id, m) → s.tenant? m.tenant = some o → ∃ frame,
      let n := s.imagePages id m
      let seed := 2 ^ 8 + s.serial
      let u := (s.physWrite (4096 * frame) (cipherBytes seed (s.imageBytes id m)) false).fresh
      let fits := s.quotaUsed m.tenant o + 4096 * n ≤ o.quota ∧ s.imageFits frame n = true
      (fits → exec (.shadowImageMove die shadow true) s = moved u id fun m => { m with slot := none, away := some (frame, seed) }) ∧
      (¬ fits → exec (.shadowImageMove die shadow true) s = .next s.bump)) ∧
    (s.imageIn slot = none → (∀ e ∈ s.admin.shadows, e.2.slot.isSome = true) → exec (.shadowImageMove die shadow false) s = .next s) ∧
    (s.imageIn slot = none → (∃ e ∈ s.admin.shadows, e.2.slot = none) → ∃ id m d, (id, m) ∈ s.admin.shadows ∧ m.slot = none ∧
      exec (.shadowImageMove die shadow false) s = moved s id (fun m => { m with slot := some slot, away := none, digest := d }) ∧
      ((∀ frame seed, m.away = some (frame, seed) → let n := s.imageBytes id m
        s.physRead (4096 * frame) n = cipherBytes seed n ∧ s.physPsn (4096 * frame) n = false) → d = m.digest))) ∧
  (∀ q (i : ScriptImage), q < 4096 →
    (i.signed = true → s.sec.ezwell.minScript ≤ i.version → scriptOk i.code = true → ∃ t, exec (.scriptBinding q i) s = .next t ∧
      t.queue q = { s.queue q with script := i.addr, code := i.code } ∧ (∀ k, k ≠ q → t.queue k = s.queue k) ∧ t.mem = s.mem) ∧
    (i.signed = false ∨ i.version < s.sec.ezwell.minScript ∨ scriptOk i.code = false →
      exec (.scriptBinding q i) s = .next (s.modQueue q fun q => { q with en := false })))

/-- R311, R322, R313, R314, R21, R425, R426, R301: the boot chain sets Memory_Active only where both images verify, and measures them;
else the failing stage is reported, the stages numbered as log entry 13 chooses; a full reset, only with the
host quiesced on both ports, ends all compute and keeps the bytes of DRAM and the keys; a loss of power keeps only what Ezwell keeps;
throttling is counted and gives the die idle issue cycles; a compute die at its limit is reset, and a base die at its limit ends in a full reset without power; monitoring is answered; a port's decoder is programmed once its memory
is active; TIME steps forward at lock by an offset above 1 ms, is slewed otherwise, and runs free until then. What each reset keeps
beyond the rules is the model's reading (log 45). -/
def Obligations.PowerTimeSteps : Prop := ∀ (s : State),
  (∀ (fw kernel : SignedImage), s.sec.boot = .off →
    let z := s.sec.ezwell
    let good := fw.signed = true ∧ z.minFirmware ≤ fw.version
    let ok := good ∧ kernel.signed = true ∧ z.minKernel ≤ kernel.version
    ∃ t, exec (.powerGood fw kernel) s = .next t ∧ t.mem = s.mem ∧ t.work = s.work ∧ (∀ p ∈ t.sec.ports, p.memActive = true ↔ ok) ∧
      t.eng.portsUp = (if ok then 255 else s.eng.portsUp) ∧ t.sec.boot = (if ok then .active else .failed (if good then 2 else 1)) ∧
      t.sec.ezwell.fwDigest = (if good then fw.digest else z.fwDigest) ∧
      t.sec.ezwell.kernelDigest = (if ok then kernel.digest else z.kernelDigest)) ∧
  (∀ fw kernel, s.sec.boot ≠ .off → exec (.powerGood fw kernel) s = .next s) ∧
  (∀ q : BitVec 2, s.sec.ports.length = 2 →
    (q = 3 → ∃ t, exec (.fullResetRequest q) s = .next t ∧ t.work = State.reset.work ∧ t.eng = State.reset.eng ∧
      t.sec.keys = s.sec.keys ∧ t.sec.ezwell = s.sec.ezwell ∧ t.sec.boot = State.reset.sec.boot ∧
      ∀ a, a < 0x30000000000 → t.mem.bytes.read a = s.mem.bytes.read a) ∧
    (q ≠ 3 → ∃ t, exec (.fullResetRequest q) s = .next t ∧ t.work = s.work ∧ t.mem = s.mem ∧ t.eng = s.eng)) ∧
  (∃ t, exec .powerLoss s = .next t ∧ t.mem = State.reset.mem ∧ t.work = State.reset.work ∧ t.sec.ezwell = s.sec.ezwell ∧
    t.sec.tenants = State.reset.sec.tenants ∧ t.sec.keys = State.reset.sec.keys) ∧
  (∀ die, ∃ t, exec (.powerBudgetThrottle die) s = .next t ∧ exec (.thermalThrottle die) s = .next t ∧ t.mem = s.mem ∧
    t.work = s.work ∧ ∀ c, s.admin.census[11]? = some c → ∃ d, t.admin.census[11]? = some d ∧ d.trans = sat32 c.trans ∧
      d.last = c.last ∧ d.loc = die) ∧ (∀ die, ∃ t, exec (.powerBudgetThrottle die) s = .next t ∧ exec (.thermalThrottle die) s = .next t ∧
    ∃ n, t.admin.idle.get? die = some n ∧ s.cycle < n) ∧
  (∀ die, exec (.thermalShutdown die true) s = .next s.computeReset.bump ∧
    exec (.thermalShutdown die false) s = .next s.fullReset.powerLost) ∧
  (∃ readings, exec .pldmMonitoring s =
    .next (s.say (.management (readings ++ s.admin.census.map fun c => word (c.last * 2 ^ 32 + c.trans)))).bump) ∧
  (∀ port base, ∃ t, exec (.hdmDecoderProgramming port base) s = .next t ∧ t.mem = s.mem ∧ t.work = s.work ∧
    ∀ p, s.sec.ports[port]? = some p → t.sec.ports[port]? = some (if p.memActive then { p with base := base, programmed := true } else p)) ∧
  (∀ offset lock, ∃ t, exec (.timeSyncMessage offset lock) s = .next t ∧ t.mem = s.mem ∧ t.work = s.work ∧ t.cycle = s.cycle ∧
    t.locked = (s.locked || lock) ∧ s.time ≤ t.time ∧
    (¬ (lock = true ∧ s.locked = false ∧ 1000000 < offset) → t.time = s.time ∧
      t.slew = if lock = true ∨ s.locked = true then offset * 851968 else s.slew) ∧
    (lock = true → s.locked = false → 1000000 < offset → t.ns = s.ns + offset.toNat))

/-- R185, R192, R283, R399 to R402: a Gleden core's load of ordinary memory answers with its bytes and their poison and changes
nothing; a store changes its bytes and no other and makes them clean; an atomic answers with the old value and stores the new one; a
word of a queue's descriptor takes what software may write. A write of the command register runs the command, or is refused where
its benches form no partition; the head index of the containment queue drops the records before it; LAST and TRANS of a census
entry take what the trusted base writes; an aperture word of a halted partition takes the value; a wake wakes waiters of a tenant's key.
An address above the window, or one between hub SRAM and the window, which the spec does not describe, stops the access by name. Which
words of the window take a write, and that stop, are the model's reading (log 46, 47). -/
def Obligations.StateWindowAccess : Prop := ∀ (s : State),
  let told := fun (v : Word) => ({ s with admin := { s.admin with
    cmdReg := v, partitions := s.admin.partitions.map fun p => { p with told := false } } } : State)
  (∀ pa (size : BitVec 2) v,
    let n := 2 ^ size.toNat
    let old := s.mem.bytes.readNat pa n
    let apart := fun a => ∀ t ∈ s.twins pa n, a < t.2.1 ∨ t.2.1 + t.2.2 ≤ a
    let own := ∀ j, j < n → apart (pa + j)
    pa < 0x30000000000 →
    (∃ t, exec (.gledenCoreAccess pa size .load) s = .next t ∧
      t = (s.say (.gledenData pa (word old) (s.physPsn pa n))).bump ∧ t.mem = s.mem ∧ t.work = s.work) ∧
    (∃ t, exec (.gledenCoreAccess pa size (.store v)) s = .next t ∧ t.work = s.work ∧
      (own → t.mem.bytes.readNat pa n = v.toNat % 2 ^ (8 * n)) ∧
      (s.twins pa n = [] → t.physPsn pa n = (if size = 3 ∧ pa % 8 = 0 then false else s.physPsn pa n)) ∧
      ∀ a, a < pa ∨ pa + n ≤ a → apart a → t.mem.bytes.read a = s.mem.bytes.read a) ∧
    let old := (s.recallDirty pa n).mem.bytes.readNat pa n
    ∀ (op : BitVec 3) sgn c, ∃ t, exec (.gledenCoreAccess pa size (.atomic op sgn v c)) s = .next t ∧ t.work = s.work ∧
      (own → t.mem.bytes.readNat pa n = (if op = 7 then (if old = c.toNat % 2 ^ (8 * n) then v.toNat % 2 ^ (8 * n) else old)
        else atomNew (nxAtomOp op.toNat) (8 * n) sgn old (v.toNat % 2 ^ (8 * n))) % 2 ^ (8 * n))) ∧
  (∀ q i v, q < 4096 → i < 4 →
    let pa := Config.queueTable + 32 * q + 8 * i
    exec (.gledenCoreAccess pa 3 (.store v)) s = .next (s.modQueue q fun d => d.setWord i v).bump) ∧
  (∀ pa size tenant n, exec (.gledenCoreAccess pa size (.wake tenant n)) s = .next ((s.recallLine tenant pa).wake tenant pa n 0).1.bump) ∧
  (∀ pa size op, (∀ tenant n, op ≠ .wake tenant n) →
    0x40300000000 ≤ pa ∨ (0x30004000000 ≤ pa ∧ pa < 0x40000000000 ∧ s.hubWord (pa - pa % 8) = none) →
    exec (.gledenCoreAccess pa size op) s = .fault .undescribedRegister) ∧
  (∀ v session, s.admin.cmdHalf = none → 1 ≤ bits v 7 0 → bits v 7 0 ≤ 9 →
    s.partition? (bits v 10 8) (BitVec.ofNat 8 (bits v 18 11)) = none →
    exec (.stateWindowWrite 0x40200000000 v session) s = .next ((told v).status 2)) ∧
  (∀ v session, s.admin.cmdHalf = none → bits v 7 0 = 9 →
    (s.partition? (bits v 10 8) (BitVec.ofNat 8 (bits v 18 11))).isSome = true →
    exec (.stateWindowWrite 0x40200000000 v session) s =
      exec (.returnWithdrawnCore (bits v 63 32)) (told v)) ∧
  (∀ v session, s.admin.cmdHalf = none →
    bits v 7 0 = 6 ∧ (s.partition? (bits v 10 8) (BitVec.ofNat 8 (bits v 18 11))).isSome = true ∨ bits v 7 0 = 0x0B → ∃ t,
    exec (.stateWindowWrite 0x40200000000 v session) s = .next t ∧ t.admin.cmdHalf = some v ∧ t.admin.cmdStatus = 1 ∧ t.mem = s.mem) ∧
  (∀ c v session, s.admin.cmdHalf = some c → bits c 7 0 = 6 →
    exec (.stateWindowWrite 0x40200000000 v session) s =
      exec (.answerFault (bits c 63 32) (BitVec.ofNat 2 v.toNat)) { s with admin := { s.admin with cmdHalf := none } }) ∧
  (∀ v session, exec (.stateWindowWrite (0x40200000000 + killHeadOffset) v session) s = .next (s.readKills v.toNat)) ∧
  (∀ i v, i < 17 → exec (.stateWindowWrite (0x40200001000 + 32 * i) v true) s = .next s ∧
    ∃ t, exec (.stateWindowWrite (0x40200001000 + 32 * i) v false) s = .next t ∧ t.mem = s.mem ∧ t.work = s.work ∧
      (∀ k, k ≠ i → t.admin.census[k]? = s.admin.census[k]?) ∧
      ∀ c, s.admin.census[i]? = some c → t.admin.census[i]? = some { c with last := bits v 63 32, trans := bits v 31 0 }) ∧
  (∀ core w v session, core < 512 → w < 2 ^ 21 → s.apertureOpen core w session = true →
    exec (.stateWindowWrite (0x40000000000 + 2 ^ 24 * core + 8 * w) v session) s = .next (s.setApertureWord core w v).bump) ∧
  (∀ core w v session, core < 512 → w < 2 ^ 21 → s.apertureOpen core w session = false →
    exec (.stateWindowWrite (0x40000000000 + 2 ^ 24 * core + 8 * w) v session) s = .next s)

/-- R66, R283, R301, R304, R311, R313, R402: after a full reset CLOCK and TIME count from 0 and TIME is not locked; no queue is
enabled and none has a packet in progress; no launch, team, group, tenant, connection or fault record is there; the census is zero;
Memory_Active is clear; every byte of memory that nothing has written reads as log entry 1 says, and no turn is on the agenda (log entry 5). -/
def Obligations.ResetValues : Prop :=  let s := State.reset
  s.cycle = 0 ∧ s.time = 0 ∧ s.ns = 0 ∧ s.locked = false ∧ s.slew = 0 ∧ s.cur = .none ∧ s.agenda = [] ∧ s.outbox = [] ∧
  (∀ q, (s.queue q).en = false ∧ (s.queue q).devq = false ∧ (s.queue q).ke = false ∧ (s.queue q).bud = false ∧ (s.queue q).ci = 0 ∧
    (s.queue q).run = none) ∧
  (∀ k, s.launch? k = none ∧ s.team? k = none ∧ s.gang? k = none ∧ s.group? k = none ∧ s.op? k = none ∧ s.tenant? k = none ∧
    s.conn? k = none ∧ s.nx? k = none) ∧
  s.admin.faults = [] ∧ s.admin.partitions = [] ∧ s.admin.census.length = 32 ∧
  (∀ c ∈ s.admin.census, c.last = 0 ∧ c.trans = 0 ∧ c.time = 0 ∧ c.loc = 0) ∧
  (∀ p ∈ s.sec.ports, p.memActive = false ∧ p.programmed = false) ∧ s.sec.boot = .off ∧ s.work.fenced = [] ∧ s.memoryOk = true ∧
  ∀ a, s.mem.bytes.read a = unlistedByte ∧ a ∉ s.mem.psn

/-- R30, R31, R91, R289: a step performs the next turn of the agenda. A granted issue whose instruction may still go runs the
instruction that the slot at its PC decodes to, at the state in which the grant is recorded and the issue is in progress, then ends the
issue and grants the second of a pair; one that may not go is passed over; a script's turn runs
the bytecode at its index; any other turn runs its row of the opcode table. Without a turn, the next cycle begins. -/
def Obligations.StepRunsDecodedInstruction : Prop := ∀ (s : State) (rest : List Turn),
  (∀ core slot mask g pc m b i, s.agenda = .issue core slot mask :: rest → s.group? (groupKey core slot) = some g →
    g.issueSet mask = some (pc, m) → g.lineBuf m pc = some b →
    let key := groupKey core slot
    let w := b.slot (pc.toNat % 8)
    let u : State := { s with agenda := rest }
    (u.mayGo key g m pc w = false → step s = .next u) ∧
    (u.mayGo key g m pc w = true → b.psn = false → b.malformed = false → g.badEntries b m pc = [] → decodeSlot w = .ok i → ∀ t,
      exec i (u.issuing core slot m pc w) = .next t → step s = .next ((t.afterIssue key m).pairNext core slot g b m pc))) ∧
  (∀ q r w i, s.agenda = .bytecode q :: rest → (s.queue q).run = some r → r.builtin = false → r.count < 512 →
    (s.queue q).code[r.idx]? = some w → decodeScript w = .ok i → ∀ t,
    exec i { s with agenda := rest, cur := .script q } = .next t → step s = .next { t with cur := .none }) ∧
  (∀ e, s.agenda = .int e :: rest → step s = exec e.instr { s with agenda := rest }) ∧
  (∀ i, s.agenda = .ev i :: rest → step s = exec i { s with agenda := rest }) ∧
  (∀ key mask, s.agenda = .debug key mask :: rest → step s = .next (State.stepTry { s with agenda := rest } key mask)) ∧
  (s.agenda = [] → step s = .next s.nextCycle)

/-- R71 to R87, R289, R290: words written out from the encoding tables decode to the instructions that they stand for. -/
def Obligations.DecodedWords : Prop :=  let common : Common := { tt := 0xFF, ga := 0, gb := 0, gc := 0, wait := 0, set1 := 12, set2 := 12, dist := 0 }
  decodeSlot 0x8FFF00000660000000000000 =
    .ok (.nop common { dst := 0, sa := 0, sel := 0, imm := 0 }) ∧
  decodeSlot 0x0EFF0000066403F452460000 = .ok (.divstep { common with dist := 4 }
    { dst := 0, sa := 0x3F, sb := 0x11, sc := 0x12, la := 0, lb := 1, lc := 0, type := 6, rnd := 0, ftz := 0, sat := 0, mod := 0 }) ∧
  decodeSlot 0x43FF000006604D1452AE0000 = .ok (.ffma common
    { dst := 0x13, sa := 0x11, sb := 0x11, sc := 0x12, la := 1, lb := 0, lc := 1, type := 0xE, rnd := 0, ftz := 0, sat := 0, mod := 0 }) ∧
  decodeSlot 0xE0FF00000660000000000000 = .error (.reservedOpcode 0xE0) ∧
  decodeScript 0x02100001 = .ok (.scriptLdp 1 1) ∧ decodeScript 0x03300000 = .ok (.scriptLdc 3 0) ∧
  decodeScript 0x08223000 = .ok (.scriptAdd 2 2 3) ∧ decodeScript 0x15412000 = .ok (.scriptLaunch 4 1 2) ∧
  decodeScript 0x01000000 = .ok .scriptDrop ∧ decodeScript 0x1A000000 = .error (.notABytecode 0x1A000000)

/-- R71, R75 to R87: the word of a Huaxus instruction decodes to it, whatever its fields hold, and a word that decodes is the word of
its instruction: no bit of an encoding is dropped, and no two instructions share a word. -/
def Obligations.InstructionWordsRoundTrip : Prop :=  (∀ i v, view i = some v → decodeSlot (wordOf v) = .ok i) ∧
  ∀ w i, decodeSlot w = .ok i → ∃ v, view i = some v ∧ wordOf v = w

/-- R289, R290: the bytecode of a well-formed script instruction decodes to it, and a word that decodes is the bytecode of its
instruction. -/
def Obligations.BytecodesRoundTrip : Prop :=  (∀ i w, bytecodeOf i = some w → i.wf = true → decodeScript w = .ok i) ∧
  ∀ w i, decodeScript w = .ok i → bytecodeOf i = some w

/-- R8, R355: no instruction and no step of an agent stops the machine, in any state and for any operands: each answers a next
state, but for a Gleden core's access above the state window, or between hub SRAM and the window, which the spec does not describe. -/
def Obligations.NothingElseStops : Prop := ∀ (i : Instr) (s : State),
  (∀ pa size op, i = .gledenCoreAccess pa size op → pa < 0x30004000000 ∨ (0x40000000000 ≤ pa ∧ pa < 0x40300000000)) → ∃ t, exec i s = .next t

/-- The canonical form of memory (log entry 1: what an unlisted byte reads as): every step keeps the byte memories of the module,
the scratchpads and the B slots with addresses strictly rising and no byte listed that an unlisted address reads as. -/
def Obligations.MemoryStaysCanonical : Prop := ∀ (s t : State), s.memoryOk = true → step s = .next t → t.memoryOk = true

end
end

