-- ==== Sys2Proof/Laws/Lists.lean ====
section
/-! SUPPORT. Laws of lists of lanes and of updates at a place. -/

namespace Sys2Proof.Machine

@[simp] theorem length_updAt {α : Type} (f : α → α) (n : Nat) (l : List α) : (updAt f n l).length = l.length := by
  induction l generalizing n with
  | nil => cases n <;> rfl
  | cons a t ih => cases n <;> simp [updAt, ih]

theorem getElem?_updAt_self {α : Type} (f : α → α) (n : Nat) (l : List α) : (updAt f n l)[n]? = l[n]?.map f := by
  induction l generalizing n with
  | nil => cases n <;> rfl
  | cons a t ih => cases n <;> simp [updAt, ih]

theorem getElem?_updAt_ne {α : Type} (f : α → α) {n k : Nat} (l : List α) (h : k ≠ n) : (updAt f n l)[k]? = l[k]? := by
  induction l generalizing n k with
  | nil => cases n <;> rfl
  | cons a t ih =>
    cases n with
    | zero =>
      cases k with
      | zero => exact absurd rfl h
      | succ k => simp [updAt]
    | succ n =>
      cases k with
      | zero => simp [updAt]
      | succ k => simpa [updAt] using ih (n := n) (k := k) (by omega)

theorem getD_updAt_self {α : Type} (f : α → α) (n : Nat) (l : List α) (d : α) (h : n < l.length) :
    (updAt f n l).getD n d = f (l.getD n d) := by
  simp [List.getD, getElem?_updAt_self, List.getElem?_eq_getElem h]

theorem getD_updAt_ne {α : Type} (f : α → α) {n k : Nat} (l : List α) (d : α) (h : k ≠ n) :
    (updAt f n l).getD k d = l.getD k d := by
  simp [List.getD, getElem?_updAt_ne f l h]

@[simp] theorem length_withIdx {α : Type} (l : List α) : (withIdx l).length = l.length := by
  simp [withIdx]

theorem getElem?_withIdx {α : Type} (l : List α) (n : Nat) (h : n < l.length) : (withIdx l)[n]? = some (n, l[n]) := by
  rw [List.getElem?_eq_getElem (by simpa using h)]
  simp [withIdx]

theorem getD_map_withIdx {α β : Type} (l : List α) (f : Nat × α → β) (n : Nat) (d : α) (e : β) (h : n < l.length) :
    ((withIdx l).map f).getD n e = f (n, l.getD n d) := by
  simp [List.getD, getElem?_withIdx l n h, List.getElem?_eq_getElem h]

/-- A lane of a group after a function of every lane. -/
theorem Group.lane_mapLanes (g : Group) (f : Nat → Lane → Lane) (l : Nat) (h : l < g.lanes.length) :
    (g.mapLanes f).lane l = f l (g.lane l) := by
  simp only [Group.lane, Group.mapLanes]
  rw [getD_map_withIdx _ _ _ (Lane.fresh 0) _ h]

@[simp] theorem Group.length_mapLanes (g : Group) (f : Nat → Lane → Lane) : (g.mapLanes f).lanes.length = g.lanes.length := by
  simp [Group.mapLanes]

/-- The out of a lane in a list with one for each of some lanes. -/
theorem find?_outs (ls : List Nat) (mk : Nat → Out) (hmk : ∀ l, (mk l).lane = l) (l : Nat) :
    (ls.map mk).find? (fun o => o.lane == l) = if ls.contains l then some (mk l) else none := by
  induction ls with
  | nil => rfl
  | cons a t ih =>
    by_cases h : a = l
    · subst h
      simp [hmk]
    · have h2 : ¬ l = a := fun e => h e.symm
      simp only [List.map_cons, List.find?_cons, hmk, List.contains_cons, Bool.false_or, beq_eq_false_iff_ne.2 h, beq_eq_false_iff_ne.2 h2, ih]

/-- A lane is among the lanes of a mask. -/
theorem mem_lanesOf (m : LaneMask) (l : Nat) : l ∈ lanesOf m ↔ l < 32 ∧ has m l = true := by
  simp [lanesOf]

@[simp] theorem filter_all {α : Type} (xs : List α) : xs.filter (fun _ => true) = xs := by simp

end Sys2Proof.Machine
end

