-- ==== Sys2Proof/Laws/Sparse.lean ====
section
/-! SUPPORT. Laws of finite maps, of byte memories and of updates at a place of a list. -/

namespace Sys2Proof.Machine

/-! ### Finite maps -/

@[simp] theorem Sparse.get?_put_self {α : Type} (m : Sparse α) (n : Nat) (v : α) : Sparse.get? (Sparse.put n v m) n = some v := by
  induction m with
  | nil => simp [Sparse.put, Sparse.get?]
  | cons e t ih =>
    obtain ⟨k, w⟩ := e
    simp only [Sparse.put]
    split
    · simp [Sparse.get?]
    · split
      · simp [Sparse.get?]
      · rename_i h2
        simp [Sparse.get?, Ne.symm h2, ih]

theorem Sparse.get?_put_ne {α : Type} (m : Sparse α) {n k : Nat} (v : α) (h : k ≠ n) :
    Sparse.get? (Sparse.put n v m) k = Sparse.get? m k := by
  induction m with
  | nil => simp [Sparse.put, Sparse.get?, Ne.symm h]
  | cons e t ih =>
    obtain ⟨j, w⟩ := e
    simp only [Sparse.put]
    split
    · simp [Sparse.get?, Ne.symm h]
    · split
      · rename_i h2
        subst h2
        simp [Sparse.get?, Ne.symm h]
      · simp only [Sparse.get?, ih]

@[simp] theorem Sparse.get?_del_self {α : Type} (m : Sparse α) (n : Nat) : Sparse.get? (Sparse.del n m) n = none := by
  induction m with
  | nil => rfl
  | cons e t ih =>
    obtain ⟨k, w⟩ := e
    by_cases h : k = n
    · simpa [Sparse.del, h] using ih
    · simp only [Sparse.del, List.filter_cons]
      simp only [h, Bool.not_eq_true', beq_eq_false_iff_ne, ne_eq, not_false_eq_true, ↓reduceIte]
      simpa [Sparse.get?, h, Sparse.del] using ih

theorem Sparse.get?_del_ne {α : Type} (m : Sparse α) {n k : Nat} (h : k ≠ n) : Sparse.get? (Sparse.del n m) k = Sparse.get? m k := by
  induction m with
  | nil => rfl
  | cons e t ih =>
    obtain ⟨j, w⟩ := e
    by_cases hj : j = n
    · subst hj
      have : Sparse.del j ((j, w) :: t) = Sparse.del j t := by simp [Sparse.del]
      rw [this, ih]
      simp [Sparse.get?, Ne.symm h]
    · have : Sparse.del n ((j, w) :: t) = (j, w) :: Sparse.del n t := by simp [Sparse.del, hj]
      rw [this]
      simp only [Sparse.get?, ih]

theorem Sparse.get?_upd_self {α : Type} (m : Sparse α) (n : Nat) (f : α → α) :
    Sparse.get? (Sparse.upd n f m) n = (Sparse.get? m n).map f := by
  unfold Sparse.upd
  split
  · rename_i v h
    simp [h]
  · rename_i h
    simp [h]

theorem Sparse.get?_upd_ne {α : Type} (m : Sparse α) {n k : Nat} (f : α → α) (h : k ≠ n) :
    Sparse.get? (Sparse.upd n f m) k = Sparse.get? m k := by
  unfold Sparse.upd
  split
  · exact Sparse.get?_put_ne m _ h
  · rfl

/-! ### Keys strictly rising -/

/-- Every key of a map is above a bound. -/
def Sparse.above {α : Type} (n : Nat) (m : Sparse α) : Prop := ∀ e ∈ m, n < e.1

theorem Sparse.sorted_cons {α : Type} (e : Nat × α) (t : Sparse α) :
    Sparse.sorted (e :: t) = true ↔ Sparse.above e.1 t ∧ Sparse.sorted t = true := by
  induction t generalizing e with
  | nil => simp [Sparse.sorted, Sparse.above]
  | cons f t ih =>
    simp only [Sparse.sorted, Bool.and_eq_true, decide_eq_true_eq, Sparse.above, List.mem_cons, forall_eq_or_imp]
    constructor
    · rintro ⟨h1, h2⟩
      have h3 := (ih f).1 h2
      exact ⟨⟨h1, fun a ha => Nat.lt_trans h1 (h3.1 a ha)⟩, h2⟩
    · rintro ⟨⟨h1, _⟩, h2⟩
      exact ⟨h1, h2⟩

theorem Sparse.mem_put {α : Type} (m : Sparse α) (n : Nat) (v : α) (e : Nat × α) (h : e ∈ Sparse.put n v m) :
    e = (n, v) ∨ e ∈ m := by
  induction m with
  | nil => simpa [Sparse.put] using h
  | cons f t ih =>
    obtain ⟨k, w⟩ := f
    simp only [Sparse.put] at h
    split at h
    · simpa using h
    · split at h
      · simp only [List.mem_cons] at h ⊢
        exact h.elim Or.inl fun h => .inr (.inr h)
      · simp only [List.mem_cons] at h ⊢
        rcases h with h | h
        · exact .inr (.inl h)
        · exact (ih h).elim Or.inl fun h => .inr (.inr h)

theorem Sparse.sorted_put {α : Type} (m : Sparse α) (n : Nat) (v : α) (h : Sparse.sorted m = true) :
    Sparse.sorted (Sparse.put n v m) = true := by
  induction m with
  | nil => rfl
  | cons f t ih =>
    obtain ⟨k, w⟩ := f
    have hc := (Sparse.sorted_cons _ _).1 h
    simp only [Sparse.put]
    split
    · rename_i h1
      refine (Sparse.sorted_cons _ _).2 ⟨?_, h⟩
      intro e he
      rcases List.mem_cons.1 he with rfl | he
      · exact h1
      · exact Nat.lt_trans h1 (hc.1 e he)
    · split
      · rename_i h2
        subst h2
        exact (Sparse.sorted_cons _ _).2 hc
      · rename_i h1 h2
        refine (Sparse.sorted_cons _ _).2 ⟨?_, ih hc.2⟩
        intro e he
        rcases Sparse.mem_put t n v e he with rfl | he
        · simp only; omega
        · exact hc.1 e he

theorem Sparse.sorted_filter {α : Type} (m : Sparse α) (p : Nat × α → Bool) (h : Sparse.sorted m = true) :
    Sparse.sorted (m.filter p : Sparse α) = true := by
  induction m with
  | nil => rfl
  | cons f t ih =>
    have hc := (Sparse.sorted_cons _ _).1 h
    by_cases hp : p f
    · rw [List.filter_cons_of_pos hp]
      refine (Sparse.sorted_cons _ _).2 ⟨?_, ih hc.2⟩
      intro e he
      exact hc.1 e (List.mem_filter.1 he).1
    · rw [List.filter_cons_of_neg hp]
      exact ih hc.2

/-! ### Byte memories (log entry 1) -/

/-- A byte written reads back. -/
@[simp] theorem Mem.read_write_self (m : Mem) (a : Nat) (b : Byte) : (m.write a b).read a = b := by
  unfold Mem.write Mem.read
  split
  · rename_i h
    simp [h]
  · simp

/-- A byte write leaves every other address alone. -/
theorem Mem.read_write_ne (m : Mem) {a c : Nat} (b : Byte) (h : c ≠ a) : (m.write a b).read c = m.read c := by
  unfold Mem.write Mem.read
  split
  · rw [Sparse.get?_del_ne _ h]
  · rw [Sparse.get?_put_ne _ _ h]

/-- A byte write keeps the canonical form. -/
theorem Mem.wf_write (m : Mem) (a : Nat) (b : Byte) (h : m.wf = true) : (m.write a b).wf = true := by
  simp only [Mem.wf, Bool.and_eq_true, List.all_eq_true] at h ⊢
  unfold Mem.write
  split
  · exact ⟨Sparse.sorted_filter m _ h.1, fun e he => h.2 e (List.mem_filter.1 he).1⟩
  · rename_i hb
    refine ⟨Sparse.sorted_put m a b h.1, fun e he => ?_⟩
    rcases Sparse.mem_put m a b e he with rfl | he
    · simpa using hb
    · exact h.2 e he

theorem Mem.wf_writeN (bs : List Byte) (m : Mem) (a : Nat) (h : m.wf = true) : (m.writeN a bs).wf = true := by
  induction bs generalizing m a with
  | nil => exact h
  | cons b t ih => exact ih _ _ (Mem.wf_write m a b h)

/-- Bytes written leave every address outside them alone. -/
theorem Mem.read_writeN_out (bs : List Byte) (m : Mem) (a c : Nat) (h : c < a ∨ a + bs.length ≤ c) :
    (m.writeN a bs).read c = m.read c := by
  induction bs generalizing m a with
  | nil => rfl
  | cons b t ih =>
    simp only [List.length_cons] at h
    rw [Mem.writeN, ih _ _ (by omega), Mem.read_write_ne _ _ (by omega)]

/-- The byte written i places after the first address reads back. -/
theorem Mem.read_writeN_in (bs : List Byte) (m : Mem) (a i : Nat) (h : i < bs.length) :
    (m.writeN a bs).read (a + i) = bs[i] := by
  induction bs generalizing m a i with
  | nil => simp at h
  | cons b t ih =>
    rw [Mem.writeN]
    cases i with
    | zero => rw [Mem.read_writeN_out _ _ _ _ (by omega)]; simp
    | succ i =>
      have := ih (m.write a b) (a + 1) i (by simpa using h)
      rw [show a + (i + 1) = a + 1 + i by omega, this]
      simp

/-- Bytes written read back whole. -/
theorem Mem.readN_writeN (bs : List Byte) (m : Mem) (a : Nat) : (m.writeN a bs).readN a bs.length = bs := by
  induction bs generalizing m a with
  | nil => rfl
  | cons b t ih =>
    simp only [Mem.writeN, List.length_cons, Mem.readN, ih, List.cons.injEq, and_true]
    rw [Mem.read_writeN_out _ _ _ _ (by omega)]
    simp

end Sys2Proof.Machine
end

