-- ==== Sys2Proof/Laws/State.lean ====
section
/-! SUPPORT. What each update of the state leaves alone, field by field, and what it gives where it acts. -/

namespace Sys2Proof.Machine

namespace State

/-! ### `setGroup` -/

@[simp] theorem setGroup_agenda (s : State) (k : Nat) (v : Group) : (s.setGroup k v).agenda = s.agenda := rfl
@[simp] theorem setGroup_cur (s : State) (k : Nat) (v : Group) : (s.setGroup k v).cur = s.cur := rfl
@[simp] theorem setGroup_free (s : State) (k : Nat) (v : Group) : (s.setGroup k v).free = s.free := rfl
@[simp] theorem setGroup_serial (s : State) (k : Nat) (v : Group) : (s.setGroup k v).serial = s.serial := rfl
@[simp] theorem setGroup_cycle (s : State) (k : Nat) (v : Group) : (s.setGroup k v).cycle = s.cycle := rfl
@[simp] theorem setGroup_time (s : State) (k : Nat) (v : Group) : (s.setGroup k v).time = s.time := rfl
@[simp] theorem setGroup_locked (s : State) (k : Nat) (v : Group) : (s.setGroup k v).locked = s.locked := rfl
@[simp] theorem setGroup_slew (s : State) (k : Nat) (v : Group) : (s.setGroup k v).slew = s.slew := rfl
@[simp] theorem setGroup_upset (s : State) (k : Nat) (v : Group) : (s.setGroup k v).upset = s.upset := rfl
@[simp] theorem setGroup_mem (s : State) (k : Nat) (v : Group) : (s.setGroup k v).mem = s.mem := rfl
@[simp] theorem setGroup_admin (s : State) (k : Nat) (v : Group) : (s.setGroup k v).admin = s.admin := rfl
@[simp] theorem setGroup_eng (s : State) (k : Nat) (v : Group) : (s.setGroup k v).eng = s.eng := rfl
@[simp] theorem setGroup_sec (s : State) (k : Nat) (v : Group) : (s.setGroup k v).sec = s.sec := rfl
@[simp] theorem setGroup_outbox (s : State) (k : Nat) (v : Group) : (s.setGroup k v).outbox = s.outbox := rfl
@[simp] theorem setGroup_group_self (s : State) (k : Nat) (v : Group) : (s.setGroup k v).group? k = some v := Sparse.get?_put_self _ _ _
theorem setGroup_group_ne (s : State) (k : Nat) (v : Group) {j : Nat} (h : j ≠ k) : (s.setGroup k v).group? j = s.group? j := Sparse.get?_put_ne _ _ h
@[simp] theorem setGroup_team (s : State) (k : Nat) (v : Group) (j : Nat) : (s.setGroup k v).team? j = s.team? j := rfl
@[simp] theorem setGroup_gang (s : State) (k : Nat) (v : Group) (j : Nat) : (s.setGroup k v).gang? j = s.gang? j := rfl
@[simp] theorem setGroup_launch (s : State) (k : Nat) (v : Group) (j : Nat) : (s.setGroup k v).launch? j = s.launch? j := rfl
@[simp] theorem setGroup_op (s : State) (k : Nat) (v : Group) (j : Nat) : (s.setGroup k v).op? j = s.op? j := rfl
@[simp] theorem setGroup_core (s : State) (k : Nat) (v : Group) (j : Nat) : (s.setGroup k v).core j = s.core j := rfl
@[simp] theorem setGroup_queue (s : State) (k : Nat) (v : Group) (j : Nat) : (s.setGroup k v).queue j = s.queue j := rfl
@[simp] theorem setGroup_tenant (s : State) (k : Nat) (v : Group) (j : Nat) : (s.setGroup k v).tenant? j = s.tenant? j := rfl
@[simp] theorem setGroup_conn (s : State) (k : Nat) (v : Group) (j : Nat) : (s.setGroup k v).conn? j = s.conn? j := rfl
@[simp] theorem setGroup_counter (s : State) (k : Nat) (v : Group) (j : Nat) : (s.setGroup k v).counter j = s.counter j := rfl
@[simp] theorem setGroup_nx (s : State) (k : Nat) (v : Group) (j : Nat) : (s.setGroup k v).nx? j = s.nx? j := rfl
@[simp] theorem setGroup_cullet (s : State) (k : Nat) (v : Group) (j : Nat) : (s.setGroup k v).cullet j = s.cullet j := rfl

/-! ### `delGroup` -/

@[simp] theorem delGroup_agenda (s : State) (k : Nat) : (s.delGroup k).agenda = s.agenda := rfl
@[simp] theorem delGroup_cur (s : State) (k : Nat) : (s.delGroup k).cur = s.cur := rfl
@[simp] theorem delGroup_free (s : State) (k : Nat) : (s.delGroup k).free = s.free := rfl
@[simp] theorem delGroup_serial (s : State) (k : Nat) : (s.delGroup k).serial = s.serial := rfl
@[simp] theorem delGroup_cycle (s : State) (k : Nat) : (s.delGroup k).cycle = s.cycle := rfl
@[simp] theorem delGroup_time (s : State) (k : Nat) : (s.delGroup k).time = s.time := rfl
@[simp] theorem delGroup_locked (s : State) (k : Nat) : (s.delGroup k).locked = s.locked := rfl
@[simp] theorem delGroup_slew (s : State) (k : Nat) : (s.delGroup k).slew = s.slew := rfl
@[simp] theorem delGroup_upset (s : State) (k : Nat) : (s.delGroup k).upset = s.upset := rfl
@[simp] theorem delGroup_mem (s : State) (k : Nat) : (s.delGroup k).mem = s.mem := rfl
@[simp] theorem delGroup_admin (s : State) (k : Nat) : (s.delGroup k).admin = s.admin := rfl
@[simp] theorem delGroup_eng (s : State) (k : Nat) : (s.delGroup k).eng = s.eng := rfl
@[simp] theorem delGroup_sec (s : State) (k : Nat) : (s.delGroup k).sec = s.sec := rfl
@[simp] theorem delGroup_outbox (s : State) (k : Nat) : (s.delGroup k).outbox = s.outbox := rfl
@[simp] theorem delGroup_group_self (s : State) (k : Nat) : (s.delGroup k).group? k = none := Sparse.get?_del_self _ _
theorem delGroup_group_ne (s : State) (k : Nat) {j : Nat} (h : j ≠ k) : (s.delGroup k).group? j = s.group? j := Sparse.get?_del_ne _ h
@[simp] theorem delGroup_team (s : State) (k : Nat) (j : Nat) : (s.delGroup k).team? j = s.team? j := rfl
@[simp] theorem delGroup_gang (s : State) (k : Nat) (j : Nat) : (s.delGroup k).gang? j = s.gang? j := rfl
@[simp] theorem delGroup_launch (s : State) (k : Nat) (j : Nat) : (s.delGroup k).launch? j = s.launch? j := rfl
@[simp] theorem delGroup_op (s : State) (k : Nat) (j : Nat) : (s.delGroup k).op? j = s.op? j := rfl
@[simp] theorem delGroup_core (s : State) (k : Nat) (j : Nat) : (s.delGroup k).core j = s.core j := rfl
@[simp] theorem delGroup_queue (s : State) (k : Nat) (j : Nat) : (s.delGroup k).queue j = s.queue j := rfl
@[simp] theorem delGroup_tenant (s : State) (k : Nat) (j : Nat) : (s.delGroup k).tenant? j = s.tenant? j := rfl
@[simp] theorem delGroup_conn (s : State) (k : Nat) (j : Nat) : (s.delGroup k).conn? j = s.conn? j := rfl
@[simp] theorem delGroup_counter (s : State) (k : Nat) (j : Nat) : (s.delGroup k).counter j = s.counter j := rfl
@[simp] theorem delGroup_nx (s : State) (k : Nat) (j : Nat) : (s.delGroup k).nx? j = s.nx? j := rfl
@[simp] theorem delGroup_cullet (s : State) (k : Nat) (j : Nat) : (s.delGroup k).cullet j = s.cullet j := rfl

/-! ### `modGroup` -/

@[simp] theorem modGroup_agenda (s : State) (k : Nat) (f : Group → Group) : (s.modGroup k f).agenda = s.agenda := rfl
@[simp] theorem modGroup_cur (s : State) (k : Nat) (f : Group → Group) : (s.modGroup k f).cur = s.cur := rfl
@[simp] theorem modGroup_free (s : State) (k : Nat) (f : Group → Group) : (s.modGroup k f).free = s.free := rfl
@[simp] theorem modGroup_serial (s : State) (k : Nat) (f : Group → Group) : (s.modGroup k f).serial = s.serial := rfl
@[simp] theorem modGroup_cycle (s : State) (k : Nat) (f : Group → Group) : (s.modGroup k f).cycle = s.cycle := rfl
@[simp] theorem modGroup_time (s : State) (k : Nat) (f : Group → Group) : (s.modGroup k f).time = s.time := rfl
@[simp] theorem modGroup_locked (s : State) (k : Nat) (f : Group → Group) : (s.modGroup k f).locked = s.locked := rfl
@[simp] theorem modGroup_slew (s : State) (k : Nat) (f : Group → Group) : (s.modGroup k f).slew = s.slew := rfl
@[simp] theorem modGroup_upset (s : State) (k : Nat) (f : Group → Group) : (s.modGroup k f).upset = s.upset := rfl
@[simp] theorem modGroup_mem (s : State) (k : Nat) (f : Group → Group) : (s.modGroup k f).mem = s.mem := rfl
@[simp] theorem modGroup_admin (s : State) (k : Nat) (f : Group → Group) : (s.modGroup k f).admin = s.admin := rfl
@[simp] theorem modGroup_eng (s : State) (k : Nat) (f : Group → Group) : (s.modGroup k f).eng = s.eng := rfl
@[simp] theorem modGroup_sec (s : State) (k : Nat) (f : Group → Group) : (s.modGroup k f).sec = s.sec := rfl
@[simp] theorem modGroup_outbox (s : State) (k : Nat) (f : Group → Group) : (s.modGroup k f).outbox = s.outbox := rfl
@[simp] theorem modGroup_group_self (s : State) (k : Nat) (f : Group → Group) : (s.modGroup k f).group? k = (s.group? k).map f := Sparse.get?_upd_self _ _ _
theorem modGroup_group_ne (s : State) (k : Nat) (f : Group → Group) {j : Nat} (h : j ≠ k) : (s.modGroup k f).group? j = s.group? j := Sparse.get?_upd_ne _ _ h
@[simp] theorem modGroup_team (s : State) (k : Nat) (f : Group → Group) (j : Nat) : (s.modGroup k f).team? j = s.team? j := rfl
@[simp] theorem modGroup_gang (s : State) (k : Nat) (f : Group → Group) (j : Nat) : (s.modGroup k f).gang? j = s.gang? j := rfl
@[simp] theorem modGroup_launch (s : State) (k : Nat) (f : Group → Group) (j : Nat) : (s.modGroup k f).launch? j = s.launch? j := rfl
@[simp] theorem modGroup_op (s : State) (k : Nat) (f : Group → Group) (j : Nat) : (s.modGroup k f).op? j = s.op? j := rfl
@[simp] theorem modGroup_core (s : State) (k : Nat) (f : Group → Group) (j : Nat) : (s.modGroup k f).core j = s.core j := rfl
@[simp] theorem modGroup_queue (s : State) (k : Nat) (f : Group → Group) (j : Nat) : (s.modGroup k f).queue j = s.queue j := rfl
@[simp] theorem modGroup_tenant (s : State) (k : Nat) (f : Group → Group) (j : Nat) : (s.modGroup k f).tenant? j = s.tenant? j := rfl
@[simp] theorem modGroup_conn (s : State) (k : Nat) (f : Group → Group) (j : Nat) : (s.modGroup k f).conn? j = s.conn? j := rfl
@[simp] theorem modGroup_counter (s : State) (k : Nat) (f : Group → Group) (j : Nat) : (s.modGroup k f).counter j = s.counter j := rfl
@[simp] theorem modGroup_nx (s : State) (k : Nat) (f : Group → Group) (j : Nat) : (s.modGroup k f).nx? j = s.nx? j := rfl
@[simp] theorem modGroup_cullet (s : State) (k : Nat) (f : Group → Group) (j : Nat) : (s.modGroup k f).cullet j = s.cullet j := rfl

/-! ### `setTeam` -/

@[simp] theorem setTeam_agenda (s : State) (k : Nat) (v : Team) : (s.setTeam k v).agenda = s.agenda := rfl
@[simp] theorem setTeam_cur (s : State) (k : Nat) (v : Team) : (s.setTeam k v).cur = s.cur := rfl
@[simp] theorem setTeam_free (s : State) (k : Nat) (v : Team) : (s.setTeam k v).free = s.free := rfl
@[simp] theorem setTeam_serial (s : State) (k : Nat) (v : Team) : (s.setTeam k v).serial = s.serial := rfl
@[simp] theorem setTeam_cycle (s : State) (k : Nat) (v : Team) : (s.setTeam k v).cycle = s.cycle := rfl
@[simp] theorem setTeam_time (s : State) (k : Nat) (v : Team) : (s.setTeam k v).time = s.time := rfl
@[simp] theorem setTeam_locked (s : State) (k : Nat) (v : Team) : (s.setTeam k v).locked = s.locked := rfl
@[simp] theorem setTeam_slew (s : State) (k : Nat) (v : Team) : (s.setTeam k v).slew = s.slew := rfl
@[simp] theorem setTeam_upset (s : State) (k : Nat) (v : Team) : (s.setTeam k v).upset = s.upset := rfl
@[simp] theorem setTeam_mem (s : State) (k : Nat) (v : Team) : (s.setTeam k v).mem = s.mem := rfl
@[simp] theorem setTeam_admin (s : State) (k : Nat) (v : Team) : (s.setTeam k v).admin = s.admin := rfl
@[simp] theorem setTeam_eng (s : State) (k : Nat) (v : Team) : (s.setTeam k v).eng = s.eng := rfl
@[simp] theorem setTeam_sec (s : State) (k : Nat) (v : Team) : (s.setTeam k v).sec = s.sec := rfl
@[simp] theorem setTeam_outbox (s : State) (k : Nat) (v : Team) : (s.setTeam k v).outbox = s.outbox := rfl
@[simp] theorem setTeam_group (s : State) (k : Nat) (v : Team) (j : Nat) : (s.setTeam k v).group? j = s.group? j := rfl
@[simp] theorem setTeam_team_self (s : State) (k : Nat) (v : Team) : (s.setTeam k v).team? k = some v := Sparse.get?_put_self _ _ _
theorem setTeam_team_ne (s : State) (k : Nat) (v : Team) {j : Nat} (h : j ≠ k) : (s.setTeam k v).team? j = s.team? j := Sparse.get?_put_ne _ _ h
@[simp] theorem setTeam_gang (s : State) (k : Nat) (v : Team) (j : Nat) : (s.setTeam k v).gang? j = s.gang? j := rfl
@[simp] theorem setTeam_launch (s : State) (k : Nat) (v : Team) (j : Nat) : (s.setTeam k v).launch? j = s.launch? j := rfl
@[simp] theorem setTeam_op (s : State) (k : Nat) (v : Team) (j : Nat) : (s.setTeam k v).op? j = s.op? j := rfl
@[simp] theorem setTeam_core (s : State) (k : Nat) (v : Team) (j : Nat) : (s.setTeam k v).core j = s.core j := rfl
@[simp] theorem setTeam_queue (s : State) (k : Nat) (v : Team) (j : Nat) : (s.setTeam k v).queue j = s.queue j := rfl
@[simp] theorem setTeam_tenant (s : State) (k : Nat) (v : Team) (j : Nat) : (s.setTeam k v).tenant? j = s.tenant? j := rfl
@[simp] theorem setTeam_conn (s : State) (k : Nat) (v : Team) (j : Nat) : (s.setTeam k v).conn? j = s.conn? j := rfl
@[simp] theorem setTeam_counter (s : State) (k : Nat) (v : Team) (j : Nat) : (s.setTeam k v).counter j = s.counter j := rfl
@[simp] theorem setTeam_nx (s : State) (k : Nat) (v : Team) (j : Nat) : (s.setTeam k v).nx? j = s.nx? j := rfl
@[simp] theorem setTeam_cullet (s : State) (k : Nat) (v : Team) (j : Nat) : (s.setTeam k v).cullet j = s.cullet j := rfl

/-! ### `delTeam` -/

@[simp] theorem delTeam_agenda (s : State) (k : Nat) : (s.delTeam k).agenda = s.agenda := rfl
@[simp] theorem delTeam_cur (s : State) (k : Nat) : (s.delTeam k).cur = s.cur := rfl
@[simp] theorem delTeam_free (s : State) (k : Nat) : (s.delTeam k).free = s.free := rfl
@[simp] theorem delTeam_serial (s : State) (k : Nat) : (s.delTeam k).serial = s.serial := rfl
@[simp] theorem delTeam_cycle (s : State) (k : Nat) : (s.delTeam k).cycle = s.cycle := rfl
@[simp] theorem delTeam_time (s : State) (k : Nat) : (s.delTeam k).time = s.time := rfl
@[simp] theorem delTeam_locked (s : State) (k : Nat) : (s.delTeam k).locked = s.locked := rfl
@[simp] theorem delTeam_slew (s : State) (k : Nat) : (s.delTeam k).slew = s.slew := rfl
@[simp] theorem delTeam_upset (s : State) (k : Nat) : (s.delTeam k).upset = s.upset := rfl
@[simp] theorem delTeam_mem (s : State) (k : Nat) : (s.delTeam k).mem = s.mem := rfl
@[simp] theorem delTeam_admin (s : State) (k : Nat) : (s.delTeam k).admin = s.admin := rfl
@[simp] theorem delTeam_eng (s : State) (k : Nat) : (s.delTeam k).eng = s.eng := rfl
@[simp] theorem delTeam_sec (s : State) (k : Nat) : (s.delTeam k).sec = s.sec := rfl
@[simp] theorem delTeam_outbox (s : State) (k : Nat) : (s.delTeam k).outbox = s.outbox := rfl
@[simp] theorem delTeam_group (s : State) (k : Nat) (j : Nat) : (s.delTeam k).group? j = s.group? j := rfl
@[simp] theorem delTeam_team_self (s : State) (k : Nat) : (s.delTeam k).team? k = none := Sparse.get?_del_self _ _
theorem delTeam_team_ne (s : State) (k : Nat) {j : Nat} (h : j ≠ k) : (s.delTeam k).team? j = s.team? j := Sparse.get?_del_ne _ h
@[simp] theorem delTeam_gang (s : State) (k : Nat) (j : Nat) : (s.delTeam k).gang? j = s.gang? j := rfl
@[simp] theorem delTeam_launch (s : State) (k : Nat) (j : Nat) : (s.delTeam k).launch? j = s.launch? j := rfl
@[simp] theorem delTeam_op (s : State) (k : Nat) (j : Nat) : (s.delTeam k).op? j = s.op? j := rfl
@[simp] theorem delTeam_core (s : State) (k : Nat) (j : Nat) : (s.delTeam k).core j = s.core j := rfl
@[simp] theorem delTeam_queue (s : State) (k : Nat) (j : Nat) : (s.delTeam k).queue j = s.queue j := rfl
@[simp] theorem delTeam_tenant (s : State) (k : Nat) (j : Nat) : (s.delTeam k).tenant? j = s.tenant? j := rfl
@[simp] theorem delTeam_conn (s : State) (k : Nat) (j : Nat) : (s.delTeam k).conn? j = s.conn? j := rfl
@[simp] theorem delTeam_counter (s : State) (k : Nat) (j : Nat) : (s.delTeam k).counter j = s.counter j := rfl
@[simp] theorem delTeam_nx (s : State) (k : Nat) (j : Nat) : (s.delTeam k).nx? j = s.nx? j := rfl
@[simp] theorem delTeam_cullet (s : State) (k : Nat) (j : Nat) : (s.delTeam k).cullet j = s.cullet j := rfl

/-! ### `modTeam` -/

@[simp] theorem modTeam_agenda (s : State) (k : Nat) (f : Team → Team) : (s.modTeam k f).agenda = s.agenda := rfl
@[simp] theorem modTeam_cur (s : State) (k : Nat) (f : Team → Team) : (s.modTeam k f).cur = s.cur := rfl
@[simp] theorem modTeam_free (s : State) (k : Nat) (f : Team → Team) : (s.modTeam k f).free = s.free := rfl
@[simp] theorem modTeam_serial (s : State) (k : Nat) (f : Team → Team) : (s.modTeam k f).serial = s.serial := rfl
@[simp] theorem modTeam_cycle (s : State) (k : Nat) (f : Team → Team) : (s.modTeam k f).cycle = s.cycle := rfl
@[simp] theorem modTeam_time (s : State) (k : Nat) (f : Team → Team) : (s.modTeam k f).time = s.time := rfl
@[simp] theorem modTeam_locked (s : State) (k : Nat) (f : Team → Team) : (s.modTeam k f).locked = s.locked := rfl
@[simp] theorem modTeam_slew (s : State) (k : Nat) (f : Team → Team) : (s.modTeam k f).slew = s.slew := rfl
@[simp] theorem modTeam_upset (s : State) (k : Nat) (f : Team → Team) : (s.modTeam k f).upset = s.upset := rfl
@[simp] theorem modTeam_mem (s : State) (k : Nat) (f : Team → Team) : (s.modTeam k f).mem = s.mem := rfl
@[simp] theorem modTeam_admin (s : State) (k : Nat) (f : Team → Team) : (s.modTeam k f).admin = s.admin := rfl
@[simp] theorem modTeam_eng (s : State) (k : Nat) (f : Team → Team) : (s.modTeam k f).eng = s.eng := rfl
@[simp] theorem modTeam_sec (s : State) (k : Nat) (f : Team → Team) : (s.modTeam k f).sec = s.sec := rfl
@[simp] theorem modTeam_outbox (s : State) (k : Nat) (f : Team → Team) : (s.modTeam k f).outbox = s.outbox := rfl
@[simp] theorem modTeam_group (s : State) (k : Nat) (f : Team → Team) (j : Nat) : (s.modTeam k f).group? j = s.group? j := rfl
@[simp] theorem modTeam_team_self (s : State) (k : Nat) (f : Team → Team) : (s.modTeam k f).team? k = (s.team? k).map f := Sparse.get?_upd_self _ _ _
theorem modTeam_team_ne (s : State) (k : Nat) (f : Team → Team) {j : Nat} (h : j ≠ k) : (s.modTeam k f).team? j = s.team? j := Sparse.get?_upd_ne _ _ h
@[simp] theorem modTeam_gang (s : State) (k : Nat) (f : Team → Team) (j : Nat) : (s.modTeam k f).gang? j = s.gang? j := rfl
@[simp] theorem modTeam_launch (s : State) (k : Nat) (f : Team → Team) (j : Nat) : (s.modTeam k f).launch? j = s.launch? j := rfl
@[simp] theorem modTeam_op (s : State) (k : Nat) (f : Team → Team) (j : Nat) : (s.modTeam k f).op? j = s.op? j := rfl
@[simp] theorem modTeam_core (s : State) (k : Nat) (f : Team → Team) (j : Nat) : (s.modTeam k f).core j = s.core j := rfl
@[simp] theorem modTeam_queue (s : State) (k : Nat) (f : Team → Team) (j : Nat) : (s.modTeam k f).queue j = s.queue j := rfl
@[simp] theorem modTeam_tenant (s : State) (k : Nat) (f : Team → Team) (j : Nat) : (s.modTeam k f).tenant? j = s.tenant? j := rfl
@[simp] theorem modTeam_conn (s : State) (k : Nat) (f : Team → Team) (j : Nat) : (s.modTeam k f).conn? j = s.conn? j := rfl
@[simp] theorem modTeam_counter (s : State) (k : Nat) (f : Team → Team) (j : Nat) : (s.modTeam k f).counter j = s.counter j := rfl
@[simp] theorem modTeam_nx (s : State) (k : Nat) (f : Team → Team) (j : Nat) : (s.modTeam k f).nx? j = s.nx? j := rfl
@[simp] theorem modTeam_cullet (s : State) (k : Nat) (f : Team → Team) (j : Nat) : (s.modTeam k f).cullet j = s.cullet j := rfl

/-! ### `setGang` -/

@[simp] theorem setGang_agenda (s : State) (k : Nat) (v : Gang) : (s.setGang k v).agenda = s.agenda := rfl
@[simp] theorem setGang_cur (s : State) (k : Nat) (v : Gang) : (s.setGang k v).cur = s.cur := rfl
@[simp] theorem setGang_free (s : State) (k : Nat) (v : Gang) : (s.setGang k v).free = s.free := rfl
@[simp] theorem setGang_serial (s : State) (k : Nat) (v : Gang) : (s.setGang k v).serial = s.serial := rfl
@[simp] theorem setGang_cycle (s : State) (k : Nat) (v : Gang) : (s.setGang k v).cycle = s.cycle := rfl
@[simp] theorem setGang_time (s : State) (k : Nat) (v : Gang) : (s.setGang k v).time = s.time := rfl
@[simp] theorem setGang_locked (s : State) (k : Nat) (v : Gang) : (s.setGang k v).locked = s.locked := rfl
@[simp] theorem setGang_slew (s : State) (k : Nat) (v : Gang) : (s.setGang k v).slew = s.slew := rfl
@[simp] theorem setGang_upset (s : State) (k : Nat) (v : Gang) : (s.setGang k v).upset = s.upset := rfl
@[simp] theorem setGang_mem (s : State) (k : Nat) (v : Gang) : (s.setGang k v).mem = s.mem := rfl
@[simp] theorem setGang_admin (s : State) (k : Nat) (v : Gang) : (s.setGang k v).admin = s.admin := rfl
@[simp] theorem setGang_eng (s : State) (k : Nat) (v : Gang) : (s.setGang k v).eng = s.eng := rfl
@[simp] theorem setGang_sec (s : State) (k : Nat) (v : Gang) : (s.setGang k v).sec = s.sec := rfl
@[simp] theorem setGang_outbox (s : State) (k : Nat) (v : Gang) : (s.setGang k v).outbox = s.outbox := rfl
@[simp] theorem setGang_group (s : State) (k : Nat) (v : Gang) (j : Nat) : (s.setGang k v).group? j = s.group? j := rfl
@[simp] theorem setGang_team (s : State) (k : Nat) (v : Gang) (j : Nat) : (s.setGang k v).team? j = s.team? j := rfl
@[simp] theorem setGang_gang_self (s : State) (k : Nat) (v : Gang) : (s.setGang k v).gang? k = some v := Sparse.get?_put_self _ _ _
theorem setGang_gang_ne (s : State) (k : Nat) (v : Gang) {j : Nat} (h : j ≠ k) : (s.setGang k v).gang? j = s.gang? j := Sparse.get?_put_ne _ _ h
@[simp] theorem setGang_launch (s : State) (k : Nat) (v : Gang) (j : Nat) : (s.setGang k v).launch? j = s.launch? j := rfl
@[simp] theorem setGang_op (s : State) (k : Nat) (v : Gang) (j : Nat) : (s.setGang k v).op? j = s.op? j := rfl
@[simp] theorem setGang_core (s : State) (k : Nat) (v : Gang) (j : Nat) : (s.setGang k v).core j = s.core j := rfl
@[simp] theorem setGang_queue (s : State) (k : Nat) (v : Gang) (j : Nat) : (s.setGang k v).queue j = s.queue j := rfl
@[simp] theorem setGang_tenant (s : State) (k : Nat) (v : Gang) (j : Nat) : (s.setGang k v).tenant? j = s.tenant? j := rfl
@[simp] theorem setGang_conn (s : State) (k : Nat) (v : Gang) (j : Nat) : (s.setGang k v).conn? j = s.conn? j := rfl
@[simp] theorem setGang_counter (s : State) (k : Nat) (v : Gang) (j : Nat) : (s.setGang k v).counter j = s.counter j := rfl
@[simp] theorem setGang_nx (s : State) (k : Nat) (v : Gang) (j : Nat) : (s.setGang k v).nx? j = s.nx? j := rfl
@[simp] theorem setGang_cullet (s : State) (k : Nat) (v : Gang) (j : Nat) : (s.setGang k v).cullet j = s.cullet j := rfl

/-! ### `delGang` -/

@[simp] theorem delGang_agenda (s : State) (k : Nat) : (s.delGang k).agenda = s.agenda := rfl
@[simp] theorem delGang_cur (s : State) (k : Nat) : (s.delGang k).cur = s.cur := rfl
@[simp] theorem delGang_free (s : State) (k : Nat) : (s.delGang k).free = s.free := rfl
@[simp] theorem delGang_serial (s : State) (k : Nat) : (s.delGang k).serial = s.serial := rfl
@[simp] theorem delGang_cycle (s : State) (k : Nat) : (s.delGang k).cycle = s.cycle := rfl
@[simp] theorem delGang_time (s : State) (k : Nat) : (s.delGang k).time = s.time := rfl
@[simp] theorem delGang_locked (s : State) (k : Nat) : (s.delGang k).locked = s.locked := rfl
@[simp] theorem delGang_slew (s : State) (k : Nat) : (s.delGang k).slew = s.slew := rfl
@[simp] theorem delGang_upset (s : State) (k : Nat) : (s.delGang k).upset = s.upset := rfl
@[simp] theorem delGang_mem (s : State) (k : Nat) : (s.delGang k).mem = s.mem := rfl
@[simp] theorem delGang_admin (s : State) (k : Nat) : (s.delGang k).admin = s.admin := rfl
@[simp] theorem delGang_eng (s : State) (k : Nat) : (s.delGang k).eng = s.eng := rfl
@[simp] theorem delGang_sec (s : State) (k : Nat) : (s.delGang k).sec = s.sec := rfl
@[simp] theorem delGang_outbox (s : State) (k : Nat) : (s.delGang k).outbox = s.outbox := rfl
@[simp] theorem delGang_group (s : State) (k : Nat) (j : Nat) : (s.delGang k).group? j = s.group? j := rfl
@[simp] theorem delGang_team (s : State) (k : Nat) (j : Nat) : (s.delGang k).team? j = s.team? j := rfl
@[simp] theorem delGang_gang_self (s : State) (k : Nat) : (s.delGang k).gang? k = none := Sparse.get?_del_self _ _
theorem delGang_gang_ne (s : State) (k : Nat) {j : Nat} (h : j ≠ k) : (s.delGang k).gang? j = s.gang? j := Sparse.get?_del_ne _ h
@[simp] theorem delGang_launch (s : State) (k : Nat) (j : Nat) : (s.delGang k).launch? j = s.launch? j := rfl
@[simp] theorem delGang_op (s : State) (k : Nat) (j : Nat) : (s.delGang k).op? j = s.op? j := rfl
@[simp] theorem delGang_core (s : State) (k : Nat) (j : Nat) : (s.delGang k).core j = s.core j := rfl
@[simp] theorem delGang_queue (s : State) (k : Nat) (j : Nat) : (s.delGang k).queue j = s.queue j := rfl
@[simp] theorem delGang_tenant (s : State) (k : Nat) (j : Nat) : (s.delGang k).tenant? j = s.tenant? j := rfl
@[simp] theorem delGang_conn (s : State) (k : Nat) (j : Nat) : (s.delGang k).conn? j = s.conn? j := rfl
@[simp] theorem delGang_counter (s : State) (k : Nat) (j : Nat) : (s.delGang k).counter j = s.counter j := rfl
@[simp] theorem delGang_nx (s : State) (k : Nat) (j : Nat) : (s.delGang k).nx? j = s.nx? j := rfl
@[simp] theorem delGang_cullet (s : State) (k : Nat) (j : Nat) : (s.delGang k).cullet j = s.cullet j := rfl

/-! ### `modGang` -/

@[simp] theorem modGang_agenda (s : State) (k : Nat) (f : Gang → Gang) : (s.modGang k f).agenda = s.agenda := rfl
@[simp] theorem modGang_cur (s : State) (k : Nat) (f : Gang → Gang) : (s.modGang k f).cur = s.cur := rfl
@[simp] theorem modGang_free (s : State) (k : Nat) (f : Gang → Gang) : (s.modGang k f).free = s.free := rfl
@[simp] theorem modGang_serial (s : State) (k : Nat) (f : Gang → Gang) : (s.modGang k f).serial = s.serial := rfl
@[simp] theorem modGang_cycle (s : State) (k : Nat) (f : Gang → Gang) : (s.modGang k f).cycle = s.cycle := rfl
@[simp] theorem modGang_time (s : State) (k : Nat) (f : Gang → Gang) : (s.modGang k f).time = s.time := rfl
@[simp] theorem modGang_locked (s : State) (k : Nat) (f : Gang → Gang) : (s.modGang k f).locked = s.locked := rfl
@[simp] theorem modGang_slew (s : State) (k : Nat) (f : Gang → Gang) : (s.modGang k f).slew = s.slew := rfl
@[simp] theorem modGang_upset (s : State) (k : Nat) (f : Gang → Gang) : (s.modGang k f).upset = s.upset := rfl
@[simp] theorem modGang_mem (s : State) (k : Nat) (f : Gang → Gang) : (s.modGang k f).mem = s.mem := rfl
@[simp] theorem modGang_admin (s : State) (k : Nat) (f : Gang → Gang) : (s.modGang k f).admin = s.admin := rfl
@[simp] theorem modGang_eng (s : State) (k : Nat) (f : Gang → Gang) : (s.modGang k f).eng = s.eng := rfl
@[simp] theorem modGang_sec (s : State) (k : Nat) (f : Gang → Gang) : (s.modGang k f).sec = s.sec := rfl
@[simp] theorem modGang_outbox (s : State) (k : Nat) (f : Gang → Gang) : (s.modGang k f).outbox = s.outbox := rfl
@[simp] theorem modGang_group (s : State) (k : Nat) (f : Gang → Gang) (j : Nat) : (s.modGang k f).group? j = s.group? j := rfl
@[simp] theorem modGang_team (s : State) (k : Nat) (f : Gang → Gang) (j : Nat) : (s.modGang k f).team? j = s.team? j := rfl
@[simp] theorem modGang_gang_self (s : State) (k : Nat) (f : Gang → Gang) : (s.modGang k f).gang? k = (s.gang? k).map f := Sparse.get?_upd_self _ _ _
theorem modGang_gang_ne (s : State) (k : Nat) (f : Gang → Gang) {j : Nat} (h : j ≠ k) : (s.modGang k f).gang? j = s.gang? j := Sparse.get?_upd_ne _ _ h
@[simp] theorem modGang_launch (s : State) (k : Nat) (f : Gang → Gang) (j : Nat) : (s.modGang k f).launch? j = s.launch? j := rfl
@[simp] theorem modGang_op (s : State) (k : Nat) (f : Gang → Gang) (j : Nat) : (s.modGang k f).op? j = s.op? j := rfl
@[simp] theorem modGang_core (s : State) (k : Nat) (f : Gang → Gang) (j : Nat) : (s.modGang k f).core j = s.core j := rfl
@[simp] theorem modGang_queue (s : State) (k : Nat) (f : Gang → Gang) (j : Nat) : (s.modGang k f).queue j = s.queue j := rfl
@[simp] theorem modGang_tenant (s : State) (k : Nat) (f : Gang → Gang) (j : Nat) : (s.modGang k f).tenant? j = s.tenant? j := rfl
@[simp] theorem modGang_conn (s : State) (k : Nat) (f : Gang → Gang) (j : Nat) : (s.modGang k f).conn? j = s.conn? j := rfl
@[simp] theorem modGang_counter (s : State) (k : Nat) (f : Gang → Gang) (j : Nat) : (s.modGang k f).counter j = s.counter j := rfl
@[simp] theorem modGang_nx (s : State) (k : Nat) (f : Gang → Gang) (j : Nat) : (s.modGang k f).nx? j = s.nx? j := rfl
@[simp] theorem modGang_cullet (s : State) (k : Nat) (f : Gang → Gang) (j : Nat) : (s.modGang k f).cullet j = s.cullet j := rfl

/-! ### `setLaunch` -/

@[simp] theorem setLaunch_agenda (s : State) (k : Nat) (v : Launch) : (s.setLaunch k v).agenda = s.agenda := rfl
@[simp] theorem setLaunch_cur (s : State) (k : Nat) (v : Launch) : (s.setLaunch k v).cur = s.cur := rfl
@[simp] theorem setLaunch_free (s : State) (k : Nat) (v : Launch) : (s.setLaunch k v).free = s.free := rfl
@[simp] theorem setLaunch_serial (s : State) (k : Nat) (v : Launch) : (s.setLaunch k v).serial = s.serial := rfl
@[simp] theorem setLaunch_cycle (s : State) (k : Nat) (v : Launch) : (s.setLaunch k v).cycle = s.cycle := rfl
@[simp] theorem setLaunch_time (s : State) (k : Nat) (v : Launch) : (s.setLaunch k v).time = s.time := rfl
@[simp] theorem setLaunch_locked (s : State) (k : Nat) (v : Launch) : (s.setLaunch k v).locked = s.locked := rfl
@[simp] theorem setLaunch_slew (s : State) (k : Nat) (v : Launch) : (s.setLaunch k v).slew = s.slew := rfl
@[simp] theorem setLaunch_upset (s : State) (k : Nat) (v : Launch) : (s.setLaunch k v).upset = s.upset := rfl
@[simp] theorem setLaunch_mem (s : State) (k : Nat) (v : Launch) : (s.setLaunch k v).mem = s.mem := rfl
@[simp] theorem setLaunch_admin (s : State) (k : Nat) (v : Launch) : (s.setLaunch k v).admin = s.admin := rfl
@[simp] theorem setLaunch_eng (s : State) (k : Nat) (v : Launch) : (s.setLaunch k v).eng = s.eng := rfl
@[simp] theorem setLaunch_sec (s : State) (k : Nat) (v : Launch) : (s.setLaunch k v).sec = s.sec := rfl
@[simp] theorem setLaunch_outbox (s : State) (k : Nat) (v : Launch) : (s.setLaunch k v).outbox = s.outbox := rfl
@[simp] theorem setLaunch_group (s : State) (k : Nat) (v : Launch) (j : Nat) : (s.setLaunch k v).group? j = s.group? j := rfl
@[simp] theorem setLaunch_team (s : State) (k : Nat) (v : Launch) (j : Nat) : (s.setLaunch k v).team? j = s.team? j := rfl
@[simp] theorem setLaunch_gang (s : State) (k : Nat) (v : Launch) (j : Nat) : (s.setLaunch k v).gang? j = s.gang? j := rfl
@[simp] theorem setLaunch_launch_self (s : State) (k : Nat) (v : Launch) : (s.setLaunch k v).launch? k = some v := Sparse.get?_put_self _ _ _
theorem setLaunch_launch_ne (s : State) (k : Nat) (v : Launch) {j : Nat} (h : j ≠ k) : (s.setLaunch k v).launch? j = s.launch? j := Sparse.get?_put_ne _ _ h
@[simp] theorem setLaunch_op (s : State) (k : Nat) (v : Launch) (j : Nat) : (s.setLaunch k v).op? j = s.op? j := rfl
@[simp] theorem setLaunch_core (s : State) (k : Nat) (v : Launch) (j : Nat) : (s.setLaunch k v).core j = s.core j := rfl
@[simp] theorem setLaunch_queue (s : State) (k : Nat) (v : Launch) (j : Nat) : (s.setLaunch k v).queue j = s.queue j := rfl
@[simp] theorem setLaunch_tenant (s : State) (k : Nat) (v : Launch) (j : Nat) : (s.setLaunch k v).tenant? j = s.tenant? j := rfl
@[simp] theorem setLaunch_conn (s : State) (k : Nat) (v : Launch) (j : Nat) : (s.setLaunch k v).conn? j = s.conn? j := rfl
@[simp] theorem setLaunch_counter (s : State) (k : Nat) (v : Launch) (j : Nat) : (s.setLaunch k v).counter j = s.counter j := rfl
@[simp] theorem setLaunch_nx (s : State) (k : Nat) (v : Launch) (j : Nat) : (s.setLaunch k v).nx? j = s.nx? j := rfl
@[simp] theorem setLaunch_cullet (s : State) (k : Nat) (v : Launch) (j : Nat) : (s.setLaunch k v).cullet j = s.cullet j := rfl

/-! ### `delLaunch` -/

@[simp] theorem delLaunch_agenda (s : State) (k : Nat) : (s.delLaunch k).agenda = s.agenda := rfl
@[simp] theorem delLaunch_cur (s : State) (k : Nat) : (s.delLaunch k).cur = s.cur := rfl
@[simp] theorem delLaunch_free (s : State) (k : Nat) : (s.delLaunch k).free = s.free := rfl
@[simp] theorem delLaunch_serial (s : State) (k : Nat) : (s.delLaunch k).serial = s.serial := rfl
@[simp] theorem delLaunch_cycle (s : State) (k : Nat) : (s.delLaunch k).cycle = s.cycle := rfl
@[simp] theorem delLaunch_time (s : State) (k : Nat) : (s.delLaunch k).time = s.time := rfl
@[simp] theorem delLaunch_locked (s : State) (k : Nat) : (s.delLaunch k).locked = s.locked := rfl
@[simp] theorem delLaunch_slew (s : State) (k : Nat) : (s.delLaunch k).slew = s.slew := rfl
@[simp] theorem delLaunch_upset (s : State) (k : Nat) : (s.delLaunch k).upset = s.upset := rfl
@[simp] theorem delLaunch_mem (s : State) (k : Nat) : (s.delLaunch k).mem = s.mem := rfl
@[simp] theorem delLaunch_admin (s : State) (k : Nat) : (s.delLaunch k).admin = s.admin := rfl
@[simp] theorem delLaunch_eng (s : State) (k : Nat) : (s.delLaunch k).eng = s.eng := rfl
@[simp] theorem delLaunch_sec (s : State) (k : Nat) : (s.delLaunch k).sec = s.sec := rfl
@[simp] theorem delLaunch_outbox (s : State) (k : Nat) : (s.delLaunch k).outbox = s.outbox := rfl
@[simp] theorem delLaunch_group (s : State) (k : Nat) (j : Nat) : (s.delLaunch k).group? j = s.group? j := rfl
@[simp] theorem delLaunch_team (s : State) (k : Nat) (j : Nat) : (s.delLaunch k).team? j = s.team? j := rfl
@[simp] theorem delLaunch_gang (s : State) (k : Nat) (j : Nat) : (s.delLaunch k).gang? j = s.gang? j := rfl
@[simp] theorem delLaunch_launch_self (s : State) (k : Nat) : (s.delLaunch k).launch? k = none := Sparse.get?_del_self _ _
theorem delLaunch_launch_ne (s : State) (k : Nat) {j : Nat} (h : j ≠ k) : (s.delLaunch k).launch? j = s.launch? j := Sparse.get?_del_ne _ h
@[simp] theorem delLaunch_op (s : State) (k : Nat) (j : Nat) : (s.delLaunch k).op? j = s.op? j := rfl
@[simp] theorem delLaunch_core (s : State) (k : Nat) (j : Nat) : (s.delLaunch k).core j = s.core j := rfl
@[simp] theorem delLaunch_queue (s : State) (k : Nat) (j : Nat) : (s.delLaunch k).queue j = s.queue j := rfl
@[simp] theorem delLaunch_tenant (s : State) (k : Nat) (j : Nat) : (s.delLaunch k).tenant? j = s.tenant? j := rfl
@[simp] theorem delLaunch_conn (s : State) (k : Nat) (j : Nat) : (s.delLaunch k).conn? j = s.conn? j := rfl
@[simp] theorem delLaunch_counter (s : State) (k : Nat) (j : Nat) : (s.delLaunch k).counter j = s.counter j := rfl
@[simp] theorem delLaunch_nx (s : State) (k : Nat) (j : Nat) : (s.delLaunch k).nx? j = s.nx? j := rfl
@[simp] theorem delLaunch_cullet (s : State) (k : Nat) (j : Nat) : (s.delLaunch k).cullet j = s.cullet j := rfl

/-! ### `modLaunch` -/

@[simp] theorem modLaunch_agenda (s : State) (k : Nat) (f : Launch → Launch) : (s.modLaunch k f).agenda = s.agenda := rfl
@[simp] theorem modLaunch_cur (s : State) (k : Nat) (f : Launch → Launch) : (s.modLaunch k f).cur = s.cur := rfl
@[simp] theorem modLaunch_free (s : State) (k : Nat) (f : Launch → Launch) : (s.modLaunch k f).free = s.free := rfl
@[simp] theorem modLaunch_serial (s : State) (k : Nat) (f : Launch → Launch) : (s.modLaunch k f).serial = s.serial := rfl
@[simp] theorem modLaunch_cycle (s : State) (k : Nat) (f : Launch → Launch) : (s.modLaunch k f).cycle = s.cycle := rfl
@[simp] theorem modLaunch_time (s : State) (k : Nat) (f : Launch → Launch) : (s.modLaunch k f).time = s.time := rfl
@[simp] theorem modLaunch_locked (s : State) (k : Nat) (f : Launch → Launch) : (s.modLaunch k f).locked = s.locked := rfl
@[simp] theorem modLaunch_slew (s : State) (k : Nat) (f : Launch → Launch) : (s.modLaunch k f).slew = s.slew := rfl
@[simp] theorem modLaunch_upset (s : State) (k : Nat) (f : Launch → Launch) : (s.modLaunch k f).upset = s.upset := rfl
@[simp] theorem modLaunch_mem (s : State) (k : Nat) (f : Launch → Launch) : (s.modLaunch k f).mem = s.mem := rfl
@[simp] theorem modLaunch_admin (s : State) (k : Nat) (f : Launch → Launch) : (s.modLaunch k f).admin = s.admin := rfl
@[simp] theorem modLaunch_eng (s : State) (k : Nat) (f : Launch → Launch) : (s.modLaunch k f).eng = s.eng := rfl
@[simp] theorem modLaunch_sec (s : State) (k : Nat) (f : Launch → Launch) : (s.modLaunch k f).sec = s.sec := rfl
@[simp] theorem modLaunch_outbox (s : State) (k : Nat) (f : Launch → Launch) : (s.modLaunch k f).outbox = s.outbox := rfl
@[simp] theorem modLaunch_group (s : State) (k : Nat) (f : Launch → Launch) (j : Nat) : (s.modLaunch k f).group? j = s.group? j := rfl
@[simp] theorem modLaunch_team (s : State) (k : Nat) (f : Launch → Launch) (j : Nat) : (s.modLaunch k f).team? j = s.team? j := rfl
@[simp] theorem modLaunch_gang (s : State) (k : Nat) (f : Launch → Launch) (j : Nat) : (s.modLaunch k f).gang? j = s.gang? j := rfl
@[simp] theorem modLaunch_launch_self (s : State) (k : Nat) (f : Launch → Launch) : (s.modLaunch k f).launch? k = (s.launch? k).map f := Sparse.get?_upd_self _ _ _
theorem modLaunch_launch_ne (s : State) (k : Nat) (f : Launch → Launch) {j : Nat} (h : j ≠ k) : (s.modLaunch k f).launch? j = s.launch? j := Sparse.get?_upd_ne _ _ h
@[simp] theorem modLaunch_op (s : State) (k : Nat) (f : Launch → Launch) (j : Nat) : (s.modLaunch k f).op? j = s.op? j := rfl
@[simp] theorem modLaunch_core (s : State) (k : Nat) (f : Launch → Launch) (j : Nat) : (s.modLaunch k f).core j = s.core j := rfl
@[simp] theorem modLaunch_queue (s : State) (k : Nat) (f : Launch → Launch) (j : Nat) : (s.modLaunch k f).queue j = s.queue j := rfl
@[simp] theorem modLaunch_tenant (s : State) (k : Nat) (f : Launch → Launch) (j : Nat) : (s.modLaunch k f).tenant? j = s.tenant? j := rfl
@[simp] theorem modLaunch_conn (s : State) (k : Nat) (f : Launch → Launch) (j : Nat) : (s.modLaunch k f).conn? j = s.conn? j := rfl
@[simp] theorem modLaunch_counter (s : State) (k : Nat) (f : Launch → Launch) (j : Nat) : (s.modLaunch k f).counter j = s.counter j := rfl
@[simp] theorem modLaunch_nx (s : State) (k : Nat) (f : Launch → Launch) (j : Nat) : (s.modLaunch k f).nx? j = s.nx? j := rfl
@[simp] theorem modLaunch_cullet (s : State) (k : Nat) (f : Launch → Launch) (j : Nat) : (s.modLaunch k f).cullet j = s.cullet j := rfl

/-! ### `setOp` -/

@[simp] theorem setOp_agenda (s : State) (k : Nat) (v : Op) : (s.setOp k v).agenda = s.agenda := rfl
@[simp] theorem setOp_cur (s : State) (k : Nat) (v : Op) : (s.setOp k v).cur = s.cur := rfl
@[simp] theorem setOp_free (s : State) (k : Nat) (v : Op) : (s.setOp k v).free = s.free := rfl
@[simp] theorem setOp_serial (s : State) (k : Nat) (v : Op) : (s.setOp k v).serial = s.serial := rfl
@[simp] theorem setOp_cycle (s : State) (k : Nat) (v : Op) : (s.setOp k v).cycle = s.cycle := rfl
@[simp] theorem setOp_time (s : State) (k : Nat) (v : Op) : (s.setOp k v).time = s.time := rfl
@[simp] theorem setOp_locked (s : State) (k : Nat) (v : Op) : (s.setOp k v).locked = s.locked := rfl
@[simp] theorem setOp_slew (s : State) (k : Nat) (v : Op) : (s.setOp k v).slew = s.slew := rfl
@[simp] theorem setOp_upset (s : State) (k : Nat) (v : Op) : (s.setOp k v).upset = s.upset := rfl
@[simp] theorem setOp_mem (s : State) (k : Nat) (v : Op) : (s.setOp k v).mem = s.mem := rfl
@[simp] theorem setOp_admin (s : State) (k : Nat) (v : Op) : (s.setOp k v).admin = s.admin := rfl
@[simp] theorem setOp_eng (s : State) (k : Nat) (v : Op) : (s.setOp k v).eng = s.eng := rfl
@[simp] theorem setOp_sec (s : State) (k : Nat) (v : Op) : (s.setOp k v).sec = s.sec := rfl
@[simp] theorem setOp_outbox (s : State) (k : Nat) (v : Op) : (s.setOp k v).outbox = s.outbox := rfl
@[simp] theorem setOp_group (s : State) (k : Nat) (v : Op) (j : Nat) : (s.setOp k v).group? j = s.group? j := rfl
@[simp] theorem setOp_team (s : State) (k : Nat) (v : Op) (j : Nat) : (s.setOp k v).team? j = s.team? j := rfl
@[simp] theorem setOp_gang (s : State) (k : Nat) (v : Op) (j : Nat) : (s.setOp k v).gang? j = s.gang? j := rfl
@[simp] theorem setOp_launch (s : State) (k : Nat) (v : Op) (j : Nat) : (s.setOp k v).launch? j = s.launch? j := rfl
@[simp] theorem setOp_op_self (s : State) (k : Nat) (v : Op) : (s.setOp k v).op? k = some v := Sparse.get?_put_self _ _ _
theorem setOp_op_ne (s : State) (k : Nat) (v : Op) {j : Nat} (h : j ≠ k) : (s.setOp k v).op? j = s.op? j := Sparse.get?_put_ne _ _ h
@[simp] theorem setOp_core (s : State) (k : Nat) (v : Op) (j : Nat) : (s.setOp k v).core j = s.core j := rfl
@[simp] theorem setOp_queue (s : State) (k : Nat) (v : Op) (j : Nat) : (s.setOp k v).queue j = s.queue j := rfl
@[simp] theorem setOp_tenant (s : State) (k : Nat) (v : Op) (j : Nat) : (s.setOp k v).tenant? j = s.tenant? j := rfl
@[simp] theorem setOp_conn (s : State) (k : Nat) (v : Op) (j : Nat) : (s.setOp k v).conn? j = s.conn? j := rfl
@[simp] theorem setOp_counter (s : State) (k : Nat) (v : Op) (j : Nat) : (s.setOp k v).counter j = s.counter j := rfl
@[simp] theorem setOp_nx (s : State) (k : Nat) (v : Op) (j : Nat) : (s.setOp k v).nx? j = s.nx? j := rfl
@[simp] theorem setOp_cullet (s : State) (k : Nat) (v : Op) (j : Nat) : (s.setOp k v).cullet j = s.cullet j := rfl

/-! ### `delOp` -/

@[simp] theorem delOp_agenda (s : State) (k : Nat) : (s.delOp k).agenda = s.agenda := rfl
@[simp] theorem delOp_cur (s : State) (k : Nat) : (s.delOp k).cur = s.cur := rfl
@[simp] theorem delOp_free (s : State) (k : Nat) : (s.delOp k).free = s.free := rfl
@[simp] theorem delOp_serial (s : State) (k : Nat) : (s.delOp k).serial = s.serial := rfl
@[simp] theorem delOp_cycle (s : State) (k : Nat) : (s.delOp k).cycle = s.cycle := rfl
@[simp] theorem delOp_time (s : State) (k : Nat) : (s.delOp k).time = s.time := rfl
@[simp] theorem delOp_locked (s : State) (k : Nat) : (s.delOp k).locked = s.locked := rfl
@[simp] theorem delOp_slew (s : State) (k : Nat) : (s.delOp k).slew = s.slew := rfl
@[simp] theorem delOp_upset (s : State) (k : Nat) : (s.delOp k).upset = s.upset := rfl
@[simp] theorem delOp_mem (s : State) (k : Nat) : (s.delOp k).mem = s.mem := rfl
@[simp] theorem delOp_admin (s : State) (k : Nat) : (s.delOp k).admin = s.admin := rfl
@[simp] theorem delOp_eng (s : State) (k : Nat) : (s.delOp k).eng = s.eng := rfl
@[simp] theorem delOp_sec (s : State) (k : Nat) : (s.delOp k).sec = s.sec := rfl
@[simp] theorem delOp_outbox (s : State) (k : Nat) : (s.delOp k).outbox = s.outbox := rfl
@[simp] theorem delOp_group (s : State) (k : Nat) (j : Nat) : (s.delOp k).group? j = s.group? j := rfl
@[simp] theorem delOp_team (s : State) (k : Nat) (j : Nat) : (s.delOp k).team? j = s.team? j := rfl
@[simp] theorem delOp_gang (s : State) (k : Nat) (j : Nat) : (s.delOp k).gang? j = s.gang? j := rfl
@[simp] theorem delOp_launch (s : State) (k : Nat) (j : Nat) : (s.delOp k).launch? j = s.launch? j := rfl
@[simp] theorem delOp_op_self (s : State) (k : Nat) : (s.delOp k).op? k = none := Sparse.get?_del_self _ _
theorem delOp_op_ne (s : State) (k : Nat) {j : Nat} (h : j ≠ k) : (s.delOp k).op? j = s.op? j := Sparse.get?_del_ne _ h
@[simp] theorem delOp_core (s : State) (k : Nat) (j : Nat) : (s.delOp k).core j = s.core j := rfl
@[simp] theorem delOp_queue (s : State) (k : Nat) (j : Nat) : (s.delOp k).queue j = s.queue j := rfl
@[simp] theorem delOp_tenant (s : State) (k : Nat) (j : Nat) : (s.delOp k).tenant? j = s.tenant? j := rfl
@[simp] theorem delOp_conn (s : State) (k : Nat) (j : Nat) : (s.delOp k).conn? j = s.conn? j := rfl
@[simp] theorem delOp_counter (s : State) (k : Nat) (j : Nat) : (s.delOp k).counter j = s.counter j := rfl
@[simp] theorem delOp_nx (s : State) (k : Nat) (j : Nat) : (s.delOp k).nx? j = s.nx? j := rfl
@[simp] theorem delOp_cullet (s : State) (k : Nat) (j : Nat) : (s.delOp k).cullet j = s.cullet j := rfl

/-! ### `modCore` -/

@[simp] theorem modCore_agenda (s : State) (k : Nat) (f : Core → Core) : (s.modCore k f).agenda = s.agenda := rfl
@[simp] theorem modCore_cur (s : State) (k : Nat) (f : Core → Core) : (s.modCore k f).cur = s.cur := rfl
@[simp] theorem modCore_free (s : State) (k : Nat) (f : Core → Core) : (s.modCore k f).free = s.free := rfl
@[simp] theorem modCore_serial (s : State) (k : Nat) (f : Core → Core) : (s.modCore k f).serial = s.serial := rfl
@[simp] theorem modCore_cycle (s : State) (k : Nat) (f : Core → Core) : (s.modCore k f).cycle = s.cycle := rfl
@[simp] theorem modCore_time (s : State) (k : Nat) (f : Core → Core) : (s.modCore k f).time = s.time := rfl
@[simp] theorem modCore_locked (s : State) (k : Nat) (f : Core → Core) : (s.modCore k f).locked = s.locked := rfl
@[simp] theorem modCore_slew (s : State) (k : Nat) (f : Core → Core) : (s.modCore k f).slew = s.slew := rfl
@[simp] theorem modCore_upset (s : State) (k : Nat) (f : Core → Core) : (s.modCore k f).upset = s.upset := rfl
@[simp] theorem modCore_mem (s : State) (k : Nat) (f : Core → Core) : (s.modCore k f).mem = s.mem := rfl
@[simp] theorem modCore_admin (s : State) (k : Nat) (f : Core → Core) : (s.modCore k f).admin = s.admin := rfl
@[simp] theorem modCore_eng (s : State) (k : Nat) (f : Core → Core) : (s.modCore k f).eng = s.eng := rfl
@[simp] theorem modCore_sec (s : State) (k : Nat) (f : Core → Core) : (s.modCore k f).sec = s.sec := rfl
@[simp] theorem modCore_outbox (s : State) (k : Nat) (f : Core → Core) : (s.modCore k f).outbox = s.outbox := rfl
@[simp] theorem modCore_group (s : State) (k : Nat) (f : Core → Core) (j : Nat) : (s.modCore k f).group? j = s.group? j := rfl
@[simp] theorem modCore_team (s : State) (k : Nat) (f : Core → Core) (j : Nat) : (s.modCore k f).team? j = s.team? j := rfl
@[simp] theorem modCore_gang (s : State) (k : Nat) (f : Core → Core) (j : Nat) : (s.modCore k f).gang? j = s.gang? j := rfl
@[simp] theorem modCore_launch (s : State) (k : Nat) (f : Core → Core) (j : Nat) : (s.modCore k f).launch? j = s.launch? j := rfl
@[simp] theorem modCore_op (s : State) (k : Nat) (f : Core → Core) (j : Nat) : (s.modCore k f).op? j = s.op? j := rfl
@[simp] theorem modCore_core_self (s : State) (k : Nat) (f : Core → Core) : (s.modCore k f).core k = f (s.core k) := by
  simp [modCore, core]
theorem modCore_core_ne (s : State) (k : Nat) (f : Core → Core) {j : Nat} (h : j ≠ k) : (s.modCore k f).core j = s.core j := by
  simp [modCore, core, Sparse.get?_put_ne _ _ h]
@[simp] theorem modCore_queue (s : State) (k : Nat) (f : Core → Core) (j : Nat) : (s.modCore k f).queue j = s.queue j := rfl
@[simp] theorem modCore_tenant (s : State) (k : Nat) (f : Core → Core) (j : Nat) : (s.modCore k f).tenant? j = s.tenant? j := rfl
@[simp] theorem modCore_conn (s : State) (k : Nat) (f : Core → Core) (j : Nat) : (s.modCore k f).conn? j = s.conn? j := rfl
@[simp] theorem modCore_counter (s : State) (k : Nat) (f : Core → Core) (j : Nat) : (s.modCore k f).counter j = s.counter j := rfl
@[simp] theorem modCore_nx (s : State) (k : Nat) (f : Core → Core) (j : Nat) : (s.modCore k f).nx? j = s.nx? j := rfl
@[simp] theorem modCore_cullet (s : State) (k : Nat) (f : Core → Core) (j : Nat) : (s.modCore k f).cullet j = s.cullet j := rfl

/-! ### `modQueue` -/

@[simp] theorem modQueue_agenda (s : State) (k : Nat) (f : Queue → Queue) : (s.modQueue k f).agenda = s.agenda := rfl
@[simp] theorem modQueue_cur (s : State) (k : Nat) (f : Queue → Queue) : (s.modQueue k f).cur = s.cur := rfl
@[simp] theorem modQueue_free (s : State) (k : Nat) (f : Queue → Queue) : (s.modQueue k f).free = s.free := rfl
@[simp] theorem modQueue_serial (s : State) (k : Nat) (f : Queue → Queue) : (s.modQueue k f).serial = s.serial := rfl
@[simp] theorem modQueue_cycle (s : State) (k : Nat) (f : Queue → Queue) : (s.modQueue k f).cycle = s.cycle := rfl
@[simp] theorem modQueue_time (s : State) (k : Nat) (f : Queue → Queue) : (s.modQueue k f).time = s.time := rfl
@[simp] theorem modQueue_locked (s : State) (k : Nat) (f : Queue → Queue) : (s.modQueue k f).locked = s.locked := rfl
@[simp] theorem modQueue_slew (s : State) (k : Nat) (f : Queue → Queue) : (s.modQueue k f).slew = s.slew := rfl
@[simp] theorem modQueue_upset (s : State) (k : Nat) (f : Queue → Queue) : (s.modQueue k f).upset = s.upset := rfl
@[simp] theorem modQueue_mem (s : State) (k : Nat) (f : Queue → Queue) : (s.modQueue k f).mem = s.mem := rfl
@[simp] theorem modQueue_admin (s : State) (k : Nat) (f : Queue → Queue) : (s.modQueue k f).admin = s.admin := rfl
@[simp] theorem modQueue_eng (s : State) (k : Nat) (f : Queue → Queue) : (s.modQueue k f).eng = s.eng := rfl
@[simp] theorem modQueue_sec (s : State) (k : Nat) (f : Queue → Queue) : (s.modQueue k f).sec = s.sec := rfl
@[simp] theorem modQueue_outbox (s : State) (k : Nat) (f : Queue → Queue) : (s.modQueue k f).outbox = s.outbox := rfl
@[simp] theorem modQueue_group (s : State) (k : Nat) (f : Queue → Queue) (j : Nat) : (s.modQueue k f).group? j = s.group? j := rfl
@[simp] theorem modQueue_team (s : State) (k : Nat) (f : Queue → Queue) (j : Nat) : (s.modQueue k f).team? j = s.team? j := rfl
@[simp] theorem modQueue_gang (s : State) (k : Nat) (f : Queue → Queue) (j : Nat) : (s.modQueue k f).gang? j = s.gang? j := rfl
@[simp] theorem modQueue_launch (s : State) (k : Nat) (f : Queue → Queue) (j : Nat) : (s.modQueue k f).launch? j = s.launch? j := rfl
@[simp] theorem modQueue_op (s : State) (k : Nat) (f : Queue → Queue) (j : Nat) : (s.modQueue k f).op? j = s.op? j := rfl
@[simp] theorem modQueue_core (s : State) (k : Nat) (f : Queue → Queue) (j : Nat) : (s.modQueue k f).core j = s.core j := rfl
@[simp] theorem modQueue_queue_self (s : State) (k : Nat) (f : Queue → Queue) : (s.modQueue k f).queue k = f (s.queue k) := by
  simp [modQueue, queue]
theorem modQueue_queue_ne (s : State) (k : Nat) (f : Queue → Queue) {j : Nat} (h : j ≠ k) : (s.modQueue k f).queue j = s.queue j := by
  simp [modQueue, queue, Sparse.get?_put_ne _ _ h]
@[simp] theorem modQueue_tenant (s : State) (k : Nat) (f : Queue → Queue) (j : Nat) : (s.modQueue k f).tenant? j = s.tenant? j := rfl
@[simp] theorem modQueue_conn (s : State) (k : Nat) (f : Queue → Queue) (j : Nat) : (s.modQueue k f).conn? j = s.conn? j := rfl
@[simp] theorem modQueue_counter (s : State) (k : Nat) (f : Queue → Queue) (j : Nat) : (s.modQueue k f).counter j = s.counter j := rfl
@[simp] theorem modQueue_nx (s : State) (k : Nat) (f : Queue → Queue) (j : Nat) : (s.modQueue k f).nx? j = s.nx? j := rfl
@[simp] theorem modQueue_cullet (s : State) (k : Nat) (f : Queue → Queue) (j : Nat) : (s.modQueue k f).cullet j = s.cullet j := rfl

/-! ### `modTenant` -/

@[simp] theorem modTenant_agenda (s : State) (k : Nat) (f : Tenant → Tenant) : (s.modTenant k f).agenda = s.agenda := rfl
@[simp] theorem modTenant_cur (s : State) (k : Nat) (f : Tenant → Tenant) : (s.modTenant k f).cur = s.cur := rfl
@[simp] theorem modTenant_free (s : State) (k : Nat) (f : Tenant → Tenant) : (s.modTenant k f).free = s.free := rfl
@[simp] theorem modTenant_serial (s : State) (k : Nat) (f : Tenant → Tenant) : (s.modTenant k f).serial = s.serial := rfl
@[simp] theorem modTenant_cycle (s : State) (k : Nat) (f : Tenant → Tenant) : (s.modTenant k f).cycle = s.cycle := rfl
@[simp] theorem modTenant_time (s : State) (k : Nat) (f : Tenant → Tenant) : (s.modTenant k f).time = s.time := rfl
@[simp] theorem modTenant_locked (s : State) (k : Nat) (f : Tenant → Tenant) : (s.modTenant k f).locked = s.locked := rfl
@[simp] theorem modTenant_slew (s : State) (k : Nat) (f : Tenant → Tenant) : (s.modTenant k f).slew = s.slew := rfl
@[simp] theorem modTenant_upset (s : State) (k : Nat) (f : Tenant → Tenant) : (s.modTenant k f).upset = s.upset := rfl
@[simp] theorem modTenant_work (s : State) (k : Nat) (f : Tenant → Tenant) : (s.modTenant k f).work = s.work := rfl
@[simp] theorem modTenant_mem (s : State) (k : Nat) (f : Tenant → Tenant) : (s.modTenant k f).mem = s.mem := rfl
@[simp] theorem modTenant_admin (s : State) (k : Nat) (f : Tenant → Tenant) : (s.modTenant k f).admin = s.admin := rfl
@[simp] theorem modTenant_eng (s : State) (k : Nat) (f : Tenant → Tenant) : (s.modTenant k f).eng = s.eng := rfl
@[simp] theorem modTenant_outbox (s : State) (k : Nat) (f : Tenant → Tenant) : (s.modTenant k f).outbox = s.outbox := rfl
@[simp] theorem modTenant_tenant_self (s : State) (k : Nat) (f : Tenant → Tenant) : (s.modTenant k f).tenant? k = (s.tenant? k).map f := Sparse.get?_upd_self _ _ _
theorem modTenant_tenant_ne (s : State) (k : Nat) (f : Tenant → Tenant) {j : Nat} (h : j ≠ k) : (s.modTenant k f).tenant? j = s.tenant? j := Sparse.get?_upd_ne _ _ h
@[simp] theorem modTenant_group (s : State) (k : Nat) (f : Tenant → Tenant) (j : Nat) : (s.modTenant k f).group? j = s.group? j := rfl
@[simp] theorem modTenant_team (s : State) (k : Nat) (f : Tenant → Tenant) (j : Nat) : (s.modTenant k f).team? j = s.team? j := rfl
@[simp] theorem modTenant_gang (s : State) (k : Nat) (f : Tenant → Tenant) (j : Nat) : (s.modTenant k f).gang? j = s.gang? j := rfl
@[simp] theorem modTenant_launch (s : State) (k : Nat) (f : Tenant → Tenant) (j : Nat) : (s.modTenant k f).launch? j = s.launch? j := rfl
@[simp] theorem modTenant_op (s : State) (k : Nat) (f : Tenant → Tenant) (j : Nat) : (s.modTenant k f).op? j = s.op? j := rfl
@[simp] theorem modTenant_core (s : State) (k : Nat) (f : Tenant → Tenant) (j : Nat) : (s.modTenant k f).core j = s.core j := rfl
@[simp] theorem modTenant_queue (s : State) (k : Nat) (f : Tenant → Tenant) (j : Nat) : (s.modTenant k f).queue j = s.queue j := rfl
@[simp] theorem modTenant_conn (s : State) (k : Nat) (f : Tenant → Tenant) (j : Nat) : (s.modTenant k f).conn? j = s.conn? j := rfl
@[simp] theorem modTenant_counter (s : State) (k : Nat) (f : Tenant → Tenant) (j : Nat) : (s.modTenant k f).counter j = s.counter j := rfl
@[simp] theorem modTenant_nx (s : State) (k : Nat) (f : Tenant → Tenant) (j : Nat) : (s.modTenant k f).nx? j = s.nx? j := rfl
@[simp] theorem modTenant_cullet (s : State) (k : Nat) (f : Tenant → Tenant) (j : Nat) : (s.modTenant k f).cullet j = s.cullet j := rfl

/-! ### `modCounter` -/

@[simp] theorem modCounter_agenda (s : State) (k : Nat) (f : Counter → Counter) : (s.modCounter k f).agenda = s.agenda := rfl
@[simp] theorem modCounter_cur (s : State) (k : Nat) (f : Counter → Counter) : (s.modCounter k f).cur = s.cur := rfl
@[simp] theorem modCounter_free (s : State) (k : Nat) (f : Counter → Counter) : (s.modCounter k f).free = s.free := rfl
@[simp] theorem modCounter_serial (s : State) (k : Nat) (f : Counter → Counter) : (s.modCounter k f).serial = s.serial := rfl
@[simp] theorem modCounter_cycle (s : State) (k : Nat) (f : Counter → Counter) : (s.modCounter k f).cycle = s.cycle := rfl
@[simp] theorem modCounter_time (s : State) (k : Nat) (f : Counter → Counter) : (s.modCounter k f).time = s.time := rfl
@[simp] theorem modCounter_locked (s : State) (k : Nat) (f : Counter → Counter) : (s.modCounter k f).locked = s.locked := rfl
@[simp] theorem modCounter_slew (s : State) (k : Nat) (f : Counter → Counter) : (s.modCounter k f).slew = s.slew := rfl
@[simp] theorem modCounter_upset (s : State) (k : Nat) (f : Counter → Counter) : (s.modCounter k f).upset = s.upset := rfl
@[simp] theorem modCounter_work (s : State) (k : Nat) (f : Counter → Counter) : (s.modCounter k f).work = s.work := rfl
@[simp] theorem modCounter_mem (s : State) (k : Nat) (f : Counter → Counter) : (s.modCounter k f).mem = s.mem := rfl
@[simp] theorem modCounter_admin (s : State) (k : Nat) (f : Counter → Counter) : (s.modCounter k f).admin = s.admin := rfl
@[simp] theorem modCounter_sec (s : State) (k : Nat) (f : Counter → Counter) : (s.modCounter k f).sec = s.sec := rfl
@[simp] theorem modCounter_outbox (s : State) (k : Nat) (f : Counter → Counter) : (s.modCounter k f).outbox = s.outbox := rfl
@[simp] theorem modCounter_conn (s : State) (k : Nat) (f : Counter → Counter) (j : Nat) : (s.modCounter k f).conn? j = s.conn? j := rfl
@[simp] theorem modCounter_counter_self (s : State) (k : Nat) (f : Counter → Counter) : (s.modCounter k f).counter k = f (s.counter k) := by
  simp [modCounter, counter]
theorem modCounter_counter_ne (s : State) (k : Nat) (f : Counter → Counter) {j : Nat} (h : j ≠ k) : (s.modCounter k f).counter j = s.counter j := by
  simp [modCounter, counter, Sparse.get?_put_ne _ _ h]
@[simp] theorem modCounter_nx (s : State) (k : Nat) (f : Counter → Counter) (j : Nat) : (s.modCounter k f).nx? j = s.nx? j := rfl
@[simp] theorem modCounter_cullet (s : State) (k : Nat) (f : Counter → Counter) (j : Nat) : (s.modCounter k f).cullet j = s.cullet j := rfl
@[simp] theorem modCounter_group (s : State) (k : Nat) (f : Counter → Counter) (j : Nat) : (s.modCounter k f).group? j = s.group? j := rfl
@[simp] theorem modCounter_team (s : State) (k : Nat) (f : Counter → Counter) (j : Nat) : (s.modCounter k f).team? j = s.team? j := rfl
@[simp] theorem modCounter_gang (s : State) (k : Nat) (f : Counter → Counter) (j : Nat) : (s.modCounter k f).gang? j = s.gang? j := rfl
@[simp] theorem modCounter_launch (s : State) (k : Nat) (f : Counter → Counter) (j : Nat) : (s.modCounter k f).launch? j = s.launch? j := rfl
@[simp] theorem modCounter_op (s : State) (k : Nat) (f : Counter → Counter) (j : Nat) : (s.modCounter k f).op? j = s.op? j := rfl
@[simp] theorem modCounter_core (s : State) (k : Nat) (f : Counter → Counter) (j : Nat) : (s.modCounter k f).core j = s.core j := rfl
@[simp] theorem modCounter_queue (s : State) (k : Nat) (f : Counter → Counter) (j : Nat) : (s.modCounter k f).queue j = s.queue j := rfl
@[simp] theorem modCounter_tenant (s : State) (k : Nat) (f : Counter → Counter) (j : Nat) : (s.modCounter k f).tenant? j = s.tenant? j := rfl

/-! ### `setNx` -/

@[simp] theorem setNx_agenda (s : State) (k : Nat) (v : NxCmd) : (s.setNx k v).agenda = s.agenda := rfl
@[simp] theorem setNx_cur (s : State) (k : Nat) (v : NxCmd) : (s.setNx k v).cur = s.cur := rfl
@[simp] theorem setNx_free (s : State) (k : Nat) (v : NxCmd) : (s.setNx k v).free = s.free := rfl
@[simp] theorem setNx_serial (s : State) (k : Nat) (v : NxCmd) : (s.setNx k v).serial = s.serial := rfl
@[simp] theorem setNx_cycle (s : State) (k : Nat) (v : NxCmd) : (s.setNx k v).cycle = s.cycle := rfl
@[simp] theorem setNx_time (s : State) (k : Nat) (v : NxCmd) : (s.setNx k v).time = s.time := rfl
@[simp] theorem setNx_locked (s : State) (k : Nat) (v : NxCmd) : (s.setNx k v).locked = s.locked := rfl
@[simp] theorem setNx_slew (s : State) (k : Nat) (v : NxCmd) : (s.setNx k v).slew = s.slew := rfl
@[simp] theorem setNx_upset (s : State) (k : Nat) (v : NxCmd) : (s.setNx k v).upset = s.upset := rfl
@[simp] theorem setNx_work (s : State) (k : Nat) (v : NxCmd) : (s.setNx k v).work = s.work := rfl
@[simp] theorem setNx_mem (s : State) (k : Nat) (v : NxCmd) : (s.setNx k v).mem = s.mem := rfl
@[simp] theorem setNx_admin (s : State) (k : Nat) (v : NxCmd) : (s.setNx k v).admin = s.admin := rfl
@[simp] theorem setNx_sec (s : State) (k : Nat) (v : NxCmd) : (s.setNx k v).sec = s.sec := rfl
@[simp] theorem setNx_outbox (s : State) (k : Nat) (v : NxCmd) : (s.setNx k v).outbox = s.outbox := rfl
@[simp] theorem setNx_conn (s : State) (k : Nat) (v : NxCmd) (j : Nat) : (s.setNx k v).conn? j = s.conn? j := rfl
@[simp] theorem setNx_counter (s : State) (k : Nat) (v : NxCmd) (j : Nat) : (s.setNx k v).counter j = s.counter j := rfl
@[simp] theorem setNx_nx_self (s : State) (k : Nat) (v : NxCmd) : (s.setNx k v).nx? k = some v := Sparse.get?_put_self _ _ _
theorem setNx_nx_ne (s : State) (k : Nat) (v : NxCmd) {j : Nat} (h : j ≠ k) : (s.setNx k v).nx? j = s.nx? j := Sparse.get?_put_ne _ _ h
@[simp] theorem setNx_cullet (s : State) (k : Nat) (v : NxCmd) (j : Nat) : (s.setNx k v).cullet j = s.cullet j := rfl
@[simp] theorem setNx_group (s : State) (k : Nat) (v : NxCmd) (j : Nat) : (s.setNx k v).group? j = s.group? j := rfl
@[simp] theorem setNx_team (s : State) (k : Nat) (v : NxCmd) (j : Nat) : (s.setNx k v).team? j = s.team? j := rfl
@[simp] theorem setNx_gang (s : State) (k : Nat) (v : NxCmd) (j : Nat) : (s.setNx k v).gang? j = s.gang? j := rfl
@[simp] theorem setNx_launch (s : State) (k : Nat) (v : NxCmd) (j : Nat) : (s.setNx k v).launch? j = s.launch? j := rfl
@[simp] theorem setNx_op (s : State) (k : Nat) (v : NxCmd) (j : Nat) : (s.setNx k v).op? j = s.op? j := rfl
@[simp] theorem setNx_core (s : State) (k : Nat) (v : NxCmd) (j : Nat) : (s.setNx k v).core j = s.core j := rfl
@[simp] theorem setNx_queue (s : State) (k : Nat) (v : NxCmd) (j : Nat) : (s.setNx k v).queue j = s.queue j := rfl
@[simp] theorem setNx_tenant (s : State) (k : Nat) (v : NxCmd) (j : Nat) : (s.setNx k v).tenant? j = s.tenant? j := rfl

/-! ### `delNx` -/

@[simp] theorem delNx_agenda (s : State) (k : Nat) : (s.delNx k).agenda = s.agenda := rfl
@[simp] theorem delNx_cur (s : State) (k : Nat) : (s.delNx k).cur = s.cur := rfl
@[simp] theorem delNx_free (s : State) (k : Nat) : (s.delNx k).free = s.free := rfl
@[simp] theorem delNx_serial (s : State) (k : Nat) : (s.delNx k).serial = s.serial := rfl
@[simp] theorem delNx_cycle (s : State) (k : Nat) : (s.delNx k).cycle = s.cycle := rfl
@[simp] theorem delNx_time (s : State) (k : Nat) : (s.delNx k).time = s.time := rfl
@[simp] theorem delNx_locked (s : State) (k : Nat) : (s.delNx k).locked = s.locked := rfl
@[simp] theorem delNx_slew (s : State) (k : Nat) : (s.delNx k).slew = s.slew := rfl
@[simp] theorem delNx_upset (s : State) (k : Nat) : (s.delNx k).upset = s.upset := rfl
@[simp] theorem delNx_work (s : State) (k : Nat) : (s.delNx k).work = s.work := rfl
@[simp] theorem delNx_mem (s : State) (k : Nat) : (s.delNx k).mem = s.mem := rfl
@[simp] theorem delNx_admin (s : State) (k : Nat) : (s.delNx k).admin = s.admin := rfl
@[simp] theorem delNx_sec (s : State) (k : Nat) : (s.delNx k).sec = s.sec := rfl
@[simp] theorem delNx_outbox (s : State) (k : Nat) : (s.delNx k).outbox = s.outbox := rfl
@[simp] theorem delNx_conn (s : State) (k : Nat) (j : Nat) : (s.delNx k).conn? j = s.conn? j := rfl
@[simp] theorem delNx_counter (s : State) (k : Nat) (j : Nat) : (s.delNx k).counter j = s.counter j := rfl
@[simp] theorem delNx_nx_self (s : State) (k : Nat) : (s.delNx k).nx? k = none := Sparse.get?_del_self _ _
theorem delNx_nx_ne (s : State) (k : Nat) {j : Nat} (h : j ≠ k) : (s.delNx k).nx? j = s.nx? j := Sparse.get?_del_ne _ h
@[simp] theorem delNx_cullet (s : State) (k : Nat) (j : Nat) : (s.delNx k).cullet j = s.cullet j := rfl
@[simp] theorem delNx_group (s : State) (k : Nat) (j : Nat) : (s.delNx k).group? j = s.group? j := rfl
@[simp] theorem delNx_team (s : State) (k : Nat) (j : Nat) : (s.delNx k).team? j = s.team? j := rfl
@[simp] theorem delNx_gang (s : State) (k : Nat) (j : Nat) : (s.delNx k).gang? j = s.gang? j := rfl
@[simp] theorem delNx_launch (s : State) (k : Nat) (j : Nat) : (s.delNx k).launch? j = s.launch? j := rfl
@[simp] theorem delNx_op (s : State) (k : Nat) (j : Nat) : (s.delNx k).op? j = s.op? j := rfl
@[simp] theorem delNx_core (s : State) (k : Nat) (j : Nat) : (s.delNx k).core j = s.core j := rfl
@[simp] theorem delNx_queue (s : State) (k : Nat) (j : Nat) : (s.delNx k).queue j = s.queue j := rfl
@[simp] theorem delNx_tenant (s : State) (k : Nat) (j : Nat) : (s.delNx k).tenant? j = s.tenant? j := rfl

/-! ### `modCullet` -/

@[simp] theorem modCullet_agenda (s : State) (k : Nat) (f : Cullet → Cullet) : (s.modCullet k f).agenda = s.agenda := rfl
@[simp] theorem modCullet_cur (s : State) (k : Nat) (f : Cullet → Cullet) : (s.modCullet k f).cur = s.cur := rfl
@[simp] theorem modCullet_free (s : State) (k : Nat) (f : Cullet → Cullet) : (s.modCullet k f).free = s.free := rfl
@[simp] theorem modCullet_serial (s : State) (k : Nat) (f : Cullet → Cullet) : (s.modCullet k f).serial = s.serial := rfl
@[simp] theorem modCullet_cycle (s : State) (k : Nat) (f : Cullet → Cullet) : (s.modCullet k f).cycle = s.cycle := rfl
@[simp] theorem modCullet_time (s : State) (k : Nat) (f : Cullet → Cullet) : (s.modCullet k f).time = s.time := rfl
@[simp] theorem modCullet_locked (s : State) (k : Nat) (f : Cullet → Cullet) : (s.modCullet k f).locked = s.locked := rfl
@[simp] theorem modCullet_slew (s : State) (k : Nat) (f : Cullet → Cullet) : (s.modCullet k f).slew = s.slew := rfl
@[simp] theorem modCullet_upset (s : State) (k : Nat) (f : Cullet → Cullet) : (s.modCullet k f).upset = s.upset := rfl
@[simp] theorem modCullet_work (s : State) (k : Nat) (f : Cullet → Cullet) : (s.modCullet k f).work = s.work := rfl
@[simp] theorem modCullet_mem (s : State) (k : Nat) (f : Cullet → Cullet) : (s.modCullet k f).mem = s.mem := rfl
@[simp] theorem modCullet_admin (s : State) (k : Nat) (f : Cullet → Cullet) : (s.modCullet k f).admin = s.admin := rfl
@[simp] theorem modCullet_sec (s : State) (k : Nat) (f : Cullet → Cullet) : (s.modCullet k f).sec = s.sec := rfl
@[simp] theorem modCullet_outbox (s : State) (k : Nat) (f : Cullet → Cullet) : (s.modCullet k f).outbox = s.outbox := rfl
@[simp] theorem modCullet_conn (s : State) (k : Nat) (f : Cullet → Cullet) (j : Nat) : (s.modCullet k f).conn? j = s.conn? j := rfl
@[simp] theorem modCullet_counter (s : State) (k : Nat) (f : Cullet → Cullet) (j : Nat) : (s.modCullet k f).counter j = s.counter j := rfl
@[simp] theorem modCullet_nx (s : State) (k : Nat) (f : Cullet → Cullet) (j : Nat) : (s.modCullet k f).nx? j = s.nx? j := rfl
@[simp] theorem modCullet_group (s : State) (k : Nat) (f : Cullet → Cullet) (j : Nat) : (s.modCullet k f).group? j = s.group? j := rfl
@[simp] theorem modCullet_team (s : State) (k : Nat) (f : Cullet → Cullet) (j : Nat) : (s.modCullet k f).team? j = s.team? j := rfl
@[simp] theorem modCullet_gang (s : State) (k : Nat) (f : Cullet → Cullet) (j : Nat) : (s.modCullet k f).gang? j = s.gang? j := rfl
@[simp] theorem modCullet_launch (s : State) (k : Nat) (f : Cullet → Cullet) (j : Nat) : (s.modCullet k f).launch? j = s.launch? j := rfl
@[simp] theorem modCullet_op (s : State) (k : Nat) (f : Cullet → Cullet) (j : Nat) : (s.modCullet k f).op? j = s.op? j := rfl
@[simp] theorem modCullet_core (s : State) (k : Nat) (f : Cullet → Cullet) (j : Nat) : (s.modCullet k f).core j = s.core j := rfl
@[simp] theorem modCullet_queue (s : State) (k : Nat) (f : Cullet → Cullet) (j : Nat) : (s.modCullet k f).queue j = s.queue j := rfl
@[simp] theorem modCullet_tenant (s : State) (k : Nat) (f : Cullet → Cullet) (j : Nat) : (s.modCullet k f).tenant? j = s.tenant? j := rfl

/-! ### `bump` -/

@[simp] theorem bump_agenda (s : State) : (s.bump).agenda = s.agenda := rfl
@[simp] theorem bump_cur (s : State) : (s.bump).cur = s.cur := rfl
@[simp] theorem bump_serial (s : State) : (s.bump).serial = s.serial := rfl
@[simp] theorem bump_cycle (s : State) : (s.bump).cycle = s.cycle := rfl
@[simp] theorem bump_time (s : State) : (s.bump).time = s.time := rfl
@[simp] theorem bump_locked (s : State) : (s.bump).locked = s.locked := rfl
@[simp] theorem bump_slew (s : State) : (s.bump).slew = s.slew := rfl
@[simp] theorem bump_upset (s : State) : (s.bump).upset = s.upset := rfl
@[simp] theorem bump_work (s : State) : (s.bump).work = s.work := rfl
@[simp] theorem bump_mem (s : State) : (s.bump).mem = s.mem := rfl
@[simp] theorem bump_admin (s : State) : (s.bump).admin = s.admin := rfl
@[simp] theorem bump_eng (s : State) : (s.bump).eng = s.eng := rfl
@[simp] theorem bump_sec (s : State) : (s.bump).sec = s.sec := rfl
@[simp] theorem bump_outbox (s : State) : (s.bump).outbox = s.outbox := rfl
@[simp] theorem bump_group (s : State) (j : Nat) : (s.bump).group? j = s.group? j := rfl
@[simp] theorem bump_team (s : State) (j : Nat) : (s.bump).team? j = s.team? j := rfl
@[simp] theorem bump_gang (s : State) (j : Nat) : (s.bump).gang? j = s.gang? j := rfl
@[simp] theorem bump_launch (s : State) (j : Nat) : (s.bump).launch? j = s.launch? j := rfl
@[simp] theorem bump_op (s : State) (j : Nat) : (s.bump).op? j = s.op? j := rfl
@[simp] theorem bump_core (s : State) (j : Nat) : (s.bump).core j = s.core j := rfl
@[simp] theorem bump_queue (s : State) (j : Nat) : (s.bump).queue j = s.queue j := rfl
@[simp] theorem bump_tenant (s : State) (j : Nat) : (s.bump).tenant? j = s.tenant? j := rfl
@[simp] theorem bump_conn (s : State) (j : Nat) : (s.bump).conn? j = s.conn? j := rfl
@[simp] theorem bump_counter (s : State) (j : Nat) : (s.bump).counter j = s.counter j := rfl
@[simp] theorem bump_nx (s : State) (j : Nat) : (s.bump).nx? j = s.nx? j := rfl
@[simp] theorem bump_cullet (s : State) (j : Nat) : (s.bump).cullet j = s.cullet j := rfl

/-! ### `fresh` -/

@[simp] theorem fresh_agenda (s : State) : (s.fresh).agenda = s.agenda := rfl
@[simp] theorem fresh_cur (s : State) : (s.fresh).cur = s.cur := rfl
@[simp] theorem fresh_free (s : State) : (s.fresh).free = s.free := rfl
@[simp] theorem fresh_cycle (s : State) : (s.fresh).cycle = s.cycle := rfl
@[simp] theorem fresh_time (s : State) : (s.fresh).time = s.time := rfl
@[simp] theorem fresh_locked (s : State) : (s.fresh).locked = s.locked := rfl
@[simp] theorem fresh_slew (s : State) : (s.fresh).slew = s.slew := rfl
@[simp] theorem fresh_upset (s : State) : (s.fresh).upset = s.upset := rfl
@[simp] theorem fresh_work (s : State) : (s.fresh).work = s.work := rfl
@[simp] theorem fresh_mem (s : State) : (s.fresh).mem = s.mem := rfl
@[simp] theorem fresh_admin (s : State) : (s.fresh).admin = s.admin := rfl
@[simp] theorem fresh_eng (s : State) : (s.fresh).eng = s.eng := rfl
@[simp] theorem fresh_sec (s : State) : (s.fresh).sec = s.sec := rfl
@[simp] theorem fresh_outbox (s : State) : (s.fresh).outbox = s.outbox := rfl
@[simp] theorem fresh_group (s : State) (j : Nat) : (s.fresh).group? j = s.group? j := rfl
@[simp] theorem fresh_team (s : State) (j : Nat) : (s.fresh).team? j = s.team? j := rfl
@[simp] theorem fresh_gang (s : State) (j : Nat) : (s.fresh).gang? j = s.gang? j := rfl
@[simp] theorem fresh_launch (s : State) (j : Nat) : (s.fresh).launch? j = s.launch? j := rfl
@[simp] theorem fresh_op (s : State) (j : Nat) : (s.fresh).op? j = s.op? j := rfl
@[simp] theorem fresh_core (s : State) (j : Nat) : (s.fresh).core j = s.core j := rfl
@[simp] theorem fresh_queue (s : State) (j : Nat) : (s.fresh).queue j = s.queue j := rfl
@[simp] theorem fresh_tenant (s : State) (j : Nat) : (s.fresh).tenant? j = s.tenant? j := rfl
@[simp] theorem fresh_conn (s : State) (j : Nat) : (s.fresh).conn? j = s.conn? j := rfl
@[simp] theorem fresh_counter (s : State) (j : Nat) : (s.fresh).counter j = s.counter j := rfl
@[simp] theorem fresh_nx (s : State) (j : Nat) : (s.fresh).nx? j = s.nx? j := rfl
@[simp] theorem fresh_cullet (s : State) (j : Nat) : (s.fresh).cullet j = s.cullet j := rfl

/-! ### `say` -/

@[simp] theorem say_agenda (s : State) (m : Msg) : (s.say m).agenda = s.agenda := rfl
@[simp] theorem say_cur (s : State) (m : Msg) : (s.say m).cur = s.cur := rfl
@[simp] theorem say_free (s : State) (m : Msg) : (s.say m).free = s.free := rfl
@[simp] theorem say_serial (s : State) (m : Msg) : (s.say m).serial = s.serial := rfl
@[simp] theorem say_cycle (s : State) (m : Msg) : (s.say m).cycle = s.cycle := rfl
@[simp] theorem say_time (s : State) (m : Msg) : (s.say m).time = s.time := rfl
@[simp] theorem say_locked (s : State) (m : Msg) : (s.say m).locked = s.locked := rfl
@[simp] theorem say_slew (s : State) (m : Msg) : (s.say m).slew = s.slew := rfl
@[simp] theorem say_upset (s : State) (m : Msg) : (s.say m).upset = s.upset := rfl
@[simp] theorem say_work (s : State) (m : Msg) : (s.say m).work = s.work := rfl
@[simp] theorem say_mem (s : State) (m : Msg) : (s.say m).mem = s.mem := rfl
@[simp] theorem say_admin (s : State) (m : Msg) : (s.say m).admin = s.admin := rfl
@[simp] theorem say_eng (s : State) (m : Msg) : (s.say m).eng = s.eng := rfl
@[simp] theorem say_sec (s : State) (m : Msg) : (s.say m).sec = s.sec := rfl
@[simp] theorem say_group (s : State) (m : Msg) (j : Nat) : (s.say m).group? j = s.group? j := rfl
@[simp] theorem say_team (s : State) (m : Msg) (j : Nat) : (s.say m).team? j = s.team? j := rfl
@[simp] theorem say_gang (s : State) (m : Msg) (j : Nat) : (s.say m).gang? j = s.gang? j := rfl
@[simp] theorem say_launch (s : State) (m : Msg) (j : Nat) : (s.say m).launch? j = s.launch? j := rfl
@[simp] theorem say_op (s : State) (m : Msg) (j : Nat) : (s.say m).op? j = s.op? j := rfl
@[simp] theorem say_core (s : State) (m : Msg) (j : Nat) : (s.say m).core j = s.core j := rfl
@[simp] theorem say_queue (s : State) (m : Msg) (j : Nat) : (s.say m).queue j = s.queue j := rfl
@[simp] theorem say_tenant (s : State) (m : Msg) (j : Nat) : (s.say m).tenant? j = s.tenant? j := rfl
@[simp] theorem say_conn (s : State) (m : Msg) (j : Nat) : (s.say m).conn? j = s.conn? j := rfl
@[simp] theorem say_counter (s : State) (m : Msg) (j : Nat) : (s.say m).counter j = s.counter j := rfl
@[simp] theorem say_nx (s : State) (m : Msg) (j : Nat) : (s.say m).nx? j = s.nx? j := rfl
@[simp] theorem say_cullet (s : State) (m : Msg) (j : Nat) : (s.say m).cullet j = s.cullet j := rfl

/-! ### `plan` -/

@[simp] theorem plan_cur (s : State) (t : Turn) : (s.plan t).cur = s.cur := rfl
@[simp] theorem plan_free (s : State) (t : Turn) : (s.plan t).free = s.free := rfl
@[simp] theorem plan_serial (s : State) (t : Turn) : (s.plan t).serial = s.serial := rfl
@[simp] theorem plan_cycle (s : State) (t : Turn) : (s.plan t).cycle = s.cycle := rfl
@[simp] theorem plan_time (s : State) (t : Turn) : (s.plan t).time = s.time := rfl
@[simp] theorem plan_locked (s : State) (t : Turn) : (s.plan t).locked = s.locked := rfl
@[simp] theorem plan_slew (s : State) (t : Turn) : (s.plan t).slew = s.slew := rfl
@[simp] theorem plan_upset (s : State) (t : Turn) : (s.plan t).upset = s.upset := rfl
@[simp] theorem plan_work (s : State) (t : Turn) : (s.plan t).work = s.work := rfl
@[simp] theorem plan_mem (s : State) (t : Turn) : (s.plan t).mem = s.mem := rfl
@[simp] theorem plan_admin (s : State) (t : Turn) : (s.plan t).admin = s.admin := rfl
@[simp] theorem plan_eng (s : State) (t : Turn) : (s.plan t).eng = s.eng := rfl
@[simp] theorem plan_sec (s : State) (t : Turn) : (s.plan t).sec = s.sec := rfl
@[simp] theorem plan_outbox (s : State) (t : Turn) : (s.plan t).outbox = s.outbox := rfl
@[simp] theorem plan_group (s : State) (t : Turn) (j : Nat) : (s.plan t).group? j = s.group? j := rfl
@[simp] theorem plan_team (s : State) (t : Turn) (j : Nat) : (s.plan t).team? j = s.team? j := rfl
@[simp] theorem plan_gang (s : State) (t : Turn) (j : Nat) : (s.plan t).gang? j = s.gang? j := rfl
@[simp] theorem plan_launch (s : State) (t : Turn) (j : Nat) : (s.plan t).launch? j = s.launch? j := rfl
@[simp] theorem plan_op (s : State) (t : Turn) (j : Nat) : (s.plan t).op? j = s.op? j := rfl
@[simp] theorem plan_core (s : State) (t : Turn) (j : Nat) : (s.plan t).core j = s.core j := rfl
@[simp] theorem plan_queue (s : State) (t : Turn) (j : Nat) : (s.plan t).queue j = s.queue j := rfl
@[simp] theorem plan_tenant (s : State) (t : Turn) (j : Nat) : (s.plan t).tenant? j = s.tenant? j := rfl
@[simp] theorem plan_conn (s : State) (t : Turn) (j : Nat) : (s.plan t).conn? j = s.conn? j := rfl
@[simp] theorem plan_counter (s : State) (t : Turn) (j : Nat) : (s.plan t).counter j = s.counter j := rfl
@[simp] theorem plan_nx (s : State) (t : Turn) (j : Nat) : (s.plan t).nx? j = s.nx? j := rfl
@[simp] theorem plan_cullet (s : State) (t : Turn) (j : Nat) : (s.plan t).cullet j = s.cullet j := rfl

end State

end Sys2Proof.Machine
end

