-- ==== Sys2Proof/Laws/Issue.lean ====
section
/-! SUPPORT. What the shared operations of an issue do: its context, the frame, retiring lanes, and the ends of
instructions of fixed and of long latency. -/

namespace Sys2Proof.Machine

/-! ### The context of an issue -/

/-- The group of a context is the one in its slot. -/
theorem ctx_group {s : State} {i : Instr} {x : Ctx} (h : s.ctx? i = some x) : s.group? x.key = some x.g := by
  unfold State.ctx? at h
  split at h
  · split at h
    · split at h
      · split at h
        · simp only [Option.some.injEq] at h
          subst h
          assumption
        · simp at h
      · simp at h
    · simp at h
  · simp at h

theorem ctx_team {s : State} {i : Instr} {x : Ctx} (h : s.ctx? i = some x) : s.team? x.g.team = some x.t := by
  unfold State.ctx? at h
  split at h
  · split at h
    · split at h
      · split at h
        · simp only [Option.some.injEq] at h
          subst h
          assumption
        · simp at h
      · simp at h
    · simp at h
  · simp at h

theorem ctx_launch {s : State} {i : Instr} {x : Ctx} (h : s.ctx? i = some x) : s.launch? x.t.launch = some x.ln := by
  unfold State.ctx? at h
  split at h
  · split at h
    · split at h
      · split at h
        · simp only [Option.some.injEq] at h
          subst h
          assumption
        · simp at h
      · simp at h
    · simp at h
  · simp at h

theorem ctx_view {s : State} {i : Instr} {x : Ctx} (h : s.ctx? i = some x) : view i = some x.v := by
  unfold State.ctx? at h
  split at h
  · split at h
    · split at h
      · split at h
        · simp only [Option.some.injEq] at h
          subst h
          assumption
        · simp at h
      · simp at h
    · simp at h
  · simp at h

theorem ctx_on {s : State} {i : Instr} {x : Ctx} (h : s.ctx? i = some x) :
    x.on = (lanesOf x.mask).filter (s.guard x.g x.v.c) := by
  unfold State.ctx? at h
  split at h
  · split at h
    · split at h
      · split at h
        · simp only [Option.some.injEq] at h
          subst h
          rfl
        · simp at h
      · simp at h
    · simp at h
  · simp at h

theorem ctx_off {s : State} {i : Instr} {x : Ctx} (h : s.ctx? i = some x) :
    x.off = (lanesOf x.mask).filter fun l => !s.guard x.g x.v.c l := by
  unfold State.ctx? at h
  split at h
  · split at h
    · split at h
      · split at h
        · simp only [Option.some.injEq] at h
          subst h
          rfl
        · simp at h
      · simp at h
    · simp at h
  · simp at h

/-- A guard-true lane is a lane of the issue. -/
theorem ctx_on_lt {s : State} {i : Instr} {x : Ctx} (h : s.ctx? i = some x) {l : Nat} (hl : l ∈ x.on) : l < 32 := by
  rw [ctx_on h, List.mem_filter] at hl
  exact ((mem_lanesOf _ _).1 hl.1).1

theorem ctx_off_lt {s : State} {i : Instr} {x : Ctx} (h : s.ctx? i = some x) {l : Nat} (hl : l ∈ x.off) : l < 32 := by
  rw [ctx_off h, List.mem_filter] at hl
  exact ((mem_lanesOf _ _).1 hl.1).1

/-- A lane's guard is not both true and false. -/
theorem ctx_disjoint {s : State} {i : Instr} {x : Ctx} (h : s.ctx? i = some x) {l : Nat} (hl : l ∈ x.off) : l ∉ x.on := by
  rw [ctx_on h, List.mem_filter]
  rw [ctx_off h, List.mem_filter] at hl
  intro hn
  simp [hn.2] at hl

/-! ### The frame -/

/-- An instruction that issues runs its body. -/
theorem frame_issues {s : State} {i : Instr} {x : Ctx} (h : Issues s i x) (body : Ctx → State → State) :
    frame i s body = .next (body x s).bump := by
  have hg : (lanesOf x.mask).any (s.guardPsn x.g x.v.c) = false := by
    rw [List.any_eq_false]
    intro l hl
    simp [h.guards l hl]
  have hc : (collective x.opc && !(x.mask == BitVec.allOnes 32 && x.off.isEmpty)) = false := by
    cases hx : collective x.opc with
    | false => rfl
    | true =>
      obtain ⟨h1, h2⟩ := h.converged hx
      simp [h1, h2]
  simp only [frame, h.ctx, h.legal, hg, h.uniform, Bool.or_self, hc, Bool.false_eq_true, ↓reduceIte]

/-! ### Retiring lanes -/

theorem State.laneIn_of {s : State} {key : Nat} {g : Group} (h : s.group? key = some g) (l : Nat) :
    s.laneIn key l = g.lane l := by
  simp [State.laneIn, h]

theorem State.kAt_of {s : State} {key : Nat} {g : Group} (h : s.group? key = some g) : s.kAt key = g.k := by
  simp [State.kAt, h]

theorem State.kByAt_of {s : State} {key : Nat} {g : Group} (h : s.group? key = some g) : s.kByAt key = g.kBy := by
  simp [State.kByAt, h]

theorem State.flagsAt_of {s : State} {key : Nat} {g : Group} (h : s.group? key = some g) : s.flagsAt key = g.flags := by
  simp [State.flagsAt, h]

theorem State.slicesAt_of {s : State} {key : Nat} {g : Group} (h : s.group? key = some g) : s.slicesAt key = g.slices := by
  simp [State.slicesAt, h]

@[simp] theorem State.laneIn_bump (s : State) (key l : Nat) : s.bump.laneIn key l = s.laneIn key l := rfl
@[simp] theorem State.kAt_bump (s : State) (key : Nat) : s.bump.kAt key = s.kAt key := rfl
@[simp] theorem State.slicesAt_bump (s : State) (key : Nat) : s.bump.slicesAt key = s.slicesAt key := rfl
@[simp] theorem State.flagsAt_bump (s : State) (key : Nat) : s.bump.flagsAt key = s.flagsAt key := rfl

theorem Frame.bump {s t : State} {x : Ctx} (h : Frame s t x) : Frame s t.bump x :=
  ⟨h.mem, h.admin, h.eng, h.sec, h.cycle, h.time, h.teams, h.gangs, h.launches, h.cores, h.queues, h.kills, h.starting,
    h.others, h.group⟩

theorem Issued.bump {s t : State} {x : Ctx} {onF offF : Nat → Lane → Lane} {k : List (Reg Word)} {sl : List Slice}
    (h : Issued s t x onF offF k sl) : Issued s t.bump x onF offF k sl :=
  ⟨h.frame.bump, h.on, h.off, h.rest, h.uniform, h.slices, h.flags⟩

theorem RetiredBy.bump {u t : State} {x : Ctx} {outs : List Out} {nres : Nat} {first : Option (BitVec 6)} {dst : BitVec 6}
    {marks : List Nat} {a offA : Avail} (h : RetiredBy u t x outs nres first dst marks a offA) :
    RetiredBy u t.bump x outs nres first dst marks a offA :=
  ⟨h.frame.bump, h.lanes, h.uniform, h.slices, h.flags⟩

/-- A change of a group's lanes, uniform registers, flags and slices alone. -/
theorem frame_modGroup {u : State} {x : Ctx} {h : Group} (hg : u.group? x.key = some h) (w : Group → Group)
    (hw : { w h with lanes := h.lanes, k := h.k, kBy := h.kBy, flags := h.flags, slices := h.slices } = h) :
    Frame u (u.modGroup x.key w) x :=
  ⟨rfl, rfl, rfl, rfl, rfl, rfl, rfl, rfl, rfl, rfl, rfl, rfl, rfl, fun _ hk => State.modGroup_group_ne _ _ _ hk,
    w h, h, hg, by rw [State.modGroup_group_self, hg]; rfl, hw⟩

theorem Frame.refl {s : State} {x : Ctx} {h : Group} (hg : s.group? x.key = some h) : Frame s s x :=
  ⟨rfl, rfl, rfl, rfl, rfl, rfl, rfl, rfl, rfl, rfl, rfl, rfl, rfl, fun _ _ => rfl, h, h, hg, hg, rfl⟩

theorem Frame.trans {s t u : State} {x : Ctx} (a : Frame s t x) (b : Frame t u x) : Frame s u x := by
  obtain ⟨g, h, h1, h2, h3⟩ := a.group
  obtain ⟨g', h', h1', h2', h3'⟩ := b.group
  rw [h2, Option.some.injEq] at h1'
  subst h1'
  refine ⟨b.mem.trans a.mem, b.admin.trans a.admin, b.eng.trans a.eng, b.sec.trans a.sec, b.cycle.trans a.cycle,
    b.time.trans a.time, b.teams.trans a.teams, b.gangs.trans a.gangs, b.launches.trans a.launches, b.cores.trans a.cores,
    b.queues.trans a.queues, b.kills.trans a.kills, b.starting.trans a.starting, fun k hk => (b.others k hk).trans (a.others k hk), g', h, h1, h2', ?_⟩
  rw [← h3, ← h3']

/-- What a write of a uniform register does to a group. -/
theorem writeK_spec (g : Group) (now : Nat) (m : LaneMask) (lane : Nat) (dst : BitVec 6) (v : RedVal) (a : Avail) :
    { g.writeK now m lane dst v a with k := g.k, kBy := g.kBy } = g ∧
      (g.writeK now m lane dst v a).k =
        if 0x30 ≤ dst.toNat ∧ dst.toNat < 0x3F ∧ overtaken g.kBy now m lane (dst.toNat - 0x30) a = false then
          updAt (fun r => r.write v.1 v.2 a) (dst.toNat - 0x30) g.k
        else g.k := by
  unfold Group.writeK
  by_cases hd : 48 ≤ dst.toNat ∧ dst.toNat < 63
  · cases hk : g.kBy.get? (dst.toNat - 48) with
    | none => cases a <;> simp [overtaken, hk, hd]
    | some e =>
      by_cases hc : e.1 = now ∧ e.2 < lane ∧ has m e.2 = false
      · cases a <;> simp [overtaken, hk, hd, hc]
      · cases a <;> simp [overtaken, hk, hd, hc] <;> intros <;> simp_all
  · have : ¬ (48 ≤ dst.toNat ∧ dst.toNat < 63 ∧ overtaken g.kBy now m lane (dst.toNat - 48) a = false) :=
      fun h => hd ⟨h.1, h.2.1⟩
    simp only [hd, this, ↓reduceIte, and_self]

/-- What a uniform destination does to a group. -/
theorem retireK_spec (g : Group) (now : Nat) (m : LaneMask) (out : Option Out) (dst : BitVec 6) (a : Avail) :
    { g.retireK now m out dst a with k := g.k, kBy := g.kBy } = g ∧
      (g.retireK now m out dst a).k = uniformAfter g.k g.kBy now m out dst a := by
  cases out with
  | none => exact ⟨rfl, rfl⟩
  | some o =>
    simp only [Group.retireK, uniformAfter]
    cases o.vals.getLast? with
    | none => exact ⟨rfl, rfl⟩
    | some v => exact writeK_spec g now m o.lane dst v a

/-- The lanes of an issue retire. -/
theorem retire_by {u : State} {x : Ctx} {h : Group} (hg : u.group? x.key = some h) (hn : h.lanes.length = 32)
    (outs : List Out) (nres : Nat) (first : Option (BitVec 6)) (dst : BitVec 6) (marks : List Nat) (a offA : Avail) :
    ∃ g, (u.retire x outs nres first dst marks a offA).group? x.key = some g ∧
      { g with lanes := h.lanes, k := h.k, kBy := h.kBy } = h ∧ g.lanes.length = 32 ∧
      g.k = uniformAfter h.k h.kBy u.cycle x.mask outs.head? dst a ∧
      ∀ l, l < 32 → g.lane l = laneAfter u x outs nres first dst marks a offA l (h.lane l) := by
  have ht := State.modGroup_group_self u x.key fun g =>
    { g.retireK u.cycle x.mask outs.head? dst a with
      lanes := (withIdx g.lanes).map fun e =>
        match outs.find? (fun o => o.lane == e.1) with
        | some o => e.2.retire o dst marks a
        | none => if x.off.contains e.1 then e.2.skip (u.firstSource x.g first e.1) nres offA else e.2 }
  rw [hg, Option.map_some] at ht
  obtain ⟨hs, hk⟩ := retireK_spec h u.cycle x.mask outs.head? dst a
  refine ⟨_, ht, ?_, by simpa using hn, hk, ?_⟩
  · exact (congrArg (fun g : Group => { g with lanes := h.lanes }) hs)
  · intro l hl
    simp only [Group.lane]
    rw [getD_map_withIdx _ _ _ (Lane.fresh 0) _ (by omega)]
    unfold laneAfter
    cases outs.find? fun o => o.lane == l with
    | some o => rfl
    | none => simp only [List.contains_iff_mem]; rfl

/-- `startOp` raises the flags of the instruction on top of what its lanes did. -/
theorem startOp_by {u v : State} {x : Ctx} {g h : Group} (hf : Frame u v x) (hu : u.group? x.key = some h)
    (hv : v.group? x.key = some g) {outs : List Out} {nres : Nat} {first : Option (BitVec 6)} {dst : BitVec 6}
    {marks : List Nat} {a offA : Avail}
    (hl : ∀ l, l < 32 → g.lane l = laneAfter u x outs nres first dst marks a offA l (h.lane l))
    (hk : g.k = uniformAfter h.k h.kBy u.cycle x.mask outs.head? dst a) (hs : g.slices = h.slices) (hfl : g.flags = h.flags)
    (m : LaneMask) (d : BitVec 6) (res : List (Nat × Word × Bool)) (fp : List (Nat × BitVec 5)) (held : Bool) (due : Nat) :
    RetiredBy u (v.startOp x m d res fp held due) x outs nres first dst marks a offA := by
  have ht : (v.startOp x m d res fp held due).group? x.key = some (g.flagsBy (· + 1) (raisedFlags x.v.c)) := by
    simp [State.startOp, hv]
  have hw : Frame v (v.startOp x m d res fp held due) x :=
    ⟨rfl, rfl, rfl, rfl, rfl, rfl, rfl, rfl, rfl, rfl, rfl, rfl, rfl, fun _ hk => State.modGroup_group_ne _ _ _ hk, _, g, hv, ht, rfl⟩
  refine ⟨hf.trans hw, ?_, ?_, ?_, ?_⟩
  · intro l hl'
    rw [State.laneIn_of ht, State.laneIn_of hu, ← hl l hl']
    rfl
  · rw [State.kAt_of ht, State.kAt_of hu, State.kByAt_of hu, ← hk]
    rfl
  · rw [State.slicesAt_of ht, State.slicesAt_of hu, ← hs]
    rfl
  · rw [State.flagsAt_of ht, State.flagsAt_of hu, ← hfl]
    rfl

/-- An instruction of fixed latency. -/
theorem finish_by {u : State} {x : Ctx} {h : Group} (hg : u.group? x.key = some h) (hn : h.lanes.length = 32)
    (outs : List Out) (nres : Nat) (first : Option (BitVec 6)) (dst : BitVec 6) (marks : List Nat) (lat : Nat) :
    RetiredBy u (u.finish x outs nres first dst marks lat) x outs nres first dst marks (.from (u.cycle + lat))
      (.from (u.cycle + lat)) := by
  obtain ⟨g, ht, he, _, hk, hl⟩ := retire_by hg hn outs nres first dst marks (.from (u.cycle + lat)) (.from (u.cycle + lat))
  have hf : Frame u (u.retire x outs nres first dst marks (.from (u.cycle + lat)) (.from (u.cycle + lat))) x :=
    ⟨rfl, rfl, rfl, rfl, rfl, rfl, rfl, rfl, rfl, rfl, rfl, rfl, rfl, fun _ hk => State.modGroup_group_ne _ _ _ hk, g, h, hg, ht,
      by rw [← he]⟩
  have hs : g.slices = h.slices := by rw [← he]
  have hfl : g.flags = h.flags := by rw [← he]
  unfold State.finish
  by_cases hr : (raisedFlags x.v.c).isEmpty = true
  · simp only [hr, ↓reduceIte]
    refine ⟨hf, ?_, ?_, ?_, ?_⟩
    · intro l hl'
      rw [State.laneIn_of ht, State.laneIn_of hg, hl l hl']
    · rw [State.kAt_of ht, State.kAt_of hg, State.kByAt_of hg, hk]
    · rw [State.slicesAt_of ht, State.slicesAt_of hg, hs]
    · rw [State.flagsAt_of ht, State.flagsAt_of hg, hfl, flagsAfter, List.isEmpty_iff.1 hr]
      rfl
  · simp only [hr, Bool.false_eq_true, ↓reduceIte]
    exact startOp_by hf hg ht hl hk hs hfl _ _ _ _ _ _

/-- An instruction of long latency: results stay pending until its operation, which has the serial number of the state,
completes; guard-false lanes complete at issue (R57). -/
theorem finishLong_by {u : State} {x : Ctx} {h : Group} (hg : u.group? x.key = some h) (hn : h.lanes.length = 32)
    (outs : List Out) (ho : outs ≠ [] ∨ x.off ≠ []) (nres : Nat) (first : Option (BitVec 6)) (dst : BitVec 6)
    (marks : List Nat) (fp : List (Nat × BitVec 5)) (held : Bool) :
    RetiredBy u (u.finishLong x outs nres first dst marks fp held) x outs nres first dst marks (.op u.serial) .ready := by
  obtain ⟨g, ht, he, _, hk, hl⟩ := retire_by hg hn outs nres first dst marks (.op u.serial) .ready
  have hf : Frame u (u.retire x outs nres first dst marks (.op u.serial) .ready) x :=
    ⟨rfl, rfl, rfl, rfl, rfl, rfl, rfl, rfl, rfl, rfl, rfl, rfl, rfl, fun _ hk => State.modGroup_group_ne _ _ _ hk, g, h, hg, ht,
      by rw [← he]⟩
  have hs : g.slices = h.slices := by rw [← he]
  have hfl : g.flags = h.flags := by rw [← he]
  have hne : (outs.isEmpty && x.off.isEmpty) = false := by
    rcases ho with h | h <;> simp [h]
  unfold State.finishLong
  simp only [hne, Bool.false_eq_true, ↓reduceIte]
  exact startOp_by hf hg ht hl hk hs hfl _ _ _ _ _ _

/-- The operation of an instruction of long latency. -/
theorem finishLong_op {u : State} {x : Ctx} (outs : List Out) (ho : outs ≠ [] ∨ x.off ≠ []) (nres : Nat)
    (first : Option (BitVec 6)) (dst : BitVec 6) (marks : List Nat) (fp : List (Nat × BitVec 5)) (held : Bool) :
    (u.finishLong x outs nres first dst marks fp held).op? u.serial = some
      ⟨x.key, x.v.opc, x.pc, raisedFlags x.v.c, maskOf fun l => outs.any fun o => o.lane == l, dst,
        outs.filterMap fun o => match o.vals.getLast? with
          | some v => some (o.lane, v.1, v.2)
          | none => none,
        fp, [], ((lanesOf (maskOf fun l => outs.any fun o => o.lane == l)).head?).getD 0, held, u.cycle + 1⟩ := by
  have hne : (outs.isEmpty && x.off.isEmpty) = false := by
    rcases ho with h | h <;> simp [h]
  unfold State.finishLong
  simp only [hne, Bool.false_eq_true, ↓reduceIte, State.startOp, State.op?, State.setOp, State.fresh, State.retire,
    State.modGroup, Sparse.get?_put_self]
  try rfl

/-- All guard-true lanes retire. -/
theorem RetiredBy.retired {s t : State} {i : Instr} {x : Ctx} (hc : s.ctx? i = some x) (o : Nat → Out)
    (ho : ∀ l, (o l).lane = l) {nres : Nat} {first : Option (BitVec 6)} {dst : BitVec 6} {marks : List Nat} {a offA : Avail}
    (h : RetiredBy s t x (x.on.map o) nres first dst marks a offA) : Retired s t x o nres first dst marks a offA := by
  have hg := ctx_group hc
  refine ⟨h.frame, ?_, ?_, ?_, ?_, ?_, h.flags⟩
  · intro l hl
    rw [h.lanes l (ctx_on_lt hc hl), laneAfter, find?_outs _ _ ho]
    simp [hl]
  · intro l hl
    rw [h.lanes l (ctx_off_lt hc hl), laneAfter, find?_outs _ _ ho]
    simp [ctx_disjoint hc hl, hl]
  · intro l hl h1 h2
    rw [h.lanes l hl, laneAfter, find?_outs _ _ ho]
    simp [h1, h2]
  · rw [h.uniform, State.kAt_of hg, State.kByAt_of hg]
    unfold kAfter
    rw [List.head?_map]
  · rw [h.slices, State.slicesAt_of hg]

/-- An instruction of fixed latency all of whose lanes retire. -/
theorem finish_retired {s : State} {i : Instr} {x : Ctx} (h : s.ctx? i = some x) (hn : x.g.lanes.length = 32)
    (o : Nat → Out) (ho : ∀ l, (o l).lane = l) (nres : Nat) (first : Option (BitVec 6)) (dst : BitVec 6)
    (marks : List Nat) (lat : Nat) :
    Retired s (s.finish x (x.on.map o) nres first dst marks lat) x o nres first dst marks (.from (s.cycle + lat))
      (.from (s.cycle + lat)) :=
  (finish_by (ctx_group h) hn _ nres first dst marks lat).retired h o ho

/-- An issue has lanes. -/
theorem outs_ne {s : State} {i : Instr} {x : Ctx} (h : s.ctx? i = some x) (hm : lanesOf x.mask ≠ []) (o : Nat → Out) :
    x.on.map o ≠ [] ∨ x.off ≠ [] := by
  rw [ctx_on h, ctx_off h]
  cases hl : lanesOf x.mask with
  | nil => exact absurd hl hm
  | cons l t => cases hgl : s.guard x.g x.v.c l <;> simp [hgl]

/-- An instruction of long latency all of whose lanes retire. -/
theorem finishLong_retired {s : State} {i : Instr} {x : Ctx} (h : s.ctx? i = some x) (hn : x.g.lanes.length = 32)
    (hm : lanesOf x.mask ≠ []) (o : Nat → Out) (ho : ∀ l, (o l).lane = l) (nres : Nat) (first : Option (BitVec 6)) (dst : BitVec 6)
    (marks : List Nat) (fp : List (Nat × BitVec 5)) (held : Bool) :
    Retired s (s.finishLong x (x.on.map o) nres first dst marks fp held) x o nres first dst marks (.op s.serial) .ready :=
  (finishLong_by (ctx_group h) hn _ (outs_ne h hm o) nres first dst marks fp held).retired h o ho

/-- A further change of the lanes that an issue covers. -/
theorem Issued.mapLanes {s t : State} {x : Ctx} {onF offF : Nat → Lane → Lane} {k : List (Reg Word)} {sl : List Slice}
    (h : Issued s t x onF offF k sl) (hlen : ∀ g, t.group? x.key = some g → g.lanes.length = 32)
    (w : Nat → Lane → Lane) (hw : ∀ l e, l ∉ x.on → l ∉ x.off → w l e = e) (hon : ∀ l ∈ x.on, l < 32)
    (hoff : ∀ l ∈ x.off, l < 32) :
    Issued s (t.modGroup x.key fun g => g.mapLanes w) x (fun l e => w l (onF l e)) (fun l e => w l (offF l e)) k sl := by
  obtain ⟨g, h', hh, hg, hgx⟩ := h.frame.group
  have ht : (t.modGroup x.key fun g => g.mapLanes w).group? x.key = some (g.mapLanes w) := by
    rw [State.modGroup_group_self, hg]
    rfl
  have hl : ∀ l, l < 32 → (t.modGroup x.key fun g => g.mapLanes w).laneIn x.key l = w l (t.laneIn x.key l) := by
    intro l hl
    rw [State.laneIn_of ht, State.laneIn_of hg, Group.lane_mapLanes _ _ _ (by rw [hlen g hg]; exact hl)]
  refine ⟨h.frame.trans (frame_modGroup hg _ rfl), ?_, ?_, ?_, ?_, ?_, ?_⟩
  · intro l hl'; rw [hl l (hon l hl'), h.on l hl']
  · intro l hl'; rw [hl l (hoff l hl'), h.off l hl']
  · intro l a b c; rw [hl l a, h.rest l a b c, hw l _ b c]
  · rw [State.kAt_of ht, ← h.uniform, State.kAt_of hg]; rfl
  · rw [State.slicesAt_of ht, ← h.slices, State.slicesAt_of hg]; rfl
  · rw [State.flagsAt_of ht, ← h.flags, State.flagsAt_of hg]; rfl

/-- No trap is taken where no lane raises one. -/
@[simp] theorem takeTraps_nil (s : State) (key : Nat) (pc : Word) (opc : Nat) : s.takeTraps key pc opc [] = s := by
  simp [State.takeTraps]

/-- Outside the strict debug mode no read is too early. -/
theorem strictTraps_lenient {s : State} {x : Ctx} (h : Lenient x) (codes : List (BitVec 6)) : s.strictTraps x codes = [] := by
  unfold Lenient at h
  simp [State.strictTraps, h]

/-- An issue whose units do not err has no struck lane. -/
theorem struck_none {s : State} {x : Ctx} (h : Unstruck s x) : s.struck x = none := by
  unfold State.struck
  rcases h with h | h
  · cases s.upset <;> simp [h]
  · rw [h]

/-- A shadow check of units that do not err. -/
theorem shadowCheck_none {s : State} {x : Ctx} (h : Unstruck s x) (srcs vals : Nat → List Word)
    (go : State → Nat → (Nat → List Word) → State) : s.shadowCheck x srcs vals go = go s 0 vals := by
  simp [State.shadowCheck, struck_none h]

/-- A replay of no cycles delays nothing. -/
@[simp] theorem State.delayed_zero (s : State) (x : Ctx) : s.delayed x 0 = s := rfl

/-- An instruction whose lanes compute on their own operands: every guard-true lane retires with what the body gives it,
where no raised floating-point flag has its enable set (R69). -/
theorem laneInstr_spec {s : State} {i : Instr} {x : Ctx} (h : Issues s i x) (hl : Lenient x)
    (hs : Unstruck s x) (nres : Nat) (codes : List (BitVec 6)) (dst : BitVec 6)
    (marks : List Nat) (lat : Nat) (extra : Ctx → State → Nat → Bool) (body : Ctx → State → Nat → List Rd → LaneRes)
    (hfp : ∀ l ∈ x.on, Untrapped x l (body x s l (codes.map (s.opnd x.g l))).fp) :
    ∃ t, laneInstr i s nres codes dst marks lat extra body = .next t ∧
      Retired s t x (fun l => laneOut l (codes.map (s.opnd x.g l)) (extra x s l) (body x s l (codes.map (s.opnd x.g l))))
        nres codes.head? dst marks (.from (s.cycle + lat)) (.from (s.cycle + lat)) := by
  refine ⟨_, frame_issues h _, ?_⟩
  refine Issued.bump ?_
  rw [shadowCheck_none hs]
  simp only [State.delayed_zero, Nat.add_zero]
  refine Eq.mp ?_ (finish_retired h.ctx h.lanes (fun l => laneOut l (codes.map (s.opnd x.g l)) (extra x s l)
    (body x s l (codes.map (s.opnd x.g l)))) (fun _ => rfl) nres codes.head? dst marks lat)
  congr 1
  generalize hT : List.filterMap _ x.on = T
  have hnil : T = [] := by
    rw [← hT, strictTraps_lenient hl, List.filterMap_eq_nil_iff]
    intro l hl'
    simpa [Untrapped] using hfp l hl'
  subst hnil
  simp only [takeTraps_nil, List.any_nil, Bool.not_false]
  rw [List.filter_eq_self.2 fun _ _ => rfl]

/-- Lanes without results leave the uniform registers alone. -/
theorem kAfter_nil (x : Ctx) (now : Nat) (dst : BitVec 6) (a : Avail) (o : Nat → Out) (h : ∀ l, (o l).vals = []) :
    kAfter x now o dst a = x.g.k := by
  unfold kAfter
  cases x.on.head? with
  | none => rfl
  | some l => simp [uniformAfter, h]

/-! ### The shapes of instructions of fixed latency -/

/-- An instruction that `laneInstr` frames computes lane by lane. -/
theorem laneInstr_computes {i : Instr} {nres : Nat} {codes : List (BitVec 6)} {dst : BitVec 6} {marks : List Nat}
    {lat : Nat} {extra : Ctx → State → Nat → Bool} {body : Ctx → State → Nat → List Rd → LaneRes}
    {res : State → Ctx → Nat → List Word → LaneRes}
    (he : ∀ s, exec i s = laneInstr i s nres codes dst marks lat extra body)
    (hb : ∀ s x l, body x s l (codes.map (s.opnd x.g l)) = res s x l (codes.map fun c => (s.opnd x.g l c).val)) :
    ComputesFrom i codes nres dst marks lat (fun s x l => extra x s l) res := by
  intro s x h hl hs hfp
  rw [he]
  obtain ⟨t, ht, hr⟩ := laneInstr_spec h hl hs nres codes dst marks lat extra body (fun l hm => by rw [hb]; exact hfp l hm)
  refine ⟨t, ht, ?_⟩
  simpa only [hb] using hr

/-- An instruction that `plainT` frames computes lane by lane. -/
theorem plainT_computes {i : Instr} {f : FmtT} {n nres lat : Nat} {body : List Word → List Word}
    (he : ∀ s, exec i s = plainT i s f n nres lat body) :
    Computes i (f.codes n) nres f.dst f.marks lat fun vs => ⟨body vs, [], 0⟩ :=
  laneInstr_computes (extra := noExtra) he fun s x l => by rw [List.map_map]; rfl

theorem intT_integers {i : Instr} {f : FmtT} {n : Nat} {body : List Int → Int}
    (he : ∀ s, exec i s = intT i s f n body) : Integers i f n body := plainT_computes he

theorem bitsT_patterns {i : Instr} {f : FmtT} {n : Nat} {body : Nat → List Nat → Nat} {res : Nat → List Word → Word}
    (he : ∀ s, exec i s = bitsT i s f n body)
    (hb : ∀ vs, pushNat f.ty (body (typeWidth f.ty) (vs.map fun v => v.toNat)) = pushNat f.ty (res (typeWidth f.ty) vs).toNat) :
    Patterns i f n res := by
  have := plainT_computes he
  simp only [hb] at this
  exact this

theorem fpT_floats {i : Instr} {f : FmtT} {n lat : Nat} {body : List Word → Nat × FpFlags}
    (he : ∀ s, exec i s = fpT i s f n lat body) : Floats i f n lat body :=
  laneInstr_computes (extra := noExtra) he fun s x l => by rw [List.map_map]; rfl

/-- The lanes of an issue that raise no trap. -/
theorem filterMap_nil {α : Type} {f : α → Option Trap} {xs : List α} (h : ∀ a ∈ xs, f a = none) : xs.filterMap f = [] := by
  rw [List.filterMap_eq_nil_iff]
  exact h

/-- A lane-crossing instruction. -/
theorem crossT_crosses {i : Instr} {f : FmtT} {codes : List (BitVec 6)}
    {body : Ctx → State → Nat → Word × Bool × List (Nat × Bool) × FpFlags}
    (he : ∀ s, exec i s = crossT i s f codes body) : Crosses i codes f fun s x l => body x s l := by
  intro s x h hl _ hfp
  rw [he]
  refine ⟨_, frame_issues h _, ?_⟩
  refine Issued.bump ?_
  refine Eq.mp ?_ (finish_retired h.ctx h.lanes (fun l => ⟨l, [((body x s l).1, (body x s l).2.1)],
    (body x s l).2.2.1.map fun e => (e.1, e.2, (body x s l).2.1), (body x s l).2.2.2, none⟩) (fun _ => rfl) 1 codes.head?
    f.dst f.marks 6)
  congr 1
  dsimp only
  generalize hT : List.filterMap _ (List.map _ x.on) = T
  have hnil : T = [] := by
    rw [← hT, strictTraps_lenient hl]
    refine filterMap_nil fun r hr => ?_
    obtain ⟨l, hl', rfl⟩ := List.mem_map.1 hr
    simpa [Untrapped] using hfp l hl'
  subst hnil
  simp only [takeTraps_nil, List.any_nil, Bool.not_false]
  rw [List.filter_eq_self.2 fun _ _ => rfl]

/-- The group of an issue keeps its 32 lanes as they retire. -/
theorem finish_lanes_length {u : State} {x : Ctx} {h : Group} (hg : u.group? x.key = some h) (hn : h.lanes.length = 32) (outs : List Out)
    (nres : Nat) (first : Option (BitVec 6)) (dst : BitVec 6) (marks : List Nat) (lat : Nat) (g : Group)
    (hf : (u.finish x outs nres first dst marks lat).group? x.key = some g) : g.lanes.length = 32 := by
  obtain ⟨g', ht, _, hlen, _, _⟩ := retire_by hg hn outs nres first dst marks (.from (u.cycle + lat)) (.from (u.cycle + lat))
  unfold State.finish at hf
  split at hf
  · rw [ht, Option.some.injEq] at hf
    rw [← hf, hlen]
  · simp only [State.startOp, State.fresh_group, State.setOp_group, State.modGroup_group_self, ht, Option.map_some, Option.some.injEq] at hf
    subst hf
    exact hlen

/-- A compare writes its pair. -/
theorem pairP_compares {i : Instr} {f : FmtP} {body : Word → Word → Bool × FpFlags}
    (he : ∀ s, exec i s = pairP i s f 4 body) : Compares i f body := by
  intro s x h hl hfp
  rw [he]
  refine ⟨_, frame_issues h _, ?_⟩
  refine Issued.bump ?_
  dsimp only
  generalize hT : List.filterMap _ (List.map _ x.on) = T
  have hnil : T = [] := by
    rw [← hT, strictTraps_lenient hl]
    refine filterMap_nil fun r hr => ?_
    obtain ⟨l, hl', rfl⟩ := List.mem_map.1 hr
    simpa [Untrapped] using hfp l hl'
  subst hnil
  simp only [takeTraps_nil, List.any_nil, Bool.not_false]
  rw [List.filter_eq_self.2 fun _ _ => rfl]
  have hr := finish_retired h.ctx h.lanes (fun l => (⟨l, [],
      [(f.pb.toNat, (pairValues f.mode.toNat (body (s.opnd x.g l f.sa).val (s.opnd x.g l f.sb).val).1
          (s.pred x.g l f.pa.toNat).1 (s.pred x.g l f.pb.toNat).1).2,
          ((s.opnd x.g l f.sa).psn || (s.opnd x.g l f.sb).psn || (f.mode != 0 &&
            ((s.pred x.g l f.pa.toNat).2.1 || (s.pred x.g l f.pb.toNat).2.1)))),
        (f.pa.toNat, (pairValues f.mode.toNat (body (s.opnd x.g l f.sa).val (s.opnd x.g l f.sb).val).1
          (s.pred x.g l f.pa.toNat).1 (s.pred x.g l f.pb.toNat).1).1,
          ((s.opnd x.g l f.sa).psn || (s.opnd x.g l f.sb).psn || (f.mode != 0 &&
            ((s.pred x.g l f.pa.toNat).2.1 || (s.pred x.g l f.pb.toNat).2.1))))],
      (body (s.opnd x.g l f.sa).val (s.opnd x.g l f.sb).val).2, none⟩ : Out)) (fun _ => rfl) 0 none 0 [] 4
  have hk : kAfter x s.cycle (fun l => (⟨l, [],
      [(f.pb.toNat, (pairValues f.mode.toNat (body (s.opnd x.g l f.sa).val (s.opnd x.g l f.sb).val).1
          (s.pred x.g l f.pa.toNat).1 (s.pred x.g l f.pb.toNat).1).2,
          ((s.opnd x.g l f.sa).psn || (s.opnd x.g l f.sb).psn || (f.mode != 0 &&
            ((s.pred x.g l f.pa.toNat).2.1 || (s.pred x.g l f.pb.toNat).2.1)))),
        (f.pa.toNat, (pairValues f.mode.toNat (body (s.opnd x.g l f.sa).val (s.opnd x.g l f.sb).val).1
          (s.pred x.g l f.pa.toNat).1 (s.pred x.g l f.pb.toNat).1).1,
          ((s.opnd x.g l f.sa).psn || (s.opnd x.g l f.sb).psn || (f.mode != 0 &&
            ((s.pred x.g l f.pa.toNat).2.1 || (s.pred x.g l f.pb.toNat).2.1))))],
      (body (s.opnd x.g l f.sa).val (s.opnd x.g l f.sb).val).2, none⟩ : Out)) 0 (.from (s.cycle + 4)) = x.g.k := kAfter_nil x _ _ _ _ fun _ => rfl
  unfold Retired at hr
  rw [hk] at hr
  by_cases hm : f.mode = 0
  · simp only [hm, ↓reduceIte]
    have := hr.mapLanes (finish_lanes_length (ctx_group h.ctx) h.lanes _ _ _ _ _ _)
      (fun l e => if x.off.contains l then
        e.setPreds [(f.pb.toNat, false, false), (f.pa.toNat, false, false)] (.from (s.cycle + 4)) else e)
      (fun l e _ ho => by simp [ho]) (fun l => ctx_on_lt h.ctx) (fun l => ctx_off_lt h.ctx)
    obtain ⟨h0, h1, h2, h3, h4, h5, h6⟩ := this
    refine ⟨by simpa [hm] using h0, ?_, ?_, ?_, ?_, ?_, ?_⟩
    · intro l hl'
      have hn : l ∉ x.off := fun ho => ctx_disjoint h.ctx ho hl'
      simpa [hm, hn] using h1 l hl'
    · intro l hl'
      simpa [hm, hl'] using h2 l hl'
    · intro l a b c
      simpa [hm] using h3 l a b c
    · simpa [hm] using h4
    · simpa [hm] using h5
    · simpa [hm] using h6
  · simp only [hm, ↓reduceIte]
    simpa [Bool.or_assoc] using hr

end Sys2Proof.Machine
end

