-- ==== Sys2Proof/Laws/Memory.lean ====
section
/-! SUPPORT. What the accesses of an issue change: checks touch memory alone, reads leave memory alone, and none of them
takes the group of the issue away. -/

namespace Sys2Proof.Machine

/-- A group stands in a slot, with 32 lanes. -/
def Grouped (s : State) (key : Nat) : Prop := ∃ g, s.group? key = some g ∧ g.lanes.length = 32

theorem Issues.grouped {s : State} {i : Instr} {x : Ctx} (h : Issues s i x) : Grouped s x.key :=
  ⟨x.g, ctx_group h.ctx, h.lanes⟩

theorem Grouped.of_work {s t : State} {key : Nat} (h : Grouped s key) (hw : t.work.groups = s.work.groups) : Grouped t key := by
  obtain ⟨g, hg, hl⟩ := h
  exact ⟨g, by rw [← hg, State.group?, State.group?, hw], hl⟩

theorem Grouped.modGroup {s : State} {key : Nat} (h : Grouped s key) (k : Nat) (f : Group → Group)
    (hf : ∀ g, (f g).lanes.length = g.lanes.length) : Grouped (s.modGroup k f) key := by
  obtain ⟨g, hg, hl⟩ := h
  by_cases hk : key = k
  · subst hk
    exact ⟨f g, by rw [State.modGroup_group_self, hg]; rfl, by rw [hf, hl]⟩
  · exact ⟨g, by rw [State.modGroup_group_ne _ _ _ hk, hg], hl⟩

theorem Grouped.modLane {s : State} {key : Nat} (h : Grouped s key) (k l : Nat) (f : Lane → Lane) :
    Grouped (s.modLane k l f) key := h.modGroup k _ fun g => by simp

/-! ### Changes of memory alone -/

/-- A fold of changes that leave the rest of the machine alone leaves it alone. -/
theorem foldl_work {α : Type} (f : State → α → State) (hf : ∀ s a, (f s a).work = s.work) (l : List α) (s : State) :
    (l.foldl f s).work = s.work := by
  induction l generalizing s with
  | nil => rfl
  | cons a l ih => rw [List.foldl_cons, ih, hf]

theorem recall_work (s : State) (pa n : Nat) : (s.recallHost pa n).work = s.work := by
  unfold State.recallHost
  split
  · rfl
  · refine foldl_work _ (fun s k => ?_) _ _
    split <;> rfl

theorem physWrite_work (s : State) (pa : Nat) (bs : List Byte) (psn : Bool) : (s.physWrite pa bs psn).work = s.work := by
  unfold State.physWrite
  dsimp only
  refine (foldl_work _ (fun s t => ?_) _ _).trans ?_
  · exact recall_work s _ _
  · exact recall_work s pa bs.length

theorem recallDirty_work (s : State) (pa n : Nat) : (s.recallDirty pa n).work = s.work := by
  unfold State.recallDirty
  split
  · rfl
  · dsimp only
    refine (foldl_work _ (fun s k => ?_) _ _).trans ?_
    · rfl
    · exact recall_work s pa n

theorem lendFound_work (s : State) (tenant va pa : Nat) : (s.lendFound tenant va pa).work = s.work := by
  unfold State.lendFound
  dsimp only
  split <;> rfl

theorem viewLine_work (cur key : Nat) (s : State) (line : Nat) : (State.viewLine cur key s line).work = s.work := by
  unfold State.viewLine
  dsimp only
  split <;> rfl

theorem viewAs_work (s : State) (frame key : Nat) : (s.viewAs frame key).work = s.work := by
  unfold State.viewAs
  dsimp only
  split
  · rfl
  · generalize List.range 64 = l
    exact foldl_work _ (fun s i => viewLine_work _ _ _ _) l s

/-! ### Checks -/

theorem checkLeaf_work {s u : State} {tenant : Nat} {l : Leaf} {va : Nat} {acc : Acc} {pa k : Nat} {v : Bool}
    (h : s.checkLeaf tenant l va acc = .ok u pa k v) : u = s.uses tenant l va acc := by
  unfold State.checkLeaf at h
  split at h
  · cases h
  · split at h
    · cases h
    · split at h
      · cases h
      · split at h
        · cases h
        · simp only [Tr.ok.injEq] at h
          exact h.1.symm

/-- A translation that succeeds uses its leaf and changes nothing else. -/
theorem xlate_ok {s u : State} {tenant va : Nat} {acc : Acc} {pa k : Nat} {v : Bool}
    (h : s.xlate tenant va acc = .ok u pa k v) : ∃ t l, s.tenant? tenant = some t ∧ s.leafFor t.root va = some l ∧
      u = s.uses tenant l va acc := by
  unfold State.xlate at h
  split at h
  · cases h
  · split at h
    · cases h
    · rename_i t ht
      split at h
      · cases h
      · rename_i l hl
        exact ⟨t, l, ht, hl, checkLeaf_work h⟩

theorem setEntry_work (s : State) (loc : Nat) (w : Word) : (s.setEntry loc w).work = s.work := physWrite_work _ _ _ _

theorem touch_work (s : State) (l : Leaf) (acc : Acc) : (s.touch l acc).work = s.work := setEntry_work _ _ _

theorem uses_work (s : State) (tenant : Nat) (l : Leaf) (va : Nat) (acc : Acc) : (s.uses tenant l va acc).work = s.work := by
  unfold State.uses
  rw [lendFound_work, viewAs_work, touch_work]

theorem pieces_work {tenant : Nat} {acc : Acc} {space : Nat} (vs : List (Nat × Nat)) {s u : State} {ps qs : List (Loc × Nat)}
    (h : State.pieces tenant acc space vs s ps = .ok u qs) : u.work = s.work := by
  induction vs generalizing s ps with
  | nil =>
    cases h
    rfl
  | cons e t ih =>
    unfold State.pieces at h
    split at h
    · rename_i s' pa k v hx
      obtain ⟨_, l, _, _, rfl⟩ := xlate_ok hx
      rw [ih h, uses_work]
    all_goals cases h

theorem ok_of_ite {p : Bool} {e : Tr × Bool} {u : State} {pa k : Nat} {v b : Bool}
    (h : (if !p then (Tr.pageFault, true) else e) = (.ok u pa k v, b)) : e = (.ok u pa k v, b) := by
  cases p with
  | false => simp at h
  | true => simpa using h

theorem xlateHv_work {s u : State} {ln : Launch} {die va : Nat} {acc : Acc} {pa k : Nat} {v b : Bool}
    (h : s.xlateHv ln die va acc = (.ok u pa k v, b)) : u.work = s.work := by
  unfold State.xlateHv at h
  split at h
  · cases h
  · split at h
    · cases h
    · cases h
    · cases h
    · have h := ok_of_ite h
      split at h
      · split at h
        · cases h
        · simp only [Prod.mk.injEq] at h
          rw [checkLeaf_work h.1, uses_work]
      · cases h

theorem access_work {s u : State} {x : Ctx} {space l : Nat} {a : Word} {n align : Nat} {acc : Acc} {ps : List (Loc × Nat)}
    (h : s.access x space l a n align acc = .ok u ps) : u.work = s.work := by
  unfold State.access at h
  dsimp only at h
  split at h
  · cases h
  · split at h
    · exact pieces_work _ h
    · split at h
      · cases h
      · cases h
        rfl
    · split at h
      · cases h
      · split at h
        · split at h
          · cases h
          · cases h
            rfl
        · cases h
    · split at h
      · cases h
      · split at h
        · exact pieces_work _ h
        · exact pieces_work _ h
    · split at h
      · rename_i hx
        cases h
        exact xlateHv_work hx
      all_goals cases h
    · split at h
      · cases h
      · exact pieces_work _ h

theorem atsUsed_work (s : State) (x : Ctx) (space : Nat) (cs : List LaneChk) : (s.atsUsed x space cs).work = s.work := by
  unfold State.atsUsed
  split
  · dsimp only
    generalize (s.pasidOf x.ln).getD 0 = p
    induction cs generalizing s with
    | nil => rfl
    | cons c t ih =>
      rw [List.foldl_cons, ih]
      cases c <;> rfl
  · rfl

/-- The checks of an issue change nothing of the cores, groups, teams, launches and queues. -/
theorem checkAll_work {x : Ctx} {space : Nat} {acc : Acc} (es : List (Nat × Word × Nat × Nat)) {s u : State}
    {cs ds : List LaneChk} (h : State.checkAll x space acc es s cs = .done u ds) : u.work = s.work := by
  induction es generalizing s cs with
  | nil =>
    unfold State.checkAll at h
    cases h
    exact atsUsed_work _ _ _ _
  | cons e t ih =>
    obtain ⟨l, a, n, al⟩ := e
    unfold State.checkAll at h
    split at h
    · exact ih h
    · split at h
      · rename_i hx
        rw [ih h, access_work hx]
      · exact ih h
      · exact ih h
      · cases h
      · cases h

/-! ### Reads -/

theorem l1Drop_mem (s : State) (core tenant vline : Nat) : (s.l1Drop core tenant vline).mem = s.mem := by
  unfold State.l1Drop
  split <;> rfl

theorem l1Drop_groups (s : State) (core tenant vline : Nat) : (s.l1Drop core tenant vline).work.groups = s.work.groups := by
  unfold State.l1Drop
  split <;> rfl

theorem l1Read_mem (s : State) (core tenant vline pa n : Nat) : (s.l1Read core tenant vline pa n).1.mem = s.mem := by
  unfold State.l1Read
  split
  · split
    · rfl
    · exact l1Drop_mem _ _ _ _
  · rfl

theorem l1Read_groups (s : State) (core tenant vline pa n : Nat) :
    (s.l1Read core tenant vline pa n).1.work.groups = s.work.groups := by
  unfold State.l1Read
  split
  · split
    · rfl
    · exact l1Drop_groups _ _ _ _
  · rfl

theorem readPieces_groups (s : State) (x : Ctx) (l : Nat) (fresh : Bool) (ps : List (Loc × Nat)) :
    (s.readPieces x l fresh ps).1.work.groups = s.work.groups := by
  induction ps generalizing s with
  | nil => rfl
  | cons p t ih =>
    obtain ⟨p, n⟩ := p
    unfold State.readPieces
    dsimp only
    rw [ih]
    cases p with
    | scr tk off => rfl
    | mem pa kind l1 v =>
      dsimp only
      split
      · exact l1Read_groups _ _ _ _ _ _
      · split <;> rfl

/-! ### Writes -/

theorem physWrite_groups (s : State) (pa : Nat) (bs : List Byte) (psn : Bool) :
    (s.physWrite pa bs psn).work.groups = s.work.groups := by rw [physWrite_work]

theorem foldl_physWrite_groups (w : List (Nat × List Byte)) (s : State) :
    (w.foldl (fun s e => s.physWrite e.1 e.2 false) s).work.groups = s.work.groups := by
  induction w generalizing s with
  | nil => rfl
  | cons e t ih =>
    rw [List.foldl_cons, ih, physWrite_groups]

theorem Grouped.drainWcb {s : State} {key : Nat} (h : Grouped s key) (k l : Nat) : Grouped (s.drainWcb k l) key := by
  unfold State.drainWcb
  split
  · dsimp only
    split
    · exact h
    · exact (h.of_work (foldl_physWrite_groups _ _)).modLane _ _ _
  · exact h

theorem Grouped.writePieces {s : State} {x : Ctx} (h : Grouped s x.key) (l : Nat) (psn : Bool) (ps : List (Loc × Nat))
    (bs : List Byte) : Grouped (s.writePieces x l psn ps bs) x.key := by
  induction ps generalizing s bs with
  | nil => exact h
  | cons p t ih =>
    obtain ⟨p, n⟩ := p
    unfold State.writePieces
    dsimp only
    refine ih ?_ _
    cases p with
    | scr tk off => exact h.of_work rfl
    | mem pa kind l1 v =>
      dsimp only
      have h1 : Grouped (s.l1Drop x.core x.ln.tenant v) x.key := h.of_work (l1Drop_groups _ _ _ _)
      split
      · refine Grouped.modLane ?_ _ _ _
        split
        · split
          · exact h1.drainWcb _ _
          · exact h1
        · exact h1
      · exact h1.of_work (physWrite_groups _ _ _ _)

theorem Grouped.recallPieces {s : State} {key : Nat} (h : Grouped s key) (ps : List (Loc × Nat)) :
    Grouped (s.recallPieces ps) key :=
  h.of_work <| congrArg Work.groups <| foldl_work _ (fun s p => by
    obtain ⟨_ | _, n⟩ := p
    · exact recallDirty_work _ _ _
    · rfl) _ _

theorem Grouped.drainReleases {s : State} {x : Ctx} (h : Grouped s x.key) (order : BitVec 2) (scope : BitVec 3) (acc : Acc)
    (cs : List LaneChk) : Grouped (s.drainReleases x order scope acc cs) x.key := by
  unfold State.drainReleases
  generalize passed cs = ps
  induction ps generalizing s with
  | nil => exact h
  | cons p t ih =>
    rw [List.foldl_cons]
    refine ih ?_
    split
    · exact h.drainWcb _ _
    · exact h

/-- Accesses performed in lane order keep the group, if each does. -/
theorem performAll_grouped {key : Nat} {act : State → Nat → List (Loc × Nat) → State × List RedVal}
    (ha : ∀ s l ps, Grouped s key → Grouped (act s l ps).1 key) (ps : List (Nat × List (Loc × Nat))) {s : State}
    (h : Grouped s key) (outs : List Out) : Grouped (performAll act ps s outs).1 key := by
  induction ps generalizing s outs with
  | nil => exact h
  | cons p t ih =>
    unfold performAll
    exact ih (ha _ _ _ h) _

theorem performAll_length {act : State → Nat → List (Loc × Nat) → State × List RedVal} (ps : List (Nat × List (Loc × Nat)))
    (s : State) (outs : List Out) : (performAll act ps s outs).2.length = outs.length + ps.length := by
  induction ps generalizing s outs with
  | nil => simp [performAll]
  | cons p t ih =>
    unfold performAll
    rw [ih]
    simp only [List.length_cons]
    omega

/-! ### Verdicts -/

@[simp] theorem passed_allPass (ps : List (Nat × List (Loc × Nat))) : passed (allPass ps) = ps := by
  unfold passed allPass
  rw [List.filterMap_map]
  simp [Function.comp_def]

@[simp] theorem trapsOf_allPass (x : Ctx) (ps : List (Nat × List (Loc × Nat))) : trapsOf x (allPass ps) = [] := by
  unfold trapsOf allPass
  simp [List.flatMap_map]

theorem faultPages_allPass (ps : List (Nat × List (Loc × Nat))) (qs : List (Nat × Nat × Bool)) :
    faultPages (allPass ps) qs = qs := by
  induction ps with
  | nil => rfl
  | cons p t ih => exact ih

@[simp] theorem parkFaults_allPass (s : State) (x : Ctx) (acc : Acc) (ps : List (Nat × List (Loc × Nat))) :
    s.parkFaults x acc (allPass ps) = s := by
  unfold State.parkFaults
  rw [faultPages_allPass]
  rfl

theorem denyKinds_allPass {deny : List Nat} {ps : List (Nat × List (Loc × Nat))}
    (h : ∀ p ∈ ps, ∀ q ∈ p.2, kindOf [q] ∉ deny) (a : Nat → Word) : denyKinds deny a (allPass ps) = allPass ps := by
  unfold denyKinds allPass
  rw [List.map_map]
  refine List.map_congr_left fun p hp => ?_
  simp only [Function.comp_apply]
  have : (p.2.any fun q => deny.contains (kindOf [q])) = false := by
    rw [List.any_eq_false]
    intro q hq
    simp [h p hp q hq]
  simp only [this, Bool.false_eq_true, ↓reduceIte]

theorem storesPoison_allPass {psn : Nat → Bool} {ps : List (Nat × List (Loc × Nat))}
    (h : ∀ p ∈ ps, psn p.1 = true → ∀ q ∈ p.2, kindOf [q] ≠ 3 ∧ kindOf [q] ≠ 4) : storesPoison psn (allPass ps) = none := by
  unfold storesPoison
  rw [passed_allPass, List.findSome?_eq_none_iff]
  intro p hp
  cases hq : psn p.1 with
  | false => simp
  | true =>
    have : (p.2.any fun q => decide (kindOf [q] = 3) || decide (kindOf [q] = 4)) = false := by
      rw [List.any_eq_false]
      intro q hm
      simp [h p hp hq q hm]
    simp only [Bool.true_and, this, Bool.false_eq_true, ↓reduceIte]

theorem oldPoison_allPass {s : State} {x : Ctx} {ps : List (Nat × List (Loc × Nat))}
    (h : ∀ p ∈ ps, (s.readPieces x p.1 true p.2).2.2 = false) : s.oldPoison x (allPass ps) = none := by
  unfold State.oldPoison
  rw [passed_allPass, List.findSome?_eq_none_iff]
  intro p hp
  simp [h p hp]

/-! ### The frame of memory instructions -/

theorem checkAll_length {x : Ctx} {space : Nat} {acc : Acc} (es : List (Nat × Word × Nat × Nat)) {s u : State}
    {cs ds : List LaneChk} (h : State.checkAll x space acc es s cs = .done u ds) : ds.length = cs.length + es.length := by
  induction es generalizing s cs with
  | nil =>
    unfold State.checkAll at h
    cases h
    simp
  | cons e t ih =>
    obtain ⟨l, a, n, al⟩ := e
    unfold State.checkAll at h
    split at h
    · rw [ih h]
      simp only [List.length_cons]
      omega
    · split at h
      · rw [ih h]
        simp only [List.length_cons]
        omega
      · rw [ih h]
        simp only [List.length_cons]
        omega
      · rw [ih h]
        simp only [List.length_cons]
        omega
      · cases h
      · cases h

theorem mirror_ne {x : Ctx} {outs : List Out} (h : outs ≠ []) : x.mirror outs ≠ [] := by
  unfold Ctx.mirror
  split
  · simp [h]
  · exact h

/-- An issue whose accesses were performed and whose outputs retire. -/
theorem performed_retiredBy {s u : State} {x : Ctx} (hg : Grouped s x.key) {space : Nat} {acc : Acc}
    {es : List (Nat × Word × Nat × Nat)} {deny : List Nat} {ps : List (Nat × List (Loc × Nat))}
    (ha : Accessible s x space acc es deny u ps) (hne : es ≠ [] ∨ x.off ≠ [])
    {act : State → Nat → List (Loc × Nat) → State × List RedVal} (hact : ∀ s l ps, Grouped s x.key → Grouped (act s l ps).1 x.key)
    (order : BitVec 2) (scope : BitVec 3) (nres : Nat) (first : Option (BitVec 6)) (dst : BitVec 6) :
    let r := performAll act ps (u.drainReleases x order scope acc (allPass ps)) []
    RetiredBy r.1 (r.1.finishLong x (x.mirror r.2) nres first dst [] [] false) x (x.mirror r.2) nres first dst []
      (.op r.1.serial) .ready := by
  intro r
  have hu : Grouped u x.key := hg.of_work (by rw [checkAll_work _ ha.check])
  obtain ⟨h, hh, hl⟩ : Grouped r.1 x.key := performAll_grouped hact ps (hu.drainReleases _ _ _ _) []
  refine finishLong_by hh hl _ ?_ _ _ _ _ _ _
  rcases hne with h | h
  · refine .inl (mirror_ne fun h0 => ?_)
    have h1 : r.2.length = ps.length := by
      rw [performAll_length, List.length_nil, Nat.zero_add]
    have h2 := checkAll_length _ ha.check
    simp only [allPass, List.length_map, List.length_nil, Nat.zero_add] at h2
    have h3 : r.2.length = 0 := by rw [h0]; rfl
    exact h (List.length_eq_zero_iff.1 (by omega))
  · exact .inr h

/-- A memory instruction that `memInstr` frames performs its accesses. -/
theorem memInstr_performs {i : Instr} {f : FmtM} {codes : List (BitVec 6)} {nres : Nat} {dst : BitVec 6} {acc : Acc}
    {size : Ctx → State → Nat → Nat × Nat} {deny : List Nat} {data : Ctx → State → Nat → List RedVal}
    {dataPsn : Ctx → State → Nat → Bool} {act : Ctx → State → Nat → List (Loc × Nat) → State × List RedVal}
    (he : ∀ s, exec i s = memInstr i s f codes nres dst acc size deny data dataPsn false act)
    (hact : ∀ x s l ps, Grouped s x.key → Grouped (act x s l ps).1 x.key) :
    Performs i f acc false (fun s x l => size x s l) deny [f.sa] (fun s x l => data x s l) (fun s x l => dataPsn x s l) nres dst
      fun _ x s l ps => act x s l ps := by
  intro s x u ps h hl hne hc hp ha hs _
  rw [he]
  refine ⟨_, frame_issues h _, ?_⟩
  refine RetiredBy.bump ?_
  have hany : (x.on.any fun l => (s.opnd x.g l f.sa).psn || (false && dataPsn x s l)) = false := by
    rw [List.any_eq_false]
    intro l hm
    simp [hc l hm f.sa (by simp)]
  simp only [strictTraps_lenient hl, List.any_nil, Bool.not_false, filter_all, hany, Bool.false_eq_true, ↓reduceIte, hp, ha.check,
    denyKinds_allPass ha.kinds, storesPoison_allPass hs, passed_allPass, trapsOf_allPass, List.append_nil, takeTraps_nil,
    parkFaults_allPass]
  exact performed_retiredBy h.grouped ha (by simpa using hne) (hact x) _ _ _ _ _

/-- An atomic that `atomInstr` frames performs its accesses. -/
theorem atomInstr_performs {i : Instr} {f : FmtM} {codes : List (BitVec 6)} {nres : Nat} {dst : BitVec 6}
    {rmw : Ctx → State → Nat → List Byte → Option (List Byte) × List Word}
    (he : ∀ s, exec i s = atomInstr i s f codes nres dst rmw) :
    Performs i f .rmw true (fun _ _ _ => (widthBytes f.width, widthBytes f.width)) [3, 4] codes
      (fun s x l => codes.map fun c => ((s.opnd x.g l c).val, (s.opnd x.g l c).psn)) (fun _ _ _ => false) nres dst
      fun s0 x s l ps =>
        let s := s.recallPieces ps
        let q := rmw x s0 l (s.readPieces x l true ps).2.1
        ((match q.1 with
          | some b => s.writePieces x l false ps b
          | none => s), q.2.map fun v => (v, false)) := by
  intro s x u ps h hl hne hc hp ha _ ho
  rw [he]
  refine ⟨_, frame_issues h _, ?_⟩
  refine RetiredBy.bump ?_
  have hany : (x.on.any fun l => (codes.map fun c => ((s.opnd x.g l c).val, (s.opnd x.g l c).psn)).any fun v => v.2) = false := by
    rw [List.any_eq_false]
    intro l hm
    simp only [List.any_map, Bool.not_eq_true, List.any_eq_false]
    intro c hcm
    simp [hc l hm c hcm]
  simp only [strictTraps_lenient hl, List.any_nil, Bool.not_false, filter_all, hany, Bool.false_eq_true, ↓reduceIte, hp, ha.check,
    denyKinds_allPass ha.kinds, oldPoison_allPass (ho rfl), passed_allPass, trapsOf_allPass, List.append_nil, takeTraps_nil,
    parkFaults_allPass]
  refine performed_retiredBy h.grouped ha (by simpa using hne) (fun s l ps hg => ?_) _ _ _ _ _
  dsimp only
  split
  · exact (hg.recallPieces ps).writePieces _ _ _ _
  · exact hg.recallPieces ps

end Sys2Proof.Machine
end

