-- ==== Sys2Proof/Laws/Canonical.lean ====
section
/-! SUPPORT. Every operation on memory keeps the canonical form of the byte memories (log entry 1): the module's bytes, the
scratchpads and the B slots. -/

namespace Sys2Proof.Machine

/-! ### What the form says, and what cannot break it -/

theorem memoryOk_iff (s : State) : s.memoryOk = true ↔ s.mem.bytes.wf = true ∧ (∀ e ∈ s.work.teams, e.2.scr.wf = true) ∧
    ∀ e ∈ s.work.cores, ∀ b ∈ e.2.bslots, b.bytes.wf = true := by
  simp [State.memoryOk, Bool.and_eq_true, List.all_eq_true, and_assoc]

/-- The reset state has the form. -/
theorem memoryOk_reset : State.reset.memoryOk = true := rfl

/-- A change of anything but the byte memories keeps the form. -/
theorem memoryOk_same {s t : State} (h : s.memoryOk = true) (hb : t.mem.bytes = s.mem.bytes) (ht : t.work.teams = s.work.teams)
    (hc : t.work.cores = s.work.cores) : t.memoryOk = true := by
  simpa only [State.memoryOk, hb, ht, hc] using h

/-- A change of the module's bytes alone, to a memory in the form. -/
theorem memoryOk_bytes {s t : State} (h : s.memoryOk = true) (hb : t.mem.bytes.wf = true) (hw : t.work = s.work) : t.memoryOk = true := by
  rw [memoryOk_iff] at h ⊢
  exact ⟨hb, by rw [hw]; exact h.2.1, by rw [hw]; exact h.2.2⟩

theorem foldl_memoryOk {α : Type} (f : State → α → State) (hf : ∀ s a, s.memoryOk = true → (f s a).memoryOk = true) (l : List α) {s : State}
    (h : s.memoryOk = true) : (l.foldl f s).memoryOk = true := by
  induction l generalizing s with
  | nil => exact h
  | cons a l ih => exact ih (hf s a h)

theorem Sparse.mem_of_get? {α : Type} {m : Sparse α} {n : Nat} {v : α} (h : Sparse.get? m n = some v) : (n, v) ∈ m := by
  induction m with
  | nil => simp [Sparse.get?] at h
  | cons e t ih =>
    obtain ⟨k, w⟩ := e
    simp only [Sparse.get?] at h
    split at h
    · rename_i hk
      subst hk
      simp_all
    · exact List.mem_cons_of_mem _ (ih h)

/-- A team whose scratchpad keeps the form. -/
theorem modTeam_memoryOk {s : State} (h : s.memoryOk = true) (k : Nat) (f : Team → Team) (hf : ∀ t, t.scr.wf = true → (f t).scr.wf = true) :
    (s.modTeam k f).memoryOk = true := by
  rw [memoryOk_iff] at h ⊢
  refine ⟨h.1, fun e he => ?_, h.2.2⟩
  simp only [State.modTeam, Sparse.upd] at he
  split at he
  · rename_i t ht
    rcases Sparse.mem_put _ _ _ _ he with rfl | he
    · exact hf t (h.2.1 _ (Sparse.mem_of_get? ht))
    · exact h.2.1 e he
  · exact h.2.1 e he

/-- A core whose B slots keep the form. -/
theorem modCore_memoryOk {s : State} (h : s.memoryOk = true) (c : Nat) (f : Core → Core)
    (hf : ∀ k, (∀ b ∈ k.bslots, b.bytes.wf = true) → ∀ b ∈ (f k).bslots, b.bytes.wf = true) : (s.modCore c f).memoryOk = true := by
  rw [memoryOk_iff] at h ⊢
  refine ⟨h.1, h.2.1, fun e he => ?_⟩
  rcases Sparse.mem_put _ _ _ _ he with rfl | he
  · refine hf _ fun b hb => ?_
    simp only [State.core] at hb
    cases hc : Sparse.get? s.work.cores c with
    | none =>
      simp only [hc, Option.getD_none, Core.fresh] at hb
      rw [List.eq_of_mem_replicate hb]
      rfl
    | some k =>
      simp only [hc, Option.getD_some] at hb
      exact h.2.2 _ (Sparse.mem_of_get? hc) b hb
  · exact h.2.2 e he

theorem modGroup_memoryOk {s : State} (h : s.memoryOk = true) (k : Nat) (f : Group → Group) : (s.modGroup k f).memoryOk = true := h
theorem modLane_memoryOk {s : State} (h : s.memoryOk = true) (k l : Nat) (f : Lane → Lane) : (s.modLane k l f).memoryOk = true := h
theorem modTenant_memoryOk {s : State} (h : s.memoryOk = true) (k : Nat) (f : Tenant → Tenant) : (s.modTenant k f).memoryOk = true := h

/-! ### Module memory -/

/-- A fold of changes that leave the module's bytes alone leaves them alone. -/
theorem foldl_bytes {α : Type} (f : State → α → State) (hf : ∀ s a, (f s a).mem.bytes = s.mem.bytes) (l : List α) (s : State) :
    (l.foldl f s).mem.bytes = s.mem.bytes := by
  induction l generalizing s with
  | nil => rfl
  | cons a l ih => rw [List.foldl_cons, ih, hf]

theorem recall_bytes (s : State) (pa n : Nat) : (s.recallHost pa n).mem.bytes = s.mem.bytes := by
  unfold State.recallHost
  split
  · rfl
  · refine foldl_bytes _ (fun s k => ?_) _ _
    split <;> rfl

/-- Recalling the host's copies of lines changes no byte. -/
theorem recall_memoryOk {s : State} (h : s.memoryOk = true) (pa n : Nat) : (s.recallHost pa n).memoryOk = true :=
  memoryOk_bytes h (by rw [recall_bytes]; exact ((memoryOk_iff s).1 h).1) (recall_work _ _ _)

theorem homeWrite_memoryOk {s : State} (h : s.memoryOk = true) (pa : Nat) (bs : List Byte) (psn : Bool) : (s.homeWrite pa bs psn).memoryOk = true :=
  memoryOk_bytes h (Mem.wf_writeN _ _ _ ((memoryOk_iff s).1 h).1) rfl

theorem physWrite_memoryOk {s : State} (h : s.memoryOk = true) (pa : Nat) (bs : List Byte) (psn : Bool) : (s.physWrite pa bs psn).memoryOk = true := by
  unfold State.physWrite
  dsimp only
  exact foldl_memoryOk _ (fun s _ h => homeWrite_memoryOk (recall_memoryOk h _ _) _ _ _) _ (homeWrite_memoryOk (recall_memoryOk h _ _) _ _ _)

/-- Lines of the host that come home. -/
theorem recallDirty_memoryOk {s : State} (h : s.memoryOk = true) (pa n : Nat) : (s.recallDirty pa n).memoryOk = true := by
  unfold State.recallDirty
  split
  · exact h
  · dsimp only
    exact foldl_memoryOk _ (fun s _ h => homeWrite_memoryOk h _ _ _) _ (recall_memoryOk h _ _)

theorem viewLine_memoryOk {s : State} (h : s.memoryOk = true) (cur key line : Nat) : (State.viewLine cur key s line).memoryOk = true := by
  unfold State.viewLine
  dsimp only
  split
  all_goals exact memoryOk_bytes h (Mem.wf_writeN _ _ _ ((memoryOk_iff s).1 h).1) rfl

/-- A frame shown under another key. -/
theorem viewAs_memoryOk {s : State} (h : s.memoryOk = true) (frame key : Nat) : (s.viewAs frame key).memoryOk = true := by
  unfold State.viewAs
  dsimp only
  split
  · exact h
  · generalize List.range 64 = l
    exact memoryOk_same (foldl_memoryOk _ (fun _ _ h => viewLine_memoryOk h _ _ _) l h) rfl rfl rfl

theorem newView_memoryOk {s : State} (h : s.memoryOk = true) (frame key : Nat) : (s.newView frame key).memoryOk = true := h

theorem setPhysWord_memoryOk {s : State} (h : s.memoryOk = true) (pa : Nat) (w : Word) : (s.setPhysWord pa w).memoryOk = true :=
  physWrite_memoryOk h _ _ _

/-- An entry that hardware writes. -/
theorem setEntry_memoryOk {s : State} (h : s.memoryOk = true) (loc : Nat) (w : Word) : (s.setEntry loc w).memoryOk = true :=
  memoryOk_same (setPhysWord_memoryOk h loc w) rfl rfl rfl

theorem hostPut_memoryOk {s : State} (h : s.memoryOk = true) (pa : Nat) (bs : List Byte) (psn : Bool) : (s.hostPut pa bs psn).memoryOk = true :=
  memoryOk_bytes h (Mem.wf_writeN _ _ _ ((memoryOk_iff s).1 h).1) rfl

theorem hostStore_memoryOk {s : State} (h : s.memoryOk = true) (pa : Nat) (bs : List Byte) (psn : Bool) : (s.hostStore pa bs psn).memoryOk = true := by
  unfold State.hostStore
  exact foldl_memoryOk _ (fun s _ h => hostPut_memoryOk h _ _ _) _ (hostPut_memoryOk h _ _ _)

theorem setFramePsn_memoryOk {s : State} (h : s.memoryOk = true) (pa : Nat) (ws : List Nat) : (s.setFramePsn pa ws).memoryOk = true := h

theorem poisonSector_memoryOk {s : State} (h : s.memoryOk = true) (pa : Nat) : (s.poisonSector pa).memoryOk = true := h

/-- A frame whose key is gone holds free bytes, in the form. -/
theorem lostFrame_memoryOk {s : State} (h : s.memoryOk = true) (frame : Nat) : (s.lostFrame frame).memoryOk = true := by
  unfold State.lostFrame
  generalize (List.range 4096).map (fun i => areaByte (s.free + frame) i) = bs
  exact memoryOk_bytes h (Mem.wf_writeN _ _ _ ((memoryOk_iff s).1 h).1) rfl

/-- What is below the trusted base, kept by a full reset. -/
theorem fullReset_memoryOk {s : State} (h : s.memoryOk = true) : s.fullReset.memoryOk = true := by
  refine memoryOk_bytes memoryOk_reset ?_ rfl
  have hw := ((memoryOk_iff s).1 h).1
  simp only [Mem.wf, Bool.and_eq_true, List.all_eq_true] at hw ⊢
  exact ⟨Sparse.sorted_filter _ _ hw.1, fun e he => hw.2 e (List.mem_filter.1 he).1⟩

theorem powerLost_memoryOk (s : State) : s.powerLost.memoryOk = true := memoryOk_same memoryOk_reset rfl rfl rfl

/-! ### Translation, compressed frames, accesses of the units -/

theorem touch_memoryOk {s : State} (h : s.memoryOk = true) (l : Leaf) (acc : Acc) : (s.touch l acc).memoryOk = true := setEntry_memoryOk h _ _

theorem lendFound_memoryOk {s : State} (h : s.memoryOk = true) (tenant va pa : Nat) : (s.lendFound tenant va pa).memoryOk = true := by
  unfold State.lendFound
  dsimp only
  split
  · exact h
  · exact h

theorem uses_memoryOk {s : State} (h : s.memoryOk = true) (tenant : Nat) (l : Leaf) (va : Nat) (acc : Acc) : (s.uses tenant l va acc).memoryOk = true :=
  lendFound_memoryOk (viewAs_memoryOk (touch_memoryOk h l acc) _ _) _ _ _

/-- Every state that a translation answers with keeps the form. -/
def Tr.Keeps : Tr → Prop
  | .ok s _ _ _ => s.memoryOk = true
  | .later s => s.memoryOk = true
  | _ => True

theorem checkLeaf_keeps {s : State} (h : s.memoryOk = true) (tenant : Nat) (l : Leaf) (va : Nat) (acc : Acc) : (s.checkLeaf tenant l va acc).Keeps := by
  unfold State.checkLeaf
  repeat' split
  all_goals first | exact h | trivial | exact uses_memoryOk h tenant l va acc

theorem xlate_keeps {s : State} (h : s.memoryOk = true) (tenant va : Nat) (acc : Acc) : (s.xlate tenant va acc).Keeps := by
  unfold State.xlate
  repeat' split
  all_goals first | trivial | exact checkLeaf_keeps h _ _ _ _

theorem restoreTo_memoryOk {s : State} (h : s.memoryOk = true) (cold : Nat) (c : Cold) (frame : Nat) : (s.restoreTo cold c frame).memoryOk = true := by
  unfold State.restoreTo
  refine newView_memoryOk (modTenant_memoryOk (foldl_memoryOk _ (fun s loc h => ?_) _ (setFramePsn_memoryOk ?_ _ _)) _ _) _ _
  · split
    · exact setEntry_memoryOk h _ _
    · exact h
  · exact memoryOk_bytes h (Mem.wf_writeN _ _ _ ((memoryOk_iff s).1 h).1) rfl

theorem restoreFrame_memoryOk {s t : State} (h : s.memoryOk = true) {loc va : Nat} {die : Option Nat} (ht : s.restoreFrame loc va die = some t) : t.memoryOk = true := by
  unfold State.restoreFrame at ht
  dsimp only at ht
  split at ht
  · obtain ⟨f, -, rfl⟩ := Option.map_eq_some_iff.1 ht
    exact restoreTo_memoryOk h _ _ _
  · cases ht

theorem devXlate_keeps {s : State} (h : s.memoryOk = true) (tenant va : Nat) (acc : Acc) : (s.devXlate tenant va acc).Keeps := by
  have hx := xlate_keeps h tenant va acc
  unfold State.devXlate
  split
  · rename_i u hu
    rw [hu] at hx
    split
    · split
      · rename_i v hv
        exact xlate_keeps (restoreFrame_memoryOk h hv) _ _ _
      · first | exact hx | exact h
    · first | exact hx | exact h
  · exact hx

/-- Every state that a unit's access answers with keeps the form. -/
def Dev.Keeps {α : Type} : Dev α → Prop
  | .ok s _ => s.memoryOk = true
  | .blocked s => s.memoryOk = true
  | _ => True

theorem devParts_keeps (tenant : Nat) (acc : Acc) (vs : List (Nat × Nat)) {s : State} (ps : List (Nat × Nat × Nat)) (h : s.memoryOk = true) :
    (State.devParts tenant acc vs s ps).Keeps := by
  induction vs generalizing s ps with
  | nil => exact h
  | cons v vs ih =>
    have hx := devXlate_keeps h tenant v.1 acc
    unfold State.devParts
    split
    all_goals first | trivial | skip
    · rename_i hu
      rw [hu] at hx
      exact ih _ hx
    · rename_i hu
      rw [hu] at hx
      exact hx

theorem devMap_keeps {s : State} (h : s.memoryOk = true) (tenant va n : Nat) (acc : Acc) : (s.devMap tenant va n acc).Keeps := devParts_keeps _ _ _ _ h

theorem devRead_keeps {s : State} (h : s.memoryOk = true) (tenant va n : Nat) : (s.devRead tenant va n).Keeps := by
  have hm := devMap_keeps h tenant va n .read
  unfold State.devRead
  split
  all_goals first | trivial | skip
  all_goals
    rename_i hu
    rw [hu] at hm
    exact hm

theorem putParts_memoryOk (ps : List (Nat × Nat × Nat)) (bs : List Byte) {s : State} (h : s.memoryOk = true) : (s.putParts ps bs).memoryOk = true := by
  induction ps generalizing s bs with
  | nil => exact h
  | cons p ps ih => exact ih _ (physWrite_memoryOk h _ _ _)

theorem devWrite_keeps {s : State} (h : s.memoryOk = true) (tenant va : Nat) (bs : List Byte) : (s.devWrite tenant va bs).Keeps := by
  have hm := devMap_keeps h tenant va bs.length .write
  unfold State.devWrite
  split
  all_goals first | trivial | skip
  all_goals
    rename_i hu
    rw [hu] at hm
    first | exact putParts_memoryOk _ _ hm | exact hm

/-- The record of a unit's fault. -/
theorem targetFault_memoryOk {s : State} (h : s.memoryOk = true) (tenant va acc : Nat) (f : FaultInfo) :
    (s.targetFault tenant va acc f).memoryOk = true := by
  unfold State.targetFault
  dsimp only
  split <;> exact h

/-- Writes that are owed change no memory yet. -/
theorem owe_memoryOk {s : State} (h : s.memoryOk = true) (os : List Owed) : (s.owe os).memoryOk = true := by
  unfold State.owe
  split
  · exact h
  · exact memoryOk_same h rfl rfl rfl

theorem devPut_memoryOk {s : State} (h : s.memoryOk = true) (tenant va : Nat) (bs : List Byte) (f : FaultInfo) :
    (s.devPut tenant va bs f).memoryOk = true := by
  have hw := devWrite_keeps h tenant va bs
  unfold State.devPut
  split
  · rename_i hu
    rw [hu] at hw
    exact hw
  · exact targetFault_memoryOk h _ _ _ _
  · exact owe_memoryOk h _
  · exact h

theorem devAdd_keeps {s : State} (h : s.memoryOk = true) (tenant va : Nat) (v : Word) : (s.devAdd tenant va v).Keeps := by
  have hm := devMap_keeps h tenant va 8 .rmw
  unfold State.devAdd
  split
  all_goals first | trivial | skip
  all_goals
    rename_i hu
    rw [hu] at hm
    first
      | (split
         · trivial
         · exact setPhysWord_memoryOk (recallDirty_memoryOk hm _ _) _ _)
      | exact hm

/-! ### Accesses of lanes -/

theorem scrWrite_memoryOk {s : State} (h : s.memoryOk = true) (tk off : Nat) (bs : List Byte) (psn : Bool) : (s.scrWrite tk off bs psn).memoryOk = true :=
  modTeam_memoryOk h _ _ fun _ ht => Mem.wf_writeN _ _ _ ht

theorem l1Drop_memoryOk {s : State} (h : s.memoryOk = true) (core tenant vline : Nat) : (s.l1Drop core tenant vline).memoryOk = true := by
  unfold State.l1Drop
  split
  · exact h
  · exact modCore_memoryOk h _ _ fun _ hb => hb

theorem l1Read_memoryOk {s : State} (h : s.memoryOk = true) (core tenant vline pa n : Nat) : (s.l1Read core tenant vline pa n).1.memoryOk = true := by
  unfold State.l1Read
  repeat' split
  · exact h
  · exact l1Drop_memoryOk h _ _ _
  · exact modCore_memoryOk h _ _ fun _ hb => hb

theorem readPieces_memoryOk (x : Ctx) (l : Nat) (fresh : Bool) (ps : List (Loc × Nat)) {s : State} (h : s.memoryOk = true) :
    (s.readPieces x l fresh ps).1.memoryOk = true := by
  induction ps generalizing s with
  | nil => exact h
  | cons p ps ih =>
    simp only [State.readPieces]
    apply ih
    repeat' split
    all_goals first | exact h | exact l1Read_memoryOk h _ _ _ _ _

theorem drainWcb_memoryOk {s : State} (h : s.memoryOk = true) (key l : Nat) : (s.drainWcb key l).memoryOk = true := by
  unfold State.drainWcb
  split
  · dsimp only
    split
    · exact h
    · exact modLane_memoryOk (foldl_memoryOk _ (fun _ _ h => physWrite_memoryOk h _ _ _) _ h) _ _ _
  · exact h

theorem writePieces_memoryOk (x : Ctx) (l : Nat) (psn : Bool) (ps : List (Loc × Nat)) (bs : List Byte) {s : State} (h : s.memoryOk = true) :
    (s.writePieces x l psn ps bs).memoryOk = true := by
  induction ps generalizing s bs with
  | nil => exact h
  | cons p ps ih =>
    obtain ⟨p, n⟩ := p
    simp only [State.writePieces]
    apply ih
    split
    · exact scrWrite_memoryOk h _ _ _ _
    · have hd := fun v => l1Drop_memoryOk h x.core x.ln.tenant v
      split
      · refine modLane_memoryOk ?_ _ _ _
        repeat' split
        all_goals first | exact drainWcb_memoryOk (hd _) _ _ | exact hd _
      · exact physWrite_memoryOk (hd _) _ _ _

/-! ### B slots -/

theorem BSlot.wf_write {b : BSlot} (h : b.bytes.wf = true) (off : Nat) (bs : List PByte) : (b.write off bs).bytes.wf = true := Mem.wf_writeN _ _ _ h

theorem mem_updAt {α : Type} (f : α → α) (n : Nat) (l : List α) {a : α} (h : a ∈ updAt f n l) : a ∈ l ∨ ∃ b ∈ l, a = f b := by
  obtain ⟨i, hi, rfl⟩ := List.getElem_of_mem h
  have hl : i < l.length := by simpa using hi
  by_cases hn : i = n
  · subst hn
    refine .inr ⟨l[i], List.getElem_mem hl, ?_⟩
    have := getElem?_updAt_self f i l
    rw [List.getElem?_eq_getElem hi, List.getElem?_eq_getElem hl] at this
    simpa using this
  · refine .inl ?_
    have := getElem?_updAt_ne f l hn
    rw [List.getElem?_eq_getElem hi, List.getElem?_eq_getElem hl] at this
    simp only [Option.some.injEq] at this
    rw [this]
    exact List.getElem_mem hl

/-- A row of a B tile. -/
theorem putSlot_memoryOk {s : State} (h : s.memoryOk = true) (core n off : Nat) (bs : List PByte) :
    (s.modCore core fun k => { k with bslots := updAt (fun b => b.write off bs) n k.bslots }).memoryOk = true :=
  modCore_memoryOk h _ _ fun _ hk _ hb => (mem_updAt _ _ _ hb).elim (hk _) fun ⟨c, hc, e⟩ => e ▸ BSlot.wf_write (hk c hc) _ _

/-! ### The frame engine and the host -/

theorem drainPage_memoryOk {s : State} (h : s.memoryOk = true) (page pa : Nat) : (s.drainPage page pa).memoryOk = true := by
  unfold State.drainPage
  dsimp only
  exact memoryOk_same (foldl_memoryOk (fun (s : State) k => s.poisonSector (pa + 32 * (k % 128))) (fun _ _ h => poisonSector_memoryOk h _) _
    (foldl_memoryOk (fun (s : State) (e : Nat × List Byte) => s.hostStore (pa + e.1 % 4096) e.2 false)
      (fun _ _ h => hostStore_memoryOk h _ _ _) _ h)) rfl rfl rfl

theorem install_memoryOk (n va : Nat) (leaf : Word → Word) (shifts : List Nat) (table : Nat) {s t : State} (h : s.memoryOk = true)
    (ht : s.install n va leaf shifts table = some t) : t.memoryOk = true := by
  induction shifts generalizing s t table with
  | nil => cases ht
  | cons shift rest ih =>
    simp only [State.install] at ht
    split at ht
    · split at ht
      · cases ht
      · cases ht
        exact setPhysWord_memoryOk h _ _
    · split at ht
      · split at ht
        · cases ht
        · exact ih _ h ht
      · split at ht
        · cases ht
        · obtain ⟨u, hu, rfl⟩ := Option.map_eq_some_iff.1 ht
          exact setPhysWord_memoryOk (ih _ (modTenant_memoryOk (physWrite_memoryOk h _ _ _) _ _) hu) _ _

theorem backWith_memoryOk {s t : State} (h : s.memoryOk = true) {n : Nat} {o : Tenant} {tsa frame : Nat} (ht : s.backWith n o tsa frame = some t) :
    t.memoryOk = true := by
  obtain ⟨u, hu, rfl⟩ := Option.map_eq_some_iff.1 ht
  exact lendFound_memoryOk (newView_memoryOk (modTenant_memoryOk (install_memoryOk _ _ _ _ _ (physWrite_memoryOk h _ _ _) hu) _ _) _ _) _ _ _

end Sys2Proof.Machine
end

