-- ==== Sys2Proof/Tests/Slice0.lean ====
section
/-! SUPPORT. Tests: ill-formed terms that are refused, words written out bit by bit from the encoding tables of the spec that
decode to their instructions, single steps with results worked out from the spec, and for every statement that has hypotheses
concrete states and operands that meet them. -/

namespace Sys2Proof.Tests

set_option Elab.async false

open Sys2Proof Sys2Proof.Machine

/-! ### Operand fields -/

/-- Guard table 0xFF over p0 (always true), no waits, no flags, DIST 0. -/
def common : Common := { tt := 0xFF, ga := 0, gb := 0, gc := 0, wait := 0, set1 := 12, set2 := 12, dist := 0 }

/-- Format T: the first n of the sources n0, n1, n2, a type code, MOD; the result goes to the queue. -/
def ft (n ty : Nat) (mod : Nat := 0) : FmtT :=
  { dst := 0, sa := if n < 1 then 0 else 0x10, sb := if n < 2 then 0 else 0x11, sc := if n < 3 then 0 else 0x12, la := 0, lb := 0, lc := 0,
    type := BitVec.ofNat 5 ty, rnd := 0, ftz := 0, sat := 0, mod := BitVec.ofNat 12 mod }

/-! ### A state in which an instruction issues -/

/-- A group of 32 lanes on core 0 with an issue of all of them in progress at PC 0x1000. -/
def busy : State :=
  { (State.reset.atSlot 0).grantIssue (groupKey 0 0) (BitVec.allOnes 32) with
    agenda := [], cur := .stream 0 0 (BitVec.allOnes 32) 0x1000 }

/-- `Issues` and `Lenient`, computed. -/
def issuesB (s : State) (i : Instr) (p : Ctx → Bool) : Bool :=
  match s.ctx? i with
  | none => false
  | some x => (s.wordFault x).isNone && ((lanesOf x.mask).all fun l => !s.guardPsn x.g x.v.c l) && !s.uniformPsn x &&
      (!collective x.opc || (x.mask == BitVec.allOnes 32 && x.off.isEmpty)) && x.g.lanes.length == 32 && !bit x.t.dctl 31 && p x

/-- Instruction i issues in s, outside the strict debug mode, with a context of which P holds. -/
def Meets (s : State) (i : Instr) (P : Ctx → Prop) : Prop := ∃ x, Issues s i x ∧ Lenient x ∧ P x

theorem meets {s : State} {i : Instr} {P : Ctx → Prop} [∀ x, Decidable (P x)]
    (h : issuesB s i (fun x => decide (P x)) = true) : Meets s i P := by
  unfold issuesB at h
  split at h
  · simp at h
  · rename_i x hx
    simp only [Bool.and_eq_true, Option.isNone_iff_eq_none, List.all_eq_true, Bool.not_eq_true', beq_iff_eq, Bool.or_eq_true,
      List.isEmpty_iff, decide_eq_true_eq] at h
    obtain ⟨⟨⟨⟨⟨⟨h1, h2⟩, h3⟩, h4⟩, h5⟩, h6⟩, h7⟩ := h
    refine ⟨x, ⟨hx, h1, h2, h3, fun hc => ?_, h5⟩, h6, h7⟩
    rcases h4 with h4 | h4
    · simp [h4] at hc
    · exact h4

/-- Each of the instructions does. -/
theorem all_meet {s : State} {is : List Instr} {P : Ctx → Prop} [∀ x, Decidable (P x)]
    (h : (is.all fun i => issuesB s i fun x => decide (P x)) = true) : ∀ i ∈ is, Meets s i P :=
  fun i hi => meets (List.all_eq_true.1 h i hi)

/-- Guard-true lanes are there, no shadow check fails, and no flag that a lane raises would trap in it. -/
abbrev Sound (s : State) (x : Ctx) : Prop :=
  x.on ≠ [] ∧ (shadowed x.v = false ∨ s.upset = .none) ∧ ∀ l ∈ x.on, (x.g.lane l).fpstat.extractLsb' 8 5 = 0

theorem untrapped {s : State} {x : Ctx} (h : Sound s x) {l : Nat} (hl : l ∈ x.on) (fp : BitVec 5) : Untrapped x l fp := by
  simp [Untrapped, fpTrap, h.2.2 l hl]

theorem unstruck {s : State} {x : Ctx} (h : Sound s x) : Unstruck s x := h.2.1

/-- Format I, P, B, S. -/
def fi (imm : Nat := 0) (mod : Nat := 0) (sa : BitVec 6 := 0x10) : FmtI :=
  { dst := 0, sa := sa, mod := BitVec.ofNat 4 mod, imm := BitVec.ofNat 32 imm }
def fp (ty cond : Nat) (mode : Nat := 0) : FmtP :=
  { pa := 1, pb := 2, sa := 0x10, sb := 0x11, mode := BitVec.ofNat 2 mode, cond := BitVec.ofNat 4 cond, type := BitVec.ofNat 5 ty,
    ftz := 0, rsv := 0 }
def fb (sa : BitVec 6 := 0) (mod : Nat := 0) (ofs : Nat := 0) : FmtB :=
  { sa := sa, mod := BitVec.ofNat 4 mod, rsv := 0, ofs := BitVec.ofNat 32 ofs }
def fs (sel : Nat := 0) (imm : Nat := 0) (sa : BitVec 6 := 0) : FmtS :=
  { dst := 0, sa := sa, sel := BitVec.ofNat 12 sel, imm := BitVec.ofNat 24 imm }

/-- Format M and format E. -/
def fm (space width : Nat) (order scope hint sgn : Nat := 0) (sa : BitVec 6 := 0x10) (sd : BitVec 6 := 0) (dst : BitVec 6 := 0)
    (ofs : Nat := 0) : FmtM :=
  { dst := dst, sa := sa, sd := sd, space := BitVec.ofNat 3 space, width := BitVec.ofNat 3 width, order := BitVec.ofNat 2 order,
    scope := BitVec.ofNat 3 scope, hint := BitVec.ofNat 2 hint, sgn := BitVec.ofNat 1 sgn, ofs := BitVec.ofNat 16 ofs }
def fe (ua ub uc : BitVec 6) (mod tag : Nat := 0) (acq rel scope : Nat := 0) : FmtE :=
  { dst := 0, ua := ua, ub := ub, uc := uc, tag := BitVec.ofNat 6 tag, acq := BitVec.ofNat 1 acq, rel := BitVec.ofNat 1 rel,
    scope := BitVec.ofNat 3 scope, mod := BitVec.ofNat 13 mod }

/-- Registers n0, n1, … of lane l, and k0, k1, … -/
def named (vs : Nat → List Word) (s : State) : State := s.modGroup (groupKey 0 0) fun g => g.mapLanes fun l e =>
  { e with n := (vs l).map (fun v => ⟨v, false, true, none⟩) ++ e.n.drop (vs l).length }
def uniform (ks : List Word) (s : State) : State := s.modGroup (groupKey 0 0) fun g =>
  { g with k := ks.map (fun v => ⟨v, false, true, none⟩) ++ g.k.drop ks.length }

/-- An entry of a page table: a frame, its kind, RD, WR, EX, V and leaf bits. -/
def leafWord (frame kind : Nat) : Nat := 4096 * frame + 4 * kind + 0x1C3

/-- The tenant whose root table is at 0x10000. -/
def aTenant : Tenant :=
  { host := false, root := 0x10000, quota := 2 ^ 30, reserve := [], tablePool := [], frames := [], ringBase := 0x8000, ringLog2 := 4, prod := 0,
    consAddr := 0x8400, serviceQueue := 0, session := none, mailboxes := [], scripts := 0, jobKeys := [77] }

/-- Tenant 0 has its space: the first GiB is physical memory from 0 on, the second is the same as WCB, nothing else is mapped. The
line at 0x1000 has VER and every TARGET bit. -/
def spaced (s : State) : State :=
  let s := { s with sec := { s.sec with tenants := s.sec.tenants.put 0 aTenant } }
  let m := (s.mem.bytes.writeN 0x10000 (leBytes 8 0x11001)).writeN 0x11000 (leBytes 8 (leafWord 0 0))
  let m := m.writeN 0x11008 (leBytes 8 (leafWord 0 3))
  { s with mem := { s.mem with bytes := m.writeN 0x103C (leBytes 4 0xF8000001) } }

/-- An issue of lanes 0 and 1 in progress, with a tenant, a scratchpad of 64 KiB, and n0 = 64 × lane, n1 = 1, n2 = 255, n3 unmapped, n4 on a WCB page, n5 a code address. -/
def loaded : State :=
  (spaced (named (fun l => [word (64 * l), 1, 255, 0x80000000, 0x40000000, 0x1001]) { busy with cur := .stream 0 0 3 0x1000 })).modTeam (indexKey 0 0) fun t =>
    { t with scrBytes := 65536 }

/-- All verdicts of a check are passes. -/
theorem allPass_of {cs : List LaneChk} (h : cs = allPass (passed cs)) : ∃ ps, cs = allPass ps := ⟨_, h⟩

/-- `Accessible`, computed, with a condition on the state and the pieces that the checks leave. -/
def accessB (s : State) (x : Ctx) (space : Nat) (acc : Acc) (entries : List (Nat × Word × Nat × Nat)) (deny : List Nat)
    (p : State → List (Nat × List (Loc × Nat)) → Bool) : Bool :=
  match State.checkAll x space acc entries s [] with
  | .done u cs => decide (cs = allPass (passed cs)) && ((passed cs).all fun c => c.2.all fun q => !deny.contains (kindOf [q])) &&
      p u (passed cs)
  | _ => false

theorem accessible {s : State} {x : Ctx} {space : Nat} {acc : Acc} {entries : List (Nat × Word × Nat × Nat)} {deny : List Nat}
    {p : State → List (Nat × List (Loc × Nat)) → Bool} (h : accessB s x space acc entries deny p = true) :
    ∃ u ps, Accessible s x space acc entries deny u ps ∧ p u ps = true := by
  unfold accessB at h
  split at h
  · rename_i u cs hc
    simp only [Bool.and_eq_true, decide_eq_true_eq, List.all_eq_true, Bool.not_eq_true', List.contains_eq_mem, decide_eq_false_iff_not] at h
    exact ⟨u, passed cs, ⟨hc.trans (by rw [← h.1.1]), h.1.2⟩, h.2⟩
  · simp at h

/-- Every hypothesis of `Performs` for an instruction of format M with accesses of n bytes: clean operands, an unpaired launch, accesses
that all pass on pages that any instruction may write, and no poison in the old values. -/
abbrev Performable (s : State) (f : FmtM) (acc : Acc) (n al : Nat) (x : Ctx) : Prop :=
  x.actors x.on ≠ [] ∧ (∀ l ∈ x.on, ∀ c ∈ [f.sa, f.sd, f.sd + 1, f.sd + 2, f.sd + 3], (s.opnd x.g l c).psn = false) ∧
    x.ln.paired = false ∧
    accessB s x f.space.toNat acc ((x.actors x.on).map fun l => (l, s.ea x f l, n, al)) [3, 4] (fun u ps =>
      ps.all fun p => !(u.readPieces x p.1 true p.2).2.2) = true

theorem unpaired {x : Ctx} (h : x.ln.paired = false) (key : Nat → List RedVal) : x.pairsDiffer key = false := by
  simp [Ctx.pairsDiffer, h]

theorem unpaired_branches {x : Ctx} (h : x.ln.paired = false) (res : List (Nat × Branch)) (data : Nat → List RedVal) :
    x.branchesDiffer res data = false := by
  simp [Ctx.branchesDiffer, h]

/-- What `Performable` gives. -/
theorem performable {s : State} {f : FmtM} {acc : Acc} {n al : Nat} {x : Ctx} (h : Performable s f acc n al x) :
    ∃ u ps, Accessible s x f.space.toNat acc ((x.actors x.on).map fun l => (l, s.ea x f l, n, al)) [3, 4] u ps ∧
      (∀ p ∈ ps, ∀ q ∈ p.2, kindOf [q] ≠ 3 ∧ kindOf [q] ≠ 4) ∧ ∀ p ∈ ps, (u.readPieces x p.1 true p.2).2.2 = false := by
  obtain ⟨u, ps, ha, hp⟩ := accessible h.2.2.2
  refine ⟨u, ps, ha, fun p hm q hq => ?_, fun p hm => by simpa using List.all_eq_true.1 hp p hm⟩
  have := ha.kinds p hm q hq
  simp only [List.mem_cons, List.not_mem_nil, or_false, not_or] at this
  exact this

/-! ### Words written out from the encoding tables (R75 to R87): every field holds a value of its own -/

def wC : Common := { tt := 0xAC, ga := 5, gb := 2, gc := 7, wait := 0xA05, set1 := 3, set2 := 0xB, dist := 6 }
def wT : FmtT := { dst := 0x2A, sa := 0x11, sb := 0x35, sc := 7, la := 1, lb := 0, lc := 1, type := 0x16, rnd := 2, ftz := 1, sat := 0, mod := 0x5A3 }
def wI : FmtI := { dst := 0x13, sa := 0x2F, mod := 9, imm := 0x89ABCDEF }
def wP : FmtP := { pa := 6, pb := 1, sa := 0x2C, sb := 0x3F, mode := 2, cond := 0xB, type := 0xD, ftz := 1, rsv := 0x20001 }
def wB : FmtB := { sa := 0x2D, mod := 0xA, rsv := 0x21, ofs := 0xFFFFFFFA }
def wM : FmtM := { dst := 0x31, sa := 0x2E, sd := 0x14, space := 5, width := 3, order := 2, scope := 4, hint := 1, sgn := 1, ofs := 0x8001 }
def wE : FmtE := { dst := 0x12, ua := 0x30, ub := 0x3E, uc := 0x21, tag := 0x2B, acq := 1, rel := 0, scope := 5, mod := 0x1A55 }
def wS : FmtS := { dst := 0x19, sa := 0x26, sel := 0xB0D, imm := 0x123456 }

theorem test_decode_madw : decodeSlot 0x09ACABD029DEA91D47B6A5A3 = .ok (.madw wC wT) := rfl
theorem test_decode_cmp : decodeSlot 0x10ACABD029DEC6CFEB6E0001 = .ok (.cmp wC wP) := rfl
theorem test_decode_shri : decodeSlot 0x1EACABD029DE4EF989ABCDEF = .ok (.shri wC wI) := rfl
theorem test_decode_bfi : decodeSlot 0x2BACABD029DEA91D47B6A5A3 = .ok (.bfi wC wT) := rfl
theorem test_decode_lxFlip : decodeSlot 0x33ACABD029DEA91D47B6A5A3 = .ok (.lxFlip wC wT) := rfl
theorem test_decode_hdot2 : decodeSlot 0x4EACABD029DEA91D47B6A5A3 = .ok (.hdot2 wC wT) := rfl
theorem test_decode_dcmp : decodeSlot 0x5EACABD029DEC6CFEB6E0001 = .ok (.dcmp wC wP) := rfl
theorem test_decode_cvtF8 : decodeSlot 0x62ACABD029DEA91D47B6A5A3 = .ok (.cvtF8 wC wT) := rfl
theorem test_decode_sregRd : decodeSlot 0x67ACABD029DE666B0D123456 = .ok (.sregRd wC wS) := rfl
theorem test_decode_braZ : decodeSlot 0x76ACABD029DEB6A1FFFFFFFA = .ok (.braZ wC wB) := rfl
theorem test_decode_launch : decodeSlot 0x7DACABD029DE4B0FA1AEBA55 = .ok (.launch wC wE) := rfl
theorem test_decode_barSync : decodeSlot 0x81ACABD029DE666B0D123456 = .ok (.barSync wC wS) := rfl
theorem test_decode_stBm : decodeSlot 0x98ACABD029DEC6E52BA38001 = .ok (.stBm wC wM) := rfl
theorem test_decode_atomCas : decodeSlot 0xA7ACABD029DEC6E52BA38001 = .ok (.atomCas wC wM) := rfl
theorem test_decode_wait : decodeSlot 0xAEACABD029DEC6E52BA38001 = .ok (.wait wC wM) := rfl
theorem test_decode_promKeep : decodeSlot 0xB4ACABD029DEC6E52BA38001 = .ok (.promKeep wC wM) := rfl
theorem test_decode_heirSet : decodeSlot 0xBAACABD029DE666B0D123456 = .ok (.heirSet wC wS) := rfl
theorem test_decode_cpGath : decodeSlot 0xC3ACABD029DE4B0FA1AEBA55 = .ok (.cpGath wC wE) := rfl
theorem test_decode_dzSub : decodeSlot 0xCAACABD029DE4B0FA1AEBA55 = .ok (.dzSub wC wE) := rfl
theorem test_decode_mmaSk : decodeSlot 0xD1ACABD029DE4B0FA1AEBA55 = .ok (.mmaSk wC wE) := rfl
theorem test_decode_ringWr : decodeSlot 0xD4ACABD029DE4B0FA1AEBA55 = .ok (.ringWr wC wE) := rfl
theorem test_decode_nxAtom : decodeSlot 0xDCACABD029DE4B0FA1AEBA55 = .ok (.nxAtom wC wE) := rfl

/-- The opcodes that the map leaves out (R88). -/
theorem test_decode_reserved : decodeSlot 0xE0FF00000660000000000000 = .error (.reservedOpcode 0xE0) ∧ decodeSlot 0xEF0000000000000000000000 = .error (.reservedOpcode 0xEF) ∧
    decodeSlot 0xFFFFFFFFFFFFFFFFFFFFFFFF = .error (.reservedOpcode 0xFF) ∧ decodeBytes (List.replicate 11 0x8F) = .error (.truncated 11) :=
  ⟨rfl, rfl, rfl, rfl⟩

/-- The first byte of a slot holds bits 7:0 of its instruction (R71). -/
theorem test_decode_bytes : decodeBytes [0, 0, 0, 0, 0, 0, 0x60, 0x06, 0, 0, 0xFF, 0x8F] = .ok (.nop common fs) := rfl

/-- A slot of zeros is an `add` that no lane performs (R94). -/
theorem test_decode_zeros : decodeSlot 0 = .ok (.add ⟨0, 0, 0, 0, 0, 0, 0, 0⟩ ⟨0, 0, 0, 0, 0, 0, 0, 0, 0, 0, 0, 0⟩) := rfl

/-- Bytecodes (R289, R290): OP, D, A, B, IMM12 or IMM16. -/
theorem test_decode_bytecodes :
    decodeScript 0 = .ok .scriptEnd ∧ decodeScript 0x02A00007 = .ok (.scriptLdp 10 7) ∧ decodeScript 0x0405001F = .ok (.scriptStc 5 31) ∧
    decodeScript 0x05CBFFFE = .error (.notABytecode 0x05CBFFFE) ∧ decodeScript 0x06C0FFFE = .ok (.scriptLih 12 0xFFFE) ∧
    decodeScript 0x07590A43 = .ok (.scriptBfx 5 9 41 3) ∧ decodeScript 0x09123000 = .ok (.scriptSub 1 2 3) ∧ decodeScript 0x0C128001 = .ok (.scriptAddi 1 2 0x8001) ∧
    decodeScript 0x0E12003F = .ok (.scriptShr 1 2 63) ∧ decodeScript 0x10FED000 = .ok (.scriptSltu 15 14 13) ∧ decodeScript 0x12030FFF = .ok (.scriptBnz 3 0xFFF) ∧
    decodeScript 0x13000001 = .ok (.scriptBr 1) ∧ decodeScript 0x14704003 = .ok (.scriptLoop 7 64 3) ∧ decodeScript 0x16023000 = .ok (.scriptEvwait 2 3) ∧
    decodeScript 0x18045000 = .ok (.scriptPost 4 5) ∧ decodeScript 0x19600123 = .ok (.scriptGreq 6 0x123) ∧ decodeScript 0xFF000000 = .error (.notABytecode 0xFF000000) := by
  refine ⟨rfl, rfl, rfl, rfl, rfl, rfl, rfl, rfl, rfl, rfl, rfl, rfl, rfl, rfl, rfl, rfl, rfl⟩

/-- The table numbers a bytecode's bits from the least significant; its first word is the whole of it. -/
theorem test_decode_table_word : decodeTableWord 32 0x02A00007 = some (.scriptLdp 10 7) ∧ decodeTableWord 96 0x8FFF00000660000000000000 = some (.nop common fs) ∧
    decodeTableWord 32 0x1A000000 = none := ⟨rfl, rfl, rfl⟩
/-! ### Ill-formed terms: one for each check of a word (R79, R94, R356), with the subcode it raises, and for each of a step's arguments -/

def refuses (e : Instr × Nat) : Bool := !e.1.wf && (view e.1).any fun v => (staticCodes v).contains e.2

/-- RSV, register and offset fields of format B; a jump table without a named register (R153, R162). -/
theorem test_illformed_B : (∀ e ∈ [(.bra common { fb with rsv := 1 }, 3), (.bra common (fb 0x10), 3), (.call common (fb 0 1), 3), (.brx common (fb 0x10 0 1), 3),
    (.callx common (fb 0x10 1), 3), (.ret common (fb 0x10), 3), (.ret common (fb 0 0 1), 3), (.loop common (fb 0), 3), (.loop common (fb 0x10 1), 3), (.braZ common (fb 0x10 4), 3),
    (.braNz common (fb 0x10 8), 3), (.regroup common (fb 0 2), 3), (.regroup common (fb 0x10 1 1), 3), (.regroup common (fb 0x10 0), 3)], refuses e = true) ∧
    (∀ i ∈ [.bra common (fb 0 0 9), .brx common (fb 0x10), .ret common fb, .loop common (fb 0x10 0 9), .braZ common (fb 0x10 3 9)], Instr.wf i = true) := by
  decide +kernel

/-- Format S: reserved fields, selectors that name nothing, arrivals at b15, arrival counts out of range (R146 to R150, R167, R170). -/
theorem test_illformed_S : (∀ e ∈ [(.sregRd common (fs 13), 8), (.sregRd common (fs 1 0 0x10), 3), (.sregRd common (fs 5 1 0x10), 3), (.sregRd common { fs 1 with dst := 5 }, 4),
    (.sregWr common (fs 8 0 0x10), 8), (.sregWr common { fs 9 with dst := 0x10 }, 3), (.plop common (fs 1), 3), (.plop common (fs 0 0x100000), 3), (.pdead common (fs 0 256), 3),
    (.join common (fs 16), 3), (.join common (fs 1), 3), (.exit common (fs 0 1), 3), (.yield common (fs 1), 3), (.leadAdv common (fs 0 0 0x10), 3), (.rls common (fs 0 1), 3),
    (.nop common (fs 1), 3), (.exitWk common (fs 1), 3), (.exitWk common (fs 0 65536), 3), (.barArv common (fs 20), 8), (.barArv common (fs 15 1), 8), (.barArv common (fs 3 513), 3),
    (.barArv common (fs 16 4097), 3), (.barArv common (fs 3 65536), 3), (.barSync common (fs 3 65537 0x10), 3), (.barSync common (fs 3 1 0x10), 3), (.barSync common (fs 15 1), 8),
    (.barRd common (fs 20), 8), (.barRd common (fs 3 1), 3), (.setJoin common (fs 8), 3), (.setLeave common (fs 0 1), 3), (.setSync common (fs 8), 3), (.gate common (fs 1), 3),
    (.estQ common (fs 0 1), 3), (.leadAdv common (fs 0 0), 3), (.leadAdv common (fs 0 256), 3), (.leadWait common (fs 0 1), 3), (.twait common (fs 0 2 0x10), 3), (.trap common (fs 0 1), 3), (.sysc common (fs 0 1), 3),
    (.syscTry common (fs 0 8), 3), (.brk common (fs 0 1), 3), (.heirSet common (fs 7 0 0x10), 8), (.heirSet common (fs 8 0 0x10), 3), (.heirSet common (fs 0 3 0x10), 3),
    (.heirSet common (fs 0 4 0x10), 3), (.estRd common (fs 16), 3), (.heirClr common (fs 0 2), 3)], refuses e = true) ∧
    (∀ i ∈ [.sregRd common (fs 12), .sregWr common (fs 9 0 0x10), .barArv common (fs 19 4096), .barSync common (fs 15 65536 0x10), .leadAdv common (fs 0 255), .nop common fs],
      Instr.wf i = true) := by decide +kernel

/-- Format M: spaces, widths, orders, scopes, hints, SGN, pairs, uniform operands and unused fields (R207, R221 to R224, R235). -/
theorem test_illformed_M : (∀ e ∈ [(.ld common (fm 6 2), 8), (.ld common (fm 0 5), 8), (.ld common (fm 0 2 2), 8), (.ld common (fm 0 2 1 6), 8), (.ld common (fm 0 3 0 0 0 1), 3),
    (.ld common (fm 0 2 0 0 0 0 0x10 0x11), 3), (.ld common (fm 0 2 0 0 0 0 0x10 0 1), 4), (.st common (fm 0 2 1), 8), (.st common (fm 0 2 0 0 1), 8), (.st common (fm 0 2 0 0 0 1), 3),
    (.st common (fm 0 4 0 0 0 0 0x10 0x11), 3), (.ldK common (fm 3 2 0 0 0 0 0x30), 8), (.ldK common (fm 0 2 0 0 0 0 0x10), 9), (.ldK common (fm 0 2 0 0 0 0 0x30 0 0x10), 3),
    (.stK common (fm 0 2 0 0 0 0 0x10 0x30), 9), (.stK common (fm 0 2 0 0 0 0 0x30 0x10), 9), (.stCmp common (fm 5 2), 8), (.ldExp common (fm 3 2), 8), (.pf common (fm 1 0), 8),
    (.pf common (fm 0 1), 8), (.pf common (fm 0 0 1), 8), (.pf common (fm 0 0 0 1), 8), (.pf common (fm 0 0 0 0 1), 8), (.pf common (fm 0 0 0 0 0 1), 3),
    (.pfK common (fm 0 0 0 0 0 0 0x10 0x30), 9), (.stBm common (fm 0 2 0 0 0 0 0x10 0x10), 8), (.stBm common (fm 0 3 0 0 0 0 0x10 0x11), 3), (.ld_2 common (fm 0 4), 8),
    (.st_2 common (fm 0 2 0 0 0 0 0x10 0x13), 3), (.l1Inv common (fm 0 0 0 0 0 0 0x10), 3), (.l1Inv common (fm 0 0 0 0 0 0 0 0 0 1), 3), (.stNt common (fm 0 4), 8), (.ldNt common (fm 0 4), 8),
    (.stZ common (fm 3 0), 8), (.stZ common (fm 0 0 0 0 0 0 0x10 0x11), 3), (.xlatPf common (fm 1 0), 8), (.atomAdd common (fm 6 2), 8), (.atomAdd common (fm 0 2 0 6), 8),
    (.atomAdd common (fm 0 2 0 0 2), 8), (.atomAdd common (fm 0 2 0 0 0 1), 3), (.atomCas common (fm 0 4 0 0 0 0 0x10 0x12), 3), (.atomCas common (fm 0 2 0 0 0 0 0x10 0x11), 3),
    (.atomInc common (fm 0 1), 8), (.atomFadd common (fm 0 2 0 0 0 1), 8), (.red common (fm 0 2 0 0 0 0 0x10 0x11 6), 8), (.red common (fm 0 2 0 0 0 0 0x10 0x11 12), 8),
    (.fence common (fm 0 0 0), 8), (.fence common (fm 0 0 1 0 0 0 0x10), 3), (.wait common (fm 0 1), 8), (.wait common (fm 1 2), 8), (.wait common (fm 0 2 2), 8),
    (.wait common (fm 0 2 0 0 0 0 0x10 0x11), 3), (.wake common (fm 0 1), 8), (.wake common (fm 0 0 1), 8), (.lockAcq common (fm 0 3), 8), (.lockAcq common (fm 1 3 0 1), 8),
    (.lockAcq common (fm 0 2 0 1), 8), (.lockAcq common (fm 0 3 1 1), 8), (.lockRel common (fm 0 3 0 1 1), 3), (.lockRel common (fm 0 3 0 1 0 1), 3), (.promMake common (fm 0 3 0 1), 8),
    (.promWait common (fm 0 4 0 1 0 0 0x10 0x11), 3), (.claimGet common (fm 0 3 0 1), 8)], refuses e = true) ∧
    (∀ i ∈ [.ld common (fm 5 4 1 5 3), .st common (fm 0 4 2 5 3 0 0x10 0x12), .atomCas common (fm 4 4 3 5 0 0 0x10 0x14), .red common (fm 0 2 0 0 0 0 0x10 0x11 11),
      .fence common (fm 0 0 3 5 0 0 0), .wait common (fm 4 3 1 5 0 1 0x10 0x11), .lockAcq common (fm 0 3 0 5 3 1)], Instr.wf i = true) := by decide +kernel

/-- Format E: uniform and per-lane operands, MOD codes, TAG, ACQ, REL and SCOPE where none is admitted (R86, R165, R253, R261, R270, R331). -/
theorem test_illformed_E : (∀ e ∈ [(.launch common (fe 0x10 0x30 0x30), 9), (.launch common (fe 0x30 0x30 0x30 4), 3), (.launch common (fe 0x30 0x30 0x30 0 0 1), 3),
    (.launch common (fe 0x30 0x30 0x30 0 0 0 1 3), 8), (.launch common (fe 0x30 0x30 0x30 0 5), 3), (.cpTile common (fe 0x30 0x30 0x30 3), 8),
    (.cpTile common (fe 0x30 0x30 0x30 16), 3), (.cpTile common (fe 0x30 0x30 0x30 0 0 0 0 6), 8), (.cpTile common { fe 0x30 0x30 0x30 with dst := 0x10 }, 3), (.cpBulk common (fe 0x30 0x30 0x30 3), 8),
    (.cpBulk common (fe 0x30 0x30 0x30 12), 8), (.cpGath common (fe 0x30 0x30 0x30), 3), (.cpGath common (fe 0x30 0x30 0x10 4), 3), (.cpScat common (fe 0x30 0x30 0x30), 3),
    (.cpScat common (fe 0x30 0x30 0x10 12), 8), (.cpRes common (fe 0x30 0x30 0), 3), (.tagWait common (fe 0x30 0 0 0 1), 3), (.tagWait common (fe 0x10 0 0), 9), (.tagAny common (fe 0x30 0 0 1), 3),
    (.tagFfr common (fe 0x30 0 0 0 0 1), 3), (.tagSt common (fe 0x30 0 0), 3), (.tagSt common (fe 0 0 0 2), 3), (.dzSub common (fe 0x30 0 0), 8), (.dzSub common (fe 0x30 0 0 2 0 0 0 4), 3),
    (.dzRes common (fe 0x30 0 0 1 0 0 0 4), 3), (.cpOut common (fe 0x30 0x30 0x30 2), 3), (.tagClr common (fe 0x30 0 0 0 1), 3), (.cpFill common (fe 0x30 0x30 0x30 12), 8), (.dzSt common (fe 0x30 0x30 0), 3),
    (.mma common (fe 0x30 0x30 0 0x11), 7), (.mma common (fe 0x30 0x30 0 0x92), 3), (.mma common (fe 0x30 0x30 0 0x12 1), 3), (.mmaSk common (fe 0x30 0x30 0x10 0x12), 9), (.ringAdv common (fe 0x30 0 0), 3),
    (.ringRd common (fe 0x30 0x30 0 1), 3), (.ringWr common (fe 0x30 0 0x30), 3), (.ringClr common (fe 0 0 0 2), 3), (.ringSt common (fe 0 0 0 0 1), 3), (.epiPost common (fe 0x30 0x30 0), 3),
    (.chkRd common (fe 0x30 0x30 0), 3), (.nxPut common (fe 0x30 0x30 0x30), 8), (.nxPut common (fe 0x30 0x30 0x30 1 0 0 0 4), 3), (.nxSend common (fe 0x30 0x30 0x30 2 0 0 0 4), 3),
    (.nxAtom common (fe 0x30 0x30 0x30 9 0 0 0 4), 8), (.nxAtom common (fe 0x30 0x30 0x30 6 0 0 0 4), 3), (.nxAtom common (fe 0x30 0x30 0x10 7 0 0 0 4), 9), (.nxAtom common (fe 0x30 0x30 0 64 0 0 0 4), 3),
    (.nxRed common (fe 0x30 0x30 0x30 0 0 0 0 4), 3), (.nxCnt common (fe 0x30 0x30 0 15), 8), (.nxCnt common (fe 0x30 0x30 0 20), 8), (.nxCnt common (fe 0x30 0x30 0 128), 3), (.nxCc common (fe 0x30 0x30 0), 3)],
      refuses e = true) ∧
    (∀ i ∈ [.launch common (fe 0x30 0x30 0x30 3 5 0 1 4), .launch common (fe 0x30 0x30 0x30 0 0 0 0 4), .cpTile common (fe 0x30 0x30 0x30 14), .cpGath common (fe 0x30 0x30 0x10 2), .mma common (fe 0x30 0x30 0 0x74), .ringAdv common (fe 0 0 0),
      .nxAtom common (fe 0x30 0x30 0x30 7 63 1 1 5), .nxCnt common (fe 0x30 0x30 0 19)], Instr.wf i = true) := by decide +kernel

/-- Formats T, I, P: destinations, unused sources, last-use marks, types, rounding fields, MOD bits, conditions (R77 to R81, R100 to R117, R131 to R151). -/
theorem test_illformed_TIP : (∀ e ∈ [(.add common { ft 2 2 with dst := 0xF }, 4), (.n2p common { ft 1 11 with dst := 0x10 }, 3), (.lmask common { ft 0 10 with sa := 0x10 }, 3), (.neg common { ft 1 2 with sb := 0x11 }, 3),
    (.add common { ft 2 2 with sc := 0x12 }, 3), (.add common { ft 2 2 with lc := 1 }, 3), (.add common { ft 2 2 with sa := 0x30, la := 1 }, 6), (.add common { ft 2 2 with sb := 1, lb := 1 }, 6),
    (.ffma common { ft 3 14 with sc := 0, lc := 1 }, 6), (.add common (ft 2 8), 7), (.addc common (ft 2 2), 7), (.divstep common (ft 3 5), 7), (.fadd common (ft 2 15), 7), (.add common { ft 2 2 with rnd := 1 }, 3),
    (.add common { ft 2 2 with ftz := 1 }, 3), (.and common { ft 2 11 with sat := 1 }, 3), (.fadd common { ft 2 14 with sat := 1 }, 3), (.add common (ft 2 2 1), 3), (.addc common (ft 2 6 1), 3), (.selp common (ft 2 11 16), 3),
    (.tbl3 common (ft 3 11 256), 3), (.lxAt common (ft 2 10 6), 3), (.lxRot common (ft 2 10 8), 3), (.ballot common (ft 0 11), 7), (.ballot common (ft 1 11 (2048 + 1)), 3), (.pollAll common (ft 0 10 256), 3),
    (.rdxLop common (ft 1 10 3), 8), (.scanAdd common (ft 1 2 1), 3), (.scanLop common (ft 1 10 3), 8), (.matchV common (ft 1 10 2), 3), (.cvt common (ft 1 2 16), 7), (.cvt common (ft 1 2 32), 3), (.cvtPk common (ft 2 21 2), 3),
    (.cvtF8 common (ft 3 16 4), 3), (.lmask common (ft 0 10 6), 3), (.shli common (fi 64), 3), (.shli common (fi 1 4), 3), (.movhi common (fi 1 1), 3), (.addi common (fi 1 2), 3), (.movi common (fi 1 0 0x10), 3),
    (.cmp common { fp 2 0 with rsv := 1 }, 3), (.cmp common (fp 2 0 3), 8), (.cmp common { fp 2 0 with ftz := 1 }, 3), (.cmp common (fp 2 7), 8), (.cmp common (fp 8 2), 7), (.fcmp common (fp 14 12), 8), (.fcmp common (fp 15 0), 7),
    (.dcmp common (fp 14 0), 7)], refuses e = true) ∧
    (∀ i ∈ [.add common { ft 2 2 with la := 1, dst := 0x2F }, .addc common (ft 2 6 0xFF0), .cvt common { ft 1 14 15 with rnd := 3, ftz := 1, sat := 1 }, .cvtF8 common (ft 1 16 7), .cmp common (fp 11 6), .fcmp common (fp 13 11)],
      Instr.wf i = true) := by decide +kernel

/-- Steps of agents that do not exist, and the operands of bytecodes that R291 refuses. -/
theorem test_illformed_arguments : (∀ i ∈ [.scriptLdp 0 8, .scriptLdc 0 32, .scriptStc 0 32, .scriptBz 0 0, .scriptBnz 0 0, .scriptBr 0, .scriptLoop 0 0 1, .scriptLoop 0 65 1, .scriptLoop 0 1 0, .lineFetch 512 0 0 .none,
    .streamAged 0 48 0, .sweepIssue 0 0 8, .issueChoice 0 4, .twaitExpiry 0 0 32, .syscReply 512 0, .groupRetirement 0 48, .matrixQueueExecute 512 .none, .culletJobStart 8], Instr.wf i = false) ∧
    (∀ i ∈ [.teamRangeGrant 4096 0, .teamPlacement 0 8, .launchCompletion 4096, .kick 2 0 (.write 8 0), .launchPacket 4096, .hostMemrd 2 ⟨0, false⟩, .hostAtomicop 0 0 .swap 5 0 0, .fenceDie 8, .answerFault 0 3, .tenantDestruction 65536],
      Instr.wf i = false) := by decide +kernel
/-! ### Witnesses: the hypotheses of every statement can be met -/

/-! ### Witnesses: rows 0x0 to 0x2 -/

theorem witness_IntegerArithmeticResults : ∀ i ∈ [.add common (ft 2 4), .sub common (ft 2 0), .mul common (ft 2 5),
    .mulhi common (ft 2 6), .mad common (ft 3 7), .madhi common (ft 3 1), .neg common (ft 1 0), .abs common (ft 1 2),
    .min common (ft 2 3), .max common (ft 2 4), .sad common (ft 3 6)], Meets busy i (Sound busy) := all_meet (by decide +kernel)

theorem witness_WideCarryResults : ∀ i ∈ [.mulw common (ft 2 6), .mulw common (ft 2 1), .madw common (ft 3 6), .madw common (ft 3 5),
    .addc common (ft 2 4 0x980), .addc common (ft 2 6), .subb common (ft 2 5 0x990), .subb common (ft 2 7)],
    Meets busy i (Sound busy) := all_meet (by decide +kernel)

theorem witness_DivisionResults : (∀ i ∈ [.divstep common (ft 3 6), .divstep common (ft 3 7)], Meets busy i (Sound busy)) ∧
    (0 < 8 ∧ 255 < 2 ^ 8 ∧ 0 < 2 ^ 8) ∧ 0 < 1 ∧ 1 < 2 ^ 1 := ⟨all_meet (by decide +kernel), by decide, by decide⟩

theorem witness_CompareSelectShiftResults : ∀ i ∈ [.cmp common (fp 0 0), .cmp common (fp 1 1), .cmp common (fp 2 2), .cmp common (fp 3 3),
    .cmp common (fp 4 4), .cmp common (fp 5 5), .cmp common (fp 11 6 2), .fcmp common (fp 14 0 1), .dcmp common (fp 15 11),
    .sel common (ft 3 8), .selp common (ft 2 9 0xF), .shl common (ft 2 10), .shr common (ft 2 11), .sar common (ft 2 0), .rotl common (ft 2 8),
    .rotr common (ft 2 9), .fshl common (ft 3 10), .fshr common (ft 3 11), .sext common (ft 2 8), .zext common (ft 2 11),
    .clamp common (ft 3 4)], Meets busy i (Sound busy) := all_meet (by decide +kernel)

theorem witness_LogicFieldResults : ∀ i ∈ [.and common (ft 2 8), .or common (ft 2 9), .xor common (ft 2 10), .not common (ft 1 11),
    .andn common (ft 2 8), .tbl3 common (ft 3 11 0xE8), .popc common (ft 1 9), .clz common (ft 1 10), .ctz common (ft 1 11),
    .brev common (ft 1 8), .bfe common (ft 3 0), .bfe common (ft 3 11), .bfi common (ft 3 9), .bpick common (ft 3 10), .bpick common (ft 3 11),
    .shli common (fi 63 3), .shri common (fi 0 1), .sari common (fi 32 1), .andi common (fi 0x80000000 1), .ori common (fi 1),
    .xori common (fi 1), .movhi common (fi 1), .addi common (fi 1), .muli common (fi 1), .movi common (fi 1 0 0), .fmovi common (fi 1 1 0)],
    Meets busy i (Sound busy) := all_meet (by decide +kernel)
/-! ### Witnesses: rows 0x3 to 0x6 -/

/-- Rows 0x3 to 0x6: O6 to O11. -/
theorem witness_LaneExchangeResults : ∀ i ∈ [.lxAt common (ft 2 10), .lxRot common (ft 2 11 5), .lxSh common (ft 3 10 1),
    .lxFlip common (ft 2 11 2), .ballot common (ft 0 10 1), .ballot common (ft 1 8 0x800), .pollAll common (ft 0 10 0x80),
    .pollAny common (ft 1 11 0x890), .pollSame common (ft 1 9 0x800)], Meets busy i (Sound busy) := all_meet (by decide +kernel)

theorem witness_ReductionMatchResults : ∀ i ∈ [.rdxAdd common (ft 1 0), .rdxMin common (ft 1 7), .rdxMax common (ft 1 4),
    .rdxLop common (ft 1 8 2), .scanAdd common (ft 1 6 4), .scanLop common (ft 1 11 4), .matchV common (ft 1 9 1), .rdxFadd common (ft 1 14),
    .rdxFadd common (ft 1 15)], Meets busy i (Sound busy) := all_meet (by decide +kernel)

theorem witness_FloatResults : ∀ i ∈ [.fadd common (ft 2 14), .fsub common (ft 2 14), .fmul common (ft 2 14), .ffma common (ft 3 14),
    .fmin common (ft 2 14), .fmax common (ft 2 14), .fabs common (ft 1 14), .fneg common (ft 1 14), .fscale common (ft 2 14),
    .fscale common (ft 2 15), .dadd common (ft 2 15), .dsub common (ft 2 15), .dmul common (ft 2 15), .dfma common (ft 3 15),
    .dmin common (ft 2 15), .dmax common (ft 2 15), .hadd2 common (ft 2 21), .hsub2 common (ft 2 22), .hmul2 common (ft 2 21),
    .hfma2 common (ft 3 22), .hmin2 common (ft 2 21), .hmax2 common (ft 2 22), .hdot2 common (ft 3 21), .fclass common (ft 1 12),
    .fclass common (ft 1 17)], Meets busy i (Sound busy) := all_meet (by decide +kernel)

theorem witness_SpecialConversionResults : ∀ i ∈ [.rcp common (ft 1 15), .rsqrt common (ft 1 14), .exp2 common (ft 1 14),
    .log2 common (ft 1 14), .sin common (ft 1 14), .cos common (ft 1 14), .sqrt common (ft 1 15), .cvt common (ft 1 14 0),
    .cvt common (ft 1 0 15), .cvtPk common (ft 2 21), .cvtPk common (ft 1 22 1), .cvtF8 common (ft 3 16 2), .cvtF8 common (ft 1 17 7)],
    Meets busy i fun x => Sound busy x ∧ lanesOf x.mask ≠ [] := all_meet (by decide +kernel)

/-- R138: a power of two for each of `rcp`, `rsqrt` and `log2`, at the ends of the exact reciprocals of binary32. -/
theorem witness_SpecialInputResults : (∀ e ∈ [(149, -22), (1, -128)], fmtF32.qmin ≤ -((e.1 : Int) + e.2) ∧ -((e.1 : Int) + e.2) ≤ fmtF32.emax) ∧
    ((2 : Nat) + (-4 : Int)) % 2 = 0 ∧ 0 < 1 := by decide

theorem witness_MovePredicateResults : ∀ i ∈ [.mov common (ft 1 11), .plop common (fs 0 0xBA), .p2n common (ft 0 11),
    .n2p common { ft 1 11 with mod := 0xFF }, .lmask common (ft 0 10 5), .pdead common (fs 0 0xFF)], Meets busy i (Sound busy) :=
  all_meet (by decide +kernel)

theorem witness_SpecialRegisterAccess : ∀ i ∈ [.sregRd common (fs 0), .sregRd common (fs 5 0 0x10), .sregRd common (fs 7),
    .sregRd common (fs 12), .sregWr common (fs 9 0 0x10)],
    Meets busy i fun x => Sound busy x ∧ ∀ l ∈ x.on, (busy.opnd x.g l 0x10).psn = false := all_meet (by decide +kernel)

/-! ### Witnesses: memory -/

/-- The leaf of the first GiB has key slot 5. -/
def keyed : State := loaded.setPhysWord 0x11000 (word (leafWord 0 0 + 5 * 2 ^ 56))

theorem witness_MemoryOperations : (match loaded.xlate 0 0x12345 .write with
      | .ok _ pa k _ => pa == 0x12345 && k == 0
      | _ => false) = true ∧ ((loaded.leafFor 0x10000 0x12345).any fun l => (loaded.mem.view.get? (0x12345 / 4096)).getD 0 == l.key) = true ∧
    ((keyed.leafFor 0x10000 0x12345).any fun l => (keyed.mem.view.get? (0x12345 / 4096)).getD 0 != l.key) = true ∧
    (0 : Nat) ≠ 3 ∧ loaded.mem.bytes.wf = true := by decide +kernel

theorem witness_LoadStoreResults :
    (∀ e ∈ [(fm 0 0 0 0 0 1, 1), (fm 1 3 1 5, 8), (fm 0 4, 16)], Meets loaded (.ld common e.1) (Performable loaded e.1 .read e.2 e.2)) ∧
    (∀ e ∈ [(fm 0 2, 8), (fm 1 3, 16)], Meets loaded (.ld_2 common e.1) (Performable loaded e.1 .read e.2 e.2)) ∧
    (∀ e ∈ [(fm 0 0 0 0 0 0 0x10 0x11, 1), (fm 1 3 2 5 0 0 0x10 0x11, 8), (fm 0 4 0 0 0 0 0x10 0x12, 16)],
      Meets loaded (.st common e.1) (Performable loaded e.1 .write e.2 e.2)) ∧
    (∀ e ∈ [(fm 0 2 0 0 0 0 0x10 0x10, 8), (fm 1 3 0 0 0 0 0x10 0x12, 16)],
      Meets loaded (.st_2 common e.1) (Performable loaded e.1 .write e.2 e.2)) ∧
    (∀ e ∈ [(fm 0 3 0 0 0 0 0x10 0x10, 8), (fm 1 3 0 0 0 0 0x10 0x10, 8)],
      Meets loaded (.stBm common e.1) fun x => Performable loaded e.1 .write e.2 e.2 x ∧
        ∀ l ∈ x.on, (loaded.opnd x.g l (e.1.sd + BitVec.ofNat 6 1)).val.toNat % 256 ≠ 0) ∧
    (∀ e ∈ [fm 0 3 0 0 0 0 0x10 0x16],
      Meets loaded (.stBm common e) fun x => Performable loaded e .write 0 1 x ∧
        ∀ l ∈ x.on, (loaded.opnd x.g l (e.sd + BitVec.ofNat 6 1)).val.toNat % 256 = 0) ∧
    (∀ e ∈ [(fm 0 0 0 0 0 0 0x10, 64), (fm 1 0 0 0 0 0 0x10, 64)], Meets loaded (.stZ common e.1) (Performable loaded e.1 .write e.2 e.2)) := by
  refine ⟨?_, ?_, ?_, ?_, ?_, ?_, ?_⟩
  all_goals first | exact meets (by decide +kernel) | exact fun e he => meets (by revert e he; decide +kernel)

theorem witness_AtomicResults : ∀ e ∈ [(.atomAdd common (fm 0 0), fm 0 0, 1), (.atomMin common (fm 1 1 0 0 0 1), fm 1 1 0 0 0 1, 2),
    (.atomMax common (fm 0 2), fm 0 2, 4), (.atomAnd common (fm 1 3), fm 1 3, 8), (.atomOr common (fm 1 3), fm 1 3, 8),
    (.atomXor common (fm 0 3), fm 0 3, 8), (.atomXchg common (fm 1 0), fm 1 0, 1), (.atomInc common (fm 1 3), fm 1 3, 8),
    (.atomFadd common (fm 1 1), fm 1 1, 2), (.atomFmin common (fm 1 2), fm 1 2, 4), (.atomFmax common (fm 0 3), fm 0 3, 8),
    (.red common (fm 1 3 3 5 0 0 0x10 0x11 0), fm 1 3 3 5 0 0 0x10 0x11 0, 8), (.red common (fm 0 3 0 0 0 0 0x10 0x11 11), fm 0 3 0 0 0 0 0x10 0x11 11, 8),
    (.atomCas common (fm 0 3 0 0 0 0 0x10 0x12), fm 0 3 0 0 0 0 0x10 0x12, 8), (.atomCas common (fm 1 4 0 0 0 0 0x10 0x14), fm 1 4 0 0 0 0 0x10 0x14, 16)],
    Meets loaded e.1 (Performable loaded e.2.1 .rmw e.2.2 e.2.2) := fun e he => meets (by revert e he; decide +kernel)

theorem witness_AtomicNewValues : (0 < 1 ∧ 1 < 2 ^ 1 ∧ 0 < 2 ^ 1) ∧ 0 < 64 ∧ 0 < 2 ^ 64 ∧ 2 ^ 64 - 1 < 2 ^ 64 := by decide

/-- What the check of one access gives. -/
def passesB (s : State) (x : Ctx) (f : FmtM) (l n : Nat) (acc : Acc) : Bool :=
  match s.access x f.space.toNat l (s.ea x f l) n n acc with
  | .ok _ ps => ps.all fun q => kindOf [q] != 3 && kindOf [q] != 4
  | _ => false

theorem witness_UniformNonFaultingResults :
    (∀ e ∈ [(.ldK common (fm 0 3 0 0 0 0 0x30 0 0x30), fm 0 3 0 0 0 0 0x30 0 0x30, Acc.read), (.ldK common (fm 1 0 0 0 0 1 0x30), fm 1 0 0 0 0 1 0x30, .read),
        (.stK common (fm 0 3 0 0 0 0 0x30 0x31), fm 0 3 0 0 0 0 0x30 0x31, .write)],
      Meets loaded e.1 fun x => x.on = [0, 1] ∧ (loaded.opnd x.g 0 e.2.1.sa).psn = false ∧ x.ln.paired = false ∧
        (loaded.storeData x e.2.1 0).any (·.2) = false ∧ passesB loaded x e.2.1 0 (2 ^ e.2.1.width.toNat) e.2.2 = true) ∧
    -- verdicts: all pass, a page fault, a misaligned address, an address beyond the scratchpad
    ∀ e ∈ [(.ldNt common (fm 0 3), fm 0 3, Acc.read), (.ldNt common (fm 0 0 0 0 0 0 0x13), fm 0 0 0 0 0 0 0x13, .read),
        (.ldNt common (fm 0 3 0 0 0 0 0x11), fm 0 3 0 0 0 0 0x11, .read), (.stNt common (fm 1 3), fm 1 3, .write),
        (.stNt common (fm 1 0 0 0 0 0 0x14), fm 1 0 0 0 0 0 0x14, .write)],
      Meets loaded e.1 fun x => x.actors x.on ≠ [] ∧ (∀ l ∈ x.on, (loaded.opnd x.g l e.2.1.sa).psn = false) ∧ x.ln.paired = false ∧
        (match State.checkAll x e.2.1.space.toNat e.2.2
            ((x.actors x.on).map fun l => (l, loaded.ea x e.2.1 l, 2 ^ e.2.1.width.toNat, 2 ^ e.2.1.width.toNat)) loaded [] with
          | .done _ cs => storesPoison (fun l => (loaded.storeData x e.2.1 l).any (·.2)) cs == none
          | _ => false) = true :=
  ⟨fun e he => meets (by revert e he; decide +kernel), fun e he => meets (by revert e he; decide +kernel)⟩

/-- The group has a resume point of `st.cmp` from rank 1 on. -/
def resumed : State := loaded.modGroup 0 fun g => { g with resume := some ⟨3, 0x200, 1, 0x1000⟩ }

theorem witness_CompressExpandResults_resumed : ∀ f ∈ [fm 0 3 0 0 0 0 0x10 0x11, fm 1 3 2 5 0 0 0x10 0x11],
    Meets resumed (.stCmp common f) fun x => x.actors x.on = [0, 1] ∧ (resumed.opnd x.g 0 f.sa).psn = false ∧ x.ln.paired = false ∧
      x.g.resume.any (fun p => p.pc == x.pc && p.mask &&& x.mask != 0 && p.base.toNat % 2 ^ f.width.toNat == 0) = true ∧
      (match (State.cmpElems x f 0x200 [(1, 1)] (resumed.modGroup x.key fun g => { g with resume := none })).2.2 with
        | .none => true
        | _ => false) = true ∧
      (match resumed.access x 0 1 0x80000000 8 8 .write with
        | .pageFault _ _ _ => true
        | _ => false) = true :=
  fun e he => meets (by revert e he; decide +kernel)

/-- The leaf of the first GiB under a splinter, or one of the trusted base. -/
def leaved (e : Nat) : State :=
  let s := loaded.setPhysWord 0x11000 (word e)
  { s with mem := { s.mem with spl := if bit (word e) 55 then [(0x11000, ⟨word (leafWord 0 0), 30, 0, 0, false, none⟩)] else [] } }

/-- PASID 5 is bound to the launch's queue, and the host has answered that its page 1 is not present. -/
def untranslated : State :=
  let s := loaded.modTenant 0 fun t => { t with pasids := [(0, 5)] }
  { s with mem := { s.mem with atsReqs := [⟨0, 5, 1, some .notPresent⟩] } }

theorem witness_TranslationReports :
    Meets loaded (.xlatPf common (fm 0 0)) (fun x => x.ln.tenant = 0) ∧ loaded.tenant? 0 = some aTenant ∧
    loaded.walk 0x10000 0x80000000 = none ∧ (loaded.walk 0x10000 0x1000).any (fun l => !bit l.e 55 && decide (l.pa 0x1000 < trustedBase)) = true ∧
    ((leaved (leafWord 0 0 + 2 ^ 55)).walk 0x10000 0x1000).any (fun l => bit l.e 55) = true ∧
    ((leaved (leafWord 0x30000000 0)).walk 0x10000 0x1000).any (fun l => !bit l.e 55 && decide (trustedBase ≤ l.pa 0x1000)) = true ∧
    (untranslated.tenant? 0).any (fun t => t.pasids == [(0, 5)]) = true ∧
    Meets untranslated (.xlatPf common (fm 4 0)) fun x => untranslated.pasidOf x.ln = some 5 ∧
      (match untranslated.ats (dieOf x.core) 5 (0x1000 / 4096) with
        | .notPresent => true
        | _ => false) = true :=
  ⟨meets (by decide +kernel), by decide +kernel, by decide +kernel, by decide +kernel, by decide +kernel, by decide +kernel, by decide +kernel,
    meets (by decide +kernel)⟩

theorem witness_CompressExpandResults :
    (∀ f ∈ [fm 0 3 0 0 0 0 0x10 0x11, fm 1 3 2 5 0 0 0x10 0x11], Meets loaded (.stCmp common f) fun x => x.actors x.on = [0, 1] ∧
      (loaded.opnd x.g 0 f.sa).psn = false ∧ (loaded.ea x f 0).toNat % 2 ^ f.width.toNat = 0 ∧ x.g.resume = none ∧ x.ln.paired = false ∧
      (match (State.cmpElems x f (loaded.ea x f 0) [(0, 0), (1, 1)] loaded).2.2 with
        | .none => true
        | _ => false) = true ∧ passesB loaded x f 0 (2 ^ f.width.toNat) .write = true ∧ (loaded.storeData x f 0).any (·.2) = false) ∧
    ∀ f ∈ [fm 0 3, fm 1 0 0 0 0 1], Meets loaded (.ldExp common f) fun x => x.actors x.on = [0, 1] ∧ (loaded.opnd x.g 0 f.sa).psn = false ∧
      (loaded.ea x f 0).toNat % 2 ^ f.width.toNat = 0 ∧ x.ln.paired = false ∧
      accessB loaded x f.space.toNat .read ((withIdx (x.actors x.on)).map fun e =>
        (e.2, loaded.ea x f 0 + word (e.1 * 2 ^ f.width.toNat), 2 ^ f.width.toNat, 2 ^ f.width.toNat)) [4] (fun _ _ => true) = true :=
  ⟨fun e he => meets (by revert e he; decide +kernel), fun e he => meets (by revert e he; decide +kernel)⟩

theorem witness_PrefetchFenceResults :
    ∀ e ∈ [(.pf common (fm 0 0), fm 0 0), (.pf common (fm 0 0 0 0 3), fm 0 0 0 0 3), (.pfK common (fm 0 0 0 0 3 0 0x30 0x31), fm 0 0 0 0 3 0 0x30 0x31),
        (.pfK common (fm 0 0 0 0 2 0 0x30 0x31), fm 0 0 0 0 2 0 0x30 0x31), (.l1Inv common (fm 0 0 0 0 0 0 0), fm 0 0 0 0 0 0 0),
        (.fence common (fm 0 0 1 0 0 0 0), fm 0 0 1 0 0 0 0), (.fence common (fm 0 0 3 5 0 0 0), fm 0 0 3 5 0 0 0),
        (.xlatPf common (fm 0 0), fm 0 0), (.xlatPf common (fm 4 0), fm 4 0)],
      Meets loaded e.1 fun x => lanesOf x.mask ≠ [] ∧ x.ln.paired = false ∧ (∀ l, l < 32 → (loaded.opnd x.g l e.2.sa).psn = false) ∧
        ∀ l ∈ x.on, let r := loaded.xlatOf x e.2.space.toNat (loaded.ea x e.2 l).toNat
          r.2 ≠ none ∧ r.1 = loaded :=
  fun e he => meets (by revert e he; decide +kernel)

/-! ### Witnesses: waits and holdings -/

def fullSlice (s : State) : State :=
  { s with mem := { s.mem with waiters := List.replicate 16384 ⟨0x100, 0, 5, 0, false, 0xAE, 0, 0, false, none⟩ } }

theorem fullSlice_full (s : State) : (fullSlice s).sliceFull 0x100 = true := by
  unfold State.sliceFull fullSlice
  dsimp only
  rw [List.filter_replicate_of_pos (by decide), List.length_replicate]
  decide

theorem witness_WaitWakeResults :
    (∀ f ∈ [fm 0 2, fm 0 3 0 0 0 1 0x10 0x11, fm 0 3 1 5 0 1 0x10 0x15], Meets loaded (.wait common f) (Performable loaded f .rmw (2 ^ f.width.toNat) (2 ^ f.width.toNat))) ∧
    (∀ f ∈ [fm 0 0 0 0 0 0 0x10 0x11, fm 0 0 2 5 0 0 0x11 0x12], Meets loaded (.wake common f) (Performable loaded f .read 1 1)) ∧
    -- a compare that fails, one that holds, none; the slice full or not
    (let v := fun (s : State) (x : Ctx) => leNat (s.readPieces x 0 true [(.mem 0x100 0 none 4, 8)]).2.1
     Meets loaded (.wait common (fm 0 3 0 0 0 1 0x10 0x11)) fun x => v loaded x ≠ (loaded.opnd x.g 0 0x11).val.toNat % 2 ^ 64 ∧
       v loaded x = (loaded.opnd x.g 0 0x16).val.toNat % 2 ^ 64 ∧ loaded.sliceFull 0x100 = false) ∧
    (fullSlice loaded).sliceFull 0x100 = true :=
  ⟨fun e he => meets (by revert e he; decide +kernel), fun e he => meets (by revert e he; decide +kernel),
    meets (by decide +kernel), fullSlice_full _⟩

theorem witness_HoldingInstructionResults :
    (∀ e ∈ [(.lockAcq common (fm 0 3 0 1), fm 0 3 0 1), (.lockTry common (fm 0 3 0 5), fm 0 3 0 5), (.lockRel common (fm 0 3 0 5), fm 0 3 0 5),
        (.promMake common (fm 0 4 0 1), fm 0 4 0 1), (.promKeep common (fm 0 4 0 5 0 0 0x10 0x11), fm 0 4 0 5 0 0 0x10 0x11),
        (.promWait common (fm 0 4 0 2), fm 0 4 0 2), (.promTry common (fm 0 4 0 3), fm 0 4 0 3), (.claimGet common (fm 0 4 0 4 3 1), fm 0 4 0 4 3 1),
        (.claimTry common (fm 0 4 0 4), fm 0 4 0 4), (.claimPut common (fm 0 4 0 1), fm 0 4 0 1), (.promDrop common (fm 0 4 0 1), fm 0 4 0 1),
        (.claimPass common (fm 0 4 0 5 0 0 0x10 0x11), fm 0 4 0 5 0 0 0x10 0x11)],
      Meets loaded e.1 (Performable loaded e.2 .rmw (2 ^ e.2.width.toNat) (2 ^ e.2.width.toNat))) ∧
    (∀ e ∈ [(.heirSet common (fs 1 1 0x12), 1), (.heirSet common (fs 6 0 0x12), 6), (.heirClr common (fs 0 1), 0), (.estQ common (fs 0), 0),
        (.estRd common (fs 15), 7)],
      Meets loaded e.1 fun x => lanesOf x.mask ≠ [] ∧ x.ln.paired = false ∧ x.on = [0, 1] ∧ (∀ l ∈ x.on, (loaded.opnd x.g l 0x12).psn = false) ∧
        e.2 ≠ 5) ∧
    Meets loaded (.heirSet common (fs 5 2 0x10)) fun x => x.on = [0, 1] ∧ (∀ l ∈ x.on, (loaded.opnd x.g l 0x10).psn = false) ∧
      accessB loaded x 0 .rmw [(0, (loaded.opnd x.g 0 0x10).val, 4, 4)] [3, 4] (fun _ ps => ps.map (fun p => p.1) == [0]) = true :=
  ⟨fun e he => meets (by revert e he; decide +kernel), fun e he => meets (by revert e he; decide +kernel), meets (by decide +kernel)⟩

/-- The state with a control word at 0x100. -/
def celled (w : Word) : State := loaded.setPhysWord 0x100 w

theorem witness_HoldingCells :
    let id := loaded.identity 0
    let w0 := fun w => (celled w).physWord 0x100
    let eff := fun w => (celled w).effective ⟨0, 0x100, 0x100⟩ (w0 w) false
    let mine := fun w => (celled w).matchesHolder 0 (holderOf (eff w))
    let own := ctlWord 1 false id
    let kept := ctlWord 2 true id
    let other := ctlWord 1 false ⟨0, 0, 3, 9⟩
    malformedCtl (w0 1) false = true ∧ (malformedCtl (w0 own) false = false ∧ mine own = true ∧ stOf (eff own) = 1) ∧
    (malformedCtl (w0 0) false = false ∧ stOf (eff 0) = 0 ∧ (celled 0).estateFull 0 = false) ∧
    (malformedCtl (w0 kept) false = false ∧ stOf (eff kept) = 2 ∧ mine kept = true ∧ (celled kept).estateFull 0 = false) ∧
    ((celled 0).modEstate 0 fun e => { e with entries := List.replicate 16 ⟨false, 0, 0, 0, 8, 1, 0⟩ }).estateFull 0 = true ∧
    (malformedCtl (w0 other) false = false ∧ ¬ (stOf (eff other) = 0 ∨ (stOf (eff other) = 2 ∧ mine other = true)) ∧
      ¬ (mine other = true ∧ stOf (eff other) = 1) ∧ (celled other).sliceFull 0x100 = false) ∧
    (celled 0).mem.bytes.wf = true ∧ (celled 0).twins 0x100 8 = [] ∧ (celled 0).group? 0 ≠ none ∧ id.lslot < 4096 ∧ id.grp < 16 ∧ id.team < 2 ^ 31 := by decide +kernel

theorem witness_HoldingCells_full : (fullSlice (celled (ctlWord 1 false ⟨0, 0, 3, 9⟩))).sliceFull 0x100 = true := fullSlice_full _
/-! ### Witnesses: control flow -/

/-- Control flow: O22 to O24. -/
def goes (b : Branch) : Bool := match b with
  | .trap _ _ => false
  | _ => true

/-- The issue in progress with the lanes at a call depth, in a handler or not, with n5 as TRAPSLOT and link. -/
def deep (depth : Nat) (hnd : Bool) : State := loaded.modGroup 0 fun g => g.mapLanes fun _ e =>
  { e with depth := depth, hnd := hnd, trapSlot := 0x1001, link := List.replicate 8 0x1001 }

theorem witness_BranchResults :
    (∀ e ∈ [(.bra common (fb), fun s x l => State.goRel s x l (fb) 0), (.brx common (fb 0x15), fun s x l => State.go s x l 0x1001 true),
        (.brx common (fb 0x13), fun s x l => State.go s x l (s.opnd x.g l 0x13).val true),
        (.braZ common (fb 0x10 3), fun s x l => State.goRel s x l (fb 0x10 3) 0), (.braNz common (fb 0x11 0), fun s x l => State.goRel s x l (fb 0x11) 0),
        (.jtab common (fb 0x11 2), fun s x l => State.goRel s x l (fb 0x11 2) 1), (.jtab common (fb 0x12 2), fun _ _ _ => .next),
        (.loop common (fb 0x11), fun _ _ _ => .next), (.loop common (fb 0x12), fun s x l => State.goRel s x l (fb 0x12) 0)],
      ∀ s ∈ [loaded, deep 0 true], Meets s e.1 fun x => x.on = [0, 1] ∧ x.ln.paired = false ∧
        (∀ l ∈ x.on, ∀ c ∈ [0x10, 0x11, 0x12, 0x13, 0x15], (s.opnd x.g l c).psn = false) ∧ ∀ l ∈ x.on, goes (e.2 s x l) = true) ∧
    -- a return from the handler, a target of a known line, one whose line is not known, one that is no target
    Meets (deep 0 true) (.brx common (fb 0x15)) fun x => (x.g.lane 0).hnd = true ∧ (x.g.lane 0).trapSlot = 0x1001 ∧
      (loaded.target x.ln.tenant 0x1004) = (true, false) ∧ (loaded.target x.ln.tenant 0x80000000) = (true, true) ∧
      (loaded.target x.ln.tenant 0x1005).1 = false ∧ (loaded.target x.ln.tenant 0).1 = false :=
  ⟨fun e he s hs => meets (by revert s hs; revert e he; decide +kernel), meets (by decide +kernel)⟩

def word1 (bits : Nat) (s : State) : State := s.modLaunch 0 fun l => { l with words := updAt (fun w => w ||| word bits) 1 l.words }

theorem witness_CallExitResults :
    (∀ e ∈ [(.call common (fb), 0, 0x1000), (.call common (fb), 7, 0x1000), (.callx common (fb 0x15), 7, 0x1001), (.ret common (fb), 1, 0x1001),
        (.ret common (fb), 8, 0x1001)],
      Meets (deep e.2.1 false) e.1 fun x => x.on = [0, 1] ∧ x.ln.paired = false ∧ (∀ l ∈ x.on, (loaded.opnd x.g l 0x15).psn = false) ∧
        ∀ l ∈ x.on, (x.g.lane l).depth = e.2.1 ∧ (deep e.2.1 false).go x l e.2.2 true = .to ⟨e.2.2, false, false⟩) ∧
    (∀ i ∈ [.exit common (fs), .exitWk common (fs 0 5 0x10), .yield common (fs), .join common (fs), .join common (fs 15)],
      Meets loaded i fun x => x.on = [0, 1] ∧ x.ln.paired = false ∧ x.g.heirless x.onMask = false ∧
        (∀ l ∈ x.on, (loaded.opnd x.g l 0x10).psn = false) ∧
        accessB loaded x 0 .read ((x.actors x.on).map fun l => (l, (loaded.opnd x.g l 0x10).val, 1, 1)) [3, 4] (fun _ _ => true) = true) ∧
    Meets (loaded.modSet (indexKey 0 0) 7 fun m => { m with members := updAt (fun _ => 3) 0 m.members }) (.join common (fs 15)) (fun x =>
      x.on = [0, 1] ∧ ∀ l ∈ x.on,
        has (((loaded.modSet (indexKey 0 0) 7 fun m => { m with members := updAt (fun _ => 3) 0 m.members }).mset x.tk 7).members.getD x.g.gid 0) l = true) ∧
    let s := (loaded.modGroup 0 fun g => g.mapLanes fun l e => if l < 2 then e else { e with status := .exited }).modEstate 0 fun e =>
      { e with entries := [⟨false, 0, 0, 1, 8, 1, 0⟩] }
    ∀ i ∈ [.exit common (fs), .exitWk common (fs 0 5 0x10)], Meets s i fun x => x.on ≠ [] ∧ x.g.heirless x.onMask = true ∧
      (∀ l ∈ x.on, (s.opnd x.g l 0x10).psn = false) ∧ x.ln.paired = false :=
  ⟨fun e he => meets (by revert e he; decide +kernel), fun e he => meets (by revert e he; decide +kernel), meets (by decide +kernel),
    fun e he => meets (by revert e he; decide +kernel)⟩

/-- The lanes at a call depth, with a link region of 8 KiB at 0x20000. -/
def linked (depth : Nat) : State := (deep depth false).modLaunch 0 fun l => { l with
  words := updAt (fun _ => 0x20000) 3 (updAt (fun w => w ||| word (2 ^ 36)) 2 l.words) }

/-- The pairs 0 and 1 of a paired launch issue. -/
def pairedAt (depth : Nat) : State := { word1 (2 ^ 43) (linked depth) with cur := .stream 0 0 0x30003 0x1000 }

/-- Where the lane of an instruction of row 7 that calls or returns goes. -/
def calls (i : Instr) (s : State) (x : Ctx) (l : Nat) : Branch := match i with
  | .call _ f => s.goRel x l f 0
  | .callx _ f => s.go x l (s.opnd x.g l f.sa).val true
  | _ => s.go x l ((x.g.lane l).link.getD (((x.g.lane l).depth - 1) % 8) 0) true

/-- Calls and returns above, at and below the depths at which the link region is used; the depths at which they trap; and a paired launch. -/
theorem witness_CallReturnResults :
    (∀ e ∈ [(.call common fb, 0, Acc.write, none, 0x1000), (.call common fb, 7, .write, none, 0x1000), (.call common fb, 8, .write, some 0, 0x1000),
        (.callx common (fb 0x15), 7, .write, none, 0x1001), (.callx common (fb 0x15), 8, .write, some 0, 0x1001),
        (.callx common (fb 0x15), 1023, .write, some 1015, 0x1001), (.ret common fb, 1, .read, none, 0x1001), (.ret common fb, 8, .read, none, 0x1001),
        (.ret common fb, 9, .read, some 0, 0x1001), (.ret common fb, 1024, .read, some 1015, 0x1001)],
      Meets (linked e.2.1) e.1 fun x => x.on = [0, 1] ∧ x.ln.paired = false ∧
        (∀ l ∈ x.on, ((linked e.2.1).opnd x.g l 0x15).psn = false ∧ (x.g.lane l).depth = e.2.1 ∧
          calls e.1 (linked e.2.1) x l = .to ⟨e.2.2.2.2, false, false⟩) ∧
        accessB (linked e.2.1) x 3 e.2.2.1 ((x.actors x.on).map fun l => match e.2.2.2.1 with
          | some w => (l, word (8 * w), 8, 8)
          | none => (l, 0, 0, 8)) [] (fun _ _ => true) = true) ∧
    (∀ e ∈ [(.call common fb, 0x1000), (.callx common (fb 0x15), 0x1001)], Meets (linked 1024) e.1 fun x => x.on = [0, 1] ∧ x.ln.paired = false ∧
      ∀ l ∈ x.on, ((linked 1024).opnd x.g l 0x15).psn = false ∧ (x.g.lane l).depth = 1024 ∧ calls e.1 (linked 1024) x l = .to ⟨e.2, false, false⟩) ∧
    (Meets (linked 0) (.ret common fb) fun x => x.on = [0, 1] ∧ x.ln.paired = false ∧ ∀ l ∈ x.on, (x.g.lane l).depth = 0) ∧
    ∀ e ∈ [(.call common fb, 3, Acc.write, none), (.call common fb, 9, .write, some 1), (.ret common fb, 10, .read, some 1)],
      Meets (pairedAt e.2.1) e.1 fun x => x.on = [0, 1, 16, 17] ∧ x.ln.paired = true ∧ (∀ l, l < 16 → (l ∈ x.on ↔ l + 16 ∈ x.on)) ∧
        (∀ l ∈ x.on, goes (calls e.1 (pairedAt e.2.1) x l) = true) ∧
        x.branchesDiffer (x.on.map fun l => (l, calls e.1 (pairedAt e.2.1) x l)) (fun _ => []) = false ∧
        accessB (pairedAt e.2.1) x 3 e.2.2.1 ((x.actors x.on).map fun l => match e.2.2.2 with
          | some w => (l, word (8 * w), 8, 8)
          | none => (l, 0, 0, 8)) [] (fun _ _ => true) = true :=
  ⟨fun e he => meets (by revert e he; decide +kernel), fun e he => meets (by revert e he; decide +kernel), meets (by decide +kernel),
    fun e he => meets (by revert e he; decide +kernel)⟩

/-- A pool launch; queue 7 belongs to the device, has 16 slots at 0x9000, and its CI and PI. -/
def pooled : State := (loaded.modLaunch 0 fun l => { l with words := updAt (fun w => w ||| word (2 ^ 46)) 1 l.words }).modTeam (indexKey 0 0) fun t =>
  { t with pool := some ⟨List.replicate 16 Bin.empty, 0, 0, [], []⟩ }
def queued (pi : Nat) : State := (uniform [0x40, 7, 1] loaded).modQueue 7 fun q =>
  { q with en := true, devq := true, log2n := 4, base := 0x9000, tenant := 0, ci := 0, pi := pi }

theorem witness_RegroupLaunchResults :
    (∀ e ∈ [(fb, 0x1000), (fb 0x15 1, 0x1001)], Meets pooled (.regroup common e.1) fun x => x.ln.isPool = true ∧ x.ln.paired = false ∧ x.on = [0, 1] ∧
      (∀ l ∈ x.on, (pooled.opnd x.g l 0x15).psn = false) ∧ ∀ l ∈ x.on,
        (if e.1.mod.getLsbD 0 then pooled.go x l (pooled.opnd x.g l e.1.sa).val false else pooled.goRel x l e.1 0) = .to ⟨e.2, false, false⟩) ∧
    -- a queue that is not the tenant's
    (Meets (queued 0) (.launch common (fe 0x30 0x30 0x32)) fun x => ((queued 0).opnd x.g 0 0x30).val.toNat = 0x40 ∧
      ((queued 0).queue 0x40).devq = false) ∧
    ∀ e ∈ [(.launch common (fe 0x30 0x31 0x32), 0, false), (.launch common (fe 0x30 0x31 0x32 2 3 0 1 5), 15, false),
        (.launchPool common (fe 0x30 0x31 0x32 3 3), 16, true), (.launchPool common (fe 0x30 0x31 0x32), 16, true)],
      Meets (queued e.2.1) e.1 fun x => let s := queued e.2.1
        let q := s.queue 7
        (s.opnd x.g 0 0x31).val.toNat = 7 ∧ (s.opnd x.g 0 0x30).val.toNat % 64 = 0 ∧ x.ln.paired = false ∧ x.on ≠ [] ∧ q.devq = true ∧
        q.tenant = x.ln.tenant ∧ q.full = e.2.2 ∧ s.tagRoom x.core (x.ln.tagBase + 3) = true ∧
        (match ((List.range 32).foldl (fun s l => s.drainWcb x.key l) s).devWrite x.ln.tenant (q.base + 64 * (q.pi % 2 ^ q.log2n)) (List.replicate 64 1) with
          | .ok _ _ => true
          | _ => false) = true :=
  ⟨fun e he => meets (by revert e he; decide +kernel), meets (by decide +kernel), fun e he => meets (by revert e he; decide +kernel)⟩

/-! ### Witnesses: synchronisation and traps -/

/-- Phase 7 of barrier 3; set 2 has lanes 0 and 1; the launch waits for a launch that is not released. -/
def synced : State :=
  let s := (loaded.setBar (indexKey 0 0) 3 ⟨false, 2, 7, some 5⟩).modSet (indexKey 0 0) 2 fun m => { m with members := updAt (fun _ => 3) 0 m.members }
  named (fun _ => [6, 7, 3, 0x80000000]) s
def gated (released : Bool) : State :=
  ((word1 (2 ^ 47) loaded).modLaunch 0 fun l => { l with prev := some 4 }).setLaunch 1
    { plainLaunch with serial := 4, releasedTeams := if released then [0] else [], killed := true, opened := if released then some true else none }
def leading (lead : Nat) : State :=
  ((loaded.modLaunch 0 fun l => { l with words := updAt (fun w => w ||| word (2 ^ 60)) 2 l.words }).modTeam (indexKey 0 0) fun t =>
    { t with lead := lead }).setTeam (indexKey 0 1) { Team.fresh 0 1 1 plainLaunch with released := true }
def consenting : State := loaded.modTenant 0 fun t => { t with session := some ⟨7, 1000⟩ }

theorem witness_SynchronisationResults :
    (∀ e ∈ [(.barArv common (fs 3 5), true), (.barArv common (fs 16 4096), false), (.barSync common (fs 3 5), true), (.barSync common (fs 14 0), false)],
      Meets synced e.1 fun x => x.on ≠ [] ∧ ((synced.bar x.tk 3).opened = some 5) ∧ (synced.bar x.tk 16).opened = none ∧
        (synced.bar x.tk 14).opened = none) ∧
    (∀ e ∈ [(.barSync common (fs 3 65536 0x10), 0x10, true), (.barSync common (fs 3 65536 0x11), 0x11, false),
        (.barSync common (fs 3 65536 0x12), 0x12, true), (.barSync common (fs 15 65536 0x10), 0x12, true)],
      Meets synced e.1 fun x => x.on ≠ [] ∧ ∀ l ∈ x.on, (synced.bar x.tk 3).passed ((synced.opnd x.g l e.2.1).val.toNat % 2 ^ 32) = e.2.2) ∧
    (∀ i ∈ [.barRd common (fs 15), .setJoin common (fs 7), .setLeave common (fs 2), .setSync common (fs 2 0 0x3F), .setSync common (fs 2 0 0x12)],
      Meets synced i fun x => x.on ≠ [] ∧ (∀ l ∈ x.on, has ((synced.mset x.tk 2).members.getD x.g.gid 0) l = true ∧
        (synced.opnd x.g l 0x12).psn = false ∧
        (synced.opnd x.g l 0x12).val.toNat % 2 ^ 32 = ((synced.mset x.tk 2).members.getD x.g.gid 0).toNat) ∧
        (synced.mset x.tk 2).masks.get? x.g.gid = none) ∧
    (Meets (gated true) (.gate common (fs)) fun x => x.on ≠ [] ∧ (gated true).gate x.ln = some true) ∧
    (Meets (gated false) (.gate common (fs)) fun x => x.on ≠ [] ∧ (gated false).gate x.ln = none) ∧
    (Meets loaded (.gate common (fs)) fun x => x.on ≠ [] ∧ loaded.gate x.ln = some false) ∧
    (∀ i ∈ [.rls common (fs), .leadAdv common (fs 0 1), .leadAdv common (fs 0 255), .leadWait common (fs)],
      Meets (leading 0) i fun x => x.on ≠ [] ∧ (leading 0).leadOk x.tk = true) ∧
    (Meets (leading 1) (.leadWait common (fs)) fun x => x.on ≠ [] ∧ (leading 1).leadOk x.tk = false) ∧
    (∀ e ∈ [(fs 0 0 0x16, true), (fs 0 1 0x16, true), (fs 0 0 0x11, false), (fs 0 1 0x11, false)], Meets loaded (.twait common e.1) fun x =>
      x.on ≠ [] ∧ ∀ l ∈ x.on, (loaded.opnd x.g l e.1.sa).psn = false ∧ (decide ((if e.1.imm.getLsbD 0 then loaded.ns +
        (loaded.opnd x.g l e.1.sa).val.toNat else (loaded.opnd x.g l e.1.sa).val.toNat) ≤ loaded.ns)) = e.2) ∧
    (∀ i ∈ [.nop common (fs), .brk common (fs 4095)], Meets loaded i fun x => x.on ≠ [] ∧ loaded.mayStop x.ln.tenant x.t = false) ∧
    Meets consenting (.brk common (fs 1)) fun x => x.on ≠ [] ∧ consenting.mayStop x.ln.tenant x.t = true := by
  refine ⟨?_, ?_, ?_, ?_, ?_, ?_, ?_, ?_, ?_, ?_, ?_⟩
  all_goals first | exact meets (by decide +kernel) | exact fun e he => meets (by revert e he; decide +kernel)

/-- The tenant's ring of 16 slots at 0x8000, as full as told; the launch may make system calls. -/
def ringed (prod : Nat) : State := (word1 (2 ^ 45) loaded).modTenant 0 fun t => { t with prod := prod }

theorem witness_TrapSystemCallResults :
    (Meets loaded (.trap common (fs 4095 0 0x10)) fun x => x.on ≠ []) ∧
    ∀ e ∈ [(.sysc common (fs 1 0 0x12), 0, false), (.sysc common (fs 1 0 0x12), 15, false), (.sysc common (fs 1 0 0x12), 16, true),
        (.syscTry common (fs 4095 7 0x12), 15, false), (.syscTry common (fs 0 1 0x12), 16, true)],
      Meets (ringed e.2.1) e.1 fun x => let s := ringed e.2.1
        x.on = [0, 1] ∧ (s.opnd x.g 0 0x12).psn = false ∧ x.ln.paired = false ∧
        (match s.tenant? x.ln.tenant with
          | some t => (match s.devRead x.ln.tenant t.consAddr 8 with
            | .ok u (cons, _) => decide (2 ^ t.ringLog2 ≤ (t.prod + 2 ^ 17 - leNat cons % 2 ^ 17) % 2 ^ 17) == e.2.2 &&
              (match u.devWrite x.ln.tenant (t.ringBase + 64 * (t.prod % 2 ^ t.ringLog2)) (List.replicate 64 1) with
                | .ok _ _ => true
                | _ => false)
            | _ => false)
          | none => false) = true :=
  ⟨meets (by decide +kernel), fun e he => meets (by revert e he; decide +kernel)⟩

/-- A ring whose CONS word lies on an unmapped page, or in the trusted base. -/
def ringless (e : Nat) : State := ((ringed 0).setPhysWord 0x11010 (word e)).modTenant 0 fun t => { t with consAddr := 0x80000000 }

theorem witness_TrapSystemCallResults_rings :
    (∀ i ∈ [.sysc common (fs 1 0 0x12), .syscTry common (fs 0 1 0x12)], ∀ e ∈ [0, leafWord 0x30000000 0], Meets (ringless e) i fun x =>
      x.on = [0, 1] ∧ ((ringless e).opnd x.g 0 0x12).psn = false ∧ x.ln.paired = false ∧ x.ln.tenant = 0) ∧
    (match (ringless 0).devRead 0 0x80000000 8 with
      | .fault _ => true
      | _ => false) = true ∧
    (match (ringless (leafWord 0x30000000 0)).devRead 0 0x80000000 8 with
      | .prot => true
      | _ => false) = true :=
  ⟨fun i hi e he => meets (by revert e he; revert i hi; decide +kernel), by decide +kernel, by decide +kernel⟩

/-- The launch has a trap handler. -/
def handled (hnd : Bool) : State := (deep 0 hnd).modLaunch 0 fun l => { l with words := updAt (fun _ => 0x2000) 6 l.words }

theorem witness_TrapEntry : ∀ s ∈ [loaded, handled false, handled true], (s.group? 0).any (fun g => g.lanes.length == 32 &&
      (s.team? g.team).any fun t => (s.launch? t.launch).any fun l => (l.traph == 0) == decide (s = loaded)) = true := by decide +kernel

theorem witness_TrapEntry_lanes :
    let ts : List Trap := [⟨0, 1, 3, 0⟩, ⟨31, 1, 3, 0⟩]
    ts ≠ [] ∧ ts.Pairwise (fun a b => a.lane ≠ b.lane) ∧
      (∀ r ∈ ts, r.lane < 32 ∧ ((handled false).laneIn 0 r.lane).hnd = false ∧ ((handled true).laneIn 0 r.lane).hnd = true) := by decide +kernel

/-- A paired launch with a handler, of which the pairs 0 and 1 issue. -/
def pairedHandled : State := { word1 (2 ^ 43) (handled false) with cur := .stream 0 0 0x30003 0x1000 }

theorem witness_TrapEntry_pairs : (pairedHandled.launch? 0).any (fun l => l.paired && l.traph != 0) = true ∧
    trapsDiffer (pairedHandled.issuing? 0) [⟨1, 1, 3, 0⟩, ⟨17, 1, 3, 0⟩] = false ∧ trapsDiffer (pairedHandled.issuing? 0) [⟨1, 1, 3, 0⟩] = true ∧
    (∀ l, l < 32 → (pairedHandled.laneIn 0 l).hnd = false) := by decide +kernel

/-- Poisoned predicate, poisoned uniform operand. -/
def poisonedPred : State := loaded.modGroup 0 fun g => g.mapLanes fun _ e => { e with p := updAt (fun _ => ⟨true, true, true, none⟩) 1 e.p }
def poisonedUniform : State := loaded.modGroup 0 fun g => { g with k := updAt (fun _ => ⟨0, true, true, none⟩) 0 g.k }

theorem witness_IssueCheckOrder :
    ((loaded.ctx? (.add common (ft 2 20))).any fun x => loaded.wordFault x == some 7) = true ∧
    ((poisonedPred.ctx? (.nop { common with ga := 1 } (fs))).any fun x => poisonedPred.wordFault x == none &&
      (lanesOf x.mask).any fun l => poisonedPred.guardPsn x.g x.v.c l) = true ∧
    ((poisonedUniform.ctx? (.tagClr common (fe 0x30 0 0))).any fun x => poisonedUniform.wordFault x == none &&
      (lanesOf x.mask).all (fun l => !poisonedUniform.guardPsn x.g x.v.c l) && poisonedUniform.uniformPsn x) = true ∧
    ((loaded.ctx? (.ringAdv common (fe 0 0 0))).any fun x => loaded.wordFault x == none && !loaded.uniformPsn x &&
      collective x.opc && x.mask != BitVec.allOnes 32) = true ∧
    (Meets loaded (.fadd common (ft 2 14)) fun x => shadowed x.v = false ∨ loaded.upset = .none) ∧
    ∀ i ∈ [.add common (ft 2 20), .nop { common with ga := 1 } (fs), .tagClr common (fe 0x30 0 0), .ringAdv common (fe 0 0 0)], (view i).isSome = true :=
  ⟨by decide +kernel, by decide +kernel, by decide +kernel, by decide +kernel, meets (by decide +kernel), by decide +kernel⟩

/-! ### Witnesses: commands. All 32 lanes issue, with k0, k1, … as given. -/

def whole : State := { loaded with cur := .stream 0 0 (BitVec.allOnes 32) 0x1000 }
def whole' (ks : List Word) : State := uniform ks whole

/-- Core 0 of a state has its tags, its Punty queue and its matrix queue changed. -/
def cored (f : Core → Core) (s : State) : State := s.modCore 0 f
def aCmd : Cmd := ⟨0, 0, 0xC5, 0, 8, 0, 8, [], 0, 0, false, false, 1, 0x1000, 0, [], [], [], 0, none, none, false, false⟩

theorem witness_CopyCommandResults :
    (∀ e ∈ [(.cpTile common (fe 0x30 0x31 0x32), [0x40, 0, 0x400000100], 0x100, 8192), (.cpTile common (fe 0x30 0x31 0x32 0xA 63), [0, 0, word (65536 - 8192)], 65536 - 8192, 8192),
        (.cpBld common (fe 0x30 0x31 0x32 9), [0x40, 0, 0x4000000003F], 0x400, 4 * pxK 0x13), (.cpBulk common (fe 0x30 0x31 0x32), [0x10, 0x20, word (2 ^ 30)], 0, 0),
        (.cpBulk common (fe 0x30 0x31 0x32 5), [0, 0x20, 16], 0x20, 16), (.cpGath common (fe 0x30 0x31 0x10), [16, 16], 16, 512),
        (.cpScat common (fe 0x30 0x31 0x10), [0, 2048], 0, 65536), (.cpFill common (fe 0x30 0x31 0x32 4), [8, 0, 8], 8, 8),
        (.cpOut common (fe 0x30 0x31 0x32), [0x40, 0, word (0x10 + 0x3F * 2 ^ 20 + 2 ^ 32)], 0x10, 4 * 64), (.cpRes common (fe 0x30 0 0 0 1), [63], 0, 0)],
      Meets (whole' e.2.1) e.1 fun x => x.on ≠ [] ∧ e.2.2.1 + e.2.2.2 ≤ x.t.scrBytes ∧ (∀ l ∈ x.on, ((whole' e.2.1).opnd x.g l 0x10).psn = false) ∧
        63 < x.ln.slotCnt ∧ 63 < x.ln.tagCnt ∧
        ((whole' e.2.1).core x.core).punty.length < 32 ∧ (((whole' e.2.1).core x.core).tags.getD 0 Tag.fresh).pend < 65535) ∧
    -- a full queue, a count that cannot rise, a failed tag with and without a resume record
    ∀ s ∈ [cored (fun c => { c with punty := List.replicate 32 aCmd }) (whole' [8, 0, 8]),
        cored (fun c => { c with tags := updAt (fun t => { t with pend := 65535 }) 0 c.tags }) (whole' [8, 0, 8]),
        cored (fun c => { c with tags := updAt (fun t => { t with err := true, resume := some aCmd }) 8 c.tags }) (whole' [8, 0, 8])],
      (Meets s (.cpFill common (fe 0x30 0x31 0x32 4)) fun x => x.on ≠ [] ∧ (((s.core x.core).punty.length < 32 ∧
        ((s.core x.core).tags.getD 0 Tag.fresh).pend < 65535) ↔ ((s.core x.core).tags.getD 8 Tag.fresh).resume ≠ none)) :=
  ⟨fun e he => meets (by revert e he; decide +kernel), fun e he => meets (by revert e he; decide +kernel)⟩

/-- Tag 1 of the team is not ready. -/
def tagged (mask : Word) : State := cored (fun c => { c with tags := updAt (fun t => { t with pend := 2, ready := false }) 1 c.tags }) (whole' [mask])

theorem witness_TagInstructionResults : ∀ e ∈ [(.tagWait common (fe 0x30 0 0), 1, true), (.tagWait common (fe 0x30 0 0), 3, false),
      (.tagAny common (fe 0x30 0 0), 3, false), (.tagAny common (fe 0x30 0 0), 2, false), (.tagFfr common (fe 0x30 0 0), 0, true),
      (.tagFfr common (fe 0x30 0 0), word (2 ^ 64 - 1), false), (.tagSt common (fe 0 0 0 1 63), 0, true), (.tagClr common (fe 0x30 0 0), word (2 ^ 63), true)],
    Meets (tagged e.2.1) e.1 fun x => let s := tagged e.2.1
      x.on ≠ [] ∧ (s.opnd x.g 0 0x30).val.toNat < 2 ^ x.ln.tagCnt ∧
      decide (∀ i ∈ (List.range x.ln.tagCnt).filter fun i => bit e.2.1 i, ((s.core x.core).tags.getD (x.ln.tagBase + i) Tag.fresh).ready = true) = e.2.2 :=
  fun e he => meets (by revert e he; decide +kernel)

/-- The ring with closed tiles, an epilogue or none at its tail, and entries in the matrix queue. -/
def anEpi : Epi := ⟨0, 0x80, 0, 0, false, false, 1, 0x1000⟩
def anEntry (opc : BitVec 8) (row tile : Nat) (data : List Word) (chk : Option MqCheck) : MqEntry := ⟨opc, row, tile, 3, data, data.map fun _ => false, chk, 0x1000⟩
def ringd (ncl entries : Nat) (epi : Option Epi) (ks : List Word) : State := cored (fun c => { c with
  head := ncl % 16
  ncl := ncl
  ring := updAt (fun t => { t with epi := epi }) 0 c.ring
  mq := List.replicate entries (anEntry 0xD8 0 0 [] none) }) (whole' ks)

theorem witness_RingInstructionResults : ∀ e ∈ [(.mma common (fe 0x30 0x31 0 0x12), 0, 7, none, [0x100, 0x3F]),
      (.mma common (fe 0x30 0x31 0 0x54), 0, 8, none, [0x40000000000, 0x80000000000]),
      (.mmaSk common (fe 0x30 0x31 0x32 0x13), 0, 0, none, [0, 62, word (65536 - 64)]), (.ringAdv common (fe 0 0 0), 14, 0, none, []),
      (.ringAdv common (fe 0 0 0), 15, 0, none, []), (.ringRd common (fe 0x30 0x31 0), 15, 7, none, [31, 15]), (.ringRd common (fe 0x30 0x31 0), 0, 0, none, [0, 0]),
      (.ringWr common (fe 0x30 0 0x10), 0, 0, none, [31]), (.ringClr common (fe 0 0 0), 0, 0, none, []), (.ringClr common (fe 0 0 0 1), 1, 0, none, []),
      (.ringClr common (fe 0 0 0 1), 0, 0, none, []), (.ringClr common (fe 0 0 0 1), 1, 0, some anEpi, []), (.ringSt common (fe 0 0 0), 3, 0, some anEpi, []),
      (.epiPost common (fe 0x30 0 0 0 5), 1, 0, none, [0x80]), (.epiPost common (fe 0x30 0 0 0 5), 2, 0, some anEpi, [0]),
      (.chkRd common (fe 0 0x30 0), 15, 0, none, [15])],
    Meets (ringd e.2.1 e.2.2.1 e.2.2.2.1 e.2.2.2.2) e.1 fun x => let s := ringd e.2.1 e.2.2.1 e.2.2.2.1 e.2.2.2.2
      let k := s.core x.core
      x.on ≠ [] ∧ k.ncl = e.2.1 ∧ k.mq.length = e.2.2.1 ∧ (k.tile k.tail).epi = e.2.2.2.1 ∧ (k.tile ((k.tail + 1) % 16)).epi = none ∧
      x.ln.slotCnt = 64 ∧ x.t.scrBytes = 65536 ∧ (k.tags.getD (x.ln.tagBase + 5) Tag.fresh).pend < 65535 ∧
      ∀ i < e.2.2.2.2.length, (s.opnd x.g 0 (BitVec.ofNat 6 (0x30 + i))).val = e.2.2.2.2.getD i 0 :=
  fun e he => meets (by revert e he; decide +kernel)

theorem witness_MatrixQueueSteps :
    ∀ e ∈ [anEntry 0xD0 0 0 (List.replicate 2048 1) none, anEntry 0xD1 0 15 (List.replicate 2048 1) (some ⟨10, 9, 1, false, false⟩),
        anEntry 0xD2 0 5 [] none, anEntry 0xD3 31 5 [] none, anEntry 0xD4 31 5 (List.replicate 32 1) none, anEntry 0xD5 0 5 [] none,
        anEntry 0xD5 1 5 [] none, anEntry 0xD6 0 5 [7] none, anEntry 0xD7 0 5 [] none, anEntry 0xD8 0 5 [] none],
      let s := (cored (fun c => { c with mq := [e, e] }) whole).setOp 3 ⟨0, e.opc, 0x1000, [], 0xFFFFFFFF, 0, [], [], [], 0, true, 0⟩
      ((s.core 0).mq.head? == some e && (s.core 0).ring.length == 16 && decide (e.tile < 16) && decide (e.row < 32) && (s.op? e.op).isSome &&
        (e.data.length == 2048) == decide (e.opc = 0xD0 ∨ e.opc = 0xD1) && (e.data.length == 32) == decide (e.opc = 0xD4) &&
        (match e.chk with
          | some r => r.nan == false && r.psn == false && decide ((r.p - r.ref).natAbs ≤ r.tol.natAbs)
          | none => true) && decide ((s.core 0).arrayFree ≤ s.cycle) &&
        decide (s.cycle < ((cored (fun c => { c with mq := [e], arrayFree := 24 }) whole).core 0).arrayFree)) = true := by decide +kernel

/-! ### Witnesses: commands of the engines, bytecodes, packets -/

def aJob (card : Nat) (parked : Option (BitVec 8)) : Job :=
  { card := card, tenant := 0, team := indexKey 0 0, gid := 0, core := 0, tag := 0, ttag := 0, acq := false, rel := false, scope := 5, pc := 0x1000,
    accepted := true, started := false, resuming := false, words := [], out := [], written := 0, bitPos := 0, final := false, zst := .header, marks := [],
    fail := none, parked := parked, area := none, fid := none, cardWait := false, forced := false }

/-- A card at 0x400 whose word 4 is as given, jobs in engine 0 and its parked jobs. -/
def carded (w4 : Word) (queue parked : List Job) : State :=
  (({ whole with eng := { whole.eng with cullets := updAt (fun _ => ⟨queue, parked⟩) 0 whole.eng.cullets } } : State).setPhysWord 0x420 w4)

def dzB (s : State) (x : Ctx) (n st code : Nat) : Bool :=
  match s.tenRead x.ln.tenant (n + 32) 8 with
  | .ok u bs => (bs.all fun b => !b.2) && bits (word (leNat (bs.map fun b => b.1))) 63 60 == st && bits (word (leNat (bs.map fun b => b.1))) 59 52 == code &&
      (match u.devWrite x.ln.tenant (n + 32) (List.replicate 16 1) with
        | .ok _ _ => true
        | _ => false)
  | _ => false

/-- The card lies in the trusted base. -/
def farCard : State := (uniform [0x80000000] whole).setPhysWord 0x11010 (word (leafWord 0x30000000 0))

theorem witness_DecompressionCommandResults_refused :
    (∀ i ∈ [.dzSub common (fe 0x30 0 0 0 1 0 0 4), .dzRes common (fe 0x30 0 0 0 1 0 0 4)], Meets farCard i fun x => x.on ≠ [] ∧
      (farCard.opnd x.g 0 0x30).val = 0x80000000 ∧ ((farCard.core x.core).tags.getD (x.ln.tagBase + 1) Tag.fresh).pend < 65535 ∧
      (farCard.cullet 0).queue = [] ∧ (∀ e ∈ farCard.eng.cullets, e.parked = []) ∧ x.ln.tenant = 0) ∧
    (match farCard.tenRead 0 (0x80000000 + 32) 8 with
      | .prot => true
      | _ => false) = true :=
  ⟨fun e he => meets (by revert e he; decide +kernel), by decide +kernel⟩

theorem witness_DecompressionCommandResults_parked :
    let s := uniform [0x400] (carded 0 [] [aJob 0x400 (some 5)])
    Meets s (.dzSt common (fe 0x30 0 0)) fun x => x.on ≠ [] ∧ (s.opnd x.g 0 0x30).val = 0x400 ∧ x.ln.tenant = 0 ∧
      (s.cullet 0).queue = [] ∧ (s.cullet 0).parked = [aJob 0x400 (some 5)] ∧ (aJob 0x400 (some 5)).area = none :=
  meets (by decide +kernel)

/-- Engine 1 holds a job queued or parked, engine 0 none of this card. -/
def carded1 (w4 : Word) (queue parked : List Job) : State := uniform [0x400]
  ((({ whole with eng := { whole.eng with cullets := updAt (fun _ => ⟨queue, parked⟩) 1 whole.eng.cullets } } : State)).setPhysWord 0x420 w4)

theorem witness_DecompressionCommandResults_engines :
    (∀ e ∈ [([aJob 0x400 none], []), ([{ aJob 0x400 none with started := true }], []), ([], [aJob 0x400 (some 5)])],
      Meets (carded1 0 e.1 e.2) (.dzSt common (fe 0x30 0 0)) fun x => x.on ≠ [] ∧ ((carded1 0 e.1 e.2).opnd x.g 0 0x30).val = 0x400 ∧ x.ln.tenant = 0 ∧
        (carded1 0 e.1 e.2).eng.cullets = (carded1 0 e.1 e.2).eng.cullets.take 1 ++ ⟨e.1, e.2⟩ :: (carded1 0 e.1 e.2).eng.cullets.drop 2 ∧
        (∀ c ∈ (carded1 0 e.1 e.2).eng.cullets.take 1, ∀ j ∈ c.queue ++ c.parked, (j.tenant == 0 && j.card == 0x400) = false) ∧
        ((e.1.find? fun j => j.accepted).isSome = true ∨ (e.1 = [] ∧ (e.2.find? fun j => j.area.isNone).isSome = true))) ∧
    let s := carded1 (word (3 * 2 ^ 60 + 2 ^ 52)) [] [aJob 0x400 (some 1)]
    Meets s (.dzRes common (fe 0x30 0 0 0 1 0 0 4)) fun x => x.on ≠ [] ∧ x.ln.tenant = 0 ∧ 1 < s.eng.cullets.length ∧
      (s.cullet 1).parked = [aJob 0x400 (some 1)] ∧ (∀ d, d < s.eng.cullets.length → d ≠ 1 → (s.cullet d).parked = []) ∧ dzB s x 0x400 3 1 = true ∧
      s.cardBusy 0 0x400 = false ∧ ((s.core x.core).tags.getD (x.ln.tagBase + 1) Tag.fresh).pend < 65535 :=
  ⟨fun e he => meets (by revert e he; decide +kernel), meets (by decide +kernel)⟩

theorem witness_DecompressionCommandResults :
    let k : List Word := [0x400]
    (∀ e ∈ [(.dzSub common (fe 0x30 0 0 0 1 0 0 4), 0, [], [], 0, 0), (.dzSub common (fe 0x30 0 0 1 1 1 1 5), word (2 ^ 60), [], [], 1, 0),
        (.dzRes common (fe 0x30 0 0 0 1 0 0 4), 0, [], [], 0, 0),
        (.dzRes common (fe 0x30 0 0 0 1 0 0 4), word (3 * 2 ^ 60 + 2 ^ 52), [], [aJob 0x400 (some 1)], 3, 1),
        (.dzSt common (fe 0x30 0 0), 0, [aJob 0x400 none], [], 0, 0), (.dzSt common (fe 0x30 0 0), word (4 * 2 ^ 60 + 2 ^ 52), [], [], 4, 1),
        (.dzSub common (fe 0x30 0 0 0 1 0 0 4), 0, List.replicate 64 (aJob 0x800 none), [], 0, 0)],
      Meets (uniform k (carded e.2.1 e.2.2.1 e.2.2.2.1)) e.1 fun x => let s := uniform k (carded e.2.1 e.2.2.1 e.2.2.2.1)
        x.on ≠ [] ∧ (s.opnd x.g 0 0x30).val = 0x400 ∧ ((s.core x.core).tags.getD (x.ln.tagBase + 1) Tag.fresh).pend < 65535 ∧
        (s.cullet 0).queue = e.2.2.1 ∧ (s.cullet 1).queue = [] ∧ s.cardBusy x.ln.tenant 0x400 = decide (e.2.2.1 = [aJob 0x400 none]) ∧
        dzB s x 0x400 e.2.2.2.2.1 e.2.2.2.2.2 = true ∧
        (e.2.2.1 = [] → e.2.2.2.1 = [] → accessB s x 0 .read (x.on.map fun l => (l, (s.opnd x.g 0 0x30).val + 32, 8, 8)) [] (fun _ _ => true) = true)) ∧
    Meets (uniform [0x401] whole) (.dzSub common (fe 0x30 0 0 0 1 0 0 4)) fun x => x.on ≠ [] ∧ ((uniform [0x401] whole).opnd x.g 0 0x30).val.toNat % 64 ≠ 0 :=
  ⟨fun e he => meets (by revert e he; decide +kernel), meets (by decide +kernel)⟩

/-- Connection 9 of tenant 0, counter 5 of tenant 0. -/
def aConn : Conn := ⟨0, 3, 77, 2, [0, 1], [], none, false, 4, some 9, 0⟩
def aGet (opc : BitVec 8) : NxCmd :=
  { opc := opc, team := indexKey 0 0, gid := 0, tenant := 0, core := 0, tag := 0, ttag := 0, handle := 9, ua := 0x100, ub := 0, uc := 16, mod := 0,
    acq := false, rel := false, scope := 5, op := 0, pc := 0, sent := true, answer := none, fid := none, forced := false }
def connected (ks : List Word) (cmds : Nat) : State :=
  let s := whole' ks
  let e := { s.eng with conns := s.eng.conns.put 9 aConn, counters := s.eng.counters.put 5 ⟨20, some 0, none⟩ }
  { s with eng := { e with nx := (List.range cmds).map fun i => (i, aGet 0xDA) } }

theorem witness_TransportCommandResults :
    let far := word (9 * 2 ^ 48)
    (∀ e ∈ [(.nxPut common (fe 0x30 0x31 0x32 0 1 0 0 5), [0x100, far + word (2 ^ 48 - 1), 1], 9, 1), (.nxPut common (fe 0x30 0x31 0x32 0 1 0 0 4), [0, far, word (2 ^ 44 + 5 * 2 ^ 32 + 2 ^ 30)], 9, 2 ^ 30),
        (.nxGet common (fe 0x30 0x31 0x32 0 1 0 0 5), [0x100, far, word (2 ^ 44 + 5 * 2 ^ 32 + 16)], 9, 16), (.nxGet common (fe 0x30 0x31 0x32 0 1 1 1 5), [16, far, 1], 9, 1),
        (.nxSend common (fe 0x30 0x31 0x32 1 1 0 0 5), [0, far + 4095, 1], 9, 1),
        (.nxRed common (fe 0x30 0x31 0 0 1 0 0 5), [0x40, word (2 ^ 52 - 1), 0], 15, 0)],
      Meets (connected e.2.1 0) e.1 fun x => let s := connected e.2.1 0
        x.on ≠ [] ∧ s.away x.tk = false ∧ (s.eng.nx.filter fun e => e.2.core == x.core).length < 256 ∧
        ((s.core x.core).tags.getD (x.ln.tagBase + 1) Tag.fresh).pend < 65535 ∧ s.conn? 9 = some aConn ∧ aConn.tenant = x.ln.tenant ∧
        (s.counter 5).owner = some x.ln.tenant ∧ bits (s.opnd x.g 0 0x31).val 63 48 = e.2.2.1 ∧ bits (s.opnd x.g 0 0x32).val 31 0 = e.2.2.2 ∧
        (s.opnd x.g 0 0x30).val.toNat % 16 = 0 ∧ (s.opnd x.g 0 0x32).val.toNat < 2 ^ 45) ∧
    (∀ e ∈ [(.nxAtom common (fe 0x30 0x31 0 0 1 0 0 5), far + 8, 8), (.nxAtom common (fe 0x30 0x31 0x32 0x17 1 0 0 5), far + 4, 4)],
      Meets (connected [e.2.1, 7] 0) e.1 fun x => x.on ≠ [] ∧ bits ((connected [e.2.1, 7] 0).opnd x.g 0 0x30).val 63 48 = 9 ∧
        bits ((connected [e.2.1, 7] 0).opnd x.g 0 0x30).val 47 0 % e.2.2 = 0) ∧
    (∀ e ∈ [(.nxPut common (fe 0x30 0x31 0x32 0 1 0 0 5), far), (.nxGet common (fe 0x30 0x31 0x32 0 1 0 0 5), far), (.nxSend common (fe 0x30 0x31 0x32 0 1 0 0 5), far),
        (.nxAtom common (fe 0x31 0x30 0 0 1 0 0 5), far), (.nxRed common (fe 0x30 0x31 0 0 1 0 0 5), 16)],
      Meets (connected [0x100, e.2, 16] 256) e.1 fun x => x.on ≠ [] ∧ (connected [0x100, e.2, 16] 256).away x.tk = false ∧
        ¬ ((connected [0x100, e.2, 16] 256).eng.nx.filter fun e => e.2.core == x.core).length < 256) ∧
    (∀ e ∈ [(.nxCnt common (fe 0x30 0x31 0 0x60), 0), (.nxCnt common (fe 0x30 0x31 0 3), 21), (.nxCnt common (fe 0x30 0x31 0 14), 20), (.nxCnt common (fe 0x30 0x31 0 19), 21),
        (.nxCnt common (fe 0x30 0x31 0 0x4E), 0)],
      Meets (connected [5, e.2] 0) e.1 fun x => x.on ≠ [] ∧ ((connected [5, e.2] 0).opnd x.g 0 0x30).val = 5 ∧
        ((connected [5, e.2] 0).counter 5).owner = some x.ln.tenant ∧ ((connected [5, e.2] 0).counter 5).value = 20 ∧ onCore x.t.core = true) ∧
    Meets (connected [9] 0) (.nxCc common (fe 0x30 0 0)) fun x => x.on ≠ [] ∧ ((connected [9] 0).opnd x.g 0 0x30).val = 9 ∧
      (connected [9] 0).conn? 9 = some aConn ∧ aConn.tenant = x.ln.tenant :=
  ⟨fun e he => meets (by revert e he; decide +kernel), fun e he => meets (by revert e he; decide +kernel),
    fun e he => meets (by revert e he; decide +kernel), fun e he => meets (by revert e he; decide +kernel), meets (by decide +kernel)⟩

/-- Queue 0 at 0x9000 with a bytecode in progress. -/
def runOf (regs : List Word) (loops : List Loop) (idx count : Nat) (hold : Hold) : Run := ⟨[0x80000, 2, 3, 4, 5, 6, 7, 8], regs ++ List.replicate (16 - regs.length) 0, idx, count, loops, hold, false, none⟩
def scripting (r : Run) : State := { loaded.modQueue 0 (fun q =>
  { q with en := true, log2n := 4, base := 0x9000, code := List.replicate 4 0, ctxAddr := 0x2000, run := some r }) with cur := .script 0 }

theorem witness_BytecodeResults :
    let plain := runOf [7, 9] [] 0 0 .none
    let body := runOf [7, 9] [⟨1, 2, 3, 0, 5⟩] 2 511 .none
    let lastTurn := runOf [7, 9] [⟨1, 2, 3, 2, 5⟩] 2 0 .none
    (∀ r ∈ [plain, body, lastTurn], (scripting r).cur = .script 0 ∧ ((scripting r).queue 0).run = some r ∧ r.builtin = false ∧
      (scripting r).slotWaits 0 = false) ∧
    (∀ f, plain.loops.head? = some f → plain.idx + 1 ≠ f.start + f.len) ∧
    (body.loops = [⟨1, 2, 3, 0, 5⟩] ∧ body.idx + 1 = 1 + 2 ∧ 0 + 1 < 3) ∧ lastTurn.loops = [⟨1, 2, 3, 2, 5⟩] ∧ lastTurn.idx + 1 = 1 + 2 ∧ 3 ≤ 2 + 1 := by
  refine ⟨?_, fun f hf => by simp [runOf] at hf, ?_⟩ <;> decide +kernel

/-- A launch record that the checks of R295 accept, at 0x2000. -/
def aRecord : List Word :=
  [0x1000, word (3 * 2 ^ 38 + 1), 0, word (2 ^ 48 + 0x4000), 0x3000, 0x3200] ++ List.replicate 26 0
def recorded (s : State) : State := { s with mem := { s.mem with bytes := s.mem.bytes.writeN 0x2000 (wordsBytes aRecord) } }

def okB {α : Type} (d : Dev α) (p : α → Bool := fun _ => true) : Bool := match d with
  | .ok _ a => p a
  | _ => false
def submitB (s : State) (addr : Nat) (p : Submit → Bool) : Bool := p (s.submit 0 addr 0 0 0).2

theorem witness_BytecodeEffects :
    let r := runOf [0x2000, 9, 0x2001, 0x5000] [] 1 512 .none
    let s := recorded (scripting r)
    512 ≤ r.count ∧ (s.queue 0).run = some r ∧ s.slotWaits 0 = false ∧ s.cur = .script 0 ∧ r.loops.head? = none ∧
    okB (s.devRead 0 (0x2000 + 8 * 4095) 8) = true ∧ okB (s.devWrite 0 (0x2000 + 8 * 4095) (leBytes 8 9)) = true ∧
    submitB s 0x2000 (fun o => match o with
      | .accepted => true
      | _ => false) = true ∧
    submitB s 0x5000 (fun o => match o with
      | .rejected _ => true
      | _ => false) = true ∧
    (r.regs.getD 0 0).toNat % 8 = 0 ∧ okB (s.readWords 0 0x2000 1) (fun v => v == ([0x1000], false)) = true ∧ 9 ≤ 0x1000 ∧ 0x1000 < 0x2000 ∧
    okB (s.devAdd 0 0x2000 9) = true ∧ (r.regs.getD 2 0).toNat % 8 ≠ 0 ∧
    ((scripting (runOf [] [] 0 0 (.greq 3))).queue 0).run = some (runOf [] [] 0 0 (.greq 3)) := by decide +kernel

/-- Queue 0 enabled at 0x9000 with a kick and the packet at its CI. -/
def waiting (kick early : Option Nat) (ci : Nat) (header : Word) : State :=
  let s := loaded.modQueue 0 fun q => { q with en := true, log2n := 4, base := 0x9000, ci := ci, kick := kick, early := early }
  ({ s with mem := { s.mem with bytes := s.mem.bytes.writeN (0x9000 + 64 * (ci % 16)) (wordsBytes [header, 0x2000, 9, 0, 0, 0, 0, 0]) } } : State)

/-- A packet of a KIND of queue 0 whose script has ended, its operand address 0x2000. -/
def handling (kind : Nat) : State := recorded (scripting { runOf [] [] 0 0 .none with words := [word (kind * 2 ^ 17), 0x2000, 9, 0, 0, 0, 0, 0], builtin := true })
/-- A splinter works on the leaf of the slot of queue 0. -/
def slotless : State :=
  let s := (waiting (some 5) none 5 5).setPhysWord 0x11000 (word (leafWord 0 0 + 2 ^ 55))
  { s with mem := { s.mem with spl := [(0x11000, ⟨word (leafWord 0 0), 30, 0, 0, false, none⟩)] } }

theorem witness_QueuePacketResults :
    (∀ e ∈ [(131071 + 15, true), (131071 + 16, false), (131071, true)], let q := (waiting none none 131071 0).queue 0
      q.en = true ∧ q.ke = false ∧ q.kick = none ∧ decide ((e.1 % 2 ^ 17 + 2 ^ 17 - q.ci) % 2 ^ 17 < 2 ^ q.log2n) = e.2) ∧
    (((waiting (some 2) none 0 0).queue 0).kick = some 2 ∧ ((waiting (some 2) none 0 0).queue 0).log2n = 4 ∧ 0 < 4096 ∧ 4 ≠ 8 ∧ 12 % 8 ≠ 0) ∧
    -- a disabled queue and one of an illegal size
    (∀ f ∈ [fun (q : Queue) => { q with en := false }, fun q => { q with log2n := 3 }], let q := ((waiting none none 0 0).modQueue 0 f).queue 0
      ¬ (q.en = true ∧ 4 ≤ q.log2n ∧ q.log2n ≤ 16) ∧ q.ke = false ∧ q.kick = none) ∧
    -- a queue with KE set, whose slot is stamped for CI, or not, or cannot be read
    (∀ e ∈ [(0x9000, 5, true), (0x9000, 6, false), (0x80000000, 5, false)], let s := (waiting none none 5 (word e.2.1)).modQueue 0 fun q => { q with ke := true, base := e.1 }
      let q := s.queue 0
      q.en = true ∧ q.ke = true ∧ q.kick = none ∧ q.log2n = 4 ∧
        okB ((s.modQueue 0 fun q => { q with kick := some 6 }).devRead q.tenant (q.base + 64 * (q.ci % 2 ^ q.log2n)) 8) (fun b => !b.2 && leNat b.1 % 2 ^ 17 == 5) = e.2.2) ∧
    (let s := scripting (runOf [] [] 0 0 .none)
     (s.queue 0).run ≠ none ∧ s.mustWait 0 (s.queue 0).slot 8 .write = false ∧ okB (s.devWrite 0 (s.queue 0).slot (leBytes 8 7)) = true) ∧
    (let s := slotless.modQueue 0 fun q => { q with run := some (runOf [] [] 0 0 .none) }
     (s.queue 0).run ≠ none ∧ s.mustWait 0 (s.queue 0).slot 8 .write = true) ∧
    (let r : Run := { runOf [] [] 0 0 .none with builtin := true, sts := some 4 }
     ((scripting r).queue 0).run = some r ∧ (scripting r).slotWaits 0 = false) ∧
    (∀ e ∈ [(0, true), (1, false)], let s := { waiting (some 1) (some 0) 1 0 with time := (1999 + b2n e.2) * 851968 }
      (s.queue 0).early = some 0 ∧ s.unstamped 0 = true ∧ s.ns = 1999 + b2n e.2) ∧
    (∀ kind ∈ [0, 1, 2, 3, 4], let s := waiting (some 5) none 5 (word (kind * 2 ^ 17 + 5))
      s.slotWaits 0 = false ∧ (s.queue 0).run = none ∧ (s.queue 0).announced = true ∧ okB (s.packetAt 0) (fun ws => !ws.2 && bits (ws.1.getD 0 0) 16 0 == 5 &&
        bits (ws.1.getD 0 0) 19 17 == kind && !packetBad ws.1) = true) ∧
    -- a reserved KIND; a packet of each kind whose built-in handling follows; a slot that must be waited for
    (let s := waiting (some 5) none 5 (word (5 * 2 ^ 17 + 5))
     okB (s.packetAt 0) (fun ws => bits (ws.1.getD 0 0) 19 17 == 5 && packetBad ws.1) = true) ∧
    (∀ kind ∈ [0, 1, 2, 3, 4], let s := handling kind
      s.slotWaits 0 = false ∧ ((s.queue 0).run.any fun r => r.builtin && bits (r.words.getD 0 0) 19 17 == kind) = true ∧
        okB (s.readWords 0 0x2000 1) (fun v => !v.2) = true ∧ okB (s.devAdd 0 0x2000 9) = true) ∧
    (slotless.slotWaits 0 = true) ∧
    (let s := waiting (some 5) none 5 (word (2 ^ 20 + 5))
     bit (word (2 ^ 20 + 5)) 20 = true ∧ ∀ l ∈ ({ s with work := { s.work with launches := [(0, { plainLaunch with queue := 1 })] } } : State).work.launches,
       l.2.queue ≠ 0) := by decide +kernel

/-! ### Single steps: the expected values are the spec's worked examples, or worked out by hand from its rules -/

/-- The state after an instruction whose lanes hold given named registers. -/
def after (vs : Nat → List Word) (i : Instr) (s : State := busy) : State := match exec i (named vs s) with
  | .next t => t
  | _ => named vs s
/-- The newest k values of lane l's queue, a predicate, the flags of FPSTAT. -/
def queue (s : State) (l k : Nat) : List Word := ((s.laneIn (groupKey 0 0) l).q.take k).map fun e => e.val
def pred (s : State) (l p : Nat) : Bool := (((s.laneIn (groupKey 0 0) l).p.getD p default).now).1
def same (vs : List Word) (i : Instr) : List Word := queue (after (fun _ => vs) i) 0 1
def flags (vs : List Word) (i : Instr) : BitVec 13 := ((after (fun _ => vs) i).laneIn (groupKey 0 0) 0).fpstat

/-- R101, R53: 127 + 1 as i8 is −128, extended. -/
theorem test_add_wraps : same [127, 1] (.add common (ft 2 0)) = [0xFFFFFFFFFFFFFF80] := by decide +kernel
/-- R102. -/
theorem test_add_saturates : same [200, 100] (.add common { ft 2 4 with sat := 1 }) = [255] := by decide +kernel
theorem test_neg_saturates : same [0x80] (.neg common { ft 1 0 with sat := 1 }) = [127] := by decide +kernel
/-- R103: 0xFFFFFFFF + 1 carries into p3; 0 − 1 borrows. -/
theorem test_addc_carries : let t := after (fun _ => [0xFFFFFFFF, 1]) (.addc common (ft 2 6 0xB0)); queue t 5 1 = [0] ∧ pred t 5 3 = true := by
  decide +kernel
theorem test_subb_borrows : let t := after (fun _ => [0, 1]) (.subb common (ft 2 4 0xB0)); queue t 0 1 = [255] ∧ pred t 0 3 = true := by decide +kernel
/-- R104: the square of 2^64 − 1 is (2^64 − 2) × 2^64 + 1, pushed low half first. -/
theorem test_mulw_pushes_two : queue (after (fun _ => [-1, -1]) (.mulw common (ft 2 7))) 0 2 = [0xFFFFFFFFFFFFFFFE, 1] := by decide +kernel
theorem test_mulhi_signed : same [-1, 2] (.mulhi common (ft 2 3)) = [-1] ∧ same [-1, 2] (.mulhi common (ft 2 7)) = [1] := by decide +kernel
/-- R105: the last step of the worked division of 100 by 7. -/
theorem test_divstep_worked : queue (after (fun _ => [0, 0x64000000, 7]) (.divstep common (ft 3 6))) 0 2 = [14, 2] := by decide +kernel
theorem test_sad : same [1, 255, 0] (.sad common (ft 3 4)) = [254] ∧ same [1, 255, 0] (.sad common (ft 3 0)) = [2] := by decide +kernel
/-- R106, R83: −1 < 1 as i32, and not as n32; the second predicate is the complement. -/
theorem test_cmp_signed : let t := after (fun _ => [0xFFFFFFFF, 1]) (.cmp common (fp 2 2)); pred t 0 1 = true ∧ pred t 0 2 = false := by decide +kernel
theorem test_cmp_unsigned : let t := after (fun _ => [0xFFFFFFFF, 1]) (.cmp common (fp 6 2)); pred t 0 1 = false ∧ pred t 0 2 = true := by decide +kernel
/-- R107: counts of the width and more. -/
theorem test_shl_width : same [1, 32] (.shl common (ft 2 10)) = [0] ∧ same [1, 31] (.shl common (ft 2 10)) = [0x80000000] := by decide +kernel
theorem test_sar_beyond : same [0x80000000, 100] (.sar common (ft 2 2)) = [-1] := by decide +kernel
theorem test_fshl : same [0x12345678, 0x9ABCDEF0, 8] (.fshl common (ft 3 10)) = [0x3456789A] ∧ same [1, 2, 99] (.fshl common (ft 3 10)) = [2] := by decide +kernel
theorem test_fshr : same [0x12345678, 0x9ABCDEF0, 8] (.fshr common (ft 3 10)) = [0x789ABCDE] ∧ same [1, 2, 0] (.fshr common (ft 3 10)) = [2] := by decide +kernel
theorem test_sext : same [0x80, 8] (.sext common (ft 2 11)) = [0xFFFFFFFFFFFFFF80] ∧ same [0x80, 8] (.sext common (ft 2 10)) = [0xFFFFFF80] := by decide +kernel
theorem test_clamp_crossed : same [5, 9, 3] (.clamp common (ft 3 2)) = [3] := by decide +kernel
theorem test_sari : same [0x80000000] (.sari common (fi 63 1)) = [-1] := by decide +kernel
/-- R109: majority, and a choice by n0's bits. -/
theorem test_tbl3 : same [0xF0, 0xCC, 0xAA] (.tbl3 common (ft 3 11 0xE8)) = [0xE8] ∧ same [0xF0, 0xCC, 0xAA] (.tbl3 common (ft 3 11 0xCA)) = [0xCA] := by
  decide +kernel
theorem test_counts : same [0x00F0] (.popc common (ft 1 9)) = [4] ∧ same [0x00F0] (.clz common (ft 1 9)) = [8] ∧ same [0] (.ctz common (ft 1 9)) = [16] ∧
    same [1] (.brev common (ft 1 9)) = [0x8000] := by decide +kernel
/-- R110: bits 11:4, sign-extended as an i type; a field cut off at the width; an insertion of 0xF at 4. -/
theorem test_bfe : same [0xF80, 4, 8] (.bfe common (ft 3 2)) = [-8] ∧ same [0xABCD, 12, 9] (.bfe common (ft 3 5)) = [0xA] := by decide +kernel
theorem test_bfi : same [0xFF, 0x12345678, 0x404] (.bfi common (ft 3 10)) = [0x123456F8] := by decide +kernel
/-- R111, the rule's own example. -/
theorem test_bpick : same [0x44332211, 0x88776655, 0x00874004] (.bpick common (ft 3 10)) = [0x11FF0055] := by decide +kernel
theorem test_andi : same [0x123456789ABCDEF0] (.andi common (fi 0xFFFFFF00 1)) = [0x123456789ABCDE00] ∧
    same [0x123456789ABCDEF0] (.andi common (fi 0xFFFFFF00)) = [0x9ABCDE00] := by decide +kernel

/-- R113: lane 0 of a whole group reads lane 16 under a flip by 16; lane 31 rotates by 1 within its segment of 8 to lane 24; a shift by 1 gives lane 0 its fill. -/
theorem test_lx_flip : queue (after (fun l => [word (100 + l), 16]) (.lxFlip common (ft 2 11))) 0 1 = [116] := by decide +kernel
theorem test_lx_rot : queue (after (fun l => [word (100 + l), 1]) (.lxRot common (ft 2 11 2))) 31 1 = [124] := by decide +kernel
theorem test_lx_sh : let t := after (fun l => [word (100 + l), 1, 7]) (.lxSh common (ft 3 11)); queue t 0 1 = [7] ∧ queue t 9 1 = [108] := by decide +kernel
/-- R113, the two halves of a split: no value passes between them. -/
theorem test_lx_split : queue (after (fun l => [word (100 + l), 16]) (.lxFlip common (ft 2 11)) { busy with cur := .stream 0 0 0xFFFF 0x1000 }) 0 1 = [0] := by
  decide +kernel
/-- R114 to R116: the odd lanes' mask; the sum of ones below each lane, its LANEID; the sum; the lanes that agree. -/
theorem test_ballot : queue (after (fun l => [word (l % 2)]) (.ballot common (ft 1 10 0x800))) 3 1 = [0xAAAAAAAA] := by decide +kernel
theorem test_scan_exclusive : let t := after (fun _ => [1]) (.scanAdd common (ft 1 6 4)); queue t 0 1 = [0] ∧ queue t 31 1 = [31] := by decide +kernel
theorem test_rdx_add : queue (after (fun l => [word l]) (.rdxAdd common (ft 1 4))) 0 1 = [240] := by decide +kernel
theorem test_match : queue (after (fun l => [word (l / 16)]) (.matchV common (ft 1 10))) 20 1 = [0xFFFF0000] := by decide +kernel
/-- R117: 32 ones. -/
theorem test_rdx_fadd : queue (after (fun _ => [0x3F800000]) (.rdxFadd common (ft 1 14))) 0 1 = [0x42000000] := by decide +kernel

/-- R120, R132: 1.5 + 2.25; the greatest finite value doubled under RNE and under RTZ; 0 × ∞, invalid. FPSTAT's flags are bits 4:0. -/
theorem test_fadd : same [0x3FC00000, 0x40100000] (.fadd common (ft 2 14)) = [0x40700000] := by decide +kernel
theorem test_fmul_overflow : same [0x7F7FFFFF, 0x40000000] (.fmul common (ft 2 14)) = [0x7F800000] ∧
    same [0x7F7FFFFF, 0x40000000] (.fmul common { ft 2 14 with rnd := 1 }) = [0x7F7FFFFF] := by decide +kernel
theorem test_fmul_invalid : same [0, 0x7F800000] (.fmul common (ft 2 14)) = [0x7FC00000] := by decide +kernel
/-- R131: an exact zero difference is −0 only under RDN. -/
theorem test_fsub_zero : same [0x3F800000, 0x3F800000] (.fsub common (ft 2 14)) = [0] ∧ same [0x3F800000, 0x3F800000] (.fsub common { ft 2 14 with rnd := 3 }) = [0x80000000] := by
  decide +kernel
/-- One rounding: (1 + 2^−12)² − (1 + 2^−11) is 2^−24. -/
theorem test_ffma_once : same [0x3F800800, 0x3F800800, 0xBF801000] (.ffma common (ft 3 14)) = [0x33800000] := by decide +kernel
/-- 0.1 + 0.2 in binary64. -/
theorem test_dadd : same [0x3FB999999999999A, 0x3FC999999999999A] (.dadd common (ft 2 15)) = [0x3FD3333333333334] := by decide +kernel
theorem test_fmin_nan : same [0x7FC00000, 0x80000000] (.fmin common (ft 2 14)) = [0x80000000] ∧ same [0, 0x80000000] (.fmin common (ft 2 14)) = [0x80000000] := by
  decide +kernel
/-- √2 in binary32, and √4. -/
theorem test_sqrt : same [0x40000000] (.sqrt common (ft 1 14)) = [0x3FB504F3] ∧ same [0x40800000] (.sqrt common (ft 1 14)) = [0x40000000] := by decide +kernel
/-- R138: exact special results. -/
theorem test_rcp_exact : same [0x40800000] (.rcp common (ft 1 14)) = [0x3E800000] ∧ same [0x80000000] (.rcp common (ft 1 14)) = [0xFF800000] := by decide +kernel
theorem test_exp2_integer : same [0x41200000] (.exp2 common (ft 1 14)) = [0x44800000] := by decide +kernel
/-- R139: the negative subnormal and the signalling NaN of f32. -/
theorem test_fclass : same [0x80000001] (.fclass common (ft 1 14)) = [16] ∧ same [0x7F800001] (.fclass common (ft 1 14)) = [1] ∧ same [0x7F] (.fclass common (ft 1 16)) = [2] := by
  decide +kernel
/-- R140: a NaN is unordered. -/
theorem test_fcmp : let t := after (fun _ => [0x7FC00000, 0]) (.fcmp common (fp 14 8)); pred t 0 1 = true ∧ pred t 0 2 = false := by decide +kernel
/-- R142: the rule's own examples. −2.5 truncated, −1.0 to n8, 65,535 to f16. -/
theorem test_cvt_integer : same [0xC0200000] (.cvt common { ft 1 2 14 with rnd := 1 }) = [-2] ∧ same [0xBF800000] (.cvt common (ft 1 4 14)) = [0] := by decide +kernel
theorem test_cvt_f16 : same [65535] (.cvt common (ft 1 12 5)) = [0x7C00] ∧ same [65535] (.cvt common { ft 1 12 5 with sat := 1 }) = [0x7BFF] := by decide +kernel
/-- R122: 0.1 in e4m3 and e5m2, in bytes 2 and 3; E4M3 has no infinity. -/
theorem test_cvt_f8 : same [0x3DCCCCCD, 0x7F800000, 0x11223344] (.cvtF8 common (ft 3 16 2)) = [0x7F1D3344] ∧
    same [0x3DCCCCCD, 0x7F800000, 0] (.cvtF8 common (ft 3 17)) = [0x7C2E] := by decide +kernel
/-- R145, R149. -/
theorem test_movhi : same [0x1122334455667788] (.movhi common (fi 0xAABBCCDD)) = [0xAABBCCDD55667788] := by decide +kernel
theorem test_plop : pred (after (fun _ => []) (.plop common (fs 0 (5 * 2 ^ 17 + 0x01)))) 0 5 = true := by decide +kernel
/-- R146: LANEID, and the queue's order of TIME's two pushes. -/
theorem test_sreg_laneid : queue (after (fun _ => []) (.sregRd common (fs 0))) 17 1 = [17] := by decide +kernel

/-! #### Memory, control, traps -/

/-- R207: a signed byte load; a store of 4 bytes by two lanes. -/
theorem test_ld_signed : queue (after (fun l => [word (0x2000 + l)]) (.ld common (fm 0 0 0 0 0 1)) ({ loaded with mem := { loaded.mem with
    bytes := loaded.mem.bytes.writeN 0x2000 [0x80, 0x7F] } } : State)) 0 1 = [0xFFFFFFFFFFFFFF80] := by decide +kernel
theorem test_st : let t := after (fun l => [word (0x2000 + 8 * l), 0x1122334455667788]) (.st common (fm 0 2 0 0 0 0 0x10 0x11)) loaded
    t.mem.bytes.readN 0x2000 12 = [0x88, 0x77, 0x66, 0x55, 0, 0, 0, 0, 0x88, 0x77, 0x66, 0x55] := by decide +kernel
/-- R220, R221: lanes in order on one word: 5 and 6 are the old values, 7 is left. -/
theorem test_atom_add : let t := after (fun _ => [0x2000, 1]) (.atomAdd common (fm 0 2 0 0 0 0 0x10 0x11)) ({ loaded with mem := { loaded.mem with
    bytes := loaded.mem.bytes.writeN 0x2000 [5] } } : State)
    queue t 0 1 = [5] ∧ queue t 1 1 = [6] ∧ t.mem.bytes.readNat 0x2000 4 = 7 := by decide +kernel
theorem test_atom_cas : let t := after (fun _ => [0x2000, 9, 3, 0, 5]) (.atomCas common (fm 0 2 0 0 0 0 0x10 0x12)) ({ loaded with mem := { loaded.mem with
    bytes := loaded.mem.bytes.writeN 0x2000 [5] } } : State)
    queue t 0 1 = [5] := by decide +kernel
/-- R74, R84: the branch of the if-else example, 6 slots on from 0x1001. -/
theorem test_bra_target : let t := after (fun _ => []) (.bra common (fb 0 0 6)) ({ loaded with
      mem := { loaded.mem with bytes := loaded.mem.bytes.writeN 0x107C (leBytes 4 0xF8000001) }, cur := .stream 0 0 3 0x1001 } : State)
    (t.laneIn (groupKey 0 0) 0).pc = 0x1042 ∧ (t.laneIn (groupKey 0 0) 0).status = .active := by decide +kernel
/-- A target whose TARGET bit is clear raises illegal instruction: the team has no handler, and the launch fails. -/
theorem test_bra_no_target : ((after (fun _ => []) (.bra common (fb 0 0 6)) ({ loaded with cur := .stream 0 0 3 0x1001 } : State)).laneIn (groupKey 0 0) 0).pc ≠ 0x1042 := by
  decide +kernel
theorem test_exit : ((after (fun _ => []) (.exit common (fs 0))).laneIn (groupKey 0 0) 3).status = .exited := by decide +kernel
theorem test_nop : let t := after (fun _ => [4]) (.nop common fs); queue t 0 1 = queue (named (fun _ => [4]) busy) 0 1 ∧ t.mem = busy.mem := by decide +kernel

/-! #### Scripts -/

/-- R290: 2^16 × 1 + 0x8000; a signed immediate; bits 11:4. -/
def scriptReg (regs : List Word) (i : Instr) (d : Nat) : Word := match exec i (scripting (runOf regs [] 0 0 .none)) with
  | .next t => ((t.queue 0).run.map fun r => r.regs.getD d 0).getD 0
  | _ => 0
theorem test_script_li : scriptReg [] (.scriptLi 3 0x8000) 3 = 0xFFFFFFFFFFFF8000 := by decide +kernel
theorem test_script_lih : scriptReg [0, 1] (.scriptLih 1 0x8000) 1 = 0x18000 := by decide +kernel
theorem test_script_bfx : scriptReg [0, 0xABC] (.scriptBfx 2 1 7 4) 2 = 0xAB := by decide +kernel
theorem test_script_ldp : scriptReg [] (.scriptLdp 1 0) 1 = 0x80000 := by decide +kernel
theorem test_script_sltu : scriptReg [0, 1, 0xFFFFFFFFFFFFFFFF] (.scriptSltu 3 1 2) 3 = 1 := by decide +kernel
/-! ### Witnesses: completions, sequencers, engines -/

def outstanding (held : Bool) (due : Nat) : State :=
  (loaded.setOp 3 ⟨0, 0x56, 0x1000, [2], 3, 0, [(0, 5, false)], [], [], 0, held, due⟩).modGroup 0 fun g => g.mapLanes fun l e =>
    { e with
      q := ⟨5, false, .op 3⟩ :: e.q
      n := updAt (fun r => { r with nxt := some ⟨5, false, .op 3⟩ }) 4 e.n
      status := if l = 1 then .exited else e.status }

theorem witness_CompletionResults : ∀ e ∈ [(true, 0, true), (false, 1, true), (false, 0, false)], let s := outstanding e.1 e.2.1
    (s.op? 3).any (fun o => decide (o.held = true ∨ s.cycle < o.due) == e.2.2 && o.fp == [] && (s.group? o.group).any fun g => g.lanes.length == 32 &&
      (g.lane 0).status == .active && (g.lane 1).status == .exited && ((g.lane 0).n[4]?).any fun r => (r.nxt).any fun n => n.avail == .op 3) = true := by
  decide +kernel

/-- Group 0 with its slices and lanes changed. -/
def grouped (f : Slice → Slice) (h : Nat → Lane → Lane) (cycle : Nat := 0) : State :=
  { loaded.modGroup 0 (fun g => { (g.mapLanes h) with slices := g.slices.map f }) with cycle := cycle }
def streamB (s : State) (slice : Nat) (p : Group → Stream → Launch → Bool) : Bool :=
  (s.group? 0).any fun g => (g.streamOf slice).any fun st => (s.launchOf g.team).any fun l => g.lanes.length == 32 && s.mayIssue g.team && p g st l
def xlateB (s : State) (t va : Nat) (acc : Acc) (ok : Bool) : Bool := match s.xlate t va acc with
  | .ok _ _ _ _ => ok
  | .pageFault => !ok
  | _ => false

def endedB (e : Nat × Bool) (s : State) : Bool := match s.laneIn 0 31 with
  | x => x.status == .waiting && x.wait.kind == .twait && decide (x.wait.obj.toNat ≤ s.ns) == e.2 && x.restop == false &&
    x.park == ⟨false, false, false⟩

/-- A slot of group 0 may issue for a sweep of a slice, with a line in it. -/
def sweepReady (v s : State) (g : Group) (slice : Nat) (st : Stream) (b : LineBuf) : Bool :=
  let w := b.slot (st.pc.toNat % 8)
  g.distOk st.mask w s.cycle && g.flagsOk w && v.pipeFree 0 [slice] w && !v.slotHolds 0 st.mask st.pc w

theorem witness_SequencerResults :
    -- a line to fetch, whose page is present or not
    streamB (grouped (fun c => { c with line := none }) fun _ e => e) 7 (fun g st l => g.lineFor st == none &&
      xlateB (grouped (fun c => { c with line := none }) fun _ e => e) l.tenant (lineOf st.pc) .fetch true) = true ∧
    streamB (grouped (fun c => { c with line := none }) fun _ e => { e with pc := 0x80000000 }) 0 (fun g st l => g.lineFor st == none &&
      xlateB loaded l.tenant (lineOf st.pc) .fetch false) = true ∧
    -- ageing, the holds and the yields, before and at their ends
    streamB (grouped id (fun _ e => e) 30) 0 (fun g st _ => (grouped id (fun _ e => e) 30).eligible 0 g st && g.lastIssue st.mask == 0 + 1) = true ∧
    (30 < 1 + 31 ∧ 1 + 31 ≤ 32) ∧
    (∀ e ∈ [(255, false), (256, true)], streamB (grouped (fun c => { c with hold := some 0 }) (fun _ e => e) e.1) 3 (fun g _ _ =>
      (g.slices.getD 3 Slice.fresh).hold == some 0 && decide (0 + 256 ≤ e.1) == e.2) = true) ∧
    -- a sweep that is due: lanes 1 to 3 stand above lane 0
    (let s := grouped (fun c => { c with count := 4096, line := none }) fun l e => if l % 4 = 0 then { e with issued := 0 } else { e with pc := 0x1001, issued := 0 }
     streamB s 2 (fun g _ l => (g.sweep 2).any fun st => g.sweepDue 2 && s.stops g st == [] && !(s.granted 0 (quarterOf 0)).contains 2 &&
       g.lineFor st == none && (match State.xlate { s.modCore 0 (fun k => { k with fetched := k.fetched.put (quarterOf 0) (s.cycle, 1) }) with
           cur := .engine 0 } l.tenant (lineOf st.pc) .fetch with
       | .ok u pa _ _ =>
         let b := u.lineAt (lineOf st.pc) pa
         let u := { u with cur := s.cur }
         -- whether its check finds an error that does not last, or none
         !b.bad && [false, true].all fun t => sweepReady ((if t then u.count 1 false (coreReg 0) else u).modGroup 0 fun g => { g with
           slices := (withIdx g.slices).map fun e => if e.1 == 2 then { e.2 with line := some b } else e.2 }) s g 2 st b
       | _ => false)) = true ∧
     -- and one whose line its slice has
     (let s := s.modGroup 0 fun g => { g with slices := g.slices.map fun c => { c with line := some (s.lineAt (lineOf 0x1000) 0x1000) } }
      streamB s 2 (fun g _ _ => (g.sweep 2).any fun st => (g.lineFor st).any fun b => g.sweepDue 2 && s.stops g st == [] && sweepReady s s g 2 st b) = true)) ∧
    -- two lines of the quarter are fetched
    ((loaded.modCore 0 fun k => { k with fetched := [(0, 0, 2)] }).core 0).fetched.get? (quarterOf 0) = some (0, 2) ∧
    -- the end of a twait and a breakpoint
    (∀ e ∈ [((0 : Nat), true), (1, false)], endedB e (grouped id fun _ x =>
      { x with status := .waiting, wait := ⟨.twait, word e.1, 0, 0, 0, 0⟩ }) = true) ∧
    (let s := loaded.modTeam (indexKey 0 0) fun t => { t with dctl := word (2 ^ 27), bps := [0, 0, 0, 0x1000] }
     streamB s 1 (fun g st _ => (s.stops g st).contains 5) = true) := by decide +kernel

def chunkB (s : State) (c : Cmd) (p : State → Cmd → Bool) (q : Bool := false) : Bool := match s.cmdChunk 0 c with
  | .ok u d => p u d
  | .fail _ _ => q

/-- A tensor of f32, 64 by 32, described at 0x100, and an epilogue descriptor at 0x180 that stores f32 to the scratchpad. -/
def described (s : State) : State :=
  { s with mem := { s.mem with bytes := s.mem.bytes.writeN 0x100 (wordsBytes [word (14 * 2 ^ 48 + 0x4000), word (32 * 2 ^ 32 + 64), 256]) } }
def epiWords : List Word := [word (2 ^ 30 + 14 * 2 ^ 25), 0, 0, 0, word (256 * 2 ^ 32), 0, 0, 0, 0, 0, 0, 0, 0, 0, 0, 0]
def atLehr (row : Nat) (busy forced : Bool) : State := cored (fun c => { c with
  ncl := 1
  head := 1
  ring := updAt (fun t => { t with epi := some { anEpi with desc := 0x180 } }) 0 c.ring
  lehr := { Lehr.idle with busy := busy, row := row, desc := if busy then epiWords ++ List.replicate 16 0 else [], forced := forced } })
    { whole with mem := { whole.mem with bytes := whole.mem.bytes.writeN 0x180 (wordsBytes epiWords) } }

theorem witness_EngineSteps :
    whole.coreRuns 0 = true ∧
    -- Punty: a command answered with Protection, a descriptor to read, a chunk with more to come, the last, and one that fails
    (let c : Cmd := { aCmd with forced := true }
     let s := cored (fun k => { k with punty := [c], tags := updAt (fun t => { t with pend := 1, ready := false }) 0 k.tags }) whole
     (s.core 0).punty = [c] ∧ c.fid = none ∧ c.marver = false ∧ ((s.core 0).tags[0]?).any (fun g => g.pend == 1 && g.err == false && g.told == false) = true) ∧
    (let c : Cmd := { aCmd with opc := 0xC0, ua := 0x100 }
     c.tensor = true ∧ c.desc = [] ∧ c.forced = false ∧ okB (whole.devRead (whole.tenantOf c.team) c.ua.toNat 64) (fun v => v.2 == false) = true) ∧
    (let c : Cmd := { aCmd with opc := 0xC0, desc := [word (14 * 2 ^ 48 + 0x4000), word (32 * 2 ^ 32 + 64), 256, 0, 0, 0, 0, 0], sums := List.replicate 192 (some 0) }
     chunkB whole c (fun _ d => decide (d.chunk + 1 < d.chunks)) = true) ∧
    (let c : Cmd := { aCmd with opc := 0xCE, ua := 0x1000, ub := 0, uc := 16 }
     c.tensor = false ∧ chunkB whole c (fun _ d => decide (d.chunks ≤ d.chunk + 1)) = true ∧
     chunkB whole { c with ua := 0x80000000 } (fun _ _ => false) true = true) ∧
    -- Lehr: forced, the descriptors readable and well-formed or not, the first row and the last
    (∀ e ∈ [(0, false, true), (0, false, false), (0, true, false), (31, true, false)], let s := atLehr e.1 e.2.1 e.2.2
      let k := s.core 0
      (k.owner == some (indexKey 0 0) && (k.tile k.tail).epi == some { anEpi with desc := 0x180 } && k.lehrReady && k.lehr.busy == e.2.1 &&
        k.lehr.forced == e.2.2 && okB (s.lehrRead (s.tenantOf (indexKey 0 0)) { anEpi with desc := 0x180 }) (fun w => w.isSome) &&
        okB (s.lehrRead (s.tenantOf (indexKey 0 0)) { anEpi with desc := 0x100 }) (fun w => w.isNone) &&
        (epiOf epiWords).any fun d => d.dsp && d.red == 0 && okB (s.epiValues (indexKey 0 0) d none (k.tile k.tail) e.1) (fun v =>
          (s.epiPut 0 (indexKey 0 0) 1 (bits (d.word 4) 18 0 + bits (d.word 4) 50 32 * e.1)
            (outRow ⟨d.ofmt, 0, 64, 32, 0⟩ d.sat e.1 0 (v.map fun a => (fmtF32.read false a.1, a.2))).1).2.isNone)) = true) := by
  decide +kernel

/-- A card at 0x400 whose source at 0x5000 is a stored block of the bytes AA BB CC. -/
def zipWords : List Word := [0x5000, word (64 * 2 ^ 32 + 8), 0x6000, 0, 0, 0, 0x8000, 0]
def zipped (j : Job) : State :=
  let s := carded 0 [j] []
  { s with mem := { s.mem with bytes := (s.mem.bytes.writeN 0x400 (wordsBytes zipWords)).writeN 0x5000 [1, 3, 0, 0xFC, 0xFF, 0xAA, 0xBB, 0xCC] } }
def zipB (d : Zip) (p : State → Job → Bool) : Bool := match d with
  | .ok u j => p u j
  | _ => false

theorem witness_EngineSteps_cullet :
    (let j := aJob 0x400 none
     let s := zipped j
     (s.cullet 0).queue = [j] ∧ (s.cullet 0).parked = [] ∧ j.fid = none ∧ j.started = false ∧ j.accepted = true ∧ j.area = none ∧
       okB (s.tenRead 0 0x400 32) (fun a => a.all fun y => !y.2) = true ∧ okB (s.tenRead 0 0x430 16) (fun a => a.all fun y => !y.2) = true ∧
       ({ j with words := zipWords } : Job).malformed = false ∧ ({ j with words := updAt (fun _ => 0) 1 zipWords } : Job).malformed = true ∧
       okB (s.putCard { j with words := zipWords } 2 0) = true) ∧
    (∀ e ∈ [(0, 3), (3, 0)], let j := { aJob 0x400 none with started := true, words := zipWords, written := e.1, out := List.replicate e.1 0xAA, zst := if e.1 = 0 then .header else .finished }
     zipB (State.decodeTo (j.written + (4096 - (j.dst + j.written) % 4096)) (8 * j.slen + 2) (zipped j) j) (fun u d =>
       min (d.out.length - d.written) (4096 - (j.dst + j.written) % 4096) == e.2 && okB (u.devMap 0 (d.dst + d.written) 3 .write)) = true) := by
  decide +kernel

/-! ### Witnesses: distributors, retirement, containment -/

def launching (gang : Nat) : State := loaded.setLaunch 5 { plainLaunch with
  words := updAt (fun _ => word (3 * 2 ^ 38 + gang * 2 ^ 36 + 100)) 1 (updAt (fun _ => 0) 2 plainRecord), next := 36, serial := 9 }

theorem witness_DistributorSteps :
    (let s := launching 0
     (s.launch? 5).any (fun l => (s.work.gaffer != none) && s.work.election == false && s.wantsRange 5 l 7 && l.returned == none &&
       s.work.launches.all fun e => e.1 == 5 || !(e.2.before l) || !(s.wantsRange e.1 e.2 7)) = true) ∧
    (let s := (launching 2).modLaunch 5 fun l => { l with ranges := [(3, 8, 72)] }
     (s.launch? 5).any (fun l => l.nextGang 3 == some 2 && (s.fits 5 l 3).isSome) = true) ∧
    (∀ n ∈ [3, 4], let s := loaded.modTeam (indexKey 0 0) fun t => { t with released := false, binding := n }
     (s.team? (indexKey 0 0)).any (fun t => s.coreRuns t.core && !t.released && !s.binds (indexKey 0 0) t.core && (s.bar (indexKey 0 0) 15).phase == 0 &&
       (s.launch? t.launch).any fun l => !l.bindOn 3) = true) ∧
    (let s := (loaded.modTeam (indexKey 0 0) fun t => { t with released := false }).modLaunch 0 fun l => { l with words := updAt (fun _ => word (2 ^ 53)) 16 l.words }
     (s.launch? 0).any (fun l => l.bindOn 0 && decide ((s.core 0).punty.length < 32)) = true) ∧
    (let s := (loaded.modTeam (indexKey 0 0) fun t => { t with released := false }).setBar (indexKey 0 0) 15 ⟨false, 0, 1, none⟩
     (s.bar (indexKey 0 0) 15).phase ≠ 0 ∧ (s.launch? 0).any (fun l => decide (l.startTime ≤ s.ns)) = true) ∧
    -- a gang that is not dying, and one that is
    (loaded.team? (indexKey 0 0)).any (fun t => (loaded.launch? t.launch).any fun l => !loaded.dying t.launch (t.idx / l.gangSize) && loaded.coreRuns t.core) = true ∧
    (let s := { loaded with work := { loaded.work with kills := [⟨0, 0, 7, 1, 0, 0x1000, 0, []⟩] } }
     (s.team? (indexKey 0 0)).any fun t => (s.launch? t.launch).any fun l => s.dying t.launch (t.idx / l.gangSize) && s.coreRuns t.core) = true := by decide +kernel

/-- A pool team: its ranges, spilled records, one bin, and a record at 0x6000 whose PC is a target or not. -/
def pooling (ranges : List (Nat × Nat)) (wr : Nat) (recs : List ContRec) (flushed : Bool) (pc : Word) : State :=
  let s := (pooled.modLaunch 0 fun l => { l with
    words := updAt (fun _ => 0x6000) 16 (updAt (fun _ => 70) 17 (updAt (fun _ => 0x6000) 18 (updAt (fun _ => 16) 19 l.words))) }).modTeam (indexKey 0 0) fun t =>
      { t with pool := some ⟨⟨0x1000, recs, 0, flushed⟩ :: List.replicate 15 Bin.empty, 0, wr, ranges, []⟩ }
  { s with mem := { s.mem with bytes := s.mem.bytes.writeN 0x6000 (wordsBytes [pc, 0, 0, 0, 7]) } }
def aRec : ContRec := ⟨0x1000, List.replicate 8 0, 0, List.replicate 16 false⟩
/-- A record waits for its page of the spill area, which is there, or has a splinter at work on its leaf. -/
def spilling (splinter : Bool) : State :=
  let s := (pooling [] 0 [] false 0x1000).modTeam (indexKey 0 0) fun t => { t with pool := t.pool.map fun p => { p with held := [aRec] } }
  if splinter then
    let s := s.setPhysWord 0x11000 (word (leafWord 0 0 + 2 ^ 55))
    { s with mem := { s.mem with spl := [(0x11000, ⟨word (leafWord 0 0), 30, 0, 0, false, none⟩)] } }
  else s

theorem witness_DistributorSteps_spill :
    ((spilling false).team? (indexKey 0 0)).any (fun t => t.pool.any fun p => p.held == [aRec] && (spilling false).coreRuns t.core) = true ∧
    (spilling false).spillReady (indexKey 0 0) = true ∧ (spilling true).spillReady (indexKey 0 0) = false ∧
    ((spilling false).launch? 0).any (fun l => match (spilling false).devPutWords l.tenant (spillAddr l 0 0) aRec.words aRec.psn with
      | .ok _ _ => true
      | _ => false) = true := by decide +kernel

theorem witness_DistributorSteps_pool :
    (∀ e ∈ [(0, true), (70, false)], let s := (pooling [] 0 [] false 0x1000).modLaunch 0 fun l => { l with poolNext := e.1 }
      (s.launch? 0).any (fun l => decide (min 64 (l.poolCnt - l.poolNext) ≠ 0) == e.2) = true) ∧
    (∀ e ∈ [((0x1000 : Nat), true), (0x1005, false)], let s := pooling [(0, 1)] 0 [] false (word e.1)
      okB (s.readRecord 0 0x6000) (fun r => r.2.getD 0 false == false && (s.target 0 (ContRec.ofWords r.1 r.2).pc).1 == e.2) = true ∧
        ((s.team? (indexKey 0 0)).bind fun t => t.pool).any (fun p => p.ranges == [(0, 1)]) = true ∧ (s.binTake (indexKey 0 0) aRec).isSome = true) ∧
    (let s := pooling [] 1 [] false 0x1000
     ((s.team? (indexKey 0 0)).bind fun t => t.pool).any (fun p => decide (p.spillRd < p.spillWr) && s.emptyBin 0 && p.held == []) = true ∧
       (s.launch? 0).any (fun l => okB (s.readRecord 0 (spillAddr l 0 0)) fun r => r.2.getD 0 false == false &&
         (s.target 0 (ContRec.ofWords r.1 r.2).pc).1) = true) ∧
    (∀ e ∈ [(1, true), (32, false)], let s := pooling [] 0 (List.replicate e.1 aRec) e.2 0x1000
      (s.team? (indexKey 0 0)).any (fun t => t.released && (t.pool).any fun p => (p.bins.getD 0 Bin.empty).flushed == e.2 &&
        (p.bins.getD 0 Bin.empty).recs.length == e.1) = true ∧
        (List.range 16).find? (fun i => !((s.groupsOf (indexKey 0 0)).map fun e => e.2.gid).contains i) = some 1 ∧ s.freeSlot 0 ≠ none) := by decide +kernel

/-- Group 0 retires, or its team is left without it. -/
def ending : State := loaded.modGroup 0 fun g => { g with stage := .retiring }
def alone : State := loaded.removeGroup 0

/-- The retiring group holds a lock at 0x100, on whose leaf, and that of the completion record, a splinter works. -/
def conveying : State :=
  let s := (ending.modEstate 0 fun e => { e with entries := [⟨false, 0, 0, 1, 0x100, 1, 0⟩] }).setPhysWord 0x11000 (word (leafWord 0 0 + 2 ^ 55))
  { s with mem := { s.mem with spl := [(0x11000, ⟨word (leafWord 0 0), 30, 0, 0, false, none⟩)] } }

theorem witness_RetirementSteps :
    ((ending.group? (groupKey 0 0)).any (fun g => g.ending && ending.coreRuns 0 && g.flags.all (· == 0) && (ending.team? g.team).isSome &&
      (((List.range 32).foldl (fun s l => State.drainWcb s 0 l) ending).convey ⟨0, g.killed, false⟩).2)) = true ∧
    ((conveying.group? (groupKey 0 0)).any (fun g => g.ending && conveying.coreRuns 0 && g.flags.all (· == 0) && (conveying.team? g.team).isSome &&
      !(((List.range 32).foldl (fun s l => State.drainWcb s 0 l) conveying).convey ⟨0, g.killed, false⟩).2)) = true ∧
    ((loaded.group? (groupKey 0 0)).any fun g => g.stage != .retiring && g.stage != .conveying) = true ∧
    ((ending.modGroup 0 fun g => { g with flags := updAt (fun _ => 1) 11 g.flags }).group? 0).any (fun g => g.flags.any (· != 0)) = true ∧
    alone.retires (indexKey 0 0) = true ∧ loaded.retires (indexKey 0 0) = false ∧ (alone.team? (indexKey 0 0)).isSome = true ∧
    (let s := { loaded with work := { loaded.work with teams := [], groups := [] } }
     let t := s.modLaunch 0 fun l => { l with tdone := 1 }
     (t.launch? 0).any (fun l => t.completes 0 l && okB (t.devMap l.tenant l.compl 64 .write) && !t.reportWaits l) = true ∧
       (loaded.launch? 0).any (fun l => loaded.completes 0 l == false) = true) ∧
    (conveying.launch? 0).any (fun l => conveying.reportWaits l) = true := by decide +kernel

/-- A kill of gang 0 requested, or in progress. -/
def aKill : Kill := ⟨0, 0, 7, 1, 0, 0x1000, 0, []⟩
def killed (begun idem : Bool) : State :=
  let s := word1 (if idem then 2 ^ 42 else 0) loaded
  if begun then { s with work := { s.work with killing := [⟨aKill, 0, 0, 0, 0, 0⟩] } } else { s with work := { s.work with starting := [aKill] } }
/-- The killed group holds a lock on whose leaf a splinter works; Cullet still has a job of its team. -/
def blockedKill : State :=
  let s := ((killed true false).modEstate 0 fun e => { e with entries := [⟨false, 0, 0, 1, 0x100, 1, 0⟩] }).setPhysWord 0x11000 (word (leafWord 0 0 + 2 ^ 55))
  { s with mem := { s.mem with spl := [(0x11000, ⟨word (leafWord 0 0), 30, 0, 0, false, none⟩)] } }
def busyKill : State := { killed true false with eng := { loaded.eng with cullets := updAt (fun _ => ⟨[aJob 0x400 none], []⟩) 0 loaded.eng.cullets } }
def attempted (idem : Bool) (n : Nat) : State :=
  let s := killed true idem
  { s with work := { s.work with gangs := s.work.gangs.map fun (g : Nat × Gang) => (g.1, { g.2 with attempt := n }) } }
def faulted (parked : Bool) : State :=
  let s := (loaded.post ⟨0, 0x80000000, 0, 0, 0, 0, 0, 0, 0, 0, none, 0⟩ (.lanes 0 3 0x90 []) 0).1
  s.modGroup 0 fun g => g.mapLanes fun l e => if l < 2 && parked then { e with status := .parked, park := { e.park with page := true }, fid := 0 } else e

theorem witness_ContainmentSteps :
    ((killed false false).work.starting.find? (fun k => k.of 0 0) = some aKill ∧ ((killed false false).gang? 0).isSome = true ∧ ((killed false false).launch? (0 / 2 ^ 32)).isSome = true) ∧
    (∀ e ∈ [(true, 0), (false, 0), (true, 2)], let s := attempted e.1 e.2
      s.work.starting.find? (fun k => k.of 0 0) = none ∧ s.work.killing.find? (fun k => k.kill.of 0 0) = some ⟨aKill, 0, 0, 0, 0, 0⟩ ∧
        (s.launch? 0).any (fun l => l.idem == e.1 && ((s.teamsOfGang 0 0 l.gangSize).all fun t => s.enginesDone t.1 t.2 && !s.work.fenced.contains (dieOf t.2.core)) &&
          (State.killConvey ⟨aKill, 0, 0, 0, 0, 0⟩ false (l.idem && e.2 < 2) (s.gangGroups 0 0 l.gangSize) s).2) = true ∧
        ((s.gang? 0).map Gang.attempt) = some e.2) ∧
    -- an engine at work, a conveyance that waits, a fenced die
    (busyKill.launch? 0).any (fun l => (busyKill.teamsOfGang 0 0 l.gangSize).any fun t => !busyKill.enginesDone t.1 t.2) = true ∧
    (blockedKill.launch? 0).any (fun l => ((blockedKill.teamsOfGang 0 0 l.gangSize).all fun t => blockedKill.enginesDone t.1 t.2) &&
      !(State.killConvey ⟨aKill, 0, 0, 0, 0, 0⟩ false false (blockedKill.gangGroups 0 0 l.gangSize) blockedKill).2) = true ∧
    (let s := { killed true false with work := { (killed true false).work with fenced := [0], groups := [] } }
     (s.launch? 0).any fun l => ((s.teamsOfGang 0 0 l.gangSize).all fun t => s.enginesDone t.1 t.2 && s.work.fenced.contains (dieOf t.2.core)) &&
       (State.killConvey ⟨aKill, 0, 0, 0, 0, 0⟩ true false (s.gangGroups 0 0 l.gangSize) s).2) = true ∧
    (onCore 0 = true ∧ (loaded.group? (groupKey 0 0)).any (fun g => g.lanes.length == 32) = true ∧ loaded.group? (groupKey 0 47) = none) ∧
    ((faulted true).admin.faults.find? (fun r => r.fid == 0)).any (fun r => !r.ofPort && !r.ofAts && !(faulted true).kept r && r.who == .lanes 0 3 0x90 []) = true ∧
    -- records that no answer settles: of the host, and of an ATS request
    ((loaded.post { acc := 4 } .host 0).1.admin.faults.head?).any (fun r => r.ofAts && !r.ofPort) = true ∧
    ((loaded.post { pc := word (2 ^ 64 - 1) } .host 0).1.admin.faults.head?).any (fun r => r.ofPort && !r.ofAts) = true ∧
    (faulted true).admin.faults.find? (fun r => r.fid == 4095) = none ∧ (0 : BitVec 2) ≠ 3 ∧
    (7 < 8 ∧ 7 ∉ loaded.work.fenced) ∧
    (let s := { loaded with work := { loaded.work with election := true, fenced := [0, 1] } }
     s.work.election = true ∧ 2 < 8 ∧ 2 ∉ s.work.fenced ∧ ∀ e, e < 2 → e ∈ s.work.fenced) ∧
    (let s := { loaded with admin := { loaded.admin with partitions := [⟨0, 1, 0, 0, 0, false, false, none, 0, false⟩] } }
     (s.partition? 0 1).isSome = true) := by decide +kernel

/-! ### Witnesses: network, frames, host -/

def aMailbox (lnch : Bool) : Mailbox :=
  ⟨[word (2 ^ 63 + b2n lnch * 2 ^ 62 + 2 * 2 ^ 56 + 3 * 2 ^ 48 + 77), 0xAB, 0, word (128 * 2 ^ 56 + 5 * 2 ^ 12 + 7), 0x7000, word (2 ^ 48 + 0x7000), 3, 0], 1000000, 0, []⟩
def netted (lnch : Bool) (busy : List Nat) (pi : Nat) : State :=
  let s := (connected [] 1).modTenant 0 fun t => { t with mailboxes := [(4, { aMailbox lnch with busy := busy })] }
  s.modQueue 7 fun q => { q with en := true, devq := true, log2n := 4, base := 0x9000, tenant := 0, ci := 0, pi := pi }

/-- A packet of a message of module 3. -/
def aHead : NetHead := ⟨77, 3, 1, 0, .rud, false, false⟩
def prots {α : Type} (d : Dev α) : Bool := match d with
  | .prot => true
  | _ => false
/-- The third GiB lies in the trusted base. -/
def barred : State := (netted false [] 0).setPhysWord 0x11010 (word (leafWord 0x30000000 0))

theorem witness_NetworkArrivals_refused : prots (barred.devWrite 0 0x80000000 [1, 2]) = true ∧ prots (barred.devRead 0 0x80000000 16) = true ∧
    (barred.tenantByKey 77).any (fun e => e.1 == 0) = true := by decide +kernel

/-- Heads that are trimmed, unsupported, of another mode, or plain; a copy that has been dealt with; the packets of a put. -/
theorem witness_NetworkArrivals_heads :
    let s := netted false [] 0
    (∀ h ∈ [({ aHead with trimmed := true } : NetHead), { aHead with unsupported := true }, { aHead with mode := .rod }, { aHead with mode := .uud },
        { aHead with mode := .rudi }], h.trimmed = true ∨ h.unsupported = true ∨ h.mode ≠ .rud) ∧
    (aHead.trimmed = false ∧ aHead.unsupported = false ∧ aHead.mode = .rud) ∧ s.eng.dealt = [] ∧
    (({ s with eng := { s.eng with dealt := [⟨77, 3, 1, 0, .noCredit 77 4⟩] } } : State).eng.dealt.find? (fun e =>
      e.jobKey == aHead.jobKey && e.peer == aHead.peer && e.msg == aHead.msg && e.packet == aHead.packet)).isSome = true ∧
    s.ownsCounter 0 6 = false ∧ (77, 3, 1) ∉ s.eng.paid ∧ (77, 3, 1) ∈ ({ s with eng := { s.eng with paid := [(77, 3, 1)] } } : State).eng.paid := by
  refine ⟨?_, ?_, ?_, ?_, ?_, ?_, ?_⟩ <;> decide +kernel

/-- Of a message of three packets as many have come as told. -/
def partly (n : Nat) : State :=
  let s := netted false [] 0
  { s with eng := { s.eng with frags := (List.range n).map fun i => ⟨77, 3, 1, i + 1, [(7, false)]⟩ } }
/-- A step that is over, in which this module's connection 9 leads to its peer, and one that is not known. -/
def stepped (posts : Nat) : State :=
  let s := netted false [] 0
  { s with eng := { s.eng with redPosts := s.eng.redPosts.put 3 posts } }
/-- The connection of command 0 without a live path. -/
def pathless : State := (netted false [] 0).modConn 9 fun c => { c with live := [] }

theorem witness_NetworkArrivals_packets :
    -- answers of which a packet is asked for again, with a live path and without; answers that are refused, of an error, of a part, of the whole
    (((netted false [] 0).nx? 0).any (fun c => c.kept.isNone && c.handle == 9) = true ∧ ((netted false [] 0).conn? 9).any (fun d => d.live == [0, 1]) = true ∧
      (pathless.conn? 9).any (fun d => d.live == []) = true ∧ (pathless.nx? 0).isSome = true) ∧
    (∀ a ∈ [({ code := 0, data := [], trimmed := true } : NetAnswer), { code := 0, data := [], unsupported := true }], a.again = false ∧
      (a.trimmed = true ∨ a.unsupported = true ∨ 4096 < a.data.length)) ∧
    (let a : NetAnswer := { code := 0, data := [1], packet := 1, total := 3 }
     a.again = false ∧ a.code = 0 ∧ ((a.packet, a.data) :: ([] : List (Nat × List Byte))).length < a.total ∧
       a.total ≤ ((a.packet, a.data) :: ([(0, [2]), (2, [3])] : List (Nat × List Byte)).filter fun p => p.1 != a.packet).length) ∧
    -- packets of a message that is not complete, and the last
    (∀ n ∈ [0, 1, 2], let k := (partly n).eng.frags.filter fun f => f.jobKey == aHead.jobKey && f.peer == aHead.peer && f.msg == aHead.msg
      k.length = n ∧ (n ≠ 2 → k.length + 1 < 3) ∧ (n = 2 → 3 ≤ k.length + 1)) ∧
    -- a step that is over, with the connection its partial came over, and one that is not
    ((stepped 1).red? 0 3 0 = none ∧ (stepped 1).redOver 0 3 0 = true ∧ (stepped 1).cameFrom aHead = some 9 ∧ (stepped 0).redOver 0 3 0 = false ∧
      (stepped 0).red? 0 3 0 = none) ∧
    -- an idempotent write in the mode for writes of any order
    ({ aHead with mode := .rudi } : NetHead).trimmed = false := by
  refine ⟨?_, ?_, ?_, ?_, ?_, ?_⟩ <;> decide +kernel

/-- The reduction store is full. -/
theorem witness_NetworkArrivals_store : ∃ s : State, 2 ^ 24 < s.redStore + 8 ∧ (s.tenantByKey 77).any (fun e => e.1 == 0) = true := by
  obtain ⟨vs, hv⟩ : ∃ vs : List RedVal, vs.length = 2 ^ 21 := ⟨List.replicate _ (0, false), List.length_replicate⟩
  refine ⟨{ netted false [] 0 with eng := { (netted false [] 0).eng with
    reds := [{ RedStep.named 0 3 0 with held := [⟨aHead, 3, 0, 1, 15, 0, 0, 1, 1, false, vs, 1⟩] }] } }, ?_, (by decide +kernel : ((netted false [] 0).tenantByKey 77).any (fun e => e.1 == 0) = true)⟩
  simp only [State.redStore, List.flatMap_cons, List.flatMap_nil, List.map_cons, List.map_nil, List.append_nil, hv, List.sum_cons, List.sum_nil]
  decide

theorem witness_NetworkArrivals :
    let s := netted false [] 0
    ((s.nx? 0).any (fun c => c.sent && c.answer.isNone && c.opc != 0xDD && c.fid.isNone && !c.forced && s.away c.team == false && c.opc == 0xDA &&
      okB (s.cpTenant c.tenant c.ua.toNat c.len .write)) = true ∧ (aGet 0xD9).opc ≠ 0xDA) ∧
    s.tenantByKey 76 = none ∧ (s.tenantByKey 77).any (fun e => e.1 == 0) = true ∧ s.ownsCounter 0 5 = true ∧
    okB (s.devWrite 0 0x2000 [1, 2]) = true ∧ okB (s.devRead 0 0x2000 16) = true ∧
    -- a ring mailbox, its slot free or taken
    (let b := aMailbox false
     b.lnch = false ∧ b.admits 77 0xAB = true ∧ 192 + 64 ≤ b.slotBytes ∧ okB (s.devRead 0 b.slotAddr 8) (fun w => !(leNat w.1).testBit 63) = true ∧
       okB ((s.setPhysWord b.slotAddr (word (2 ^ 63))).devRead 0 b.slotAddr 8) (fun w => (leNat w.1).testBit 63) = true ∧
       okB (s.devWrite 0 b.slotAddr (List.replicate 256 1)) = true) ∧
    -- a launching mailbox: admitted or not, with and without a token, its slot busy, its queue full, room for both
    (let b := aMailbox true
     b.valid = true ∧ b.lnch = true ∧ 256 ≤ b.slotBytes ∧ b.admits 77 0xAC = false ∧ ({ b with tokens := 999999 } : Mailbox).filled 0 < 1000000 ∧
       b.admits 77 0xAB = true ∧ 1000000 ≤ b.filled 0 ∧ b.head ∈ ({ b with busy := [3] } : Mailbox).busy ∧ ((netted true [] 16).queue 7).full = true ∧
       b.head ∉ b.busy ∧ ((netted true [] 0).queue 7).full = false ∧ ((netted true [] 0).queue 7).devq = true ∧ ((netted true [] 0).queue 7).tenant = 0 ∧
       okB ((netted true [] 0).devWrite 0 b.slotAddr [1]) = true ∧ okB ((netted true [] 0).devWrite 0 0x9000 (List.replicate 64 1)) = true) ∧
    -- an atomic on a page that admits it, on a WCB page, on poison
    (okB (s.devMap 0 0x2004 4 .rmw) (fun ps => (ps.head?).any fun p => p.2.2 == 0) = true ∧
      okB (s.devMap 0 0x40002000 8 .rmw) (fun ps => (ps.head?).any fun p => p.2.2 == 3) = true ∧ s.physPsn 0x2004 4 = false ∧
      ({ s with mem := { s.mem with psn := [0x2000 / 8] } } : State).physPsn 0x2000 8 = true) ∧
    -- a partial of a step that is known or not; an abort
    (let m : NetPartial := ⟨aHead, 3, 0, 1, 14, 0, 0, 1, 1, false, [(5, false)], 1⟩
     s.redStore + m.values.length * (typeWidth m.type.toNat / 8) ≤ 2 ^ 24 ∧ s.red? 0 3 0 = none ∧ (s.eng.redPosts.get? 3).getD 0 ≤ 0 ∧
       (({ s with eng := { s.eng with reds := [RedStep.named 0 3 0] } } : State).red? 0 3 0).isSome = true) := by decide +kernel

def pathed (live : List Nat) (timeouts : Sparse Nat) (dead : Option Nat) (ns : Nat) : State :=
  let s := netted false [] 0
  { s with time := ns * 851968, eng := { s.eng with portsUp := 255, conns := [(9, { aConn with live := live, timeouts := timeouts, dead := dead })] } }

/-- Every port is up and enabled, whichever the path takes. -/
theorem witness_PathConnectionSteps_up : (pathed [0] [] (some 0) 0).pathUp 9 1 = true := by
  have h : ∀ i : Fin 8, ((pathed [0] [] (some 0) 0).eng.portsUp.getLsbD i.val &&
    (pathed [0] [] (some 0) 0).sec.ezwell.ports.getLsbD i.val) = true := by decide +kernel
  exact h _

theorem witness_PathConnectionSteps :
    (∀ e ∈ [([0, 1], [], 1), ([0], [(0, 2)], 3), ([0, 1], [(0, 2)], 3)], let s := pathed e.1 e.2.1 none 0
      (s.conn? 9).any (fun c => c.live.contains 0 && (c.timeouts.get? 0).getD 0 + 1 == e.2.2) = true) ∧
    (((pathed [0] [] (some 0) 0).conn? 9).any (fun c => decide (1 < c.paths) && !c.live.contains 1) = true) ∧
    (∀ e ∈ [(499999999, false), (500000000, true)], let s := pathed [] [] (some 0) e.1
      (s.conn? 9).any (fun c => c.dead == some 0 && c.failed == false && decide (0 + 500000000 ≤ s.ns) == e.2) = true) ∧
    (let s := netted false [] 0
     s.conn? 65535 = none ∧ (s.tenant? 0).isSome = true ∧ 65535 < 2 ^ 16 ∧ (s.conn? 9).isSome = true ∧ (s.nx? 0).any (fun n => n.handle == 9 && n.opc != 0xDD && n.kept.isNone && s.away n.team == false) = true ∧
       ({ s with work := { s.work with teams := s.work.teams.map fun t => (t.1, { t.2 with core := 600 }) } } : State).away (indexKey 0 0) = true) := by
  decide +kernel

/-- The leaf of page 0 is at 0x11000; a page table of 4 KiB leaves at 0x13000 maps page 2 MiB to frame 0x20. -/
def framed : State :=
  let s := loaded.modTenant 0 fun t => { t with reserve := [0x30], tablePool := [0x31] }
  (s.setPhysWord 0x13000 (word (leafWord 0x20 0))).setPhysWord 0x13008 (word (leafWord 0x20 1))
def evicted : State :=
  let s := framed.setPhysWord 0x13000 (word (leafWord (2 ^ 28) 0 + 2 ^ 52))
  { s with mem := { s.mem with cmp := [(2 ^ 40, ⟨0, List.replicate 4096 7, [], [0x13000], 0x20, 0⟩)] } }
/-- The pages at 2 GiB and 2 GiB + 4 KiB map frame 0x20; its migration to frame 0x30 has come as far as told. -/
def mapped : State := (framed.setPhysWord 0x11010 (word 0x14001)).setPhysWord 0x14000 (word 0x13001)
def migrating (copied : Option Nat) : State :=
  { mapped with mem := { mapped.mem with migs := [⟨0, 0x20, 0x30, [0x80000000, 0x80001000], copied⟩] } }
def splintering : State :=
  let s := framed.setPhysWord 0x11000 (word (leafWord 0 0 + 2 ^ 55))
  { s with mem := { s.mem with spl := [(0x11000, ⟨word (leafWord 0 0), 30, 0, 0, false, none⟩)] } }

theorem witness_FrameEngineSteps :
    (mapped.takenFrom 0 0x20 = false ∧ mapped.takenFrom 0 0x30 = false ∧ mapped.mem.migs = []) ∧
    -- a migration before its first step, while it copies, at its switch, and while it rewrites the two entries
    (∀ c ∈ [none, some 0, some 63, some 64, some 65, some 66, some 67], let s := migrating c
      (s.mem.migs.find? fun k => k.frame == 0x20).any (fun m => m.frame == 0x20 && m.copied == c && m.target != m.frame) = true ∧
      (s.leavesOf 0 [0x80000000, 0x80001000] fun l => l.covers 0x20).map (fun l => (l.loc, l.mapsFrame 0x20)) = [(0x13000, true), (0x13008, true)] ∧
      s.twins 0x13000 8 = [] ∧ s.twins 0x13008 8 = [] ∧ (s.tenant? 0).isSome = true) ∧
    (∀ e ∈ [(0x80000000, 0x13000), (0x80001000, 0x13008)], (migrating (some 65)).leavesOf 0 [e.1] (fun l => l.covers 0x20) ≠ [] ∧
      ((migrating (some 65)).leavesOf 0 [e.1] fun l => l.covers 0x20).all (fun l => l.loc == e.2 && mapsMoving ((migrating (some 65)).physWord l.loc) 0x20) = true) ∧
    ([0x80000000, 0x80001000][65 - 65]? = some 0x80000000 ∧ [0x80000000, 0x80001000][67 - 65]? = none) ∧
    (2 ^ 40 % 4096 = 0 ∧ mapped.takenFrom 0 (2 ^ 40 / 4096) = false ∧ mapped.mem.cmp.get? (2 ^ 40) = none ∧
      mapped.allLeaves 0 [0x80000000, 0x80001000] (fun l => l.mapsFrame 0x20) = true ∧
      ((mapped.leavesOf 0 [0x80000000, 0x80001000] Leaf.free).head?).any (fun l => bits l.e 51 12 == 0x20 && l.loc % 8 == 0) = true) ∧
    (bit (evicted.physWord 0x13000) 52 = true ∧ bits (evicted.physWord 0x13000) 51 12 * 4096 = 2 ^ 40 ∧
      (evicted.mem.cmp.get? (2 ^ 40)).any (fun c => c.bytes.length == 4096 && c.entries == [0x13000]) = true ∧ evicted.mem.migs = [] ∧ 0x13000 / 4096 ≠ 0x30 ∧
      placed (bits (evicted.physWord 0x13000) 62 60) 0x80000000 0x20 (some 0) 0x30 = true ∧ (evicted.tenant? 0).any (fun o => o.reserve == [0x30]) = true ∧ ((evicted.modTenant 0 fun o => { o with reserve := [] }).tenant? 0).any (fun o => o.reserve == []) = true) ∧
    ((framed.tenant? 0).any (fun o => (framed.leafOf o 0x5000 fun l => l.shift != 12).any fun l =>
        framed.mem.spl.get? l.loc == none && l.shift != 12 && l.loc % 8 == 0) = true ∧ framed.mem.migs = [] ∧ splintering.mem.migs = [] ∧
      (splintering.tenant? 0).any (fun o => (splintering.leafOf o 0x5000 fun l => l.shift != 12).any fun l => (splintering.mem.spl.get? l.loc).any fun p =>
        splintering.physWord l.loc == p.entry ||| word (2 ^ 55) && o.tablePool == [0x31] && p.bad == false && l.loc / 4096 != 0x31 && p.tenant == 0) = true) := by
  decide +kernel

/-- Tenant 0 is the host's; port 0 decodes from 0x100000 on. -/
def hosted : State :=
  let s := loaded.modTenant 0 fun t => { t with host := true, quota := 2 ^ 40, tablePool := [0x31, 0x32] }
  { s with sec := { s.sec with ports := [⟨0x100000, true, true, false, 0⟩, Port.reset] } }
def hostB (s : State) (hpa : Nat) (acc : Acc) (p : State → Nat → Tenant → Nat → Bool) (refused : Bool := false) : Bool := match s.hostAt 0 hpa acc with
  | .ok u n t a => p u n t a
  | .refused _ => refused
  | .outside => false

/-- Tables for the page at 2 GiB, whose leaf is not present. -/
def backless : State := (hosted.setPhysWord 0x11010 (word 0x14001)).setPhysWord 0x14000 (word 0x13001)

theorem writeN_zeros (n : Nat) (m : Mem) (a : Nat) (h : ∀ e ∈ m, e.1 < a ∨ a + n ≤ e.1) : m.writeN a (List.replicate n 0) = m := by
  induction n generalizing a with
  | zero => rfl
  | succ n ih =>
    have : m.write a 0 = m := by
      simp only [Mem.write, unlistedByte, if_true, Sparse.del, List.filter_eq_self]
      intro e he
      have := h e he
      simp only [Bool.not_eq_true', beq_eq_false_iff_ne]
      omega
    rw [List.replicate_succ, Mem.writeN, this]
    exact ih _ fun e he => by have := h e he; omega

theorem physWrite_zeros (s : State) (a n : Nat) (hl : s.mem.lent = []) (hm : s.mem.migs = []) (hu : s.mem.runs = []) (ho : s.mem.orig = [])
    (hq : s.mem.psn = []) (h : ∀ e ∈ s.mem.bytes, e.1 < a ∨ a + n ≤ e.1) :
    s.physWrite a (List.replicate n 0) false = s := by
  have : ∀ l : List Nat, l.foldl (fun l g => if a ≤ 8 * g && 8 * g + 8 ≤ a + n then setIn g false l else l) [] = [] := by
    intro l
    induction l with
    | nil => rfl
    | cons g l ih => simp only [List.foldl_cons, show setIn g false [] = [] from rfl, ite_self, ih]
  have hr : s.recallHost a n = s := by simp [State.recallHost, hl]
  have ht : s.twins a n = [] := by simp [State.twins, hm]
  unfold State.physWrite
  simp only [List.length_replicate, hr, ht, List.foldl_nil]
  unfold State.homeWrite
  simp only [List.length_replicate, writeN_zeros n _ a h, hq, poisonAfter, Bool.false_eq_true, if_false, Bool.false_and, this,
    show s.origAfter a n = s.mem.orig by simp [State.origAfter, ho], show s.runsAfter a n = s.mem.runs by simp [State.runsAfter, hu]]
  rw [← hq]

theorem get?_none (m : Mem) (a : Nat) (h : ∀ e ∈ m, e.1 ≠ a) : Sparse.get? m a = none := by
  induction m with
  | nil => rfl
  | cons e t ih => rw [Sparse.get?, if_neg (h e (by simp)), ih fun e he => h e (by simp [he])]

theorem readN_zeros (n : Nat) (m : Mem) (a : Nat) (h : ∀ e ∈ m, e.1 < a ∨ a + n ≤ e.1) : m.readN a n = List.replicate n 0 := by
  induction n generalizing a with
  | zero => rfl
  | succ n ih =>
    have : m.read a = 0 := by
      rw [Mem.read, get?_none m a fun e he => by have := h e he; omega]
      rfl
    rw [List.replicate_succ, Mem.readN, this, ih _ fun e he => by have := h e he; omega]

/-- Frame 0x30 can back the page. -/
theorem backed : ∃ t u l, backless.hostTenant = some (0, t) ∧ backless.backWith 0 t 0x80000000 0x30 = some u ∧
    State.walk u t.hostTable 0x80000000 = some l := by
  have h : (backless.hostTenant.any fun e => e.1 == 0 && (backless.install 0 0x80000000 (hostLeaf 0x30) [39, 30, 21, 12] e.2.hostTable).any
      fun u => (u.walk e.2.hostTable 0x80000000).isSome) = true := by decide +kernel
  have hw : ∀ (w : State) (n a pa r va : Nat), State.walk (w.lendFound n a pa) r va = State.walk w r va := by
    intro w n a pa r va
    unfold State.lendFound
    dsimp only
    split <;> rfl
  simp only [Option.any_eq_true, Bool.and_eq_true, beq_iff_eq, Option.isSome_iff_exists] at h
  obtain ⟨⟨n, t⟩, ht, rfl, u, hu, l, hl⟩ := h
  obtain ⟨v, hv⟩ : ∃ v, backless.backWith 0 t 0x80000000 0x30 = some v ∧ State.walk v t.hostTable 0x80000000 = State.walk u t.hostTable 0x80000000 := by
    unfold State.backWith
    rw [physWrite_zeros backless _ _ rfl rfl rfl rfl rfl (by decide +kernel), hu]
    exact ⟨_, rfl, (hw _ _ _ _ _ _).trans rfl⟩
  exact ⟨t, v, l, ht, hv.1, hv.2.trans hl⟩

theorem witness_HostAccessSteps :
    hostB hosted 0x102000 .read (fun _ _ _ a => a == 0x2000) = true ∧ hostB (hosted.modTenant 0 fun t => { t with quota := 0 }) 0x102000 .read (fun _ _ _ _ => false) true = true ∧
    hostB (hosted.modTenant 0 fun t => { t with quota := 0 }) 0x10203F .write (fun _ _ _ _ => false) true = true ∧
    hostB hosted 0x10203F .write (fun u n t a => a == 0x203F && (u.hostPage n t a).isSome) = true ∧
    hostB hosted 0x80100000 .write (fun u n t a => a == 0x80000000 && (u.hostPage n t a).isNone && decide (u.mem.overflow.length + 64 ≤ 2 ^ 24)) = true := by
  decide +kernel

theorem witness_HostAccessSteps_atomics :
    0x102004 % 8 ≠ 0 ∧ (∀ e ∈ [(HostAtomic.fetchAdd, 4, 0x102004), (.swap, 8, 0x102008), (.cas, 16, 0x102010)], e.2.1 ∈ atomicWidths e.1 ∧ e.2.2 % e.2.1 = 0 ∧
      hostB hosted e.2.2 .rmw (fun u _ t a => ((u.recallTsa t a e.2.1).hostRead t a e.2.1).2 == false) = true ∧
      hostB { hosted with mem := { hosted.mem with psn := [0x2000 / 8, 0x2008 / 8, 0x2010 / 8, 0x2018 / 8] } } e.2.2 .rmw (fun u _ t a => ((u.recallTsa t a e.2.1).hostRead t a e.2.1).2) = true) := by
  decide +kernel

def overflowing (page : Nat) (s : State) : State := { s with mem := { s.mem with overflow := [(4096 * page + 5, (9 : Byte))] } }

theorem witness_HostAccessSteps_drain :
    ((overflowing 2 hosted).hostTenant).any (fun h => (overflowing 2 hosted).mem.overflow.any (fun b => b.1 / 4096 == 2) &&
      ((overflowing 2 hosted).walk h.2.hostTable 0x2000).any fun l => !l.cmp) = true ∧
    ((overflowing 0x80000 backless).hostTenant).any (fun h => (overflowing 0x80000 backless).mem.overflow.any (fun b => b.1 / 4096 == 0x80000) &&
      (overflowing 0x80000 backless).takenFrom h.1 0x30 == false && ((overflowing 0x80000 backless).walk h.2.hostTable 0x80000000).isNone) = true ∧
    (hosted.hostTenant).any (fun h => decide (h.2.quota ≤ 2 ^ 47) && decide (0 < h.2.quota)) = true ∧ 0x101F8 % 8 = 0 ∧ 0x101F8 < 0x10200 := by
  decide +kernel
/-! ### Witnesses: ATS, partitions, trusted base, power, state window, step -/

def requested (answer : Option AtsAnswer) (sent : Nat) : State :=
  { loaded with
    time := 2000000000 * 851968
    mem := { loaded.mem with atsReqs := [⟨1, 5, 7, answer⟩], pageReqs := [⟨5, 7, true, sent⟩] } }

theorem witness_AtsPageRequestSteps :
    (∃ r ∈ (requested none 0).mem.atsReqs, r.die = 1 ∧ r.pasid = 5 ∧ r.page = 7 ∧ r.answer = none) ∧
    ((requested none 0).mem.atc.filter fun k => k.die == 1).length < 4096 ∧ (∀ hpa rd wr, AtsAnswer.failure ≠ .done hpa rd wr) ∧
    (∃ q ∈ (requested none 0).mem.pageReqs, q.pasid = 5 ∧ q.page = 7 ∧ q.sent + 1000000000 ≤ (requested none 0).ns) ∧
    (∃ q ∈ (requested none 1000000000).mem.pageReqs, q.pasid = 5 ∧ q.page = 7 ∧ q.sent + 1000000000 ≤ (requested none 1000000000).ns) ∧
    (∀ q ∈ (requested none 1000000001).mem.pageReqs, q.pasid = 5 → q.page = 7 → (requested none 1000000001).ns < q.sent + 1000000000) := by
  refine ⟨?_, ?_, nofun, ?_⟩ <;> decide +kernel

/-- The first bench of die 1 is tenant 0's partition. -/
def parted (halted halting : Bool) (quantum : Nat) (swap : Option Nat) (s : State := loaded) : State :=
  { s with admin := { s.admin with partitions := [⟨1, 1, 0, quantum, 0, halted, halting, swap, 0, false⟩] } }
/-- A matrix-queue entry of core 64 is left. -/
def undrained (s : State) : State := s.modCore 64 fun c => { c with mq := [default] }
/-- An image in a slot. -/
def imaged (slot : Option Nat) (count : Nat) (s : State) : State :=
  { s with admin := { s.admin with shadows := [(3, ⟨slot, 0, count, 0, s.imageDigest 3 ⟨slot, 0, count, 0, 0, none⟩, none⟩)] } }
/-- Lane 0 of the group has stopped. -/
def stopped : State := loaded.modGroup (groupKey 0 0) fun g => g.mapLanes fun l e =>
  if l = 0 then { e with status := .parked, park := { e.park with debug := true } } else e

/-- The card of a job of a core of the partition lies on a page under a splinter. -/
def jobless : State :=
  let s := ({ parted false false 0 none with eng := { loaded.eng with cullets := updAt (fun _ => ⟨[{ aJob 0x400 none with core := 64 }], []⟩) 0 loaded.eng.cullets } } : State)
  let s := s.setPhysWord 0x11000 (word (leafWord 0 0 + 2 ^ 55))
  { s with mem := { s.mem with spl := [(0x11000, ⟨word (leafWord 0 0), 30, 0, 0, false, none⟩)] } }

def partB (s : State) (p : Partition → Bool) : Bool := (s.partition? 1 1).any fun e => e.1 == 0 && p e.2

theorem imageDigest_imaged (slot : Option Nat) (count : Nat) (d : BitVec 256) (s : State) :
    (imaged slot count s).imageDigest 3 ⟨slot, 0, count, 0, d, none⟩ = s.imageDigest 3 ⟨slot, 0, count, 0, 0, none⟩ := rfl

theorem witness_PartitionCommands_halts :
    (parted false false 0 none).partition? 1 3 = none ∧ partB (parted true false 0 none) (fun p => p.halted) = true ∧
    partB (undrained (parted false false 0 none)) (fun p => !p.halted && !(undrained (parted false false 0 none)).drained p.cores) = true ∧
    partB (parted false false 0 none) (fun p => !p.halted && (parted false false 0 none).drained p.cores && p.swap == none &&
      ((parted false false 0 none).imageIn (shadowSlot 1 1)).isNone) = true ∧
    partB { parted false false 5 none with time := 4 * 851968 } (fun p => p.quantum == 5 && !p.halted && !p.halting) = true ∧
    ({ parted false false 5 none with time := 4 * 851968 } : State).ns < 0 + 5 ∧
    0 + 5 ≤ ({ parted false false 5 none with time := 5 * 851968 } : State).ns ∧
    partB (parted false true 0 none) (fun p => p.halting && !p.halted && p.swap == none && (parted false true 0 none).drained p.cores) = true ∧
    partB (undrained (parted false true 0 none)) (fun p => p.halting && !p.halted && !(undrained (parted false true 0 none)).drained p.cores) =
      true ∧ (∀ q ∈ (parted false false 0 none).admin.partitions, q.swap ≠ some (shadowSlot 1 1)) ∧
    (∃ q ∈ (parted false false 0 (some 3)).admin.partitions, q.swap = some (shadowSlot 1 1)) ∧
    partB (parted false false 0 none) (fun p => !(parted false false 0 none).jobsWait p.cores) = true ∧ partB jobless (fun p => jobless.jobsWait p.cores) = true := by
  refine ⟨?_, ?_, ?_, ?_, ?_, ?_, ?_, ?_, ?_, ?_, ?_, ?_, ?_⟩ <;> decide +kernel

theorem witness_PartitionCommands_swap :
    let s := parted true false 0 none
    (∃ p, (imaged (some 3) 1 s).partition? 1 1 = some (0, p) ∧ p.count = 1 ∧ (∀ e ∈ (imaged (some 3) 1 s).work.teams, e.2.core ∉ p.cores) ∧
      p.halting = false ∧ p.swap = none) ∧ 1 < 2 ∧ 1 ∉ (imaged (some 3) 1 s).work.fenced ∧
    ∃ m, (imaged (some 3) 1 s).imageIn (shadowSlot 1 1) = some (3, m) ∧ m.count = 1 ∧ m.digest = (imaged (some 3) 1 s).imageDigest 3 m := by
  refine ⟨⟨_, rfl, ?_⟩, by decide, by decide +kernel, _, rfl, rfl, (imageDigest_imaged _ _ _ _).symm⟩
  decide +kernel

theorem witness_PartitionCommands_steps :
    511 < 512 ∧ 512 ≤ 512 ∧ ((0 : BitVec 8) = 0 ∨ (0x0B : BitVec 8) < 0) ∧ (0x0B : BitVec 8) < 0x0C ∧ onCore 0 = true ∧
    (stopped.group? (groupKey 0 0)).any (fun g => (g.lane 0).stopped && g.lanes.length == 32 && g.stepLanes 0 false != 0 &&
      g.stepLanes 0 true != 0) = true ∧ ((stopped.teamsOn 0)[0]?).isSome = true ∧
    (stopped.teamsOn 0).any (fun t => (stopped.group? (groupKey 0 0)).any fun g => g.team == t.1) = true := by decide +kernel

def aConfig (host : Bool) : TenantConfig :=
  { root := 0x20000, host := host, quota := 4096, reserve := [], tablePool := [], frames := [], queues := [1], pasids := [], ringBase := 0, ringLog2 := 0,
    ringCons := 0, serviceQueue := 0, counters := [2], partitions := [(1, 1)], debugKey := 6 }
def hostess : State := loaded.modTenant 0 fun t => { t with host := true }
def limited (n : Nat) : State := { loaded with sec := { loaded.sec with ezwell := { loaded.sec.ezwell with tenantLimit := n, minFirmware := 3, minKernel := 3, minScript := 3, operatorKey := some 8, cfgSeq := 3 } } }
def signed (n : Nat) : State := { loaded with sec := { loaded.sec with ezwell := { loaded.sec.ezwell with xmss := n } } }

theorem witness_TrustedBaseSteps :
    ((limited 2).tenant? 65535 = none ∧ (limited 2).sec.tenants.length < (limited 2).sec.ezwell.tenantLimit ∧ (limited 2).hostTenant = none) ∧
    ((hostess.hostTenant).isSome = true ∧ (aConfig true).host = true ∧ (loaded.tenant? 0).isSome = true ∧
      (limited 1).sec.ezwell.tenantLimit ≤ (limited 1).sec.tenants.length) ∧
    ((limited 2).sec.ezwell.cfgSeq < 4 ∧ 3 ≤ (limited 2).sec.ezwell.cfgSeq ∧ (limited 2).sec.ezwell.minFirmware ≤ 3 ∧
      2 < (limited 2).sec.ezwell.minFirmware ∧ (limited 2).sec.ezwell.minScript ≤ 3 ∧ 2 < (limited 2).sec.ezwell.minScript ∧
      (limited 2).sec.ezwell.operatorKey = some 8) ∧
    (aTenant.debugKey = 0 ∧ loaded.tenant? 0 = some aTenant) ∧
    ((signed (2 ^ 20 - 1)).sec.ezwell.xmss < 2 ^ 20 ∧ 2 ^ 20 ≤ (signed (2 ^ 20)).sec.ezwell.xmss) ∧
    (loaded.ns < 1 ∧ 0 ≤ loaded.ns ∧ loaded.sec.ezwell.debugAllowed = true) ∧
    scriptOk [0x01000000] = true ∧ scriptOk [0x1A000000] = false := by decide +kernel

/-- A key that is neither the vendor's nor the operator's. -/
theorem witness_TrustedBaseSteps_signer : ∃ k, k ≠ Config.vendorKey ∧ (limited 2).sec.ezwell.operatorKey ≠ some k :=
  ⟨Config.vendorKey + 9, by omega, fun h => by have := Option.some.inj h; omega⟩

theorem witness_TrustedBaseSteps_images :
    (∃ m o, (imaged (some 15) 0 loaded).imageIn (shadowSlot 7 1) = some (3, m) ∧ (imaged (some 15) 0 loaded).tenant? m.tenant = some o ∧
      (imaged (some 15) 0 loaded).quotaUsed m.tenant o + (imaged (some 15) 0 loaded).imageBytes 3 m ≤ o.quota) ∧
    ((imaged (some 15) 0 loaded).imageIn (shadowSlot 0 0) = none ∧ ∀ e ∈ (imaged (some 15) 0 loaded).admin.shadows, e.2.slot.isSome = true) ∧
    (imaged none 0 loaded).imageIn (shadowSlot 0 0) = none ∧ ∃ e ∈ (imaged none 0 loaded).admin.shadows, e.2.slot = none := by
  refine ⟨⟨_, aTenant, rfl, rfl, ?_⟩, ⟨rfl, ?_⟩, rfl, _, List.mem_singleton.2 rfl, rfl⟩
  · decide +kernel
  · intro e h
    rw [List.mem_singleton.1 h]
    rfl

/-- An image that has been moved to frame 0x40, where some bytes stand. -/
def movedTo (bs : List Byte) : State :=
  { loaded with
    admin := { loaded.admin with shadows := [(3, ⟨none, 0, 0, 0, 0, some (0x40, 7)⟩)] }
    mem := { loaded.mem with bytes := loaded.mem.bytes.writeN 0x40000 bs } }

theorem movedTo_reads (bs : List Byte) : (movedTo bs).physRead 0x40000 bs.length = bs := Mem.readN_writeN bs loaded.mem.bytes 0x40000

theorem witness_TrustedBaseSteps_return :
    let s := movedTo (cipherBytes 7 256)
    let m : Image := ⟨none, 0, 0, 0, 0, some (0x40, 7)⟩
    (3, m) ∈ s.admin.shadows ∧ s.physRead (4096 * 0x40) (s.imageBytes 3 m) = cipherBytes 7 (s.imageBytes 3 m) ∧
      s.physPsn (4096 * 0x40) (s.imageBytes 3 m) = false := by
  have hn : ∀ bs : List Byte, (movedTo bs).imageBytes 3 ⟨none, 0, 0, 0, 0, some (0x40, 7)⟩ = 256 := fun _ => rfl
  have hr := movedTo_reads (cipherBytes 7 256)
  rw [show (cipherBytes 7 256).length = 256 by simp [cipherBytes]] at hr
  dsimp only
  rw [hn]
  exact ⟨List.mem_singleton.2 rfl, hr, by simp [State.physPsn, poisonedRange, show ∀ bs, (movedTo bs).mem.psn = [] from fun _ => rfl]⟩

theorem witness_PowerTimeSteps :
    State.reset.sec.boot = .off ∧ State.reset.sec.ports.length = 2 ∧ (State.reset.admin.census[11]?).isSome = true ∧
    (State.reset.sec.ports[0]?).any (fun p => !p.memActive) = true ∧ (hosted.sec.ports[0]?).any (fun p => p.memActive) = true ∧
    ({ State.reset with sec := { State.reset.sec with boot := .active } } : State).sec.boot ≠ .off ∧
    State.reset.locked = false ∧ (1000000 : Int) < 1000001 ∧ ¬ (1000000 : Int) < 1000000 := by decide +kernel

def half (v : Word) : State := { loaded with admin := { loaded.admin with cmdHalf := some v } }

/-- Between hub SRAM and the state window. -/
theorem witness_StateWindowAccess_gap : State.reset.hubWord 0x3F000000000 = none := by
  have h : ∀ n : Fin 8372224, ¬ (0x30000000000 + 8 * n.val ≤ 0x3F000000000 ∧ 0x3F000000000 < 0x30000000000 + 8 * n.val + 32 * 4096) := fun n => by omega
  have f : ∀ n : Fin 8355840, ¬ (0x30000000000 + 8 * n.val ≤ 0x3F000000000 ∧ 0x3F000000000 < 0x30000000000 + 8 * n.val + 64 * 0) := fun n => by omega
  have k : ∀ n : Fin 7864320, ¬ (0x30000000000 + 8 * n.val ≤ 0x3F000000000 ∧ 0x3F000000000 < 0x30000000000 + 8 * n.val + 64 * 65536) := fun n => by omega
  unfold State.hubWord Config.queueTable Config.faultQueue Config.killQueue
  simp only [show State.reset.admin.faults.length = 0 from rfl]
  rw [if_neg (h _), if_neg (f _), if_neg (k _)]
  rfl

theorem witness_StateWindowAccess :
    loaded.admin.cmdHalf = none ∧ 1 ≤ bits (word 6) 7 0 ∧ bits (word 6) 7 0 ≤ 9 ∧
    loaded.partition? (bits (word 6) 10 8) (BitVec.ofNat 8 (bits (word 6) 18 11)) = none ∧
    (parted true false 0 none).admin.cmdHalf = none ∧ bits (word 0x909) 7 0 = 9 ∧ bits (word 0x906) 7 0 = 6 ∧
    ((parted true false 0 none).partition? (bits (word 0x909) 10 8) (BitVec.ofNat 8 (bits (word 0x909) 18 11))).isSome = true ∧
    ((parted true false 0 none).partition? (bits (word 0x906) 10 8) (BitVec.ofNat 8 (bits (word 0x906) 18 11))).isSome = true ∧
    bits (word 6) 7 0 = 6 ∧ bits (word 0x0B) 7 0 = 0x0B ∧
    (half (word 6)).admin.cmdHalf = some (word 6) ∧ (parted true false 0 none).apertureOpen 64 (2 ^ 21 - 1) false = true ∧
    (parted false false 0 none).apertureOpen 64 0 false = false ∧ loaded.apertureOpen 0 0 true = false := by decide +kernel

/-- A turn that issues the instruction of a word. -/
def turnB (w : BitVec 96) : Bool := match (State.reset.atSlot w).agenda with
  | .issue core slot mask :: rest => ((State.reset.atSlot w).group? (groupKey core slot)).any fun g => (g.issueSet mask).any fun e =>
    (g.lineBuf e.2 e.1).any fun b => !b.psn && !b.malformed && (g.badEntries b e.2 e.1).isEmpty && match decodeSlot (b.slot (e.1.toNat % 8)) with
      | .ok i => (let u : State := { State.reset.atSlot w with agenda := rest }
        u.mayGo (groupKey core slot) g e.2 e.1 (b.slot (e.1.toNat % 8)) && match exec i (u.issuing core slot e.2 e.1 (b.slot (e.1.toNat % 8))) with
        | .next _ => true
        | _ => false)
      | .error _ => false
  | _ => false
noncomputable def codeB (w : BitVec 32) : Bool := match (State.reset.atBytecode w).agenda with
  | .bytecode q :: rest => (((State.reset.atBytecode w).queue q).run).any fun r => !r.builtin && decide (r.count < 512) &&
    ((((State.reset.atBytecode w).queue q).code[r.idx]?).any fun w' => match decodeScript w' with
      | .ok i => (match exec i { State.reset.atBytecode w with agenda := rest, cur := .script q } with
        | .next _ => true
        | _ => false)
      | .error _ => false)
  | _ => false

/-- A slot raises flag f3, which counts to 15 already. -/
def raiser : BitVec 96 := ((view (.nop { common with set1 := 3 } fs)).map wordOf).getD 0
def flagged : State := (State.reset.atSlot raiser).modGroup 0 fun g => { g with flags := updAt (fun _ => 15) 3 g.flags }

theorem witness_StepRunsDecodedInstruction_held : (flagged.group? 0).any (fun g =>
    !flagged.mayGo 0 g (BitVec.allOnes 32) 0x1000 raiser) = true ∧
    ({ loaded with agenda := [.debug 0 1] } : State).agenda = .debug 0 1 :: [] := by decide +kernel

theorem witness_StepRunsDecodedInstruction : turnB 0x8FFF00000660000000000000 = true ∧ codeB 0x03300000 = true ∧
    ({ loaded with agenda := [.int (.invalidationCompletion 1 2)] } : State).agenda = .int (.invalidationCompletion 1 2) :: [] ∧
    ({ loaded with agenda := [.ev .powerLoss] } : State).agenda = .ev .powerLoss :: [] ∧ loaded.agenda = [] := by decide +kernel

theorem witness_InstructionWordsRoundTrip : (view (.add common (ft 2 2))).isSome = true ∧
    ∃ i, decodeSlot 0x8FFF00000660000000000000 = .ok i := ⟨rfl, _, rfl⟩

theorem witness_BytecodesRoundTrip : (bytecodeOf (.scriptLdp 15 7)).isSome = true ∧ (Instr.scriptLdp 15 7).wf = true ∧
    ∃ i, decodeScript 0x02100001 = .ok i := ⟨by decide +kernel, by decide +kernel, _, rfl⟩

theorem witness_NothingElseStops :
    ∀ pa size op, Instr.gledenCoreAccess 0x402FFFFFFF8 3 .load = .gledenCoreAccess pa size op → pa < 0x40300000000 := by
  intro pa size op h
  cases h
  decide

theorem witness_MemoryStaysCanonical : State.reset.memoryOk = true ∧ ∃ t, step State.reset = .next t := ⟨by decide +kernel, _, rfl⟩
end Sys2Proof.Tests
end

section
/-! PROOFS. The layer under O59 and O60: what "canonical" means for a state, what an outcome must give, and the rules of the
accessors. A rule `State.Canonical.f` says that the operation `State.f` keeps the canonical form, so that the proof about a
chain of operations reads like the chain itself: `h.f.g` for `(s.f).g`. -/

namespace Sys2Proof.Machine

/-- The byte memories of a state are in canonical form (log entry 1). -/
def State.Canonical (s : State) : Prop := s.memoryOk = true

/-- A list of B slots whose bytes are all in canonical form. -/
def slotsOk (bs : List BSlot) : Prop := ∀ b ∈ bs, b.bytes.wf = true

namespace State

variable {s t : State}

/-- Whatever agrees with a canonical state in the three byte memories is canonical. -/
theorem Canonical.same (h : s.Canonical) (hb : t.mem.bytes = s.mem.bytes) (ht : t.work.teams = s.work.teams)
    (hc : t.work.cores = s.work.cores) : t.Canonical := memoryOk_same h hb ht hc

theorem Canonical.bytes (h : s.Canonical) : s.mem.bytes.wf = true := ((memoryOk_iff s).1 h).1

/-- New module bytes in the form. -/
theorem Canonical.withBytes (h : s.Canonical) (hb : t.mem.bytes.wf = true) (hw : t.work = s.work) : t.Canonical :=
  memoryOk_bytes h hb hw

theorem Canonical.foldl {α : Type} {f : State → α → State} {l : List α} (h : s.Canonical)
    (hf : ∀ s a, s.Canonical → (f s a).Canonical) : (l.foldl f s).Canonical := foldl_memoryOk f hf l h

theorem Canonical.ite {c : Prop} [Decidable c] (hs : s.Canonical) (ht : t.Canonical) : (if c then s else t).Canonical := by
  split
  · exact hs
  · exact ht

theorem Canonical.map {o : Option State} {f : State → State} (ho : ∀ u, o = some u → u.Canonical)
    (hf : ∀ u, u.Canonical → (f u).Canonical) (e : o.map f = some t) : t.Canonical := by
  obtain ⟨u, hu, rfl⟩ := Option.map_eq_some_iff.1 e
  exact hf u (ho u hu)

/-! ### Accessors -/

theorem Canonical.modGroup {k : Nat} {f : Group → Group} (h : s.Canonical) : (s.modGroup k f).Canonical := h
theorem Canonical.setGroup {k : Nat} {g : Group} (h : s.Canonical) : (s.setGroup k g).Canonical := h
theorem Canonical.delGroup {k : Nat} (h : s.Canonical) : (s.delGroup k).Canonical := h
theorem Canonical.modLane {k l : Nat} {f : Lane → Lane} (h : s.Canonical) : (s.modLane k l f).Canonical := h
theorem Canonical.setGang {k : Nat} {g : Gang} (h : s.Canonical) : (s.setGang k g).Canonical := h
theorem Canonical.delGang {k : Nat} (h : s.Canonical) : (s.delGang k).Canonical := h
theorem Canonical.modGang {k : Nat} {f : Gang → Gang} (h : s.Canonical) : (s.modGang k f).Canonical := h
theorem Canonical.setLaunch {k : Nat} {l : Launch} (h : s.Canonical) : (s.setLaunch k l).Canonical := h
theorem Canonical.delLaunch {k : Nat} (h : s.Canonical) : (s.delLaunch k).Canonical := h
theorem Canonical.modLaunch {k : Nat} {f : Launch → Launch} (h : s.Canonical) : (s.modLaunch k f).Canonical := h
theorem Canonical.modQueue {q : Nat} {f : Queue → Queue} (h : s.Canonical) : (s.modQueue q f).Canonical := h
theorem Canonical.setOp {k : Nat} {o : Op} (h : s.Canonical) : (s.setOp k o).Canonical := h
theorem Canonical.delOp {k : Nat} (h : s.Canonical) : (s.delOp k).Canonical := h
theorem Canonical.modTenant {k : Nat} {f : Tenant → Tenant} (h : s.Canonical) : (s.modTenant k f).Canonical := h
theorem Canonical.modCounter {k : Nat} {f : Counter → Counter} (h : s.Canonical) : (s.modCounter k f).Canonical := h
theorem Canonical.setNx {k : Nat} {c : NxCmd} (h : s.Canonical) : (s.setNx k c).Canonical := h
theorem Canonical.delNx {k : Nat} (h : s.Canonical) : (s.delNx k).Canonical := h
theorem Canonical.modCullet {e : Nat} {f : Cullet → Cullet} (h : s.Canonical) : (s.modCullet e f).Canonical := h
theorem Canonical.bump (h : s.Canonical) : s.bump.Canonical := h
theorem Canonical.fresh (h : s.Canonical) : s.fresh.Canonical := h
theorem Canonical.say {m : Msg} (h : s.Canonical) : (s.say m).Canonical := h
theorem Canonical.plan {a : Turn} (h : s.Canonical) : (s.plan a).Canonical := h
theorem Canonical.count {e loc : Nat} {lasting : Bool} (h : s.Canonical) : (s.count e lasting loc).Canonical := h
theorem Canonical.post {f : FaultInfo} {who : FaultFor} {gang : Nat} (h : s.Canonical) : (s.post f who gang).1.Canonical := h
theorem Canonical.withdraw {p : FaultRec → Bool} (h : s.Canonical) : (s.withdraw p).Canonical := h

/-- A team changes, its scratchpad apart. -/
theorem Canonical.modTeam {k : Nat} {f : Team → Team} (h : s.Canonical) (hf : ∀ t, (f t).scr = t.scr) :
    (s.modTeam k f).Canonical := modTeam_memoryOk h k f fun t ht => (hf t).symm ▸ ht

theorem Canonical.setTeam {k : Nat} {t : Team} (h : s.Canonical) (ht : t.scr.wf = true) : (s.setTeam k t).Canonical := by
  obtain ⟨hb, hts, hcs⟩ := (memoryOk_iff s).1 h
  refine (memoryOk_iff _).2 ⟨hb, fun e he => ?_, hcs⟩
  rcases Sparse.mem_put _ _ _ _ he with rfl | he
  · exact ht
  · exact hts e he

theorem Canonical.delTeam {k : Nat} (h : s.Canonical) : (s.delTeam k).Canonical := by
  obtain ⟨hb, hts, hcs⟩ := (memoryOk_iff s).1 h
  exact (memoryOk_iff _).2 ⟨hb, fun e he => hts e (List.mem_filter.1 he).1, hcs⟩

/-- The B slots of any core of a canonical state. -/
theorem Canonical.core {c : Nat} (h : s.Canonical) : slotsOk (s.core c).bslots := by
  unfold State.core
  cases hc : Sparse.get? s.work.cores c with
  | none =>
    intro b hb
    rw [List.eq_of_mem_replicate hb]
    rfl
  | some k => exact ((memoryOk_iff s).1 h).2.2 _ (Sparse.mem_of_get? hc)

/-- A core changes to one whose B slots are in the form. -/
theorem Canonical.modCoreTo {c : Nat} {f : Core → Core} (h : s.Canonical) (hf : slotsOk (f (s.core c)).bslots) :
    (s.modCore c f).Canonical := by
  obtain ⟨hb, hts, hcs⟩ := (memoryOk_iff s).1 h
  refine (memoryOk_iff _).2 ⟨hb, hts, fun e he => ?_⟩
  rcases Sparse.mem_put _ _ _ _ he with rfl | he
  · exact hf
  · exact hcs e he

/-- A core changes, its B slots apart. -/
theorem Canonical.modCore {c : Nat} {f : Core → Core} (h : s.Canonical) (hf : ∀ k, (f k).bslots = k.bslots) :
    (s.modCore c f).Canonical := h.modCoreTo (by rw [hf]; exact h.core)

theorem Canonical.kill {k : Kill} (h : s.Canonical) : (s.kill k).Canonical := by
  unfold State.kill
  repeat' split
  all_goals exact h

theorem Canonical.tagIssue {c n : Nat} (h : s.Canonical) : (s.tagIssue c n).Canonical := h.modCore fun _ => by rfl

theorem Canonical.tagDone {c n elem udf : Nat} {code : BitVec 8} {r : Option Cmd} (h : s.Canonical) :
    (s.tagDone c n code elem udf r).Canonical := h.modCore fun _ => by rfl

theorem Canonical.farTagDone {tk c n : Nat} {code : BitVec 8} (h : s.Canonical) : (s.farTagDone tk c n code).Canonical := by
  unfold State.farTagDone
  split
  · exact h.tagDone
  · exact h

/-! ### Traps, parking, retirement -/

theorem Canonical.takeTraps {key opc : Nat} {pc : Word} {ts : List Trap} (h : s.Canonical) :
    (s.takeTraps key pc opc ts).Canonical := by
  unfold State.takeTraps
  dsimp only
  repeat' split
  case isTrue => exact h.kill
  case isTrue => exact h.kill
  case isTrue => exact h.count.kill
  case isFalse => exact h.modGroup.modTeam fun t => by split <;> rfl
  all_goals exact h

theorem Canonical.trapLanes {opc : Nat} {ls : List (Nat × Word × Trap)} (h : s.Canonical) : (s.trapLanes opc ls).Canonical :=
  (Canonical.foldl (s := { s with cur := .none }) h fun _ _ h => h.takeTraps.modLane).same rfl rfl rfl

theorem Canonical.issueTrap {x : Ctx} {cause info : Nat} {a : Word} (h : s.Canonical) : (s.issueTrap x cause info a).Canonical :=
  h.takeTraps

theorem Canonical.consume {x : Ctx} {a : Word} (h : s.Canonical) : (s.consume x a).Canonical := h.kill

theorem Canonical.parkOn {key fid : Nat} {m : LaneMask} (h : s.Canonical) : (s.parkOn key m fid).Canonical := h

theorem Canonical.parkLanes {key gang opc : Nat} {m : LaneMask} {f : FaultInfo} {as : List (Nat × Word)} (h : s.Canonical) :
    (s.parkLanes key m f gang opc as).Canonical := h

theorem Canonical.joinLanes {r : FaultRec} {key lk gang opc : Nat} {m : LaneMask} {as : List (Nat × Word)} (h : s.Canonical) :
    (s.joinLanes r key m lk gang opc as).Canonical := h

theorem Canonical.retire {x : Ctx} {outs : List Out} {nres : Nat} {first : Option (BitVec 6)} {dst : BitVec 6}
    {marks : List Nat} {a b : Avail} (h : s.Canonical) : (s.retire x outs nres first dst marks a b).Canonical := h

theorem Canonical.startOp {x : Ctx} {m : LaneMask} {dst : BitVec 6} {res : List (Nat × Word × Bool)} {fp : List (Nat × BitVec 5)}
    {held : Bool} {due : Nat} (h : s.Canonical) : (s.startOp x m dst res fp held due).Canonical := h

theorem Canonical.endOp {id : Nat} (h : s.Canonical) : (s.endOp id).Canonical := by
  unfold State.endOp
  split <;> exact h

theorem Canonical.leaveOp {id : Nat} {m : LaneMask} (h : s.Canonical) : (s.leaveOp id m).Canonical := by
  unfold State.leaveOp
  dsimp only
  repeat' split
  · exact h.endOp
  · exact h.setOp
  · exact h

theorem Canonical.finish {x : Ctx} {outs : List Out} {nres lat : Nat} {first : Option (BitVec 6)} {dst : BitVec 6}
    {marks : List Nat} (h : s.Canonical) : (s.finish x outs nres first dst marks lat).Canonical := by
  unfold State.finish
  dsimp only
  split
  · exact h.retire
  · exact h.retire.startOp

theorem Canonical.finishLong {x : Ctx} {outs : List Out} {nres : Nat} {first : Option (BitVec 6)} {dst : BitVec 6}
    {marks : List Nat} {fp : List (Nat × BitVec 5)} {held : Bool} (h : s.Canonical) :
    (s.finishLong x outs nres first dst marks fp held).Canonical := by
  unfold State.finishLong
  dsimp only
  split
  · exact h.retire
  · exact h.retire.startOp

theorem Canonical.startWait {x : Ctx} {ws : List (Nat × Wait)} {outs : List Out} {nres : Nat} {first : Option (BitVec 6)}
    {dst : BitVec 6} {a : Avail} (h : s.Canonical) : (s.startWait x ws outs nres first dst a).Canonical := by
  unfold State.startWait
  extract_lets _ _ _ _ _ _ t
  have ht : t.Canonical := h.retire.modGroup.startOp
  repeat' split
  · exact ht.setOp
  · exact ht
  · exact ht

theorem Canonical.resume {key l : Nat} {vals : List RedVal} {prd : Option Bool} (h : s.Canonical) :
    (s.resume key l vals prd).Canonical := by
  unfold State.resume
  split
  · extract_lets lane
    split
    · exact h.modGroup.leaveOp
    · exact h
  · exact h

theorem Canonical.resumePair {key l : Nat} {vals : List RedVal} {prd : Option Bool} (h : s.Canonical) :
    (s.resumePair key l vals prd).Canonical := by
  unfold State.resumePair
  extract_lets twin t
  have ht : t.Canonical := h.resume
  split
  · exact ht.resume
  · exact ht

theorem Canonical.unwait {key l : Nat} {st : LaneStatus} (h : s.Canonical) : (s.unwait key l st).Canonical := by
  unfold State.unwait
  split
  · extract_lets w t
    have ht : t.Canonical := h.modLane
    split
    · exact ht
    · exact ht.leaveOp
  · exact h

theorem Canonical.mismatch {x : Ctx} {a : Word} {held : List (List Word)} (h : s.Canonical) : (s.mismatch x a held).Canonical :=
  h.count.kill

theorem Canonical.outcome {x : Ctx} {k : Strike} {go : State → Nat → Word → State} (h : s.Canonical)
    (hgo : ∀ t n r, t.Canonical → (go t n r).Canonical) : (s.outcome x k go).Canonical := by
  unfold State.outcome
  extract_lets t
  have ht : t.Canonical := h
  split
  · exact hgo _ _ _ ht
  · exact hgo _ _ _ ht.count
  · exact (ht.count.modCore fun _ => by rfl).kill

theorem Canonical.shadowCheck {x : Ctx} {srcs vals : Nat → List Word} {go : State → Nat → (Nat → List Word) → State} (h : s.Canonical)
    (hgo : ∀ t n v, t.Canonical → (go t n v).Canonical) : (s.shadowCheck x srcs vals go).Canonical := by
  unfold State.shadowCheck
  split
  · exact hgo _ _ _ h
  · exact h.outcome fun _ _ _ ht => hgo _ _ _ ht

theorem Canonical.delayed {x : Ctx} {n : Nat} (h : s.Canonical) : (s.delayed x n).Canonical := by
  unfold State.delayed
  split <;> exact h

end State

/-! ### Outcomes -/

/-- An outcome answers a next state, which is canonical if the state before was. -/
def Answers (s : State) (o : Host.Outcome State Fault Refusal) : Prop := ∃ t, o = .next t ∧ (s.Canonical → t.Canonical)

variable {s t : State}

theorem Answers.next (h : s.Canonical → t.Canonical) : Answers s (.next t) := ⟨t, rfl, h⟩

theorem Answers.frame {i : Instr} {body : Ctx → State → State} (hb : ∀ x, s.Canonical → (body x s).Canonical) :
    Answers s (frame i s body) := .next fun h => by
  repeat' split
  · exact h
  · exact h.issueTrap
  · exact h.consume
  · exact h.issueTrap
  · exact (hb _ h).bump

theorem Answers.plainFrame {i : Instr} {body : Ctx → State → State} (hb : ∀ x, s.Canonical → (body x s).Canonical) :
    Answers s (plainFrame i s body) := .frame fun x h => by
  split
  · exact hb x h
  · exact (hb _ h).takeTraps

theorem Answers.laneInstr {i : Instr} {nres lat : Nat} {codes : List (BitVec 6)} {dst : BitVec 6} {marks : List Nat}
    {extra : Ctx → State → Nat → Bool} {body : Ctx → State → Nat → List Rd → LaneRes} :
    Answers s (laneInstr i s nres codes dst marks lat extra body) :=
  .frame fun _ h => h.shadowCheck fun _ _ _ ht => ht.finish.takeTraps.delayed

end Sys2Proof.Machine
end

section
/-! PROOFS. Translation and the accesses of lanes and units keep the canonical form. -/

namespace Sys2Proof.Machine

/-! ### What the answers of translations and accesses carry -/

section
variable {α : Type} {u : State} {a : α}

theorem Dev.Keeps.ok {d : Dev α} (hd : d.Keeps) (e : d = .ok u a) : u.Canonical := by subst e; exact hd
theorem Dev.Keeps.blocked {d : Dev α} (hd : d.Keeps) (e : d = .blocked u) : u.Canonical := by subst e; exact hd
theorem Tr.Keeps.ok {r : Tr} {pa kind : Nat} {b : Bool} (hr : r.Keeps) (e : r = .ok u pa kind b) : u.Canonical := by subst e; exact hr
theorem Tr.Keeps.later {r : Tr} (hr : r.Keeps) (e : r = .later u) : u.Canonical := by subst e; exact hr

/-- Every state that the check of an access answers with is canonical. -/
def Check.Keeps : Check → Prop
  | .ok s _ | .later s => s.Canonical
  | _ => True

theorem Check.Keeps.ok {c : Check} {ps : List (Loc × Nat)} (hc : c.Keeps) (e : c = .ok u ps) : u.Canonical := by subst e; exact hc
theorem Check.Keeps.later {c : Check} (hc : c.Keeps) (e : c = .later u) : u.Canonical := by subst e; exact hc

/-- Every state that the checks of an issue answer with is canonical. -/
def Checked.Keeps : Checked → Prop
  | .done s _ | .later s => s.Canonical
  | _ => True

theorem Checked.Keeps.done {c : Checked} {cs : List LaneChk} (hc : c.Keeps) (e : c = .done u cs) : u.Canonical := by subst e; exact hc
theorem Checked.Keeps.later {c : Checked} (hc : c.Keeps) (e : c = .later u) : u.Canonical := by subst e; exact hc

end

namespace State

variable {s t : State}

/-! ### Module memory, in the form of the chain rules -/

theorem Canonical.recallHost {pa n : Nat} (h : s.Canonical) : (s.recallHost pa n).Canonical := recall_memoryOk h _ _
theorem Canonical.recallDirty {pa n : Nat} (h : s.Canonical) : (s.recallDirty pa n).Canonical := recallDirty_memoryOk h _ _
theorem Canonical.homeWrite {pa : Nat} {bs : List Byte} {psn : Bool} (h : s.Canonical) : (s.homeWrite pa bs psn).Canonical :=
  homeWrite_memoryOk h _ _ _
theorem Canonical.physWrite {pa : Nat} {bs : List Byte} {psn : Bool} (h : s.Canonical) : (s.physWrite pa bs psn).Canonical :=
  physWrite_memoryOk h _ _ _
theorem Canonical.setPhysWord {pa : Nat} {w : Word} (h : s.Canonical) : (s.setPhysWord pa w).Canonical := setPhysWord_memoryOk h _ _
theorem Canonical.setEntry {loc : Nat} {w : Word} (h : s.Canonical) : (s.setEntry loc w).Canonical := setEntry_memoryOk h _ _
theorem Canonical.viewAs {frame key : Nat} (h : s.Canonical) : (s.viewAs frame key).Canonical := viewAs_memoryOk h _ _
theorem Canonical.newView {frame key : Nat} (h : s.Canonical) : (s.newView frame key).Canonical := newView_memoryOk h _ _
theorem Canonical.lendFound {tn va pa : Nat} (h : s.Canonical) : (s.lendFound tn va pa).Canonical := lendFound_memoryOk h _ _ _
theorem Canonical.uses {tn va : Nat} {l : Leaf} {acc : Acc} (h : s.Canonical) : (s.uses tn l va acc).Canonical := uses_memoryOk h _ _ _ _
theorem Canonical.setFramePsn {pa : Nat} {ws : List Nat} (h : s.Canonical) : (s.setFramePsn pa ws).Canonical := h
theorem Canonical.checkLeaf {tn va : Nat} {l : Leaf} {acc : Acc} (h : s.Canonical) : (s.checkLeaf tn l va acc).Keeps :=
  checkLeaf_keeps h _ _ _ _
theorem Canonical.xlate {tn va : Nat} {acc : Acc} (h : s.Canonical) : (s.xlate tn va acc).Keeps := xlate_keeps h _ _ _
theorem Canonical.devXlate {tn va : Nat} {acc : Acc} (h : s.Canonical) : (s.devXlate tn va acc).Keeps := devXlate_keeps h _ _ _
theorem Canonical.restoreTo {cold frame : Nat} {c : Cold} (h : s.Canonical) : (s.restoreTo cold c frame).Canonical :=
  restoreTo_memoryOk h _ _ _
theorem Canonical.restoreFrame {loc va : Nat} {die : Option Nat} (h : s.Canonical) (e : s.restoreFrame loc va die = some t) :
    t.Canonical := restoreFrame_memoryOk h e
theorem Canonical.devMap {tn va n : Nat} {acc : Acc} (h : s.Canonical) : (s.devMap tn va n acc).Keeps := devMap_keeps h _ _ _ _
theorem Canonical.devRead {tn va n : Nat} (h : s.Canonical) : (s.devRead tn va n).Keeps := devRead_keeps h _ _ _
theorem Canonical.putParts {ps : List (Nat × Nat × Nat)} {bs : List Byte} (h : s.Canonical) : (s.putParts ps bs).Canonical :=
  putParts_memoryOk _ _ h
theorem Canonical.devWrite {tn va : Nat} {bs : List Byte} (h : s.Canonical) : (s.devWrite tn va bs).Keeps := devWrite_keeps h _ _ _
theorem Canonical.targetFault {tn va acc : Nat} {f : FaultInfo} (h : s.Canonical) : (s.targetFault tn va acc f).Canonical :=
  targetFault_memoryOk h _ _ _ _
theorem Canonical.owe {os : List Owed} (h : s.Canonical) : (s.owe os).Canonical := owe_memoryOk h _
theorem Canonical.devPut {tn va : Nat} {bs : List Byte} {f : FaultInfo} (h : s.Canonical) : (s.devPut tn va bs f).Canonical :=
  devPut_memoryOk h _ _ _ _
theorem Canonical.devAdd {tn va : Nat} {v : Word} (h : s.Canonical) : (s.devAdd tn va v).Keeps := devAdd_keeps h _ _ _
theorem Canonical.scrWrite {tk off : Nat} {bs : List Byte} {psn : Bool} (h : s.Canonical) : (s.scrWrite tk off bs psn).Canonical :=
  scrWrite_memoryOk h _ _ _ _
theorem Canonical.l1Drop {c tn v : Nat} (h : s.Canonical) : (s.l1Drop c tn v).Canonical := l1Drop_memoryOk h _ _ _
theorem Canonical.l1Read {c tn v pa n : Nat} (h : s.Canonical) : (s.l1Read c tn v pa n).1.Canonical := l1Read_memoryOk h _ _ _ _ _
theorem Canonical.readPieces {x : Ctx} {l : Nat} {fresh : Bool} {ps : List (Loc × Nat)} (h : s.Canonical) :
    (s.readPieces x l fresh ps).1.Canonical := readPieces_memoryOk _ _ _ _ h
theorem Canonical.drainWcb {key l : Nat} (h : s.Canonical) : (s.drainWcb key l).Canonical := drainWcb_memoryOk h _ _
theorem Canonical.writePieces {x : Ctx} {l : Nat} {psn : Bool} {ps : List (Loc × Nat)} {bs : List Byte} (h : s.Canonical) :
    (s.writePieces x l psn ps bs).Canonical := writePieces_memoryOk _ _ _ _ _ h

/-! ### Owed writes -/

theorem Canonical.pay {os : List Owed} (h : s.Canonical) : (State.pay os s).1.Canonical := by
  induction os generalizing s with
  | nil => exact h
  | cons o os ih =>
    cases o with
    | put tn va bs =>
      simp only [State.pay]
      split
      · exact ih (h.devWrite.ok ‹_›)
      · exact ih h.targetFault
      · exact h
      · exact ih h
    | add tn va v =>
      simp only [State.pay]
      split
      · exact ih (h.devAdd.ok ‹_›)
      · exact ih h.targetFault
      · exact h
      · exact ih h

theorem Canonical.payOwed (h : s.Canonical) : s.payOwed.Canonical :=
  Canonical.foldl (s := { s with work := { s.work with owed := [] } }) h fun _ _ h => h.pay.owe

/-! ### Host-virtual addresses -/

theorem Canonical.ats {die pasid page : Nat} (h : s.Canonical) (e : s.ats die pasid page = .waiting t) : t.Canonical := by
  unfold State.ats at e
  repeat' split at e
  all_goals cases e
  all_goals exact h

theorem Canonical.atsForget {die pasid page : Nat} (h : s.Canonical) : (s.atsForget die pasid page).Canonical := by
  unfold State.atsForget
  split <;> exact h

theorem Canonical.atsForgetFailure {die pasid page : Nat} (h : s.Canonical) : (s.atsForgetFailure die pasid page).Canonical := h

theorem Canonical.xlateHv {ln : Launch} {die va : Nat} {acc : Acc} (h : s.Canonical) : (s.xlateHv ln die va acc).1.Keeps := by
  unfold State.xlateHv
  split
  · trivial
  · split
    · exact h.ats ‹_›
    · trivial
    · trivial
    · extract_lets ok
      split
      · trivial
      · split
        · split
          · trivial
          · exact h.checkLeaf
        · trivial

/-! ### The accesses of lanes -/

theorem Canonical.pieces {tn space : Nat} {acc : Acc} {vs : List (Nat × Nat)} {ps : List (Loc × Nat)} (h : s.Canonical) :
    (State.pieces tn acc space vs s ps).Keeps := by
  induction vs generalizing s ps with
  | nil => exact h
  | cons v vs ih =>
    unfold State.pieces
    split
    · exact ih (h.xlate.ok ‹_›)
    · trivial
    · trivial
    · trivial
    · exact h.xlate.later ‹_›

theorem Canonical.access {x : Ctx} {space l n align : Nat} {a : Word} {acc : Acc} (h : s.Canonical) :
    (s.access x space l a n align acc).Keeps := by
  unfold State.access
  dsimp only
  split
  · trivial
  · split
    · exact h.pieces
    · split
      · trivial
      · exact h
    · split
      · trivial
      · repeat' split
        · trivial
        · exact h
        · trivial
    · repeat' split
      · trivial
      · exact h.pieces
      · exact h.pieces
    · split
      · exact Tr.Keeps.ok (h.xlateHv (acc := acc)) (congrArg Prod.fst ‹_›)
      · trivial
      · trivial
      · trivial
      · exact Tr.Keeps.later (h.xlateHv (acc := acc)) (congrArg Prod.fst ‹_›)
    · split
      · trivial
      · exact h.pieces

theorem Canonical.readElems {x : Ctx} {l n k : Nat} {fresh : Bool} {ps : List (Loc × Nat)} (h : s.Canonical) :
    (s.readElems x l fresh n k ps).1.Canonical := by
  induction k generalizing s ps with
  | zero => exact h
  | succ k ih => exact ih h.readPieces

theorem Canonical.writeElems {x : Ctx} {l : Nat} {es : List (List Byte × Bool)} {ps : List (Loc × Nat)} (h : s.Canonical) :
    (s.writeElems x l es ps).Canonical := by
  induction es generalizing s ps with
  | nil => exact h
  | cons e es ih => exact ih h.writePieces

theorem Canonical.recallPieces {ps : List (Loc × Nat)} (h : s.Canonical) : (s.recallPieces ps).Canonical :=
  h.foldl fun _ _ h => by
    split
    · exact h.recallDirty
    · exact h

theorem Canonical.atsUsed {x : Ctx} {space : Nat} {cs : List LaneChk} (h : s.Canonical) : (s.atsUsed x space cs).Canonical := by
  unfold State.atsUsed
  dsimp only
  split
  · refine h.foldl fun _ _ h => ?_
    split
    · exact h.atsForgetFailure
    · exact h
  · exact h

theorem Canonical.checkAll {x : Ctx} {space : Nat} {acc : Acc} {es : List (Nat × Word × Nat × Nat)} {cs : List LaneChk}
    (h : s.Canonical) : (State.checkAll x space acc es s cs).Keeps := by
  induction es generalizing s cs with
  | nil => exact h.atsUsed
  | cons e es ih =>
    unfold State.checkAll
    split
    · exact ih h
    · split
      · exact ih (h.access.ok ‹_›)
      · exact ih h
      · exact ih h
      · trivial
      · exact h.access.later ‹_›

theorem Canonical.pageRequest {pasid page : Nat} {w : Bool} (h : s.Canonical) : (s.pageRequest pasid page w).Canonical := by
  unfold State.pageRequest
  split <;> exact h

theorem Canonical.parkFaults {x : Ctx} {acc : Acc} {cs : List LaneChk} {p : Option Resume} (h : s.Canonical) :
    (s.parkFaults x acc cs p).Canonical := h.foldl fun u _ h => by
  dsimp only
  split
  · exact h.joinLanes
  · apply Canonical.parkLanes
    split
    · exact h.pageRequest
    · exact h

end State
end Sys2Proof.Machine
end

section
/-! PROOFS. Loads, stores, prefetches and L1 control answer a next state and keep the canonical form. -/

namespace Sys2Proof.Machine

/-- Every state that a run of elements stops with is canonical. -/
def Stop.Keeps : Stop → Prop
  | .later s => s.Canonical
  | _ => True

theorem Stop.Keeps.later {k : Stop} {u : State} (hk : k.Keeps) (e : k = .later u) : u.Canonical := by subst e; exact hk

/-- Accesses in lane order, each of which keeps the form. -/
theorem performAll_canonical {act : State → Nat → List (Loc × Nat) → State × List RedVal} {ps : List (Nat × List (Loc × Nat))}
    {s : State} {outs : List Out} (h : s.Canonical) (ha : ∀ s l p, s.Canonical → (act s l p).1.Canonical) :
    (performAll act ps s outs).1.Canonical := by
  induction ps generalizing s outs with
  | nil => exact h
  | cons p ps ih => exact ih (ha _ _ _ h)

namespace State

variable {s t : State}

theorem Canonical.drainReleases {x : Ctx} {order : BitVec 2} {scope : BitVec 3} {acc : Acc} {cs : List LaneChk} (h : s.Canonical) :
    (s.drainReleases x order scope acc cs).Canonical := h.foldl fun _ _ h => .ite h.drainWcb h

theorem Canonical.mismatchAt {x : Ctx} {f : FmtM} {ea : Nat → Word} (h : s.Canonical) : (s.mismatchAt x f ea).Canonical := h.mismatch

theorem Canonical.writeMasked {x : Ctx} {l mask : Nat} {psn : Bool} {bs : List Byte} {ps : List (Loc × Nat)} (h : s.Canonical) :
    (s.writeMasked x l psn mask bs ps).Canonical := by
  unfold State.writeMasked
  split
  · refine .ite h.writePieces (h.foldl fun _ _ h => .ite ?_ h)
    split
    · exact h.writePieces
    · exact h.writePieces
  · exact h

theorem Canonical.ntForget {x : Ctx} {cs : List LaneChk} (h : s.Canonical) : (s.ntForget x cs).Canonical :=
  h.foldl fun _ _ h => by
    split
    · exact h.atsForget
    · exact h

theorem Canonical.cmpElems {x : Ctx} {f : FmtM} {b : Word} {es : List (Nat × Nat)} (h : s.Canonical) :
    (State.cmpElems x f b es s).1.Canonical ∧ (State.cmpElems x f b es s).2.2.Keeps := by
  induction es generalizing s with
  | nil => exact ⟨h, trivial⟩
  | cons e es ih =>
    simp only [State.cmpElems]
    split
    · have hu := h.access.ok ‹_›
      split
      · exact ⟨.ite hu.drainWcb hu, trivial⟩
      · split
        · exact ⟨.ite hu.drainWcb hu, trivial⟩
        · exact ih (State.Canonical.ite hu.drainWcb hu).writeElems
    · exact ⟨h, trivial⟩
    · exact ⟨h, trivial⟩
    · exact ⟨h, trivial⟩
    · exact ⟨h.access.later ‹_›, h.access.later ‹_›⟩

theorem Canonical.recordPoint {key : Nat} {p : Resume} (h : s.Canonical) : (s.recordPoint key p).1.Canonical := by
  unfold State.recordPoint
  split <;> exact h

theorem Canonical.l1Fill {x : Ctx} {va : Nat} (h : s.Canonical) : (s.l1Fill x va).Canonical := by
  unfold State.l1Fill
  split
  · split
    · exact .ite h.viewAs.l1Read h
    · exact h
  · exact h

end State

variable {s : State}

theorem Answers.memInstr {i : Instr} {f : FmtM} {codes : List (BitVec 6)} {nres : Nat} {dst : BitVec 6} {acc : Acc}
    {size : Ctx → State → Nat → Nat × Nat} {deny : List Nat} {data : Ctx → State → Nat → List RedVal}
    {psn : Ctx → State → Nat → Bool} {consumed : Bool} {act : Ctx → State → Nat → List (Loc × Nat) → State × List RedVal}
    (ha : ∀ x s l p, s.Canonical → (act x s l p).1.Canonical) :
    Answers s (memInstr i s f codes nres dst acc size deny data psn consumed act) := .frame fun x h => by
  refine .ite h.consume (.ite h.mismatchAt ?_)
  split
  · exact h.checkAll.later ‹_›
  · exact h.consume
  · dsimp only
    split
    · exact h.consume
    · exact (performAll_canonical (h.checkAll.done ‹_›).drainReleases (ha x)).finishLong.takeTraps.parkFaults

theorem Answers.memUniform {i : Instr} {f : FmtM} {codes : List (BitVec 6)} {nres : Nat} {dst : BitVec 6} {acc : Acc}
    {data : Ctx → State → List (List Byte × Bool)} {act : Ctx → State → List (Loc × Nat) → State × List RedVal}
    (ha : ∀ x s p, s.Canonical → (act x s p).1.Canonical) : Answers s (memUniform i s f codes nres dst acc data act) :=
  .frame fun x h => by
    split
    · exact h
    · refine .ite h.consume ?_
      split
      · exact h.finishLong
      · refine .ite h.finishLong.takeTraps (.ite h.mismatchAt ?_)
        dsimp only
        split
        · exact h.access.later ‹_›
        · exact h.consume
        · exact h.finishLong.takeTraps
        · exact h.finishLong.takeTraps.parkFaults
        · exact .ite h.consume (ha _ _ _ (h.access.ok ‹_›).drainReleases).finishLong.takeTraps

theorem Answers.memNt {i : Instr} {f : FmtM} {codes : List (BitVec 6)} {nres : Nat} {acc : Acc}
    {data : Ctx → State → Nat → List (List Byte × Bool)} {act : Ctx → State → Nat → LaneChk → State × List RedVal}
    (ha : ∀ x s l k, s.Canonical → (act x s l k).1.Canonical) : Answers s (memNt i s f codes nres acc data act) :=
  .frame fun x h => by
    refine .ite h.consume (.ite h.mismatchAt ?_)
    split
    · exact h.checkAll.later ‹_›
    · exact h.consume
    · dsimp only
      split
      · exact h.consume
      · refine (State.Canonical.ntForget ?_).finishLong.takeTraps
        refine List.foldlRecOn (motive := fun a : State × List Out => a.1.Canonical) _ _ (h.checkAll.done ‹_›).drainReleases ?_
        exact fun a hu c _ => ha _ _ _ _ hu

section
variable {c : Common} {f : FmtM}

theorem Answers.execLd : Answers s (execLd c f s) := .memInstr fun x s l p h => by
  dsimp only
  split
  · exact h.readElems
  · exact h.readElems

theorem Answers.execSt : Answers s (execSt c f s) := .memInstr fun _ _ _ _ h => h.writeElems
theorem Answers.execLd_2 : Answers s (execLd_2 c f s) := .memInstr fun _ _ _ _ h => h.readElems
theorem Answers.execSt_2 : Answers s (execSt_2 c f s) := .memInstr fun _ _ _ _ h => h.writeElems
theorem Answers.execStBm : Answers s (execStBm c f s) := .memInstr fun _ _ _ _ h => h.writeMasked
theorem Answers.execStZ : Answers s (execStZ c f s) := .memInstr fun _ _ _ _ h => h.writePieces
theorem Answers.execLdK : Answers s (execLdK c f s) := .memUniform fun _ _ _ h => h.readPieces
theorem Answers.execStK : Answers s (execStK c f s) := by
  unfold Machine.execStK
  exact .memUniform fun _ _ _ h => h.writeElems

theorem Answers.execLdNt : Answers s (execLdNt c f s) := .memNt fun _ _ _ k h => by
  dsimp only
  split
  · exact h.readPieces
  · exact h

theorem Answers.execStNt : Answers s (execStNt c f s) := .memNt fun _ _ _ k h => by
  split
  · exact h.writeElems
  · exact h

theorem Answers.execStCmp : Answers s (execStCmp c f s) := .frame fun x h => by
  extract_lets +onlyGivenNames strict point s1
  clear_value point
  have h1 : s1.Canonical := by
    unfold s1
    split
    · exact h.modGroup
    · exact h
  split
  · exact h1.finishLong
  · extract_lets +onlyGivenNames n
    refine .ite h.finishLong.takeTraps (.ite h.consume (.ite h.mismatchAt ?_))
    extract_lets +onlyGivenNames ranked first b
    refine .ite h1.finishLong.takeTraps ?_
    have hr := fun es => (State.Canonical.ite (c := 2 ≤ f.order.toNat ∧ f.scope = 5)
      (h1.foldl (l := x.on) (f := fun s l => s.drainWcb x.key l) fun _ _ h => h.drainWcb) h1).cmpElems (x := x) (f := f) (b := b) (es := es)
    extract_lets +onlyGivenNames elems r
    replace hr := hr elems
    change r.1.Canonical ∧ r.2.2.Keeps at hr
    clear_value r
    obtain ⟨hr, hk⟩ := hr
    split
    · exact hr.finishLong
    · exact (hk.later ‹_›).recordPoint
    · exact hr.consume
    · exact hr.finishLong.takeTraps
    · exact hr.finishLong.recordPoint.parkFaults

theorem Answers.execLdExp : Answers s (execLdExp c f s) := .frame fun x h => by
  extract_lets +onlyGivenNames strict
  split
  · exact h.finishLong
  · refine .ite h.finishLong.takeTraps (.ite h.consume (.ite h.mismatchAt (.ite h.finishLong.takeTraps ?_)))
    extract_lets elems
    split
    · exact h.checkAll.later ‹_›
    · exact h.consume
    · have hd := h.checkAll.done ‹_›
      dsimp only
      split
      · exact hd.finishLong.parkFaults
      · exact hd.finishLong.takeTraps
      · exact (performAll_canonical hd fun _ _ _ h => h.readPieces).finishLong

theorem Answers.execPf : Answers s (execPf c f s) := .frame fun _ h =>
  .ite h.consume (.ite h.mismatchAt (State.Canonical.ite (h.foldl fun _ _ h => h.l1Fill) h).finish.takeTraps)

theorem Answers.execPfK : Answers s (execPfK c f s) := .frame fun _ h =>
  .ite h.consume (.ite h.mismatchAt (State.Canonical.ite (h.foldl fun _ _ h => h.l1Fill) h).finish.takeTraps)

end
end Sys2Proof.Machine
end

section
/-! PROOFS. Atomics, the wake table, barriers, sets, joins, pools. -/

namespace Sys2Proof.Machine
namespace State

variable {s t : State}

/-! ### Translations that instructions ask for -/

theorem Canonical.xlatOf {x : Ctx} {space va : Nat} (h : s.Canonical) : (s.xlatOf x space va).1.Canonical := by
  unfold State.xlatOf
  split
  · repeat' split
    all_goals exact h
  · split
    · exact h
    · split
      · exact h.ats ‹_›
      · exact h
      · exact h
      · repeat' split
        all_goals exact h

theorem Canonical.atsSpent {x : Ctx} {space : Nat} {vas : List Nat} (h : s.Canonical) : (s.atsSpent x space vas).Canonical := by
  unfold State.atsSpent
  split
  · exact .ite h (h.foldl fun _ _ h => .ite h.atsForget h)
  · exact h

/-! ### The wake table -/

theorem Canonical.enter {w : Waiter} (h : s.Canonical) : (s.enter w).Canonical := h
theorem Canonical.unlist {g l : Nat} (h : s.Canonical) : (s.unlist g l).Canonical := h

theorem Canonical.wakeOne {w : Waiter} {n : Nat} (h : s.Canonical) : (s.wakeOne w n).Canonical := .ite h.enter h.resumePair

theorem Canonical.signalRing {tn key : Nat} (h : s.Canonical) : (s.signalRing tn key).Canonical := .ite (h.same rfl rfl rfl) h

theorem Canonical.wake {tn key n status : Nat} (h : s.Canonical) : (s.wake tn key n status).1.Canonical := by
  unfold State.wake
  extract_lets +onlyGivenNames ws vs _ u
  have hu : u.Canonical := h
  exact (hu.foldl fun _ _ h => h.wakeOne).signalRing

theorem Canonical.recallLine {tn key : Nat} (h : s.Canonical) : (s.recallLine tn key).Canonical := .ite h.say h

theorem Canonical.waitLanes {x : Ctx} {f : FmtM} {s0 : State} {ps : List (Nat × List (Loc × Nat))} {outs : List Out}
    {ws : List (Nat × Wait)} (h : s.Canonical) : (State.waitLanes x f s0 ps s outs ws).1.Canonical := by
  induction ps generalizing s outs ws with
  | nil => exact h
  | cons p ps ih =>
    unfold State.waitLanes
    dsimp only
    split
    · exact ih h
    · split
      · exact ih h
      · exact ih h.enter

theorem Canonical.settle {x : Ctx} {ws : List (Nat × Wait)} {outs : List Out} {nres : Nat} {first : Option (BitVec 6)}
    {dst : BitVec 6} (h : s.Canonical) : (s.settle x ws outs nres first dst).Canonical := .ite h.finishLong h.startWait

/-! ### Groups, barriers, joins and sets -/

theorem Canonical.placeGroup {tk gid : Nat} {ls : List Lane} (h : s.Canonical) (e : s.placeGroup tk gid ls = some t) : t.Canonical := by
  unfold State.placeGroup at e
  repeat' split at e
  all_goals cases e
  exact h.setGroup

theorem Canonical.setBar {tk b : Nat} {v : Barrier} (h : s.Canonical) : (s.setBar tk b v).Canonical := by
  unfold State.setBar
  split
  · refine .ite (h.modTeam fun _ => by rfl) ?_
    split
    · exact h.modGang
    · exact h
  · exact h

theorem Canonical.wakeBar {tk b : Nat} (h : s.Canonical) : (s.wakeBar tk b).Canonical := h.foldl fun _ _ h => h.resume

theorem Canonical.checkBar {tk b : Nat} (h : s.Canonical) : (s.checkBar tk b).Canonical := by
  unfold State.checkBar
  dsimp only
  split
  · exact .ite h.setBar.wakeBar h
  · exact h

theorem Canonical.arrive {tk b n : Nat} {e : Option Nat} (h : s.Canonical) : (s.arrive tk b n e).Canonical := h.setBar.checkBar

theorem Canonical.trapWaiting {ls : List (Nat × Nat)} {opc cause : Nat} (h : s.Canonical) : (s.trapWaiting ls opc cause).Canonical :=
  (h.foldl fun _ _ h => h.unwait).trapLanes

/-- Lanes that resume one after the other. -/
theorem Canonical.resumeAll {ls : List (Nat × Nat)} {vals : List RedVal} {prd : Option Bool} (h : s.Canonical) :
    (ls.foldl (fun s e => s.resume e.1 e.2 vals prd) s).Canonical := h.foldl fun _ _ h => h.resume

theorem Canonical.checkJoin {ms : List (Nat × Nat)} {kind : WaitKind} {obj : Word} (h : s.Canonical) :
    (s.checkJoin ms kind obj).1.Canonical := by
  unfold State.checkJoin
  split
  · exact h
  · split
    · split
      · exact h.resumeAll
      · exact h.trapWaiting
    · exact h

theorem Canonical.modSet {tk i : Nat} {f : MSet → MSet} (h : s.Canonical) : (s.modSet tk i f).Canonical := h.modTeam fun _ => by rfl

theorem Canonical.checkSet {tk i : Nat} (h : s.Canonical) : (s.checkSet tk i).Canonical := by
  unfold State.checkSet
  extract_lets close ms r u vs
  have hu : u.Canonical := .ite h.checkJoin.modSet h
  exact .ite hu.resumeAll.modSet (.ite hu.modSet hu)

theorem Canonical.recheck {tk : Nat} (h : s.Canonical) : (s.recheck tk).Canonical :=
  (((h.foldl fun _ _ h => h.checkJoin).foldl fun _ _ h => h.checkSet).foldl fun _ _ h => h.checkBar).foldl fun _ _ h => h.checkBar

theorem Canonical.leaveSets {tk gid : Nat} {m : LaneMask} (h : s.Canonical) : (s.leaveSets tk gid m).Canonical := h.modTeam fun _ => by rfl

theorem Canonical.exitLanes {key : Nat} {m : LaneMask} (h : s.Canonical) : (s.exitLanes key m).Canonical := by
  unfold State.exitLanes
  split
  · exact h.modGroup.leaveSets.modGroup.recheck
  · exact h

theorem Canonical.openGates (h : s.Canonical) : s.openGates.Canonical := h.foldl fun _ _ h => by
  repeat' split
  · exact h.foldl fun _ _ h => h.resume
  all_goals exact h

theorem Canonical.gateCount {lk i : Nat} (h : s.Canonical) : (s.gateCount lk i).Canonical := h.modLaunch.openGates

theorem Canonical.checkRls {tk : Nat} (h : s.Canonical) : (s.checkRls tk).Canonical := by
  unfold State.checkRls
  split
  · exact .ite h h.gateCount
  · exact h

theorem Canonical.wakeLead {tk : Nat} (h : s.Canonical) : (s.wakeLead tk).Canonical := .ite h.resumeAll h

/-! ### The binner -/

theorem Canonical.modPool {tk : Nat} {f : Pool → Pool} (h : s.Canonical) : (s.modPool tk f).Canonical := h.modTeam fun _ => by rfl
theorem Canonical.started {lk : Nat} (h : s.Canonical) : (s.started lk).Canonical := h

theorem Canonical.formGroup {tk bin : Nat} (h : s.Canonical) (e : s.formGroup tk bin = some t) : t.Canonical := by
  unfold State.formGroup at e
  split at e
  · split at e
    · extract_lets +onlyGivenNames b used at e
      split at e
      · split at e
        · cases e
        · exact .map (fun _ hu => h.placeGroup hu) (fun _ hu => .ite hu.modPool.started hu.modPool) e
      · cases e
    · cases e
  · cases e

theorem Canonical.devPutWords {tn va : Nat} {ws : List Word} {psn : List Bool} (h : s.Canonical) : (s.devPutWords tn va ws psn).Keeps := by
  unfold State.devPutWords
  split
  · exact (h.devMap.ok ‹_›).foldl fun _ _ h => h.physWrite
  · exact h.devMap.ok ‹_›
  · trivial
  · trivial
  · trivial
  · exact h.devMap.blocked ‹_›

theorem Canonical.spillRec {tk : Nat} {tm : Team} {ln : Launch} {p : Pool} {r : ContRec} (h : s.Canonical) :
    (s.spillRec tk tm ln p r).Canonical := by
  unfold State.spillRec
  refine .ite h.modPool ?_
  split
  · exact (h.devPutWords.ok ‹_›).modPool
  · exact h.targetFault.modPool
  · exact (h.devPutWords.blocked ‹_›).modPool
  · exact h.modLaunch

theorem Canonical.spillHeld {tk : Nat} (h : s.Canonical) : (s.spillHeld tk).Canonical := by
  unfold State.spillHeld
  repeat' split
  · exact h.modPool.spillRec
  all_goals exact h

theorem Canonical.binArrive {tk : Nat} {r : ContRec} (h : s.Canonical) (e : s.binArrive tk r = some t) : t.Canonical := by
  unfold State.binArrive at e
  split at e
  · split at e
    · extract_lets +onlyGivenNames add put bins at e
      have hput : ∀ {u : State} {i : Nat}, u.Canonical → (put u i).Canonical := fun hu => hu.modPool
      split at e
      · cases e
        exact hput h
      · extract_lets free at e
        have hfree : ∀ {u : State}, u.Canonical → free u = some t → t.Canonical := fun hu e => by
          obtain ⟨bs, -, e⟩ := Option.bind_eq_some_iff.1 e
          obtain ⟨i, -, rfl⟩ := Option.map_eq_some_iff.1 e
          exact hput hu
        split at e
        · exact hfree h e
        · split at e
          · rename_i ho
            obtain ⟨o, -, ho⟩ := Option.bind_eq_some_iff.1 ho
            exact hfree (h.formGroup ho) e
          · split at e
            · cases e
              exact h.spillRec
            · cases e
    · cases e
  · cases e

end State

variable {s : State}

theorem Answers.atomInstr {i : Instr} {f : FmtM} {codes : List (BitVec 6)} {nres : Nat} {dst : BitVec 6}
    {rmw : Ctx → State → Nat → List Byte → Option (List Byte) × List Word} : Answers s (atomInstr i s f codes nres dst rmw) :=
  .frame fun x h => by
    refine .ite h.consume (.ite h.mismatchAt ?_)
    split
    · exact h.checkAll.later ‹_›
    · exact h.consume
    · have hd := h.checkAll.done ‹_›
      dsimp only
      split
      · exact h.consume
      · refine (performAll_canonical hd.drainReleases fun _ _ _ h => ?_).finishLong.takeTraps.parkFaults
        dsimp only
        split
        · exact h.recallPieces.writePieces
        · exact h.recallPieces

section
variable {c : Common} {f : FmtM}

theorem Answers.execL1Inv : Answers s (execL1Inv c f s) := .plainFrame fun _ h =>
  .ite h.mismatch (State.Canonical.ite h (h.modCore fun _ => by rfl)).finishLong

theorem Answers.execXlatPf : Answers s (execXlatPf c f s) := .frame fun x h => by
  refine .ite h.consume (.ite h.mismatchAt ?_)
  extract_lets r
  have hr : r.1.Canonical := List.foldlRecOn (motive := fun a : State × List (Nat × Option Word) => a.1.Canonical) _ _ h
    fun a ha l _ => ha.xlatOf
  exact .ite hr hr.atsSpent.finishLong.takeTraps

theorem Answers.execFence : Answers s (execFence c f s) := .plainFrame fun _ h =>
  .ite h.mismatch (State.Canonical.ite (h.foldl fun _ _ h => h.drainWcb) h).finishLong

theorem Answers.execWait : Answers s (execWait c f s) := .frame fun x h => by
  refine .ite h.consume (.ite h.mismatchAt ?_)
  split
  · exact h.checkAll.later ‹_›
  · exact h.consume
  · dsimp only
    split
    · exact h.consume
    · exact (h.checkAll.done ‹_›).waitLanes.settle.takeTraps.parkFaults

theorem Answers.execWake : Answers s (execWake c f s) := .frame fun x h => by
  refine .ite h.consume (.ite h.mismatchAt ?_)
  split
  · exact h.checkAll.later ‹_›
  · exact h.consume
  · exact (performAll_canonical (h.checkAll.done ‹_›).drainReleases fun _ _ _ h => h.wake.recallLine).finishLong.takeTraps.parkFaults

end
end Sys2Proof.Machine
end

section
/-! PROOFS. Punty's copy commands keep the canonical form. -/

namespace Sys2Proof.Machine

/-- The state that a failed copy carries, if any, is canonical. -/
def CpErr.Keeps : CpErr → Prop
  | .blocked s => s.Canonical
  | _ => True

/-- As `CpErr.Keeps`, of an error that there may be. -/
def errKeeps (o : Option CpErr) : Prop := ∀ e, o = some e → e.Keeps

theorem errKeeps_none : errKeeps none := fun _ he => absurd he (by simp)

theorem errKeeps_some {e : CpErr} (h : e.Keeps) : errKeeps (some e) := fun _ he => by cases he; exact h

theorem errKeeps_or {a b : Option CpErr} (ha : errKeeps a) (hb : errKeeps b) : errKeeps (a.or b) := fun e he => by
  cases a with
  | none => exact hb e he
  | some _ => exact ha e he

theorem Dev.Keeps.err? {α : Type} {d : Dev α} {acc : Acc} (h : d.Keeps) : errKeeps (d.err? acc) := by
  cases d with
  | ok => exact errKeeps_none
  | blocked => exact errKeeps_some h
  | _ => exact errKeeps_some trivial

/-- The states of a chunk are canonical. -/
def Chunk.Keeps : Chunk → Prop
  | .ok s _ => s.Canonical
  | .fail s e => s.Canonical ∧ e.Keeps

theorem Chunk.Keeps.ok {k : Chunk} {u : State} {c : Cmd} (h : k.Keeps) (e : k = .ok u c) : u.Canonical := by subst e; exact h
theorem Chunk.Keeps.fail {k : Chunk} {u : State} {x : CpErr} (h : k.Keeps) (e : k = .fail u x) : u.Canonical ∧ x.Keeps := by
  subst e; exact h

namespace State

variable {s t : State}

/-! ### Accesses of a copy command -/

theorem Canonical.cpGlobal {tn a : Nat} {acc : Acc} (h : s.Canonical) : (s.cpGlobal tn a acc).Keeps := by
  unfold State.cpGlobal
  split
  · exact h.devXlate.ok ‹_›
  · trivial
  · trivial
  · trivial
  · exact h.devXlate.later ‹_›

theorem Canonical.cpMap {tk space a n : Nat} {acc : Acc} (h : s.Canonical) : (s.cpMap tk space a n acc).Keeps := by
  unfold State.cpMap
  split
  · split
    · exact h.cpGlobal
    · split
      · trivial
      · exact h
    · dsimp only
      repeat' split
      · trivial
      · exact h
      · trivial
  · trivial

theorem Canonical.cpMaps {tk space : Nat} {acc : Acc} {as : List (Nat × Nat)} {ls : List (CpLoc × Nat)} (h : s.Canonical) :
    (State.cpMaps tk space acc as s ls).Keeps := by
  induction as generalizing s ls with
  | nil => exact h
  | cons a as ih =>
    unfold State.cpMaps
    split
    · exact ih (h.cpMap.ok ‹_›)
    · trivial
    · trivial
    · trivial
    · exact h.cpMap.blocked ‹_›

theorem Canonical.cpRange {tk space a n : Nat} {acc : Acc} (h : s.Canonical) : (s.cpRange tk space a n acc).Keeps := h.cpMaps

theorem Canonical.cpTenants {tn : Nat} {acc : Acc} {as : List (Nat × Nat)} {ls : List (CpLoc × Nat)} (h : s.Canonical) :
    (State.cpTenants tn acc as s ls).Keeps := by
  induction as generalizing s ls with
  | nil => exact h
  | cons a as ih =>
    unfold State.cpTenants
    split
    · exact ih (h.cpGlobal.ok ‹_›)
    · trivial
    · trivial
    · trivial
    · exact h.cpGlobal.blocked ‹_›

theorem Canonical.cpTenant {tn a n : Nat} {acc : Acc} (h : s.Canonical) : (s.cpTenant tn a n acc).Keeps := h.cpTenants

theorem Canonical.cpRead {tk space a n : Nat} (h : s.Canonical) : (s.cpRead tk space a n).Keeps := by
  unfold State.cpRead
  split
  · exact h.cpRange.ok ‹_›
  · trivial
  · trivial
  · trivial
  · exact h.cpRange.blocked ‹_›

theorem Canonical.tenRead {tn va n : Nat} (h : s.Canonical) : (s.tenRead tn va n).Keeps := by
  unfold State.tenRead
  split
  · exact h.devMap.ok ‹_›
  · trivial
  · trivial
  · trivial
  · exact h.devMap.blocked ‹_›

theorem Canonical.cpRun {core tn : Nat} {l : CpLoc} {bs : List Byte} {psn : Bool} (h : s.Canonical) :
    (s.cpRun core tn l bs psn).Canonical := by
  unfold State.cpRun
  split
  · exact h.l1Drop.physWrite
  · exact h.scrWrite

theorem Canonical.cpGranules {core tn fuel : Nat} {l : CpLoc} {bs : List PByte} (h : s.Canonical) :
    (State.cpGranules core tn fuel l bs s).Canonical := by
  induction fuel generalizing s l bs with
  | zero => exact h
  | succ fuel ih => exact .ite h (ih h.cpRun)

theorem Canonical.cpPut {core tn : Nat} {l : CpLoc} {bs : List PByte} (h : s.Canonical) : (s.cpPut core tn l bs).Canonical := by
  refine .ite h.cpGranules (Canonical.cpRun (h.foldl fun _ _ h => ?_))
  split
  · exact h.l1Drop
  · exact h

theorem Canonical.cpPuts {core tn : Nat} {ls : List (CpLoc × Nat)} {bs : List PByte} (h : s.Canonical) :
    (State.cpPuts core tn ls bs s).Canonical := by
  induction ls generalizing s bs with
  | nil => exact h
  | cons l ls ih => exact ih h.cpPut

theorem Canonical.cpMaybe {core tn : Nat} {l : CpLoc} {bs : List PByte} (h : s.Canonical) : (s.cpMaybe core tn l bs).Canonical :=
  h.foldl fun _ _ h => .ite h.cpRun h

/-! ### Completion -/

theorem Canonical.engineKill {tk core reason : Nat} {a : Word} (h : s.Canonical) : (s.engineKill tk core reason a).Canonical := by
  unfold State.engineKill
  split
  · exact h.kill
  · exact h

theorem Canonical.dropCmd {core i : Nat} (h : s.Canonical) : (s.dropCmd core i).Canonical := h.modCore fun _ => by rfl
theorem Canonical.setCmd {core i : Nat} {c : Cmd} (h : s.Canonical) : (s.setCmd core i c).Canonical := h.modCore fun _ => by rfl

theorem Canonical.cmdDone {core i elem : Nat} {c : Cmd} {code : BitVec 8} (h : s.Canonical) : (s.cmdDone core i c code elem).Canonical := by
  unfold State.cmdDone
  extract_lets keep u v
  have hv : v.Canonical := .ite (h.dropCmd.tagDone.modTeam fun _ => by rfl) h.dropCmd.tagDone
  exact .ite hv.engineKill hv

theorem Canonical.engineFault {tk tn gid core va acc : Nat} {pc : Word} {who : FaultFor} (h : s.Canonical) :
    (s.engineFault tk tn gid core pc va acc who).1.Canonical := by
  unfold State.engineFault
  split
  · exact h.post
  · exact h.post

theorem Canonical.cmdFail {core i elem : Nat} {c : Cmd} {e : CpErr} (h : s.Canonical) (he : e.Keeps) :
    (s.cmdFail core i c elem e).Canonical := by
  cases e with
  | fault => exact .ite h.engineFault.setCmd h.engineFault.cmdDone
  | prot => exact h.cmdDone
  | poison => exact h.cmdDone
  | malformed => exact h.cmdDone
  | blocked => exact he

/-! ### Tensors and tiles -/

theorem Canonical.tensorRow {tk y x0 n : Nat} {tt : Tensor} (h : s.Canonical) : (s.tensorRow tk tt y x0 n).Keeps := by
  unfold State.tensorRow
  dsimp only
  generalize (if tt.dim1 ≤ y then 0 else min n (tt.dim0 - x0)) = k
  split
  · exact h
  · split
    · exact h.cpRead.ok ‹_›
    · trivial
    · trivial
    · trivial
    · exact h.cpRead.blocked ‹_›

theorem Canonical.tensorRows {tk x0 n : Nat} {tt : Tensor} {ys : List Nat} {rs : List (List Elem)} (h : s.Canonical) :
    (State.tensorRows tk tt x0 n ys s rs).Keeps := by
  induction ys generalizing s rs with
  | nil => exact h
  | cons y ys ih =>
    unfold State.tensorRows
    split
    · exact ih (h.tensorRow.ok ‹_›)
    · trivial
    · trivial
    · trivial
    · exact h.tensorRow.blocked ‹_›

theorem Canonical.putTile {core off : Nat} {c : Cmd} {bs : List PByte} (h : s.Canonical) : (s.putTile core c off bs).Canonical :=
  .ite (putSlot_memoryOk h _ _ _ _) h.cpPut

theorem Canonical.putTileRow {core dst r : Nat} {c : Cmd} {cs : List Conv} (h : s.Canonical) :
    (s.putTileRow core c dst r cs).Canonical := .ite h.putTile.putTile.putTile h.putTile.putTile

theorem Canonical.putSums {core : Nat} {c : Cmd} (h : s.Canonical) : (s.putSums core c).Canonical := h.cpPut

theorem Canonical.tileChunk {core : Nat} {c : Cmd} {tt : Tensor} (h : s.Canonical) : (s.tileChunk core c tt).Keeps := by
  unfold State.tileChunk
  dsimp only
  split
  · split
    · exact (h.tensorRows.ok ‹_›).foldl fun _ _ h => h.putTileRow
    · exact ⟨h, trivial⟩
    · exact ⟨h, trivial⟩
    · exact ⟨h, trivial⟩
    · exact ⟨h.tensorRows.blocked ‹_›, h.tensorRows.blocked ‹_›⟩
  · split
    · exact (h.tensorRow.ok ‹_›).putTileRow
    · exact ⟨h, trivial⟩
    · exact ⟨h, trivial⟩
    · exact ⟨h, trivial⟩
    · exact ⟨h.tensorRow.blocked ‹_›, h.tensorRow.blocked ‹_›⟩

end State

/-! ### Raw copies -/

theorem rawRead_keeps {tk ss ds : Nat} {pattern : Option Word} {old : Sparse PByte} {ps : List Part} {r : Raw}
    (hs : r.s.Canonical) (he : errKeeps r.err) :
    (rawRead tk ss ds pattern old ps r).s.Canonical ∧ errKeeps (rawRead tk ss ds pattern old ps r).err := by
  induction ps generalizing r with
  | nil => exact ⟨hs, he⟩
  | cons p ps ih =>
    unfold rawRead
    extract_lets +onlyGivenNames source
    have hd : source.Keeps := by
      unfold source
      split
      · exact hs
      · exact hs.cpRead
    clear_value source
    split
    · have hu := hd.ok rfl
      split
      · exact ih (hu.cpMap.ok ‹_›) he
      · exact ih hu (errKeeps_or he hu.cpMap.err?)
    · exact ih hs (errKeeps_or he hd.err?)

namespace State

variable {s t : State}

theorem Canonical.rawChunk {core ss ds src dst off n total : Nat} {c : Cmd} {pattern : Option Word} (h : s.Canonical) :
    (s.rawChunk core c ss ds pattern src dst off n total).Keeps := by
  unfold State.rawChunk
  extract_lets +onlyGivenNames parts r tenant
  have hr : r.s.Canonical ∧ errKeeps r.err := rawRead_keeps h errKeeps_none
  clear_value r
  obtain ⟨hs, he⟩ := hr
  split
  · exact ⟨hs.foldl fun _ _ h => h.cpMaybe, he _ ‹_›⟩
  · exact hs.foldl fun _ _ h => h.cpPut

theorem Canonical.putRow {core tk y x0 : Nat} {tt : Tensor} {bs : List PByte} (h : s.Canonical) :
    (s.putRow core tk tt y x0 bs).1.Canonical ∧ errKeeps (s.putRow core tk tt y x0 bs).2 := by
  unfold State.putRow
  extract_lets +onlyGivenNames tenant
  split
  · exact ⟨h, errKeeps_none⟩
  · extract_lets +onlyGivenNames parts r
    have hr : r.1.Canonical ∧ errKeeps r.2.2.1 := by
      refine List.foldlRecOn (motive := fun a : State × List (CpLoc × List PByte) × Option CpErr × Nat =>
        a.1.Canonical ∧ errKeeps a.2.2.1) _ _ ⟨h, errKeeps_none⟩ fun a ⟨ha, he⟩ p _ => ?_
      split
      · exact ⟨ha.cpMap.ok ‹_›, he⟩
      · exact ⟨ha, errKeeps_or he ha.cpMap.err?⟩
    clear_value r
    obtain ⟨hs, he⟩ := hr
    split
    · exact ⟨hs.foldl fun _ _ h => h.cpPut, errKeeps_none⟩
    · exact ⟨hs.foldl fun _ _ h => h.cpMaybe, errKeeps_some (he _ ‹_›)⟩

theorem Canonical.outChunk {core : Nat} {c : Cmd} {tt : Tensor} (h : s.Canonical) : (s.outChunk core c tt).Keeps := by
  unfold State.outChunk
  extract_lets n bs es y o
  have hp := h.putRow (core := core) (tk := c.team) (tt := tt) (y := y) (x0 := c.col0) (bs := o.1)
  split
  · rename_i hu
    rw [hu] at hp
    exact ⟨hp.1, hp.2 _ rfl⟩
  · rename_i hu
    rw [hu] at hp
    exact hp.1

theorem Canonical.cmdChunk {core : Nat} {c : Cmd} (h : s.Canonical) : (s.cmdChunk core c).Keeps := by
  unfold State.cmdChunk
  extract_lets k len
  split
  · exact h.rawChunk
  · exact h.rawChunk
  · split
    · exact ⟨h, trivial⟩
    · exact h.rawChunk
  · split
    · exact ⟨h, trivial⟩
    · exact h.rawChunk
  · split
    · exact ⟨h, trivial⟩
    · split
      · exact ⟨h, trivial⟩
      · split
        · exact h.outChunk
        · exact h.tileChunk

theorem Canonical.cmdEnd {core i : Nat} {c : Cmd} (h : s.Canonical) : (s.cmdEnd core i c).Canonical := by
  unfold State.cmdEnd
  extract_lets u
  have hu : u.Canonical := .ite h.putSums h
  split
  · exact hu.cmdDone
  · exact hu.cmdDone

theorem Canonical.puntyStep {core : Nat} {err : ErrClass} (h : s.Canonical) : (s.puntyStep core err).Canonical := by
  unfold State.puntyStep
  split
  · exact h
  · extract_lets +onlyGivenNames elem err u
    have hu : u.Canonical := .ite h.count h
    clear_value u err
    refine .ite hu.cmdDone (.ite (hu.count.modCore fun _ => by rfl).cmdDone.engineKill ?_)
    split
    · split
      · exact .ite (hu.devRead.ok ‹_›).cmdDone (hu.devRead.ok ‹_›).setCmd
      · exact hu.cmdFail trivial
      · exact hu.cmdFail trivial
      · exact hu.cmdFail trivial
      · exact hu.devRead.blocked ‹_›
    · split
      · exact .ite (hu.cmdChunk.ok ‹_›).cmdEnd (hu.cmdChunk.ok ‹_›).setCmd
      · obtain ⟨hv, he⟩ := hu.cmdChunk.fail ‹_›
        exact hv.cmdFail he

end State
end Sys2Proof.Machine
end

section
/-! PROOFS. Locks, promises and claims answer a next state, and conveyance keeps the canonical form. -/

namespace Sys2Proof.Machine
namespace State

variable {s t : State}

theorem Canonical.modEstate {key : Nat} {f : Estate → Estate} (h : s.Canonical) : (s.modEstate key f).Canonical := h
theorem Canonical.dropWaiter {w : Waiter} (h : s.Canonical) : (s.dropWaiter w).Canonical := h

theorem Canonical.reserve {c : Cell} {w : Word} (h : s.Canonical) : (s.reserve c w).Canonical :=
  .ite h.setPhysWord (h.setPhysWord.same rfl rfl rfl)

theorem Canonical.give {c : Cell} {key scope : Nat} {claim brv : Bool} {range : Word} (h : s.Canonical) :
    (s.give c key claim range scope brv).Canonical :=
  (Canonical.ite h.setPhysWord.setPhysWord h.setPhysWord).modEstate

theorem Canonical.offer {c : Cell} {brv : Bool} {ws : List Waiter} (h : s.Canonical) : (State.offer c brv ws s).1.Canonical := by
  induction ws generalizing s with
  | nil => exact h
  | cons w ws ih =>
    unfold State.offer
    dsimp only
    split
    · exact ih h.dropWaiter.resumePair
    · exact h.dropWaiter.give.resumePair

theorem Canonical.handOff {c : Cell} {brv : Bool} (h : s.Canonical) : (s.handOff c brv).Canonical := h.setPhysWord.offer

theorem Canonical.settleProm {c : Cell} {status v : Word} (h : s.Canonical) : (s.settleProm c status v).Canonical :=
  h.foldl fun _ _ h => h.dropWaiter.resumePair

theorem Canonical.take {c : Cell} {key lane opc scope : Nat} {claim tries : Bool} {range : Word} (h : s.Canonical) :
    (s.take c key lane opc claim tries range scope).1.Canonical := by
  unfold State.take
  dsimp only
  split
  · exact h
  split
  · exact h
  split
  · split
    · exact h
    · exact h.give
  split
  · exact h
  split
  · exact h
  · exact h.enter

theorem Canonical.release {c : Cell} {key : Nat} {claim : Bool} (h : s.Canonical) : (s.release c key claim).1.Canonical := by
  unfold State.release
  dsimp only
  split
  · exact h
  split
  · exact h
  · exact h.modEstate.handOff

theorem Canonical.pass {c : Cell} {key target : Nat} (h : s.Canonical) : (s.pass c key target).1.Canonical := by
  unfold State.pass
  dsimp only
  split
  · exact h
  split
  · exact h.modEstate.reserve.offer
  · exact h

theorem Canonical.make {c : Cell} {key scope : Nat} (h : s.Canonical) : (s.make c key scope).1.Canonical := by
  unfold State.make
  dsimp only
  split
  · exact h
  split
  · exact h
  split
  · exact h
  · exact h.setPhysWord.setPhysWord.modEstate

theorem Canonical.settle2 {c : Cell} {key : Nat} {kept : Bool} {v : Word} (h : s.Canonical) :
    (s.settle2 c key kept v).1.Canonical := by
  unfold State.settle2
  extract_lets +onlyGivenNames w0
  split
  · exact h
  split
  · exact h
  · exact h.setPhysWord.setPhysWord.modEstate.settleProm

theorem Canonical.await {c : Cell} {key lane scope : Nat} {tries : Bool} (h : s.Canonical) :
    (s.await c key lane tries scope).1.Canonical := by
  unfold State.await
  extract_lets +onlyGivenNames w0 w v
  split
  · exact h
  split
  · exact h
  split
  · exact h
  split
  · exact h
  split
  · exact h
  · exact h.enter

theorem Canonical.cellLanes {x : Ctx} {f : FmtM} {va : Nat → Nat} {op : State → Nat → Cell → State × CellRes}
    {ps : List (Nat × List (Loc × Nat))} {outs : List Out} {ws : List (Nat × Wait)} (h : s.Canonical)
    (ho : ∀ s l c, s.Canonical → (op s l c).1.Canonical) : (State.cellLanes x f va op ps s outs ws).1.Canonical := by
  induction ps generalizing s outs ws with
  | nil => exact h
  | cons p ps ih =>
    unfold State.cellLanes
    split
    · dsimp only
      split
      · exact ih (ho _ _ _ h.l1Drop)
      · exact ih (ho _ _ _ h.l1Drop)
    · exact ih h

/-! ### Conveyance -/

theorem Canonical.estateRecord {d : Departure} {e : EstEntry} {heirless : Bool} {n : Nat} (h : s.Canonical)
    (ht : s.estateRecord d e heirless n = some t) : t.Canonical := by
  unfold State.estateRecord at ht
  dsimp only at ht
  split at ht
  · cases ht
    exact h
  split at ht
  · split at ht
    · cases ht
    · cases ht
      exact h.devPut.modLaunch
  · cases ht
    exact h.modLaunch

theorem Canonical.conveyCell {c : Cell} {promise : Bool} {heir : Heir} {id : Holder} (h : s.Canonical) :
    (s.conveyCell c promise heir id).Canonical := by
  refine .ite h.setPhysWord.setPhysWord.settleProm ?_
  split
  · exact h.reserve.offer
  · exact h.handOff
  · exact h.setPhysWord.handOff

theorem Canonical.conveyOne {d : Departure} {e : EstEntry} (h : s.Canonical) (ht : s.conveyOne d e = some t) : t.Canonical := by
  unfold State.conveyOne at ht
  extract_lets +onlyGivenNames id est tenant r r counted cell at ht
  have hcell : ∀ u, cell = some u → u.Canonical := by
    intro u hu
    unfold cell at hu
    split at hu
    · cases hu
      exact (h.devMap.ok ‹_›).conveyCell
    · cases hu
    · cases hu
      exact h
  clear_value cell r
  refine .map (fun u hu => ?_) (fun _ hu => hu.modEstate) ht
  obtain ⟨v, hv, hu⟩ := Option.bind_eq_some_iff.1 hu
  have hv := hcell v hv
  split at hu
  · cases hu
    exact hv.wake
  · exact hv.estateRecord hu
  · cases hu
    exact hv

theorem Canonical.conveyList {d : Departure} {es : List EstEntry} (h : s.Canonical) : (State.conveyList d es s).1.Canonical := by
  induction es generalizing s with
  | nil => exact h
  | cons e es ih =>
    unfold State.conveyList
    split
    · exact ih (h.conveyOne ‹_›)
    · exact h

theorem Canonical.convey {d : Departure} (h : s.Canonical) : (s.convey d).1.Canonical := by
  unfold State.convey
  split
  · exact h.conveyList
  · exact h

end State

variable {s : State}

theorem Answers.cellInstr {i : Instr} {f : FmtM} {codes : List (BitVec 6)} {nres : Nat} {releases : Bool}
    {op : Ctx → State → State → Nat → Cell → State × CellRes}
    (ho : ∀ x s0 s l k, s.Canonical → (op x s0 s l k).1.Canonical) : Answers s (cellInstr i s f codes nres releases op) :=
  .frame fun x h => by
    refine .ite h.consume (.ite h.mismatchAt ?_)
    split
    · exact h.checkAll.later ‹_›
    · exact h.consume
    · have hd := h.checkAll.done ‹_›
      dsimp only
      split
      · exact h.consume
      · exact ((hd.foldl fun _ _ h => (State.Canonical.ite h.drainWcb h).recallPieces).cellLanes
          (ho x s)).settle.takeTraps.parkFaults

theorem Answers.queryInstr {i : Instr} {dst : BitVec 6} {nres : Nat} {vals : Estate → List Word} :
    Answers s (queryInstr i s dst nres vals) := .frame fun _ h => .ite h.mismatch h.finish.takeTraps

section
variable {c : Common}

theorem Answers.execHeirSet {f : FmtS} : Answers s (execHeirSet c f s) := .frame fun x h => by
  extract_lets +onlyGivenNames kind strict live outs done
  have hdone : ∀ {u : State} {o : List Out}, u.Canonical → (done u o).Canonical := fun hu => hu.finishLong.takeTraps
  clear_value live
  split
  · exact hdone h
  · refine .ite h.consume (.ite h.mismatch ?_)
    refine .ite ?_ (hdone h.modEstate)
    split
    · exact h.checkAll.later ‹_›
    · exact h.consume
    · have hd := h.checkAll.done ‹_›
      split
      · exact (hdone hd).takeTraps
      · exact (hdone hd).parkFaults
      · exact hdone hd.modEstate

theorem Answers.execHeirClr {f : FmtS} : Answers s (execHeirClr c f s) := .plainFrame fun _ h =>
  .ite h.mismatch (State.Canonical.ite h h.modEstate).finishLong

end
end Sys2Proof.Machine
end

section
/-! PROOFS. Branches, calls, exits, regrouping, launches from the device, synchronisation and engine instructions answer a next
state and keep the canonical form. -/

namespace Sys2Proof.Machine
namespace State

variable {s t : State}

theorem Canonical.finishBranch {x : Ctx} {res : List (Nat × Branch)} {strict : List Trap} {lat : Nat} (h : s.Canonical) :
    (s.finishBranch x res strict lat).Canonical := h.finish.modGroup.takeTraps

theorem Canonical.heirlessExit {x : Ctx} (h : s.Canonical) (e : s.heirlessExit x = some t) : t.Canonical := by
  unfold State.heirlessExit at e
  split at e
  · cases e
    exact h.finish.takeTraps
  · cases e

theorem Canonical.regroupLanes {x : Ctx} {ls : List (Nat × Word)} {gone held : List Nat} (h : s.Canonical) :
    (State.regroupLanes x ls s gone held).1.Canonical := by
  induction ls generalizing s gone held with
  | nil => exact h
  | cons l ls ih =>
    unfold State.regroupLanes
    split
    · exact ih (h.binArrive ‹_›)
    · exact ih h

theorem Canonical.kickSeen {q : Nat} (h : s.Canonical) : (s.kickSeen q).Canonical := by
  refine .ite h ?_
  split
  · exact .ite (h.devRead.ok ‹_›).modQueue (h.devRead.ok ‹_›)
  · exact h

theorem Canonical.ringFault {x : Ctx} {a : Nat} {denied : State → State} {d : Dev Unit} (h : s.Canonical)
    (hden : (denied s).Canonical) (hd : d.Keeps) : (s.ringFault x a denied d).Canonical := by
  cases d with
  | fault => exact h.targetFault
  | prot => exact hden
  | poison => exact h.consume
  | blocked => exact hd
  | ok => exact hd

theorem Canonical.debugStop {key code : Nat} {m : LaneMask} {pc : Word} (h : s.Canonical) : (s.debugStop key m pc code).Canonical := by
  unfold State.debugStop
  split
  · extract_lets mode all u
    have hu : u.Canonical := by
      unfold u
      clear_value mode
      split
      · exact h.modGroup
      · exact h.foldl fun _ _ h => h.modGroup
      · exact h.modGroup
    exact hu.say
  · exact h

theorem Canonical.drainFor {x : Ctx} {f : FmtE} {live : List Nat} (h : s.Canonical) : (s.drainFor x f live).Canonical :=
  .ite (h.foldl fun _ _ h => h.drainWcb) h

theorem Canonical.enqueue {core : Nat} {c : Cmd} (h : s.Canonical) : (s.enqueue core c).Canonical := h.tagIssue.modCore fun _ => by rfl

end State

variable {s : State} {c : Common}

/-! ### Branches, calls and exits -/

theorem Answers.branchInstr {i : Instr} {codes : List (BitVec 6)} {tgt : Bool} {body : Ctx → State → Nat → Branch} :
    Answers s (branchInstr i s codes tgt body) := .frame fun _ h => .ite h.consume (.ite h.mismatch h.finishBranch)

theorem Answers.execLoop {f : FmtB} : Answers s (execLoop c f s) := .frame fun _ h =>
  .ite h.consume (.ite h.mismatch h.modGroup.finishBranch)

theorem Answers.callInstr {i : Instr} {codes : List (BitVec 6)} {call : Bool} {body : Ctx → State → Nat → Branch} :
    Answers s (callInstr i s codes call body) := .frame fun x h => by
  refine .ite h.consume (.ite h.mismatch ?_)
  extract_lets +onlyGivenNames movers acc entry
  clear_value acc entry
  split
  · exact h.checkAll.later ‹_›
  · exact h.consume
  · refine State.Canonical.parkFaults (State.Canonical.finishBranch (State.Canonical.modGroup ?_))
    refine List.foldlRecOn (motive := fun a : State × List (Nat × Option Word) => a.1.Canonical) _ _ (h.checkAll.done ‹_›)
      fun a ha p _ => ?_
    split
    · exact ha
    split
    · exact ha.writePieces
    · exact ha.readPieces

theorem Answers.execJoin {f : FmtS} : Answers s (execJoin c f s) := .plainFrame fun _ h =>
  .ite h.finish.takeTraps h.startWait.recheck

theorem Answers.execExit {f : FmtS} : Answers s (execExit c f s) := .plainFrame fun _ h => by
  refine .ite h.mismatch ?_
  split
  · exact h.heirlessExit ‹_›
  · exact h.finish.exitLanes

theorem Answers.execYield {f : FmtS} : Answers s (execYield c f s) := .plainFrame fun _ h => h.finish.modGroup

theorem Answers.execExitWk {f : FmtS} : Answers s (execExitWk c f s) := .frame fun _ h => by
  refine .ite h.consume (.ite h.mismatch ?_)
  split
  · exact h.heirlessExit ‹_›
  · split
    · exact h.checkAll.later ‹_›
    · exact h.consume
    · exact ((h.checkAll.done ‹_›).foldl fun _ _ h => h.wake.recallLine).finish.exitLanes.takeTraps.parkFaults

theorem Answers.execRegroup {f : FmtB} : Answers s (execRegroup c f s) := .frame fun _ h =>
  .ite h.finish.takeTraps (.ite h.consume (.ite h.mismatch
    (State.Canonical.ite h.regroupLanes.finish h.regroupLanes.startWait).takeTraps.exitLanes))

theorem Answers.launchInstr {i : Instr} {f : FmtE} {kind : Nat} : Answers s (launchInstr i s f kind) := .frame fun x h => by
  refine .ite h.issueTrap (.ite h.issueTrap (.ite h.issueTrap (.ite h.mismatch (.ite h.finish.takeTraps (.ite h
    (.ite (.ite (State.Canonical.ite h.tagIssue.tagDone h).finish.takeTraps h.startWait.takeTraps) ?_))))))
  extract_lets +onlyGivenNames u addr
  have hu : u.Canonical := .ite (h.foldl fun _ _ h => h.drainWcb) h
  split
  · have hw := hu.devWrite.ok ‹_›
    exact (State.Canonical.ite hw.modQueue.tagIssue hw.modQueue).kickSeen.finish.takeTraps
  · exact hu.ringFault hu.issueTrap hu.devWrite

/-! ### Barriers, sets, gates and pacing -/

theorem Answers.execBarArv {f : FmtS} : Answers s (execBarArv c f s) := .frame fun _ h =>
  .ite h.finish.takeTraps (.ite h.finish h.finish.arrive)

theorem Answers.execBarSync {f : FmtS} : Answers s (execBarSync c f s) := .frame fun _ h =>
  .ite (State.Canonical.ite h.finish h.startWait).takeTraps (.ite h.finish.takeTraps h.startWait.arrive)

theorem Answers.execBarRd {f : FmtS} : Answers s (execBarRd c f s) := .plainFrame fun _ h => h.finish
theorem Answers.execSetJoin {f : FmtS} : Answers s (execSetJoin c f s) := .plainFrame fun _ h => h.modSet.finish
theorem Answers.execSetLeave {f : FmtS} : Answers s (execSetLeave c f s) := .plainFrame fun _ h => h.modSet.finish.checkSet

theorem Answers.execSetSync {f : FmtS} : Answers s (execSetSync c f s) := .frame fun _ h =>
  .ite h.consume (.ite h.finish.takeTraps (State.Canonical.ite h.modSet h).startWait.checkSet)

theorem Answers.execGate {f : FmtS} : Answers s (execGate c f s) := .plainFrame fun _ h => by
  split
  · exact h.finish
  · exact .ite h.finish h.startWait

theorem Answers.execRls {f : FmtS} : Answers s (execRls c f s) := .plainFrame fun _ h =>
  .ite h.finish h.finish.modGroup.checkRls

theorem Answers.execLeadAdv {f : FmtS} : Answers s (execLeadAdv c f s) := .plainFrame fun _ h =>
  (State.Canonical.ite h (h.modTeam fun _ => by rfl)).finish

theorem Answers.execLeadWait {f : FmtS} : Answers s (execLeadWait c f s) := .plainFrame fun _ h => .ite h.finish h.startWait

theorem Answers.execTwait {f : FmtS} : Answers s (execTwait c f s) := .frame fun _ h =>
  .ite h.consume (State.Canonical.ite h.finish h.startWait).takeTraps

/-! ### Traps, system calls and stops -/

theorem Answers.execTrap {f : FmtS} : Answers s (execTrap c f s) := .frame fun _ h => h.finish.takeTraps

theorem Answers.syscInstr {i : Instr} {f : FmtS} {prd : Option Nat} : Answers s (syscInstr i s f prd) := .frame fun x h => by
  extract_lets +onlyGivenNames strict live first done
  have hdone : ∀ {u : State} {o : List Out}, u.Canonical → (done u o).Canonical := fun hu => hu.finish.takeTraps
  clear_value live
  split
  · exact hdone h
  · refine .ite h.consume (.ite h.mismatch ?_)
    split
    · exact hdone h
    · extract_lets +onlyGivenNames full
      have hfull : ∀ {u : State}, u.Canonical → (full u).Canonical := fun hu => by
        unfold full
        split
        · exact hdone hu
        · exact (hdone hu).modGroup
      split
      · have hr := h.devRead.ok ‹_›
        refine .ite (hfull hr) ?_
        extract_lets +onlyGivenNames u addr lanes
        have hu : u.Canonical := hr.foldl fun _ _ h => h.drainWcb
        split
        · refine State.Canonical.takeTraps ?_
          have hw := hu.devWrite.ok ‹_›
          split
          · exact hw.modTenant.startWait.modGroup
          · exact hw.modTenant.startWait
        · exact hu.ringFault (hfull hu) hu.devWrite
      · exact h.ringFault (hfull h) trivial
      · exact hfull h
      · exact h.consume
      · exact h.devRead.blocked ‹_›

theorem Answers.execBrk {f : FmtS} : Answers s (execBrk c f s) := .plainFrame fun _ h => .ite h.finish.debugStop h.finish
theorem Answers.execNop {f : FmtS} : Answers s (execNop c f s) := .plainFrame fun _ h => h.finish

/-! ### Copy commands and tags -/

theorem Answers.engineInstr {i : Instr} {f : FmtE} {perLane : Bool} {nres : Nat} {first : Option (BitVec 6)}
    {checks : Ctx → State → List UCheck} {body : Ctx → List Nat → State → State}
    (hb : ∀ x ls s, s.Canonical → (body x ls s).Canonical) : Answers s (engineInstr i s f perLane nres first checks body) :=
  .frame fun x h => by
    split
    · exact h.issueTrap
    · exact .ite h.consume (.ite h.takeTraps (State.Canonical.ite h.finishLong (hb _ _ _ h)).takeTraps)

theorem Answers.cpInstr {i : Instr} {f : FmtE} {checks : Ctx → State → List UCheck} : Answers s (cpInstr i s f checks) :=
  .engineInstr fun _ _ _ h => .ite h h.drainFor.enqueue.finishLong

section
variable {f : FmtE}

theorem Answers.execCpRes : Answers s (execCpRes c f s) := .engineInstr fun _ _ _ h => by
  refine .ite h (State.Canonical.finishLong ?_)
  split
  · exact (h.drainFor.modCore fun _ => by rfl).enqueue
  · exact h.drainFor.tagIssue.tagDone

theorem Answers.execTagWait : Answers s (execTagWait c f s) := .engineInstr fun _ _ _ h => .ite h h.finishLong
theorem Answers.execTagAny : Answers s (execTagAny c f s) := .engineInstr fun _ _ _ h => .ite h h.finishLong
theorem Answers.execTagFfr : Answers s (execTagFfr c f s) := .engineInstr fun _ _ _ h => h.finishLong
theorem Answers.execTagSt : Answers s (execTagSt c f s) := .engineInstr fun _ _ _ h =>
  (State.Canonical.ite (h.modCore fun _ => by rfl) h).finishLong
theorem Answers.execTagClr : Answers s (execTagClr c f s) := .engineInstr fun _ _ _ h => (h.modCore fun _ => by rfl).finishLong

end
end Sys2Proof.Machine
end

section
/-! PROOFS. Lane-crossing, predicate and special-function instructions, the matrix queue and Lehr. -/

namespace Sys2Proof.Machine

variable {s t : State}

/-! ### Arithmetic with a frame of its own -/

theorem Answers.pairP {i : Instr} {f : FmtP} {lat : Nat} {body : Word → Word → Bool × FpFlags} : Answers s (pairP i s f lat body) :=
  .frame fun _ h => (State.Canonical.ite h.finish.modGroup h.finish).takeTraps

theorem Answers.crossT {i : Instr} {f : FmtT} {codes : List (BitVec 6)}
    {body : Ctx → State → Nat → Word × Bool × List (Nat × Bool) × FpFlags} : Answers s (crossT i s f codes body) :=
  .frame fun _ h => h.finish.takeTraps

section
variable {c : Common}

theorem Answers.execRdxFadd {f : FmtT} : Answers s (execRdxFadd c f s) := .frame fun x h => by
  extract_lets +onlyGivenNames m leaves nums retires clean
  have hret : ∀ {u : State} {n : Nat} {sum : Nat → List (Option Nat) × FpFlags}, u.Canonical → (retires u n sum).Canonical :=
    fun hu => hu.finish.takeTraps.delayed
  clear_value retires clean
  split
  · exact hret h
  · dsimp only
    split
    · exact hret h
    · exact h.outcome fun _ _ _ hu => hret hu

theorem Answers.specialT {i : Instr} {f : FmtT} : Answers s (specialT i s f) := .frame fun x h =>
  h.shadowCheck fun u _ _ hu => by
    refine State.Canonical.takeTraps ?_
    split
    · exact hu.finishLong.setOp
    · exact hu.finishLong

theorem Answers.execCvtPk {f : FmtT} : Answers s (execCvtPk c f s) := by
  unfold Machine.execCvtPk
  split
  · exact .laneInstr
  · exact .laneInstr

theorem Answers.execCvtF8 {f : FmtT} : Answers s (execCvtF8 c f s) := by
  unfold Machine.execCvtF8
  dsimp only
  split
  · exact .laneInstr
  · exact .laneInstr

theorem Answers.execSregWr {f : FmtS} : Answers s (execSregWr c f s) := .frame fun _ h =>
  .ite h.consume h.finish.modGroup.takeTraps

theorem Answers.execPdead {f : FmtS} : Answers s (execPdead c f s) := .frame fun _ h => h.finish.modGroup.takeTraps

end

/-! ### The matrix queue -/

namespace State

theorem Canonical.modTile {core i : Nat} {f : Tile → Tile} (h : s.Canonical) : (s.modTile core i f).Canonical := h.modCore fun _ => by rfl
theorem Canonical.unknown {key id : Nat} (h : s.Canonical) : (s.unknown key id).Canonical := h

theorem Canonical.fillOp {id due : Nat} {vals : Nat → List RedVal} (h : s.Canonical) : (s.fillOp id vals due).Canonical := by
  unfold State.fillOp
  split <;> exact h

theorem Canonical.mmaPerform {core : Nat} {e : MqEntry} {err : ErrClass} (h : s.Canonical) : (s.mmaPerform core e err).Canonical := by
  unfold State.mmaPerform
  extract_lets +onlyGivenNames done put
  have hput : ∀ {u : State} {f : Tile → Tile}, u.Canonical → (put u f).Canonical := fun hu => hu.modTile
  have hdone : ∀ {u : State} {n : Nat}, u.Canonical → (done u n).Canonical := fun hu => hu.fillOp
  clear_value done put
  split
  · exact hdone (hput h)
  · refine .ite (hdone (hput h)) (.ite ?_ (hdone (hput (Canonical.ite h.count h))))
    extract_lets u v
    have hv : v.Canonical := (hdone (Canonical.modTile h.count)).modCore fun _ => by rfl
    clear_value v
    split
    · exact hv.engineKill
    · exact hv

theorem Canonical.matrixStep {core : Nat} {err : ErrClass} (h : s.Canonical) : (s.matrixStep core err).Canonical := by
  unfold State.matrixStep
  split
  · exact h
  · refine .ite h ?_
    extract_lets +onlyGivenNames busy u t done
    have hu : u.Canonical := h.modCore fun _ => by rfl
    have hdone : ∀ {w : State} {v : Nat → List RedVal}, w.Canonical → (done w v).Canonical := fun hw => hw.fillOp
    clear_value u t
    split
    · exact hu.mmaPerform
    · exact hu.mmaPerform
    · exact hdone hu.modTile
    · exact hdone hu
    · exact hdone hu.modTile
    · exact hdone (.ite hu.modTile hu)
    · exact hdone hu
    · exact hdone hu
    · exact hdone hu

/-! ### Lehr -/

theorem Canonical.epiVec {tk k n : Nat} {v : Word} (h : s.Canonical) : (s.epiVec tk v k n).Keeps := by
  unfold State.epiVec
  split
  · exact h.cpRead.ok ‹_›
  · trivial
  · trivial
  · trivial
  · exact h.cpRead.blocked ‹_›

theorem Canonical.epiRow {tk mode i : Nat} {v w : Word} (h : s.Canonical) : (s.epiRow tk mode v w i).Keeps := by
  unfold State.epiRow
  split
  · split
    · exact h.epiVec.ok ‹_›
    · exact h.epiVec
  · exact h.epiVec
  · exact h

theorem Canonical.epiResidual {tk y x0 : Nat} {tt : Tensor} (h : s.Canonical) : (s.epiResidual tk tt y x0).Keeps := by
  unfold State.epiResidual
  extract_lets lo
  split
  · exact h.tensorRow.ok ‹_›
  · trivial
  · trivial
  · trivial
  · exact h.tensorRow.blocked ‹_›

theorem Canonical.epiValues {tk i : Nat} {d : EpiDesc} {rt : Option Tensor} {tl : Tile} (h : s.Canonical) :
    (s.epiValues tk d rt tl i).Keeps := by
  unfold State.epiValues
  extract_lets +onlyGivenNames v0 scale
  have hscale : scale.Keeps := by
    unfold scale
    split
    · exact h
    · split
      · exact h.epiRow.ok ‹_›
      · exact h.epiRow
  clear_value scale
  split
  · have hu := hscale.ok rfl
    extract_lets +onlyGivenNames bias
    have hbias : bias.Keeps := by
      unfold bias
      split
      · exact hu
      · split
        · exact hu.epiRow.ok ‹_›
        · exact hu.epiRow
    clear_value bias
    split
    · have hv := hbias.ok rfl
      split
      · exact hv
      · split
        · exact hv.epiResidual.ok ‹_›
        · trivial
        · trivial
        · trivial
        · exact hv.epiResidual.blocked ‹_›
    · exact hbias
  · exact hscale

theorem Canonical.epiPut {core tk space a : Nat} {bs : List PByte} (h : s.Canonical) :
    (s.epiPut core tk space a bs).1.Canonical ∧ errKeeps (s.epiPut core tk space a bs).2 := by
  unfold State.epiPut
  extract_lets +onlyGivenNames tenant r
  have hr : r.1.Canonical ∧ errKeeps r.2.2.1 := by
    refine List.foldlRecOn (motive := fun a : State × List (CpLoc × List PByte) × Option CpErr × Nat =>
      a.1.Canonical ∧ errKeeps a.2.2.1) _ _ ⟨h, errKeeps_none⟩ fun a ⟨ha, he⟩ p _ => ?_
    split
    · exact ⟨ha.cpMap.ok ‹_›, he⟩
    · exact ⟨ha, errKeeps_or he ha.cpMap.err?⟩
  clear_value r
  obtain ⟨hs, he⟩ := hr
  split
  · exact ⟨hs.foldl fun _ _ h => h.cpPut, errKeeps_none⟩
  · exact ⟨hs.foldl fun _ _ h => h.cpMaybe, errKeeps_some (he _ ‹_›)⟩

theorem Canonical.lehrDone {core tk elem udf : Nat} {e : Epi} {code : BitVec 8} (h : s.Canonical) :
    (s.lehrDone core tk e code elem udf).Canonical := .ite (h.modCore fun _ => by rfl).tagDone.engineKill (h.modCore fun _ => by rfl).tagDone

theorem Canonical.lehrFail {core tk elem : Nat} {e : Epi} {err : CpErr} (h : s.Canonical) (he : err.Keeps) :
    (s.lehrFail core tk e elem err).Canonical := by
  cases err with
  | fault => exact h.engineFault.modCore fun _ => by rfl
  | prot => exact h.lehrDone
  | poison => exact h.lehrDone
  | malformed => exact h.lehrDone
  | blocked => exact he

theorem Canonical.readWords {tn va n : Nat} (h : s.Canonical) : (s.readWords tn va n).Keeps := by
  unfold State.readWords
  split
  · exact h.devRead.ok ‹_›
  · trivial
  · trivial
  · trivial
  · exact h.devRead.blocked ‹_›

theorem Canonical.lehrRead {tn : Nat} {e : Epi} (h : s.Canonical) : (s.lehrRead tn e).Keeps := by
  unfold State.lehrRead
  extract_lets tensor
  split
  · have hu := h.readWords.ok ‹_›
    split
    · trivial
    split
    · exact hu
    extract_lets res
    have hres : res.Keeps := by
      unfold res
      split
      · exact hu.readWords
      · exact hu
    clear_value res
    split
    · have hv := hres.ok rfl
      split
      · trivial
      split
      · exact hv
      split
      · exact hv
      split
      · have hw := hv.readWords.ok ‹_›
        repeat' split
        · trivial
        · exact hw
        · exact hw
        · exact hw
      · trivial
      · trivial
      · trivial
      · exact hv.readWords.blocked ‹_›
    · trivial
    · trivial
    · trivial
    · exact hres
  · trivial
  · trivial
  · trivial
  · exact h.readWords.blocked ‹_›

theorem Canonical.lehrRow {core tk : Nat} {e : Epi} {d : EpiDesc} (h : s.Canonical) : (s.lehrRow core tk e d).Canonical := by
  unfold State.lehrRow
  extract_lets k i words
  split
  · have hu := h.epiValues.ok ‹_›
    extract_lets +onlyGivenNames red es o put
    have hred : red.1.Canonical ∧ errKeeps red.2 := by
      unfold red
      split
      · exact ⟨hu, errKeeps_none⟩
      · exact hu.epiPut
    clear_value red o
    have hput : put.1.Canonical ∧ errKeeps put.2 := by
      unfold put
      split
      · exact hred.1.epiPut
      · exact hred.1.putRow
    clear_value put
    split
    · exact hput.1.lehrFail (errKeeps_or hred.2 hput.2 _ ‹_›)
    · exact .ite hput.1.lehrDone (hput.1.modCore fun _ => by rfl)
  · exact h.lehrFail trivial
  · exact h.lehrFail trivial
  · exact h.lehrFail trivial
  · exact h.epiValues.blocked ‹_›

theorem Canonical.lehrStep {core : Nat} (h : s.Canonical) : (s.lehrStep core).Canonical := by
  unfold State.lehrStep
  extract_lets k
  split
  · refine .ite h (.ite h.lehrDone ?_)
    split
    · split
      · exact (h.lehrRead.ok ‹_›).modCore fun _ => by rfl
      · exact (h.lehrRead.ok ‹_›).lehrDone
      · exact h.lehrFail trivial
      · exact h.lehrFail trivial
      · exact h.lehrFail trivial
      · exact h.lehrRead.blocked ‹_›
    · split
      · exact h.lehrRow
      · exact h
  · exact h

end State

/-! ### The instructions of the ring -/

theorem Answers.ringInstr {i : Instr} {f : FmtE} {perLane : Bool} {nres : Nat} {first : Option (BitVec 6)}
    {entry : Ctx → State → MqEntry} {act : Ctx → State → State} (ha : ∀ x s, s.Canonical → (act x s).Canonical) :
    Answers s (ringInstr i s f perLane nres first entry act) :=
  .engineInstr fun _ _ _ h => .ite h ((ha _ _ h.drainFor).finishLong.unknown.modCore fun _ => by rfl)

theorem nothing_canonical (x : Ctx) (s : State) (h : s.Canonical) : (nothing x s).Canonical := h

section
variable {c : Common} {f : FmtE}

theorem Answers.execRingAdv : Answers s (execRingAdv c f s) := .ringInstr fun _ _ h => h.modCore fun _ => by rfl

theorem Answers.execRingClr : Answers s (execRingClr c f s) := .ringInstr fun _ _ h => .ite (h.modCore fun _ => by rfl) h

theorem Answers.execEpiPost : Answers s (execEpiPost c f s) := .ringInstr fun _ _ h => by
  dsimp only
  split
  · exact h.tagIssue.modTile
  · exact h

end
end Sys2Proof.Machine
end

section
/-! PROOFS. Pontil: counters, commands, reduction steps and what arrives from the network keep the canonical form. -/

namespace Sys2Proof.Machine

variable {s t : State}

namespace State

/-! ### Counters, connections, completion -/

theorem Canonical.fire {n : Nat} (h : s.Canonical) : (s.fire n).Canonical := by
  unfold State.fire
  extract_lets c
  repeat' split
  · exact h.modCounter.arrive
  all_goals exact h

theorem Canonical.countUp {n : Nat} (h : s.Canonical) : (s.countUp n).Canonical := h.modCounter.fire

theorem Canonical.modConn {n : Nat} {f : Conn → Conn} (h : s.Canonical) : (s.modConn n f).Canonical := h

theorem Canonical.nxDone {id : Nat} {code : BitVec 8} (h : s.Canonical) : (s.nxDone id code).Canonical := by
  unfold State.nxDone
  split
  · exact h
  · refine .ite h.setNx ?_
    extract_lets v u w x
    have hu : u.Canonical := by
      unfold u
      split
      · exact h.countUp
      · exact h
    have hw : w.Canonical := hu.delNx.farTagDone.bump
    have hx : x.Canonical := .ite hw.fillOp hw
    exact .ite hx.engineKill hx

theorem Canonical.nxFail {id : Nat} {c : NxCmd} {e : CpErr} (h : s.Canonical) (he : e.Keeps) : (s.nxFail id c e).Canonical := by
  cases e with
  | fault => exact h.engineFault.setNx
  | prot => exact h.nxDone
  | poison => exact h.nxDone
  | malformed => exact h.nxDone
  | blocked => exact he

/-! ### Reduction steps -/

theorem Canonical.putRed {r : RedStep} (h : s.Canonical) : (s.putRed r).Canonical := h
theorem Canonical.dropRed {r : RedStep} (h : s.Canonical) : (s.dropRed r).Canonical := h

theorem Canonical.redAbort {r : RedStep} {code : BitVec 8} {but : Option Nat} (h : s.Canonical) : (s.redAbort r code but).Canonical := by
  unfold State.redAbort
  split
  · extract_lets u
    have hu : u.Canonical := h.dropRed.foldl fun _ _ h => .ite h h.say
    exact Canonical.nxDone (hu.same rfl rfl rfl)
  · exact h.putRed

theorem Canonical.says {ms : List Msg} (h : s.Canonical) : (s.says ms).Canonical := h.foldl fun _ _ h => h.say

theorem Canonical.redForward {r : RedStep} {vals : List RedVal} (h : s.Canonical) : (s.redForward r vals).Canonical :=
  .ite h (Canonical.foldl h fun _ _ h => h.says).putRed

theorem Canonical.redWrite {r : RedStep} {vals : List RedVal} (h : s.Canonical) : (s.redWrite r vals).Canonical := by
  unfold State.redWrite
  split
  · exact h
  · extract_lets w bs
    split
    · exact (h.cpTenant.ok ‹_›).cpPuts.dropRed.setNx.nxDone
    · exact h.nxFail trivial
    · exact h.dropRed.nxDone
    · exact h.dropRed.nxDone
    · exact h.cpTenant.blocked ‹_›

theorem Canonical.redAdvance {r : RedStep} (h : s.Canonical) : (s.redAdvance r).Canonical := by
  unfold State.redAdvance
  refine .ite h (.ite h.redAbort ?_)
  split
  · exact h.redForward.redWrite
  · refine .ite h.putRed (.ite h.putRed.redForward.redWrite ?_)
    dsimp only
    split
    · exact Canonical.redWrite (Canonical.redForward (.ite h.putRed h.putRed.says))
    · exact Canonical.putRed (.ite h.putRed h.putRed.says)

theorem Canonical.redTable {tn peers : Nat} {edges : List Nat} (h : s.Canonical) : (s.redTable tn peers edges).Keeps := by
  refine List.foldlRecOn (motive := Dev.Keeps) _ _ h fun r hr e _ => ?_
  split
  · have hu := hr.ok rfl
    split
    · split
      · trivial
      · exact hu.devRead.ok ‹_›
    · trivial
    · trivial
    · trivial
    · exact hu.devRead.blocked ‹_›
  · exact hr

theorem Canonical.redNumber {id cid : Nat} {c : NxCmd} (h : s.Canonical) : (s.redNumber id c cid).1.Canonical := by
  unfold State.redNumber
  split <;> exact h

theorem Canonical.redPost {id n : Nat} {c : NxCmd} {d : RedDesc} {hs : List (Nat × Nat)} {acc : List RedVal} (h : s.Canonical) :
    (s.redPost id c d n hs acc).Canonical := by
  unfold State.redPost
  extract_lets early r u _ v
  have hv : v.Canonical := h
  clear_value v
  split
  · exact hv.redAbort
  · exact .ite hv.redAbort hv.redAdvance

theorem Canonical.redStart {id : Nat} {c : NxCmd} (h : s.Canonical) : (s.redStart id c).Canonical := by
  unfold State.redStart
  refine .ite h ?_
  split
  · have hu := h.readWords.ok ‹_›
    refine .ite hu.nxDone ?_
    split
    · exact hu.nxDone
    · have hn := fun cid => hu.redNumber (id := id) (c := c) (cid := cid)
      dsimp only
      split
      · have hv := (hn _).redTable.ok ‹_›
        refine .ite hv.nxDone ?_
        split
        · exact (hv.tenRead.ok ‹_›).redPost
        · exact hv.nxFail trivial
        · exact hv.nxFail trivial
        · exact hv.nxFail trivial
        · exact hv.tenRead.blocked ‹_›
      · exact (hn _).nxFail trivial
      · exact (hn _).nxFail trivial
      · exact (hn _).nxFail trivial
      · exact (hn _).redTable.blocked ‹_›
  · exact h.nxFail trivial
  · exact h.nxFail trivial
  · exact h.nxFail trivial
  · exact h.readWords.blocked ‹_›

/-! ### Commands -/

theorem Canonical.nxSend {id : Nat} (h : s.Canonical) : (s.nxSend id).Canonical := by
  unfold State.nxSend
  split
  · exact h
  · refine .ite h (.ite h.nxDone (.ite h.nxDone ?_))
    split
    extract_lets sent local'
    have hsent : ∀ {u : State} {ms : List Msg}, u.Canonical → (sent u ms).Canonical := fun hu => hu.setNx.says
    have hlocal : ∀ {k : State → List Byte → State}, (∀ u bs, u.Canonical → (k u bs).Canonical) → (local' k).Canonical := by
      intro k hk
      unfold local'
      split
      · exact .ite (h.devRead.ok ‹_›).nxDone (hk _ _ (h.devRead.ok ‹_›))
      · exact h.nxFail trivial
      · exact h.nxFail trivial
      · exact h.nxFail trivial
      · exact h.devRead.blocked ‹_›
    clear_value sent local'
    split
    · exact hlocal fun _ _ hu => hsent hu
    · exact hsent h
    · exact hlocal fun _ _ hu => hsent hu
    · exact hsent h
    · exact h.redStart

theorem Canonical.nxFinish {id : Nat} (h : s.Canonical) : (s.nxFinish id).Canonical := by
  unfold State.nxFinish
  split
  · exact h
  · split
    · exact h
    · refine .ite h (.ite h.nxDone (.ite h.nxDone (.ite ?_ h.nxDone)))
      split
      · exact (h.cpTenant.ok ‹_›).cpPuts.setNx.nxDone
      · exact h.nxFail trivial
      · exact h.nxFail trivial
      · exact h.nxFail trivial
      · exact h.cpTenant.blocked ‹_›

theorem Canonical.nxRetry {id : Nat} (h : s.Canonical) : (s.nxRetry id).Canonical := by
  unfold State.nxRetry
  split
  · refine .ite h (.ite h.nxSend (.ite ?_ h.nxFinish))
    split
    · exact .ite h.dropRed.nxDone h.redAdvance
    · exact h
  · exact h

/-! ### What arrives -/

theorem Canonical.resend {n : Nat} (h : s.Canonical) : (s.resend n).Canonical := by
  unfold State.resend
  repeat' split
  all_goals exact h

theorem Canonical.answerOne {hd : NetHead} {m : Msg} (h : s.Canonical) : (s.answerOne hd m).Canonical := h
theorem Canonical.answerTo {hd : NetHead} {m : Msg} (h : s.Canonical) : (s.answerTo hd m).Canonical := h

theorem Canonical.inbound {hd : NetHead} {big write : Bool} {deal : Nat → Tenant → State} (h : s.Canonical)
    (hd' : ∀ n t, (deal n t).Canonical) : (s.inbound hd big write deal).Canonical := by
  unfold State.inbound
  refine .ite h.say (.ite h.say ?_)
  split
  · exact h.say
  · split
    · exact hd' _ _
    · exact h.answerTo

theorem Canonical.whole {hd : NetHead} {total : Nat} {data : List RedVal} {deal : Option (List RedVal) → State} (h : s.Canonical)
    (hd' : ∀ d, (deal d).Canonical) : (s.whole hd total data deal).Canonical := by
  unfold State.whole
  refine .ite (hd' _) ?_
  split
  · exact hd' _
  · exact h

theorem Canonical.putArrived {m : NetPut} {bad : Bool} (h : s.Canonical) : (s.putArrived m bad).Canonical := by
  unfold State.putArrived
  extract_lets same old e rest _ u
  have hu : u.Canonical := h
  refine .ite h ?_
  split
  · exact .ite hu hu.countUp
  · exact hu

theorem Canonical.modServed {hd : NetHead} {n : Nat} (h : s.Canonical) : (s.modServed hd n).Canonical := by
  unfold State.modServed
  split <;> exact h

theorem Canonical.setMailbox {tn n : Nat} {m : Mailbox} (h : s.Canonical) : (s.setMailbox tn n m).Canonical := h

theorem Canonical.ringSend {n : Nat} {t : Tenant} {m : NetSend} (h : s.Canonical) : (s.ringSend n t m).Canonical := by
  unfold State.ringSend
  dsimp only
  refine .ite h.answerTo ?_
  split
  · have hu := h.devRead.ok ‹_›
    refine .ite hu.say ?_
    split
    · exact (hu.devWrite.ok ‹_›).setMailbox.countUp.answerTo
    · exact hu.targetFault
    · exact hu.devWrite.blocked ‹_›
    · exact hu.answerTo
  · exact h.targetFault
  · exact h.devRead.blocked ‹_›
  · exact h.answerTo

theorem Canonical.payToken {n : Nat} {m : NetSend} {b : Mailbox} (h : s.Canonical) : (s.payToken n m b).Canonical := h
theorem Canonical.unpay {hd : NetHead} (h : s.Canonical) : (s.unpay hd).Canonical := h

theorem Canonical.launchByMail {n : Nat} {m : NetSend} {b : Mailbox} (h : s.Canonical) : (s.launchByMail n m b).Canonical := by
  unfold State.launchByMail
  dsimp only
  refine .ite h.say (.ite h.unpay.answerTo ?_)
  split
  · have hu := h.devWrite.ok ‹_›
    split
    · exact (Canonical.kickSeen (hu.devWrite.ok ‹_›).setMailbox.modQueue).countUp.unpay.answerTo
    · exact hu.targetFault
    · exact hu.devWrite.blocked ‹_›
    · exact hu.unpay.answerTo
  · exact h.targetFault
  · exact h.devWrite.blocked ‹_›
  · exact h.unpay.answerTo

theorem Canonical.mailSend {n : Nat} {t : Tenant} {m : NetSend} (h : s.Canonical) : (s.mailSend n t m).Canonical := by
  unfold State.mailSend
  dsimp only
  exact .ite h.unpay.answerTo (.ite h.count.answerTo (.ite h.unpay.answerTo (.ite h.count.answerTo
    (Canonical.launchByMail (.ite h h.payToken)))))

theorem Canonical.partArrived {n : Nat} {m : NetPartial} (h : s.Canonical) : (s.partArrived n m).Canonical := by
  unfold State.partArrived
  split
  · exact h.putRed.redAdvance
  · refine .ite ?_ h
    split
    · exact h.say
    · exact h

theorem Canonical.failConn {n : Nat} (h : s.Canonical) : (s.failConn n).Canonical :=
  (h.foldl fun _ _ h => h.nxDone).foldl fun _ _ h => h.redAbort

end State

/-! ### The instructions of Pontil -/

theorem Answers.nxInstr {i : Instr} {f : FmtE} {nres : Nat} {handle : Word → Word → Nat} : Answers s (nxInstr i s f nres handle) :=
  .engineInstr fun _ _ _ h => .ite h h.drainFor.finishLong.unknown.fresh.tagIssue.setNx.nxSend

section
variable {c : Common} {f : FmtE}

theorem Answers.execNxCnt : Answers s (execNxCnt c f s) := .frame fun _ h => by
  dsimp only
  split
  · exact h.issueTrap
  · exact (State.Canonical.ite h.finish h.finish.modCounter.fire).takeTraps

theorem Answers.execNxCc : Answers s (execNxCc c f s) := .frame fun _ h => by
  dsimp only
  split
  · exact h.issueTrap
  · exact h.finish.takeTraps

end

/-! ### The network -/

theorem Answers.execNxCommandCompletion {cmd : Nat} {a : NetAnswer} : Answers s (execNxCommandCompletion cmd a s) := .next fun h => by
  split
  · exact h
  · exact .ite h (.ite h.resend (.ite h.say (.ite h.modConn.setNx.bump h.modConn.setNx.nxFinish.bump)))

theorem Answers.execInboundPut {m : NetPut} : Answers s (execInboundPut m s) := .next fun h => h.inbound fun _ _ => by
  refine .ite h.putArrived.answerTo ?_
  split
  · exact (h.devWrite.ok ‹_›).putArrived.answerTo
  · exact h.targetFault
  · exact h.devWrite.blocked ‹_›
  · exact h.putArrived.answerTo

theorem Answers.execInboundGet {hd : NetHead} {addr len : Nat} : Answers s (execInboundGet hd addr len s) :=
  .next fun h => h.inbound fun _ _ => by
    split
    · have hu := h.devRead.ok ‹_›
      exact .ite hu.say hu.says.modServed
    · exact h.targetFault
    · exact h.devRead.blocked ‹_›
    · exact h.say

theorem Answers.execInboundSend {m : NetSend} : Answers s (execInboundSend m s) :=
  .next fun h => h.inbound fun _ _ => h.whole fun _ => h.ringSend

theorem Answers.execInboundDeferrableSend {m : NetSend} : Answers s (execInboundDeferrableSend m s) :=
  .next fun h => h.inbound fun _ _ => h.whole fun _ => h.mailSend

theorem Answers.execInboundAtomic {m : NetAtomic} : Answers s (execInboundAtomic m s) := .next fun h => h.inbound fun _ _ => by
  dsimp only
  refine .ite h.answerTo ?_
  split
  · have hu := h.devMap.ok ‹_›
    exact .ite hu.answerTo (.ite hu.answerTo hu.recallDirty.physWrite.answerTo)
  · exact h.devMap.ok ‹_›
  · exact h.targetFault
  · exact h.devMap.blocked ‹_›
  · exact h.answerTo

theorem Answers.execInboundPartial {m : NetPartial} : Answers s (execInboundPartial m s) :=
  .next fun h => h.inbound fun _ _ => .ite h (h.whole fun _ => h.answerTo.partArrived)

theorem Answers.execStepAbort {hd : NetHead} {cid : Nat} {a : NetAbort} : Answers s (execStepAbort hd cid a s) :=
  .next fun h => h.inbound fun _ _ => by
    extract_lets u step code
    have hu : u.Canonical := h.answerTo
    clear_value u
    split
    · exact hu.redAbort
    · exact .ite hu (hu.same rfl rfl rfl)

/-! ### Paths -/

theorem Answers.execRetransmissionTimeout {n p : Nat} : Answers s (execRetransmissionTimeout n p s) := .next fun h => by
  split
  · exact h
  · exact .ite h h.modConn.resend

theorem Answers.execPathProbe {n p : Nat} : Answers s (execPathProbe n p s) := .next fun h => by
  split
  · exact .ite h.say h
  · exact h

theorem Answers.execPathRevival {n p : Nat} : Answers s (execPathRevival n p s) := .next fun h => h.modConn

theorem Answers.execPathGraceExpiry {n : Nat} : Answers s (execPathGraceExpiry n s) := .next fun h => by
  split
  · split
    · exact .ite h h.modConn.failConn
    · exact h
  · exact h

theorem Answers.execLinkDown {n : Nat} : Answers s (execLinkDown n s) := .next fun h => .ite h h

theorem Answers.execConnectionOpen {n tn p k ps : Nat} : Answers s (execConnectionOpen n tn p k ps s) := .next fun h => .ite h h

theorem Answers.execConnectionClose {n : Nat} : Answers s (execConnectionClose n s) := .next fun h => by
  split
  · exact h
  · exact .ite (h.failConn.same rfl rfl rfl) (State.Canonical.modTenant (h.failConn.same rfl rfl rfl))

end Sys2Proof.Machine
end

section
/-! PROOFS. Launch records, packets and queue scripts keep the canonical form. -/

namespace Sys2Proof.Machine

variable {s t : State}

namespace State

/-! ### Launch records -/

theorem Canonical.record {tn va lk : Nat} {ws : List Word} (h : s.Canonical) : (s.record tn va lk ws).Canonical := .ite h h.devPut

theorem Canonical.signal {tn va : Nat} {v : Word} (h : s.Canonical) : (s.signal tn va v).Canonical := by
  unfold State.signal
  refine .ite h ?_
  split
  · exact h.devAdd.ok ‹_›
  · exact h.targetFault
  · exact h.owe
  · exact h

theorem Canonical.childDone {child : Option (Nat × Nat)} {err : Bool} {code : Nat} (h : s.Canonical) :
    (s.childDone child err code).Canonical := by
  unfold State.childDone
  split
  · exact h
  · refine .ite h ?_
    split
    · exact h.modCore fun _ => by rfl
    · exact h

theorem Canonical.freeMail {m : Option (Nat × Nat × Nat)} (h : s.Canonical) : (s.freeMail m).Canonical := by
  unfold State.freeMail
  split <;> exact h

theorem Canonical.afterRecord {l : Launch} {err : Bool} {code : Nat} (h : s.Canonical) : (s.afterRecord l err code).Canonical :=
  h.signal.childDone.freeMail

theorem Canonical.warm {tn : Nat} {as : List Nat} (h : s.Canonical) : (State.warm tn as s).1.Canonical := by
  induction as generalizing s with
  | nil => exact h
  | cons a as ih =>
    unfold State.warm
    split
    · exact ih (h.devXlate.ok ‹_›)
    · exact h.devXlate.later ‹_›
    · exact ih h

theorem Canonical.submit {q addr start ev : Nat} {v : Word} (h : s.Canonical) : (s.submit q addr start ev v).1.Canonical := by
  unfold State.submit
  extract_lets _ lk
  split
  · exact h
  · split
    · exact h.readWords.blocked ‹_›
    · have hu := h.readWords.ok ‹_›
      split
      · exact hu
      · extract_lets +onlyGivenNames _ _ w
        have hw : w.1.Canonical := hu.warm
        clear_value w
        split
        · exact hw
        · dsimp only
          split
          · exact hw.fresh.modQueue.modQueue.record.afterRecord
          · exact hw.fresh.modQueue.modQueue.record.setLaunch
    · exact h
    · exact h

/-! ### Packets -/

theorem Canonical.packetAt {q : Nat} (h : s.Canonical) : (s.packetAt q).Keeps := h.readWords

theorem Canonical.wakeFull {q : Nat} (h : s.Canonical) : (s.wakeFull q).Canonical :=
  h.foldl fun _ _ h => h.foldl fun _ _ h => h.unwait

theorem Canonical.consumePacket {q sts : Nat} (h : s.Canonical) : (s.consumePacket q sts).Canonical :=
  .ite h.modQueue h.devPut.modQueue.wakeFull

theorem Canonical.recordPoison {q : Nat} (h : s.Canonical) : (s.recordPoison q).Canonical := by
  unfold State.recordPoison
  extract_lets _ u
  have hu : u.Canonical := h.childDone
  clear_value u
  split
  · split
    · exact .ite hu.kill hu
    · exact hu
  · exact hu

theorem Canonical.counterAt {tn va : Nat} (h : s.Canonical) : (s.counterAt tn va).Keeps := by
  unfold State.counterAt
  split
  · trivial
  · split
    · split
      · trivial
      · exact h.readWords.ok ‹_›
    · trivial
    · trivial
    · trivial
    · exact h.readWords.blocked ‹_›

theorem Canonical.addAt {tn va : Nat} {v : Word} (h : s.Canonical) : (s.addAt tn va v).Keeps := by
  unfold State.addAt
  split
  · exact (h.counterAt.ok ‹_›).devAdd
  · trivial
  · trivial
  · trivial
  · exact h.counterAt.blocked ‹_›

/-- What a submission answers with, taken apart. -/
theorem Canonical.submitted {q addr start ev : Nat} {v : Word} {r : Submit} (h : s.Canonical)
    (e : s.submit q addr start ev v = (t, r)) : t.Canonical := by
  have hs := h.submit (q := q) (addr := addr) (start := start) (ev := ev) (v := v)
  rwa [e] at hs

theorem Canonical.builtin {q : Nat} {r : Run} (h : s.Canonical) : (s.builtin q r).Canonical := by
  unfold State.builtin
  extract_lets w tn
  split
  · split
    · exact .ite (h.counterAt.ok ‹_›).consumePacket (h.counterAt.ok ‹_›)
    · exact h.counterAt.blocked ‹_›
    · exact h.consumePacket
  · split
    · exact (h.addAt.ok ‹_›).consumePacket
    · exact h.addAt.blocked ‹_›
    · exact h.consumePacket
  · exact h.consumePacket
  · split
    · exact h.submitted ‹_›
    · exact (h.submitted ‹_›).consumePacket
    · exact (h.submitted ‹_›).recordPoison.consumePacket
    · exact (h.submitted ‹_›).consumePacket
    · exact (h.submitted ‹_›).consumePacket

theorem Canonical.packet {q : Nat} {kinds : List Nat} (h : s.Canonical) : (s.packet q kinds).Canonical := by
  unfold State.packet
  dsimp only
  refine .ite h ?_
  split
  · exact h.consumePacket
  · refine .ite ?_ ?_
    · split
      · exact h
      · exact h.modQueue
    · split
      · exact h
      · refine .ite h ?_
        split
        · exact h.builtin
        · split
          · have hu := h.packetAt.ok ‹_›
            exact .ite hu.modQueue.consumePacket hu.modQueue
          · exact h

theorem Canonical.kick {q : Nat} {v : Word} (h : s.Canonical) : (s.kick q v).Canonical := Canonical.kickSeen h.modQueue

end State

theorem Answers.execKick {port offset : Nat} {access : BarAccess} : Answers s (execKick port offset access s) := .next fun h => by
  refine .ite h ?_
  split
  · exact h.say
  · exact .ite h.kick h

theorem Answers.packet {q : Nat} {kinds : List Nat} : Answers s (.next (s.packet q kinds).bump) := .next fun h => h.packet.bump

theorem Answers.execKickEarlyTimeout {q : Nat} : Answers s (execKickEarlyTimeout q s) := .next fun h => by
  split
  · exact .ite h.modQueue h
  · exact h

/-! ### Scripts -/

theorem State.Canonical.scriptTo {q : Nat} {r : Run} (h : s.Canonical) : (s.scriptTo q r).Canonical := h

theorem Answers.scriptInstr {body : Nat → Queue → Run → State} (hb : ∀ n q r, s.Canonical → (body n q r).Canonical) :
    Answers s (scriptInstr s body) := .next fun h => by
  split
  · split
    · exact .ite h (hb _ _ _ h).bump
    · exact h
  · exact h

theorem Answers.scriptCalc {f : Queue → Run → Run} : Answers s (scriptCalc s f) := .scriptInstr fun _ _ _ h => h.scriptTo

theorem Answers.scriptBranch {o : BitVec 12} {taken : Run → Bool} : Answers s (scriptBranch s o taken) :=
  .scriptInstr fun _ _ _ h => h.scriptTo

theorem Answers.execScriptEnd : Answers s (execScriptEnd s) := .scriptInstr fun _ _ _ h => h.scriptTo
theorem Answers.execScriptDrop : Answers s (execScriptDrop s) := .scriptInstr fun _ _ _ h => h.consumePacket

theorem Answers.execScriptLdc {d : BitVec 4} {w : BitVec 12} : Answers s (execScriptLdc d w s) := .scriptInstr fun _ _ _ h => by
  split
  · exact (h.devRead.ok ‹_›).scriptTo
  · exact h.devRead.blocked ‹_›
  · exact h.consumePacket

theorem Answers.execScriptStc {a : BitVec 4} {w : BitVec 12} : Answers s (execScriptStc a w s) := .scriptInstr fun _ _ _ h => by
  split
  · exact (h.devWrite.ok ‹_›).scriptTo
  · exact h.devWrite.blocked ‹_›
  · exact h.consumePacket

theorem Answers.execScriptLoop {d : BitVec 4} {n l : BitVec 8} : Answers s (execScriptLoop d n l s) :=
  .scriptInstr fun _ _ _ h => h.scriptTo

section
variable {a b : BitVec 4}

theorem Answers.execScriptLaunch {d : BitVec 4} : Answers s (execScriptLaunch d a b s) := .scriptInstr fun _ _ _ h => by
  split
  · exact h.submitted ‹_›
  · exact (h.submitted ‹_›).consumePacket
  · exact (h.submitted ‹_›).consumePacket
  · exact (h.submitted ‹_›).scriptTo
  · exact (h.submitted ‹_›).scriptTo

theorem Answers.execScriptEvwait : Answers s (execScriptEvwait a b s) := .scriptInstr fun _ _ _ h => by
  split
  · exact .ite (h.counterAt.ok ‹_›).scriptTo (h.counterAt.ok ‹_›).scriptTo
  · exact h.counterAt.blocked ‹_›
  · exact h.consumePacket

theorem Answers.execScriptEvsig : Answers s (execScriptEvsig a b s) := .scriptInstr fun _ _ _ h => by
  split
  · exact (h.addAt.ok ‹_›).scriptTo
  · exact h.addAt.blocked ‹_›
  · exact h.consumePacket

theorem Answers.execScriptPost : Answers s (execScriptPost a b s) := .scriptInstr fun _ _ _ h => by
  refine .ite h.consumePacket ?_
  split
  · exact (h.devWrite.ok ‹_›).scriptTo
  · exact h.devWrite.blocked ‹_›
  · exact h.consumePacket

end

theorem Answers.execScriptGreq {d : BitVec 4} {c : BitVec 12} : Answers s (execScriptGreq d c s) := .scriptInstr fun _ _ _ h => by
  dsimp only
  split
  · exact h.scriptTo
  · exact h.scriptTo.say

theorem Answers.execScriptBudgetExceeded {q : Nat} : Answers s (execScriptBudgetExceeded q s) := .next fun h => by
  split
  · exact .ite (State.Canonical.consumePacket h.modQueue) h
  · exact h

theorem Answers.execScriptBinding {q : Nat} {i : ScriptImage} : Answers s (execScriptBinding q i s) := .next fun h =>
  .ite h (.ite h h)

end Sys2Proof.Machine
end

section
/-! PROOFS. Cullet keeps the canonical form: cards, acceptance, decoding, completion. -/

namespace Sys2Proof.Machine

variable {s t : State}

/-- Both states that a stage of the decoder answers with are canonical. -/
def Zip.Keeps : Zip → Prop
  | .ok s _ => s.Canonical
  | .stop s _ e => s.Canonical ∧ e.Keeps

theorem Zip.Keeps.ok {z : Zip} {u : State} {j : Job} (h : z.Keeps) (e : z = .ok u j) : u.Canonical := by subst e; exact h
theorem Zip.Keeps.stop {z : Zip} {u : State} {j : Job} {x : CpErr} (h : z.Keeps) (e : z = .stop u j x) : u.Canonical ∧ x.Keeps := by
  subst e; exact h

/-- The state that the acceptance of a job answers with is canonical. -/
def Accepted.Keeps : Accepted → Prop
  | .go s _ | .wait s _ | .ended s _ => s.Canonical

section
variable {a : Accepted} {u : State} {j : Job} {b : Bool}

theorem Accepted.Keeps.go (h : a.Keeps) (e : a = .go u j) : u.Canonical := by subst e; exact h
theorem Accepted.Keeps.wait (h : a.Keeps) (e : a = .wait u j) : u.Canonical := by subst e; exact h
theorem Accepted.Keeps.ended (h : a.Keeps) (e : a = .ended u b) : u.Canonical := by subst e; exact h

end

namespace State

/-! ### Cards and completion -/

theorem Canonical.putCard {j : Job} {st : Nat} {code : BitVec 8} (h : s.Canonical) : (s.putCard j st code).Keeps := h.devWrite
theorem Canonical.setJob {e : Nat} {j : Job} (h : s.Canonical) : (s.setJob e j).Canonical := h
theorem Canonical.dropJob {e : Nat} (h : s.Canonical) : (s.dropJob e).Canonical := h
theorem Canonical.setParked {e : Nat} {j : Job} {k : Option Job} (h : s.Canonical) : (s.setParked e j k).Canonical := h

theorem Canonical.jobTag {j : Job} {code : BitVec 8} (h : s.Canonical) : (s.jobTag j code).Canonical :=
  .ite h.farTagDone.engineKill h.farTagDone

theorem Canonical.jobFault {e va : Nat} {j : Job} {acc : Acc} (h : s.Canonical) : (s.jobFault e j va acc).1.Canonical := h.engineFault

theorem Canonical.jobEnd {e st : Nat} {j : Job} {code : BitVec 8} {page : Option (Nat × Acc)} (h : s.Canonical) :
    (s.jobEnd e j st code page).Canonical := by
  unfold State.jobEnd
  split
  · have hu := h.putCard.ok ‹_›
    refine .ite (Canonical.modCullet ?_) hu.dropJob.jobTag
    split
    · exact hu.dropJob.jobTag.jobFault
    · exact hu.dropJob.jobTag
  · exact h.jobFault.setJob
  · exact h.dropJob.jobTag
  · exact h.dropJob.jobTag
  · exact h.putCard.blocked ‹_›

theorem Canonical.parkCard {e : Nat} {j : Job} (h : s.Canonical) : (s.parkCard e j).Canonical := by
  unfold State.parkCard
  extract_lets halted gone
  have hgone : ∀ {u : State} {code : BitVec 8}, u.Canonical → (gone u code).Canonical := fun hu =>
    .ite hu.setParked.jobTag hu.setParked
  clear_value gone
  refine .ite (hgone h) ?_
  split
  · exact (h.putCard.ok ‹_›).setParked
  · exact h.jobFault.setParked
  · exact hgone h
  · exact hgone h
  · exact (h.putCard.blocked ‹_›).setParked

theorem Canonical.settleParked {e : Nat} (h : s.Canonical) : (s.settleParked e).Canonical := h.foldl fun _ _ h => h.parkCard

/-! ### Acceptance -/

theorem Canonical.jobAccept {e : Nat} {j : Job} (h : s.Canonical) : (s.jobAccept e j).Keeps := by
  unfold State.jobAccept
  extract_lets wait
  have hwait : ∀ {u : State} {va : Nat} {acc : Acc}, u.Canonical → (wait u va acc).Keeps := fun hu => hu.jobFault
  clear_value wait
  split
  · have hu := h.tenRead.ok ‹_›
    extract_lets w ok
    split
    · exact hu.jobTag
    · split
      · exact hu.jobTag
      · split
        · exact hu.putCard.ok ‹_›
        · exact hwait hu
        · exact hu.jobTag
        · exact hu.jobTag
        · exact hu.putCard.blocked ‹_›
  · exact hwait h
  · exact h.jobTag
  · exact h.jobTag
  · exact h.tenRead.blocked ‹_›

theorem Canonical.rePark {e : Nat} {j : Job} {parked : Bool} (h : s.Canonical) : (s.rePark e j parked).Canonical := .ite h h

/-! ### Starting -/

theorem Canonical.spillJob {e : Nat} {j : Job} (h : s.Canonical) (eq : s.spillJob e j = some t) : t.Canonical := by
  unfold State.spillJob at eq
  split at eq
  · cases eq
    exact (h.devWrite.ok ‹_›).setParked.bump
  · cases eq
  · cases eq
    exact h.parkCard

theorem Canonical.spillJobs {e : Nat} {js : List Job}
    (h : s.Canonical) (eq : js.foldl (fun (s : Option State) k => s.bind fun s => s.spillJob e k) (some s) = some t) : t.Canonical := by
  refine List.foldlRecOn (motive := fun o : Option State => ∀ u, o = some u → u.Canonical) js _ ?_ (fun o ho j _ u hu => ?_) t eq
  · rintro _ ⟨⟩
    exact h
  · obtain ⟨v, rfl, hv⟩ := Option.bind_eq_some_iff.1 hu
    exact (ho v rfl).spillJob hv

theorem Canonical.spoilJob {e : Nat} {j : Job} (h : s.Canonical) : (s.spoilJob e j).Canonical :=
  Canonical.jobEnd (Canonical.bump (h.foldl fun _ _ h => .ite h.devPut h))

theorem Canonical.cardErr {e : Nat} {j : Job} {err : CpErr} (h : s.Canonical) (he : err.Keeps) : (s.cardErr e j err).Canonical := by
  cases err with
  | fault => exact h.jobFault.setJob
  | prot => exact h.dropJob.jobTag
  | poison => exact h.dropJob.jobTag
  | malformed => exact h
  | blocked => exact he

theorem Canonical.jobResume {e : Nat} {j : Job} {k : State → Job → State} (h : s.Canonical)
    (hk : ∀ u j, u.Canonical → (k u j).Canonical) : (s.jobResume e j k).Canonical := by
  unfold State.jobResume
  split
  · exact hk _ _ h
  · split
    · have hu := h.tenRead.ok ‹_›
      exact .ite hu.jobEnd (.ite (hk _ _ hu) hu.spoilJob)
    · exact h.jobEnd
    · exact h.tenRead.blocked ‹_›
    · exact h.jobEnd

theorem Canonical.jobStart {e : Nat} (h : s.Canonical) : (s.jobStart e).Canonical := by
  unfold State.jobStart
  extract_lets u
  have hu : u.Canonical := h.settleParked
  clear_value u
  split
  · exact hu
  · refine .ite hu (.ite (.ite hu.dropJob.jobTag hu.jobEnd) (.ite ?_ ?_))
    · split
      · exact (hu.jobAccept.go ‹_›).setJob
      · exact (hu.jobAccept.wait ‹_›).setJob
      · exact (hu.jobAccept.ended ‹_›).dropJob.rePark
    · extract_lets
      split
      · exact hu
      · have hv := hu.spillJobs ‹_›
        split
        · have hw := hv.tenRead.ok ‹_›
          split
          · have hx := hw.tenRead.ok ‹_›
            refine .ite (hx.cardErr trivial) (.ite hx.jobEnd (hx.jobResume fun _ _ h => ?_))
            split
            · exact (h.putCard.ok ‹_›).setJob
            · exact h.cardErr trivial
            · exact h.cardErr trivial
            · exact h.cardErr trivial
            · exact h.putCard.blocked ‹_›
          · exact hw.cardErr trivial
          · exact hw.cardErr trivial
          · exact hw.cardErr trivial
          · exact hw.tenRead.blocked ‹_›
        · exact hv.cardErr trivial
        · exact hv.cardErr trivial
        · exact hv.cardErr trivial
        · exact hv.tenRead.blocked ‹_›

/-! ### Decoding -/

theorem Canonical.copyBack {j : Job} {d cons n len : Nat} {out : List Byte} (h : s.Canonical) :
    (State.copyBack j d cons n s out len).Keeps := by
  induction n generalizing s out len with
  | zero => exact h
  | succ n ih =>
    unfold State.copyBack
    split
    · exact h
    · split
      · exact ih h
      · split
        · exact ih (h.tenRead.ok ‹_›)
        · exact h.tenRead.ok ‹_›
        · exact ⟨h, trivial⟩
        · exact ⟨h, trivial⟩
        · exact h
        · exact ⟨h.tenRead.blocked ‹_›, h.tenRead.blocked ‹_›⟩

theorem Canonical.emit {cons : Nat} {es : List Emit} {j : Job} (h : s.Canonical) : (State.emit cons es s j).Keeps := by
  induction es generalizing s j with
  | nil => exact h
  | cons e es ih =>
    cases e with
    | lit b =>
      unfold State.emit
      split
      · exact h
      · exact ih h
    | copy d n off =>
      unfold State.emit
      extract_lets len
      generalize (if j.clz = true then j.dlen else min j.dlen 32768) = reach
      split
      · exact h
      · split
        · split
          · exact h.copyBack.ok ‹_›
          · exact ih (h.copyBack.ok ‹_›)
        · exact h.copyBack

theorem Canonical.nextElem {j : Job} {pos fuel pages : Nat} (h : s.Canonical) : (State.nextElem j pos fuel pages s).Keeps := by
  induction fuel generalizing s pages with
  | zero => exact h
  | succ fuel ih =>
    unfold State.nextElem
    extract_lets left n
    split
    · have hu := h.tenRead.ok ‹_›
      extract_lets raw p
      clear_value p
      split
      · split
        · exact ih hu
        · exact hu
      · exact hu
    · trivial
    · trivial
    · trivial
    · exact h.tenRead.blocked ‹_›

theorem Canonical.decodeTo {goal fuel : Nat} {j : Job} (h : s.Canonical) : (State.decodeTo goal fuel s j).Keeps := by
  induction fuel generalizing s j with
  | zero => exact h
  | succ fuel ih =>
    unfold State.decodeTo
    split
    · exact h
    · extract_lets +onlyGivenNames pos j0 fail
      have hfail : ∀ {u : State} {out : List Emit} {code : BitVec 8} {off : Nat}, u.Canonical → (fail u out code off).Keeps := by
        intro u out code off hu
        unfold fail
        split
        · exact hu.emit.ok ‹_›
        · exact hu.emit.stop ‹_›
      clear_value fail
      split
      · exact h
      · split
        · have hu := h.nextElem.ok ‹_›
          extract_lets
          split
          · split
            · exact hu
            · split
              · split
                · exact hu.emit.ok ‹_›
                · exact ih (hu.emit.ok ‹_›)
              · exact hu.emit.stop ‹_›
          · split
            · exact hu
            · exact hfail hu
          · split
            · exact hu
            · exact hfail hu
        · exact ⟨h, trivial⟩
        · exact h
        · exact h
        · exact ⟨h.nextElem.blocked ‹_›, h.nextElem.blocked ‹_›⟩

theorem Canonical.jobOver {e : Nat} {j : Job} (h : s.Canonical) : (s.jobOver e j).Canonical := by
  unfold State.jobOver
  split <;> exact h.jobEnd

theorem Canonical.jobChunk {e : Nat} (h : s.Canonical) : (s.jobChunk e).Canonical := by
  unfold State.jobChunk
  split
  · exact h
  · refine .ite h (.ite h.dropJob.jobTag ?_)
    extract_lets room
    split
    · exact h.jobEnd
    · exact (h.decodeTo.stop ‹_›).1.setJob
    · exact (h.decodeTo.stop ‹_›).2
    · exact (h.decodeTo.stop ‹_›).1
    · have hu := h.decodeTo.ok ‹_›
      refine .ite hu.jobOver ?_
      split
      · exact .ite (hu.devMap.ok ‹_›).putParts.jobOver (hu.devMap.ok ‹_›).putParts.setJob
      · exact hu.setJob.jobEnd
      · exact hu.jobEnd
      · exact hu.jobEnd
      · exact hu.devMap.blocked ‹_›

end State

/-! ### The instructions of Cullet -/

theorem Answers.dzInstr {i : Instr} {f : FmtE} {res : Bool} : Answers s (dzInstr i s f res) := .engineInstr fun _ _ _ h => by
  extract_lets a tag own u v base mine found e j w add
  have hv : v.Canonical := h.drainFor.tagIssue.finishLong
  have hw : w.Canonical := .ite hv.modCullet hv
  have hadd : ∀ {y : State} {k : Job}, y.Canonical → (add y k).Canonical := fun hy => hy.modCullet
  clear_value add w
  refine .ite h.finishLong.takeTraps (.ite h (.ite (hadd hw) ?_))
  split
  · exact hadd (hw.jobAccept.go ‹_›)
  · exact hadd (hw.jobAccept.wait ‹_›)
  · exact (hw.jobAccept.ended ‹_›).rePark

theorem Answers.execDzSt {c : Common} {f : FmtE} : Answers s (execDzSt c f s) := .engineInstr fun _ _ _ h => by
  dsimp only
  refine .ite h.finishLong.takeTraps ?_
  split
  · exact h.finishLong
  · split
    · exact h.checkAll.later ‹_›
    · exact h.consume
    · exact (h.checkAll.done ‹_›).finishLong.takeTraps.parkFaults

theorem Answers.execCulletJobStart {e : Nat} : Answers s (execCulletJobStart e s) := .next fun h => h.jobStart.bump
theorem Answers.execCulletChunk {e : Nat} : Answers s (execCulletChunk e s) := .next fun h => h.jobChunk.bump

end Sys2Proof.Machine
end

section
/-! PROOFS. The gaffer, the distributors, Marver, the binner, and how groups, teams and launches end; and the words of a core's
aperture. -/

namespace Sys2Proof.Machine

variable {s t : State}

/-! ### B slots of a core that a team takes -/

/-- An element of a list with a window of it replaced is an old one, or a replaced old one. -/
theorem mem_onWindow {α : Type} {base n : Nat} {f : α → α} {l : List α} {a : α} (h : a ∈ onWindow base n f l) :
    a ∈ l ∨ ∃ b ∈ l, a = f b := by
  obtain ⟨e, he, rfl⟩ := List.mem_map.1 h
  have hmem : e.2 ∈ l := (List.of_mem_zip he).2
  split
  · exact .inr ⟨_, hmem, rfl⟩
  · exact .inl hmem

theorem slotsOk.take {c : Core} {tk : Nat} {l : Launch} (h : slotsOk c.bslots) : slotsOk (c.take tk l).bslots := by
  unfold Core.take
  dsimp only
  have hw : slotsOk (onWindow l.slotBase l.slotCnt
      (fun b => if b.tenant == some l.tenant then b else ⟨[], [], some l.tenant⟩) c.bslots) := fun b hb => by
    rcases mem_onWindow hb with hb | ⟨a, ha, rfl⟩
    · exact h b hb
    · split
      · exact h a ha
      · rfl
  split <;> exact hw

theorem slotsOk.updAt {bs : List BSlot} {f : BSlot → BSlot} {n : Nat} (h : slotsOk bs)
    (hf : ∀ b, b.bytes.wf = true → (f b).bytes.wf = true) : slotsOk (updAt f n bs) := fun b hb => by
  rcases mem_updAt _ _ _ hb with hb | ⟨a, ha, rfl⟩
  · exact h b hb
  · exact hf a (h a ha)

@[simp] theorem Team.scr_setWord (t : Team) (i : Nat) (v : Word) : (t.setWord i v).scr = t.scr := by
  unfold Team.setWord
  repeat' split
  all_goals rfl

namespace State

/-! ### Placement -/

/-- Every team changes, the scratchpads apart. -/
theorem Canonical.mapTeams {f : Nat × Team → Team} (h : s.Canonical) (hf : ∀ e, (f e).scr = e.2.scr) :
    State.Canonical { s with work := { s.work with teams := s.work.teams.map fun e => (e.1, f e) } } := by
  obtain ⟨hb, hts, hcs⟩ := (memoryOk_iff s).1 h
  refine (memoryOk_iff _).2 ⟨hb, fun e he => ?_, hcs⟩
  obtain ⟨e, he', rfl⟩ := List.mem_map.1 he
  exact (congrArg Mem.wf (hf e)).trans (hts e he')

theorem Canonical.forgetLead {lk tk : Nat} (h : s.Canonical) : (s.forgetLead lk tk).Canonical :=
  h.mapTeams fun e => by split <;> rfl

/-- A group is placed where there is a slot. -/
theorem Canonical.tryPlaceGroup {tk gid : Nat} {ls : List Lane} (h : s.Canonical) : ((s.placeGroup tk gid ls).getD s).Canonical := by
  cases e : s.placeGroup tk gid ls with
  | none => exact h
  | some u => exact h.placeGroup e

theorem Canonical.placeTeam {lk idx core : Nat} {l : Launch} (h : s.Canonical) : (s.placeTeam lk l idx core).Canonical := by
  unfold State.placeTeam
  extract_lets tk stood _ t u
  have ht : ((s.forgetLead lk tk).setTeam tk t).Canonical := h.forgetLead.setTeam rfl
  have hu : u.Canonical := ht.modCoreTo (by
    split
    · exact ht.core
    · exact ht.core.take)
  clear_value u
  exact .ite hu (hu.foldl fun _ _ h => h.tryPlaceGroup)

theorem Canonical.placeGang {lk gang core : Nat} {l : Launch} (h : s.Canonical) : (s.placeGang lk l gang core).Canonical :=
  Canonical.foldl h.setGang fun _ _ h => h.placeTeam

/-! ### The binner -/

theorem Canonical.wakeRegroups {core : Nat} (h : s.Canonical) : (s.wakeRegroups core).Canonical := h.foldl fun _ _ h => h.unwait

theorem Canonical.binTake {tk : Nat} {r : ContRec} (h : s.Canonical) (e : s.binTake tk r = some t) : t.Canonical := by
  unfold State.binTake at e
  split at e
  · exact h.binArrive (Option.filter_eq_some_iff.1 e).1
  · cases e

theorem Canonical.poolTake {tk : Nat} {tm : Team} {l : Launch} {ws : List Word} {psn : List Bool} (h : s.Canonical)
    (e : s.poolTake tk tm l ws psn = some t) : t.Canonical := by
  unfold State.poolTake at e
  extract_lets r at e
  split at e
  · cases e
    exact h.kill
  · split at e
    · cases e
      exact h.modLaunch
    · exact h.binTake e

theorem Canonical.readRecord {tn va : Nat} (h : s.Canonical) : (s.readRecord tn va).Keeps := by
  unfold State.readRecord
  split
  · exact h.devMap.ok ‹_›
  · exact h.devMap.ok ‹_›
  · trivial
  · trivial
  · trivial
  · exact h.devMap.blocked ‹_›

theorem Canonical.fetchRecord {tk va : Nat} {tm : Team} {l : Launch} {next : State → State} (h : s.Canonical)
    (hn : ∀ u, u.Canonical → (next u).Canonical) : (s.fetchRecord tk tm l va next).Canonical := by
  unfold State.fetchRecord
  split
  · have hu := h.readRecord.ok ‹_›
    split
    · exact (hn _ (hu.poolTake ‹_›)).wakeRegroups
    · exact h
  · exact h.targetFault
  · exact h.readRecord.blocked ‹_›
  · exact (hn _ h.modLaunch).wakeRegroups
  · exact h.kill

/-! ### Retirement -/

theorem Canonical.contain {ws : List Word} (h : s.Canonical) : (s.contain ws).1.Canonical := by
  unfold State.contain
  split <;> exact h

theorem Canonical.unbind {key : Nat} {p : Nat → Bool} (h : s.Canonical) : (s.unbind key p).Canonical := h
theorem Canonical.removeGroup {key : Nat} (h : s.Canonical) : (s.removeGroup key).Canonical := h

theorem Canonical.groupRecord {key : Nat} (h : s.Canonical) : (s.groupRecord key).Canonical := by
  unfold State.groupRecord
  repeat' split
  · exact h.contain
  all_goals exact h

theorem Canonical.dropRing {tk core : Nat} (h : s.Canonical) : (s.dropRing tk core).Canonical := .ite (h.modCore fun _ => by rfl) h

theorem Canonical.delTeams {es : Sparse Team} (h : s.Canonical) :
    (es.foldl (fun (s : State) (e : Nat × Team) => s.delTeam e.1) s).Canonical := h.foldl fun _ _ h => h.delTeam

theorem Canonical.dropTeam {tk : Nat} {tm : Team} {l : Launch} (h : s.Canonical) : (s.dropTeam tk tm l).Canonical :=
  .ite (Canonical.delGang (Canonical.unbind (h.modTeam fun _ => by rfl).delTeams)) (h.modTeam fun _ => by rfl)

/-! ### The aperture of a core -/

theorem Canonical.reseal {core : Nat} (h : s.Canonical) : (s.reseal core).Canonical := .ite h h

theorem Canonical.setCoreHeader {core i : Nat} {v : Word} (h : s.Canonical) : (s.setCoreHeader core i v).Canonical := by
  unfold State.setCoreHeader
  split
  · exact h.modCore fun _ => by rfl
  · exact h.modCore fun _ => by rfl
  · exact h.modCore fun _ => by rfl
  · exact h

theorem Canonical.setSlotWord {core slot i : Nat} {v : Word} (h : s.Canonical) : (s.setSlotWord core slot i v).Canonical :=
  h.modCoreTo (h.core.updAt fun b hb => by
    split
    · exact Mem.wf_writeN _ _ _ hb
    · exact hb)

theorem Canonical.setApertureWord {core w : Nat} {v : Word} (h : s.Canonical) : (s.setApertureWord core w v).Canonical := by
  unfold State.setApertureWord
  split
  · exact .ite h.setCoreHeader (.ite h.setSlotWord (.ite (h.modCore fun _ => by rfl) (.ite h.modTile (.ite h.modTile (.ite h.modTile h)))))
  · split
    · exact .ite h.scrWrite (.ite (h.modTeam fun _ => by rfl) (.ite (h.modCore fun _ => by rfl)
        (.ite (h.modTeam fun _ => by rfl) (.ite h.modGang (h.modTeam fun t => t.scr_setWord _ _)))))
    · exact h
  · exact h.modGroup
  · exact h

end State

/-! ### The instructions of the gaffer and the distributors -/

theorem Answers.execTeamRangeGrant {lk die : Nat} : Answers s (execTeamRangeGrant lk die s) := .next fun h => by
  split
  · exact h
  · exact .ite h h.modLaunch

theorem Answers.execTeamPlacement {lk die : Nat} : Answers s (execTeamPlacement lk die s) := .next fun h => by
  split
  · exact h
  · split
    · exact State.Canonical.placeGang h.modLaunch
    · exact h

theorem Answers.execTransformBinding {tk : Nat} : Answers s (execTransformBinding tk s) := .next fun h => by
  split
  · exact h
  · split
    · exact h
    · exact .ite h (.ite h.setBar (.ite (h.modTeam fun _ => by rfl) (.ite h h.enqueue)))

theorem Answers.execGroupRelease {tk : Nat} : Answers s (execGroupRelease tk s) := .next fun h => by
  split
  · exact h
  · split
    · exact h
    · exact .ite h (.ite (h.modTeam fun _ => by rfl) (h.modTeam fun _ => by rfl).started)

theorem Answers.execLeadCounterUpdate {tk : Nat} : Answers s (execLeadCounterUpdate tk s) := .next fun h => by
  split
  · exact h
  · exact .ite h (h.foldl fun _ _ h => (h.modTeam fun _ => by rfl).wakeLead)

theorem Answers.execPoolRecordFetch {tk : Nat} : Answers s (execPoolRecordFetch tk s) := .next fun h => by
  split
  · exact h
  · split
    · refine .ite h (.ite h.spillHeld (.ite (h.fetchRecord fun _ h => h.modPool) ?_))
      split
      · exact h.fetchRecord fun _ h => h.modPool
      · exact .ite h h.modPool.modLaunch.bump
    · exact h

theorem Answers.execBinFlush {tk bin : Nat} : Answers s (execBinFlush tk bin s) := .next fun h => .ite h h.modPool

theorem Answers.execGroupFormation {tk bin : Nat} : Answers s (execGroupFormation tk bin s) := .next fun h => by
  split
  · exact h
  · split
    · refine .ite ?_ h
      split
      · exact (h.formGroup ‹_›).wakeRegroups.bump
      · exact h
    · exact h

theorem Answers.execGroupRetirement {core slot : Nat} : Answers s (execGroupRetirement core slot s) := .next fun h => by
  extract_lets key u
  have hu : u.Canonical := h.foldl fun _ _ h => h.drainWcb
  clear_value u
  split
  · exact h
  · refine .ite h ?_
    split
    · exact h
    · extract_lets r
      have hr : r.1.Canonical := hu.convey
      exact .ite hr.groupRecord.removeGroup.checkRls.recheck.wakeRegroups.bump hr.modGroup.bump

theorem Answers.execTeamRetirement {tk : Nat} : Answers s (execTeamRetirement tk s) := .next fun h => by
  refine .ite h ?_
  split
  · exact h
  · split
    · exact h
    · exact State.Canonical.bump (State.Canonical.foldl (h.dropRing.unbind.dropTeam.modLaunch.gateCount) fun _ _ h => h.wakeLead)

theorem Answers.execLaunchCompletion {lk : Nat} : Answers s (execLaunchCompletion lk s) := .next fun h => by
  split
  · exact h
  · refine .ite h (.ite h ?_)
    extract_lets u v _ w
    have hu : u.Canonical := h.record
    have hw : w.Canonical := hu.same rfl rfl rfl
    exact hw.afterRecord.openGates.bump

end Sys2Proof.Machine
end

section
/-! PROOFS. Containment: kills, answers to fault records, fences and resets. -/

namespace Sys2Proof.Machine

variable {s t : State}

namespace State

/-- A fold over a state and what it counts. -/
theorem Canonical.foldPair {α β : Type} {f : State × β → α → State × β} {l : List α} {b : β} (h : s.Canonical)
    (hf : ∀ a x, a.1.Canonical → (f a x).1.Canonical) : (l.foldl f (s, b)).1.Canonical :=
  List.foldlRecOn (motive := fun a : State × β => a.1.Canonical) _ _ h fun _ ha _ _ => hf _ _ ha

/-! ### Gang kills -/

theorem Canonical.item {k : Killing} {ws : List Word} (h : s.Canonical) : (s.item k ws).1.Canonical := h.contain
theorem Canonical.stopGroup {key : Nat} (h : s.Canonical) : (s.stopGroup key).Canonical := h

theorem Canonical.dropOps {key : Nat} (h : s.Canonical) : (s.dropOps key).Canonical := h

theorem Canonical.settleGroup {key : Nat} {fenced : Bool} (h : s.Canonical) : (s.settleGroup key fenced).Canonical :=
  Canonical.dropOps (.ite h.modGroup (h.foldl fun _ _ h => h.drainWcb))

theorem Canonical.stopPunty {k : Killing} {tk core : Nat} {fenced : Bool} (h : s.Canonical) :
    (s.stopPunty k tk core fenced).1.Canonical := by
  refine Canonical.modCore (h.foldPair fun _ _ ha => ?_) fun _ => by rfl
  dsimp only
  split
  · exact ha
  · exact ha.item

theorem Canonical.killStop {k : Kill} {size : Nat} (h : s.Canonical) : (s.killStop k size).Canonical := by
  unfold State.killStop
  extract_lets +onlyGivenNames teams fenced a _ _ u groups v w x y z
  have hu : u.Canonical := h
  have hv : v.Canonical := hu.foldl fun _ _ h => h.stopGroup
  have hw : w.Canonical := hv.withdraw
  have hx : x.Canonical := hw.foldl fun _ _ h => h.settleGroup
  have hy : y.1.Canonical := by
    unfold y
    split
    · exact hx
    · exact hx.foldPair fun _ _ ha => ha.item
  have hz : z.1.Canonical := List.foldlRecOn (motive := fun a : State × Killing => a.1.Canonical) _ _ hy fun _ ha _ _ => ha.stopPunty
  exact hz.same rfl rfl rfl

theorem Canonical.orphan {tk : Nat} (h : s.Canonical) : (s.orphan tk).Canonical := h
theorem Canonical.forgetTeam {tk : Nat} (h : s.Canonical) : (s.forgetTeam tk).Canonical := h

theorem Canonical.loseEstate {key : Nat} {g : Group} (h : s.Canonical) : (s.loseEstate key g).Canonical := .ite h h

theorem Canonical.killConvey {k : Killing} {fenced again : Bool} {gs : List (Nat × Group)} (h : s.Canonical) :
    (State.killConvey k fenced again gs s).1.Canonical := by
  induction gs generalizing s with
  | nil => exact h
  | cons g gs ih =>
    unfold State.killConvey
    split
    · exact ih h.loseEstate
    · extract_lets r
      have hr : r.1.Canonical := h.convey
      clear_value r
      split
      · exact ih hr
      · exact hr

theorem Canonical.freeTeam {tk : Nat} {tm : Team} (h : s.Canonical) : (s.freeTeam tk tm).Canonical :=
  Canonical.delTeam (Canonical.forgetTeam (Canonical.dropRing (h.foldl fun _ _ h => h.removeGroup)))

theorem Canonical.freeTeams {ts : List (Nat × Team)} (h : s.Canonical) :
    (ts.foldl (fun (s : State) (t : Nat × Team) => s.freeTeam t.1 t.2) s).Canonical := h.foldl fun _ _ h => h.freeTeam

theorem Canonical.killEnd {k : Killing} {l : Launch} {fenced : Bool} (h : s.Canonical) : (s.killEnd k l fenced).Canonical := by
  unfold State.killEnd
  extract_lets lk gang gk att again teams near groups n u v w x y _ z p q
  have hu : u.Canonical := h.foldl fun _ _ h => h.groupRecord
  have hx : x.Canonical := hu.freeTeams.unbind.delGang.contain
  have hz : z.Canonical := hx.same rfl rfl rfl
  have hp : p.Canonical := hz.foldl fun _ _ h => h.gateCount
  have hq : q.Canonical := hp.foldl fun _ _ h => h.wakeLead
  clear_value q
  generalize teams = ts
  split
  · exact hq.reseal
  · exact hq

theorem Canonical.killTry {lk gang : Nat} (h : s.Canonical) : (s.killTry lk gang).Canonical := by
  unfold State.killTry
  split
  · exact .ite (.ite h.killConvey.killEnd h.killConvey) h
  · exact h

/-! ### The kill of lanes of one group -/

theorem Canonical.status {n : Nat} (h : s.Canonical) : (s.status n).Canonical := h

theorem Canonical.pullLane {key l : Nat} (h : s.Canonical) : (s.pullLane key l).Canonical := by
  unfold State.pullLane
  split
  · extract_lets e b v u
    have hu : u.Canonical := .ite h.setBar h
    exact .ite hu.unlist.unwait hu
  · exact h

theorem Canonical.killLanes {key : Nat} {m : LaneMask} (h : s.Canonical) : (s.killLanes key m).Canonical := by
  unfold State.killLanes
  split
  · extract_lets +onlyGivenNames live all time u _ _ _ x y v w
    have hu : u.Canonical := h.foldl fun _ _ h => h.pullLane.drainWcb
    have hv : v.Canonical := by
      unfold v
      have hy : y.Canonical := Canonical.modTeam (s := x) hu fun _ => by rfl
      clear_value y
      split
      · split
        · exact hy.modLaunch
        · exact hy
      · exact hu
    have hw : w.Canonical := hv.exitLanes
    clear_value w
    split
    · exact hw.withdraw
    · exact hw
  · exact h

/-! ### Answers to fault records -/

theorem Canonical.unparkPage {key : Nat} {m : LaneMask} (h : s.Canonical) : (s.unparkPage key m).Canonical := h

theorem Canonical.protectLanes {key opc : Nat} {m : LaneMask} {as : List (Nat × Word)} (h : s.Canonical) :
    (s.protectLanes key m opc as).Canonical := by
  unfold State.protectLanes
  split
  · exact h.modGroup.trapLanes
  · exact h

theorem Canonical.applyAnswer {r : FaultRec} {n : Nat} (h : s.Canonical) : (s.applyAnswer r n).Canonical := by
  unfold State.applyAnswer
  extract_lets forced u
  have hu : u.Canonical := .ite h.kill h
  clear_value u
  split
  · split
    · extract_lets on
      split
      · exact hu.unparkPage
      · exact hu.protectLanes
      · exact hu
    · exact hu
  · exact hu.modCore fun _ => by rfl
  · split
    · exact hu.modCore fun _ => by rfl
    · exact hu
  · exact hu.modCore fun k => by split <;> rfl
  · split
    · exact hu.setNx.nxRetry
    · exact hu
  · exact hu.modCullet
  · exact hu

/-! ### Fenced dies and compute reset -/

theorem Canonical.fence {die : Nat} (h : s.Canonical) : (s.fence die).Canonical := by
  refine .ite h (Canonical.foldl (Canonical.say h) fun _ _ h => ?_)
  split
  · exact h.kill
  · exact h

theorem Canonical.endLaunch {lk : Nat} {l : Launch} (h : s.Canonical) : (s.endLaunch lk l).Canonical :=
  .ite h.owe.delLaunch.childDone.freeMail h.record.delLaunch.afterRecord

theorem Canonical.resetJob {j : Job} (h : s.Canonical) : (s.resetJob j).Canonical := h.devPut

/-- The cores that a reset leaves have the B slots that they had. -/
theorem slotsOk_ofKept {cs : Sparse Core} {f : Nat × Core → Option (Nat × Core)} (h : ∀ e ∈ cs, slotsOk e.2.bslots)
    (hf : ∀ e k, f e = some k → k.2.bslots = e.2.bslots) : ∀ e ∈ cs.filterMap f, slotsOk e.2.bslots := fun e he => by
  obtain ⟨k, hk, hek⟩ := List.mem_filterMap.1 he
  exact (hf _ _ hek) ▸ h k hk

theorem Canonical.endAll (h : s.Canonical) : s.endAll.Canonical := by
  unfold State.endAll
  extract_lets gone u jobs v
  have hu : u.Canonical := h.foldl fun _ _ h => h.endLaunch
  have hv : v.Canonical := hu.foldl fun _ _ h => h.resetJob
  clear_value v
  obtain ⟨hb, hts, hcs⟩ := (memoryOk_iff v).1 hv
  refine (memoryOk_iff _).2 ⟨hb, nofun, slotsOk_ofKept hcs fun e k hk => ?_⟩
  split at hk
  · cases hk
    rfl
  · cases hk

theorem Canonical.computeReset (h : s.Canonical) : s.computeReset.Canonical := h.endAll.same rfl rfl rfl

/-! ### Partitions -/

theorem Canonical.modPartition {i : Nat} {f : Partition → Partition} (h : s.Canonical) : (s.modPartition i f).Canonical := h

theorem Canonical.loseGang {e : Nat × Nat} (h : s.Canonical) : (s.loseGang e).Canonical := by
  unfold State.loseGang
  split
  · exact h
  · extract_lets teams groups u v w x old y _ z
    have hu : u.Canonical := h.foldl fun _ _ h => h.stopGroup
    have hx : x.Canonical := hu.withdraw.freeTeams.unbind.delGang
    have hz : z.Canonical := hx.same rfl rfl rfl
    exact hz.foldl fun _ _ h => h.gateCount

theorem Canonical.resetCores {cs : List Nat} (h : s.Canonical) :
    (cs.foldl (fun (s : State) c => s.modCore c fun k => { Core.fresh with bslots := k.bslots, withdrawn := k.withdrawn }) s).Canonical :=
  h.foldl fun _ _ h => h.modCore fun _ => by rfl

end State

/-! ### The instructions of containment -/

theorem Answers.execGangKill {n : Nat} : Answers s (execGangKill n s) := .next fun h => by
  dsimp only
  split
  · split
    · exact h.killStop.killTry.bump
    · exact h
  · exact h.killTry.bump

theorem Answers.execKillGroupLanes {core slot : Nat} {m : LaneMask} : Answers s (execKillGroupLanes core slot m s) := .next fun h =>
  .ite h.status h.killLanes.status.bump

theorem Answers.execAnswerFault {fid : Nat} {o : BitVec 2} : Answers s (execAnswerFault fid o s) := .next fun h => by
  split
  · exact h.status
  · exact .ite h.status (.ite h h.withdraw.applyAnswer.status.bump)

theorem Answers.execFenceDie {die : Nat} : Answers s (execFenceDie die s) := .next fun h => .ite h.fence.status.bump h.status

theorem Answers.execComputeReset : Answers s (execComputeReset s) := .next fun h => h.computeReset.bump

theorem Answers.execGafferElection : Answers s (execGafferElection s) := .next fun h => by
  refine .ite h ?_
  split
  · exact h
  · exact h.endAll.same rfl rfl rfl

theorem Answers.execPartitionReset {die : Nat} {b : BitVec 8} : Answers s (execPartitionReset die b s) := .next fun h => by
  split
  · exact h.status
  · have hu := fun cs => h.foldl (l := cs) (f := State.loseGang) fun _ _ h => h.loseGang
    exact (hu _).resetCores.modPartition.status.bump

end Sys2Proof.Machine
end

section
/-! PROOFS. The frame engine, the scrub and the accesses of the host. -/

namespace Sys2Proof.Machine

variable {s t : State}

namespace State

/-! ### Frames -/

/-- Every core changes, the B slots apart. -/
theorem Canonical.mapCores {f : Nat × Core → Core} (h : s.Canonical) (hf : ∀ e, (f e).bslots = e.2.bslots) :
    State.Canonical { s with work := { s.work with cores := s.work.cores.map fun e => (e.1, f e) } } := by
  obtain ⟨hb, hts, hcs⟩ := (memoryOk_iff s).1 h
  refine (memoryOk_iff _).2 ⟨hb, hts, fun e he => ?_⟩
  obtain ⟨e, he', rfl⟩ := List.mem_map.1 he
  exact (hf e).symm ▸ hcs e he'

theorem Canonical.l1Flush {tn : Nat} (h : s.Canonical) : (s.l1Flush tn).Canonical := h.mapCores fun _ => rfl

theorem Canonical.drainFrame {frame : Nat} (h : s.Canonical) : (s.drainFrame frame).Canonical :=
  h.foldl fun _ _ h => h.foldl fun _ _ h => .ite h.drainWcb h

theorem Canonical.copyFrame {frame target off n : Nat} (h : s.Canonical) : (s.copyFrame frame target off n).Canonical :=
  h.withBytes (Mem.wf_writeN _ _ _ h.bytes) rfl

theorem Canonical.lockEntry {l : Leaf} {p : Splinter} (h : s.Canonical) : (s.lockEntry l p).Canonical := h.setPhysWord.same rfl rfl rfl
theorem Canonical.setMig {frame : Nat} {m : Option Migration} (h : s.Canonical) : (s.setMig frame m).Canonical := h

theorem Canonical.switch {m : Migration} (h : s.Canonical) : (s.switch m).Canonical :=
  Canonical.setMig (Canonical.modTenant h.viewAs.copyFrame.newView)

theorem Canonical.migRewrite {m : Migration} {va : Nat} (h : s.Canonical) : (s.migRewrite m va).Canonical := by
  unfold State.migRewrite
  split
  · exact .ite h.setEntry h
  · exact h

theorem Canonical.migEnd {m : Migration} (h : s.Canonical) : (s.migEnd m).Canonical :=
  Canonical.setMig (Canonical.l1Flush (Canonical.modTenant h.drainFrame.recallHost))

theorem Canonical.migBegin {m : Migration} (h : s.Canonical) : (s.migBegin m).Canonical := by
  unfold State.migBegin
  refine .ite h ?_
  split
  · exact h.lockEntry
  · exact .ite (Canonical.setMig (h.foldl fun _ _ h => h.setEntry)) h.setMig

theorem Canonical.migStep {m : Migration} (h : s.Canonical) : (s.migStep m).Canonical := by
  unfold State.migStep
  split
  · exact h.migBegin
  · refine .ite h.recallHost.copyFrame.setMig (.ite h.switch ?_)
    split
    · exact h.migRewrite.setMig
    · exact h.migEnd

theorem Canonical.fillTable {n : Nat} {p : Splinter} (h : s.Canonical) : (s.fillTable n p).Canonical :=
  h.foldl fun _ _ h => h.setPhysWord

theorem Canonical.splinterEnd {loc : Nat} {p : Splinter} (h : s.Canonical) : (s.splinterEnd loc p).Canonical := by
  unfold State.splinterEnd
  extract_lets +onlyGivenNames _ u e back
  have hu : u.Canonical := h
  have hback : ∀ {v : State} {n : Nat}, v.Canonical → (back v n).Canonical := fun hv =>
    Canonical.say (.ite (Canonical.setPhysWord (hv.same rfl rfl rfl)) (hv.same rfl rfl rfl))
  clear_value back u
  split
  · exact hback hu
  · refine .ite (hback hu) (.ite (hback hu.fillTable) (Canonical.say ?_))
    exact Canonical.foldl (hu.modTenant.fillTable.setPhysWord.l1Flush) fun _ _ h => .ite h h.setEntry

/-! ### Scrubbing and errors -/

theorem Canonical.poisonSector {pa : Nat} (h : s.Canonical) : (s.poisonSector pa).Canonical := h

theorem Canonical.poisonGranule {c : Granule} (h : s.Canonical) : (s.poisonGranule c).Canonical := by
  cases c with
  | scratch => exact h.modTeam fun _ => by rfl
  | bstore => exact h.modCoreTo (h.core.updAt fun _ hb => hb)
  | ring => exact h.modTile
  | l1 => exact h.modCore fun _ => by rfl
  | _ => exact h

theorem Canonical.granuleError {c : Granule} {lasting : Bool} (h : s.Canonical) : (s.granuleError c lasting).Canonical := by
  unfold State.granuleError
  extract_lets l u v
  have hu : u.Canonical := h.count
  have hv : v.Canonical := hu.poisonGranule
  clear_value v
  split
  · split
    · exact hu.poisonGranule
    · exact hu
  · split
    · exact .ite (hv.modCore fun _ => by rfl) hv
    · exact .ite (hv.modCore fun _ => by rfl) hv
    · exact .ite (hv.modCore fun _ => by rfl) hv
    · exact .ite (hv.modCore fun _ => by rfl) hv
    · exact hv

/-! ### The lend window -/

theorem Canonical.hostFault {port tn tsa : Nat} {w : Bool} (h : s.Canonical) : (s.hostFault port tn tsa w).Canonical := h

theorem Canonical.touch {l : Leaf} {acc : Acc} (h : s.Canonical) : (s.touch l acc).Canonical := touch_memoryOk h _ _

end State

/-- The state that the way of a host address ends in is canonical. -/
def HostAt.Keeps : HostAt → Prop
  | .outside => True
  | .refused s | .ok s _ _ _ => s.Canonical

section
variable {a : HostAt} {u : State} {n tsa : Nat} {o : Tenant}

theorem HostAt.Keeps.refused (h : a.Keeps) (e : a = .refused u) : u.Canonical := by subst e; exact h
theorem HostAt.Keeps.ok (h : a.Keeps) (e : a = .ok u n o tsa) : u.Canonical := by subst e; exact h

end

namespace State

theorem Canonical.hostAt {port hpa : Nat} {acc : Acc} (h : s.Canonical) : (s.hostAt port hpa acc).Keeps := by
  unfold State.hostAt
  extract_lets p tsa u write
  have hu : u.Canonical := by
    unfold u
    split
    · exact h.splinterEnd
    · exact h
  clear_value u
  split
  · trivial
  · split
    · trivial
    · split
      · trivial
      · split
        · exact hu.hostFault
        · split
          · split
            · exact hu.hostFault
            · exact Canonical.ite hu.touch hu.uses
          · exact hu

theorem Canonical.lend {o : Tenant} {tsa : Nat} (h : s.Canonical) : (s.lend o tsa).Canonical := by
  unfold State.lend
  split <;> exact h

theorem Canonical.lineLost {o : Tenant} {tsa : Nat} (h : s.Canonical) : (s.lineLost o tsa).Canonical := by
  unfold State.lineLost
  split
  · exact Canonical.say (Canonical.count (Canonical.poisonSector (Canonical.poisonSector (h.foldl fun _ _ h => h.setEntry))))
  · exact h

theorem Canonical.install {n va table : Nat} {leaf : Word → Word} {shifts : List Nat} (h : s.Canonical)
    (e : s.install n va leaf shifts table = some t) : t.Canonical := install_memoryOk _ _ _ _ _ h e

theorem Canonical.backWith {n tsa frame : Nat} {o : Tenant} (h : s.Canonical) (e : s.backWith n o tsa frame = some t) : t.Canonical :=
  backWith_memoryOk h e

theorem Canonical.hostPut {pa : Nat} {bs : List Byte} {psn : Bool} (h : s.Canonical) : (s.hostPut pa bs psn).Canonical :=
  hostPut_memoryOk h _ _ _
theorem Canonical.hostStore {pa : Nat} {bs : List Byte} {psn : Bool} (h : s.Canonical) : (s.hostStore pa bs psn).Canonical :=
  hostStore_memoryOk h _ _ _
theorem Canonical.drainPage {page pa : Nat} (h : s.Canonical) : (s.drainPage page pa).Canonical := drainPage_memoryOk h _ _

theorem Canonical.hostPage {n tsa pa : Nat} {o : Tenant} (h : s.Canonical) (e : s.hostPage n o tsa = some (t, pa)) : t.Canonical := by
  unfold State.hostPage at e
  extract_lets found at e
  have hfound : ∀ {u : State}, u.Canonical → found u = some (t, pa) → t.Canonical := fun hu e => by
    obtain ⟨l, -, hl⟩ := Option.map_eq_some_iff.1 e
    cases hl
    exact hu.drainPage
  clear_value found
  split at e
  · split at e
    · obtain ⟨u, hu, e⟩ := Option.bind_eq_some_iff.1 e
      exact hfound (h.restoreFrame hu) e
    · exact hfound h e
  · obtain ⟨f, -, e⟩ := Option.bind_eq_some_iff.1 e
    obtain ⟨u, hu, e⟩ := Option.bind_eq_some_iff.1 e
    exact hfound (h.backWith hu) e

theorem Canonical.hostOverflow {port tsa : Nat} {bs : List Byte} {psn : Bool} (h : s.Canonical) :
    (s.hostOverflow port tsa bs psn).Canonical := .ite h.count h

theorem Canonical.hostWrite {port n tsa : Nat} {o : Tenant} {bs : List Byte} {psn : Bool} (h : s.Canonical) :
    (s.hostWrite port n o tsa bs psn).Canonical := by
  unfold State.hostWrite
  split
  · exact (h.hostPage ‹_›).hostStore.lend
  · exact h.hostOverflow

theorem Canonical.recallTsa {o : Tenant} {tsa n : Nat} (h : s.Canonical) : (s.recallTsa o tsa n).Canonical := by
  unfold State.recallTsa
  split
  · exact .ite h h.recallDirty
  · exact h

theorem Canonical.wakeByHost {port : Nat} {v : Word} (h : s.Canonical) : (s.wakeByHost port v).Canonical := by
  unfold State.wakeByHost
  extract_lets key
  split
  · exact .ite h.count h.recallLine.wake.bump
  · exact h.count

/-! ### ATS and page requests -/

theorem Canonical.atcFill {e : AtcEntry} (h : s.Canonical) : (s.atcFill e).Canonical := h

theorem Canonical.nextRequest (h : s.Canonical) : s.nextRequest.Canonical := by
  unfold State.nextRequest
  extract_lets waits
  split
  · exact h.pageRequest
  · exact h

theorem Canonical.atsSettled {pasid page : Nat} (h : s.Canonical) : (s.atsSettled pasid page).Canonical := h

theorem Canonical.settlePage {pasid page : Nat} {o : BitVec 2} (h : s.Canonical) : (s.settlePage pasid page o).Canonical :=
  Canonical.nextRequest (Canonical.foldl h.atsSettled fun _ _ h => .ite h h.withdraw.applyAnswer)

end State

/-! ### The instructions of the frame engine -/

theorem Answers.execFrameMigration {tn frame target : Nat} {pages : List Nat} : Answers s (execFrameMigration tn frame target pages s) :=
  .next fun h => by
    split
    · exact h.migStep.bump
    · exact .ite h h.setMig.bump

theorem Answers.execCapacityTierEviction {tn cold : Nat} {pages : List Nat} : Answers s (execCapacityTierEviction tn pages cold s) :=
  .next fun h => by
    split
    · exact h
    · extract_lets frame ls u c _ v w
      have hu : u.Canonical := h.drainFrame.recallHost.viewAs
      have hw : w.Canonical := State.Canonical.foldl (hu.same rfl rfl rfl) fun _ _ h => h.setEntry
      exact .ite h hw.modTenant.l1Flush.bump

theorem Answers.execCmpRestore {r : Restore} : Answers s (execCmpRestore r s) := .next fun h => by
  refine .ite ?_ h
  split
  · exact (h.restoreFrame ‹_›).bump
  · exact h

theorem Answers.execSplinter {tn va : Nat} {c : SplinterCause} : Answers s (execSplinter tn va c s) := .next fun h => by
  split
  · exact h
  · split
    · exact h.splinterEnd.bump
    · exact .ite h h.lockEntry

theorem Answers.execPatrolScrub {pa : Nat} {o : ScrubOutcome} : Answers s (execPatrolScrub pa o s) := .next fun h => by
  dsimp only
  split
  · exact h
  · refine .ite h.count.bump ?_
    exact .ite (State.Canonical.bump (State.Canonical.say (State.Canonical.count h))) (State.Canonical.bump (State.Canonical.count h))
  · exact .ite (State.Canonical.bump (State.Canonical.count h)) h.poisonSector.count.say.bump

/-! ### The instructions of the host -/

theorem Answers.execHostMemrd {port : Nat} {r : HostRead} : Answers s (execHostMemrd port r s) := .next fun h => by
  split
  · exact h
  · exact (h.hostAt.refused ‹_›).say.bump
  · have hu := h.hostAt.ok ‹_›
    exact State.Canonical.bump (State.Canonical.say (State.Canonical.lend (.ite hu.lineLost hu)))

theorem Answers.execHostMemwr {port hpa : Nat} {bs : List Byte} {psn : Bool} : Answers s (execHostMemwr port hpa bs psn s) :=
  .next fun h => by
    split
    · exact h
    · exact (h.hostAt.refused ‹_›).say.bump
    · exact (h.hostAt.ok ‹_›).hostWrite.say.bump

theorem Answers.execHostAtomicop {port hpa width operand compare : Nat} {op : HostAtomic} :
    Answers s (execHostAtomicop port hpa op width operand compare s) := .next fun h => by
  refine .ite h.say ?_
  split
  · exact h
  · exact (h.hostAt.refused ‹_›).say.bump
  · have hu := (h.hostAt.ok ‹_›)
    exact .ite hu.recallTsa.say.bump hu.recallTsa.say.hostWrite.say.bump

theorem Answers.execHostOverflowDrain {page frame : Nat} : Answers s (execHostOverflowDrain page frame s) := .next fun h => by
  split
  · exact h
  · extract_lets +onlyGivenNames tsa drained taken
    have hd : ∀ {u : State}, u.Canonical → (drained u).Canonical := fun hu => by
      unfold drained
      split
      · exact hu.drainPage
      · exact hu
    clear_value drained
    refine .ite h ?_
    split
    · refine .ite (hd h).bump (.ite h ?_)
      split
      · exact (hd h.restoreTo).bump
      · exact h
    · refine .ite h ?_
      split
      · exact (hd (h.backWith ‹_›)).bump
      · exact h

theorem Answers.execWakeWindowWrite {port offset : Nat} {a : BarAccess} : Answers s (execWakeWindowWrite port offset a s) :=
  .next fun h => by
    refine .ite h ?_
    split
    · exact h.say
    · exact .ite h h.wakeByHost

theorem Answers.execAtsTranslationCompletion {die pasid page : Nat} {a : AtsAnswer} :
    Answers s (execAtsTranslationCompletion die pasid page a s) := .next fun h => by
  refine .ite h ?_
  split
  · exact h
  · exact h

theorem Answers.execAtsInvalidationRequest {pasid page : Nat} {all : Bool} :
    Answers s (execAtsInvalidationRequest pasid page all s) := .next fun h => h

theorem Answers.execInvalidationCompletion {pasid page : Nat} : Answers s (execInvalidationCompletion pasid page s) :=
  .next fun h => State.Canonical.bump (State.Canonical.say (h.foldl fun _ _ h => h.foldl fun _ _ h => h.drainWcb))

theorem Answers.execPrgResponse {pasid page : Nat} {ok : Bool} : Answers s (execPrgResponse pasid page ok s) := .next fun h =>
  .ite h.settlePage.bump h

theorem Answers.execPageRequestTimeout {pasid page : Nat} : Answers s (execPageRequestTimeout pasid page s) := .next fun h =>
  .ite h.settlePage.count.bump h

end Sys2Proof.Machine
end

section
/-! PROOFS. The sequencers: fetches, the choice of streams, sweeps, and the completion of long-latency work. -/

namespace Sys2Proof.Machine

variable {s t : State}

/-- Every state that a fetch answers with is canonical. -/
def Fetched.Keeps : Fetched → Prop
  | .line s _ | .lost s | .later s => s.Canonical
  | _ => True

section
variable {f : Fetched} {u : State} {b : LineBuf}

theorem Fetched.Keeps.line (h : f.Keeps) (e : f = .line u b) : u.Canonical := by subst e; exact h
theorem Fetched.Keeps.lost (h : f.Keeps) (e : f = .lost u) : u.Canonical := by subst e; exact h
theorem Fetched.Keeps.later (h : f.Keeps) (e : f = .later u) : u.Canonical := by subst e; exact h

end

namespace State

/-! ### Fetches -/

theorem Canonical.fetchPark {key line : Nat} {g : Group} {m : LaneMask} {pc : Word} (h : s.Canonical) :
    (s.fetchPark key g m pc line).Canonical := by
  unfold State.fetchPark
  repeat' split
  · exact h.parkLanes
  all_goals exact h

theorem Canonical.fetchFault {key line : Nat} {g : Group} (h : s.Canonical) : (s.fetchFault key g line).Canonical := h.fetchPark

theorem Canonical.fetchKill {key reason : Nat} {g : Group} {pc : Word} (h : s.Canonical) : (s.fetchKill key g reason pc).Canonical := by
  unfold State.fetchKill
  repeat' split
  · exact h.kill
  all_goals exact h

theorem Canonical.fetchSlot {core q : Nat} (h : s.Canonical) (e : s.fetchSlot core q = some t) : t.Canonical := by
  unfold State.fetchSlot at e
  extract_lets n at e
  split at e
  · cases e
    exact h.modCore fun _ => by rfl
  · cases e

theorem Canonical.fetch {core tn line loc : Nat} {err : ErrClass} (h : s.Canonical) : (s.fetch core tn line loc err).Keeps := by
  have hx : (State.xlate { s with cur := .engine core } tn line .fetch).Keeps := Canonical.xlate h
  unfold State.fetch
  split
  · have hu := hx.ok ‹_›
    dsimp only
    split
    · exact hu.same rfl rfl rfl
    · split
      · exact hu.same rfl rfl rfl
      · exact hu.same rfl rfl rfl
      · exact Canonical.modCore (Canonical.count (hu.same rfl rfl rfl)) fun _ => by rfl
  · trivial
  · trivial
  · trivial
  · have hu := hx.later ‹_›
    exact hu.same rfl rfl rfl

/-! ### The choice of streams -/

theorem Canonical.age {key : Nat} {g : Group} {m : Stream} (h : s.Canonical) : (s.age key g m).Canonical := .ite h h

theorem Canonical.stopAt {key : Nat} {m : Stream} {ls : List Nat} (h : s.Canonical) : (s.stopAt key m ls).Canonical :=
  Canonical.debugStop h.modGroup

theorem Canonical.sweepGo {key slice : Nat} {g : Group} {m : Stream} {b : LineBuf} (h : s.Canonical) :
    (s.sweepGo key slice g m b).Canonical := .ite h h

/-! ### Completion -/

theorem Canonical.completeOp {id : Nat} {o : Op} (h : s.Canonical) : (s.completeOp id o).Canonical := by
  unfold State.completeOp
  split
  · exact h.delOp
  · extract_lets +onlyGivenNames traps fell named uni u v w x y
    have hu : u.Canonical := h.modGroup
    have hw : w.Canonical := hu.endOp.foldl fun _ _ h => .ite h.unwait h
    have hx : x.Canonical := hw.same rfl rfl rfl
    exact Canonical.modGroup (hx.takeTraps.same rfl rfl rfl)

theorem Canonical.performStores {o : Op} (h : s.Canonical) : (s.performStores o).Canonical :=
  .ite (h.foldl fun _ _ h => h.drainWcb) h

/-- A step of an engine, during which the turn is the engine's. -/
theorem Canonical.underEngine {c : Cur} {f : State → State} (h : s.Canonical) (hf : ∀ u, u.Canonical → (f u).Canonical) :
    State.Canonical { (f { s with cur := c }).bump with cur := .none } :=
  (hf { s with cur := c } h).same rfl rfl rfl

end State

/-! ### The steps of the sequencers -/

theorem Answers.execLineFetch {core slot slice : Nat} {err : ErrClass} : Answers s (execLineFetch core slot slice err s) :=
  .next fun h => by
    extract_lets key
    split
    · exact h
    · split
      · extract_lets line
        refine .ite h ?_
        split
        · exact h
        · have hu := h.fetchSlot ‹_›
          split
          · exact (hu.fetch.line ‹_›).modGroup.bump
          · exact (hu.fetch.lost ‹_›).fetchKill.bump
          · exact hu.fetchFault
          · exact hu.foldl fun _ _ h => h.takeTraps
          · exact hu.fetchKill
          · exact hu.fetch.later ‹_›
      · exact h

theorem Answers.execIssueChoice {core q : Nat} : Answers s (execIssueChoice core q s) := .next fun h => by
  extract_lets u v gs
  have hu : u.Canonical := h.foldl fun _ _ h => h.modGroup
  have hv : v.Canonical := hu.foldl fun _ _ h => h.foldl fun _ _ h => h.age
  exact hv.same rfl rfl rfl

theorem Answers.execStreamAged {core slot slice : Nat} : Answers s (execStreamAged core slot slice s) := .next fun h => by
  dsimp only
  split
  · exact h
  · split
    · exact h.age
    · exact h

theorem Answers.execReconvergenceHoldExpiry {core slot slice : Nat} : Answers s (execReconvergenceHoldExpiry core slot slice s) :=
  .next fun h => by
    dsimp only
    split
    · exact h
    · split
      · exact .ite h h
      · exact h

theorem Answers.execSweepIssue {core slot slice : Nat} : Answers s (execSweepIssue core slot slice s) := .next fun h => by
  extract_lets key
  split
  · exact h
  · split
    · refine .ite h (.ite h.stopAt ?_)
      split
      · exact h.sweepGo
      · split
        · exact h
        · have hu := h.fetchSlot ‹_›
          split
          · exact (hu.fetch.line ‹_›).modGroup.sweepGo
          · exact (hu.fetch.lost ‹_›).fetchKill.bump
          · exact hu.fetch.later ‹_›
          · exact hu.fetchPark
          · exact hu.takeTraps
          · exact hu.fetchKill
    · exact h

theorem Answers.execYieldExpiry {core slot slice : Nat} : Answers s (execYieldExpiry core slot slice s) := .next fun h => h

theorem Answers.execTwaitExpiry {core slot lane : Nat} : Answers s (execTwaitExpiry core slot lane s) := .next fun h => by
  dsimp only
  split
  · exact h
  · exact .ite h.resume h

theorem Answers.execBreakpointHit {core slot lane : Nat} : Answers s (execBreakpointHit core slot lane s) := .next fun h => by
  dsimp only
  split
  · exact h
  · split
    · exact .ite h.stopAt h
    · exact h

theorem Answers.execLongLatencyCompletion {op : Nat} : Answers s (execLongLatencyCompletion op s) := .next fun h => by
  split
  · exact h
  · exact .ite h h.performStores.completeOp.bump

theorem Answers.execMatrixQueueExecute {core : Nat} {err : ErrClass} : Answers s (execMatrixQueueExecute core err s) :=
  .next fun h => h.matrixStep.bump

theorem Answers.execPuntyChunk {core : Nat} {err : ErrClass} : Answers s (execPuntyChunk core err s) := .next fun h =>
  .ite (h.underEngine (f := fun u => u.puntyStep core err) fun _ h => h.puntyStep) h

theorem Answers.execLehrRow {core : Nat} : Answers s (execLehrRow core s) := .next fun h =>
  .ite (h.underEngine (f := fun u => u.lehrStep core) fun _ h => h.lehrStep) h

end Sys2Proof.Machine
end

section
/-! PROOFS. Pre-emption: halts, saves, restores, debug stops and steps. -/

namespace Sys2Proof.Machine

variable {s t : State}

namespace State

/-! ### Replies and halting -/

theorem Canonical.replies {key : Nat} (h : s.Canonical) : (s.replies key).Canonical := by
  unfold State.replies
  split
  · exact h
  · refine h.foldl fun u l h => ?_
    split
    · split
      · exact .ite (h.readWords.ok ‹_›).resume (h.readWords.ok ‹_›)
      · exact h
    · exact h

theorem Canonical.haltJob {e : Nat} {j : Job} (h : s.Canonical) : (s.haltJob e j).Canonical := by
  unfold State.haltJob
  extract_lets +onlyGivenNames u k r v
  have hu : u.Canonical := h.modCullet
  have hr : r.1.Canonical := by
    unfold r
    split
    · split
      · exact (hu.devWrite.ok ‹_›).bump
      · exact hu
    · exact hu
  exact .ite hr.modCullet.parkCard hr.modCullet

theorem Canonical.unhaltJobs {cs : List Nat} (h : s.Canonical) : (s.unhaltJobs cs).Canonical := h

theorem Canonical.haltGroup {key : Nat} (h : s.Canonical) : (s.haltGroup key).Canonical := by
  unfold State.haltGroup
  split
  · exact h
  · extract_lets u v w
    have hu : u.Canonical := h.foldl fun _ _ h => h.unlist.unwait
    have hv : v.Canonical := hu.foldl fun _ _ h => h.drainWcb
    have hw : w.Canonical := hv.modGroup
    clear_value w
    exact hw.same rfl rfl rfl

theorem Canonical.markSwapped {cs : List Nat} {b : Bool} (h : s.Canonical) : (s.markSwapped cs b).Canonical := h

theorem Canonical.haltEnd {i : Nat} {p : Partition} (h : s.Canonical) : (s.haltEnd i p).Canonical := by
  unfold State.haltEnd
  extract_lets u v w
  have hu : u.Canonical := h.foldl fun _ _ h => h.haltGroup
  have hv : v.Canonical := hu.foldl fun _ _ h => h.foldl fun _ _ h => h.haltJob
  exact hv.markSwapped.modPartition

/-! ### Saving -/

theorem Canonical.move {f : Nat → Nat} {b : Bool} (h : s.Canonical) : (s.move f b).Canonical :=
  (h.mapTeams (f := fun e => { e.2 with core := f e.2.core }) fun _ => rfl).same rfl rfl rfl

/-- A core is saved with its B slots, and leaves them as well. -/
theorem Canonical.saveCore {c d : Nat} (h : s.Canonical) :
    ((s.modCore d fun _ => (s.core c).saved).modCore c fun _ => (s.core c).left).Canonical :=
  (h.modCoreTo h.core).modCoreTo h.core

theorem Canonical.save {i slot : Nat} {p : Partition} (h : s.Canonical) : (s.save i p slot).Canonical := by
  unfold State.save
  extract_lets +onlyGivenNames id u v w
  have hu : u.Canonical := h.foldl fun _ _ h => h.setGroup
  have hv : v.Canonical := hu.foldl fun _ _ h => h.saveCore
  have hw : w.Canonical := hv.move
  exact hw.same rfl rfl rfl

theorem Canonical.toldDone {i : Nat} {p : Partition} (h : s.Canonical) : (s.toldDone i p).Canonical := .ite h h

theorem Canonical.haltTry {i : Nat} (h : s.Canonical) : (s.haltTry i).Canonical := by
  unfold State.haltTry
  split
  · exact h
  · extract_lets u
    have hu : u.Canonical := .ite h.haltEnd h
    clear_value u
    split
    · refine .ite ?_ hu
      split
      · exact hu.save.toldDone
      · exact hu.toldDone
    · exact hu

/-! ### Restoring -/

theorem Canonical.revive {key : Nat} (h : s.Canonical) : (s.revive key).Canonical := by
  unfold State.revive
  extract_lets u
  have hu : u.Canonical := h.replies
  clear_value u
  split
  · exact hu
  · exact Canonical.modGroup (hu.foldl fun _ _ h => .ite h.resume (.ite h.unwait h))

theorem Canonical.lateWakes {cs : List Nat} (h : s.Canonical) : (s.lateWakes cs).Canonical :=
  Canonical.foldl (h.same rfl rfl rfl) fun _ _ h => h.wakeOne

theorem Canonical.lateAnswers {cs : List Nat} (h : s.Canonical) : (s.lateAnswers cs).Canonical :=
  h.foldl fun _ _ h => h.withdraw.applyAnswer

theorem Canonical.lateChildren (h : s.Canonical) : s.lateChildren.Canonical :=
  Canonical.foldl (h.same rfl rfl rfl) fun _ _ h => h.childDone

theorem Canonical.late {cs : List Nat} (h : s.Canonical) : (s.late cs).Canonical := by
  unfold State.late
  extract_lets u v w x y
  have hu : u.Canonical := h.lateWakes.lateAnswers
  have hv : v.Canonical := hu.foldl fun _ _ h => h.fire
  have hw : w.Canonical := hv.foldl fun _ _ h => .ite h (by
    split
    · exact h.nxDone
    · exact .ite h.nxRetry h)
  have hx : x.Canonical := hw.foldl fun _ _ h => h.revive
  have hy : y.Canonical := hx.foldl fun _ _ h => h.wakeLead
  exact hy.lateChildren.unhaltJobs.openGates

/-- The B slots of a core of a partition are the saved ones in its teams' windows, and its old ones elsewhere. -/
theorem Canonical.mergeCore {c : Nat} {k : Core} (h : s.Canonical) (hk : slotsOk k.bslots) : (s.mergeCore c k).Canonical := by
  refine h.modCoreTo fun b hb => ?_
  obtain ⟨e, he, rfl⟩ := List.mem_map.1 hb
  have hmem : e.2 ∈ k.bslots := (List.of_mem_zip he).2
  split
  · exact hk _ hmem
  · rw [List.getD_eq_getElem?_getD]
    cases hg : (s.core c).bslots[e.1]? with
    | none => exact hk _ hmem
    | some b => exact h.core b (List.mem_of_getElem? hg)

/-- Fewer cores. -/
theorem Canonical.filterCores {p : Nat × Core → Bool} (h : s.Canonical) :
    State.Canonical { s with work := { s.work with cores := s.work.cores.filter p } } := by
  obtain ⟨hb, hts, hcs⟩ := (memoryOk_iff s).1 h
  exact (memoryOk_iff _).2 ⟨hb, hts, fun e he => hcs e (List.mem_filter.1 he).1⟩

theorem Canonical.restore {i id : Nat} {p : Partition} {m : Image} (h : s.Canonical) : (s.restore i p id m).Canonical := by
  unfold State.restore
  extract_lets +onlyGivenNames saved u v
  have hu : u.Canonical := h.move
  have hv : v.Canonical := List.foldlRecOn (motive := Canonical) _ _ hu fun a ha e he => by
    obtain ⟨r, -, rfl⟩ := List.mem_map.1 he
    exact ha.mergeCore h.core
  exact Canonical.modPartition (Canonical.late (hv.filterCores.same rfl rfl rfl))

/-! ### Steps -/

theorem Canonical.stepDone {key : Nat} {m : LaneMask} (h : s.Canonical) : (s.stepDone key m).Canonical := h

theorem Canonical.stepTry {key : Nat} {m : LaneMask} (h : s.Canonical) : (s.stepTry key m).Canonical := by
  unfold State.stepTry
  split
  · exact h.stepDone
  · extract_lets ls
    split
    · refine .ite h.stepDone (.ite h ?_)
      split
      · exact h
      · have hu := h.fetchSlot ‹_›
        split
        · have hv := hu.fetch.line ‹_›
          exact .ite (hv.same rfl rfl rfl) hv
        · exact hu.fetch.later ‹_›
        · exact hu.fetchPark.stepDone
        · exact (Canonical.takeTraps hu.modGroup).stepDone
        · exact hu.fetchKill.stepDone
        · exact (hu.fetch.lost ‹_›).fetchKill.stepDone.bump
    · exact h.stepDone

end State

/-! ### The instructions of pre-emption -/

theorem Answers.execSyscReply {core slot : Nat} : Answers s (execSyscReply core slot s) := .next fun h => .ite h.replies.bump h

theorem Answers.execPartitionHalt {i : Nat} : Answers s (execPartitionHalt i s) := .next fun h => h.haltTry.bump

theorem Answers.execQuantumExpiry {i : Nat} : Answers s (execQuantumExpiry i s) := .next fun h => by
  split
  · exact h
  · exact .ite h h.modPartition.haltTry.bump

section
variable {die : Nat} {b : BitVec 8}

theorem Answers.execHaltPartition : Answers s (execHaltPartition die b s) := .next fun h => by
  split
  · exact h.status
  · exact .ite h.status h.status.modPartition.haltTry.bump

theorem Answers.execHaltAndSwapOut {n : Nat} : Answers s (execHaltAndSwapOut die b n s) := .next fun h => by
  split
  · exact h.status
  · exact .ite h.status h.status.modPartition.haltTry.bump

theorem Answers.execSwapInAndResume {n : Nat} : Answers s (execSwapInAndResume die b n s) := .next fun h => by
  split
  · exact .ite h.status h.restore.status.bump
  · exact h.status

theorem Answers.execResumeInPlace : Answers s (execResumeInPlace die b s) := .next fun h => by
  split
  · exact h.status
  · exact h.modPartition.late.status.bump

theorem Answers.execSetQuantum {ns : Nat} : Answers s (execSetQuantum die b ns s) := .next fun h => by
  split
  · exact h.status
  · exact h.modPartition.status

end

theorem Answers.execReturnWithdrawnCore {core : Nat} : Answers s (execReturnWithdrawnCore core s) := .next fun h =>
  .ite (h.modCore fun _ => by rfl).status h.status

theorem Answers.execUnlistedCommand {cmd : BitVec 8} : Answers s (execUnlistedCommand cmd s) := .next fun h => .ite h h.status

theorem Answers.execDebugStep {core slot lane : Nat} {b : Bool} : Answers s (execDebugStep core slot lane b s) := .next fun h => by
  dsimp only
  split
  · exact h.status
  · exact .ite h.status h

theorem Answers.execDebugResume {core slot : Nat} : Answers s (execDebugResume core slot s) := .next fun h => by
  split
  · exact .ite h.status (State.Canonical.status (h.foldl fun _ _ h => h.modGroup))
  · exact h.status

end Sys2Proof.Machine
end

section
/-! PROOFS. The state window, the Gleden cores, tenants, Ezwell, power and time. -/

namespace Sys2Proof.Machine

variable {s t : State}

/-- An outcome from a state that differs from the present one in what the form does not speak of. -/
theorem Answers.of {o : Host.Outcome State Fault Refusal} (ho : Answers t o) (h : s.Canonical → t.Canonical) : Answers s o := by
  obtain ⟨u, e, hu⟩ := ho
  exact ⟨u, e, fun hs => hu (h hs)⟩

/-! ### The state window -/

theorem Answers.secondHalf {c v : Word} : Answers s (s.secondHalf c v) := by
  unfold State.secondHalf
  dsimp only
  split
  · exact execAnswerFault.of fun h => h
  · exact execKillGroupLanes.of fun h => h

theorem Answers.command {v : Word} : Answers s (s.command v) := by
  unfold State.command
  split
  · exact .secondHalf
  · extract_lets +onlyGivenNames _ u die benches arg
    have hu : s.Canonical → u.Canonical := fun h => h
    refine Answers.of ?_ hu
    clear_value u
    split
    · exact .next fun h => h.status
    · split
      · exact .execHaltPartition
      · exact .execHaltAndSwapOut
      · exact .execSwapInAndResume
      · exact .execResumeInPlace
      · exact .execSetQuantum
      · exact .next fun h => h
      · exact .execDebugStep
      · exact .execDebugResume
      · exact .execReturnWithdrawnCore
      · exact .execFenceDie
      · exact .next fun h => h
      · exact .execUnlistedCommand

theorem State.Canonical.readKills {n : Nat} (h : s.Canonical) : (s.readKills n).Canonical :=
  .ite h (h.same rfl rfl rfl)

theorem Answers.execStateWindowWrite {pa : Nat} {v : Word} {b : Bool} : Answers s (execStateWindowWrite pa v b s) := by
  unfold Machine.execStateWindowWrite
  extract_lets off
  split
  · exact .next fun h => h
  · split
    · exact .next fun h => .ite h.setApertureWord.bump h
    · split
      · exact .command
      · split
        · exact .next fun h => .ite h (h.same rfl rfl rfl)
        · split
          · exact .next fun h => h.readKills
          · exact .next fun h => h

/-! ### The Gleden cores -/

/-- The addresses of which the spec says what an access does: below the end of hub SRAM, and in the state window (R185). -/
def described (pa : Nat) : Prop := pa < 0x30004000000 ∨ (0x40000000000 ≤ pa ∧ pa < 0x40300000000)

theorem State.Canonical.setHub {v : Word} {w : HubWord} (h : s.Canonical) : (s.setHub v w).Canonical := by
  cases w with
  | mailbox n =>
    unfold State.setHub
    dsimp only
    split
    · exact h.setMailbox
    · exact h
  | _ => exact h

theorem gledenAccess_cases (pa : Nat) (size : BitVec 2) (op : GledenOp) (s : State) :
    (¬ described pa ∧ s.gledenAccess pa size op = .fault .undescribedRegister) ∨ Answers s (s.gledenAccess pa size op) := by
  unfold State.gledenAccess
  extract_lets +onlyGivenNames n at' tell part hub
  have htell : ∀ {u : State} {old : Nat} {psn : Bool}, u.Canonical → (tell u old psn).Canonical := fun hu => .ite hu.say hu
  clear_value tell hub
  split
  next hc =>
    refine .inl ⟨?_, rfl⟩
    rw [Bool.or_eq_true, Bool.and_eq_true, Bool.and_eq_true] at hc
    rintro (hlow | ⟨hbase, hend⟩)
    · rcases hc with hc | ⟨⟨hc, -⟩, -⟩
      · have := of_decide_eq_true hc
        unfold windowEnd at this
        omega
      · have := of_decide_eq_true hc
        unfold trustedBase hubBytes at this
        omega
    · rcases hc with hc | ⟨⟨-, hc⟩, -⟩
      · have := of_decide_eq_true hc
        unfold windowEnd at this
        omega
      · have := of_decide_eq_true hc
        unfold windowBase at this
        omega
  next =>
    right
    split
    · dsimp only
      split
      · exact Answers.execStateWindowWrite.of htell
      · exact .next fun h => (htell h).bump
    · refine .next fun h => ?_
      split
      · dsimp only
        split
        · exact (htell h).setHub.bump
        · exact (htell h).bump
      · extract_lets u old v
        have hu : u.Canonical := by
          unfold u
          split
          · exact h.recallDirty
          · exact h
        have hv : v.Canonical := htell hu
        clear_value v
        split
        · exact hv.physWrite.bump
        · exact hv.bump

theorem execGledenCoreAccess_cases (pa : Nat) (size : BitVec 2) (op : GledenOp) (s : State) :
    (¬ described pa ∧ execGledenCoreAccess pa size op s = .fault .undescribedRegister) ∨
      Answers s (execGledenCoreAccess pa size op s) := by
  unfold execGledenCoreAccess
  split
  · exact .inr (.next fun h => h.recallLine.wake.bump)
  · exact gledenAccess_cases pa size op s

/-! ### Tenants and Ezwell -/

theorem Answers.execTenantCreation {n : Nat} {cfg : TenantConfig} : Answers s (execTenantCreation n cfg s) := .next fun h => by
  refine .ite h.say ?_
  extract_lets +onlyGivenNames o _ _ u v
  have hu : u.Canonical := h
  have hv : v.Canonical := hu.foldl fun _ _ h => h.modQueue
  exact State.Canonical.fresh (hv.foldl fun _ _ h => h.modCounter)

theorem State.Canonical.lostFrame {frame : Nat} (h : s.Canonical) : (s.lostFrame frame).Canonical := lostFrame_memoryOk h _

theorem Answers.execTenantDestruction {n : Nat} : Answers s (execTenantDestruction n s) := .next fun h => by
  split
  · exact h
  · extract_lets +onlyGivenNames u
    have hu : u.Canonical := h.foldl fun _ _ h => h.lostFrame
    exact hu.same rfl rfl rfl

theorem Answers.execConfigurationRecord {r : ConfigRecord} : Answers s (execConfigurationRecord r s) := .next fun h => .ite h h
theorem Answers.execPldmFirmwareUpdate {i : SignedImage} : Answers s (execPldmFirmwareUpdate i s) := .next fun h => .ite h h

theorem Answers.execAttestationReport {n nonce addr : Nat} : Answers s (execAttestationReport n nonce addr s) := .next fun h => by
  split
  · exact h
  · exact State.Canonical.bump (State.Canonical.say (State.Canonical.devPut h))

theorem Answers.execDebugConsentToken {n : Nat} {k : DebugToken} : Answers s (execDebugConsentToken n k s) := .next fun h => .ite h h

/-! ### Images, power and time -/

theorem State.Canonical.imageOut {id : Nat} {m : Image} (h : s.Canonical) : (s.imageOut id m).Canonical :=
  .ite (h.physWrite.fresh.same rfl rfl rfl) h

theorem State.Canonical.imageBack {id n : Nat} {m : Image} (h : s.Canonical) : (s.imageBack id m n).Canonical := h

theorem Answers.execShadowImageMove {die n : Nat} {b : Bool} : Answers s (execShadowImageMove die n b s) := .next fun h => by
  dsimp only
  refine .ite h ?_
  split
  · exact .ite h.imageOut.bump h
  · split
    · exact h.imageBack.bump
    · exact h

theorem Answers.execPowerGood {a b : SignedImage} : Answers s (execPowerGood a b s) := .next fun h => .ite h h

theorem State.Canonical.fullReset (h : s.Canonical) : s.fullReset.Canonical := fullReset_memoryOk h
theorem State.canonical_powerLost (s : State) : s.powerLost.Canonical := powerLost_memoryOk s

theorem Answers.execFullResetRequest {b : BitVec 2} : Answers s (execFullResetRequest b s) := .next fun h =>
  .ite (State.Canonical.fullReset h) h

theorem Answers.execPowerLoss : Answers s (execPowerLoss s) := .next fun _ => s.canonical_powerLost

theorem Answers.throttle {die : Nat} : Answers s (.next (s.throttle die)) := .next fun h => h

theorem Answers.execThermalShutdown {die : Nat} {b : Bool} : Answers s (execThermalShutdown die b s) := by
  unfold Machine.execThermalShutdown
  split
  · exact .execComputeReset
  · exact .next fun _ => State.canonical_powerLost _

theorem Answers.execPldmMonitoring : Answers s (execPldmMonitoring s) := .next fun h => h
theorem Answers.execHdmDecoderProgramming {p b : Nat} : Answers s (execHdmDecoderProgramming p b s) := .next fun h => h
theorem Answers.execTimeSyncMessage {o : Int} {b : Bool} : Answers s (execTimeSyncMessage o b s) := .next fun h => .ite h (.ite h h)

theorem State.Canonical.tick (h : s.Canonical) : s.tick.Canonical := h

end Sys2Proof.Machine
end

section
/-! PROOFS. O59 and O60: every instruction answers a next state and keeps the canonical form; and so does every turn and the
coming of the next cycle. -/

namespace Sys2Proof.Machine

variable {s t : State}

/-! ### Instructions of one shape -/

section
variable {i : Instr} {n lat : Nat} {f : FmtT}

theorem Answers.plainT {nres : Nat} {body : List Word → List Word} : Answers s (plainT i s f n nres lat body) := .laneInstr
theorem Answers.intT {body : List Int → Int} : Answers s (intT i s f n body) := .plainT
theorem Answers.bitsT {body : Nat → List Nat → Nat} : Answers s (bitsT i s f n body) := .plainT
theorem Answers.fpT {body : List Word → Nat × FpFlags} : Answers s (fpT i s f n lat body) := .laneInstr
theorem Answers.carryInstr {sub : Bool} : Answers s (carryInstr i s f sub) := by
  unfold Machine.carryInstr
  exact .laneInstr

theorem Answers.exchange {source : Nat → Nat → Word → Option Nat} : Answers s (exchange i s f n source) := .crossT
theorem Answers.vote {result : List (Nat × Bool × Nat) → Nat} : Answers s (vote i s f result) := .crossT

theorem Answers.combine {enters : Nat → Nat → Bool} {empty : Nat} {op : Int → Int → Int} : Answers s (combine i s f enters empty op) :=
  .crossT

end

theorem Answers.plainI {i : Instr} {f : FmtI} {src : Bool} {body : Word → Word} : Answers s (plainI i s f src body) := .laneInstr
theorem Answers.atom {i : Instr} {f : FmtM} {op : AtomOp} : Answers s (atom i s f op) := .atomInstr

theorem Answers.scriptOp {d a b : BitVec 4} {op : Word → Word → Word} : Answers s (scriptOp s d a b op) := .scriptCalc

section
variable {c : Common}

theorem Answers.execMadw {f : FmtT} : Answers s (execMadw c f s) := by
  unfold Machine.execMadw
  exact .plainT

theorem Answers.execDivstep {f : FmtT} : Answers s (execDivstep c f s) := by
  unfold Machine.execDivstep
  exact .plainT

theorem Answers.execCmp {f : FmtP} : Answers s (execCmp c f s) := by
  unfold Machine.execCmp
  exact .pairP

theorem Answers.execSelp {f : FmtT} : Answers s (execSelp c f s) := by
  unfold Machine.execSelp
  exact .laneInstr

theorem Answers.execSregRd {f : FmtS} : Answers s (execSregRd c f s) := by
  unfold Machine.execSregRd
  exact .laneInstr

theorem Answers.execPlop {f : FmtS} : Answers s (execPlop c f s) := by
  unfold Machine.execPlop
  exact .laneInstr

theorem Answers.execAtomCas {f : FmtM} : Answers s (execAtomCas c f s) := by
  unfold Machine.execAtomCas
  exact .atomInstr

theorem Answers.execRed {f : FmtM} : Answers s (execRed c f s) := by
  unfold Machine.execRed
  exact .atomInstr

end

/-! ### Every instruction -/

/-- Every instruction answers, but for an access of a Gleden core, of which `execGledenCoreAccess_cases` tells. -/
theorem exec_answers {i : Instr} (hi : ∀ pa size op, i ≠ .gledenCoreAccess pa size op) : Answers s (exec i s) := by
  unfold exec
  cases i with
  | add | sub | mul | mulhi | mad | madhi | neg | abs | min | max | sad | clamp => exact .intT
  | addc | subb => exact .carryInstr
  | mulw | sar | fclass => exact .plainT
  | madw => exact .execMadw
  | divstep => exact .execDivstep
  | cmp => exact .execCmp
  | sel | shl | shr | rotl | rotr | fshl | fshr | sext | zext | and | or | xor | not | tbl3 | andn | popc | clz | ctz | brev | bfe
  | bfi | bpick | mov => exact .bitsT
  | selp => exact .execSelp
  | shli | shri | sari | andi | ori | xori | movi | movhi | addi | fmovi | muli => exact .plainI
  | lxAt | lxRot | lxSh | lxFlip => exact .exchange
  | ballot | pollAll | pollAny | pollSame => exact .vote
  | rdxAdd | rdxMin | rdxMax | rdxLop | scanAdd | scanLop => exact .combine
  | matchV => exact .crossT
  | rdxFadd => exact .execRdxFadd
  | fadd | fsub | fmul | ffma | fmin | fmax | fabs | fneg | hadd2 | hsub2 | hmul2 | hfma2 | hmin2 | hmax2 | hdot2 | fscale | dadd
  | dsub | dmul | dfma | dmin | dmax | cvt => exact .fpT
  | rcp | rsqrt | exp2 | log2 | sin | cos | sqrt => exact .specialT
  | fcmp | dcmp => exact .pairP
  | cvtPk => exact .execCvtPk
  | cvtF8 => exact .execCvtF8
  | sregRd => exact .execSregRd
  | sregWr => exact .execSregWr
  | plop => exact .execPlop
  | pdead => exact .execPdead
  | p2n | n2p | lmask => exact .laneInstr
  | bra | brx | braZ | braNz | jtab => exact .branchInstr
  | call | callx | ret => exact .callInstr
  | loop => exact .execLoop
  | join => exact .execJoin
  | exit => exact .execExit
  | yield => exact .execYield
  | regroup => exact .execRegroup
  | launch | launchPool => exact .launchInstr
  | exitWk => exact .execExitWk
  | barArv => exact .execBarArv
  | barSync => exact .execBarSync
  | barRd => exact .execBarRd
  | setJoin => exact .execSetJoin
  | setLeave => exact .execSetLeave
  | setSync => exact .execSetSync
  | gate => exact .execGate
  | rls => exact .execRls
  | leadAdv => exact .execLeadAdv
  | leadWait => exact .execLeadWait
  | twait => exact .execTwait
  | trap => exact .execTrap
  | sysc | syscTry => exact .syscInstr
  | brk => exact .execBrk
  | nop => exact .execNop
  | ld => exact .execLd
  | st => exact .execSt
  | ldK => exact .execLdK
  | stK => exact .execStK
  | stCmp => exact .execStCmp
  | ldExp => exact .execLdExp
  | pf => exact .execPf
  | pfK => exact .execPfK
  | stBm => exact .execStBm
  | ld_2 => exact .execLd_2
  | st_2 => exact .execSt_2
  | l1Inv => exact .execL1Inv
  | stNt => exact .execStNt
  | ldNt => exact .execLdNt
  | stZ => exact .execStZ
  | xlatPf => exact .execXlatPf
  | atomAdd | atomMin | atomMax | atomAnd | atomOr | atomXor | atomXchg | atomInc | atomFadd | atomFmin | atomFmax => exact .atom
  | atomCas => exact .execAtomCas
  | red => exact .execRed
  | fence => exact .execFence
  | wait => exact .execWait
  | wake => exact .execWake
  | lockAcq | lockTry | claimGet | claimTry => exact .cellInstr fun _ _ _ _ _ h => h.take
  | lockRel | claimPut => exact .cellInstr fun _ _ _ _ _ h => h.release
  | promMake => exact .cellInstr fun _ _ _ _ _ h => h.make
  | promKeep | promDrop => exact .cellInstr fun _ _ _ _ _ h => h.settle2
  | promWait | promTry => exact .cellInstr fun _ _ _ _ _ h => h.await
  | claimPass => exact .cellInstr fun _ _ _ _ _ h => h.pass
  | heirSet => exact .execHeirSet
  | estQ | estRd => exact .queryInstr
  | heirClr => exact .execHeirClr
  | cpTile | cpBld | cpBulk | cpGath | cpScat | cpOut | cpFill => exact .cpInstr
  | cpRes => exact .execCpRes
  | tagWait => exact .execTagWait
  | tagAny => exact .execTagAny
  | tagFfr => exact .execTagFfr
  | tagSt => exact .execTagSt
  | dzSub | dzRes => exact .dzInstr
  | tagClr => exact .execTagClr
  | dzSt => exact .execDzSt
  | mma | mmaSk | ringRd | ringWr | ringSt | chkRd => exact .ringInstr nothing_canonical
  | ringAdv => exact .execRingAdv
  | ringClr => exact .execRingClr
  | epiPost => exact .execEpiPost
  | nxPut | nxGet | nxSend | nxAtom | nxRed => exact .nxInstr
  | nxCnt => exact .execNxCnt
  | nxCc => exact .execNxCc
  | scriptEnd => exact .execScriptEnd
  | scriptDrop => exact .execScriptDrop
  | scriptLdp | scriptLi | scriptLih | scriptBfx | scriptAddi | scriptShl | scriptShr => exact .scriptCalc
  | scriptLdc => exact .execScriptLdc
  | scriptStc => exact .execScriptStc
  | scriptAdd | scriptSub | scriptAnd | scriptOr | scriptSeq | scriptSltu => exact .scriptOp
  | scriptBz | scriptBnz | scriptBr => exact .scriptBranch
  | scriptLoop => exact .execScriptLoop
  | scriptLaunch => exact .execScriptLaunch
  | scriptEvwait => exact .execScriptEvwait
  | scriptEvsig => exact .execScriptEvsig
  | scriptPost => exact .execScriptPost
  | scriptGreq => exact .execScriptGreq
  | longLatencyCompletion => exact .execLongLatencyCompletion
  | lineFetch => exact .execLineFetch
  | issueChoice => exact .execIssueChoice
  | streamAged => exact .execStreamAged
  | reconvergenceHoldExpiry => exact .execReconvergenceHoldExpiry
  | sweepIssue => exact .execSweepIssue
  | yieldExpiry => exact .execYieldExpiry
  | twaitExpiry => exact .execTwaitExpiry
  | leadCounterUpdate => exact .execLeadCounterUpdate
  | syscReply => exact .execSyscReply
  | poolRecordFetch => exact .execPoolRecordFetch
  | binFlush => exact .execBinFlush
  | groupFormation => exact .execGroupFormation
  | teamRangeGrant => exact .execTeamRangeGrant
  | teamPlacement => exact .execTeamPlacement
  | transformBinding => exact .execTransformBinding
  | groupRelease => exact .execGroupRelease
  | groupRetirement => exact .execGroupRetirement
  | teamRetirement => exact .execTeamRetirement
  | launchCompletion => exact .execLaunchCompletion
  | kick => exact .execKick
  | launchPacket | poolPacket | waitPacket | signalPacket | scriptPacket => exact .packet
  | kickEarlyTimeout => exact .execKickEarlyTimeout
  | scriptBudgetExceeded => exact .execScriptBudgetExceeded
  | scriptBinding => exact .execScriptBinding
  | matrixQueueExecute => exact .execMatrixQueueExecute
  | puntyChunk => exact .execPuntyChunk
  | lehrRow => exact .execLehrRow
  | culletJobStart => exact .execCulletJobStart
  | culletChunk => exact .execCulletChunk
  | nxCommandCompletion => exact .execNxCommandCompletion
  | inboundPut => exact .execInboundPut
  | inboundGet => exact .execInboundGet
  | inboundSend => exact .execInboundSend
  | inboundDeferrableSend => exact .execInboundDeferrableSend
  | inboundAtomic => exact .execInboundAtomic
  | inboundPartial => exact .execInboundPartial
  | stepAbort => exact .execStepAbort
  | retransmissionTimeout => exact .execRetransmissionTimeout
  | pathProbe => exact .execPathProbe
  | pathRevival => exact .execPathRevival
  | pathGraceExpiry => exact .execPathGraceExpiry
  | linkDown => exact .execLinkDown
  | timeSyncMessage => exact .execTimeSyncMessage
  | hostMemrd => exact .execHostMemrd
  | hostMemwr => exact .execHostMemwr
  | hostAtomicop => exact .execHostAtomicop
  | wakeWindowWrite => exact .execWakeWindowWrite
  | atsTranslationCompletion => exact .execAtsTranslationCompletion
  | atsInvalidationRequest => exact .execAtsInvalidationRequest
  | invalidationCompletion => exact .execInvalidationCompletion
  | prgResponse => exact .execPrgResponse
  | pageRequestTimeout => exact .execPageRequestTimeout
  | cmpRestore => exact .execCmpRestore
  | frameMigration => exact .execFrameMigration
  | splinter => exact .execSplinter
  | patrolScrub => exact .execPatrolScrub
  | gangKill => exact .execGangKill
  | gafferElection => exact .execGafferElection
  | quantumExpiry => exact .execQuantumExpiry
  | partitionHalt => exact .execPartitionHalt
  | breakpointHit => exact .execBreakpointHit
  | powerBudgetThrottle | thermalThrottle => exact .throttle
  | thermalShutdown => exact .execThermalShutdown
  | powerGood => exact .execPowerGood
  | fullResetRequest => exact .execFullResetRequest
  | computeReset => exact .execComputeReset
  | pldmMonitoring => exact .execPldmMonitoring
  | pldmFirmwareUpdate => exact .execPldmFirmwareUpdate
  | haltPartition => exact .execHaltPartition
  | haltAndSwapOut => exact .execHaltAndSwapOut
  | swapInAndResume => exact .execSwapInAndResume
  | resumeInPlace => exact .execResumeInPlace
  | setQuantum => exact .execSetQuantum
  | answerFault => exact .execAnswerFault
  | debugStep => exact .execDebugStep
  | debugResume => exact .execDebugResume
  | returnWithdrawnCore => exact .execReturnWithdrawnCore
  | fenceDie => exact .execFenceDie
  | killGroupLanes => exact .execKillGroupLanes
  | unlistedCommand => exact .execUnlistedCommand
  | stateWindowWrite => exact .execStateWindowWrite
  | powerLoss => exact .execPowerLoss
  | partitionReset => exact .execPartitionReset
  | capacityTierEviction => exact .execCapacityTierEviction
  | hostOverflowDrain => exact .execHostOverflowDrain
  | gledenCoreAccess pa size op => exact absurd rfl (hi pa size op)
  | connectionOpen => exact .execConnectionOpen
  | connectionClose => exact .execConnectionClose
  | tenantCreation => exact .execTenantCreation
  | tenantDestruction => exact .execTenantDestruction
  | configurationRecord => exact .execConfigurationRecord
  | attestationReport => exact .execAttestationReport
  | debugConsentToken => exact .execDebugConsentToken
  | shadowImageMove => exact .execShadowImageMove
  | hdmDecoderProgramming => exact .execHdmDecoderProgramming

end Sys2Proof.Machine
end

section
/-! PROOFS. O59 and O60, the end: the turns of a step and the coming of the next cycle. -/

namespace Sys2Proof.Machine

variable {s t : State}

/-- An outcome that, if it is a next state, keeps the canonical form. -/
def Preserves (s : State) (o : Host.Outcome State Fault Refusal) : Prop := ∀ t, o = .next t → s.Canonical → t.Canonical

theorem Answers.preserves {o : Host.Outcome State Fault Refusal} (h : Answers s o) : Preserves s o := by
  obtain ⟨u, rfl, hu⟩ := h
  rintro _ ⟨⟩
  exact hu

theorem Preserves.andThen {o : Host.Outcome State Fault Refusal} {f : State → State} (h : Preserves s o)
    (hf : ∀ u, u.Canonical → (f u).Canonical) : Preserves s (andThen o f) := by
  cases o with
  | next u => exact fun t e hs => Host.Outcome.next.inj e ▸ hf u (h u rfl hs)
  | fault => exact fun _ e => nomatch e
  | refused => exact fun _ e => nomatch e

theorem exec_preserves {i : Instr} : Preserves s (exec i s) := by
  by_cases hi : ∃ pa size op, i = .gledenCoreAccess pa size op
  · obtain ⟨pa, size, op, rfl⟩ := hi
    rcases execGledenCoreAccess_cases pa size op s with ⟨-, hf⟩ | ha
    · exact fun t e => absurd (hf.symm.trans e) (by simp)
    · exact ha.preserves
  · exact (exec_answers fun pa size op e => hi ⟨pa, size, op, e⟩).preserves

/-! ### Bytecodes and the module's own agents -/

theorem runScript_answers {o : ScriptOp} : Answers s (runScript o s) := by
  unfold runScript
  cases o with
  | ends => exact .execScriptEnd
  | drop => exact .execScriptDrop
  | ldp | li | lih | bfx | addi | shl | shr => exact .scriptCalc
  | ldc => exact .execScriptLdc
  | stc => exact .execScriptStc
  | add | sub | and | or | seq | sltu => exact .scriptOp
  | bz | bnz | br => exact .scriptBranch
  | loop => exact .execScriptLoop
  | launch => exact .execScriptLaunch
  | evwait => exact .execScriptEvwait
  | evsig => exact .execScriptEvsig
  | post => exact .execScriptPost
  | greq => exact .execScriptGreq

theorem runBytecode_preserves {q : Nat} : Preserves s (runBytecode q s) := by
  unfold runBytecode
  split
  · exact (Answers.next fun h => h).preserves
  · split
    · exact (Answers.next fun h => h).preserves
    · split
      · exact Answers.execScriptBudgetExceeded.preserves
      · split
        · exact (runScript_answers.of fun h => h).preserves.andThen fun _ h => h
        · exact (Answers.next fun h => h).preserves

theorem runEv_answers {e : Ev} : Answers s (runEv e s) := by
  unfold runEv
  cases e with
  | longLatencyCompletion => exact .execLongLatencyCompletion
  | lineFetch => exact .execLineFetch
  | issueChoice => exact .execIssueChoice
  | streamAged => exact .execStreamAged
  | reconvergenceHoldExpiry => exact .execReconvergenceHoldExpiry
  | sweepIssue => exact .execSweepIssue
  | yieldExpiry => exact .execYieldExpiry
  | twaitExpiry => exact .execTwaitExpiry
  | leadCounterUpdate => exact .execLeadCounterUpdate
  | poolRecordFetch => exact .execPoolRecordFetch
  | binFlush => exact .execBinFlush
  | groupFormation => exact .execGroupFormation
  | teamRangeGrant => exact .execTeamRangeGrant
  | teamPlacement => exact .execTeamPlacement
  | transformBinding => exact .execTransformBinding
  | groupRelease => exact .execGroupRelease
  | groupRetirement => exact .execGroupRetirement
  | teamRetirement => exact .execTeamRetirement
  | launchCompletion => exact .execLaunchCompletion
  | kick => exact .execKick
  | launchPacket | poolPacket | waitPacket | signalPacket | scriptPacket => exact .packet
  | kickEarlyTimeout => exact .execKickEarlyTimeout
  | scriptBudgetExceeded => exact .execScriptBudgetExceeded
  | matrixQueueExecute => exact .execMatrixQueueExecute
  | puntyChunk => exact .execPuntyChunk
  | lehrRow => exact .execLehrRow
  | culletJobStart => exact .execCulletJobStart
  | culletChunk => exact .execCulletChunk
  | pathProbe => exact .execPathProbe
  | pathGraceExpiry => exact .execPathGraceExpiry
  | invalidationCompletion => exact .execInvalidationCompletion
  | splinter => exact .execSplinter
  | frameMigration => exact .execFrameMigration
  | syscReply => exact .execSyscReply
  | pageRequestTimeout => exact .execPageRequestTimeout
  | cmpRestore => exact .execCmpRestore
  | gangKill => exact .execGangKill
  | gafferElection => exact .execGafferElection
  | quantumExpiry => exact .execQuantumExpiry
  | partitionHalt => exact .execPartitionHalt
  | breakpointHit => exact .execBreakpointHit
  | computeReset => exact .execComputeReset
  | inboundPartial => exact .execInboundPartial

/-! ### Issues -/

namespace State

theorem Canonical.occupy {key : Nat} {slices : List Nat} {w : BitVec 96} (h : s.Canonical) : (s.occupy key slices w).Canonical :=
  .ite (h.modCore fun _ => by rfl) h

theorem Canonical.grantIssue {key : Nat} {m : LaneMask} (h : s.Canonical) : (s.grantIssue key m).Canonical := h

theorem Canonical.issuing {core slot : Nat} {m : LaneMask} {pc : Word} {w : BitVec 96} (h : s.Canonical) :
    (s.issuing core slot m pc w).Canonical := h.occupy.same rfl rfl rfl

theorem Canonical.settleStep {key : Nat} {m : LaneMask} (h : s.Canonical) : (s.settleStep key m).Canonical := .ite h.stepDone h

theorem Canonical.afterIssue {key : Nat} {m : LaneMask} (h : s.Canonical) : (s.afterIssue key m).Canonical :=
  h.settleStep.same rfl rfl rfl

theorem Canonical.pairNext {core slot : Nat} {g : Group} {b : LineBuf} {m : LaneMask} {pc : Word} (h : s.Canonical) :
    (s.pairNext core slot g b m pc).Canonical := by
  unfold State.pairNext
  extract_lets key
  split
  · exact h
  · exact .ite h h

end State

theorem runIssue_preserves {core slot : Nat} {m : LaneMask} : Preserves s (runIssue core slot m s) := by
  have hstay : Preserves s (.next s) := (Answers.next fun h => h).preserves
  unfold runIssue
  extract_lets key
  split
  · exact hstay
  · split
    · exact hstay
    · split
      · exact hstay
      · extract_lets w trap
        have htrap : ∀ {ls : List Nat} {opc sub : Nat} {addr : Word}, Preserves s (trap ls opc sub addr) := fun {_ _ _ _} =>
          (Answers.next fun h => h.grantIssue.takeTraps.bump.afterIssue).preserves
        clear_value trap
        split
        · exact (Answers.next fun h => h.afterIssue).preserves
        · split
          · exact (Answers.next fun h => h.fetchKill).preserves
          · split
            · exact htrap
            · split
              · exact htrap
              · split
                · exact htrap
                · refine Preserves.andThen (fun t e h => exec_preserves t e h.issuing) fun _ h => h.afterIssue.pairNext

/-! ### Turns and cycles -/

theorem runTurn_preserves {n : Turn} : Preserves s (runTurn n s) := by
  cases n with
  | ev => exact exec_preserves
  | int => exact runEv_answers.preserves
  | debug => exact (Answers.next fun h => h.stepTry).preserves
  | issue => exact runIssue_preserves
  | bytecode => exact runBytecode_preserves

namespace State

theorem Canonical.drawFlaw (h : s.Canonical) : s.drawFlaw.Canonical := by
  unfold State.drawFlaw
  split
  · exact h.granuleError
  · exact h

theorem Canonical.wcbPerform (h : s.Canonical) : s.wcbPerform.Canonical :=
  h.foldl fun _ _ h => h.foldl fun _ _ h => .ite h.drainWcb h

theorem Canonical.pontil (h : s.Canonical) : s.pontil.Canonical := h.foldl fun _ _ h => .ite h.nxRetry h

theorem Canonical.nextCycle (h : s.Canonical) : s.nextCycle.Canonical := by
  unfold State.nextCycle
  extract_lets +onlyGivenNames ms u
  have hu : u.Canonical := h.tick
  clear_value u
  refine .ite hu ?_
  extract_lets +onlyGivenNames _ v w _ x y
  have hw : w.Canonical := Canonical.drawFlaw (hu.same rfl rfl rfl)
  have hx : x.Canonical := hw.same rfl rfl rfl
  exact hx.payOwed.pontil.wcbPerform.same rfl rfl rfl

end State

theorem step_preserves : Preserves s (step s) := by
  unfold step
  split
  · exact (Answers.next fun h => h.nextCycle).preserves
  · exact fun t e h => runTurn_preserves t e (h.same rfl rfl rfl)

/-! ### The obligations -/

/-- Settles O59: every instruction is a case of `exec_answers`, but for an access of a Gleden core, which faults only at the
addresses that the spec does not describe. -/
theorem nothingElseStops : Obligations.NothingElseStops := by
  intro i s hi
  by_cases hg : ∃ pa size op, i = .gledenCoreAccess pa size op
  · obtain ⟨pa, size, op, rfl⟩ := hg
    rcases execGledenCoreAccess_cases pa size op s with ⟨hpa, -⟩ | ⟨t, ht, -⟩
    · exact absurd (hi pa size op rfl) hpa
    · exact ⟨t, ht⟩
  · obtain ⟨t, ht, -⟩ := exec_answers (s := s) fun pa size op e => hg ⟨pa, size, op, e⟩
    exact ⟨t, ht⟩

/-- Settles O60: whatever the step is, a turn of the agenda or the next cycle, it is a chain of operations that each keep the
form. -/
theorem memoryStaysCanonical : Obligations.MemoryStaysCanonical := fun _ t hs e => step_preserves t e hs

end Sys2Proof.Machine
end

section
/-! PROOFS. O55: an issue that may not go still ends: a lane that a step command has released is stopped again. -/

namespace Sys2Proof.Machine

/-- A step whose turn is an issue that may not go (R30, R370): the issue ends without an instruction. -/
theorem step_of_not_mayGo {s : State} {rest : List Turn} {core slot : Nat} {mask m : LaneMask} {g : Group} {pc : Word} {b : LineBuf}
    (ha : s.agenda = .issue core slot mask :: rest) (hg : s.group? (groupKey core slot) = some g)
    (hi : g.issueSet mask = some (pc, m)) (hb : g.lineBuf m pc = some b)
    (h : State.mayGo { s with agenda := rest } (groupKey core slot) g m pc (b.slot (pc.toNat % 8)) = false) :
    step s = .next (State.afterIssue { s with agenda := rest } (groupKey core slot) m) := by
  have hu : State.group? { s with agenda := rest } (groupKey core slot) = some g := hg
  simp only [step, ha, runTurn, runIssue, hu, hi, hb, h, Bool.not_false, if_true]

/-- A `nop` whose WAIT names flag f0. -/
def waitsForF0 : BitVec 96 := 0x8FFF00000E60000000000000

/-- 32 lanes before `waitsForF0`, flag f0 raised, and a step command that has released lane 0 (R370). -/
def steppedBehindFlag : Group :=
  { team := indexKey 0 0, gid := 0, k := List.replicate 15 ⟨0, false, false, none⟩, flags := 1 :: List.replicate 11 0,
    estate := Estate.fresh, resume := none, slices := List.replicate 8 { Slice.fresh with line := some (lineWith waitsForF0) },
    segment := 0, rls := false, stage := .running, killed := false, killRec := none, items := [],
    lanes := { Lane.fresh 0x1000 with restop := true } :: List.replicate 31 (Lane.fresh 0x1000) }

/-- That group in slot 0 of core 0, its issue granted. -/
def steppedIssue : State := (State.reset.atSlot waitsForF0).setGroup (groupKey 0 0) steppedBehindFlag

/-- Refutes O55: an issue that may not go is not passed over without a trace. `State.afterIssue` follows it, as R370 wants, which
parks again the lane that a step command has released, where the statement has the state unchanged but for the agenda. -/
theorem not_stepRunsDecodedInstruction : ¬ Obligations.StepRunsDecodedInstruction := by
  intro h
  let u : State := { steppedIssue with agenda := [] }
  have ha : steppedIssue.agenda = .issue 0 0 (BitVec.allOnes 32) :: [] := rfl
  have hg : steppedIssue.group? (groupKey 0 0) = some steppedBehindFlag := State.setGroup_group_self _ _ _
  have hi : steppedBehindFlag.issueSet (BitVec.allOnes 32) = some (0x1000, BitVec.allOnes 32) := by decide +kernel
  have hb : steppedBehindFlag.lineBuf (BitVec.allOnes 32) 0x1000 = some (lineWith waitsForF0) := by decide +kernel
  have hheld : u.mayGo (groupKey 0 0) steppedBehindFlag (BitVec.allOnes 32) 0x1000
      ((lineWith waitsForF0).slot ((0x1000 : Word).toNat % 8)) = false := by
    decide +kernel
  have hstated : step steppedIssue = .next u :=
    ((h steppedIssue []).1 0 0 _ _ _ _ _ (.nop ⟨0, 0, 0, 0, 0, 0, 0, 0⟩ ⟨0, 0, 0, 0⟩) ha hg hi hb).1 hheld
  have hrun : step steppedIssue = .next (u.afterIssue (groupKey 0 0) (BitVec.allOnes 32)) :=
    step_of_not_mayGo ha hg hi hb hheld
  have hsame : u = u.afterIssue (groupKey 0 0) (BitVec.allOnes 32) := Host.Outcome.next.inj (hstated.symm.trans hrun)
  have hactive : (u.laneIn (groupKey 0 0) 0).status = .active := by decide +kernel
  have hparked : ((u.afterIssue (groupKey 0 0) (BitVec.allOnes 32)).laneIn (groupKey 0 0) 0).status = .parked := by decide +kernel
  rw [← hsame, hactive] at hparked
  exact nomatch hparked

end Sys2Proof.Machine
end

section
/-! PROOFS. O40: a sweep puts its issue on the agenda under the core and the slot of the group's key, and `groupKey` gives a group
more than one pair of them once a slot number is 64 or above. -/

namespace Sys2Proof.Machine

/-- Whether the sweep of a stream may issue from a line (R50, R63, R76, R88). -/
def State.sweepMayGo (s : State) (key slice : Nat) (g : Group) (t : Stream) (b : LineBuf) : Bool :=
  let w := b.slot (t.pc.toNat % 8)
  g.distOk t.mask w s.cycle && g.flagsOk w && s.pipeFree key [slice] w && !s.slotHolds key t.mask t.pc w

theorem State.sweepMayGo_iff {s : State} {key slice : Nat} {g : Group} {t : Stream} {b : LineBuf} :
    s.sweepMayGo key slice g t b = true ↔
      g.distOk t.mask (b.slot (t.pc.toNat % 8)) s.cycle = true ∧ g.flagsOk (b.slot (t.pc.toNat % 8)) = true ∧
        s.pipeFree key [slice] (b.slot (t.pc.toNat % 8)) = true ∧
        s.slotHolds key t.mask t.pc (b.slot (t.pc.toNat % 8)) = false := by
  simp [State.sweepMayGo, and_assoc]

/-- A sweep that may issue is the next turn of the agenda, under the core and the slot of its group's key. -/
theorem State.sweepGo_agenda {s : State} {key slice : Nat} {g : Group} {t : Stream} {b : LineBuf}
    (h : s.sweepMayGo key slice g t b = true) :
    (s.sweepGo key slice g t b).agenda = .issue (coreOf key) (slotOf key) t.mask :: s.agenda := by
  unfold State.sweepGo
  exact (congrArg State.agenda (if_pos h)).trans rfl

/-- A sweep that is due and whose line is there. -/
theorem exec_sweepIssue_of_line {s : State} {core slot slice : Nat} {g : Group} {t : Stream} {l : Launch} {b : LineBuf}
    (hg : s.group? (groupKey core slot) = some g) (ht : g.sweep slice = some t) (hl : s.launchOf g.team = some l)
    (hdue : g.sweepDue slice = true) (hmay : s.mayIssue g.team = true) (hgr : slice ∉ s.granted core (quarterOf (groupKey core slot)))
    (hstops : s.stops g t = []) (hb : g.lineFor t = some b) :
    exec (.sweepIssue core slot slice) s = .next (s.sweepGo (groupKey core slot) slice g t b) := by
  change execSweepIssue core slot slice s = _
  simp [execSweepIssue, hg, ht, hl, hdue, hmay, hgr, hstops, hb]

/-- The line at 0x1000 with a `nop` in slot 0. -/
def nopLine : LineBuf := lineWith 0x8FFF00000660000000000000

/-- Group slot 0 of core 1: lane 0 of each slice stands below the others, which stand before a `nop`, and every slice has counted
4,096 backward branches (R50). -/
def sweepingGroup : Group :=
  { team := indexKey 0 0, gid := 0, k := List.replicate 15 ⟨0, false, false, none⟩, flags := List.replicate 12 0,
    estate := Estate.fresh, resume := none,
    slices := List.replicate 8 { Slice.fresh with count := 4096, line := some nopLine },
    segment := 0, rls := false, stage := .running, killed := false, killRec := none, items := [],
    lanes := (List.range 32).map fun l => Lane.fresh (if l % 4 = 0 then 0xFFF else 0x1000) }

/-- The sweep of its slice 0. -/
def sweepStream : Stream := ⟨0x1000, 0xE, [0]⟩

/-- The state with that group alone. -/
def sweepingState : State :=
  ((State.reset.setLaunch 0 plainLaunch).setTeam (indexKey 0 0) { Team.fresh 0 0 1 plainLaunch with released := true }).setGroup
    (groupKey 1 0) sweepingGroup

/-- Refutes O40: core 0 and slot 64 have the key of core 1 and slot 0, and no hypothesis excludes them. The sweep of that group, asked
for as core 0 and slot 64, is granted as an issue of core 1 and slot 0, where the statement names core 0 and slot 64. -/
theorem not_sequencerResults : ¬ Obligations.SequencerResults := by
  intro h
  have hg : sweepingState.group? (groupKey 0 64) = some sweepingGroup := State.setGroup_group_self _ _ _
  have hst : sweepingGroup.sweep 0 = some sweepStream := by decide +kernel
  have hl : sweepingState.launchOf sweepingGroup.team = some plainLaunch := by decide +kernel
  have hdue : sweepingGroup.sweepDue 0 = true := by decide +kernel
  have hmay : sweepingState.mayIssue sweepingGroup.team = true := by decide +kernel
  have hgr : 0 ∉ sweepingState.granted 0 (quarterOf (groupKey 0 64)) := by decide +kernel
  have hstops : sweepingState.stops sweepingGroup sweepStream = [] := by decide +kernel
  have hb : sweepingGroup.lineFor sweepStream = some nopLine := by decide +kernel
  have hready : sweepingState.sweepMayGo (groupKey 0 64) 0 sweepingGroup sweepStream nopLine = true := by decide +kernel
  obtain ⟨-, -, -, hsweeps, -⟩ := h sweepingState 0 64 0 sweepingGroup hg
  obtain ⟨hline, -⟩ := hsweeps sweepStream plainLaunch hst hl hdue hmay hgr hstops
  obtain ⟨t, ht, hstated, -⟩ := hline nopLine hb (State.sweepMayGo_iff.1 hready)
  have hrun : t = sweepingState.sweepGo (groupKey 0 64) 0 sweepingGroup sweepStream nopLine :=
    Host.Outcome.next.inj (ht.symm.trans (exec_sweepIssue_of_line hg hst hl hdue hmay hgr hstops hb))
  rw [hrun, State.sweepGo_agenda hready] at hstated
  exact absurd (List.head_eq_of_cons_eq hstated) (by decide)

end Sys2Proof.Machine
end

section
/-! PROOFS. O43: how groups, teams and launches end. Lanes that return from a wait leave memory, teams and launches alone, so what a
retirement wakes does not touch what it has counted. -/

namespace Sys2Proof.Machine

/-- The values of a finite map change, its keys stay. -/
theorem Sparse.get?_map {α β : Type} (f : α → β) (m : Sparse α) (n : Nat) :
    Sparse.get? (m.map fun e => (e.1, f e.2)) n = (Sparse.get? m n).map f := by
  induction m with
  | nil => rfl
  | cons e m ih =>
    simp only [List.map_cons, Sparse.get?]
    split
    · rfl
    · exact ih

namespace State

/-! ### What waking leaves alone -/

/-- Memory, the teams and the launches are the same. -/
structure SameJobs (s t : State) : Prop where
  mem : t.mem = s.mem
  teams : t.work.teams = s.work.teams
  launches : t.work.launches = s.work.launches

variable {s t u : State}

theorem SameJobs.refl (s : State) : SameJobs s s := ⟨rfl, rfl, rfl⟩

theorem SameJobs.trans (h : SameJobs s t) (k : SameJobs t u) : SameJobs s u :=
  ⟨k.mem.trans h.mem, k.teams.trans h.teams, k.launches.trans h.launches⟩

theorem SameJobs.team (h : SameJobs s t) (k : Nat) : t.team? k = s.team? k := congrArg (fun m => Sparse.get? m k) h.teams

theorem SameJobs.launch (h : SameJobs s t) (k : Nat) : t.launch? k = s.launch? k := congrArg (fun m => Sparse.get? m k) h.launches

theorem sameJobs_foldl {α : Type} {f : State → α → State} (hf : ∀ s a, SameJobs s (f s a)) (l : List α) (s : State) :
    SameJobs s (l.foldl f s) := by
  induction l generalizing s with
  | nil => exact .refl s
  | cons a l ih => exact (hf s a).trans (ih _)

theorem SameJobs.bump (h : SameJobs s t) : SameJobs s t.bump := ⟨h.mem, h.teams, h.launches⟩

theorem sameJobs_modGroup (s : State) (k : Nat) (f : Group → Group) : SameJobs s (s.modGroup k f) := ⟨rfl, rfl, rfl⟩

theorem sameJobs_endOp (s : State) (id : Nat) : SameJobs s (s.endOp id) := by
  unfold endOp
  split
  · exact ⟨rfl, rfl, rfl⟩
  · exact .refl s

theorem sameJobs_leaveOp (s : State) (id : Nat) (m : LaneMask) : SameJobs s (s.leaveOp id m) := by
  unfold leaveOp
  split
  · dsimp only
    split
    · exact sameJobs_endOp s id
    · exact ⟨rfl, rfl, rfl⟩
  · exact .refl s

theorem sameJobs_resume (s : State) (key l : Nat) (vals : List RedVal) (prd : Option Bool) : SameJobs s (s.resume key l vals prd) := by
  unfold resume
  split
  · dsimp only
    split
    · exact (sameJobs_modGroup s key _).trans (sameJobs_leaveOp _ _ _)
    · exact .refl s
  · exact .refl s

theorem sameJobs_openGates (s : State) : SameJobs s s.openGates := by
  refine sameJobs_foldl (fun s e => ?_) _ s
  repeat' split
  · exact sameJobs_foldl (fun s l => sameJobs_resume s _ _ _ _) _ s
  all_goals exact .refl s

theorem sameJobs_wakeLead (s : State) (tk : Nat) : SameJobs s (s.wakeLead tk) := by
  unfold wakeLead
  split
  · exact sameJobs_foldl (fun s e => sameJobs_resume s _ _ _ _) _ s
  · exact .refl s

/-! ### What a team leaves behind -/

theorem sameJobs_dropRing (s : State) (tk core : Nat) : SameJobs s (s.dropRing tk core) := by
  unfold dropRing
  split
  · exact ⟨rfl, rfl, rfl⟩
  · exact .refl s

theorem sameJobs_unbind (s : State) (key : Nat) (p : Nat → Bool) : SameJobs s (s.unbind key p) := ⟨rfl, rfl, rfl⟩

/-- Teams are removed: memory and the launches stay, and so does each team that is left. -/
theorem foldl_delTeam (es : List (Nat × Team)) (s : State) :
    (es.foldl (fun (s : State) e => s.delTeam e.1) s).mem = s.mem ∧
    (es.foldl (fun (s : State) e => s.delTeam e.1) s).work.launches = s.work.launches ∧
    ∀ k v, (es.foldl (fun (s : State) e => s.delTeam e.1) s).team? k = some v → s.team? k = some v := by
  induction es generalizing s with
  | nil => exact ⟨rfl, rfl, fun _ _ h => h⟩
  | cons e es ih =>
    obtain ⟨hm, hl, ht⟩ := ih (s.delTeam e.1)
    refine ⟨hm, hl, fun k v h => ?_⟩
    have hdel := ht k v h
    by_cases hk : k = e.1
    · rw [hk, delTeam_team_self] at hdel
      exact nomatch hdel
    · rwa [delTeam_team_ne s e.1 hk] at hdel

/-- A team that leaves is retired, for as long as it is there. -/
theorem dropTeam_spec (s : State) (tk : Nat) (t : Team) (l : Launch) :
    (s.dropTeam tk t l).mem = s.mem ∧ (s.dropTeam tk t l).work.launches = s.work.launches ∧
    ∀ v, (s.dropTeam tk t l).team? tk = some v → v.retired = true := by
  let r := s.modTeam tk fun t => { t with retired := true }
  have hr : ∀ v, r.team? tk = some v → v.retired = true := fun v h => by
    rw [modTeam_team_self] at h
    obtain ⟨w, -, rfl⟩ := Option.map_eq_some_iff.1 h
    rfl
  unfold dropTeam
  dsimp only
  split
  · obtain ⟨hm, hl, ht⟩ := foldl_delTeam (r.teamsOfGang t.launch (t.idx / l.gangSize) l.gangSize) r
    exact ⟨hm, hl, fun v h => hr v (ht tk v h)⟩
  · exact ⟨rfl, rfl, hr⟩

end State

/-- A launch counts a team that retires: under TFAIL where the team has failed, else under TDONE (R47). -/
def Launch.ended (l : Launch) (t : Team) : Launch :=
  if t.failed then { l with tfail := l.tfail + 1, fgang := min l.fgang (t.idx / l.gangSize), kil := true }
  else { l with tdone := l.tdone + 1 }

theorem Launch.ended_counts (l : Launch) (t : Team) :
    (l.ended t).tdone = l.tdone + (if t.failed then 0 else 1) ∧ (l.ended t).tfail = l.tfail + (if t.failed then 1 else 0) ∧
    (l.ended t).nteam = l.nteam ∧ (l.ended t).next = l.next := by
  unfold Launch.ended
  cases t.failed <;> exact ⟨rfl, rfl, rfl, rfl⟩

theorem Launch.counted_counts (l : Launch) (idx : Nat) :
    (l.counted idx).tdone = l.tdone ∧ (l.counted idx).tfail = l.tfail ∧ (l.counted idx).nteam = l.nteam ∧
    (l.counted idx).next = l.next := by
  unfold Launch.counted
  dsimp only
  split <;> exact ⟨rfl, rfl, rfl, rfl⟩

namespace State

variable {s : State}

/-! ### The retirement of a team (R47) -/

/-- The state that a team's retirement leaves, but for the lanes that it wakes. -/
def afterTeam (s : State) (tk : Nat) (t : Team) (l : Launch) : State :=
  ((((s.dropRing tk t.core).unbind tk isTeamBar).dropTeam tk t l).modLaunch t.launch fun l => l.ended t).modLaunch t.launch fun l =>
    l.counted t.idx

theorem execTeamRetirement_of_retires {tk : Nat} {t : Team} {l : Launch} (ht : s.team? tk = some t) (hl : s.launch? t.launch = some l)
    (hr : s.retires tk = true) :
    exec (.teamRetirement tk) s =
      .next (((s.neighboursOf tk).map fun e => e.1).foldl wakeLead (s.afterTeam tk t l).openGates).bump := by
  change execTeamRetirement tk s = _
  simp only [execTeamRetirement, hr, ht, hl, Bool.not_true, Bool.false_eq_true, if_false]
  rfl

/-- What a team's retirement wakes: the gates of dependent launches, and its neighbours. -/
theorem sameJobs_wakeAfterTeam (s : State) (near : List Nat) : SameJobs s (near.foldl wakeLead s.openGates).bump :=
  SameJobs.bump ((sameJobs_openGates s).trans (sameJobs_foldl sameJobs_wakeLead near s.openGates))

theorem afterTeam_spec {tk : Nat} {t : Team} {l : Launch} (hl : s.launch? t.launch = some l) :
    (s.afterTeam tk t l).mem = s.mem ∧ (s.afterTeam tk t l).launch? t.launch = some ((l.ended t).counted t.idx) ∧
    ∀ v, (s.afterTeam tk t l).team? tk = some v → v.retired = true := by
  have hsame : SameJobs s ((s.dropRing tk t.core).unbind tk isTeamBar) := (sameJobs_dropRing s tk t.core).trans (sameJobs_unbind _ _ _)
  obtain ⟨hm, hls, hv⟩ := dropTeam_spec ((s.dropRing tk t.core).unbind tk isTeamBar) tk t l
  have hlaunch : (((s.dropRing tk t.core).unbind tk isTeamBar).dropTeam tk t l).launch? t.launch = some l :=
    (congrArg (fun m => Sparse.get? m t.launch) hls).trans ((hsame.launch _).trans hl)
  refine ⟨hm.trans hsame.mem, ?_, hv⟩
  simp only [afterTeam, modLaunch_launch_self, hlaunch, Option.map_some]

/-! ### The completion of a launch (R48) -/

/-- A launch is gone, and the gates of the launches and queues that depend on it keep what it left. -/
def afterLaunch (s : State) (lk : Nat) (l : Launch) : State :=
  let u := s.delLaunch lk
  { u with work := { u.work with
      launches := u.work.launches.map fun e => (e.1, e.2.settled l.serial (l.opened.getD l.killed))
      queues := u.work.queues.map fun e => (e.1, e.2.settled l.serial (l.opened.getD l.killed)) } }

theorem afterLaunch_launch (s : State) (lk : Nat) (l : Launch) : (s.afterLaunch lk l).launch? lk = none := by
  have hdel : Sparse.get? (s.delLaunch lk).work.launches lk = none := Sparse.get?_del_self _ _
  have hmap := Sparse.get?_map (Launch.settled · l.serial (l.opened.getD l.killed)) (s.delLaunch lk).work.launches lk
  exact hmap.trans (congrArg _ hdel)

theorem execLaunchCompletion_of_completes {lk : Nat} {l : Launch} (hl : s.launch? lk = some l) (hc : s.completes lk l = true)
    (hw : s.reportWaits l = false) :
    exec (.launchCompletion lk) s =
      .next ((((s.record l.tenant l.compl lk (l.completion lk s.ns)).afterLaunch lk l).afterRecord l (l.tfail != 0) 0).openGates).bump := by
  change execLaunchCompletion lk s = _
  simp only [execLaunchCompletion, hl, hc, hw, Bool.not_true, Bool.false_eq_true, if_false]
  rfl

theorem execLaunchCompletion_held {lk : Nat} {l : Launch} (hl : s.launch? lk = some l)
    (h : s.completes lk l = false ∨ s.reportWaits l = true) : exec (.launchCompletion lk) s = .next s := by
  change execLaunchCompletion lk s = _
  simp only [execLaunchCompletion, hl]
  rcases h with h | h
  · simp only [h, Bool.not_false, if_true]
  · simp only [h, if_true, ite_self]

/-! ### The retirement of a group (R46) -/

/-- What a group's conveyance begins from: the stores that its lanes buffer are performed. -/
def performed (s : State) (key : Nat) : State := (List.range 32).foldl (fun s l => s.drainWcb key l) s

theorem execGroupRetirement_of_ending {core slot : Nat} {g : Group} (hg : s.group? (groupKey core slot) = some g)
    (he : g.ending = true) (hc : s.coreRuns core = true) (hf : ∀ n ∈ g.flags, n = 0) (ht : (s.team? g.team).isSome) :
    let key := groupKey core slot
    let r := (s.performed key).convey ⟨key, g.killed, false⟩
    exec (.groupRetirement core slot) s = .next (if r.2
      then ((((r.1.groupRecord key).removeGroup key).checkRls g.team).recheck g.team).wakeRegroups (coreOf key)
      else r.1.modGroup key fun g => { g with stage := .conveying }).bump := by
  intro key r
  obtain ⟨t, ht⟩ := Option.isSome_iff_exists.1 ht
  have hflags : (g.flags.any fun n => n != 0) = false := by simpa using hf
  change execGroupRetirement core slot s = _
  simp only [execGroupRetirement, hg, he, hc, hflags, ht, Bool.not_true, Bool.or_false, Bool.false_eq_true, if_false]
  exact congrArg Host.Outcome.next (apply_ite bump _ _ _).symm

theorem execGroupRetirement_held {core slot : Nat} {g : Group} (hg : s.group? (groupKey core slot) = some g)
    (h : (g.stage ≠ .retiring ∧ g.stage ≠ .conveying) ∨ ∃ n ∈ g.flags, n ≠ 0) : exec (.groupRetirement core slot) s = .next s := by
  have hstop : (!g.ending || !s.coreRuns core || g.flags.any fun n => n != 0) = true := by
    rcases h with ⟨h1, h2⟩ | h
    · simp [Group.ending, h1, h2]
    · simpa using Or.inr h
  change execGroupRetirement core slot s = _
  simp only [execGroupRetirement, hg, hstop, if_true]

end State

/-- Settles O43: each of the three ends by the lemma that says what its step does, and what it wakes leaves the counts alone. -/
theorem retirementSteps : Obligations.RetirementSteps := by
  intro s
  refine ⟨fun core slot g hg => ⟨fun he hc hf ht => ⟨fun hr => ?_, fun hr => ?_⟩, State.execGroupRetirement_held hg⟩,
    fun team t l ht hl => ⟨fun hr => ?_, fun hr => ?_⟩,
    fun launch l hl => ⟨State.execLaunchCompletion_held hl, fun hc hw =>
      ⟨_, State.execLaunchCompletion_of_completes hl hc hw, rfl, State.afterLaunch_launch _ _ _⟩⟩⟩
  · exact (State.execGroupRetirement_of_ending hg he hc hf ht).trans (congrArg (fun u => Host.Outcome.next (State.bump u)) (if_pos hr))
  · refine (State.execGroupRetirement_of_ending hg he hc hf ht).trans (congrArg (fun u => Host.Outcome.next (State.bump u)) (if_neg ?_))
    exact Bool.eq_false_iff.1 hr
  · have hsame := State.sameJobs_wakeAfterTeam (s.afterTeam team t l) ((s.neighboursOf team).map fun e => e.1)
    obtain ⟨hmem, hlaunch, hretired⟩ := State.afterTeam_spec (tk := team) hl
    obtain ⟨hd, hf, hn, hx⟩ := Launch.ended_counts l t
    obtain ⟨hd', hf', hn', hx'⟩ := Launch.counted_counts (l.ended t) t.idx
    refine ⟨_, State.execTeamRetirement_of_retires ht hl hr, congrArg Memory.bytes (hsame.mem.trans hmem), ⟨_, (hsame.launch _).trans hlaunch, ?_⟩,
      fun v hv => hretired v ((hsame.team _).symm.trans hv)⟩
    exact ⟨hd'.trans hd, hf'.trans hf, hn'.trans hn, hx'.trans hx⟩
  · change execTeamRetirement team s = _
    simp only [execTeamRetirement, hr, Bool.not_false, if_true]

end Sys2Proof.Machine
end

section
/-! PROOFS. O39: the completion of an outstanding operation. Where no lane traps it is one change of the operation's own group, the
fall of the flags, and the end of the operation. -/

namespace Sys2Proof.Machine

/-! ### A register, a lane and a group at the completion -/

/-- The write that waits for an operation takes effect as it completes (R57, R89). -/
theorem Reg.complete_of_pending {α : Type} {r : Reg α} {n : Nxt α} {id : Nat} (hn : r.nxt = some n) (ha : n.avail = .op id)
    (v : Option (α × Bool)) (pick : Bool) : r.complete id v pick = ⟨n.val, n.psn, true, none⟩ := by
  simp only [Reg.complete, hn, ha, if_true]

/-- A named register of a lane whose newest write waits for an operation holds that write once the operation has completed. -/
theorem Lane.complete_named {e : Lane} {i id : Nat} {r : Reg Word} {n : Nxt Word} (hi : e.n[i]? = some r) (hn : r.nxt = some n)
    (ha : n.avail = .op id) (dst : Option (Nat × Word × Bool)) (fp : BitVec 5) (pick : Bool) :
    (e.complete id dst fp pick).n[i]? = some ⟨n.val, n.psn, true, none⟩ := by
  obtain ⟨hlt, rfl⟩ := List.getElem?_eq_some_iff.1 hi
  simp only [Lane.complete, List.getElem?_map, getElem?_withIdx e.n i hlt, Option.map_some, Reg.complete_of_pending hn ha]

@[simp] theorem Group.completeK_lanes (g : Group) (id now : Nat) (o : Op) (w : Option (Nat × Word × Bool)) (pick : Bool) :
    (g.completeK id now o w pick).lanes = g.lanes := by
  cases w <;> rfl

@[simp] theorem Group.completeK_flags (g : Group) (id now : Nat) (o : Op) (w : Option (Nat × Word × Bool)) (pick : Bool) :
    (g.completeK id now o w pick).flags = g.flags := by
  cases w <;> rfl

namespace Op

/-- Every lane that raises floating-point flags has its result: none has trapped (R148, R358). -/
def Untrapped (o : Op) : Prop := ∀ f ∈ o.fp, o.res.any (fun r => r.1 == f.1) = true

/-- The flags that a lane of an operation raises. -/
def raised (o : Op) (l : Nat) : BitVec 5 := ((o.fp.find? fun f => f.1 == l).map fun f => f.2).getD 0

/-- The named register that an operation writes in a lane, with its value (R57, R78). -/
def named (o : Op) (l : Nat) : Option (Nat × Word × Bool) :=
  if 0x10 ≤ o.dst.toNat && o.dst.toNat < 0x30 then
    (o.res.find? fun r => r.1 == l).map fun r => (o.dst.toNat - 0x10, r.2.1, r.2.2)
  else none

/-- A lane of its group as an operation completes in which no lane traps: an exited lane stays as it is. -/
def laneDone (o : Op) (s : State) (id l : Nat) (e : Lane) : Lane :=
  if e.status = .exited then e else e.complete id (o.named l) (o.raised l) (s.pick l 200)

/-- Its group, with the flags fallen. -/
def groupDone (o : Op) (s : State) (id : Nat) (g : Group) (w : Option (Nat × Word × Bool)) : Group :=
  ((g.mapLanes (o.laneDone s id)).completeK id s.cycle o w (s.pick 0 201)).flagsBy (· - 1) o.flags

theorem groupDone_flags (o : Op) (s : State) (id : Nat) (g : Group) (w : Option (Nat × Word × Bool)) :
    (o.groupDone s id g w).flags = o.flags.foldl (fun l i => updAt (fun n => n - 1) i l) g.flags := by
  simp only [groupDone, Group.flagsBy, Group.completeK_flags]
  rfl

theorem groupDone_lane {o : Op} {s : State} {id l : Nat} {g : Group} (w : Option (Nat × Word × Bool)) (hl : l < g.lanes.length) :
    (o.groupDone s id g w).lane l = o.laneDone s id l (g.lane l) := by
  rw [← Group.lane_mapLanes g (o.laneDone s id) l hl]
  simp only [groupDone, Group.flagsBy, Group.lane, Group.completeK_lanes]

theorem groupDone_length (o : Op) (s : State) (id : Nat) (g : Group) (w : Option (Nat × Word × Bool)) :
    (o.groupDone s id g w).lanes.length = g.lanes.length := by
  simp only [groupDone, Group.flagsBy, Group.completeK_lanes, Group.length_mapLanes]

end Op

namespace State

/-! ### The stores that a lane buffers -/

theorem foldl_physWrite_op (ws : List (Nat × List Byte)) (s : State) (id : Nat) :
    (ws.foldl (fun s e => s.physWrite e.1 e.2 false) s).op? id = s.op? id :=
  congrArg (fun w : Work => Sparse.get? w.ops id) (foldl_work _ (fun s e => physWrite_work s e.1 e.2 false) ws s)

/-- Performing what a lane buffers ends no operation. -/
@[simp] theorem drainWcb_op (s : State) (key l id : Nat) : (s.drainWcb key l).op? id = s.op? id := by
  unfold drainWcb
  split
  · dsimp only
    split
    · rfl
    · exact (modGroup_op _ _ _ _).trans (foldl_physWrite_op _ s id)
  · rfl

theorem foldl_drainWcb_op (ls : List Nat) (s : State) (key id : Nat) :
    (ls.foldl (fun s l => s.drainWcb key l) s).op? id = s.op? id := by
  induction ls generalizing s with
  | nil => rfl
  | cons l ls ih => rw [List.foldl_cons, ih, drainWcb_op]

@[simp] theorem performStores_op (s : State) (o : Op) (id : Nat) : (s.performStores o).op? id = s.op? id := by
  unfold performStores
  split
  · exact foldl_drainWcb_op _ s _ id
  · rfl

/-- R210: a store has what its lanes buffer performed, and no other operation has. -/
theorem performStores_eq (s : State) (o : Op) :
    s.performStores o =
      if o.opc.toNat ∈ [0x91, 0x93, 0x94, 0x98, 0x9A, 0x9C, 0x9E] then (lanesOf o.lanes).foldl (fun s l => s.drainWcb o.group l) s
      else s :=
  ite_congr (propext List.contains_iff_mem) (fun _ => rfl) fun _ => rfl

/-! ### The completion -/

theorem endOp_of {s : State} {id : Nat} {o : Op} (h : s.op? id = some o) :
    s.endOp id = (s.modGroup o.group fun g => g.flagsBy (· - 1) o.flags).delOp id := by
  simp only [endOp, h]

/-- An operation of which no lane traps is complete: `t` comes of `s` by what the operation does to its own group, and by its end. -/
structure Completed (s t : State) (id : Nat) (o : Op) (g : Group) : Prop where
  ended : t.op? id = none
  mem : t.mem = s.mem
  teams : t.work.teams = s.work.teams
  cores : t.work.cores = s.work.cores
  others : ∀ k, k ≠ o.group → t.group? k = s.group? k
  group : ∃ h w, t.group? o.group = some h ∧ h.flags = (o.groupDone s id g w).flags ∧
    ∀ l, l < g.lanes.length → h.lane l = (o.groupDone s id g w).lane l

theorem completeOp_completed {s : State} {id : Nat} {o : Op} {g : Group} (ho : s.op? id = some o) (hg : s.group? o.group = some g)
    (hu : o.Untrapped) : Completed s (s.completeOp id o) id o g := by
  have hfell : o.fp.filter (fun f => !(o.res.any fun r => r.1 == f.1)) = [] :=
    List.filter_eq_nil_iff.2 fun f hf => by simp [hu f hf]
  have htraps : o.fp.filter (fun f => !(o.res.any fun r => r.1 == f.1) && (g.lane f.1).status != .exited) = [] :=
    List.filter_eq_nil_iff.2 fun f hf => by simp [hu f hf]
  let w := o.uniform s.cycle g []
  let v := s.modGroup o.group fun g => (g.mapLanes (o.laneDone s id)).completeK id s.cycle o w (s.pick 0 201)
  have hv : v.op? id = some o := ho
  have hrun : s.completeOp id o = (v.endOp id).modGroup o.group fun g => g.mapLanes fun _ e => e := by
    simp only [completeOp, hg, hfell, htraps, List.map_nil, List.foldl_nil, takeTraps_nil, List.any_nil, Bool.false_eq_true, if_false]
    rfl
  have hown : (s.completeOp id o).group? o.group = some ((o.groupDone s id g w).mapLanes fun _ e => e) := by
    rw [hrun, modGroup_group_self, endOp_of hv, delOp_group, modGroup_group_self, modGroup_group_self, hg]
    rfl
  rw [endOp_of hv] at hrun
  refine ⟨?_, ?_, ?_, ?_, fun k hk => ?_, _, w, hown, rfl, fun l hl => ?_⟩
  · rw [hrun, modGroup_op, delOp_op_self]
  · rw [hrun]; rfl
  · rw [hrun]; rfl
  · rw [hrun]; rfl
  · rw [hrun, modGroup_group_ne _ _ _ hk, delOp_group, modGroup_group_ne _ _ _ hk, modGroup_group_ne _ _ _ hk]
  · rw [Group.lane_mapLanes _ _ _ (by rwa [Op.groupDone_length])]

theorem execLongLatencyCompletion_waits {s : State} {id : Nat} {o : Op} (ho : s.op? id = some o) (h : o.held = true ∨ s.cycle < o.due) :
    exec (.longLatencyCompletion id) s = .next s := by
  change execLongLatencyCompletion id s = _
  simp only [execLongLatencyCompletion, ho, Bool.or_eq_true, decide_eq_true_eq, h, if_true]

theorem execLongLatencyCompletion_of_due {s : State} {id : Nat} {o : Op} (ho : s.op? id = some o) (hh : o.held = false) (hd : o.due ≤ s.cycle) :
    exec (.longLatencyCompletion id) s = .next ((s.performStores o).completeOp id o).bump := by
  change execLongLatencyCompletion id s = _
  simp only [execLongLatencyCompletion, ho, hh, Nat.not_lt.2 hd, decide_false, Bool.or_self, Bool.false_eq_true, if_false]

end State

/-- Settles O39: an operation that is due completes in its own group alone, and each of its lanes that has not exited by
`Lane.complete`. -/
theorem completionResults : Obligations.CompletionResults := by
  intro s id o ho
  refine ⟨State.execLongLatencyCompletion_waits ho, fun hh hd hu => ?_⟩
  intro raised store u g hg hlen
  have hrun := State.execLongLatencyCompletion_of_due ho hh hd
  have hop : u.op? id = some o := by rw [← ho, ← State.performStores_op s o, State.performStores_eq]
  rw [show s.performStores o = u from State.performStores_eq s o] at hrun
  obtain ⟨hended, hmem, hteams, hcores, hothers, h, w, hown, hflags, hlanes⟩ := State.completeOp_completed hop hg hu
  refine ⟨_, hrun, hended, hmem, hteams, hcores, hothers, ?_, fun l hl => ?_⟩
  · rw [State.flagsAt_bump, State.flagsAt_of hown, hflags, Op.groupDone_flags]
  · have hlane : (u.completeOp id o).bump.laneIn o.group l = o.laneDone u id l (g.lane l) := by
      rw [State.laneIn_bump, State.laneIn_of hown, hlanes l (by omega), Op.groupDone_lane w (by omega)]
    refine ⟨fun he => hlane.trans (if_pos he), fun he => ?_⟩
    rw [hlane, Op.laneDone, if_neg he]
    exact ⟨rfl, rfl, rfl, rfl, fun i r n hi hn ha => Lane.complete_named hi hn ha _ _ _⟩

end Sys2Proof.Machine
end

section
/-! PROOFS. O11: what `sreg.rd` reads and what `sreg.wr` leaves. -/

namespace Sys2Proof.Machine

/-- `sreg.rd` works lane by lane. Register 5 alone has a source, and register 7 alone two results. -/
theorem exec_sregRd (c : Common) (f : FmtS) (s : State) :
    exec (.sregRd c f) s = laneInstr (.sregRd c f) s (if f.sel = 7 then 2 else 1) (if f.sel = 5 then [f.sa] else []) f.dst [] 4 noExtra
      fun x s l rs => ⟨s.sreg x l f.sel.toNat ((rs.head?.map fun r => r.val).getD 0), [], 0⟩ := by
  have h5 : f.sel.toNat = 5 ↔ f.sel = 5 := BitVec.toNat_inj (y := 5)
  have h7 : f.sel.toNat = 7 ↔ f.sel = 7 := BitVec.toNat_inj (y := 7)
  change execSregRd c f s = _
  simp only [execSregRd, h5, h7]

/-- `sreg.wr` with clean sources: the lanes retire without a result, and FPSTAT takes the value without its reserved bits (R147). -/
theorem exec_sregWr {c : Common} {f : FmtS} {s : State} {x : Ctx} (h : Issues s (.sregWr c f) x) (hl : Lenient x)
    (hp : ∀ l ∈ x.on, (s.opnd x.g l f.sa).psn = false) :
    exec (.sregWr c f) s = .next
      (((s.finish x (x.on.map fun l => ⟨l, [], [], 0, none⟩) 0 (some f.sa) 0 [] 4).modGroup x.key fun g => g.mapLanes fun l e =>
        if x.on.contains l then { e with fpstat := (s.opnd x.g l f.sa).val.setWidth 13 &&& 0x1F1F } else e).bump) := by
  have hclean : (x.on.any fun l => (s.opnd x.g l f.sa).psn) = false := List.any_eq_false.2 fun l hm => by simp [hp l hm]
  change execSregWr c f s = _
  rw [execSregWr, frame_issues h]
  simp only [strictTraps_lenient hl, List.any_nil, Bool.not_false, filter_all, hclean, Bool.false_eq_true, if_false, takeTraps_nil]

/-- Settles O11: `sreg.rd` is lane by lane what `State.sreg` reads, and `sreg.wr` is an issue whose lanes retire without a result and then have FPSTAT
replaced. -/
theorem specialRegisterAccess : Obligations.SpecialRegisterAccess := by
  refine ⟨fun c f => ?_, fun c f s x h hl hp => ⟨_, exec_sregWr h hl hp, Issued.bump ?_⟩⟩
  · refine laneInstr_computes (extra := noExtra) (exec_sregRd c f) fun s x l => ?_
    have hsrc : (((if f.sel = 5 then [f.sa] else []).map (s.opnd x.g l)).head?.map fun r => r.val).getD 0 =
        src ((if f.sel = 5 then [f.sa] else []).map fun c => (s.opnd x.g l c).val) 0 := by
      split <;> rfl
    -- Both sides are now the same table, row by row.
    rw [hsrc]
    rfl
  · have hr := finish_retired h.ctx h.lanes (fun l => (⟨l, [], [], 0, none⟩ : Out)) (fun _ => rfl) 0 (some f.sa) 0 [] 4
    rw [Retired, kAfter_nil x _ _ _ _ fun _ => rfl] at hr
    obtain ⟨hframe, hon, hoff, hrest, hk, hslices, hflags⟩ :=
      hr.mapLanes (finish_lanes_length (ctx_group h.ctx) h.lanes _ _ _ _ _ _)
        (fun l e => if x.on.contains l then { e with fpstat := (s.opnd x.g l f.sa).val.setWidth 13 &&& 0x1F1F } else e)
        (fun l e hl _ => by simp [hl]) (fun l => ctx_on_lt h.ctx) (fun l => ctx_off_lt h.ctx)
    refine ⟨hframe, fun l hm => ?_, fun l hm => ?_, hrest, hk, hslices, hflags⟩
    · simpa [hm] using hon l hm
    · simpa [ctx_disjoint h.ctx hm] using hoff l hm

end Sys2Proof.Machine
end

section
/-! PROOFS. O54: the state after a full reset. -/

namespace Sys2Proof.Machine

/-- Settles O54: every collection of `State.reset` is empty but for the census, whose entries are zero, and the two ports. -/
theorem resetValues : Obligations.ResetValues := by
  have hcensus : ∀ c ∈ State.reset.admin.census, c = ⟨0, 0, 0, 0⟩ := fun _ hc => List.eq_of_mem_replicate hc
  have hports : ∀ p ∈ State.reset.sec.ports, p = Port.reset := fun p hp => by simpa [State.reset] using hp
  refine ⟨rfl, rfl, rfl, rfl, rfl, rfl, rfl, rfl, fun _ => ⟨rfl, rfl, rfl, rfl, rfl, rfl⟩,
    fun _ => ⟨rfl, rfl, rfl, rfl, rfl, rfl, rfl, rfl⟩, rfl, rfl, List.length_replicate, fun c hc => ?_, fun p hp => ?_, rfl, rfl, rfl,
    fun _ => ⟨rfl, List.not_mem_nil⟩⟩
  · rw [hcensus c hc]
    exact ⟨rfl, rfl, rfl, rfl⟩
  · rw [hports p hp]
    exact ⟨rfl, rfl⟩

end Sys2Proof.Machine
end

section
/-! PROOFS. O8: floating-point arithmetic. The scalar operations are the model's as they stand; a packed operation is its scalar one
on each 16-bit element. -/

namespace Sys2Proof.Machine

/-- A source of element e of packed sources is the element of the source (R135). -/
theorem src_elemOf (vs : List Word) (e k : Nat) : src (elemOf vs e) k = word ((src vs k).toNat / 2 ^ (16 * e) % 2 ^ 16) := by
  by_cases hk : k < vs.length
  · simp [src, elemOf, hk]
  · have hnone : vs[k]? = none := List.getElem?_eq_none (Nat.le_of_not_lt hk)
    have hzero : (default : Word) = 0 := rfl
    simp [src, elemOf, hnone, hzero, word]

/-- An element of 16 bits fits a word. -/
theorem toNat_word_mod (n : Nat) : (word (n % 2 ^ 16)).toNat = n % 2 ^ 16 := by
  rw [word, BitVec.toNat_ofNat]
  omega

theorem readFp_elemOf (t : Nat) (ftz : Bool) (vs : List Word) (e k : Nat) :
    readFp t ftz (src (elemOf vs e) k) =
      (fmtOf t).read ftz ((src vs k).toNat / 2 ^ (16 * e) % 2 ^ 16 % 2 ^ (fmtOf t).width) := by
  rw [readFp, src_elemOf, toNat_word_mod]

/-- The sources of a packed operation, read element by element (R135). -/
theorem fsrc_elemOf (f : FmtT) (vs : List Word) (e k : Nat) :
    fsrc f (elemOf vs e) k =
      (fmtOf f.ty).read f.ftzB ((src vs k).toNat / 2 ^ (16 * e) % 2 ^ 16 % 2 ^ (fmtOf f.ty).width) :=
  readFp_elemOf f.ty f.ftzB vs e k

/-- A floating-point instruction whose operation a rule states in other words. -/
theorem fpT_floats_of_eq {i : Instr} {f : FmtT} {n lat : Nat} {op res : List Word → Nat × FpFlags}
    (he : ∀ s, exec i s = fpT i s f n lat op) (hop : ∀ vs, op vs = res vs) : Floats i f n lat res :=
  funext hop ▸ fpT_floats he

/-- Settles O8: each instruction has the shape of `fpT` with its operation, and the packed ones read the elements of their sources
by `fsrc_elemOf`. -/
theorem floatResults : Obligations.FloatResults := by
  refine ⟨fun c f => ?_, fun c f => ?_⟩
  · exact ⟨fpT_floats fun _ => rfl, fpT_floats fun _ => rfl, fpT_floats fun _ => rfl, fpT_floats fun _ => rfl,
      fpT_floats fun _ => rfl, fpT_floats fun _ => rfl, fpT_floats fun _ => rfl, fpT_floats fun _ => rfl, fpT_floats fun _ => rfl,
      fpT_floats fun _ => rfl, fpT_floats fun _ => rfl, fpT_floats fun _ => rfl, fpT_floats fun _ => rfl, fpT_floats fun _ => rfl,
      fpT_floats fun _ => rfl⟩
  · refine ⟨fpT_floats_of_eq (fun _ => rfl) fun vs => ?_, fpT_floats_of_eq (fun _ => rfl) fun vs => ?_,
      fpT_floats_of_eq (fun _ => rfl) fun vs => ?_, fpT_floats_of_eq (fun _ => rfl) fun vs => ?_,
      fpT_floats_of_eq (fun _ => rfl) fun vs => ?_, fpT_floats_of_eq (fun _ => rfl) fun vs => ?_,
      fpT_floats_of_eq (fun s => show execHdot2 c f s = _ from rfl) fun vs => ?_, plainT_computes fun _ => rfl⟩
    · simp only [packed, addOp, fsrc_elemOf]
    · simp only [packed, subOp, fsrc_elemOf]
    · simp only [packed, mulOp, fsrc_elemOf]
    · simp only [packed, fmaOp, fsrc_elemOf]
    · simp only [packed, minOp, fsrc_elemOf]
    · simp only [packed, maxOp, fsrc_elemOf]
    · simp only [fsrc_elemOf]
      rfl

end Sys2Proof.Machine
end

section
/-! PROOFS. O9: a special function retires its lanes with results that are pending, and its operation keeps what their completion
needs; the special inputs; conversions. -/

namespace Sys2Proof.Machine

/-! ### The operation of a special function (R131, R137) -/

/-- Another operation than the one that an issue began changes nothing that the issue leaves. -/
theorem Issued.setOp {s t : State} {x : Ctx} {onF offF : Nat → Lane → Lane} {k : List (Reg Word)} {sl : List Slice}
    (h : Issued s t x onF offF k sl) (id : Nat) (o : Op) : Issued s (t.setOp id o) x onF offF k sl := by
  obtain ⟨⟨hmem, hadmin, heng, hsec, hcycle, htime, hteams, hgangs, hlaunches, hcores, hqueues, hkills, hstarting, hothers, hgroup⟩,
    hon, hoff, hrest, hk, hslices, hflags⟩ := h
  exact ⟨⟨hmem, hadmin, heng, hsec, hcycle, htime, hteams, hgangs, hlaunches, hcores, hqueues, hkills, hstarting, hothers, hgroup⟩,
    hon, hoff, hrest, hk, hslices, hflags⟩

/-- Lanes that each have a result. -/
theorem filterMap_outs {α : Type} (ls : List Nat) (mk : Nat → Out) (g : Out → Option α) (r : Nat → α) (h : ∀ l, g (mk l) = some (r l)) :
    (ls.map mk).filterMap g = ls.map r := by
  induction ls with
  | nil => rfl
  | cons l ls ih => rw [List.map_cons, List.filterMap_cons_some (h l), ih, List.map_cons]

/-- The results of lanes without those of some of them. -/
theorem filter_map_not_contains {α : Type} (ls : List Nat) (p : Nat → Bool) (mk : Nat → Nat × α) (hmk : ∀ l, (mk l).1 = l) :
    ((ls.map mk).filter fun r => !(ls.filter p).contains r.1) = (ls.filter fun l => !p l).map mk := by
  rw [List.filter_map]
  refine congrArg (List.map mk) (List.filter_congr fun l hl => ?_)
  simp [hmk, hl]

/-- What `special` gives a lane for its source (R137, R138). -/
def specialRes (f : FmtT) (opc : Nat) (s : State) (x : Ctx) (l : Nat) : Nat × FpFlags :=
  let m := fmtOf f.ty
  let a := (s.opnd x.g l f.sa).val.toNat % 2 ^ m.width
  m.special opc f.rnd.toNat f.ftzB (Config.special (BitVec.ofNat 8 opc) f.type f.ftz (word a)) (m.read f.ftzB a)

/-- A guard-true lane of a special function pushes one result. -/
def specialOut (f : FmtT) (opc : Nat) (s : State) (x : Ctx) (l : Nat) : Out :=
  ⟨l, [(word (specialRes f opc s x l).1, (s.opnd x.g l f.sa).psn)], [], 0, none⟩

/-- The lanes of a special function whose enables make them trap at completion (R69, R131). -/
def specialTraps (f : FmtT) (opc : Nat) (s : State) (x : Ctx) (l : Nat) : Bool :=
  (fpTrap l (x.g.lane l).fpstat (specialRes f opc s x l).2).isSome

/-- The operation of a special function: every lane's flags, the results of the lanes that do not trap, and the sources that the
marks cleared in those that do (R61, R131). -/
def SpecialOp (f : FmtT) (opc : Nat) (s : State) (x : Ctx) (o : Op) : Prop :=
  o.group = x.key ∧ o.flags = raisedFlags x.v.c ∧ o.dst = f.dst ∧
    o.fp = x.on.map (fun l => (l, (specialRes f opc s x l).2)) ∧
    o.res = (x.on.filter fun l => !specialTraps f opc s x l).map
      (fun l => (l, word (specialRes f opc s x l).1, (s.opnd x.g l f.sa).psn)) ∧
    o.saved = (x.on.filter (specialTraps f opc s x)).flatMap fun l =>
      f.marks.map fun n => (l, n, (x.g.lane l).n.getD n (Reg.clear 0))

/-- The state in which a special function has begun: its lanes have retired, and their results are pending. -/
def specialBegun (f : FmtT) (opc : Nat) (s : State) (x : Ctx) : State :=
  s.finishLong x (x.on.map (specialOut f opc s x)) 1 (some f.sa) f.dst f.marks
    (x.on.map fun l => (l, (specialRes f opc s x l).2)) false

/-- The operation that has begun, without the results of the lanes that will trap, and with the sources that they find again. -/
def specialKept (f : FmtT) (opc : Nat) (s : State) (x : Ctx) (o : Op) : Op :=
  let traps := x.on.filter (specialTraps f opc s x)
  { o with
    res := o.res.filter fun r => !traps.contains r.1
    saved := traps.flatMap fun l => f.marks.map fun n => (l, n, (x.g.lane l).n.getD n (Reg.clear 0)) }

section
variable {i : Instr} {f : FmtT} {opc : Nat} {s : State} {x : Ctx}

/-- The operation that a special function begins is, once put right, the one that R131 describes. -/
theorem specialBegun_op (h : Issues s i x) (hm : lanesOf x.mask ≠ []) :
    ∃ o, (specialBegun f opc s x).op? s.serial = some o ∧ SpecialOp f opc s x (specialKept f opc s x o) := by
  refine ⟨_, finishLong_op _ (outs_ne h.ctx hm _) 1 (some f.sa) f.dst f.marks _ false, rfl, rfl, rfl, rfl, ?_, rfl⟩
  rw [← filter_map_not_contains _ _ _ fun _ => rfl]
  exact congrArg (List.filter _) (filterMap_outs _ _ _ _ fun _ => rfl)

/-- A special function that issues begins its operation and puts it right. -/
theorem specialT_run (h : Issues s i x) (hl : Lenient x) (hs : Unstruck s x) (hv : x.v.opc = BitVec.ofNat 8 opc) (hopc : opc < 256) {o : Op}
    (ho : (specialBegun f opc s x).op? s.serial = some o) :
    specialT i s f = .next ((specialBegun f opc s x).setOp s.serial (specialKept f opc s x o)).bump := by
  have hx : x.opc = opc := by
    rw [Ctx.opc, hv, BitVec.toNat_ofNat]
    omega
  rw [specialT, frame_issues h, shadowCheck_none hs]
  simp only [strictTraps_lenient hl, List.any_nil, Bool.not_false, filter_all, takeTraps_nil, List.headD_cons, hx, hv]
  split
  case h_1 o' ho' =>
    obtain rfl : o' = o := Option.some.inj (ho'.symm.trans ho)
    rfl
  case h_2 hnone => exact nomatch hnone.symm.trans ho

end

/-- R131, R137: a special function completes. -/
theorem specialT_completes {i : Instr} {f : FmtT} {opc : Nat} {c : Common} (he : ∀ s, exec i s = specialT i s f)
    (hview : view i = some ⟨BitVec.ofNat 8 opc, c, .t f⟩) (hopc : opc < 256) (s : State) (x : Ctx)
    (h : Issues s i x) (hl : Lenient x) (hs : Unstruck s x) (hm : lanesOf x.mask ≠ []) :
    ∃ t, exec i s = .next t ∧
      Retired s t x (specialOut f opc s x) 1 (some f.sa) f.dst f.marks (.op s.serial) .ready ∧
      ∃ o, t.op? s.serial = some o ∧ SpecialOp f opc s x o := by
  have hv : x.v.opc = BitVec.ofNat 8 opc := congrArg View.opc (Option.some.inj ((ctx_view h.ctx).symm.trans hview))
  obtain ⟨o, ho, hkept⟩ := specialBegun_op (f := f) (opc := opc) h hm
  refine ⟨_, (he s).trans (specialT_run h hl hs hv hopc ho), ?_, _, State.setOp_op_self _ _ _, hkept⟩
  exact ((finishLong_retired h.ctx h.lanes hm (specialOut f opc s x) (fun _ => rfl) 1 (some f.sa) f.dst f.marks _ false).setOp _ _).bump

/-! ### The special inputs (R138) -/

section
variable (m : FFmt) (rnd : Nat) (ftz : Bool) (cand : Nat)

/-- The exponent of a power of two. -/
theorem pow2?_two_pow (k : Nat) (e : Int) : pow2? (2 ^ k) e = some ((k : Int) + e) := by
  simp [pow2?, expOf, Nat.log2_two_pow]

/-- The reciprocal of a power of two is exact where the format holds it (R138). -/
theorem special_rcp_two_pow (g : Bool) (k : Nat) (e : Int) (hlo : m.qmin ≤ -((k : Int) + e)) (hhi : -((k : Int) + e) ≤ m.emax) :
    m.special 0x56 rnd ftz cand (.fin g (2 ^ k) e) = m.round 0 ftz false g 1 (-((k : Int) + e)) false := by
  have hn := pow2?_two_pow k e
  generalize (k : Int) + e = n at *
  simp [FFmt.special, FFmt.exactly, hn, hlo, hhi]

theorem special_rsqrt_two_pow (k : Nat) (e : Int) (heven : ((k : Int) + e) % 2 = 0) :
    m.special 0x57 rnd ftz cand (.fin false (2 ^ k) e) = m.round 0 ftz false false 1 (-(((k : Int) + e) / 2)) false := by
  simp [FFmt.special, FFmt.exactly, pow2?_two_pow, heven]

theorem special_log2_two_pow (k : Nat) (e : Int) :
    m.special 0x59 rnd ftz cand (.fin false (2 ^ k) e) = m.roundDy 0 ftz false false ((k : Int) + e, 0) := by
  simp [FFmt.special, pow2?_two_pow]

/-- A negative finite input other than zero has no square root and no logarithm (R138). -/
theorem special_negative {opc : Nat} (hopc : opc = 0x57 ∨ opc = 0x5F ∨ opc = 0x59) {k : Nat} (hk : 0 < k) (e : Int) :
    m.special opc rnd ftz cand (.fin true k e) = (m.canon, fNV) := by
  have hk0 : k ≠ 0 := by omega
  rcases hopc with rfl | rfl | rfl <;> simp [FFmt.special, hk0]

end

/-! ### Conversions (R141 to R144) -/

theorem b2n_eq_toNat (b : Bool) : b2n b = b.toNat := by
  cases b <;> rfl

/-- A one-bit field of MOD is its bit. -/
theorem modField_one (f : FmtT) : f.m 1 1 = b2n (f.mb 1) := by
  rw [FmtT.m, nbits, Nat.shiftRight_eq_div_pow, b2n_eq_toNat]
  exact (Nat.toNat_testBit f.mod.toNat 1).symm

/-- Half of 32 bits replaced: the upper one, or the lower one (R144). -/
theorem replaceHalf (upper : Bool) {old : Nat} (hold : old < 2 ^ 32) (pair : Nat) :
    old - old / 2 ^ (16 * b2n upper) % 2 ^ 16 * 2 ^ (16 * b2n upper) + pair * 2 ^ (16 * b2n upper) =
      if upper then old % 2 ^ 16 + pair * 2 ^ 16 else old / 2 ^ 16 * 2 ^ 16 + pair := by
  cases upper
  · simp only [b2n, Bool.false_eq_true, if_false, Nat.mul_zero, Nat.pow_zero, Nat.div_one, Nat.mul_one]
    omega
  · simp only [b2n, if_true, Nat.mul_one]
    omega

/-- Settles O9: the special functions complete by `specialT_completes`; a special input selects its row of `FFmt.special`, where the
sign and the power of two decide the rest; a conversion is `fpT` with the form that MOD selects. -/
theorem specialConversionResults : Obligations.SpecialConversionResults := by
  refine ⟨fun c f => ?_, fun m rnd ftz cand => ?_, fun c f => ?_⟩
  · exact ⟨specialT_completes (fun _ => rfl) rfl (by decide), specialT_completes (fun _ => rfl) rfl (by decide),
      specialT_completes (fun _ => rfl) rfl (by decide), specialT_completes (fun _ => rfl) rfl (by decide),
      specialT_completes (fun _ => rfl) rfl (by decide), specialT_completes (fun _ => rfl) rfl (by decide),
      specialT_completes (fun _ => rfl) rfl (by decide)⟩
  · -- The rows of a NaN, of zeros and of infinities are `FFmt.special` itself.
    exact ⟨fun _ _ => rfl, fun _ _ => ⟨rfl, rfl, rfl, rfl, rfl, rfl, rfl⟩, fun _ => ⟨rfl, rfl, rfl⟩, rfl, rfl, rfl, rfl, rfl, rfl, rfl, rfl,
      fun k e hk => ⟨special_negative m rnd ftz cand (by decide) hk e, special_negative m rnd ftz cand (by decide) hk e,
        special_negative m rnd ftz cand (by decide) hk e⟩,
      fun g k e => ⟨special_rcp_two_pow m rnd ftz cand g k e, special_rsqrt_two_pow m rnd ftz cand k e,
        special_log2_two_pow m rnd ftz cand k e⟩⟩
  · refine ⟨fpT_floats fun _ => rfl, fun h => ?_, fun h => ?_, fun h => ?_, fun h => ?_⟩
    · exact fpT_floats fun s => show execCvtPk c f s = _ from if_neg (by simp [h])
    · exact fpT_floats_of_eq (fun s => show execCvtPk c f s = _ from if_pos h) fun vs => congrArg _ (readFp_elemOf _ _ _ _ _)
    · refine fpT_floats_of_eq (fun s => show execCvtF8 c f s = _ from if_neg (by simp [h])) fun vs => ?_
      simp only [modField_one, replaceHalf _ (Nat.mod_lt _ (by decide : 0 < 2 ^ 32))]
      rfl
    · exact fpT_floats fun s => show execCvtF8 c f s = _ from if_pos h

end Sys2Proof.Machine
end

section
/-! PROOFS. O10: moves, predicates and lane masks. -/

namespace Sys2Proof.Machine

/-! ### Words made of bits -/

/-- A number of m + n bits is its low m bits and its high n bits. -/
theorem ofBits_add (m n : Nat) (b : Nat → Bool) : ofBits (m + n) b = ofBits m b + 2 ^ m * ofBits n fun i => b (m + i) := by
  induction n with
  | zero => simp [ofBits]
  | succ n ih =>
    have hsucc : ∀ (w : Nat) (b : Nat → Bool), ofBits (w + 1) b = ofBits w b + b2n (b w) * 2 ^ w := fun w b => by
      simp [ofBits, List.range_succ]
    rw [← Nat.add_assoc, hsucc, ih, hsucc]
    rw [Nat.mul_add, Nat.pow_add, Nat.add_assoc, Nat.mul_left_comm]

/-- The value of `p2n`: the predicates in bits 7 to 0, the live bits in bits 15 to 8 (R151). -/
theorem ofBits_bytes (v live : Nat → Bool) :
    ofBits 8 v + 256 * ofBits 8 live = ofBits 16 fun i => if i < 8 then v i else live (i - 8) :=
  (ofBits_add 8 8 fun i => if i < 8 then v i else live (i - 8)).symm

/-- A table of eight bits in the low bits of an immediate (R149). -/
theorem tbl_mod (n : Nat) (a b c : Bool) : tbl (n % 256) a b c = n.testBit (b2n a * 4 + b2n b * 2 + b2n c) := by
  have hlt : b2n a * 4 + b2n b * 2 + b2n c < 8 := by
    cases a <;> cases b <;> cases c <;> decide
  rw [tbl, show 256 = 2 ^ 8 from rfl, Nat.testBit_mod_two_pow, decide_eq_true hlt, Bool.true_and]

/-! ### What each instruction is -/

/-- Source k of `plop`: the predicate that IMM names for it (R149). -/
def plopSrc (f : FmtS) (s : State) (x : Ctx) (l k : Nat) : Bool × Bool × Bool :=
  s.pred x.g l (f.imm.toNat / 2 ^ (8 + 3 * k) % 8)

/-- `plop` writes the bit of its table that its three predicates select (R149). -/
theorem exec_plop (c : Common) (f : FmtS) (s : State) :
    exec (.plop c f) s = laneInstr (.plop c f) s 0 [] 0 [] 4
      (fun x s l => (plopSrc f s x l 0).2.1 || (plopSrc f s x l 1).2.1 || (plopSrc f s x l 2).2.1)
      fun x s l _ => ⟨[], [(f.imm.toNat / 2 ^ 17 % 8,
        f.imm.getLsbD (b2n (plopSrc f s x l 0).1 * 4 + b2n (plopSrc f s x l 1).1 * 2 + b2n (plopSrc f s x l 2).1))], 0⟩ := by
  change execPlop c f s = _
  simp only [execPlop, tbl_mod]
  rfl

/-- `p2n` pushes the eight predicates and their live bits (R151). -/
theorem exec_p2n (c : Common) (f : FmtT) (s : State) :
    exec (.p2n c f) s = laneInstr (.p2n c f) s 1 [] f.dst [] 4 (fun x s l => (List.range 8).any fun i => (s.pred x.g l i).2.1)
      fun x s l _ => ⟨[word (ofBits 16 fun i =>
        if i < 8 then (s.pred x.g l i).1 else ((x.g.lane l).p.getD (i - 8) (Reg.clear false)).live)], [], 0⟩ := by
  change execP2n c f s = _
  simp only [execP2n, ofBits_bytes]

/-- `n2p` writes the predicates that MOD names from the bits of its source (R151). -/
theorem exec_n2p (c : Common) (f : FmtT) (s : State) :
    exec (.n2p c f) s = laneInstr (.n2p c f) s 0 (f.codes 1) 0 f.marks 4 noExtra fun _ _ _ rs =>
      ⟨[], ((List.range 8).filter fun i => f.mod.getLsbD i).map fun i => (i, bit ((rs.head?.map fun r => r.val).getD 0) i), 0⟩ := rfl

/-- Whether lane number j is in the mask of a lane, by the kind that MOD selects (R151). -/
def Ctx.inLaneMask (x : Ctx) (l kind j : Nat) : Bool :=
  match kind with
  | 0 => j = x.id l
  | 1 => j < x.id l
  | 2 => j ≤ x.id l
  | 3 => x.id l < j
  | 4 => x.id l ≤ j
  | _ => (lanesOf x.mask).any fun k => (!x.ln.paired || k / 16 == l / 16) && x.id k == j

/-- `lmask` pushes the mask of its kind (R151). -/
theorem exec_lmask (c : Common) (f : FmtT) (s : State) :
    exec (.lmask c f) s = laneInstr (.lmask c f) s 1 [] f.dst [] 4 noExtra fun x _ l _ =>
      ⟨[word (ofBits (if x.ln.paired then 16 else 32) (x.inLaneMask l (f.m 2 0)))], [], 0⟩ := by
  change execLmask c f s = _
  unfold execLmask
  generalize f.m 2 0 = kind
  rcases kind with _ | _ | _ | _ | _ | kind <;> rfl

/-! ### `pdead` -/

/-- Lanes that retire without a result and are then changed: the shape of an instruction that acts on its lanes alone. -/
theorem finish_mapOn {s : State} {i : Instr} {x : Ctx} (h : Issues s i x) (first : Option (BitVec 6)) (lat : Nat) (w : Nat → Lane → Lane) :
    Issued s ((s.finish x (x.on.map fun l => ⟨l, [], [], 0, none⟩) 0 first 0 [] lat).modGroup x.key fun g =>
        g.mapLanes fun l e => if x.on.contains l then w l e else e) x
      (fun l e => w l (e.retire ⟨l, [], [], 0, none⟩ 0 [] (.from (s.cycle + lat))))
      (skipped s x first 0 (.from (s.cycle + lat))) x.g.k x.g.slices := by
  have hr := finish_retired h.ctx h.lanes (fun l => (⟨l, [], [], 0, none⟩ : Out)) (fun _ => rfl) 0 first 0 [] lat
  rw [Retired, kAfter_nil x _ _ _ _ fun _ => rfl] at hr
  obtain ⟨hframe, hon, hoff, hrest, hk, hslices, hflags⟩ :=
    hr.mapLanes (finish_lanes_length (ctx_group h.ctx) h.lanes _ _ _ _ _ _)
      (fun l e => if x.on.contains l then w l e else e)
      (fun l e hl _ => by simp [hl]) (fun l => ctx_on_lt h.ctx) (fun l => ctx_off_lt h.ctx)
  exact ⟨hframe, fun l hm => (hon l hm).trans (if_pos (List.contains_iff_mem.2 hm)),
    fun l hm => (hoff l hm).trans (if_neg fun hc => ctx_disjoint h.ctx hm (List.contains_iff_mem.1 hc)),
    hrest, hk, hslices, hflags⟩

/-- A lane whose named predicates are dead (R150). -/
def Lane.killPreds (f : FmtS) (e : Lane) : Lane :=
  { e with p := (withIdx e.p).map fun r => if f.imm.getLsbD r.1 then Reg.clear false else r.2 }

/-- `pdead`: the lanes retire without a result, and the named predicates of the guard-true ones die (R150). -/
theorem exec_pdead {c : Common} {f : FmtS} {s : State} {x : Ctx} (h : Issues s (.pdead c f) x) (hl : Lenient x) :
    exec (.pdead c f) s = .next
      (((s.finish x (x.on.map fun l => ⟨l, [], [], 0, none⟩) 0 none 0 [] 4).modGroup x.key fun g => g.mapLanes fun l e =>
        if x.on.contains l then e.killPreds f else e).bump) := by
  change execPdead c f s = _
  rw [execPdead, frame_issues h]
  simp only [strictTraps_lenient hl, List.any_nil, Bool.not_false, filter_all, takeTraps_nil]
  rfl

/-- Settles O10: the computing instructions have the shapes of `bitsT` and `laneInstr`, and `pdead` is an issue without results whose
guard-true lanes then lose the named predicates. That they are clear at once, with no write pending, is the model's choice (log
entry 49). -/
theorem movePredicateResults : Obligations.MovePredicateResults := by
  refine ⟨fun c f e => ⟨?_, ?_, ?_, ?_, ?_⟩,
    fun c f s x h hl => ⟨_, exec_pdead h hl, (finish_mapOn h none 4 fun _ e => e.killPreds f).bump⟩⟩
  · exact bitsT_patterns (body := fun _ v => src v 0) (fun _ => rfl) fun vs => by cases vs <;> rfl
  · exact laneInstr_computes (exec_plop c e) fun _ _ _ => rfl
  · exact laneInstr_computes (exec_p2n c f) fun _ _ _ => rfl
  · exact laneInstr_computes (extra := noExtra) (exec_n2p c f) fun _ _ _ => rfl
  · exact laneInstr_computes (extra := noExtra) (exec_lmask c f) fun _ _ _ => rfl

end Sys2Proof.Machine
end

section
/-! PROOFS. O15: what an atomic leaves is the value of its operation, and fits the width. -/

namespace Sys2Proof.Machine

/-- A choice between two values below a bound is below it. -/
theorem ite_lt_of_lt {p : Prop} [Decidable p] {a b n : Nat} (ha : a < n) (hb : b < n) : (if p then a else b) < n := by
  split
  · exact ha
  · exact hb

/-- The integer atomics keep to their width (R221). -/
theorem atomNew_lt {w o v : Nat} (sgn : Bool) (ho : o < 2 ^ w) (hv : v < 2 ^ w) {op : AtomOp} (hop : op.floating = false) :
    atomNew op w sgn o v < 2 ^ w := by
  cases op with
  | add => exact Nat.mod_lt _ (Nat.two_pow_pos w)
  | min => exact ite_lt_of_lt ho hv
  | max => exact ite_lt_of_lt hv ho
  | and => exact Nat.and_lt_two_pow o hv
  | or => exact Nat.or_lt_two_pow ho hv
  | xor => exact Nat.xor_lt_two_pow ho hv
  | xchg => exact hv
  | inc =>
    change (if v ≤ o then 0 else o + 1) < 2 ^ w
    split
    · exact Nat.two_pow_pos w
    · omega
  | fadd => exact nomatch hop
  | fmin => exact nomatch hop
  | fmax => exact nomatch hop

/-- Settles O15: the integer atomics of R221 compute what the statement writes out, and none leaves more bits than its width has. -/
theorem atomicNewValues : Obligations.AtomicNewValues := by
  intro w o v sgn _ ho hv
  refine ⟨rfl, rfl, rfl, rfl, rfl, rfl, rfl, rfl, fun op hop => atomNew_lt sgn ho hv ?_⟩
  revert op
  decide

end Sys2Proof.Machine
end

section
/-! PROOFS. O13: loads and stores of every space perform one access for each guard-true lane. -/

namespace Sys2Proof.Machine

/-! ### Accesses keep the group of the issue -/

theorem Grouped.readPieces {s : State} {x : Ctx} (h : Grouped s x.key) (l : Nat) (fresh : Bool) (ps : List (Loc × Nat)) :
    Grouped (s.readPieces x l fresh ps).1 x.key := h.of_work (readPieces_groups s x l fresh ps)

theorem Grouped.readElems {s : State} {x : Ctx} (h : Grouped s x.key) (l : Nat) (fresh : Bool) (n k : Nat) (ps : List (Loc × Nat)) :
    Grouped (s.readElems x l fresh n k ps).1 x.key := by
  induction k generalizing s ps with
  | zero => exact h
  | succ k ih => exact ih (h.readPieces l fresh _) _

theorem Grouped.writeElems {s : State} {x : Ctx} (h : Grouped s x.key) (l : Nat) (d : List (List Byte × Bool)) (ps : List (Loc × Nat)) :
    Grouped (s.writeElems x l d ps) x.key := by
  induction d generalizing s ps with
  | nil => exact h
  | cons e d ih => exact ih (h.writePieces l e.2 _ e.1) _

/-- A fold of changes each of which keeps the group keeps it. -/
theorem Grouped.foldl {α : Type} {key : Nat} {f : State → α → State} (hf : ∀ s a, Grouped s key → Grouped (f s a) key) (l : List α)
    {s : State} (h : Grouped s key) : Grouped (l.foldl f s) key :=
  List.foldlRecOn (motive := fun s => Grouped s key) l f h fun s hs a _ => hf s a hs

theorem Grouped.writeMasked {s : State} {x : Ctx} (h : Grouped s x.key) (l : Nat) (psn : Bool) (mask : Nat) (bs : List Byte)
    (ps : List (Loc × Nat)) : Grouped (s.writeMasked x l psn mask bs ps) x.key := by
  unfold State.writeMasked
  split
  · split
    · exact h.writePieces _ _ _ _
    · refine Grouped.foldl (fun s e hs => ?_) _ h
      split
      · split
        · exact hs.writePieces _ _ _ _
        · exact hs.writePieces _ _ _ _
      · exact hs
  · exact h

/-! ### The instructions -/

/-- `ld` reads one element, or two words of eight bytes at 128 bits (R212). -/
theorem exec_ld (c : Common) (f : FmtM) (s : State) :
    exec (.ld c f) s =
      memInstr (.ld c f) s f [f.sa] (if f.width = 4 then 2 else 1) f.dst .read (fun _ _ _ => (widthBytes f.width, widthBytes f.width)) []
        noData noPsn false fun x s l ps =>
          let r := s.readElems x l (f.hint == 1) (if f.width = 4 then 8 else widthBytes f.width) (if f.width = 4 then 2 else 1) ps
          (r.1, r.2.map fun e => (extend f.sgn e.1, e.2)) := by
  change execLd c f s = _
  unfold execLd
  by_cases hw : f.width = 4 <;> simp only [hw, ↓reduceIte]

/-- Settles O13: each instruction is a `memInstr` whose accesses read or write what the statement says. -/
theorem loadStoreResults : Obligations.LoadStoreResults := by
  have hsd : ∀ f : FmtM, f.sd + BitVec.ofNat 6 0 = f.sd := fun f => BitVec.add_zero f.sd
  refine ⟨fun c f => ⟨?_, ?_⟩, fun c f => ?_⟩
  · exact memInstr_performs (exec_ld c f) fun _ _ _ _ h => h.readElems _ _ _ _ _
  · exact memInstr_performs (i := .ld_2 c f) (fun _ => rfl) fun _ _ _ _ h => h.readElems _ _ _ _ _
  · simp only [hsd]
    refine ⟨?_, ?_, ?_, ?_⟩
    · exact memInstr_performs (i := .st c f) (fun _ => rfl) fun _ _ _ _ h => h.writeElems _ _ _
    · exact memInstr_performs (i := .st_2 c f) (fun _ => rfl) fun _ _ _ _ h => h.writeElems _ _ _
    · exact memInstr_performs (i := .stBm c f) (fun _ => rfl) fun _ _ _ _ h => h.writeMasked _ _ _ _ _
    · exact memInstr_performs (i := .stZ c f) (fun _ => rfl) fun _ _ _ _ h => h.writePieces _ _ _ _

end Sys2Proof.Machine
end

section
/-! PROOFS. O16: one access for an issue, and accesses that do not fault. -/

namespace Sys2Proof.Machine

/-! ### Uniform forms (R214) -/

/-- A uniform instruction whose one access passes performs it and retires every guard-true lane with what it gave. -/
theorem memUniform_retiredBy {i : Instr} {f : FmtM} {codes : List (BitVec 6)} {nres : Nat} {dst : BitVec 6} {acc : Acc}
    {data : Ctx → State → List (List Byte × Bool)} {act : Ctx → State → List (Loc × Nat) → State × List RedVal}
    (he : ∀ s, exec i s = memUniform i s f codes nres dst acc data act)
    (hact : ∀ x s ps, Grouped s x.key → Grouped (act x s ps).1 x.key) {s u : State} {x : Ctx} {m : Nat} {rest : List Nat}
    {ps : List (Loc × Nat)} (h : Issues s i x) (hl : Lenient x) (hon : x.on = m :: rest)
    (hpsn : ∀ l0, (lanesOf x.mask).head? = some l0 → (s.opnd x.g l0 f.sa).psn = false) (hp : x.pairsDiffer (fun _ => []) = false)
    (ha : s.access x f.space.toNat m (s.ea x f m) (2 ^ f.width.toNat) (2 ^ f.width.toNat) acc = .ok u ps)
    (hd : anyPsn (data x s) = true → ∀ q ∈ ps, kindOf [q] ≠ 3 ∧ kindOf [q] ≠ 4) :
    let r := act x (u.drainReleases x f.order f.scope acc (x.on.map fun l => .pass l ps)) ps
    ∃ t, exec i s = .next t ∧
      RetiredBy r.1 t x (x.on.map fun l => ⟨l, r.2, [], 0, none⟩) nres (some f.sa) dst [] (.op r.1.serial) .ready := by
  intro r
  obtain ⟨l0, hl0⟩ : ∃ l0, (lanesOf x.mask).head? = some l0 := by
    cases hm : lanesOf x.mask with
    | nil => simp [ctx_on h.ctx, hm] at hon
    | cons l0 _ => exact ⟨l0, rfl⟩
  have hstore : (anyPsn (data x s) && ps.any fun q => decide (kindOf [q] = 3) || decide (kindOf [q] = 4)) = false := by
    rw [Bool.and_eq_false_imp, List.any_eq_false]
    intro hpd q hq
    simp [hd hpd q hq]
  obtain ⟨g, hg, hlen⟩ : Grouped r.1 x.key := hact _ _ _ ((h.grouped.of_work (by rw [access_work ha])).drainReleases _ _ _ _)
  rw [he]
  refine ⟨_, frame_issues h _, RetiredBy.bump ?_⟩
  simp only [hl0, hpsn l0 hl0, Bool.false_eq_true, ↓reduceIte]
  split
  · next hnil => exact absurd (hon.symm.trans hnil) (List.cons_ne_nil m rest)
  · next m' _ hcons =>
    obtain rfl : m = m' := List.head_eq_of_cons_eq (hon.symm.trans hcons)
    have hlive : x.on.isEmpty = false := by rw [hon]; rfl
    have ha' : s.access x f.space.toNat m (s.ea x f m) (widthBytes f.width) (widthBytes f.width) acc = .ok u ps := ha
    simp only [strictTraps_lenient hl, List.any_nil, Bool.not_false, filter_all, hlive, hp, ha', hstore, Bool.false_eq_true, ↓reduceIte,
      takeTraps_nil]
    exact finishLong_by hg hlen _ (.inl (by simp [hon])) _ _ _ _ _ _

theorem exec_ldK (c : Common) (f : FmtM) (s : State) :
    exec (.ldK c f) s = memUniform (.ldK c f) s f [f.sa] 1 f.dst .read (fun _ _ => []) fun x s ps =>
      let r := s.readPieces x (x.on.headD 0) (f.hint == 1) ps
      (r.1, [(extend f.sgn r.2.1, r.2.2)]) := rfl

theorem exec_stK (c : Common) (f : FmtM) (s : State) :
    exec (.stK c f) s = memUniform (.stK c f) s f (storeCodes f) 0 0 .write (fun x s => s.storeData x f (x.on.headD 0)) fun x s ps =>
      (s.writeElems x (x.on.headD 0) (s.storeData x f (x.on.headD 0)) ps, []) := rfl

/-! ### Forms that do not fault (R216) -/

/-- Acts on the verdict of one lane, which retires with what that gives. -/
def verdictStep (act : State → LaneChk → State × List RedVal) (a : State × List Out) (k : LaneChk) : State × List Out :=
  ((act a.1 k).1, a.2 ++ [⟨k.lane, (act a.1 k).2, [], 0, none⟩])

/-- Acts on the verdicts of an issue in order. -/
def runVerdicts (act : State → LaneChk → State × List RedVal) (cs : List LaneChk) (s : State) : State × List Out :=
  cs.foldl (verdictStep act) (s, [])

theorem runVerdicts_grouped {key : Nat} {act : State → LaneChk → State × List RedVal}
    (ha : ∀ s k, Grouped s key → Grouped (act s k).1 key) (cs : List LaneChk) {s : State} (h : Grouped s key) :
    Grouped (runVerdicts act cs s).1 key :=
  List.foldlRecOn (motive := fun a : State × List Out => Grouped a.1 key) cs _ h fun _ hs k _ => ha _ k hs

theorem length_foldl_verdictStep (act : State → LaneChk → State × List RedVal) (cs : List LaneChk) (a : State × List Out) :
    (cs.foldl (verdictStep act) a).2.length = a.2.length + cs.length := by
  induction cs generalizing a with
  | nil => rfl
  | cons k cs ih =>
    rw [List.foldl_cons, ih, verdictStep, List.length_append, List.length_singleton, List.length_cons]
    omega

/-- Each verdict gives one lane's results. -/
theorem length_runVerdicts (act : State → LaneChk → State × List RedVal) (cs : List LaneChk) (s : State) :
    (runVerdicts act cs s).2.length = cs.length :=
  (length_foldl_verdictStep act cs (s, [])).trans (Nat.zero_add _)

theorem atsForget_groups (s : State) (die pasid page : Nat) : (s.atsForget die pasid page).work.groups = s.work.groups := by
  unfold State.atsForget
  split <;> rfl

theorem Grouped.ntForget {s : State} {key : Nat} (h : Grouped s key) (x : Ctx) (cs : List LaneChk) : Grouped (s.ntForget x cs) key :=
  Grouped.foldl (fun _ k hs => by
    split
    · exact hs.of_work (atsForget_groups _ _ _ _)
    · exact hs) cs h

/-- A store of clean data consumes nothing. -/
theorem storesPoison_clean (cs : List LaneChk) : storesPoison (fun _ => false) cs = none := by
  simp [storesPoison]

/-- A form that does not fault retires every lane with what the verdict on its access gives. -/
theorem memNt_retiredBy {i : Instr} {f : FmtM} {codes : List (BitVec 6)} {nres : Nat} {acc : Acc}
    {data : Ctx → State → Nat → List (List Byte × Bool)} {act : Ctx → State → Nat → LaneChk → State × List RedVal}
    (he : ∀ s, exec i s = memNt i s f codes nres acc data act)
    {s u : State} {x : Ctx} {cs : List LaneChk} {lane : State → LaneChk → State × List RedVal}
    (hlane : ∀ s k, act x s k.lane k = lane s k) (hkeep : ∀ s k, Grouped s x.key → Grouped (lane s k).1 x.key)
    (h : Issues s i x) (hl : Lenient x) (hne : x.actors x.on ≠ [] ∨ x.off ≠ []) (hpsn : ∀ l ∈ x.on, (s.opnd x.g l f.sa).psn = false)
    (hp : x.pairsDiffer (fun l => (s.ea x f l, false) :: dataKey (data x s l)) = false)
    (hc : State.checkAll x f.space.toNat acc
      ((x.actors x.on).map fun l => (l, s.ea x f l, 2 ^ f.width.toNat, 2 ^ f.width.toNat)) s [] = .done u cs)
    (hs : storesPoison (fun l => anyPsn (data x s l)) cs = none) :
    let r := runVerdicts lane cs (u.drainReleases x f.order f.scope acc cs)
    let v := r.1.ntForget x cs
    ∃ t, exec i s = .next t ∧ RetiredBy v t x (x.mirror r.2) nres (some f.sa) f.dst [] (.op v.serial) .ready := by
  intro r v
  have hu : Grouped u x.key := h.grouped.of_work (by rw [checkAll_work _ hc])
  obtain ⟨g, hg, hlen⟩ : Grouped v x.key := (runVerdicts_grouped hkeep cs (hu.drainReleases _ _ _ _)).ntForget _ _
  have houts : x.mirror r.2 ≠ [] ∨ x.off ≠ [] := by
    refine hne.imp_left fun hacts => mirror_ne fun hnil => hacts ?_
    have hcs : cs.length = (x.actors x.on).length := by simpa using checkAll_length _ hc
    have hr : cs.length = 0 := by rw [← length_runVerdicts, show (runVerdicts _ _ _).2 = [] from hnil]; rfl
    exact List.eq_nil_of_length_eq_zero (hcs.symm.trans hr)
  have hclean : (x.on.any fun l => (s.opnd x.g l f.sa).psn) = false := by
    rw [List.any_eq_false]
    intro l hm
    simp [hpsn l hm]
  rw [he]
  refine ⟨_, frame_issues h _, RetiredBy.bump ?_⟩
  have hc' : State.checkAll x f.space.toNat acc
      ((x.actors x.on).map fun l => (l, s.ea x f l, widthBytes f.width, widthBytes f.width)) s [] = .done u cs := hc
  simp only [strictTraps_lenient hl, List.any_nil, Bool.not_false, filter_all, hclean, hp, hc', hs, Bool.false_eq_true, ↓reduceIte,
    takeTraps_nil, hlane]
  exact finishLong_by hg hlen _ houts _ _ _ _ _ _

/-- The status of a verdict (R216). -/
def ntWord : LaneChk → Word
  | .pass _ _ => 0
  | .fault _ _ _ _ _ => 1
  | .trap t => if t.cause = 5 then 3 else 2

theorem word_ntStatus (k : LaneChk) : word (ntStatus k) = ntWord k := by
  cases k with
  | pass l ps => rfl
  | fault l va sp ats a => rfl
  | trap t =>
    change word (if t.cause = 5 then 3 else 2) = if t.cause = 5 then 3 else 2
    split <;> rfl

/-- What `ld.nt` does in the lane of a verdict (R216). -/
def ntLoad (f : FmtM) (x : Ctx) (s : State) : LaneChk → State × List RedVal
  | .pass l ps =>
    let q := s.readPieces x l (f.hint == 1) ps
    (q.1, [(0, false), (extend f.sgn q.2.1, q.2.2)])
  | k => (s, [(ntWord k, false), (0, false)])

/-- What `st.nt` does in the lane of a verdict (R216). -/
def ntStore (f : FmtM) (x : Ctx) (s : State) : LaneChk → State × List RedVal
  | .pass l ps => (s.writeElems x l (s.storeData x f l) ps, [(0, false)])
  | k => (s, [(ntWord k, false)])

theorem ntLoad_grouped {f : FmtM} {x : Ctx} {s : State} (k : LaneChk) (h : Grouped s x.key) : Grouped (ntLoad f x s k).1 x.key := by
  cases k with
  | pass l ps => exact h.readPieces l _ ps
  | fault l va sp ats a => exact h
  | trap t => exact h

theorem ntStore_grouped {f : FmtM} {x : Ctx} {s : State} (k : LaneChk) (h : Grouped s x.key) : Grouped (ntStore f x s k).1 x.key := by
  cases k with
  | pass l ps => exact h.writeElems l _ ps
  | fault l va sp ats a => exact h
  | trap t => exact h

theorem exec_ldNt (c : Common) (f : FmtM) (s : State) : exec (.ldNt c f) s = execLdNt c f s := rfl
theorem exec_stNt (c : Common) (f : FmtM) (s : State) : exec (.stNt c f) s = execStNt c f s := rfl

/-- Settles O16: `ld.k` and `st.k` are uniform instructions, and what `ld.nt` and `st.nt` give for a verdict is the statement's status
and datum. -/
theorem uniformNonFaultingResults : Obligations.UniformNonFaultingResults := by
  refine ⟨fun c f s u x m rest ps => ?_, fun c f s u x cs => ?_⟩
  · intro n ext d hl hon hpsn hp
    have hm : x.on.headD 0 = m := by rw [hon]; rfl
    refine ⟨fun h ha => ?_, fun h ha hd => ?_⟩
    · have hr := memUniform_retiredBy (exec_ldK c f) (fun _ _ _ hg => hg.readPieces _ _ _) h hl hon hpsn hp ha nofun
      rw [hm] at hr
      exact hr
    · have hd' : anyPsn (s.storeData x f (x.on.headD 0)) = true → ∀ q ∈ ps, kindOf [q] ≠ 3 ∧ kindOf [q] ≠ 4 := hm ▸ hd
      have hr := memUniform_retiredBy (exec_stK c f) (fun _ _ _ hg => hg.writeElems _ _ _) h hl hon hpsn hp ha hd'
      rw [hm] at hr
      exact hr
  · intro n ext status run entries hl hne hpsn
    refine ⟨fun h hp hc => ?_, fun h hp hc hs => ?_⟩
    · refine memNt_retiredBy (exec_ldNt c f) (lane := ntLoad f x) (fun s k => ?_) (fun _ k hg => ntLoad_grouped k hg) h hl hne hpsn hp hc ?_
      · cases k with
        | pass l ps => rfl
        | fault l va sp ats a => rfl
        | trap t => exact congrArg (fun w => (s, [(w, false), (0, false)])) (word_ntStatus (.trap t))
      · exact storesPoison_clean cs
    · refine memNt_retiredBy (exec_stNt c f) (lane := ntStore f x) (fun s k => ?_) (fun _ k hg => ntStore_grouped k hg) h hl hne hpsn hp hc hs
      cases k with
      | pass l ps => rfl
      | fault l va sp ats a => rfl
      | trap t => exact congrArg (fun w => (s, [(w, false)])) (word_ntStatus (.trap t))

end Sys2Proof.Machine
end

section
/-! PROOFS. O17: compressing stores, from the first rank or from the group's resume point, and expanding loads. -/

namespace Sys2Proof.Machine

/-! ### The elements of `st.cmp` (R217, R198) -/

/-- A run of elements that nothing stops keeps the group. -/
theorem cmpElems_grouped {x : Ctx} {f : FmtM} {b : Word} (es : List (Nat × Nat)) {s u : State} {r : Nat} (h : Grouped s x.key)
    (hr : State.cmpElems x f b es s = (u, r, .none)) : Grouped u x.key := by
  induction es generalizing s with
  | nil =>
    cases hr
    exact h
  | cons e es ih =>
    unfold State.cmpElems at hr
    dsimp only at hr
    split at hr
    · next v ps hok =>
      have hv : Grouped v x.key := h.of_work (congrArg Work.groups (access_work hok))
      have hdrained : Grouped (if (ps.map fun p => kindOf [p]).contains 1 = true then v.drainWcb x.key e.2 else v) x.key := by
        split
        · exact hv.drainWcb _ _
        · exact hv
      split at hr
      · cases hr
      · split at hr
        · cases hr
        · exact ih (hdrained.writeElems _ _ _) hr
    all_goals cases hr

/-- An element that passes its checks, on a page that takes it, is stored after the lane's buffered writes (R198). -/
theorem cmpElems_cons_ok {x : Ctx} {f : FmtM} {b : Word} {r l : Nat} {es : List (Nat × Nat)} {s u : State} {ps : List (Loc × Nat)}
    (ha : s.access x f.space.toNat l (b + word (r * 2 ^ f.width.toNat)) (2 ^ f.width.toNat) (2 ^ f.width.toNat) .write = .ok u ps)
    (hdev : ∀ q ∈ ps, kindOf [q] ≠ 4) (hwcb : anyPsn (s.storeData x f l) = true → ∀ q ∈ ps, kindOf [q] ≠ 3) :
    State.cmpElems x f b ((r, l) :: es) s =
      State.cmpElems x f b es
        ((if ∃ q ∈ ps, kindOf [q] = 1 then u.drainWcb x.key l else u).writeElems x l (s.storeData x f l) ps) := by
  have hkind : ∀ k, (ps.map fun p => kindOf [p]).contains k = true ↔ ∃ q ∈ ps, kindOf [q] = k := fun k => by
    rw [List.contains_iff_mem, List.mem_map]
  have h4 : (ps.map fun p => kindOf [p]).contains 4 = false := by
    rw [Bool.eq_false_iff, ne_eq, hkind]
    exact fun ⟨q, hq, hk⟩ => hdev q hq hk
  have h3 : (anyPsn (s.storeData x f l) && (ps.map fun p => kindOf [p]).contains 3) = false := by
    rw [Bool.and_eq_false_imp, Bool.eq_false_iff, ne_eq, hkind]
    exact fun hp ⟨q, hq, hk⟩ => hwcb hp q hq hk
  rw [State.cmpElems]
  simp only [widthBytes, ha, h4, h3, hkind, Bool.false_eq_true, ↓reduceIte]

/-- An element that meets a page fault stops the run at its rank. -/
theorem cmpElems_cons_pageFault {x : Ctx} {f : FmtM} {b : Word} {r l : Nat} {es : List (Nat × Nat)} {s : State} {va sp : Nat} {ats : Bool}
    (ha : s.access x f.space.toNat l (b + word (r * 2 ^ f.width.toNat)) (2 ^ f.width.toNat) (2 ^ f.width.toNat) .write =
      .pageFault va sp ats) :
    State.cmpElems x f b ((r, l) :: es) s = (s, r, .pageFault va sp ats) := by
  rw [State.cmpElems]
  simp only [widthBytes, ha]

/-! ### Where an issue of `st.cmp` begins (R217, R428) -/

/-- The resume point that an issue takes: its group's, if it is of this instruction and of one of its lanes. -/
def Ctx.point (x : Ctx) : Option Resume :=
  match x.g.resume with
  | some r => if r.pc == x.pc && (r.mask &&& x.mask) != 0 then some r else none
  | none => none

theorem Ctx.point_eq_none {x : Ctx} (h : ∀ r, x.g.resume = some r → r.pc = x.pc → r.mask &&& x.mask = 0) : x.point = none := by
  unfold Ctx.point
  split
  · next r hr =>
    refine if_neg fun hc => ?_
    rw [Bool.and_eq_true, beq_iff_eq, bne_iff_ne] at hc
    exact hc.2 (h r hr hc.1)
  · rfl

theorem Ctx.point_eq_some {x : Ctx} {p : Resume} (h : x.g.resume = some p) (hpc : p.pc = x.pc) (hm : p.mask &&& x.mask ≠ 0) :
    x.point = some p := by
  rw [Ctx.point, h]
  exact if_pos (Bool.and_eq_true_iff.2 ⟨beq_iff_eq.2 hpc, bne_iff_ne.2 hm⟩)

/-- The state from which the elements of an issue are stored: its point is taken. -/
def State.pointTaken (s : State) (x : Ctx) : Option Resume → State
  | some _ => s.modGroup x.key fun g => { g with resume := none }
  | none => s

/-- The lanes of an issue's ranks. -/
def Ctx.ranked (x : Ctx) : Option Resume → List Nat
  | some p => x.actors (lanesOf p.mask)
  | none => x.actors x.on

/-- The first rank that an issue stores. -/
def firstRank : Option Resume → Nat
  | some p => p.rank
  | none => 0

/-- The base of an issue's ranks: its point's, or the address of its lowest lane. -/
def baseOr (b : Word) : Option Resume → Word
  | some p => p.base
  | none => b

/-- An issue of `st.cmp` none of whose elements is stopped completes in every guard-true lane with the number of its ranks. -/
theorem stCmp_retiredBy {c : Common} {f : FmtM} {s u : State} {x : Ctx} {m r : Nat} {rest : List Nat} {q : Option Resume}
    (hq : x.point = q) (h : Issues s (.stCmp c f) x) (hl : Lenient x) (hacts : x.actors x.on = m :: rest)
    (hpsn : (s.opnd x.g m f.sa).psn = false)
    (hp : x.pairsDiffer (fun l => (s.ea x f l, false) :: dataKey (s.storeData x f l)) = false)
    (hb : (baseOr (s.ea x f m) q).toNat % 2 ^ f.width.toNat = 0)
    (hr : State.cmpElems x f (baseOr (s.ea x f m) q)
      ((withIdx (x.ranked q)).filter fun e => decide (firstRank q ≤ e.1) && x.on.contains e.2)
      (if 2 ≤ f.order.toNat ∧ f.scope = 5 then x.on.foldl (fun s l => s.drainWcb x.key l) (s.pointTaken x q) else s.pointTaken x q) =
        (u, r, .none)) :
    ∃ t, exec (.stCmp c f) s = .next t ∧
      RetiredBy u t x (x.on.map fun l => ⟨l, [(word (x.ranked q).length, false)], [], 0, none⟩) 1 (some f.sa) f.dst [] (.op u.serial)
        .ready := by
  have htaken : Grouped (s.pointTaken x q) x.key := by
    cases q with
    | none => exact h.grouped
    | some p => exact h.grouped.modGroup _ _ fun _ => rfl
  have hdrained : Grouped (if 2 ≤ f.order.toNat ∧ f.scope = 5 then x.on.foldl (fun s l => s.drainWcb x.key l) (s.pointTaken x q)
      else s.pointTaken x q) x.key := by
    split
    · exact Grouped.foldl (fun _ l hs => hs.drainWcb _ l) _ htaken
    · exact htaken
  obtain ⟨g, hg, hlen⟩ := cmpElems_grouped _ hdrained hr
  change ∃ t, execStCmp c f s = .next t ∧ _
  refine ⟨_, frame_issues h _, RetiredBy.bump ?_⟩
  extract_lets +onlyGivenNames strict point s1
  have hpoint : point = q := hq
  clear_value point
  subst hpoint
  have hstrict : strict = [] := strictTraps_lenient hl _
  clear_value strict
  subst hstrict
  have hon : x.on ≠ [] := fun hnil => by simp [hnil, Ctx.actors] at hacts
  cases point with
  | none | some p =>
    simp only [State.pointTaken, Ctx.ranked, firstRank, baseOr, hacts] at hb hr ⊢
    simp only [List.isEmpty_nil, Bool.not_true, hpsn, hp, widthBytes, hb, ne_eq, not_true_eq_false, Bool.false_eq_true, ↓reduceIte, s1]
    generalize hrun : State.cmpElems x f _ _ _ = run
    obtain rfl : run = (u, r, .none) := hrun.symm.trans hr
    exact finishLong_by hg hlen _ (.inl fun hnil => hon (List.map_eq_nil_iff.1 hnil)) _ _ _ _ _ _

/-! ### `ld.exp` -/

/-- Among verdicts that all pass there is none of another sort. -/
theorem find?_allPass {p : LaneChk → Bool} (hp : ∀ l qs, p (.pass l qs) = false) (ps : List (Nat × List (Loc × Nat))) :
    (allPass ps).find? p = none := by
  rw [List.find?_eq_none]
  intro k hk
  obtain ⟨q, -, rfl⟩ := List.mem_map.1 hk
  exact Bool.eq_false_iff.1 (hp q.1 q.2)

/-- What a guard-true lane of `ld.exp` reads (R217). -/
def expandLoad (f : FmtM) (x : Ctx) (s : State) (l : Nat) (ps : List (Loc × Nat)) : State × List RedVal :=
  let q := s.readPieces x l (f.hint == 1) ps
  (q.1, [(extend f.sgn q.2.1, q.2.2)])

/-- An issue of `ld.exp` whose accesses all pass gives its lanes their elements in order. -/
theorem ldExp_retiredBy {c : Common} {f : FmtM} {s u : State} {x : Ctx} {m : Nat} {rest : List Nat} {ps : List (Nat × List (Loc × Nat))}
    (h : Issues s (.ldExp c f) x) (hl : Lenient x) (hacts : x.actors x.on = m :: rest) (hpsn : (s.opnd x.g m f.sa).psn = false)
    (hp : x.pairsDiffer (fun l => [(s.ea x f l, false)]) = false) (hb : (s.ea x f m).toNat % 2 ^ f.width.toNat = 0)
    (ha : Accessible s x f.space.toNat .read ((withIdx (x.actors x.on)).map fun e =>
      (e.2, s.ea x f m + word (e.1 * 2 ^ f.width.toNat), 2 ^ f.width.toNat, 2 ^ f.width.toNat)) [4] u ps) :
    let r := performAll (expandLoad f x) ps u []
    ∃ t, exec (.ldExp c f) s = .next t ∧ RetiredBy r.1 t x (x.mirror r.2) 1 (some f.sa) f.dst [] (.op r.1.serial) .ready := by
  intro r
  obtain ⟨g, hg, hlen⟩ : Grouped r.1 x.key :=
    performAll_grouped (fun s l ps hs => hs.readPieces l _ ps) ps (h.grouped.of_work (by rw [checkAll_work _ ha.check])) []
  have hps : ps ≠ [] := fun hnil => by
    have := checkAll_length _ ha.check
    simp [allPass, hnil, hacts] at this
  have houts : x.mirror r.2 ≠ [] := mirror_ne fun hnil => hps <| List.eq_nil_of_length_eq_zero <| by
    rw [← Nat.zero_add ps.length, ← List.length_nil (α := Out), ← performAll_length, show (performAll _ _ _ _).2 = [] from hnil]
  rw [hacts] at ha
  change ∃ t, execLdExp c f s = .next t ∧ _
  refine ⟨_, frame_issues h _, RetiredBy.bump ?_⟩
  simp only [strictTraps_lenient hl, hacts, List.isEmpty_nil, Bool.not_true, hpsn, hp, widthBytes, hb, ne_eq, not_true_eq_false,
    Bool.false_eq_true, ↓reduceIte, ha.check, denyKinds_allPass ha.kinds, passed_allPass]
  rw [find?_allPass fun _ _ => rfl]
  exact finishLong_by hg hlen _ (.inl houts) _ _ _ _ _ _

/-- Settles O17: the two clauses on `st.cmp` are `stCmp_retiredBy` without a point and with the group's, and that on `ld.exp` is
`ldExp_retiredBy`; the elements are stored as `State.cmpElems` says in one step. -/
theorem compressExpandResults : Obligations.CompressExpandResults := by
  refine ⟨fun c f s u x m rest => ?_, fun x f b r l es s u ps => ?_⟩
  · intro n ext acts b hl hacts hpsn
    refine ⟨fun h hb hp hfresh hr => ?_, fun h hp p hp1 hpc hm hb hr => ?_, fun h hb hp ps ha => ?_⟩
    · obtain ⟨r, hr⟩ := hr
      exact stCmp_retiredBy (Ctx.point_eq_none hfresh) h hl hacts hpsn hp hb hr
    · obtain ⟨r, hr⟩ := hr
      exact stCmp_retiredBy (Ctx.point_eq_some hp1 hpc hm) h hl hacts hpsn hp hb hr
    · exact ldExp_retiredBy h hl hacts hpsn hp hb ha
  · intro n ha hdev hwcb
    exact ⟨cmpElems_cons_ok ha hdev hwcb, fun w va sp ats hw => cmpElems_cons_pageFault hw⟩

end Sys2Proof.Machine
end

section
/-! PROOFS. O19: a `wake` compares the counts of a pair of lanes with their addresses, whatever SGN is, where the statement has the
lanes agree in their addresses alone. -/

namespace Sys2Proof.Machine

/-- A `wake` whose pairs of lanes differ in address or count meets a mismatch (R228, R379). -/
theorem exec_wake_mismatch {c : Common} {f : FmtM} {s : State} {x : Ctx} (h : Issues s (.wake c f) x) (hl : Lenient x)
    (hclean : ∀ l ∈ x.on, (s.opnd x.g l f.sa).psn = false ∧ (s.opnd x.g l f.sd).psn = false)
    (hp : x.pairsDiffer (fun l => [(s.ea x f l, false), ((s.opnd x.g l f.sd).val, false)]) = true) :
    exec (.wake c f) s = .next (s.mismatchAt x f (s.ea x f)).bump := by
  have hany : (x.on.any fun l => (s.opnd x.g l f.sa).psn || (s.opnd x.g l f.sd).psn) = false := by
    rw [List.any_eq_false]
    intro l hm
    simp [hclean l hm]
  change execWake c f s = _
  rw [execWake, frame_issues h]
  simp only [strictTraps_lenient hl, List.any_nil, Bool.not_false, filter_all, hany, hp, Bool.false_eq_true, ↓reduceIte]

/-- The verdicts of an issue's checks, where all of them are passes that meet a condition. -/
def Checked.allPassB (p : State → List (Nat × List (Loc × Nat)) → Bool) : Checked → Bool
  | .done u cs => decide (cs = allPass (passed cs)) && p u (passed cs)
  | _ => false

theorem Checked.allPassB_done {p : State → List (Nat × List (Loc × Nat)) → Bool} {k : Checked} (h : k.allPassB p = true) :
    ∃ u ps, k = .done u (allPass ps) ∧ p u ps = true := by
  cases k with
  | done u cs =>
    obtain ⟨hcs, hp⟩ := Bool.and_eq_true_iff.1 h
    exact ⟨u, passed cs, congrArg _ (of_decide_eq_true hcs), hp⟩
  | poison a => exact nomatch h
  | later s => exact nomatch h

/-- The state that the statement gives a `wake` whose accesses pass. -/
def State.woken (s u : State) (x : Ctx) (f : FmtM) (ps : List (Nat × List (Loc × Nat))) : State :=
  let r := performAll (fun v l _ =>
    let k := v.keyOf x f.space.toNat (s.ea x f l).toNat
    let q := v.wake k.1 k.2 (v.opnd x.g l f.sd).val.toNat 0
    (q.1.recallLine k.1 k.2, [(word q.2, false)])) ps (u.drainReleases x f.order f.scope .read (allPass ps)) []
  (r.1.finishLong x (x.mirror r.2) 1 (some f.sa) f.dst [] [] false).bump

/-! ### A paired launch whose lanes 0 and 16 wake different counts -/

/-- `wake` of the key that n0 names, for as many waiters as n1 says; every guard is true. -/
def pairWakeFmt : FmtM := ⟨0, 0x10, 0x11, 0, 0, 0, 0, 0, 0, 0⟩
def pairWakeCommon : Common := { tt := 0xFF, ga := 0, gb := 0, gc := 0, wait := 0, set1 := 12, set2 := 12, dist := 0 }
def pairWake : Instr := .wake pairWakeCommon pairWakeFmt

/-- The plain launch with its lanes paired (R377). -/
def pairedLaunch : Launch := { plainLaunch with words := plainRecord.set 1 (word (2 ^ 43 + 3 * 2 ^ 38 + 1)) }

def pairedTeam : Team := { Team.fresh 0 0 0 pairedLaunch with released := true }

/-- Every lane has the key 0x100 in n0 and its own number in n1. -/
def pairedGroup : Group :=
  { team := indexKey 0 0, gid := 0, k := List.replicate 15 ⟨0, false, false, none⟩, flags := List.replicate 12 0,
    estate := Estate.fresh, resume := none, slices := List.replicate 8 Slice.fresh, segment := 0, rls := false, stage := .running,
    killed := false, killRec := none, items := [],
    lanes := (List.range 32).map fun l => { Lane.fresh 0x1000 with
      n := [⟨0x100, false, true, none⟩, ⟨word l, false, true, none⟩] ++ List.replicate 30 ⟨0, false, false, none⟩ } }

/-- A tenant whose root table is at 0x10000. -/
def pairedTenant : Tenant :=
  { host := false, root := 0x10000, quota := 2 ^ 30, reserve := [], tablePool := [], frames := [], ringBase := 0x8000, ringLog2 := 4,
    prod := 0, consAddr := 0x8400, serviceQueue := 0, session := none, mailboxes := [], scripts := 0, jobKeys := [] }

/-- Its tables: the first GiB of its space is physical memory from 0 on, readable and writable. -/
def pairedTables : Mem := (Mem.writeN [] 0x10000 (leBytes 8 0x11001)).writeN 0x11000 (leBytes 8 0x1C3)

/-- An issue of lanes 0 and 16 in progress. -/
def pairedState : State :=
  let s := ((State.reset.setLaunch 0 pairedLaunch).setTeam (indexKey 0 0) pairedTeam).setGroup (groupKey 0 0) pairedGroup
  { s with
    cur := .stream 0 0 0x10001 0x1000
    sec := { s.sec with tenants := s.sec.tenants.put 0 pairedTenant }
    mem := { s.mem with bytes := pairedTables } }

/-- That issue. -/
def pairedCtx : Ctx :=
  ⟨groupKey 0 0, 0x10001, 0x1000, pairedGroup, pairedTeam, pairedLaunch, ⟨0xAF, pairWakeCommon, .m pairWakeFmt⟩, [0, 16], []⟩

theorem pairWake_issues : Issues pairedState pairWake pairedCtx where
  ctx := by decide +kernel
  legal := by decide +kernel
  guards := by decide +kernel
  uniform := by decide +kernel
  converged := by decide +kernel
  lanes := by decide +kernel

theorem pairWake_lenient : Lenient pairedCtx := by
  unfold Lenient
  decide +kernel

theorem pairWake_clean : ∀ l ∈ pairedCtx.on, (pairedState.opnd pairedCtx.g l pairWakeFmt.sa).psn = false ∧
    (pairedState.opnd pairedCtx.g l pairWakeFmt.sd).psn = false := by decide +kernel

/-- Lanes 0 and 16 have one address and two counts. -/
theorem pairWake_addresses : pairedCtx.pairsDiffer (fun l => [(pairedState.ea pairedCtx pairWakeFmt l, false)]) = false := by
  decide +kernel

theorem pairWake_counts : pairedCtx.pairsDiffer (fun l => [(pairedState.ea pairedCtx pairWakeFmt l, false),
    ((pairedState.opnd pairedCtx.g l pairWakeFmt.sd).val, false)]) = true := by decide +kernel

/-- The access of lane 0 passes, and the state that the statement gives requests no kill. -/
theorem pairWake_accessible : ∃ u ps, Accessible pairedState pairedCtx pairWakeFmt.space.toNat .read
    ((pairedCtx.actors pairedCtx.on).map fun l => (l, pairedState.ea pairedCtx pairWakeFmt l, 1, 1)) [3, 4] u ps ∧
      (pairedState.woken u pairedCtx pairWakeFmt ps).work.kills = [] := by
  obtain ⟨u, ps, hcheck, hps⟩ := Checked.allPassB_done (k := State.checkAll pairedCtx pairWakeFmt.space.toNat .read
      ((pairedCtx.actors pairedCtx.on).map fun l => (l, pairedState.ea pairedCtx pairWakeFmt l, 1, 1)) pairedState [])
    (p := fun u ps => decide ((∀ p ∈ ps, ∀ q ∈ p.2, kindOf [q] ∉ [3, 4]) ∧
      (pairedState.woken u pairedCtx pairWakeFmt ps).work.kills = [])) (by decide +kernel)
  obtain ⟨hkinds, hquiet⟩ := of_decide_eq_true hps
  exact ⟨u, ps, ⟨hcheck, hkinds⟩, hquiet⟩

theorem pairWake_killed :
    (pairedState.mismatchAt pairedCtx pairWakeFmt (pairedState.ea pairedCtx pairWakeFmt)).work.kills ≠ [] := by decide +kernel

/-- Refutes O19: in a paired launch lanes 0 and 16 wake waiters of one key, the one as many as there are, the other 16. `wake` compares
the counts too (R379) and requests a gang kill; the statement compares the addresses alone, since SGN is 0, and requests none. -/
theorem not_waitWakeResults : ¬ Obligations.WaitWakeResults := by
  rintro ⟨hlanes, -⟩
  obtain ⟨u, ps, ha, hquiet⟩ := pairWake_accessible
  have hsgn : pairWakeFmt.sgn ≠ 1 := by decide
  obtain ⟨-, hwake⟩ := hlanes pairWakeCommon pairWakeFmt pairedState u pairedCtx ps pairWake_lenient
    (fun l hm => ⟨(pairWake_clean l hm).1, fun h1 => absurd h1 hsgn⟩) pairWake_addresses
  have hstated : exec pairWake pairedState = .next (pairedState.woken u pairedCtx pairWakeFmt ps) :=
    hwake pairWake_issues (fun l hm => (pairWake_clean l hm).2) ha
  have hrun := exec_wake_mismatch pairWake_issues pairWake_lenient pairWake_clean pairWake_counts
  have hsame := Host.Outcome.next.inj (hstated.symm.trans hrun)
  exact pairWake_killed ((congrArg (fun s => s.work.kills) hsame).symm.trans hquiet)

end Sys2Proof.Machine
end

section
/-! PROOFS. O21: what a word of memory holds once it is written, the fields of a control word, and cells that are taken. -/

namespace Sys2Proof.Machine

/-! ### Words in memory -/

@[simp] theorem length_leBytes (n v : Nat) : (leBytes n v).length = n := by
  induction n generalizing v with
  | zero => rfl
  | succ n ih => rw [leBytes, List.length_cons, ih]

/-- The bytes of a number give back its low 8 n bits. -/
theorem leNat_leBytes (n v : Nat) : leNat (leBytes n v) = v % 256 ^ n := by
  induction n generalizing v with
  | zero => rw [leBytes, leNat, Nat.pow_zero, Nat.mod_one]
  | succ n ih =>
    have hpow : 256 ^ (n + 1) = 256 * 256 ^ n := Nat.pow_succ'
    rw [leBytes, leNat, ih, BitVec.toNat_ofNat, hpow, Nat.mod_mul]

/-- Memory that holds given bytes at each place reads them. -/
theorem Mem.readN_eq_of_read (m : Mem) (bs : List Byte) (a : Nat) (h : ∀ j (hj : j < bs.length), m.read (a + j) = bs[j]) :
    m.readN a bs.length = bs := by
  induction bs generalizing a with
  | nil => rfl
  | cons b t ih =>
    rw [List.length_cons, Mem.readN, ih (a + 1) fun j hj => ?_]
    · exact congrArg (· :: t) (h 0 (Nat.succ_pos _))
    · rw [Nat.add_assoc, Nat.add_comm 1 j]
      exact h (j + 1) (Nat.succ_lt_succ hj)

namespace State

theorem recallHost_migs (s : State) (pa n : Nat) : (s.recallHost pa n).mem.migs = s.mem.migs := by
  unfold recallHost
  split
  · rfl
  · refine List.foldlRecOn (motive := fun u : State => u.mem.migs = s.mem.migs) _ _ rfl fun u hu k _ => ?_
    split <;> exact hu

theorem recallHost_twins (s : State) (pa n a k : Nat) : (s.recallHost pa n).twins a k = s.twins a k := by
  rw [twins, twins, recallHost_migs]

/-- Writes of migrations leave an address outside them alone. -/
theorem foldl_twin_read {psn : Bool} {bs : List Byte} {c : Nat} (ts : List (Nat × Nat × Nat))
    (h : ∀ t ∈ ts, c < t.2.1 ∨ t.2.1 + t.2.2 ≤ c) (s : State) :
    (ts.foldl (fun (s : State) t => (s.recallHost t.2.1 t.2.2).homeWrite t.2.1 ((bs.drop t.1).take t.2.2) psn) s).mem.bytes.read c =
      s.mem.bytes.read c := by
  refine List.foldlRecOn (motive := fun u : State => u.mem.bytes.read c = s.mem.bytes.read c) ts _ rfl fun u hu t ht => ?_
  have hout : c < t.2.1 ∨ t.2.1 + ((bs.drop t.1).take t.2.2).length ≤ c :=
    (h t ht).imp_right (Nat.le_trans (Nat.add_le_add_left (List.length_take_le _ _) _))
  rw [homeWrite, Mem.read_writeN_out _ _ _ _ hout, recall_bytes, hu]

/-- A byte written reads back where no migration writes over it (R308). -/
theorem physWrite_read (s : State) {pa : Nat} {bs : List Byte} (psn : Bool) {j : Nat} (hj : j < bs.length)
    (h : ∀ t ∈ s.twins pa bs.length, pa + j < t.2.1 ∨ t.2.1 + t.2.2 ≤ pa + j) :
    (s.physWrite pa bs psn).mem.bytes.read (pa + j) = bs[j] := by
  rw [← recallHost_twins s pa bs.length] at h
  rw [physWrite, foldl_twin_read _ h, homeWrite, Mem.read_writeN_in _ _ _ _ hj]

/-- A word written reads back where no migration writes over it. -/
theorem physWord_setPhysWord (s : State) (pa : Nat) (w : Word)
    (h : ∀ t ∈ s.twins pa 8, ∀ j, j < 8 → pa + j < t.2.1 ∨ t.2.1 + t.2.2 ≤ pa + j) :
    (s.setPhysWord pa w).physWord pa = w := by
  have hread : (s.setPhysWord pa w).mem.bytes.readN pa 8 = leBytes 8 w.toNat :=
    Mem.readN_eq_of_read _ (leBytes 8 w.toNat) pa fun j hj =>
      s.physWrite_read false hj fun t ht => h t (length_leBytes 8 _ ▸ ht) j (length_leBytes 8 _ ▸ hj)
  rw [physWord, Mem.readNat, hread, leNat_leBytes, show 256 ^ 8 = 2 ^ 64 from rfl, Nat.mod_eq_of_lt w.isLt]
  exact BitVec.ofNat_toNat 64 w

theorem setPhysWord_group (s : State) (pa : Nat) (w : Word) (k : Nat) : (s.setPhysWord pa w).group? k = s.group? k :=
  congrArg (fun u : Work => Sparse.get? u.groups k) (physWrite_work s pa (leBytes 8 w.toNat) false)

end State

/-! ### Control words (R232) -/

theorem ctlWord_toNat {st : Nat} (hst : st < 4) (brv : Bool) (h : Holder) :
    (ctlWord st brv h).toNat = st * 2 ^ 62 + b2n brv * 2 ^ 61 + h.hk % 4 * 2 ^ 59 + h.lslot % 4096 * 2 ^ 47 + h.grp % 16 * 2 ^ 43 +
      h.team % 2 ^ 31 * 2 ^ 12 := by
  have hb : b2n brv ≤ 1 := by cases brv <;> decide
  rw [ctlWord, word, BitVec.toNat_ofNat, Nat.mod_eq_of_lt (by omega)]

theorem stOf_ctlWord {st : Nat} (hst : st < 4) (brv : Bool) (h : Holder) : stOf (ctlWord st brv h) = st := by
  have hb : b2n brv ≤ 1 := by cases brv <;> decide
  rw [stOf, bits, nbits, ctlWord_toNat hst, Nat.shiftRight_eq_div_pow]
  omega

theorem brvOf_ctlWord {st : Nat} (hst : st < 4) (brv : Bool) (h : Holder) : brvOf (ctlWord st brv h) = brv := by
  have hmod : (ctlWord st brv h).toNat / 2 ^ 61 % 2 = b2n brv := by
    have hb : b2n brv ≤ 1 := by cases brv <;> decide
    rw [ctlWord_toNat hst]
    omega
  rw [brvOf, bit, Nat.testBit_eq_decide_div_mod_eq, hmod]
  cases brv <;> rfl

/-- A control word made of fields in their ranges names its holder. -/
theorem holderOf_ctlWord {st : Nat} (hst : st < 4) (brv : Bool) {h : Holder} (hk : h.hk < 4) (hl : h.lslot < 4096) (hg : h.grp < 16)
    (ht : h.team < 2 ^ 31) : holderOf (ctlWord st brv h) = h := by
  have hb : b2n brv ≤ 1 := by cases brv <;> decide
  obtain ⟨hk', lslot, grp, team⟩ := h
  simp only [holderOf, bits, nbits, ctlWord_toNat hst, Nat.shiftRight_eq_div_pow, Holder.mk.injEq] at *
  omega

/-- The low twelve bits of a control word are zero. -/
theorem reserved_ctlWord {st : Nat} (hst : st < 4) (brv : Bool) (h : Holder) : bits (ctlWord st brv h) 11 0 = 0 := by
  rw [bits, nbits, ctlWord_toNat hst, Nat.shiftRight_eq_div_pow]
  omega

/-- A control word of a lock or claim that is free, held or reserved is well formed. -/
theorem malformedCtl_ctlWord {st : Nat} (hst : st < 3) (brv : Bool) (h : Holder) : malformedCtl (ctlWord st brv h) false = false := by
  have hne : ¬ st = 3 := by omega
  simp [malformedCtl, reserved_ctlWord (Nat.lt_succ_of_lt hst), stOf_ctlWord (Nat.lt_succ_of_lt hst), hne]

/-- The identity of a group is of kind 0. -/
theorem State.identity_hk (s : State) (key : Nat) : (s.identity key).hk = 0 := by
  unfold State.identity
  split
  · split <;> rfl
  · rfl

/-! ### Cells that are taken (R238) -/

/-- What taking a cell answers with a status: the predicate of a try says whether the cell was taken, that of the other requests whether
it was bereaved. -/
def CellRes.taking (tries : Bool) (st : Nat) : CellRes := .done [word st] (some (if tries then st = 0 || st = 2 else st = 2))

section Take

variable {s : State} {k : Cell} {key : Nat}

theorem take_malformed (hm : malformedCtl (s.physWord k.pa) false = true) (lane opc : Nat) (claim tries : Bool) (range : Word)
    (scope : Nat) : s.take k key lane opc claim tries range scope = (s, .taking tries 6) := by
  rw [State.take, if_pos hm]
  rfl

variable {w : Word} (hw : s.effective k (s.physWord k.pa) false = w) (hm : malformedCtl (s.physWord k.pa) false = false)
include hw hm

theorem take_mine (hmine : s.matchesHolder key (holderOf w) = true) (hst : stOf w = 1) (lane opc : Nat) (claim tries : Bool)
    (range : Word) (scope : Nat) : s.take k key lane opc claim tries range scope = (s, .taking tries 4) := by
  subst hw
  simp [State.take, hm, hmine, hst, CellRes.taking]

/-- A cell that is free or reserved for the group is given to it, unless its estate table is full. -/
theorem take_open (ho : stOf w = 0 ∨ (stOf w = 2 ∧ s.matchesHolder key (holderOf w) = true)) (lane opc : Nat) (claim tries : Bool)
    (range : Word) (scope : Nat) :
    s.take k key lane opc claim tries range scope =
      if s.estateFull key then (s, .taking tries 3)
      else (s.give k key claim range scope (brvOf w), .taking tries (if brvOf w then 2 else 0)) := by
  subst hw
  have hst : stOf (s.effective k (s.physWord k.pa) false) ≠ 1 := by
    rcases ho with h | ⟨h, -⟩ <;> rw [h] <;> decide
  simp [State.take, hm, hst, ho, CellRes.taking]

/-- A cell of another holder is refused to a try, and waited for by the other requests if the slice has room. -/
theorem take_other (ho : ¬ (stOf w = 0 ∨ (stOf w = 2 ∧ s.matchesHolder key (holderOf w) = true)))
    (hn : ¬ (s.matchesHolder key (holderOf w) = true ∧ stOf w = 1)) (lane opc : Nat) (claim tries : Bool) (range : Word) (scope : Nat) :
    s.take k key lane opc claim tries range scope =
      if tries then (s, .taking tries 1)
      else if s.sliceFull k.va then (s, .taking tries 3)
      else
        let e : Waiter := ⟨k.va, k.tenant, key, lane, true, BitVec.ofNat 8 opc, scope, range, false, none⟩
        (s.enter e, .wait e) := by
  subst hw
  simp [State.take, hm, ho, hn, CellRes.taking]

end Take

/-! ### Cells that are given (R232, R234, R238) -/

/-- A lock that is given holds the control word of its new holder. -/
theorem give_physWord (s : State) (k : Cell) (key : Nat) (range : Word) (scope : Nat) (brv : Bool)
    (h : ∀ t ∈ s.twins k.pa 8, ∀ j, j < 8 → k.pa + j < t.2.1 ∨ t.2.1 + t.2.2 ≤ k.pa + j) :
    (s.give k key false range scope brv).physWord k.pa = ctlWord 1 false (s.identity key) :=
  s.physWord_setPhysWord k.pa _ h

/-- The group that is given a lock has one more entry. -/
theorem give_group {s : State} {key : Nat} {g : Group} (hg : s.group? key = some g) (k : Cell) (range : Word) (scope : Nat) (brv : Bool) :
    (s.give k key false range scope brv).group? key = some { g with estate := g.estate.append 0 scope k.va brv } := by
  have hset : (s.setPhysWord k.pa (ctlWord 1 false (s.identity key))).group? key = some g := (s.setPhysWord_group _ _ _).trans hg
  rw [State.give, State.modEstate, State.modGroup_group_self]
  exact congrArg (Option.map _) hset

/-- Settles O21: taking a cell goes by what its control word says (R238), and a cell that is given holds a word made by `ctlWord`, whose
fields read back. -/
theorem holdingCells : Obligations.HoldingCells := by
  refine ⟨fun s k key lane opc claim tries range scope => ?_, fun s k key g range scope brv _ hg htwins => ?_⟩
  · intro w0 w mine free r done
    refine ⟨fun hm => take_malformed hm .., fun hm ⟨hmine, hst⟩ => take_mine rfl hm hmine hst .., fun hm ho hf => ?_, fun hm ho hf => ?_,
      fun hm ho hn ht => ?_, fun hm ho hn ht hf => ?_, fun hm ho hn ht hf => ?_⟩
    · exact (take_open rfl hm ho ..).trans (if_pos hf)
    · exact (take_open rfl hm ho ..).trans (if_neg (Bool.eq_false_iff.1 hf))
    · exact (take_other rfl hm ho hn ..).trans (if_pos ht)
    · exact (take_other rfl hm ho hn ..).trans ((if_neg (Bool.eq_false_iff.1 ht)).trans (if_pos hf))
    · exact (take_other rfl hm ho hn ..).trans ((if_neg (Bool.eq_false_iff.1 ht)).trans (if_neg (Bool.eq_false_iff.1 hf)))
  · intro id t hl hgrp hteam
    have hword : t.physWord k.pa = ctlWord 1 false id := give_physWord s k key range scope brv htwins
    have hkind : id.hk < 4 := Nat.lt_of_le_of_lt (Nat.le_of_eq (s.identity_hk key)) (by decide)
    rw [hword]
    exact ⟨stOf_ctlWord (by decide) .., brvOf_ctlWord (by decide) .., malformedCtl_ctlWord (by decide) ..,
      holderOf_ctlWord (by decide) _ hkind hl hgrp hteam, _, give_group hg k range scope brv, rfl⟩

end Sys2Proof.Machine
end

section
/-! PROOFS. O20: the instructions on cells, which act lane by lane and let lanes wait, and those on heirs and estates. -/

namespace Sys2Proof.Machine

/-! ### Instructions on cells (R231 to R241) -/

/-- The state in which an issue's operations on cells are performed: each lane's buffered writes are performed first where the
instruction releases at system scope or the cell is NSO, and the host's copies of the cells come back (R198, R205). -/
def State.cellsReady (u : State) (x : Ctx) (f : FmtM) (releases : Bool) (ps : List (Nat × List (Loc × Nat))) : State :=
  ps.foldl (fun s p =>
    let s := if (releases && f.scope = 5) || kindOf p.2 = 1 then s.drainWcb x.key p.1 else s
    s.recallPieces p.2) u

/-- What an issue leaves whose operations on cells are done from state v on: lanes that complete, and lanes that wait, each with its
twin in a paired launch. -/
def State.cellsDone (v : State) (x : Ctx) (f : FmtM) (nres : Nat) (va : Nat → Nat) (op : State → Nat → Cell → State × CellRes)
    (ps : List (Nat × List (Loc × Nat))) : State :=
  let r := State.cellLanes x f va op ps v [] []
  let ws := r.2.2 ++ (r.2.2.filter fun w => x.ln.paired && x.on.contains (w.1 + 16)).map fun w => (w.1 + 16, w.2)
  (r.1.settle x ws (x.mirror r.2.1) nres (some f.sa) f.dst).bump

/-- An instruction that `cellInstr` frames performs its operation on the cells of an issue all of whose accesses pass. -/
theorem cellInstr_performs {i : Instr} {f : FmtM} {codes : List (BitVec 6)} {nres : Nat} {rel : Bool}
    {op : Ctx → State → State → Nat → Cell → State × CellRes} (he : ∀ s, exec i s = cellInstr i s f codes nres rel op)
    {s u : State} {x : Ctx} {ps : List (Nat × List (Loc × Nat))} (h : Issues s i x) (hl : Lenient x)
    (hclean : ∀ l ∈ x.on, ∀ c ∈ codes, (s.opnd x.g l c).psn = false)
    (hp : x.pairsDiffer (fun l => (s.ea x f l, false) :: codes.map fun c => ((s.opnd x.g l c).val, (s.opnd x.g l c).psn)) = false)
    (ha : Accessible s x 0 .rmw ((x.actors x.on).map fun l => (l, s.ea x f l, 2 ^ f.width.toNat, 2 ^ f.width.toNat)) [3, 4] u ps)
    (hold : ∀ p ∈ ps, (u.readPieces x p.1 true p.2).2.2 = false) :
    exec i s = .next ((u.cellsReady x f rel ps).cellsDone x f nres (fun l => (s.ea x f l).toNat) (op x s) ps) := by
  have hany : (x.on.any fun l => (codes.map fun c => ((s.opnd x.g l c).val, (s.opnd x.g l c).psn)).any fun v => v.2) = false := by
    rw [List.any_eq_false]
    intro l hm
    rw [List.any_map, Bool.not_eq_true, List.any_eq_false]
    exact fun c hc => Bool.eq_false_iff.1 (hclean l hm c hc)
  rw [he, cellInstr, frame_issues h]
  simp only [strictTraps_lenient hl, List.any_nil, Bool.not_false, filter_all, hany, hp, widthBytes, ha.check, denyKinds_allPass ha.kinds,
    oldPoison_allPass hold, passed_allPass, trapsOf_allPass, List.append_nil, takeTraps_nil, parkFaults_allPass, Bool.false_eq_true,
    ↓reduceIte]
  rfl

/-! ### Heirs (R242) -/

/-- The heirs that an estate has once one is written: the current one or the default one, and under `.all` that of every entry. -/
theorem Estate.setHeir_eq (e : Estate) (kind arg : Nat) (dflt all : Bool) :
    e.setHeir kind arg dflt all =
      { (if dflt then { e with dfltKind := kind, dfltArg := arg } else { e with curKind := kind, curArg := arg }) with
        entries := if all then e.entries.map fun x => { x with heir := kind, harg := arg } else e.entries } := by
  cases dflt <;> cases all <;> rfl

/-- An heir is written, and the guard-true lanes retire without a result. -/
def State.heirWritten (u : State) (x : Ctx) (f : FmtS) (kind arg : Nat) (dflt all : Bool) : State :=
  ((u.modEstate x.key fun e => e.setHeir kind arg dflt all).finishLong x (x.on.map fun l => ⟨l, [], [], 0, none⟩) 0 (some f.sa) 0 [] []
    false).bump

theorem heirWritten_retiredBy {u : State} {x : Ctx} (hu : Grouped u x.key) (hon : x.on ≠ []) (f : FmtS) (kind arg : Nat)
    (dflt all : Bool) :
    let v := u.modGroup x.key fun g => { g with estate :=
      { (if dflt then { g.estate with dfltKind := kind, dfltArg := arg } else { g.estate with curKind := kind, curArg := arg }) with
        entries := if all then g.estate.entries.map fun e => { e with heir := kind, harg := arg } else g.estate.entries } }
    RetiredBy v (u.heirWritten x f kind arg dflt all) x (x.on.map fun l => ⟨l, [], [], 0, none⟩) 0 (some f.sa) 0 [] (.op v.serial)
      .ready := by
  intro v
  have hv : u.modEstate x.key (fun e => e.setHeir kind arg dflt all) = v := by
    simp only [State.modEstate, Estate.setHeir_eq, v]
  obtain ⟨g, hg, hlen⟩ : Grouped v x.key := hu.modGroup _ _ fun _ => rfl
  rw [State.heirWritten, hv]
  exact (finishLong_by hg hlen _ (.inl fun hnil => hon (List.map_eq_nil_iff.1 hnil)) _ _ _ _ _ _).bump

section HeirSet

variable {c : Common} {f : FmtS} {s : State} {x : Ctx} (h : Issues s (.heirSet c f) x) (hl : Lenient x)
  (hclean : ∀ l ∈ x.on, (s.opnd x.g l f.sa).psn = false) (hp : x.pairsDiffer (fun l => [((s.opnd x.g l f.sa).val, false)]) = false)
  {m : Nat} {rest : List Nat} (hon : x.on = m :: rest)
include h hl hclean hp hon

/-- The argument of an heir that is no wake key is read from the lowest guard-true lane. -/
theorem exec_heirSet (hk : f.sel.toNat % 8 ≠ 5) :
    exec (.heirSet c f) s = .next (s.heirWritten x f (f.sel.toNat % 8)
      (if f.sel.toNat % 8 = 1 then (s.opnd x.g m f.sa).val.toNat % 16 else 0) (f.imm.getLsbD 1) (f.imm.getLsbD 0)) := by
  have hany : (x.on.any fun l => (s.opnd x.g l f.sa).psn) = false :=
    List.any_eq_false.2 fun l hm => Bool.eq_false_iff.1 (hclean l hm)
  change execHeirSet c f s = _
  rw [execHeirSet, frame_issues h]
  rw [hon] at hany
  simp only [strictTraps_lenient hl, List.any_nil, Bool.not_false, filter_all, hon, hany, hp, hk, takeTraps_nil, Bool.false_eq_true,
    ↓reduceIte]
  rw [← hon]
  rfl

/-- A wake key that is an heir is checked as `wait` checks its key. -/
theorem exec_heirSet_wakeKey (hk : f.sel.toNat % 8 = 5) {v : State} {ps : List (Loc × Nat)}
    (ha : Accessible s x 0 .rmw [(m, (s.opnd x.g m f.sa).val, 4, 4)] [3, 4] v [(m, ps)]) :
    exec (.heirSet c f) s = .next (v.heirWritten x f 5 ((s.opnd x.g m f.sa).val.toNat % 2 ^ 48) (f.imm.getLsbD 1) (f.imm.getLsbD 0)) := by
  have hany : (x.on.any fun l => (s.opnd x.g l f.sa).psn) = false :=
    List.any_eq_false.2 fun l hm => Bool.eq_false_iff.1 (hclean l hm)
  change execHeirSet c f s = _
  rw [execHeirSet, frame_issues h]
  rw [hon] at hany
  simp only [strictTraps_lenient hl, List.any_nil, Bool.not_false, filter_all, hon, hany, hp, hk, ha.check, denyKinds_allPass ha.kinds,
    takeTraps_nil, Bool.false_eq_true, ↓reduceIte]
  rw [← hon]
  rfl

end HeirSet

/-- `heir.clr` writes no heir where no lane is guard-true. -/
theorem exec_heirClr {c : Common} {f : FmtS} {s : State} {x : Ctx} (h : Issues s (.heirClr c f) x) (hl : Lenient x)
    (hp : x.pairsDiffer (fun _ => []) = false) :
    exec (.heirClr c f) s = .next (if x.on = [] then (s.finishLong x [] 0 (some f.sa) 0 [] [] false).bump
      else s.heirWritten x f 0 0 false (f.imm.getLsbD 0)) := by
  change execHeirClr c f s = _
  rw [execHeirClr, plainFrame, frame_issues h]
  simp only [strictTraps_lenient hl, hp, Bool.false_eq_true, ↓reduceIte, List.isEmpty_iff]
  split
  · next hnil => rw [hnil, List.map_nil]
  · rfl

/-! ### Queries of the estate (R243) -/

/-- `est.q` asks for the summary. -/
theorem exec_estQ (c : Common) (f : FmtS) (s : State) :
    exec (.estQ c f) s = queryInstr (.estQ c f) s f.dst 1 fun e => [e.summary] := rfl

/-- `est.rd` asks for an entry's words, and for zeros where there is no entry. -/
theorem exec_estRd (c : Common) (f : FmtS) (s : State) :
    exec (.estRd c f) s = queryInstr (.estRd c f) s f.dst 2 fun e =>
      match e.entries[f.sel.toNat % 16]? with
      | some x => x.words
      | none => [0, 0] := rfl

/-- A query gives every guard-true lane the same words of the estate. -/
theorem queryInstr_retired {i : Instr} {dst : BitVec 6} {nres : Nat} {vals : Estate → List Word}
    (he : ∀ s, exec i s = queryInstr i s dst nres vals) {s : State} {x : Ctx} (h : Issues s i x) (hl : Lenient x)
    (hp : x.pairsDiffer (fun _ => []) = false) :
    ∃ t, exec i s = .next t ∧ Retired s t x (fun l => ⟨l, (vals x.g.estate).map fun v => (v, false), [], 0, none⟩) nres none dst []
      (.from (s.cycle + 4)) (.from (s.cycle + 4)) := by
  rw [he]
  refine ⟨_, frame_issues h _, Issued.bump ?_⟩
  simp only [strictTraps_lenient hl, List.any_nil, Bool.not_false, filter_all, hp, takeTraps_nil, Bool.false_eq_true, ↓reduceIte]
  exact finish_retired h.ctx h.lanes _ (fun _ => rfl) _ _ _ _ _

/-- Settles O20: the instructions on cells are those that `cellInstr` frames, and those on heirs and estates do what their lemmas
say. -/
theorem holdingInstructionResults : Obligations.HoldingInstructionResults := by
  refine ⟨fun c f => ?_, fun c f s x hl hm hp => ?_⟩
  · intro scope sd cell
    have performs {i : Instr} {codes : List (BitVec 6)} {nres : Nat} {rel : Bool}
        {op : State → Ctx → State → Nat → Cell → State × CellRes}
        (he : ∀ s, exec i s = cellInstr i s f codes nres rel fun x s => op s x) : cell i codes nres rel op :=
      fun _ _ _ _ h hl hclean hp ha hold => cellInstr_performs he h hl hclean hp ha hold
    exact ⟨performs fun _ => rfl, performs fun _ => rfl, performs fun _ => rfl, performs fun _ => rfl, performs fun _ => rfl,
      performs fun _ => rfl, performs fun _ => rfl, performs fun _ => rfl, performs fun _ => rfl, performs fun _ => rfl,
      performs fun _ => rfl, performs fun _ => rfl⟩
  · intro kind write
    refine ⟨fun h hk hclean hpa m rest hon => ?_, fun h hk hclean hpa m rest v ps hon ha => ?_, fun h => ?_,
      fun h => queryInstr_retired (exec_estQ c f) h hl hp, fun h => queryInstr_retired (exec_estRd c f) h hl hp⟩
    · exact ⟨_, exec_heirSet h hl hclean hpa hon hk, heirWritten_retiredBy h.grouped (by simp [hon]) ..⟩
    · exact ⟨_, exec_heirSet_wakeKey h hl hclean hpa hon hk ha,
        heirWritten_retiredBy (h.grouped.of_work (congrArg Work.groups (checkAll_work _ ha.check))) (by simp [hon]) ..⟩
    · refine ⟨_, exec_heirClr h hl hp, ?_⟩
      by_cases hon : x.on = []
      · have houts : ([] : List Out) ≠ [] ∨ x.off ≠ [] := by simpa [hon] using outs_ne h.ctx hm fun l => ⟨l, [], [], 0, none⟩
        simp only [hon, ↓reduceIte, List.map_nil]
        exact (finishLong_by (ctx_group h.ctx) h.lanes [] houts _ _ _ _ _ _).bump
      · simp only [hon, ↓reduceIte]
        exact heirWritten_retiredBy h.grouped hon ..

end Sys2Proof.Machine
end
